-- ==== Sys2Proof/Word.lean ====
section
/-!
DEFINITION. The word types of the TV-4860 (R9: a word is 32 bits, memory is addressed in bytes).
-/
namespace Sys2Proof

/-- One byte of memory. -/
abbrev Byte := BitVec 8

/-- One 32-bit word (R9). -/
abbrev Word := BitVec 32

/-- A 64-bit value: a fence value, a seed (R9, R117). -/
abbrev Dword := BitVec 64

end Sys2Proof
end

