-- ==== Sys2Proof/Syntax.lean ====
section
/-!
DEFINITION. The commands of the TV-4860: one constructor per row of the spec's table of operations and
events. A command carries the operands that come from outside the part: which unit it happens at, the bytes or
words that arrive, a result the spec does not let the device compute (a shader's outputs: the engine's
instruction encoding is not published, R92), and when it happens. A time `t` is a count of the 64-bit
wake-oscillator counter (R85); a time `c` is a count of ACLK cycles.
-/
namespace Sys2Proof

/-- Physical engine index (R21). -/
abbrev Eng := Fin 64
/-- Hardware queue slot (R430). -/
abbrev Slot := Fin 64
/-- Queue number (R372). -/
abbrev Qid := Fin 4096
/-- Partition (R441). -/
abbrev Part := Fin 9
/-- Quad index (R21). -/
abbrev Quad := Fin 16
/-- Sector index (R21). -/
abbrev Sector := Fin 4
/-- Mailbox (R462). -/
abbrev Mb := Fin 8
/-- Display pipe (R519). -/
abbrev Pipe := Fin 4
/-- Capture unit (R506). -/
abbrev Cap := Fin 8
/-- CSI-2 virtual channel (R506). -/
abbrev Vc := Fin 4
/-- Memory controller (R303). -/
abbrev Mc := Fin 16
/-- Arbiter (R314). -/
abbrev Arb := Fin 20

/-- What a stored word's check code shows when it is read (R104, R105, R326, R327). -/
inductive Ecc
  /-- No error. -/
  | ok
  /-- A single-bit error, corrected. -/
  | corrected
  /-- An uncorrectable error. -/
  | uncorrectable
  deriving DecidableEq, Repr

/-- One burst of the memory fabric (R306): the requester's number (R311), the partition tag (15 for M, R309),
its class, the device address and length of its bytes, and the bytes of a write. `use` says what the reply
serves: 0 nothing further, 1 a load that bypasses the far-line cache, 2 a far-line write-back, 3 a store whose
acknowledgement a release waits for, 4 + k a far-line fill asked for after k acquires. -/
structure Burst where
  req : Nat
  tag : Nat
  rt : Bool
  write : Bool
  addr : Nat
  len : Nat
  data : List Byte
  use : Nat
  deriving DecidableEq, Repr

/-- A packet of the mesh (R24, R308): source and destination engine positions, its class, and a number that
names it. -/
structure MeshPkt where
  src : Eng
  dst : Eng
  rt : Bool
  id : Nat
  deriving DecidableEq, Repr

/-- The number formats (R125, R130). -/
inductive Fmt
  | e4m3 | e5m2 | fp16 | bf16 | f19 | fp32 | int4 | int8 | uint8 | int32
  deriving DecidableEq, Repr

/-- ROUND (R131). -/
inductive Rnd
  | nearestEven | towardZero | stochastic
  deriving DecidableEq, Repr


/-- What a pixel shader leaves for one pixel (R230): the samples it did not discard, its depth, and its colours,
four words for each attachment. -/
structure PxOut where
  keep : Nat
  depth : Word
  colors : List Word
  deriving DecidableEq, Repr

/-- Where a load puts its words: a scalar register, or elements of one vector register from one element on. -/
inductive LoadDst
  | scalar (g : Fin 32)
  | vector (v : Fin 128) (elem : Fin 512)
  deriving DecidableEq, Repr

/-- What a vector instruction computes for each work-item (R87, R94). The last eight are INT32 operations. -/
inductive VOp
  | move | fma | add | mul | min | max | cmpLt | cmpLe | cmpEq
  | rcp | rsqrt | exp2 | log2 | sin | cos
  | iadd | imul | iand | ior | ixor | ishl | ishr | icmpLt
  deriving DecidableEq, Repr

/-- Who waits for a read of host memory (R433): the far-line cache of an engine, a copy channel, a compression engine,
a front-end slot that fetches, or a fence wait of a slot. -/
inductive HostReq
  | engine (e : Eng)
  | copy (k : Fin 4)
  | compress (k : Sector)
  | slot (n : Slot)
  | fence (n : Slot)
  deriving DecidableEq, Repr

/-- Storage inside the device whose check bits found an uncorrectable error (R574). -/
inductive Inner
  | slot (n : Slot)
  | fence (k : Fin 48)
  | quad (q : Quad)
  | sram
  deriving DecidableEq, Repr

/-- How a completion of a host read ends (R433). -/
inductive HostCpl
  | data | unsupported | abort | poison
  deriving DecidableEq, Repr

/-- The commands: one constructor per row of the spec's table (95_what_each_step_holds.md says what lies inside
each). -/
inductive Instr
  /-- R51. A read of LC_NOW_LO returns line and phase and latches the frame number of the same cycle into LC_NOW_HI. -/
  | lcNowLoRead (t : Nat)
  /-- R85. A read of LC_EDGE_LO returns the low wake-cycle count of the last frame edge and latches the high half. -/
  | lcEdgeLoRead
  /-- R55. A written LC_SRC takes effect in the next wake-oscillator cycle, entering ACQUIRING on the new source or LOCKED on the internal source. -/
  | lcSourceChange
  /-- R60. A pulse on the frame-sync input is filtered, stamped and judged as an edge of the line clock. `t` is the first sampled cycle, `len` the pulse length in wake-oscillator cycles. -/
  | frameSyncPulse (t len : Nat)
  /-- R69. After WIDTH line ticks the frame-sync output returns to its inactive level. -/
  | fsoPulseEnd
  /-- R52. With the internal source, a frame edge is made every LC_FNOM microseconds. -/
  | internalFrameEdge
  /-- R63. When LC_FMAX passes without an accepted edge, the unit enters FREEWHEEL, starts a frame, logs 0x30 and raises the line-clock vector. -/
  | timebaseLost
  /-- R64. In FREEWHEEL the unit makes a frame edge every frozen LC_FPERIOD. -/
  | freewheelFrameEdge
  /-- R53. A synthesised line tick advances the line number and resets the phase. -/
  | lineTick
  /-- R80. At a frame boundary as an engine sees it, the sequencer skips unstarted steps, sets DELAY_MAX and returns its pointer to entry 0. -/
  | stepFrameBoundary (e : Eng)
  /-- R76. The sequencer's phase view first reaches a step's start point and the tester issues the guard's first poll. -/
  | stepStartPoint (e : Eng) (i : Fin 4096) (c : Nat)
  /-- R76. A guard poll reply arrives, showing the guard met or not. -/
  | guardPollReply (e : Eng) (c : Nat)
  /-- R77. A step starts in the cycle after its guard is seen met and its predecessor has ended, setting g0 to g2. -/
  | stepStart (e : Eng) (c : Nat)
  /-- R79. A step running MAX_CYC + 1 cycles increments OVERRUN_CNT and runs on. -/
  | stepOverrun (e : Eng) (c : Nat)
  /-- R82. A step's program ends, possibly at a break point where a stop request stops the engine. -/
  | stepEnd (e : Eng) (c : Nat)
  /-- R88. The sequencer issues one scalar instruction from the oldest ready wave. -/
  | scalarInstruction (e : Eng) (w : Fin 8) (g : Option (Fin 32)) (v : Word) (mask : Option (BitVec 512)) (pc : Nat) (c : Nat)
  /-- R93. A vector instruction operates on a wave of 512 work-items under its execution mask. -/
  | vectorInstruction (e : Eng) (w : Fin 8) (op : VOp) (f : Fmt) (d a b x : Fin 128) (c : Nat)
  /-- R131. A vector conversion scales, rounds and converts elements, folds AMAX and counts overflows. -/
  | vectorConvert (e : Eng) (w : Fin 8) (sf tf : Fmt) (rnd : Rnd) (ieee : Bool) (scale : Word) (amax : Fin 4) (d a : Fin 128) (c : Nat)
  /-- R97. TLOAD fills a tensor half-stage with rows of B from tile memory. -/
  | tload (e : Eng) (w : Fin 8) (stage : Fin 2) (kg off stride : Nat) (f : Fmt) (pos : Nat) (ecc : Ecc) (c : Nat)
  /-- R97. TMMA multiplies rows of A by the held B into an accumulator half. -/
  | tmma (e : Eng) (w : Fin 8) (stage acc : Fin 2) (m kg off stride : Nat) (f : Fmt) (accum : Bool) (pos : Nat) (ecc : Ecc) (c : Nat)
  /-- R97. TDRAIN converts an accumulator half to an output format in tile memory and folds AMAX. -/
  | tdrain (e : Eng) (w : Fin 8) (acc : Fin 2) (m off stride : Nat) (f : Fmt) (rnd : Rnd) (ieee : Bool) (scale : Word) (amax : Fin 4) (pos : Nat) (ecc : Ecc) (c : Nat)
  /-- R98. A tensor instruction held by the unit's interlock proceeds once its resource is free. -/
  | tensorInterlockRelease (e : Eng) (pos : Nat) (ecc : Ecc) (c : Nat)
  /-- R101. A load from tile memory is served by its banks and port. -/
  | tileLoad (e : Eng) (w : Fin 8) (l : Option Nat) (off len : Nat) (dst : LoadDst) (pos : Nat) (ecc : Ecc) (c : Nat)
  /-- R101. A store to tile memory is served by its banks, partial words by read-merge-write. -/
  | tileStore (e : Eng) (w : Fin 8) (l : Option Nat) (off : Nat) (data : List Byte) (pos : Nat) (ecc : Ecc) (c : Nat)
  /-- R104. The corrected word is written back when its bank is next free. -/
  | tmCorrectionWriteback (e : Eng)
  /-- R106. Every INTERVAL × 256 ACLK cycles the scrubber reads the next tile-memory word. -/
  | tmScrub (e : Eng) (c : Nat) (ecc : Ecc)
  /-- R109. A load through the far-line cache hits, or allocates a line and fetches its quarter. -/
  | farLineLoad (e : Eng) (w : Fin 8) (a n : Nat) (noalloc : Bool) (dst : LoadDst) (pos : Nat) (ecc : Ecc) (c : Nat)
  /-- R109. A store through the far-line cache sets sectors valid and dirty, fetching partly covered sectors. -/
  | farLineStore (e : Eng) (w : Fin 8) (a : Nat) (data : List Byte) (noalloc : Bool) (pos : Nat) (ecc : Ecc) (c : Nat)
  /-- R109. A far-line cache fill burst arrives from external memory. -/
  | farLineFill (e : Eng) (c : Nat)
  /-- R118. The clear instruction writes 0 to an AMAX register. -/
  | amaxClear (e : Eng) (i : Fin 4)
  /-- R117. A sequencer instruction writes ENG_SEED for dynamic work. -/
  | seedWrite (e : Eng) (w : Fin 8) (v : Dword)
  /-- R92. An undecodable instruction ends its job or step with error 0x44. -/
  | illegalInstruction (e : Eng) (w : Fin 8) (c : Nat)
  /-- R112. A new value of ENG_FLC.GROUPS_ON starts cleaning and powering off or powering up far-line cache groups. -/
  | flcGroupsChange (e : Eng) (n : Nat) (bad : Option (Fin 48 × Fin 16)) (c : Nat)
  /-- R112. A departing far-line cache group powers off once its write-backs are acknowledged. -/
  | flcGroupPowerOff (e : Eng) (c : Nat)
  /-- R112. A newly powered far-line cache group serves allocations 2,000 ACLK cycles after the write. -/
  | flcGroupReady (e : Eng) (c : Nat)
  /-- R112. Writing 1 to ENG_FLC.CLEAN writes back every dirty sector. -/
  | flcClean (e : Eng) (bad : Option (Fin 48 × Fin 16)) (c : Nat)
  /-- R112. The last clean write-back is acknowledged and CLEAN reads 0. -/
  | flcCleanDone (e : Eng) (c : Nat)
  /-- R121. Every 1,024 clocked ACLK cycles an engine sends its quad a heartbeat. -/
  | engineHeartbeat (e : Eng) (c : Nat)
  /-- R121. QD_WDOG.LIMIT cycles without a heartbeat declare the engine failed with 0x43. -/
  | quadWatchdogExpiry (e : Eng) (c : Nat)
  /-- R575. Within 20 µs Eflan asserts a failed engine's reset, masking it at every arbiter. -/
  | engineFailMask
  /-- R270. An engine issues WAIT on a semaphore and polls until the value reaches N. -/
  | semWait (e : Eng) (w : Fin 8) (lq : Nat) (i : Fin 512) (n : Word) (c : Nat)
  /-- R270. An engine's ADD raises a semaphore, saturating, as a release. -/
  | semAdd (e : Eng) (w : Fin 8) (lq : Nat) (i : Fin 512) (n : Word) (c : Nat)
  /-- R270. An engine's SUB lowers a semaphore, clamped at 0, as a release. -/
  | semSub (e : Eng) (w : Fin 8) (lq : Nat) (i : Fin 512) (n : Word) (c : Nat)
  /-- R278. An ARRIVE for round k is counted, held or refused on the phased barrier. -/
  | semArrive (e : Eng) (w : Fin 8) (lq : Nat) (i : Fin 512) (k p : BitVec 16) (c : Nat)
  /-- R279. A BAR_WAIT holds the issuer until round k has released. -/
  | semBarWait (e : Eng) (w : Fin 8) (lq : Nat) (i : Fin 512) (k : BitVec 16) (c : Nat)
  /-- R275. A semaphore poll reply arrives and the waiter continues or polls again. -/
  | semPollReply (u : Fin 128) (w : Fin 8) (c : Nat)
  /-- R281. An engine signals a fence, as a release. `w` is the wave, by its block of vector registers. -/
  | engineFenceSignal (e : Eng) (w : Fin 8) (addr : Nat) (v : Dword)
  /-- R296. A release takes effect once every earlier store of its issuer is acknowledged. -/
  | releaseComplete (e : Eng)
  /-- R282. The fence unit applies a signal to a resident fence and writes the new value. -/
  | fenceSignalApply
  /-- R287. The transit unit reads, judges and writes a signal to a non-resident fence. -/
  | transitSignal (ecc : Ecc)
  /-- R286. A fence word read for a wait arrives and the wait is judged, taking a slot if unmet. -/
  | fencePageIn (n : Slot) (ecc : Ecc)
  /-- R299. Each 1,024 spinning cycles of an engine increment SYN_SPIN. -/
  | spinPrescaler (e : Eng) (k : Nat)
  /-- R316. An arbiter grants one burst, real-time first, then bulk by level and pointer. -/
  | arbitrationRound (a : Arb) (rise : List Burst) (lower : List (Fin 88)) (c : Nat)
  /-- R308. A mesh router forwards a packet on an output link, real-time before bulk. -/
  | meshForward (r : Eng) (out : Fin 5) (join : List MeshPkt)
  /-- R307. A memory controller performs a granted burst after its range check. -/
  | memoryBurst (m : Fin 17) (k : Nat) (pos : Nat) (ecc : Ecc) (c : Nat)
  /-- R326. A corrected external-memory word is written back when the bank is idle. -/
  | mcCorrectionWriteback (m : Mc)
  /-- R328. Every INTERVAL × 1,024 ACLK cycles the patrol scrubber reads the next line. -/
  | mcPatrolScrub (m : Mc) (c : Nat) (ecc : Ecc)
  /-- R321. A budget window closes and is judged over or not, logging 0x94 on a rise of RT_OVER. -/
  | rtWindowClose (a : Mc) (c : Nat)
  /-- R478. MODEL_LOAD checks a package under R170 and starts loading it. -/
  | modelLoad (m : Mb) (pos : Nat) (ecc : Ecc) (c : Nat)
  /-- R171. The model image copies and setup end and Eflan replies with the load status. -/
  | modelLoadComplete (pos : Nat) (ecc : Ecc) (c : Nat)
  /-- R173. MODEL_UNLOAD empties the batch, frees tile memory and cancels pending joins and leaves. -/
  | modelUnload (m : Mb)
  /-- R479. MODEL_QUERY returns residency, variant, batch and streak. -/
  | modelQuery (m : Mb)
  /-- R174. RUN_MODEL with MODE 0b00 hands a counted run to the deadline monitor or is refused with 0x55. -/
  | runModelCounted (n : Slot)
  /-- R174. RUN_MODEL with MODE 0b01 hands a continuous run to the deadline monitor or is refused with 0x55. -/
  | runModelContinuous (n : Slot)
  /-- R179. RUN_MODEL with MODE 0b10 stops the active run after its current frame. -/
  | runModelStop (n : Slot)
  /-- R175. The monitor arms the model's sequencers within 2,000 ACLK cycles of the hand-over. -/
  | runArm
  /-- R187. A checkpoint's deadline is reached unmet and it is judged missed. -/
  | checkpointDeadline (c : Nat)
  /-- R189. An engine receives a stop request and stops at once or after its running step. -/
  | engineStopRequest (e : Eng)
  /-- R190. In the cycle after the last engine stops, the Crocus rerun starts from entry 0. -/
  | rerunStart
  /-- R177. The monitor writes a frame's output record and signals the run's fence. -/
  | outputRecordWrite
  /-- R185. At a frame boundary the monitor applies leaves and joins, chooses the variant, resets semaphores and writes batch words. -/
  | monitorFrameBoundary
  /-- R182. STREAM_JOIN queues a capture stream to join a batch slot at the next frame boundary. -/
  | streamJoin (n : Slot)
  /-- R184. STREAM_LEAVE removes a slot at the next boundary or cancels its pending join. -/
  | streamLeave (n : Slot)
  /-- R197. Once every live engine has stopped after a loss, Eflan logs 0x52, rebinds and starts the Crocus image reload. -/
  | modelEngineLossRebind
  /-- R197. The Crocus reload ends and the model becomes Crocus-only. -/
  | modelReloadComplete (ecc : Ecc)
  /-- R217. RENDER_PASS OP 0 opens a pass, assigns tile owners and checks its fit. -/
  | renderPassBegin (n : Slot) (ecc : Ecc)
  /-- R227. RENDER_PASS OP 1 closes the pass and starts every tile's last visit. -/
  | renderPassEnd (n : Slot)
  /-- R242. DRAW is cut into batches for the pass's geometry units. -/
  | draw (n : Slot)
  /-- R204. A geometry unit shades, assembles, clips and culls a batch of primitives. `outs` holds what the vertex shader leaves for each vertex index. -/
  | geometryBatch (p : Part) (k : Sector) (outs : List (Nat × List Word))
  /-- R245. GROW_BINS adds a chunk range to the pool or declines. -/
  | growBins (n : Slot)
  /-- R220. A write of SEC_PASS_GROW_CNT offers a range or declines. -/
  | secPassGrowCntWrite (fn p : Part) (v : Word)
  /-- R222. SEC_PASS_WAIT microseconds pass with no answer and the device declines. -/
  | binWaitExpiry (p : Part)
  /-- R224. Every owner has finished, the pool is released and binning resumes. -/
  | partialRenderDone (p : Part)
  /-- R228. An owner shades one tile in a bin slot with its load and store operations. `px` holds what the pixel shader leaves for each pixel it runs on. -/
  | tileVisit (e : Eng) (px : List PxOut)
  /-- R200. The last tile store is acknowledged and the pool released, and the pass completes. -/
  | passComplete (p : Part)
  /-- R247. DISPATCH starts a compute job over a grid of workgroups. -/
  | dispatch (n : Slot)
  /-- R250. A quad dispatcher places the next workgroup on the first free engine or quad. -/
  | workgroupPlace (p : Part) (c : Nat)
  /-- R248. A placed wave issues its first instruction 32 cycles after placement. -/
  | waveStart (e : Eng) (w : Fin 8) (c : Nat)
  /-- R255. A wave of a job ends on its engine. -/
  | waveEnd (e : Eng) (w : Fin 8) (c : Nat)
  /-- R255. The last wave has ended and every store is acknowledged, and the job completes. -/
  | dispatchComplete (q : Qid)
  /-- R263. A compression engine starts spilling a drained engine's live range. -/
  | spillStart (k : Sector) (c : Nat)
  /-- R261. An engine's spill ends, freeing it of the victim. -/
  | spillEnd (k : Sector) (c pos : Nat) (ecc : Ecc)
  /-- R265. A spilled job's engine restore starts once no higher-priority placement work remains. -/
  | restoreStart (k : Sector) (c : Nat)
  /-- R265. An engine's restore ends and the victim may place workgroups there. -/
  | restoreEnd (k : Sector) (c pos : Nat) (ecc : Ecc)
  /-- R421. SET_PRIORITY sets a queue's priority override. -/
  | setPriority (n : Slot)
  /-- R347. COMPRESS queues a compression job for the first free compression engine. -/
  | compress (n : Slot)
  /-- R330. A waiting COMPRESS job starts on a free compression engine and reads its descriptor. -/
  | compressJobStart (ecc : Ecc)
  /-- R339. A TSF block is coded or decoded and written, or the job stops for space or input. -/
  | tsfBlockDone (k : Sector) (c pos : Nat) (ecc : Ecc)
  /-- R354. A row of fixed-ratio blocks is coded or decoded. -/
  | fixedRatioRowDone (k : Sector) (c pos : Nat) (ecc : Ecc)
  /-- R355. A COMPRESS job ends and writes its continuation record. -/
  | compressJobEnd (k : Sector)
  /-- R391. A 4-byte write to a doorbell word advances WPTR and sets RUNG, or is recorded in the page. `fn` is the function whose MW4 the write goes through, `size` the bytes written. -/
  | doorbell (fn : Part) (q : Qid) (v size : Nat)
  /-- R392. An IDLE slot with RUNG set enters FETCHING. -/
  | slotWake (n : Slot)
  /-- R388. A ring entry arrives and its buffer handle is relocated. -/
  | ringEntryFetch (n : Slot) (ecc : Ecc)
  /-- R386. The last command of an entry's buffer is decoded and RPTR advances. -/
  | ringEntryEnd (n : Slot)
  /-- R408. The next entry's buffer is read into the prefetch store. -/
  | bufferPrefetch (n : Slot) (ecc : Ecc)
  /-- R402. The end of a called buffer acts as RETURN, or ends the ring entry at depth 0. -/
  | bufferEnd (n : Slot)
  /-- R367. A relocation-cache miss reads the handle-table entry and relocates or faults. -/
  | handleEntryFetch (n : Slot) (ecc : Ecc)
  /-- R396. A command with an unknown opcode faults the queue with 0x20. -/
  | unknownOpcode (n : Slot)
  /-- R399. NOP does nothing. -/
  | nop (n : Slot)
  /-- R401. JUMP replaces the current buffer with its target. -/
  | jump (n : Slot)
  /-- R401. CALL pushes a return point and enters its target buffer. -/
  | call (n : Slot)
  /-- R402. RETURN pops the top return point. -/
  | ret (n : Slot)
  /-- R403. LOOP opens a loop of COUNT passes. -/
  | loop (n : Slot)
  /-- R403. ENDLOOP decrements the innermost loop and repeats or closes it. -/
  | endloop (n : Slot)
  /-- R405. COND tests a word in memory and skips SKIP commands on failure. -/
  | cond (n : Slot)
  /-- R293. WAIT_FENCE holds the queue until the fence reaches VALUE. -/
  | waitFence (n : Slot)
  /-- R293. SIGNAL_FENCE signals VALUE after every earlier job has completed. -/
  | signalFence (n : Slot)
  /-- R292. SEM_OP WAIT holds the queue until the semaphore reaches N. -/
  | semOpWait (n : Slot)
  /-- R292. SEM_OP ADD adds to a semaphore after earlier jobs complete. -/
  | semOpAdd (n : Slot)
  /-- R292. SEM_OP SUB subtracts from a semaphore after earlier jobs complete. -/
  | semOpSub (n : Slot)
  /-- R292. SEM_OP ARRIVE then BAR_WAIT arrives at a phased barrier and holds the queue until the round releases. -/
  | semOpArrive (n : Slot)
  /-- R413. COPY queues a byte move between two places. -/
  | copy (n : Slot)
  /-- R414. A COPY job takes a free copy channel and starts issuing bursts. -/
  | copyChannelStart
  /-- R414. The last written byte is acknowledged and the COPY completes. `ecc` is what the word at byte `pos` of the source shows. -/
  | copyComplete (k : Fin 4) (pos : Nat) (ecc : Ecc)
  /-- R416. WRITE_REG writes a SEC_PASS register of the queue's partition. -/
  | writeReg (n : Slot)
  /-- R417. SET_CONTEXT makes another context current for later commands. -/
  | setContext (n : Slot)
  /-- R418. LOAD_HANDLE_TABLE posts a handle-table change for Eflan and holds the slot. -/
  | loadHandleTable (n : Slot)
  /-- R420. TEARDOWN_QUEUE puts the target queue into DRAINING and tells engines to abandon its work. -/
  | teardownQueue (n : Slot)
  /-- R415. TIMESTAMP writes a line-clock and wake-count record after earlier jobs complete. -/
  | timestamp (n : Slot)
  /-- R415. TIMESTAMP with EARLY writes its record when decoded. -/
  | timestampEarly (n : Slot)
  /-- R411. A command held for job order begins and takes its sequence number. -/
  | jobStart (n : Slot) (ecc : Ecc)
  /-- R424. A read of FE_COMP returns SEQ and ERR, latching the high half and flushing earlier posted writes. -/
  | feCompRead (fn : Part) (q : Qid) (size : Nat)
  /-- R422. A 4-byte read of FE_CERR's low half latches its high half. -/
  | feCerrRead (fn : Part) (q : Qid) (size : Nat)
  /-- R410. A read of FE_QSLOT SEQ_LO latches SEQ_HI. -/
  | feQslotSeqRead (fn : Part) (n : Slot)
  /-- R430. A read of FE_QSLOT BUF_LO latches BUF_HI. -/
  | feQslotBufRead (fn : Part) (n : Slot)
  /-- R301. A read of SYN_FSLOT VAL_LO latches VALUE_HI. -/
  | synFslotValRead (k : Fin 48)
  /-- R427. A job's timer reaches LIMIT and its units are told to stop; the job ends with 0x26. `k` is the job's sequence number. -/
  | jobTimeout (q : Qid) (k t : Nat)
  /-- R427. A run of flow-control commands reaches LIMIT and the queue faults with 0x25. -/
  | flowRunTimeout (n : Slot) (t : Nat)
  /-- R290. A fence or semaphore wait reaches LIMIT and the queue faults with 0x85. -/
  | fenceWaitTimeout (n : Slot) (t : Nat)
  /-- R428. The grace ends and units still holding the job are reset; the job ends with 0x27. -/
  | timeoutGraceExpiry (q : Qid) (k t : Nat)
  /-- R380. An engine reaches its break point and acknowledges teardown, ending its job with 0xB3. -/
  | teardownAck (e : Eng) (q : Qid)
  /-- R380. All engines have acknowledged and all stores are acknowledged, and the completion register is written destroyed. -/
  | teardownDrained (q : Qid)
  /-- R381. The promise list is read and promised fences are advanced, then the teardown fence is signalled. -/
  | promiseListRead (q : Qid) (pos : Nat) (ecc : Ecc)
  /-- R429. LIMIT passes after teardown order 1 and unacknowledged engines are reset. -/
  | teardownLimitExpiry (q : Qid) (t : Nat)
  /-- R42. Every 10 µs Eflan scans doorbell pages and posted table requests. -/
  | eflanScan (t : Nat)
  /-- R438. A host read through MW2 is split into range-checked bursts to HBM3E. -/
  | mw2Read (fn : Part) (x n pos : Nat) (ecc : Ecc)
  /-- R438. A host write through MW2 is split into range-checked bursts to HBM3E. -/
  | mw2Write (fn : Part) (x : Nat) (data : List Byte) (poisoned : Bool) (pos : Nat) (ecc : Ecc)
  /-- R433. A completion for a device read of host memory arrives, with data or an error. -/
  | hostReadCompletion (r : HostReq) (a : Nat) (cpl : HostCpl) (data : List Byte) (c : Nat)
  /-- R433. A completion timeout ends a host-memory burst with 0xC4. -/
  | hostReadTimeout (r : HostReq) (a : Nat) (c : Nat)
  /-- R432. A received AtomicOp completes with Unsupported Request. -/
  | atomicOpReceived (fn : Part)
  /-- R436. A write to a register with no behaviour of its own is stored with its clamps or ignored. -/
  | registerWrite (fn : Part) (off : Fin 2097152) (v : Dword) (size : Nat)
  /-- R446. An FLR of VF p starts a partition reset that clears tile memory. -/
  | vfFlr (p : Part) (c : Nat)
  /-- R446. Clearing VF Enable or lowering NumVFs resets the partitions concerned. -/
  | vfEnableChange (en : Bool) (num : Fin 9) (c : Nat)
  /-- R447. No request of the partition remains, and interrupts are retired, QoS is recycled and state is reset. -/
  | partResetDrained (p : Part) (c : Nat)
  /-- R447. Zeroing and self-tests end, resets are released, vector 5 is raised and 0xC0 logged. -/
  | partResetRelease (p : Part) (c : Nat)
  /-- R449. An FLR of the PF starts a device-wide reset. -/
  | pfFlr (c : Nat)
  /-- R449. A hot reset starts a device-wide reset. -/
  | hotReset (c : Nat)
  /-- R449. Assertion of PERST# starts a device-wide reset and holds the PCIe controller in reset. -/
  | perstAssert (c : Nat)
  /-- R449. Release of PERST# lets the link train, with retry status until ready. -/
  | perstRelease
  /-- R449. The link leaving L0 for Detect starts a device-wide reset and logs 0xC1. -/
  | linkDown (c : Nat)
  /-- R445. A vector's merged events send one MSI-X message, at most one per microsecond. -/
  | msixSend (fn : Part) (v : Fin 64) (c : Nat)
  /-- R445. Unmasking a vector with its pending bit set sends one message. -/
  | msixUnmask (fn : Part) (v : Option (Fin 64)) (en fm : Bool)
  /-- R456. A READ frame returns data and CRC after WAIT clocks. -/
  | serialRead (addr : Word) (len : Byte)
  /-- R458. A WRITE frame writes its data if the CRC matches and returns RESP. -/
  | serialWrite (addr : Word) (len : Byte) (data : List Byte) (crc : BitVec 16) (cut : Bool)
  /-- R456. PORT_RESET drops any partial port state. -/
  | serialPortReset
  /-- R460. A frame with an unknown or mismatched CMD is ignored and counted. -/
  | serialBadCommand
  /-- R463. A write of GO at 1 submits a mailbox request and clears DONE. -/
  | mailboxGo (m : Mb) (serial irq : Bool)
  /-- R463. Eflan copies a submitted request and sets TAKEN. -/
  | mailboxTake
  /-- R463. Clearing DONE acknowledges the reply and lets ALERT fall. -/
  | mailboxDoneClear (m : Mb) (serial : Bool)
  /-- R469. A message with an unknown CODE replies UNKNOWN_MESSAGE. -/
  | unknownMessage (m : Mb)
  /-- R471. VERSION returns the supported format and contract versions and Eflan's version. -/
  | version (m : Mb)
  /-- R475. PART_CREATE creates a partition from partition 0's quads and granules. -/
  | partCreate (m : Mb)
  /-- R471. PART_CHANGE sets a partition's weight and MW2 offset. -/
  | partChange (m : Mb)
  /-- R476. PART_DESTROY resets a partition's quads and destroys it. -/
  | partDestroy (m : Mb) (c : Nat)
  /-- R446. PART_RESET starts a partition reset, optionally clearing HBM3E. -/
  | partReset (m : Mb) (c : Nat)
  /-- R477. PART_APERTURE sets one aperture range of a partition. -/
  | partAperture (m : Mb)
  /-- R471. CONTEXT_CREATE writes a new context-table entry. -/
  | contextCreate (m : Mb)
  /-- R471. CONTEXT_UPDATE rewrites a context's handle table and flushes the relocation cache. -/
  | contextUpdate (m : Mb)
  /-- R371. CONTEXT_DESTROY removes a context unless a queue still uses it. -/
  | contextDestroy (m : Mb)
  /-- R474. QUEUE_CREATE writes a descriptor into the lowest free queue number. -/
  | queueCreate (m : Mb)
  /-- R373. QUEUE_DESTROY tears a queue down and frees it. -/
  | queueDestroy (m : Mb) (c : Nat)
  /-- R256. QUEUE_COUNTERS returns SUBMITTED, COMPLETED and FAULTED. -/
  | queueCounters (m : Mb)
  /-- R480. FENCE_RELEASE evicts unpinned fence slots in an address range. -/
  | fenceRelease (m : Mb)
  /-- R471. FENCE_STATUS returns a fence slot and clears its chosen status bits. -/
  | fenceStatus (m : Mb)
  /-- R471. SEM_SET sets a semaphore's value as a SET. -/
  | semSet (m : Mb) (c : Nat)
  /-- R548. POWER_STATE starts an entry to a lower state or a wake, or is refused. -/
  | powerState (m : Mb) (t : Nat)
  /-- R551. One step of a power-state entry completes and the next begins. -/
  | powerEntryStep (t : Nat)
  /-- R555. Every ready signal of a privileged-sequence step rises and the next step starts. -/
  | wakeStepReady (t : Nat)
  /-- R556. A ready signal fails to rise within 10 times its typical time, and the wake stops with 0x14. -/
  | wakeStepTimeout (unit t : Nat)
  /-- R559. CLOCK_SWITCH to the PLL starts the PLL. -/
  | clockSwitchPll (m : Mb) (t : Nat)
  /-- R559. CLOCK_SWITCH to the wake oscillator moves engines off the PLL unless a run is active. -/
  | clockSwitchWake (m : Mb) (t : Nat)
  /-- R559. The ACLK PLL locks and every powered engine moves to it at its next idle cycle. -/
  | pllLock (t : Nat)
  /-- R471. TELEMETRY returns input power, voltage, temperatures, state and clock. -/
  | telemetry (m : Mb)
  /-- R481. REG_WRITE writes a permitted register under a mask. -/
  | regWrite (m : Mb) (t : Nat)
  /-- R481. REG_CLEAR clears W1C bits or performs a clearing read of an RC register. -/
  | regClear (m : Mb)
  /-- R530. DISPLAY_CONFIG writes pipe registers and, with COMMIT, arms the commit. -/
  | displayConfig (m : Mb) (pos : Nat) (ecc : Ecc) (t : Nat)
  /-- R517. CAPTURE_CONFIG writes a capture unit's registers and tag. -/
  | captureConfig (m : Mb) (pos : Nat) (ecc : Ecc)
  /-- R534. FOXGLOVE_SET KIND 0 queues a signed Foxglove command for checking. -/
  | foxgloveSetCommand (m : Mb)
  /-- R534. FOXGLOVE_SET KIND 1 writes bytes to a pipe's staging area. -/
  | foxgloveStageWrite (m : Mb)
  /-- R533. FOXGLOVE_SET KIND 2 installs the Foxglove key when none is held. -/
  | foxgloveKeyInstall (m : Mb)
  /-- R536. Eflan finishes checking a signed command and arms its transfer or reports the failure. -/
  | foxgloveCheckDone
  /-- R539. FOXGLOVE_STATUS returns the pipe's Foxglove state. -/
  | foxgloveStatus (m : Mb)
  /-- R571. ERRLOG_READ copies and removes the oldest log records. -/
  | errlogRead (m : Mb)
  /-- R471. ERRLOG_CONFIG sets the least severity that raises vector 8 or ALERT. -/
  | errlogConfig (m : Mb)
  /-- R505. ID_QUERY returns the ID registers. -/
  | idQuery (m : Mb)
  /-- R499. ATTEST assembles and signs an attestation report. -/
  | attest (m : Mb) (t : Nat)
  /-- R502. FW_UPDATE begin erases the image slot not running. -/
  | fwUpdateBegin (m : Mb)
  /-- R502. FW_UPDATE data writes bytes into the target slot. -/
  | fwUpdateData (m : Mb)
  /-- R503. FW_UPDATE commit reads back and checks the image. -/
  | fwUpdateCommit (m : Mb)
  /-- R502. FW_UPDATE abort erases the target and ends the update. -/
  | fwUpdateAbort (m : Mb)
  /-- R502. CONFIG_UPDATE begin erases the record copy not in use. -/
  | configUpdateBegin (m : Mb)
  /-- R502. CONFIG_UPDATE data writes bytes into the target copy. -/
  | configUpdateData (m : Mb)
  /-- R503. CONFIG_UPDATE commit reads back and checks the record. -/
  | configUpdateCommit (m : Mb)
  /-- R502. CONFIG_UPDATE abort erases the target and ends the update. -/
  | configUpdateAbort (m : Mb)
  /-- R490. Peony leaves reset and the boot ROM verifies the record and an image. -/
  | bootRomStart (t : Nat) (flashErr : Bool)
  /-- R492. Eflan starts, derives identity, loads ENG_ID, brings up units and releases PCIe. -/
  | eflanStart (puf : Bool) (t : Nat)
  /-- R582. Every 1 ms Eflan increments MB_STAT.BEAT. -/
  | eflanHeartbeat (t : Nat)
  /-- R582. BEAT unchanged for 100 ms resets Peony and Eflan restarts. -/
  | peonyWatchdogExpiry (t : Nat)
  /-- R508. A CSI-2 Frame Start begins a camera frame and may be a line-clock edge. `t`: wake-oscillator cycle of the header; `hdr`: its ECC. -/
  | frameStartPacket (u : Cap) (v : Vc) (t : Nat) (hdr : Ecc)
  /-- R508. A CSI-2 long packet of the selected type is written as a line. `crc`: whether the payload's CRC matches; `px`: its samples in the order received, for YUV420 the luma samples, and `chroma` the Cb and Cr samples; `ecc`: what the first word it merges shows. -/
  | linePacket (u : Cap) (v : Vc) (t : Nat) (dt : Fin 64) (hdr : Ecc) (crc : Bool) (px : List Nat) (chroma : List Nat) (ecc : Ecc)
  /-- R516. A CSI-2 Frame End ends the camera frame, with fill and record. Operands as FRAME_START_PACKET. -/
  | frameEndPacket (u : Cap) (v : Vc) (t : Nat) (hdr : Ecc)
  /-- R506. Generic short packets and embedded data are received and discarded. Operands as FRAME_START_PACKET. -/
  | otherShortPacket (u : Cap) (v : Vc) (t : Nat) (hdr : Ecc)
  /-- R516. A D-PHY start-of-transmission or deskew error loses the burst. `v`: the channel of the burst. -/
  | dphyError (u : Cap) (v : Vc) (t : Nat)
  /-- R511. Once ADD_LINES lines are acknowledged in both sets, the unit adds 1 to its semaphore. -/
  | captureSemAdd (u : Cap) (v : Vc)
  /-- R540. A pipe composes and scans out one line, giving the line clock its tick if it is the source. `t`: wake-oscillator cycle of its start; `late`: layers (0 to 3 video, 4 to 11 graphic) whose source data is not present, with the first column and the column after the last; `bad`: the 64-byte spans that meet an uncorrectable error; `fgBad`: whether a Foxglove store read does. -/
  | displayLine (p : Pipe) (t : Nat) (late : List (Nat × Nat × Nat)) (bad : List Nat) (fgBad : Bool)
  /-- R530. At the first line of vertical blank the pipe transfers an armed snapshot and judges the Foxglove CRC. -/
  | displayFrameBoundary (p : Pipe)
  /-- R542. A change of HPD starts link training or reports link loss. -/
  | hpdChange (p : Pipe) (high : Bool)
  /-- R542. Link training ends and TRAINING clears. -/
  | linkTrainingDone (p : Pipe) (ok : Bool)
  /-- R543. Writing AUX_CMD.GO starts an AUX transaction. -/
  | auxTransaction (p : Pipe)
  /-- R543. An AUX transaction ends with its reply in AUX_STAT. `code`: CMP_AUX_STAT.REPLY; `data`: the bytes of a read. -/
  | auxReply (p : Pipe) (code : Fin 5) (data : List Byte)
  /-- R560. Every 1 ms Eflan samples input power and judges the limits. -/
  | powerSample (t mw mv : Nat)
  /-- R561. A die temperature reaching WARN logs 0x13 and raises vector 11. -/
  | tempSample (t : Nat) (die hbm : Int)
  /-- R561. A trip temperature makes the power sequencer open the hot-swap controller. -/
  | thermalTrip (t : Nat) (die hbm : Int)
  /-- R583. An engine reset ends after 256 ACLK cycles and the mask falls. -/
  | engineResetEnd (e : Eng) (c : Nat)
  /-- R584. A compression engine reset by escalation ends after 4,096 ACLK cycles. -/
  | cxResetEnd (k : Sector) (c : Nat)
  /-- R579. A failed engine's tile-memory self-test ends and returns or keeps it failed. `pass`: whether no word failed. -/
  | selfTestEnd (e : Eng) (pass : Bool) (c : Nat)
  /-- R574. An uncorrectable error in protected internal storage logs 0x03 and starts a reset. -/
  | internalUncorrectable (x : Inner) (c : Nat)
  /-- R590. PRSNT2# changes, restarting the seating timer or opening the switch. -/
  | prsnt2Change (low : Bool) (t : Nat)
  /-- R591. PWRDIS changes, holding the module off or allowing it on. -/
  | pwrdisChange (high : Bool) (t : Nat)
  /-- R591. The 12 V input crosses a threshold of the hot-swap controller. -/
  | inputVoltageChange (mv t : Nat)
  /-- R590. All conditions have held for their times and the switch closes and ramps. -/
  | hotSwapClose (t : Nat)
  /-- R590. The output reaches power-good and Peony leaves reset 5 ms later. -/
  | powerGood (t : Nat)
  /-- R591. Input over-current or over-voltage opens the switch and latches a fault. -/
  | overcurrent (ma us mv t : Nat)
  /-- R592. PWRDIS held high 10 ms or loss of 12 V clears the fault latch. -/
  | faultLatchClear (t : Nat) (cool : Bool)
  /-- R518. A capture receiver gains or loses sync: its clock lane becomes active and its lanes deskew, or the clock lane stops, and CAP_PHY.SYNC follows. `on`: whether sync is gained. -/
  | receiverSyncChange (u : Cap) (on : Bool)
  /-- R450. The PCIe link finishes training and reaches L0, setting PT_LINK.UP, SPEED and WIDTH. -/
  | pcieLinkUp (speed : Fin 5) (lanes : Fin 5)
  /-- R501. Eflan finishes the roughly 5 ms Ed448 signature of an attestation report, writes the report to the extended buffer and replies. -/
  | attestSigned (m : Mb) (t : Nat)
  /-- R476. The reset and zeroing of a destroyed partition's quads end, the partition is destroyed and PART_DESTROY replies. -/
  | partDestroyDone (p : Part) (c : Nat)
  /-- R492. Eflan's background check of the image slot not running ends, setting ID_STATUS.OTHER_SLOT or appending 0xD3. -/
  | otherSlotCheck (t : Nat)
  deriving DecidableEq, Repr

end Sys2Proof
end

