-- ==== Sys2Proof/WellFormed.lean ====
section
/-!
DEFINITION. Which commands are well formed: the operands that the spec lets stand outside the part. A value that
the spec clamps is well formed, and so is any time.
-/
namespace Sys2Proof

/-- Bytes of one tile memory (R100). -/
def tileSize : Nat := 2 ^ 22

/-- The 48-bit device address space (R302). -/
def addrSpace : Nat := 2 ^ 48

/-- The address space of PCIe (R431). -/
def pcieSpace : Nat := 2 ^ 64

/-- The element types of A and B (R97). -/
def tensorElem (f : Fmt) : Bool := !(decide (f = .fp32) || decide (f = .int32))

/-- The formats in which the vector unit has an operation (R87): FP32 and INT32, and fused multiply-add, add and
multiply in FP16 and BF16 too. -/
def vopFmt (op : VOp) (f : Fmt) : Bool :=
  decide (f = .fp32) || decide (f = .int32) ||
    ((decide (f = .fp16) || decide (f = .bf16)) && (decide (op = .fma) || decide (op = .add) || decide (op = .mul)))

/-- `n` bytes at `a` inside one aligned block of 128 bytes of the device address space. -/
def inBlock (a n : Nat) : Bool := Nat.ble 1 n && Nat.ble (a % 128 + n) 128 && Nat.ble (a + n) addrSpace

/-- A burst that a unit other than an engine asks for (R306, R311). -/
def riseOk (b : Burst) : Bool :=
  Nat.ble 64 b.req && Nat.blt b.req 88 && Nat.ble 1 b.len && Nat.ble (b.addr % 256 + b.len) 256

/-- A late span of a layer (R540). -/
def lateOk (x : Nat × Nat × Nat) : Bool := Nat.blt x.1 12 && Nat.ble x.2.1 x.2.2

/-- Whether a command is well formed. -/
def Instr.wf : Instr → Bool
  | .lcNowLoRead _ => true
  | .lcEdgeLoRead => true
  | .lcSourceChange => true
  -- a pulse has at least one sampled cycle (R60)
  | .frameSyncPulse _ len => Nat.ble 1 len
  | .fsoPulseEnd => true
  | .internalFrameEdge => true
  | .timebaseLost => true
  | .freewheelFrameEdge => true
  | .lineTick => true
  | .stepFrameBoundary _ => true
  | .stepStartPoint _ _ _ => true
  | .guardPollReply _ _ => true
  | .stepStart _ _ => true
  | .stepOverrun _ _ => true
  | .stepEnd _ _ => true
  | .scalarInstruction _ _ _ _ _ _ _ => true
  -- the operations of R87 in each format
  | .vectorInstruction _ _ op f _ _ _ _ _ => vopFmt op f
  | .vectorConvert _ _ _ _ _ _ _ _ _ _ _ => true
  -- element types of B (R97)
  | .tload _ _ _ _ _ _ f _ _ _ => tensorElem f
  -- element types of A (R97)
  | .tmma _ _ _ _ _ _ _ _ f _ _ _ _ => tensorElem f
  | .tdrain _ _ _ _ _ _ _ _ _ _ _ _ _ _ => true
  | .tensorInterlockRelease _ _ _ _ => true
  -- an access of 1 to 128 bytes inside a tile memory (R100, R101)
  | .tileLoad _ _ _ off len _ _ _ _ => Nat.ble 1 len && Nat.ble len 128 && Nat.ble (off + len) tileSize
  -- as TILE_LOAD
  | .tileStore _ _ _ off data _ _ _ => Nat.ble 1 data.length && Nat.ble data.length 128 && Nat.ble (off + data.length) tileSize
  | .tmCorrectionWriteback _ => true
  | .tmScrub _ _ _ => true
  -- an access inside one aligned 128-byte block of the 48-bit address space (R101, R109, R302)
  | .farLineLoad _ _ a n _ _ _ _ _ => inBlock a n
  -- as FAR_LINE_LOAD
  | .farLineStore _ _ a data _ _ _ _ => inBlock a data.length
  | .farLineFill _ _ => true
  | .amaxClear _ _ => true
  | .seedWrite _ _ _ => true
  | .illegalInstruction _ _ _ => true
  -- a 3-bit field (R124)
  | .flcGroupsChange _ n _ _ => Nat.ble n 7
  | .flcGroupPowerOff _ _ => true
  | .flcGroupReady _ _ => true
  | .flcClean _ _ _ => true
  | .flcCleanDone _ _ => true
  | .engineHeartbeat _ _ => true
  | .quadWatchdogExpiry _ _ => true
  | .engineFailMask => true
  | .semWait _ _ _ _ _ _ => true
  | .semAdd _ _ _ _ _ _ => true
  | .semSub _ _ _ _ _ _ => true
  | .semArrive _ _ _ _ _ _ _ => true
  | .semBarWait _ _ _ _ _ _ => true
  | .semPollReply _ _ _ => true
  -- a device address of 48 bits (R302)
  | .engineFenceSignal _ _ addr _ => Nat.blt addr addrSpace
  | .releaseComplete _ => true
  | .fenceSignalApply => true
  | .transitSignal _ => true
  | .fencePageIn _ _ => true
  | .spinPrescaler _ _ => true
  -- bursts inside a 256-byte block, of requesters 64 to 87 (R306, R311)
  | .arbitrationRound _ rise _ _ => rise.all riseOk
  | .meshForward _ _ _ => true
  | .memoryBurst _ _ _ _ _ => true
  | .mcCorrectionWriteback _ => true
  | .mcPatrolScrub _ _ _ => true
  | .rtWindowClose _ _ => true
  | .modelLoad _ _ _ _ => true
  | .modelLoadComplete _ _ _ => true
  | .modelUnload _ => true
  | .modelQuery _ => true
  | .runModelCounted _ => true
  | .runModelContinuous _ => true
  | .runModelStop _ => true
  | .runArm => true
  | .checkpointDeadline _ => true
  | .engineStopRequest _ => true
  | .rerunStart => true
  | .outputRecordWrite => true
  | .monitorFrameBoundary => true
  | .streamJoin _ => true
  | .streamLeave _ => true
  | .modelEngineLossRebind => true
  | .modelReloadComplete _ => true
  | .renderPassBegin _ _ => true
  | .renderPassEnd _ => true
  | .draw _ => true
  | .geometryBatch _ _ _ => true
  | .growBins _ => true
  | .secPassGrowCntWrite _ _ _ => true
  | .binWaitExpiry _ => true
  | .partialRenderDone _ => true
  | .tileVisit _ _ => true
  | .passComplete _ => true
  | .dispatch _ => true
  | .workgroupPlace _ _ => true
  | .waveStart _ _ _ => true
  | .waveEnd _ _ _ => true
  | .dispatchComplete _ => true
  | .spillStart _ _ => true
  | .spillEnd _ _ _ _ => true
  | .restoreStart _ _ => true
  | .restoreEnd _ _ _ _ => true
  | .setPriority _ => true
  | .compress _ => true
  | .compressJobStart _ => true
  | .tsfBlockDone _ _ _ _ => true
  | .fixedRatioRowDone _ _ _ _ => true
  | .compressJobEnd _ => true
  -- an access of 1 to 8 bytes (R436, R439)
  | .doorbell _ _ _ size => Nat.ble 1 size && Nat.ble size 8
  | .slotWake _ => true
  | .ringEntryFetch _ _ => true
  | .ringEntryEnd _ => true
  | .bufferPrefetch _ _ => true
  | .bufferEnd _ => true
  | .handleEntryFetch _ _ => true
  | .unknownOpcode _ => true
  | .nop _ => true
  | .jump _ => true
  | .call _ => true
  | .ret _ => true
  | .loop _ => true
  | .endloop _ => true
  | .cond _ => true
  | .waitFence _ => true
  | .signalFence _ => true
  | .semOpWait _ => true
  | .semOpAdd _ => true
  | .semOpSub _ => true
  | .semOpArrive _ => true
  | .copy _ => true
  | .copyChannelStart => true
  | .copyComplete _ _ _ => true
  | .writeReg _ => true
  | .setContext _ => true
  | .loadHandleTable _ => true
  | .teardownQueue _ => true
  | .timestamp _ => true
  | .timestampEarly _ => true
  | .jobStart _ _ => true
  -- accesses of 4 or 8 bytes (R436)
  | .feCompRead _ _ size => Nat.beq size 4 || Nat.beq size 8
  -- accesses of 4 or 8 bytes (R436)
  | .feCerrRead _ _ size => Nat.beq size 4 || Nat.beq size 8
  | .feQslotSeqRead _ _ => true
  | .feQslotBufRead _ _ => true
  | .synFslotValRead _ => true
  | .jobTimeout _ _ _ => true
  | .flowRunTimeout _ _ => true
  | .fenceWaitTimeout _ _ => true
  | .timeoutGraceExpiry _ _ _ => true
  | .teardownAck _ _ => true
  | .teardownDrained _ => true
  | .promiseListRead _ _ _ => true
  | .teardownLimitExpiry _ _ => true
  | .eflanScan _ => true
  -- a request of at least a byte of a 64-bit address space (R438)
  | .mw2Read _ x n _ _ => Nat.ble 1 n && Nat.ble (x + n) pcieSpace
  -- as MW2_READ
  | .mw2Write _ x data _ _ _ => Nat.ble 1 data.length && Nat.ble (x + data.length) pcieSpace
  -- only a successful completion carries data (R433)
  | .hostReadCompletion _ _ cpl data _ => (decide (cpl = .data) || data.isEmpty)
  | .hostReadTimeout _ _ _ => true
  | .atomicOpReceived _ => true
  -- an access of 1 to 8 bytes (R436)
  | .registerWrite _ _ _ size => Nat.ble 1 size && Nat.ble size 8
  | .vfFlr _ _ => true
  | .vfEnableChange _ _ _ => true
  | .partResetDrained _ _ => true
  | .partResetRelease _ _ => true
  | .pfFlr _ => true
  | .hotReset _ => true
  | .perstAssert _ => true
  | .perstRelease => true
  | .linkDown _ => true
  | .msixSend _ _ _ => true
  | .msixUnmask _ _ _ _ => true
  | .serialRead _ _ => true
  -- a frame that is not cut short carries all its words (R455)
  | .serialWrite _ len data _ cut => (cut || Nat.beq data.length (4 * (min 63 len.toNat + 1)))
  | .serialPortReset => true
  | .serialBadCommand => true
  | .mailboxGo _ _ _ => true
  | .mailboxTake => true
  | .mailboxDoneClear _ _ => true
  | .unknownMessage _ => true
  | .version _ => true
  | .partCreate _ => true
  | .partChange _ => true
  | .partDestroy _ _ => true
  | .partReset _ _ => true
  | .partAperture _ => true
  | .contextCreate _ => true
  | .contextUpdate _ => true
  | .contextDestroy _ => true
  | .queueCreate _ => true
  | .queueDestroy _ _ => true
  | .queueCounters _ => true
  | .fenceRelease _ => true
  | .fenceStatus _ => true
  | .semSet _ _ => true
  | .powerState _ _ => true
  | .powerEntryStep _ => true
  | .wakeStepReady _ => true
  | .wakeStepTimeout _ _ => true
  | .clockSwitchPll _ _ => true
  | .clockSwitchWake _ _ => true
  | .pllLock _ => true
  | .telemetry _ => true
  | .regWrite _ _ => true
  | .regClear _ => true
  | .displayConfig _ _ _ _ => true
  | .captureConfig _ _ _ => true
  | .foxgloveSetCommand _ => true
  | .foxgloveStageWrite _ => true
  | .foxgloveKeyInstall _ => true
  | .foxgloveCheckDone => true
  | .foxgloveStatus _ => true
  | .errlogRead _ => true
  | .errlogConfig _ => true
  | .idQuery _ => true
  | .attest _ _ => true
  | .fwUpdateBegin _ => true
  | .fwUpdateData _ => true
  | .fwUpdateCommit _ => true
  | .fwUpdateAbort _ => true
  | .configUpdateBegin _ => true
  | .configUpdateData _ => true
  | .configUpdateCommit _ => true
  | .configUpdateAbort _ => true
  | .bootRomStart _ _ => true
  | .eflanStart _ _ => true
  | .eflanHeartbeat _ => true
  | .peonyWatchdogExpiry _ => true
  | .frameStartPacket _ _ _ _ => true
  -- samples of at most 16 bits (R509)
  | .linePacket _ _ _ _ _ _ px chroma _ => px.all (fun x => Nat.blt x 65536) && chroma.all (fun x => Nat.blt x 65536)
  | .frameEndPacket _ _ _ _ => true
  | .otherShortPacket _ _ _ _ => true
  | .dphyError _ _ _ => true
  | .captureSemAdd _ _ => true
  -- layers 0 to 11 and spans of columns (R540)
  | .displayLine _ _ late _ _ => late.all lateOk
  | .displayFrameBoundary _ => true
  | .hpdChange _ _ => true
  | .linkTrainingDone _ _ => true
  | .auxTransaction _ => true
  -- at most 16 bytes in a transaction (R544)
  | .auxReply _ _ data => Nat.ble data.length 16
  | .powerSample _ _ _ => true
  | .tempSample _ _ _ => true
  | .thermalTrip _ _ _ => true
  | .engineResetEnd _ _ => true
  | .cxResetEnd _ _ => true
  | .selfTestEnd _ _ _ => true
  | .internalUncorrectable _ _ => true
  | .prsnt2Change _ _ => true
  | .pwrdisChange _ _ => true
  | .inputVoltageChange _ _ => true
  | .hotSwapClose _ => true
  | .powerGood _ => true
  | .overcurrent _ _ _ _ => true
  | .faultLatchClear _ _ => true
  | .receiverSyncChange _ _ => true
  | .pcieLinkUp _ _ => true
  | .attestSigned _ _ => true
  | .partDestroyDone _ _ => true
  | .otherSlotCheck _ => true

end Sys2Proof
end

