-- ==== Sys2Proof/Config.lean ====
section
/-!
DEFINITION. What an implementation fixes and what the spec leaves open. A constant with no body is a FREE
VALUE: nothing can be proved about it beyond its type.
-/
namespace Sys2Proof.Config

/-- Bytes whose contents the spec leaves undefined: epoch `ep` (a fresh number for each event that makes
them so), address `a`. -/
opaque freeByte : Nat → Nat → Byte

/-- A fresh free value of the machine: the argument is the counter `State.fresh`. -/
opaque freeNat : Nat → Nat

/-- Word `i` of a register file whose contents the spec leaves open: epoch `ep`. -/
opaque freeWord : Nat → Nat → Word

/-- What a number format's infinity or NaN (the bits given) counts as where the geometry of R208, R209 and R231 is
computed from it: the spec states no result there. -/
opaque nonFinite : Nat → Int

/-- The smaller (`big` false) or larger of two values one of which is a NaN, or that are zeros of two signs, as bits:
the spec states no result. -/
opaque nanMinMax : Bool → Nat → Nat → Nat

/-- Whether the two triangles that a line or a point becomes (R207) run counter-clockwise on screen. -/
opaque expandCcw : Bool

/-- The latency of a semaphore operation from unit `u` outside quad `q`, above 24 ACLK cycles and taken modulo
37 (R28: 24 to 60 by hop count and load). -/
opaque semFar : Nat → Nat → Nat

/-- SHAKE256 with 64 bytes of output (R483): a standard function that the spec names and does not restate. -/
opaque shake : List Byte → List Byte

/-- Whether an Ed448 signature verifies: public key, message digest, signature (R483, R535). -/
opaque ed448Ok : List Byte → List Byte → List Byte → Bool

/-- The vector unit's reciprocal, reciprocal square root, exp2, log2, sine and cosine (R87), by number: the spec states
no accuracy. -/
opaque special : Nat → Word → Word

/-- The word that a vector compare writes for false and true: the instruction encoding is not published (R92). -/
opaque cmpWord : Bool → Word

/-- A shift by 32 or more, left (`false`) or right: the spec states no result. -/
opaque shiftWide : Bool → Word → Word → Word

/-- The boot ROM's two public keys (R484) and its version (R505). -/
opaque firmwareKey : List Byte

/-- The identity key of R484. -/
opaque identityKey : List Byte

/-- The boot ROM's version (ID_ROM_VER). -/
opaque romVersion : Nat

/-- The secret that the die's PUF yields for helper data (R494). -/
opaque pufSecret : List Byte → List Byte

/-- The Ed448 public key of a private key (R483, R494). -/
opaque ed448Pub : List Byte → List Byte

/-- The Ed448 signature of a digest with a private key (R483). -/
opaque ed448Sign : List Byte → List Byte → List Byte

end Sys2Proof.Config
end

