-- ==== Sys2Proof/Machine/State.lean ====
section
/-!
DEFINITION. The state of the TV-4860 as plain data, chapter by chapter, and the state after power-on reset.
Registers that hold a plain value stand in the sparse map `State.regs`, keyed by their MW0 offset (R437); an
unlisted register holds its reset value (`Machine/Regs.lean`). Registers that report live state are computed
from it when read.
-/
namespace Sys2Proof.Machine

/-- Why the machine could stop with a fault. NOTHING RAISES ONE: every command of the spec has an effect on
every state, so the type has no element. Safe: no behaviour is cut short. -/
inductive Fault
  deriving DecidableEq, Repr

/-- Why a command could be refused. -/
inductive Refusal
  /-- Raised by `exec` alone, for a command that has no meaning yet (its mnemonic). Safe. -/
  | notModelled (mnemonic : String)
  deriving DecidableEq, Repr

/-! ### Memories -/

/-- A range of addresses whose unlisted bytes read as 0 (epoch 0) or as free bytes (any other epoch). -/
structure Region where
  lo : Nat
  hi : Nat
  epoch : Nat
  deriving DecidableEq, Repr

/-- A byte memory: listed cells, addresses strictly rising, and the regions that say what an unlisted
address reads as, newest first. -/
structure Mem where
  cells : List Host.Cell := []
  regions : List Region := []
  deriving DecidableEq, Repr

/-! ### Error log (R565 to R571) -/

/-- A line-clock value as a record carries it: line and phase in the layout of LC_NOW_LO, and the frame. -/
structure Stamp where
  lp : Nat := 0
  frame : Nat := 0
  deriving DecidableEq, Repr

/-- One record of the error log (R567). -/
structure LogRec where
  code : Nat
  sev : Nat
  plane : Nat
  tag : Nat
  seq : Nat
  stamp : Stamp
  unitKind : Nat
  unit : Nat
  queue : Option Nat
  owner : Nat
  dieLo : Nat
  dieHi : Nat
  detail : List Nat
  deriving DecidableEq, Repr

/-- The error log: held records oldest first, the next SEQ (R566), the records dropped or displaced since
the last 0x01 record with the lowest SEQ among them (R570), those dropped since the last read (R571), and
ERRLOG_CONFIG.SEVERITY (R569). -/
structure ErrLog where
  recs : List LogRec := []
  seq : Nat := 0
  lost : Nat := 0
  lostLow : Nat := 0
  lostSinceRead : Nat := 0
  severity : Nat := 2
  deriving DecidableEq, Repr

/-! ### Line clock (R48 to R72) -/

/-- LC_STATUS.STATE (R85). -/
inductive LcMode
  | locked | acquiring | freewheel
  deriving DecidableEq, Repr

/-- The line-clock unit. Times are counts of the 64-bit wake-oscillator counter (R85); a time in 256ths
carries the 8 fraction bits of LC_LPERIOD. -/
structure LineClock where
  mode : LcMode := .locked
  acqCount : Nat := 0
  /-- Frame number, 32 bits (R50). -/
  frame : Nat := 0
  /-- Line number, 0 to 65,535 (R48). -/
  line : Nat := 0
  /-- Wake count of the last frame edge, accepted or freewheel (R85). -/
  edgeAt : Nat := 0
  /-- Time of the last line tick or frame edge, in 256ths of a wake cycle. -/
  tickAt : Nat := 0
  /-- Reference edge of R61; none after a source change (R55) or wake (R558) until the first edge. -/
  refAt : Option Nat := some 0
  /-- Whether the last frame edge was an accepted edge of the source in force, so that the next gives a period. -/
  edgeAccepted : Bool := true
  /-- Accepted frame periods since the last lock, newest first, at most 4 (R64). -/
  periods : List Nat := []
  /-- LC_FPERIOD and LC_LPERIOD (R64). -/
  fperiod : Nat := 8000000
  lperiod : Nat := 7111 * 256
  /-- Wake count of the unit's own next frame edge, internal or freewheel. -/
  nextEdgeAt : Nat := 16667 * 480
  /-- The expected last line E of the frame (R602). -/
  lastLine : Nat := 1124
  /-- The line period C in 1/256 ACLK cycles sent to the engines (R70). -/
  cLine : Nat := 7111 * 256
  /-- Camera header measurement of the frame in progress: headers seen, first and last header time (R53). -/
  hdrCount : Nat := 0
  hdrFirst : Nat := 0
  hdrLast : Nat := 0
  /-- Whether the frame in progress was not LOCKED at some time (R178), and the same of the frame before. -/
  notLocked : Bool := false
  prevNotLocked : Bool := false
  /-- The frame before ended early because lock was regained (R66). -/
  prevCut : Bool := false
  /-- Frame-sync output: pin at its active level, and line ticks left of the pulse (R69). -/
  fsoActive : Bool := false
  fsoLeft : Nat := 0
  /-- Occurrences in the frame in progress, with the stamp of the first (R81): 0x32 and 0x33. -/
  fastInFrame : Nat := 0
  fastStamp : Stamp := {}
  glitchInFrame : Nat := 0
  glitchStamp : Stamp := {}
  /-- Whether the unit is powered (R68). -/
  powered : Bool := true
  /-- The LC_SRC word in force, and whether a written one waits for the next cycle (R55). -/
  src : Nat := 3
  srcDue : Bool := false
  deriving DecidableEq, Repr

/-! ### Host link: what the device has sent, and MSI-X (R432, R444, R445) -/

/-- What the device put on the PCIe link: an MSI-X message of a function's vector, or posted bytes. -/
inductive HostMsg
  | msix (fn vec addr data : Nat)
  | write (fn addr : Nat) (data : List Byte)
  deriving DecidableEq, Repr

/-- One MSI-X vector: its table entry, its pending bit, whether an event waits for a message, and the ACLK
cycle of its last message (R445). -/
structure Msix where
  addr : Nat := 0
  data : Nat := 0
  masked : Bool := true
  pend : Bool := false
  due : Bool := false
  lastSent : Option Nat := none
  deriving DecidableEq, Repr

/-- The MSI-X control of a function: MSI-X Enable and Function Mask (R445). -/
structure MsixCtl where
  enable : Bool := false
  fmask : Bool := false
  deriving DecidableEq, Repr

/-! ### Engines (R86 to R123) and step tables (R73 to R84) -/

/-- What an engine works on: ENG_STATUS.WORK (R124). -/
inductive Work
  | idle | compute | raster | step
  deriving DecidableEq, Repr

/-- What a spinning wave polls for (R270, R278, R279). -/
inductive SpinFor
  | atLeast (n : Nat)
  | barrier (k : Nat)
  | arrive (k parts : Nat)
  deriving DecidableEq, Repr

/-- A poll in flight: the semaphore (physical quad × 512 + index), what it asks, and the cycle of issue (R275). -/
structure Spin where
  sem : Nat
  want : SpinFor
  issued : Nat
  deriving DecidableEq, Repr

/-- A resident wave (R86, R89, R93): the work and job it belongs to, its workgroup, its registers g0 to g31,
program counter and execution mask, its blocks of 16 vector registers (the first at `vbase`), whether it has
issued, and its poll. -/
structure Wave where
  work : Work := .compute
  job : Nat := 0
  group : Nat := 0
  index : Nat := 0
  g : List (Nat × Word) := []
  pc : Nat := 0
  mask : Nat := 2 ^ 512 - 1
  vbase : Nat := 0
  blocks : List Nat := [0]
  started : Bool := false
  placedAt : Nat := 0
  /-- THE MODEL'S OWN: names the free contents of its vector registers at its start. -/
  epoch : Nat := 0
  spin : Option Spin := none
  deriving DecidableEq, Repr

/-- A half-stage of the tensor unit (R95, R97): its 16 KiB by row × 64 + byte, the rows loaded / 16, the type,
the cycle from which it is full, and the cycle from which no TMMA reads it (R98). -/
structure Stage where
  bytes : List (Nat × Byte) := []
  kg : Nat := 0
  fmt : Fmt := .int8
  readyAt : Nat := 0
  freeAt : Nat := 0
  deriving DecidableEq, Repr

/-- An accumulator half (R96): its words by row × W + column, W, whether it is FP32, the cycle of its last
update + 1, and the cycle from which its drain has read its last element (R98). -/
structure AccHalf where
  words : List (Nat × Word) := []
  width : Nat := 64
  float : Bool := false
  readyAt : Nat := 0
  freeAt : Nat := 0
  deriving DecidableEq, Repr

/-- One line of the far-line cache (R108): device address / 1,024, its bytes, and the valid and dirty bits of
its 16 sectors; an empty entry has no valid bit. -/
structure FarLine where
  tag : Nat := 0
  bytes : List (Nat × Byte) := []
  valid : Nat := 0
  dirty : Nat := 0
  used : Nat := 0
  deriving DecidableEq, Repr

/-- A release that waits for its engine's stores (R296). -/
inductive Release
  | add (sem n : Nat)
  | sub (sem n : Nat)
  | arrive (wave sem k parts : Nat)
  | fence (addr value tag : Nat) (queue : Option Nat)
  deriving DecidableEq, Repr

/-- An entry of the traffic declaration (R166, R312): start and end in the layout of LC_NOW_LO, the declared
bytes, and the bytes moved under it in the frame. -/
structure Traffic where
  start : Nat
  stop : Nat
  bytes : Nat
  moved : Nat := 0
  deriving DecidableEq, Repr

/-- What a sequencer runs from the next frame boundary or the rerun origin: partition, variant, queue of the run,
its table in tile memory, and the traffic declared for it. -/
structure SeqPlan where
  part : Nat := 0
  variant : Nat := 0
  queue : Option Nat := none
  table : Nat := 0
  count : Nat := 0
  traffic : List Traffic := []
  deriving DecidableEq, Repr

/-- The running step (R75): its index, start cycle, frame, variant, table words, whether it is its table's last
entry, and whether it has run past MAX_CYC. -/
structure RunStep where
  index : Nat
  start : Nat
  frame : Nat
  variant : Nat
  words : List Nat
  last : Bool
  overran : Bool := false
  deriving DecidableEq, Repr

/-- The sequencer of a scheduled engine (R75 to R80). -/
structure Seq where
  armed : Bool := false
  plan : SeqPlan := {}
  /-- What it runs from the next frame boundary; none to stop there. -/
  next : Option SeqPlan := none
  /-- The frame whose boundary the sequencer last saw; none before the first of a run. -/
  frame : Option Nat := none
  ptr : Nat := 0
  /-- Start points first seen in this frame: index and cycle (R76). -/
  seen : List (Nat × Nat) := []
  /-- Cycle of issue of the poll in flight, and whether the first poll's reply has arrived. -/
  poll : Option Nat := none
  replied : Bool := false
  /-- Cycle in which the guard was seen met. -/
  met : Option Nat := none
  cur : Option RunStep := none
  lastEnd : Nat := 0
  delayMax : Nat := 0
  late : Nat := 0
  lateStamp : Stamp := {}
  overs : Nat := 0
  overStamp : Stamp := {}
  /-- A stop request on its way, and one received that waits for a break point (R84, R189). -/
  stopSent : Bool := false
  stopAsked : Bool := false
  /-- The stop request is for a switch of variant (R189). -/
  stopSwitch : Bool := false
  /-- The ends of steps: frame, variant, index; `ended` with the cycle. -/
  ended : List (Nat × Nat × Nat × Nat) := []
  failedSteps : List (Nat × Nat × Nat) := []
  deriving DecidableEq, Repr

/-- A tensor instruction that the unit's interlock holds (R97, R98). -/
inductive TIns
  | load (stage kg off stride : Nat) (fmt : Fmt)
  | mma (stage acc m kg off stride : Nat) (fmt : Fmt) (accum : Bool)
  | drain (acc m off stride : Nat) (fmt : Fmt) (rnd : Rnd) (ieee : Bool) (scale amax : Nat)
  deriving DecidableEq, Repr

/-- An access of a wave that waits for the far-line cache (R109): the wave, the address and length, the bytes of a store,
where a load goes, and whether it bypasses the cache (R110). -/
structure FlcWait where
  wave : Nat
  addr : Nat
  len : Nat
  data : List Byte := []
  dst : Option LoadDst := none
  bypass : Bool := false
  deriving DecidableEq, Repr

/-- One engine (R86). Its ENG_ registers that hold plain values stand in `State.regs`. -/
structure Engine where
  waves : List Wave := []
  /-- g0 to g31 as the last step left them (R91). -/
  stepG : List (Nat × Word) := []
  /-- The vector register file by register × 512 + element (R86). -/
  vreg : List (Nat × Word) := []
  /-- The 192 stochastic generators (R139). -/
  gens : List (Nat × BitVec 64) := []
  /-- Jobs for which the generators have been seeded on this engine (R117). -/
  seeded : List Nat := []
  stage0 : Stage := {}
  stage1 : Stage := {}
  acc0 : AccHalf := {}
  acc1 : AccHalf := {}
  /-- Tensor instructions that wait, oldest first, at most 4 (R88), each with its wave, and the cycles from which the load port,
  the array and the drain are free. -/
  tq : List (Nat × TIns) := []
  loadFree : Nat := 0
  arrayFree : Nat := 0
  drainFree : Nat := 0
  /-- The far-line cache, 48 entries (R108), and the far-line clock that orders their use. -/
  lines : List (Nat × FarLine) := []
  lineClock : Nat := 0
  waits : List FlcWait := []
  /-- THE MODEL'S OWN: acquires so far. A fill asked for before the last one is stale (R111, R297). -/
  acq : Nat := 0
  /-- A change of GROUPS_ON in progress: the target, and the cycle of the write (R112). -/
  flcTarget : Option Nat := none
  flcSince : Nat := 0
  flcOn : Nat := 6
  /-- GROUPS_ON as written last, which a return to P0 restores (R113). -/
  flcSaved : Nat := 6
  /-- Write-backs and stores sent and not yet acknowledged (R111, R296). -/
  outstanding : Nat := 0
  releases : List Release := []
  seq : Seq := {}
  /-- Tile-memory words whose corrected value waits for a free bank (R104). -/
  corrections : List Nat := []
  scrubAt : Nat := 0
  scrubWord : Nat := 0
  /-- Reset asserted (R39, R583), the cycle from which it ends, and the cycle of the last heartbeat (R121). -/
  inReset : Bool := false
  resetFrom : Nat := 0
  beatAt : Nat := 0
  /-- Declarations since power-on, the cause code of the last (R575), what the engine worked on then, its cycle, and
  the cycle from which its self-test runs (R579). -/
  declared : Nat := 0
  cause : Nat := 0
  lostWork : Work := .idle
  failedAt : Nat := 0
  testing : Option Nat := none
  /-- ENG_STATUS.CLK: this engine runs from the PLL (R559). -/
  clk : Bool := false
  spinCycles : Nat := 0
  /-- Live ranges of suspended jobs (R261): job, base and length of tile memory. -/
  drained : List Nat := []
  deriving DecidableEq, Repr

/-! ### Semaphores and fences (R269 to R299) -/

/-- What one ACLK cycle does to one semaphore (R274): its value before, the sums of the cycle's ADDs and SUBs,
its ARRIVEs (port, round, participants) in order of taking, and a SET. -/
structure SemCycle where
  sem : Nat
  cycle : Nat
  old : Nat
  adds : Nat := 0
  subs : Nat := 0
  arrives : List (Nat × Nat × Nat) := []
  set : Option Nat := none
  deriving DecidableEq, Repr

/-- A resident fence slot (R285). `busy`: a page-in of its word is in flight. -/
structure FSlot where
  valid : Bool := false
  addr : Nat := 0
  part : Nat := 0
  value : Nat := 0
  regress : Bool := false
  abandoned : Bool := false
  /-- The hardware queue slots that wait, with their values. -/
  waiters : List (Nat × Nat) := []
  used : Nat := 0
  deriving DecidableEq, Repr

/-- A signal on its way to the fence unit (R283): address, value, partition tag, the requester it came from, and
the queue whose work it is. -/
structure FSig where
  addr : Nat
  value : Nat
  tag : Nat
  req : Nat
  queue : Option Nat := none
  deriving DecidableEq, Repr

/-- A fence word read for a wait (R286): the hardware slot that waits, the address and value, the partition,
and the fence slot it is read into (none at the first reading). -/
structure PageIn where
  slot : Nat
  addr : Nat
  value : Nat
  part : Nat
  into : Option Nat := none
  deriving DecidableEq, Repr

/-! ### Memory fabric (R302 to R328) -/

/-- One arbiter (R314 to R322): the raised bursts, each requester's held level and run of lost rounds, the two
pointers, the granted bursts not yet performed, and the budget window's start and real-time beats. -/
structure ArbSt where
  raised : List Burst := []
  level : List (Nat × Nat) := []
  run : List (Nat × Nat) := []
  rtPtr : Nat := 0
  bulkPtr : Nat := 0
  granted : List Burst := []
  winFrom : Nat := 0
  beats : Nat := 0
  deriving DecidableEq, Repr

/-- A reply on its way back: the burst, the bytes read, and the error it reports (0 none). -/
structure Reply where
  burst : Burst
  data : List Byte
  err : Nat
  deriving DecidableEq, Repr

/-- A memory controller's scrubber (R328) and its corrected words that wait for an idle bank (R326). -/
structure McSt where
  line : Nat := 0
  scrubAt : Nat := 0
  corrections : List Nat := []
  deriving DecidableEq, Repr

/-- A mesh router (R308): packets waiting by input (0 north, 1 east, 2 south, 3 west, 4 the engine), and the
next input in turn for each output × 2 + class. -/
structure Router where
  inq : List (Nat × List MeshPkt) := []
  turn : List (Nat × Nat) := []
  deriving DecidableEq, Repr

/-! ### Contexts, queues and the front end (R360 to R429) -/

/-- A context-table entry (R369). -/
structure Ctx where
  valid : Bool := false
  part : Nat := 0
  table : Nat := 0
  count : Nat := 0
  deriving DecidableEq, Repr

/-- The states of a queue (R373). -/
inductive QLife
  | free | created | slotted | draining | dead
  deriving DecidableEq, Repr

/-- A command buffer, or the rest of one: its device address, length in words, and the next word (R388, R400). -/
structure Buf where
  addr : Nat := 0
  words : Nat := 0
  pos : Nat := 0
  deriving DecidableEq, Repr

/-- An open loop: passes left, first word of its body, and the call depth that opened it (R400, R403). -/
structure LoopSt where
  left : Nat
  body : Nat
  depth : Nat
  deriving DecidableEq, Repr

/-- A relocated reference: device address and bound (R365). -/
structure Ref where
  addr : Nat := 0
  bound : Nat := 0
  deriving DecidableEq, Repr

/-- A decoded command that waits to begin (R411), with the references its handles relocated to. -/
structure Held where
  op : Nat
  words : List Nat
  refs : List Ref
  deriving DecidableEq, Repr

/-- States of a hardware slot (R390). -/
inductive SlotMode
  | idle | fetching | held | halted | draining
  deriving DecidableEq, Repr

/-- The ring entry read ahead and its prefetch store (R408): the entry's number and words, its relocated buffer
once its handle is relocated, the bytes read, and whether reading them met an uncorrectable error. -/
structure Prefetch where
  entry : Nat
  words : List Nat
  buf : Option Buf := none
  bytes : Option (List Byte) := none
  bad : Bool := false
  deriving DecidableEq, Repr

/-- A hardware queue slot (R390, R400, R430). -/
structure SlotSt where
  valid : Bool := false
  queue : Nat := 0
  mode : SlotMode := .idle
  /-- FE_QSLOT.HOLD: 1 WAIT_FENCE, 2 SEM_OP wait, 3 job order, 4 pass order, 5 table request, 6 table wait. -/
  hold : Nat := 0
  wptr : Nat := 0
  wptrSeen : Nat := 0
  rptr : Nat := 0
  rung : Bool := false
  /-- A ring entry's words that arrived and wait for the relocation of its handle. -/
  entryWords : Option (List Nat) := none
  /-- Whether the buffer of entry `rptr` is being decoded. -/
  inEntry : Bool := false
  buf : Buf := {}
  /-- Word offset of the header of the command decoded last. -/
  hdr : Nat := 0
  calls : List Buf := []
  loops : List LoopSt := []
  skip : Nat := 0
  ctx : Option Nat := none
  /-- The handle-table entry being read: context and index (R367). -/
  miss : Option (Nat × Nat) := none
  pf : Option Prefetch := none
  pfMiss : Option (Nat × Nat) := none
  /-- The bytes of the running entry's own buffer that were read ahead, at `buf.addr` of that entry. -/
  ahead : Option (Nat × List Byte) := none
  /-- A posted LOAD_HANDLE_TABLE: table address, count, context (R418). -/
  req : Option (Nat × Nat × Nat) := none
  held : Option Held := none
  /-- When the running timers started: a flow-control run, a held wait (R426). -/
  flowFrom : Option Nat := none
  /-- FE_TIMEOUT.LIMIT when the flow-control timer started (R425). -/
  flowLimit : Nat := 0
  waitFrom : Option Nat := none
  /-- What a SEM_OP wait polls for. -/
  spin : Option Spin := none
  /-- The fence and value of a WAIT_FENCE, kept while the queue is unloaded (R374). -/
  waitAt : Option (Nat × Nat) := none
  fetchedAt : Nat := 0
  deriving DecidableEq, Repr

/-- A queue: its descriptor (R372), state (R373), doorbell page (R391), numbers (R410), completion registers
(R422), counters (R256), priority override (R421), teardown, and what an unload saved (R374). -/
structure Queue where
  life : QLife := .free
  kernel : Bool := false
  prio : Nat := 0
  preempt : Bool := false
  part : Nat := 0
  ctx : Nat := 0
  ring : Nat := 0
  entries : Nat := 16
  prom : Nat := 0
  promCount : Nat := 0
  liveMax : Nat := 0
  spill : Nat := 0
  owner : Nat := 0
  pageWptr : Nat := 0
  pageRung : Bool := false
  rptr : Nat := 0
  seq : Nat := 0
  compSeq : Nat := 0
  compErr : Nat := 0
  destroyed : Bool := false
  qfault : Bool := false
  errSeq : Nat := 0
  errCode : Nat := 0
  errCount : Nat := 0
  /-- Jobs that completed ahead of an earlier one: number and code. -/
  ahead : List (Nat × Nat) := []
  submitted : Nat := 0
  completed : Nat := 0
  faulted : Nat := 0
  prioSet : Option Nat := none
  /-- Between RENDER_PASS OP 0 and OP 1 (R199). -/
  inPass : Bool := false
  slot : Option Nat := none
  saved : Option SlotSt := none
  /-- Teardown: order reached, when it began, the engines that have not acknowledged, the fences to signal at
  order 7 (address, value, tag), and the mailbox that waits for its end. -/
  tdOrder : Nat := 0
  tdAt : Nat := 0
  tdEngines : List Nat := []
  tdFences : List (Nat × Nat × Nat) := []
  tdMbox : Option Nat := none
  /-- What an active run of the queue promised at order 1: the fence and the value (R378). -/
  tdRun : Option (Nat × Nat) := none
  deriving DecidableEq, Repr

/-- What a job is (R399). -/
inductive JobKind
  | dispatch | pass | runModel | copy | compress | wait
  deriving DecidableEq, Repr

/-- A job that has started and not completed (R410 to R412, R426). -/
structure Job where
  /-- The model's key of the job. -/
  key : Nat
  queue : Nat
  seq : Nat
  kind : JobKind
  part : Nat
  /-- Time its timer started, its LIMIT in ms, and the time its timer stood paused (R426). -/
  since : Nat
  limit : Nat
  paused : Option Nat := none
  /-- Whether the job has relocated its handles; a COMPRESS does so when it starts (R347, R366). -/
  relocated : Bool := true
  /-- Told to stop: the time and the error it ends with (R427, R380). -/
  stop : Option (Nat × Nat) := none
  /-- The error it has met so far; 0 none. -/
  err : Nat := 0
  deriving DecidableEq, Repr

/-- A place of R349: a relocated reference, or an offset in a physical engine's tile memory. -/
inductive Place
  | obj (r : Ref)
  | tile (eng off : Nat)
  deriving DecidableEq, Repr

/-- A COPY job (R413, R414): its places, the length, and its channel once it has one. -/
structure CopyJob where
  key : Nat
  src : Place
  dst : Place
  len : Nat
  chan : Option Nat := none
  deriving DecidableEq, Repr

/-! ### Compression engines (R330 to R359) -/

/-- A COMPRESS job that waits for an engine (R330): its key, context, words and the sectors it may use. -/
structure CompWait where
  key : Nat
  ctx : Option Nat
  words : List Nat
  sectors : List Nat
  deriving DecidableEq, Repr

/-- A COMPRESS job on an engine (R348 to R356): its descriptor, places and lengths, and how far it has got. -/
structure CompRun where
  key : Nat
  part : Nat
  desc : List Nat
  inp : Place
  out : Place
  cont : Place
  inLen : Nat
  outLen : Nat
  hdr : Bool := false
  last : Bool := false
  inDone : Nat := 0
  outDone : Nat := 0
  raw : Nat := 0
  coded : Nat := 0
  blocks : Nat := 0
  nextRow : Nat := 0
  streamId : Nat := 0
  /-- The window: the last uncoded bytes of the stream, newest first, at most 65,536. -/
  hist : List Byte := []
  /-- STATUS once the job has reached its end, and the error of STATUS 3. -/
  status : Option Nat := none
  err : Nat := 0
  deriving DecidableEq, Repr

/-- A spill or restore (R261 to R265): partition, job, physical and logical engine, live range, and the cycle from
which it waits. -/
structure Xfer where
  part : Nat
  key : Nat
  eng : Nat
  leng : Nat
  base : Nat
  size : Nat
  restore : Bool
  since : Nat
  deriving DecidableEq, Repr

/-- A compression engine: its job, whether that job is inside a block or row and since when, the transfer it runs
and since when, the bytes it has read and written, and its reset by escalation (R584). -/
structure CxSt where
  run : Option CompRun := none
  mid : Bool := false
  since : Nat := 0
  xfer : Option Xfer := none
  xferAt : Nat := 0
  inBytes : Nat := 0
  outBytes : Nat := 0
  resetFrom : Option Nat := none
  deriving DecidableEq, Repr

/-! ### Compute dispatch (R247 to R268) -/

/-- A DISPATCH job (R247, R248): its fields after their clamps, the next workgroup, the engines that hold its live
range, and what it has lost (R268). -/
structure Disp where
  key : Nat
  queue : Nat
  part : Nat
  quadScope : Bool
  vblk : Nat
  wgSize : Nat
  entry : Nat
  gx : Nat
  gy : Nat
  gz : Nat
  arg : Nat
  tmBase : Nat
  tmLive : Nat
  next : Nat := 0
  used : List Nat := []
  lost : Nat := 0
  lostLow : Nat := 0
  lostEng : Nat := 0
  lostData : Bool := false
  deriving DecidableEq, Repr

/-- How far a pre-emption has got (R261, R265). -/
inductive PrePhase
  | spilling | spilled | restoring
  deriving DecidableEq, Repr

/-- A pre-empted job (R260 to R265): the live ranges by engine (engine, base, size), the engines that have not
drained, those whose spill has not ended, and those whose restore has ended. -/
structure Pre where
  key : Nat
  queue : Nat
  part : Nat
  phase : PrePhase := .spilling
  ranges : List (Nat × Nat × Nat) := []
  undrained : List Nat := []
  unspilled : List Nat := []
  restored : List Nat := []
  deriving DecidableEq, Repr

/-! ### Raster (R199 to R246) -/

/-- A range of the bin pool (R213): its device address and its chunks of 64 KiB. -/
structure PoolRange where
  addr : Nat
  count : Nat
  deriving DecidableEq, Repr

/-- A vertex after the viewport transform (R208, R212): snapped position in 1/256 pixel, sz and 1/w as FP32, and
the varyings. -/
structure Vert where
  sx : Int
  sy : Int
  sz : Nat
  rw : Nat
  vars : List Nat
  deriving DecidableEq, Repr

/-- A triangle that has survived culling (R209, R212). -/
structure Tri where
  draw : Nat
  prim : Nat
  batch : Nat
  front : Bool
  v0 : Vert
  v1 : Vert
  v2 : Vert
  deriving DecidableEq, Repr

/-- An entry of a tile list (R210): the tile's linear index, the triangle, and whether it covers the tile. -/
structure TileEnt where
  tile : Nat
  full : Bool
  tri : Tri
  deriving DecidableEq, Repr

/-- A tile sorter of a pass (R210 to R213, R219): its sector, the absolute number of its unit's next batch, the
chunks its head table still needs, where the table lies, its list and vertex chunks with the offsets of their free
space, each tile's first and last block with the entries used in it, the triangles not yet binned, the record of
the first of them once written, and the tiles already entered. -/
structure Sorter where
  sector : Nat
  next : Nat := 0
  headLeft : Nat := 0
  heads : List Nat := []
  listChunk : Option Nat := none
  listOff : Nat := 0
  vertChunk : Option Nat := none
  vertOff : Nat := 0
  tails : List (Nat × Nat × Nat × Nat) := []
  todo : List Tri := []
  record : Option Nat := none
  entered : List Nat := []
  stalled : Bool := false
  deriving DecidableEq, Repr

/-- A DRAW of a pass (R242, R243): the draw-state words, the constant block's address, the index object, and its
place in the batches of the pass: its first batch, and the primitives of one instance. -/
structure DrawSt where
  words : List Nat
  state : List Nat
  const : Nat
  index : Ref
  first : Nat
  prims : Nat
  deriving DecidableEq, Repr

/-- What a pass is doing (R227): binning, a partial render, the last visits. -/
inductive PassMode
  | binning | partialRender | final
  deriving DecidableEq, Repr

/-- An active render pass (R199 to R243). -/
structure Pass where
  key : Nat
  queue : Nat
  part : Nat
  /-- The pass descriptor's words (R241), and the references its handles relocated to. -/
  desc : List Nat
  dsRef : Ref
  surfs : List Ref
  resolves : List Ref
  /-- The owners in logical order (R215), and the owners that have failed since. -/
  owners : List Nat
  failed : List Nat := []
  pool : List PoolRange
  used : Nat := 0
  sorters : List Sorter
  draws : List DrawSt := []
  batches : Nat := 0
  /-- Partial renders that R204 has made, and the batches binned since the pass began or since the last. -/
  rounds : Nat := 0
  mode : PassMode := .binning
  closed : Bool := false
  /-- Time of the fault that waits for an answer (R219, R222). -/
  faultAt : Option Nat := none
  hadPartial : Bool := false
  binnedSince : Bool := false
  /-- The partial render under way is that of R204. -/
  roundRender : Bool := false
  entries : List TileEnt := []
  /-- Owners on which the pass has begun a visit, and so holds its residency range (R249). -/
  held : List Nat := []
  /-- Tiles visited under the present mode, and tiles loaded by an earlier visit. -/
  done : List Nat := []
  loaded : List Nat := []
  /-- A restore of its residency range met an uncorrectable error (R267). -/
  lostData : Bool := false
  /-- Resident samples by tile × 8 + attachment (4 for depth/stencil), as stored values. -/
  resident : List (Nat × List Nat) := []
  deriving DecidableEq, Repr

/-! ### Models and the deadline monitor (R161 to R198) -/

/-- An entry of the engine directory (R163). -/
structure DirEnt where
  variant : Nat
  group : Nat
  leng : Nat
  imgOff : Nat
  imgSize : Nat
  imgTm : Nat
  table : Nat
  count : Nat
  pool : Nat
  batch : Nat
  seed : Nat
  deriving DecidableEq, Repr

/-- A VALID checkpoint (R164): its variant, number and deadline. -/
structure Ckpt where
  variant : Nat
  id : Nat
  line : Nat
  phase : Nat
  deriving DecidableEq, Repr

/-- An entry of the semaphore list (R165). -/
structure SemEnt where
  index : Nat
  lquad : Nat
  resetAt : Nat
  init : Nat
  deriving DecidableEq, Repr

/-- An entry of the traffic declaration with its engine (R166). -/
structure TrafEnt where
  variant : Nat
  group : Nat
  leng : Nat
  traffic : Traffic
  deriving DecidableEq, Repr

/-- A stream of the batch (R180): slot, region, capture unit, virtual channel, and whether it leaves at the next
boundary with the status word of its leave. -/
structure Stream where
  slot : Nat
  region : Nat
  cap : Nat
  vc : Nat
  deriving DecidableEq, Repr

/-- A join or leave that waits for a boundary (R182), with its status word, partition tag and queue. -/
structure JoinReq where
  leave : Bool
  slot : Nat
  cap : Nat := 0
  vc : Nat := 0
  noRetry : Bool := false
  status : Ref
  tag : Nat
  queue : Nat
  deriving DecidableEq, Repr

/-- The frame of a run in progress (R177, R178, R186 to R196). -/
structure RunFrame where
  number : Nat
  /-- The variant that began the frame, and the one that produces its output. -/
  began : Nat
  producer : Nat
  rerun : Bool := false
  /-- Stop requests are out for a switch, or after an engine loss. -/
  stopping : Bool := false
  missed : Bool := false
  missCkpt : Option Nat := none
  engLost : Bool := false
  logged50 : Bool := false
  logged51 : Bool := false
  /-- Checkpoints of the producer judged: number and slack; none for a miss. -/
  judged : List (Nat × Option Int) := []
  recorded : Bool := false
  deriving DecidableEq, Repr

/-- An active run (R174). -/
structure Run where
  queue : Nat
  key : Nat
  counted : Bool
  count : Nat
  retFrames : Nat
  retSlack : Nat
  out : Ref
  entries : Nat
  fence : Option Nat := none
  fenceOn : Bool := false
  fenceBase : Nat := 0
  armed : Bool := false
  variant : Nat := 0
  /-- Frames recorded. -/
  done : Nat := 0
  frame : Option RunFrame := none
  /-- An output record that waits to be written: its first six words. -/
  due : Option (List Nat) := none
  /-- The frame number of the run's frame in progress ended before its record; a stop command has come (R179),
  with the keys of the stopping jobs. -/
  stopKeys : List Nat := []
  stop : Bool := false
  deriving DecidableEq, Repr

/-- An engine loss being handled (R197): the engines lost, and whether the reload has begun. -/
structure Loss where
  engines : List Nat := []
  reloading : Bool := false
  deriving DecidableEq, Repr

/-- The resident model. -/
structure Model where
  part : Nat
  addr : Nat
  size : Nat
  groups : Nat
  sector : Bool
  fullEng : Nat
  crocEng : Nat
  capacity : Nat
  maxStreams : Nat
  frameCyc : Nat
  poolFull : Nat
  poolCroc : Nat
  streamFull : Nat
  streamCroc : Nat
  dir : List DirEnt
  ckpts : List Ckpt
  sems : List SemEnt
  traffic : List TrafEnt
  /-- The binding: group, logical engine, physical engine. -/
  bind : List (Nat × Nat × Nat) := []
  crocOnly : Bool := false
  unrunnable : Bool := false
  /-- The active variant, and the variant whose seeds its engines hold (2: not those of one variant). -/
  variant : Nat := 0
  seeds : Nat := 0
  streak : Nat := 0
  batch : List Stream := []
  requests : List JoinReq := []
  run : Option Run := none
  loss : Option Loss := none
  /-- SHAKE256 digest of the package (R171). -/
  digest : List Byte := []
  deriving DecidableEq, Repr

/-! ### Mailboxes (R462 to R466) -/

/-- A request that Eflan has copied: its 16 words, and whether Eflan has begun to act on it. -/
structure Mbox where
  words : List Nat
  acting : Bool := false
  deriving DecidableEq, Repr

/-! ### Capture (R506 to R517) -/

/-- A camera frame in progress on a channel (R508, R512, R515): its Frame Start stamp, whether it goes into a model,
lines received, semaphore adds issued, FLAGS, whether it has ended, and for HBM3E its buffer, SEQ, base, stride and
record address. -/
structure CapFrame where
  fs : Stamp
  model : Bool
  lines : Nat := 0
  adds : Nat := 0
  flags : Nat := 0
  closed : Bool := false
  buf : Nat := 0
  seq : Nat := 0
  base : Nat := 0
  stride : Nat := 0
  recAt : Nat := 0
  deriving DecidableEq, Repr

/-- A capture channel: its frame, the frames written to HBM3E since EN was set (R515), the words of GEOM, PITCH, SEM
and DST in use while written ones wait (R517), and adds that wait for their lines (R511). -/
structure CapVc where
  frame : Option CapFrame := none
  k : Nat := 0
  act : Option (List Nat) := none
  due : Nat := 0
  deriving DecidableEq, Repr

/-- The faults of one code on one channel in the line-clock frame in progress (R516). -/
structure CapFault where
  code : Nat
  cap : Nat
  vc : Nat
  count : Nat
  stamp : Stamp
  fs : Stamp
  deriving DecidableEq, Repr

/-! ### Display pipes (R519 to R544) -/

/-- The active fields of a Foxglove command (R535). -/
structure FgCfg where
  x : Nat
  y : Nat
  w : Nat
  h : Nat
  premult : Bool
  crcEn : Bool
  safeEn : Bool
  bpc : Bool
  limit : Nat
  crcImage : Nat
  crcSafe : Nat
  deriving DecidableEq, Repr

/-- A display pipe (R519 to R543). Its registers stand in `State.regs`, its active copies in `State.pipeActive`. -/
structure PipeSt where
  /-- The next line to scan out, and the active and total lines of the frame in progress. -/
  line : Nat := 0
  vact : Nat := 1080
  vtot : Nat := 1125
  /-- The boundary of this frame has been taken. -/
  bdone : Bool := false
  /-- The snapshot of an armed commit (R530), and whether it is that of a DISPLAY_CONFIG. -/
  armed : Option (List (Nat × Word)) := none
  hostOff : Bool := false
  /-- Host layers stay off after P3 until the next boundary (R557). -/
  dark : Bool := false
  hpd : Bool := false
  link : Bool := false
  training : Bool := false
  /-- The port is driven (R542). -/
  portOn : Bool := false
  /-- An AUX transaction is under way. -/
  aux : Bool := false
  /-- Foxglove (R532 to R538): the command in use, the one to take at the next boundary (none inside: disable), the
  safe image due at the next boundary, the store (image banks, then safe banks, 256 KiB each), the CRC register of the
  frame in progress and whether a store read failed in it. -/
  fg : Option FgCfg := none
  fgNext : Option (Option FgCfg) := none
  safeDue : Bool := false
  store : Mem := {}
  crc : Nat := 0xFFFFFFFF
  fgBad : Bool := false
  /-- 0xF2 and the layers of 0xF3 recorded in this frame, and the 64-byte spans whose fetch failed in it. -/
  under : Bool := false
  ferr : List Nat := []
  bad : List Nat := []
  /-- The last line composed: red, green and blue as they leave the pipe. -/
  out : List (Nat × Nat × Nat) := []
  deriving DecidableEq, Repr

/-! ### Power, presence and resets (R446 to R449, R545 to R564, R590 to R593) -/

/-- The power sequencer: the mailbox whose POWER_STATE is in progress and when Eflan took it, when the present step
began, whether the transition is a wake, the mailbox of a CLOCK_SWITCH that waits for the PLL and when it started, the
cause of a device-wide reset that runs once the device is awake (R547), when an entry began (paused timers, R550), the
input samples in mW, newest first, and for each condition of R560 whether and when it was reported last; the last
temperature warning stands until the die has cooled (R561). -/
structure Power where
  mbox : Option Nat := none
  takenAt : Nat := 0
  stepAt : Nat := 0
  waking : Bool := false
  pll : Option (Nat × Nat) := none
  reset : Option Nat := none
  pausedAt : Nat := 0
  samples : List Nat := []
  milliwatts : Nat := 0
  overRun : Nat := 0
  sustAt : Option Nat := none
  peakAt : Option Nat := none
  warnAt : Option Nat := none
  hot : Bool := false
  deriving DecidableEq, Repr

/-- The hot-swap controller: whether its switch is closed and the output good, the pins it senses, since when each of
its conditions has held (R590), when the switch closed, and the fault latch with its cause (R592). -/
structure HotSwap where
  closed : Bool := true
  good : Bool := true
  vin : Nat := 12000
  prsnt2Low : Bool := true
  pwrdis : Bool := false
  vinSince : Nat := 0
  prsnt2Since : Nat := 0
  pwrdisSince : Nat := 0
  closedAt : Nat := 0
  latched : Bool := false
  thermal : Bool := false
  faultAt : Nat := 0
  deriving DecidableEq, Repr

/-- A partition reset (R446 to R448): its cause of R603, CLEAR, whether its function's MSI-X takes its reset values, the
engines that were failed when it started, the mailboxes that wait for its release, whether it is a PART_DESTROY, and
the ACLK cycle in which order 6 began. -/
structure PReset where
  part : Nat
  cause : Nat
  clear : Bool := false
  flr : Bool := false
  failed : List Nat := []
  mboxes : List Nat := []
  destroy : Bool := false
  zeroFrom : Nat := 0
  deriving DecidableEq, Repr

/-! ### Boot, identity and updates (R483 to R504) -/

/-- An open update (R502): of the configuration record or of an image, and its total size. -/
structure Update where
  cfg : Bool
  size : Nat
  deriving DecidableEq, Repr

/-- A report being signed (R499, R501): the mailbox, its covered bytes, the certificate that follows it, and when it was
assembled. -/
structure Report where
  mbox : Nat
  body : List Byte
  cert : List Byte
  since : Nat
  deriving DecidableEq, Repr

/-- Peony: whether the boot ROM or Eflan waits to start, from when; whether this is a restart; the copies and slots that
failed verification and wait to be logged (2 and 3, with the copy or slot); the identity key; the firmware and
configuration measurements; the open update; the reports being signed; the MIN_SVN that image commits obey (R503); when
BEAT last changed; and whether flash records a thermal trip (R561). -/
structure Peony where
  romDue : Bool := true
  eflanDue : Bool := false
  dueAt : Nat := 0
  restarted : Bool := false
  bad : List (Nat × Nat) := []
  key : Option (List Byte) := none
  fwDigest : List Byte := []
  cfgDigest : List Byte := []
  update : Option Update := none
  reports : List Report := []
  minSvn : Nat := 0
  beatAt : Nat := 0
  tripped : Bool := false
  deriving DecidableEq, Repr


/-- The machine. -/
structure State where
  /-- Commands that wait, first in, first out. -/
  pending : List Instr := []
  /-- Time in units of 1/12,000 µs: 25 of them are one wake-oscillator cycle, 6 one ACLK cycle from the PLL. -/
  now : Nat := 0
  /-- Whether ACLK runs from the PLL (R559), and the ACLK count and time at the last change of that. -/
  pll : Bool := false
  aclkBase : Nat := 0
  aclkFrom : Nat := 0
  /-- THE MODEL'S OWN: how many free values have been drawn. -/
  fresh : Nat := 0
  /-- Plain registers by MW0 offset; an unlisted one holds `resetWord` (R13). -/
  regs : List (Nat × Word) := []
  log : ErrLog := {}
  lc : LineClock := {}
  /-- MSI-X vectors by 64 × function + vector, and the control of each function. -/
  msix : List (Nat × Msix) := []
  msixCtl : List (Nat × MsixCtl) := []
  /-- What the device has sent to the host, newest first. -/
  sent : List HostMsg := []
  /-- THE MODEL'S OWN: the words the last read command returned, and whether it completed (0), was
  completed with Unsupported Request (1) or with Completer Abort (2). -/
  rdata : List Nat := []
  rstat : Nat := 0
  /-- Active copies of the shadowed pipe registers, by MW0 offset (R530). -/
  pipeActive : List (Nat × Word) := []
  /-- External memory (R302), the tile memories by engine × 4 MiB + offset (R100), and what the device reads
  behind the host aperture, by 64-bit host address (R440). -/
  hbm : Mem := {}
  tile : Mem := {}
  host : Mem := {}
  engines : List (Nat × Engine) := []
  semCycles : List SemCycle := []
  fslots : List (Nat × FSlot) := []
  fclock : Nat := 0
  fwaiting : List PageIn := []
  pageIns : List PageIn := []
  fsigs : List FSig := []
  transits : List FSig := []
  arbs : List (Nat × ArbSt) := []
  replies : List Reply := []
  arrived : List Reply := []
  mcs : List (Nat × McSt) := []
  routers : List (Nat × Router) := []
  meshOut : List MeshPkt := []
  ctxs : List (Nat × Ctx) := []
  queues : List (Nat × Queue) := []
  slots : List (Nat × SlotSt) := []
  /-- The relocation cache, most recently used first: context, index, entry words (R367). -/
  reloc : List (Nat × Nat × List Nat) := []
  jobs : List Job := []
  jobKey : Nat := 0
  copies : List CopyJob := []
  compWaits : List CompWait := []
  cx : List (Nat × CxSt) := []
  /-- Dispatches, pre-empted jobs, spills and restores that wait, the quads that have placed in a cycle (quad,
  cycle), and the slot last served by partition (R250 to R265). -/
  disps : List Disp := []
  pres : List Pre := []
  xfers : List Xfer := []
  placedIn : List (Nat × Nat) := []
  lastServed : List (Nat × Nat) := []
  passes : List Pass := []
  /-- The partition that each sector's geometry unit served last (R202). -/
  geoTurn : List (Nat × Nat) := []
  /-- Reads of host memory that wait for their completions (R433). -/
  hostReads : List Burst := []
  /-- The resident model (R169), one being loaded with the mailbox that waits (R171), and the frame whose boundary
  the monitor last took. -/
  model : Option Model := none
  loading : Option (Nat × Model) := none
  monFrame : Nat := 0
  /-- Engines declared failed that Eflan has not handled yet, in declaration order (R575, R580). -/
  failOrder : List Nat := []
  /-- Mailboxes whose GO waits to be taken, in order of their GO writes; those taken, and their order (R465). -/
  mbWait : List Nat := []
  mboxes : List (Nat × Mbox) := []
  mbOrder : List Nat := []
  /-- MB0's staging buffer, 16 KiB (R461, R468). -/
  staging : Mem := {}
  /-- Capture channels by 4 × unit + channel, units stopped until configured again (R517), and this frame's faults. -/
  caps : List (Nat × CapVc) := []
  capStop : List Nat := []
  capFaults : List CapFault := []
  pipes : List (Nat × PipeSt) := []
  /-- The Foxglove key, the last counter accepted, the counter of the last command checked, and the command being
  checked with its pipe (R533 to R539). -/
  foxKey : Option (List Byte) := none
  foxCount : Nat := 0
  foxChecked : Nat := 0
  foxCmd : Option (Nat × List Byte) := none
  power : Power := {}
  hotSwap : HotSwap := {}
  /-- Partition resets in progress, and the cause of a device-wide reset that runs (R448, R603). -/
  resets : List PReset := []
  wide : Option Nat := none
  /-- PERST# is asserted, and Eflan has released the PCIe controller from reset (R449, R492). -/
  perst : Bool := true
  pcieOut : Bool := false
  peony : Peony := {}
  /-- Module flash, 8 MiB (R485). Its contents are free values: Tarwen writes them. -/
  flash : Mem := { regions := [{ lo := 0, hi := 2 ^ 23, epoch := 2 ^ 64 }] }
  /-- What the device drove on DQ in the last serial frame (R456). -/
  wire : List Byte := []
  deriving DecidableEq, Repr

/-- The machine after power-on reset (R13, R581): every field at its reset value. -/
def State.reset : State := {}

end Sys2Proof.Machine
end

