-- ==== Sys2Proof/Machine/Ops.lean ====
section
/-!
DEFINITION. The named operations every family shares: bit fields, sparse tables, memories, time and the
error log. Tables and memories are kept in one canonical form; `Laws/Tab.lean` and `Laws/Mem.lean` hold
what each operation does.
-/
namespace Sys2Proof.Machine

/-! ### Bit fields (R8: bit 0 is the least significant bit) -/

/-- The field of `n` bits of `w` whose lowest bit is `lo`. -/
def bits (w lo n : Nat) : Nat := w / 2 ^ lo % 2 ^ n

/-- `w` with its field of `n` bits at `lo` replaced by `v` (taken to `n` bits). -/
def setBits (w lo n v : Nat) : Nat :=
  w - bits w lo n * 2 ^ lo + v % 2 ^ n * 2 ^ lo

/-- Bit `i` of `w`. -/
def bit (w i : Nat) : Bool := w / 2 ^ i % 2 == 1

/-- 1 for true, 0 for false. -/
def b2n (b : Bool) : Nat := if b then 1 else 0

/-- `x` held inside `lo` to `hi` (R17: the nearer end). -/
def clampTo (lo hi x : Nat) : Nat := min hi (max lo x)

/-- Quotient rounded up. -/
def ceilDiv (a b : Nat) : Nat := (a + b - 1) / b

/-- The two's-complement value of the low `n` bits of `x`. -/
def toSigned (n x : Nat) : Int :=
  let y := x % 2 ^ n
  if y < 2 ^ (n - 1) then (y : Int) else (y : Int) - (2 ^ n : Nat)

/-- The low `n` bits of an integer, two's complement. -/
def ofSigned (n : Nat) (x : Int) : Nat := (x % (2 ^ n : Nat)).toNat

/-- A value as the high word of a 64-bit one. -/
def hi32 (x : Nat) : Nat := x <<< 32

/-- The largest element of a list of naturals, 0 when empty. -/
def maxOf (l : List Nat) : Nat := l.foldl max 0

/-- Reads element `i` of a list of naturals, 0 past the end. -/
def nth (l : List Nat) (i : Nat) : Nat := l.getD i 0

/-! ### Sparse tables with a default -/

variable {α : Type}

/-- The entry of key `k`, if the table lists one. -/
def tabFind (k : Nat) : List (Nat × α) → Option α
  | [] => none
  | (j, v) :: r => bif Nat.beq j k then some v else tabFind k r

/-- The value of key `k`: the listed one, else the default `d k`. -/
def tabGet (d : Nat → α) (k : Nat) (l : List (Nat × α)) : α := (tabFind k l).getD (d k)

/-- The table without key `k`. -/
def tabDrop (k : Nat) : List (Nat × α) → List (Nat × α)
  | [] => []
  | (j, v) :: r => bif Nat.beq j k then tabDrop k r else (j, v) :: tabDrop k r

/-- Puts `(k, v)` in front of the first larger key. -/
def tabInsert (k : Nat) (v : α) : List (Nat × α) → List (Nat × α)
  | [] => [(k, v)]
  | (j, w) :: r => bif Nat.blt k j then (k, v) :: (j, w) :: r else (j, w) :: tabInsert k v r

/-- Sets key `k` to `v`. A value equal to the default is not listed, so equal tables are equal lists. -/
def tabPut [DecidableEq α] (d : Nat → α) (k : Nat) (v : α) (l : List (Nat × α)) : List (Nat × α) :=
  if v = d k then tabDrop k l else tabInsert k v (tabDrop k l)

/-- The canonical form: keys strictly rising and no listed value equal to its default. -/
def tabWf [DecidableEq α] (d : Nat → α) : List (Nat × α) → Bool
  | [] => true
  | [(k, v)] => !decide (v = d k)
  | (k, v) :: (j, w) :: r => Nat.blt k j && !decide (v = d k) && tabWf d ((j, w) :: r)

/-! ### Byte memories -/

/-- What address `a` reads as when no cell lists it: 0 in a zeroed region, a free byte in a region whose
contents the spec leaves undefined, and 0 outside every region (power-on memory, a DESIGN CHOICE). -/
def Mem.unlisted (regions : List Region) (a : Nat) : Byte :=
  match regions with
  | [] => 0#8
  | r :: rs =>
    bif Nat.ble r.lo a && Nat.blt a r.hi then
      (bif Nat.beq r.epoch 0 then 0#8 else Config.freeByte r.epoch a)
    else Mem.unlisted rs a

/-- One byte of a memory. -/
def Mem.read (m : Mem) (a : Nat) : Byte := tabGet (Mem.unlisted m.regions) a m.cells

/-- Stores one byte, keeping the canonical form. -/
def Mem.write (m : Mem) (a : Nat) (v : Byte) : Mem :=
  { m with cells := tabPut (Mem.unlisted m.regions) a v m.cells }

/-- The canonical form of a memory. -/
def Mem.wf (m : Mem) : Bool := tabWf (Mem.unlisted m.regions) m.cells

/-- `n` bytes from address `a` upward. -/
def Mem.readBytes (m : Mem) (a : Nat) : Nat → List Byte
  | 0 => []
  | n + 1 => m.read a :: Mem.readBytes m (a + 1) n

/-- Stores a list of bytes from address `a` upward. -/
def Mem.writeBytes (m : Mem) (a : Nat) : List Byte → Mem
  | [] => m
  | b :: r => Mem.writeBytes (m.write a b) (a + 1) r

/-- The number a list of bytes spells, little-endian (R9). -/
def leNat : List Byte → Nat
  | [] => 0
  | b :: r => b.toNat + 256 * leNat r

/-- `n` bytes of a number, little-endian (R9). -/
def leBytes : Nat → Nat → List Byte
  | 0, _ => []
  | n + 1, v => BitVec.ofNat 8 v :: leBytes n (v / 256)

/-- An `n`-byte little-endian number at address `a`. -/
def Mem.readNat (m : Mem) (a n : Nat) : Nat := leNat (m.readBytes a n)

/-- Stores an `n`-byte little-endian number at address `a`. -/
def Mem.writeNat (m : Mem) (a n v : Nat) : Mem := m.writeBytes a (leBytes n v)

/-- Words as bytes, each word little-endian (R9). -/
def wordBytes (ws : List Nat) : List Byte := ws.flatMap (leBytes 4)

/-- A list of bytes as words, each little-endian; a short last word is filled with zeros. -/
def bytesWords : List Byte → List Nat
  | a :: b :: c :: d :: r => leNat [a, b, c, d] :: bytesWords r
  | [] => []
  | short => [leNat short]

/-- Gives the addresses `lo` up to `hi` new unlisted contents: 0 for epoch 0 (a zeroing, R447), a free
byte for any other epoch (contents the spec leaves undefined). -/
def Mem.blank (m : Mem) (lo hi epoch : Nat) : Mem :=
  { cells := (m.cells.filter fun c => !(Nat.ble lo c.1 && Nat.blt c.1 hi))
    regions := { lo := lo, hi := hi, epoch := epoch } ::
      m.regions.filter fun r => !(Nat.ble lo r.lo && Nat.ble r.hi hi) }

end Sys2Proof.Machine
end

