-- ==== Sys2Proof/Machine/Regs.lean ====
section
/-!
DEFINITION. The register tables of the spec: where each register lies in MW0 (R437), its fields, access codes
(R14), reset values (R13) and clamps (R17). A bit of no listed field is reserved: it reads as 0 and ignores
writes (R15).
-/
namespace Sys2Proof.Machine

/-- Access codes (R14). -/
inductive Acc
  | rw | ro | wo | w1c | w1s | rc
  deriving DecidableEq, Repr

/-- The Clamp column (R13). -/
inductive Clamp
  /-- Every encodable value is legal. -/
  | none
  /-- The nearer end of the range (R17). -/
  | range (lo hi : Nat)
  /-- Values from `lo` to `hi` read as `v`. -/
  | toVal (lo hi v : Nat)
  /-- The low `k` bits read as 0. -/
  | lowZero (k : Nat)
  deriving DecidableEq, Repr

/-- The value a clamp stores for `x`. -/
def Clamp.apply : Clamp → Nat → Nat
  | .none, x => x
  | .range lo hi, x => clampTo lo hi x
  | .toVal lo hi v, x => if lo ≤ x ∧ x ≤ hi then v else x
  | .lowZero k, x => x / 2 ^ k * 2 ^ k

/-- One field of a register. -/
structure Fld where
  lo : Nat
  width : Nat
  acc : Acc
  reset : Nat := 0
  clamp : Clamp := .none
  deriving DecidableEq, Repr

/-- One register of a block, repeated `n` times at stride `s` and each of those `m` times at stride `t`. -/
structure RegDesc where
  base : Nat
  flds : List Fld
  n : Nat := 1
  s : Nat := 0
  m : Nat := 1
  t : Nat := 0
  deriving DecidableEq, Repr

/-- A 32-bit counter the device alone writes. -/
def cnt32 : List Fld := [⟨0, 32, .ro, 0, .none⟩]

/-- A 32-bit word that is written whole. -/
def word32 (reset : Nat := 0) : List Fld := [⟨0, 32, .rw, reset, .none⟩]

/-! ### Block offsets (R437) -/

/-- PT block (R452). -/
def ptBase : Nat := 0x000000
/-- MB block (R482). -/
def mbBase : Nat := 0x010000
/-- ID block (R505). -/
def idBase : Nat := 0x020000
/-- PWR block (R564). -/
def pwrBase : Nat := 0x030000
/-- LC block (R85). -/
def lcBase : Nat := 0x040000
/-- ENG block (R124). -/
def engBase : Nat := 0x050000
/-- QD block (R124). -/
def qdBase : Nat := 0x060000
/-- SEC block (R246). -/
def secBase : Nat := 0x070000
/-- SYN block (R301). -/
def synBase : Nat := 0x080000
/-- ARB block (R329). -/
def arbBase : Nat := 0x090000
/-- MC block (R329). -/
def mcBase : Nat := 0x0A0000
/-- CX block (R359). -/
def cxBase : Nat := 0x0B0000
/-- CMP block (R544). -/
def cmpBase : Nat := 0x0C0000
/-- CAP block (R518). -/
def capBase : Nat := 0x0D0000
/-- MSI-X table and pending bits (R444). -/
def msixBase : Nat := 0x0E0000
/-- FE block (R430). -/
def feBase : Nat := 0x100000

/-! ### The tables -/

/-- LC_ registers (R85). -/
def lcRegs : List RegDesc :=
  [ { base := lcBase + 0x000, flds := [⟨0, 12, .ro, 0, .none⟩, ⟨12, 16, .ro, 0, .none⟩] }
  , { base := lcBase + 0x004, flds := cnt32 }
  , { base := lcBase + 0x008, flds := [⟨0, 2, .rw, 3, .none⟩, ⟨2, 3, .rw, 0, .none⟩, ⟨5, 2, .rw, 0, .none⟩,
        ⟨8, 1, .rw, 0, .none⟩] }
  , { base := lcBase + 0x00C, flds := [⟨0, 20, .rw, 1000, .range 100 100000⟩] }
  , { base := lcBase + 0x010, flds := [⟨0, 20, .rw, 200000, .range 1000 1000000⟩] }
  , { base := lcBase + 0x014, flds := [⟨0, 16, .rw, 1125, .range 1 65535⟩] }
  , { base := lcBase + 0x018, flds := [⟨0, 20, .rw, 16667, .range 1000 1000000⟩] }
  , { base := lcBase + 0x01C, flds := [⟨0, 1, .rw, 0, .none⟩, ⟨1, 1, .rw, 0, .none⟩,
        ⟨2, 8, .rw, 1, .range 1 255⟩] }
  , { base := lcBase + 0x020, flds := [⟨0, 2, .ro, 0, .none⟩, ⟨2, 2, .ro, 0, .none⟩, ⟨8, 1, .w1c, 0, .none⟩,
        ⟨9, 1, .w1c, 0, .none⟩, ⟨10, 1, .w1c, 0, .none⟩] }
  , { base := lcBase + 0x024, flds := [⟨0, 32, .ro, 8000000, .none⟩] }
  , { base := lcBase + 0x028, flds := [⟨0, 8, .ro, 0, .none⟩, ⟨8, 24, .ro, 7111, .none⟩] }
  , { base := lcBase + 0x02C, flds := cnt32, n := 2, s := 4 }
  , { base := lcBase + 0x034, flds := cnt32, n := 2, s := 4 }
  , { base := lcBase + 0x100, flds := cnt32, n := 64, s := 0x10, m := 4, t := 4 } ]

/-- ENG_ and QD_ registers (R124). ENG_ID_HI.ENGINE is wired and added by `resetWord`. -/
def engRegs : List RegDesc :=
  [ { base := engBase + 0x00, n := 64, s := 0x100, flds := [⟨0, 24, .rw, 0, .none⟩, ⟨24, 5, .rw, 0, .none⟩] }
  , { base := engBase + 0x04, n := 64, s := 0x100, flds := [⟨0, 8, .rw, 0, .none⟩, ⟨8, 8, .rw, 0, .none⟩,
        ⟨16, 6, .ro, 0, .none⟩, ⟨31, 1, .rw, 0, .none⟩] }
  , { base := engBase + 0x08, n := 64, s := 0x100, flds := [⟨0, 1, .ro, 0, .none⟩, ⟨1, 1, .ro, 0, .none⟩,
        ⟨2, 1, .w1c, 0, .none⟩, ⟨3, 1, .ro, 0, .none⟩, ⟨4, 4, .ro, 0, .none⟩, ⟨8, 2, .ro, 0, .none⟩] }
  , { base := engBase + 0x0C, n := 64, s := 0x100, m := 2, t := 4, flds := word32 }
  , { base := engBase + 0x14, n := 64, s := 0x100, m := 4, t := 4,
      flds := [⟨0, 31, .rw, 0, .toVal 0x7F800001 0x7FFFFFFF 0x7F800000⟩, ⟨31, 1, .w1c, 0, .none⟩] }
  , { base := engBase + 0x24, n := 64, s := 0x100, flds := [⟨0, 1, .w1c, 0, .none⟩] }
  , { base := engBase + 0x28, n := 64, s := 0x100, flds := [⟨0, 32, .rc, 0, .none⟩] }
  , { base := engBase + 0x2C, n := 64, s := 0x100, flds := [⟨0, 3, .rw, 6, .range 0 6⟩, ⟨8, 1, .w1s, 0, .none⟩] }
  , { base := engBase + 0x30, n := 64, s := 0x100, flds := [⟨0, 3, .ro, 6, .none⟩, ⟨8, 1, .ro, 0, .none⟩] }
  , { base := engBase + 0x34, n := 64, s := 0x100, flds := cnt32 }
  , { base := engBase + 0x38, n := 64, s := 0x100, flds := [⟨0, 1, .w1c, 0, .none⟩, ⟨1, 1, .ro, 0, .none⟩,
        ⟨4, 18, .ro, 0, .none⟩] }
  , { base := engBase + 0x3C, n := 64, s := 0x100, flds := [⟨0, 1, .rw, 1, .none⟩, ⟨8, 8, .rw, 1, .range 1 255⟩] }
  , { base := qdBase + 0x00, n := 16, s := 0x20, flds := [⟨0, 4, .rw, 0xF, .none⟩, ⟨4, 4, .w1c, 0, .none⟩,
        ⟨8, 4, .rw, 0xF, .none⟩] }
  , { base := qdBase + 0x04, n := 16, s := 0x20, flds := [⟨0, 2, .rw, 0, .none⟩, ⟨2, 2, .rw, 1, .none⟩,
        ⟨4, 2, .rw, 2, .none⟩, ⟨6, 2, .rw, 3, .none⟩, ⟨8, 3, .rw, 4, .range 0 4⟩] }
  , { base := qdBase + 0x08, n := 16, s := 0x20, flds := [⟨0, 24, .rw, 65536, .range 4096 16777215⟩,
        ⟨31, 1, .rw, 1, .none⟩] }
  , { base := qdBase + 0x0C, n := 16, s := 0x20, flds := cnt32 } ]

/-- SEC_ registers (R246). -/
def secRegs : List RegDesc :=
  [ { base := secBase + 0x00, n := 4, s := 0x100, m := 3, t := 4, flds := cnt32 }
  , { base := secBase + 0x800, n := 9, s := 0x40, flds := [⟨0, 1, .ro, 0, .none⟩, ⟨1, 1, .ro, 0, .none⟩,
        ⟨2, 1, .w1c, 0, .none⟩, ⟨3, 1, .ro, 0, .none⟩, ⟨4, 4, .ro, 0, .none⟩, ⟨16, 16, .ro, 0, .none⟩] }
  , { base := secBase + 0x804, n := 9, s := 0x40, m := 2, t := 4, flds := [⟨0, 16, .ro, 0, .none⟩] }
  , { base := secBase + 0x80C, n := 9, s := 0x40, flds := [⟨8, 24, .rw, 0, .none⟩] }
  , { base := secBase + 0x810, n := 9, s := 0x40, flds := [⟨0, 16, .rw, 0, .none⟩] }
  , { base := secBase + 0x814, n := 9, s := 0x40, flds := [⟨0, 16, .wo, 0, .none⟩, ⟨16, 16, .wo, 0, .none⟩] }
  , { base := secBase + 0x818, n := 9, s := 0x40, flds := [⟨0, 16, .rw, 0, .none⟩] }
  , { base := secBase + 0x81C, n := 9, s := 0x40, flds := [⟨0, 16, .ro, 0, .none⟩, ⟨16, 16, .ro, 0, .none⟩] } ]

/-- SYN_ registers (R301). The fence-slot registers report `State.fslots`. -/
def synRegs : List RegDesc :=
  [ { base := synBase, n := 16, s := 0x800, m := 512, t := 4, flds := word32 }
  , { base := synBase + 0x8000, n := 48, s := 0x20, flds := [⟨3, 29, .ro, 0, .none⟩] }
  , { base := synBase + 0x8004, n := 48, s := 0x20, flds := [⟨0, 16, .ro, 0, .none⟩, ⟨24, 4, .ro, 0, .none⟩,
        ⟨31, 1, .ro, 0, .none⟩] }
  , { base := synBase + 0x8008, n := 48, s := 0x20, m := 2, t := 4, flds := cnt32 }
  , { base := synBase + 0x8010, n := 48, s := 0x20, flds := [⟨0, 1, .w1c, 0, .none⟩, ⟨1, 1, .ro, 0, .none⟩,
        ⟨2, 1, .w1c, 0, .none⟩, ⟨3, 1, .ro, 0, .none⟩, ⟨8, 7, .ro, 0, .none⟩] }
  , { base := synBase + 0x8800, flds := [⟨0, 6, .ro, 0, .none⟩, ⟨8, 6, .ro, 0, .none⟩, ⟨16, 16, .ro, 0, .none⟩] }
  , { base := synBase + 0x8804, n := 3, s := 4, flds := cnt32 }
  , { base := synBase + 0x9000, n := 64, s := 4, flds := cnt32 } ]

/-- MC_ and ARB_ registers (R329). MC_STATUS.CAP is 0: the TV-4860-M48 record. -/
def mcRegs : List RegDesc :=
  [ { base := mcBase + 0x00, n := 16, s := 0x80, flds := [⟨0, 1, .ro, 0, .none⟩, ⟨1, 1, .ro, 0, .none⟩,
        ⟨4, 1, .ro, 0, .none⟩] }
  , { base := mcBase + 0x04, n := 16, s := 0x80, m := 4, t := 4, flds := cnt32 }
  , { base := mcBase + 0x14, n := 16, s := 0x80, flds := [⟨0, 1, .w1c, 0, .none⟩, ⟨1, 1, .ro, 0, .none⟩,
        ⟨3, 29, .ro, 0, .none⟩] }
  , { base := mcBase + 0x18, n := 16, s := 0x80, flds := [⟨0, 16, .ro, 0, .none⟩] }
  , { base := mcBase + 0x1C, n := 16, s := 0x80, flds := [⟨0, 1, .rw, 1, .none⟩, ⟨8, 8, .rw, 1, .range 1 255⟩] }
  , { base := arbBase + 0x00, n := 20, s := 0x80, flds := [⟨0, 16, .rw, 4096, .range 16 65535⟩,
        ⟨16, 8, .rw, 64, .range 1 255⟩] }
  , { base := arbBase + 0x04, n := 20, s := 0x80, flds := [⟨0, 1, .ro, 0, .none⟩, ⟨1, 1, .w1c, 0, .none⟩] }
  , { base := arbBase + 0x08, n := 20, s := 0x80, m := 2, t := 4, flds := [⟨0, 32, .w1c, 0, .none⟩] }
  , { base := arbBase + 0x10, n := 20, s := 0x80, flds := [⟨0, 24, .w1c, 0, .none⟩] }
  , { base := arbBase + 0x14, n := 20, s := 0x80, flds := cnt32 }
  , { base := arbBase + 0x18, n := 20, s := 0x80, flds := [⟨0, 10, .rc, 0, .none⟩] }
  , { base := arbBase + 0x1C, n := 20, s := 0x80, flds := [⟨0, 16, .rc, 0, .none⟩, ⟨16, 7, .rc, 0, .none⟩] } ]

/-- CX_ registers (R359). CX_STATUS and CX_WAIT report `State.cx`. -/
def cxRegs : List RegDesc :=
  [ { base := cxBase + 0x00, n := 4, s := 0x40, flds := [⟨0, 1, .ro, 0, .none⟩, ⟨1, 1, .ro, 0, .none⟩,
        ⟨2, 1, .ro, 0, .none⟩, ⟨4, 3, .ro, 0, .none⟩, ⟨8, 4, .ro, 0, .none⟩, ⟨16, 4, .ro, 0, .none⟩,
        ⟨24, 6, .ro, 0, .none⟩] }
  , { base := cxBase + 0x04, n := 4, s := 0x40, m := 5, t := 4, flds := cnt32 }
  , { base := cxBase + 0x18, n := 4, s := 0x40, flds := [⟨0, 8, .ro, 0, .none⟩] } ]

/-- FE_ registers (R430). FE_QSLOT, FE_COMP, FE_CERR and FE_RPTR report `State.slots` and `State.queues`. -/
def feRegs : List RegDesc :=
  [ { base := feBase + 0x0000, flds := [⟨0, 17, .rw, 4000, .range 1 64000⟩] }
  , { base := feBase + 0x0004, flds := [⟨0, 7, .ro, 0, .none⟩, ⟨8, 7, .ro, 0, .none⟩, ⟨16, 7, .ro, 0, .none⟩,
        ⟨24, 7, .ro, 0, .none⟩] }
  , { base := feBase + 0x0008, n := 6, s := 4, flds := cnt32 }
  , { base := feBase + 0x1000, n := 64, s := 0x40, m := 7, t := 4, flds := cnt32 }
  , { base := feBase + 0x101C, n := 64, s := 0x40, flds := [⟨0, 16, .ro, 0, .none⟩, ⟨16, 10, .ro, 0, .none⟩,
        ⟨31, 1, .w1c, 0, .none⟩] }
  , { base := feBase + 0x1020, n := 64, s := 0x40, m := 4, t := 4, flds := cnt32 }
  , { base := feBase + 0x2000, n := 4096, s := 0x10, m := 4, t := 4, flds := cnt32 }
  , { base := feBase + 0x12000, n := 4096, s := 4, flds := cnt32 } ]

/-- PT_ registers (R452). The values of partition 0 at reset are added by `resetWord`. -/
def ptRegs : List RegDesc :=
  [ { base := ptBase + 0x00, n := 9, s := 0x200, flds := [⟨0, 1, .ro, 0, .none⟩, ⟨1, 1, .ro, 0, .none⟩,
        ⟨2, 1, .ro, 0, .none⟩, ⟨4, 3, .ro, 0, .none⟩, ⟨7, 1, .ro, 0, .none⟩, ⟨16, 16, .ro, 0, .none⟩] }
  , { base := ptBase + 0x04, n := 9, s := 0x200, flds := [⟨0, 16, .rw, 0, .none⟩] }
  , { base := ptBase + 0x08, n := 9, s := 0x200, flds := [⟨0, 11, .rw, 0, .none⟩, ⟨16, 11, .rw, 0, .none⟩] }
  , { base := ptBase + 0x0C, n := 9, s := 0x200, flds := [⟨0, 3, .rw, 0, .none⟩, ⟨4, 3, .rw, 0, .none⟩] }
  , { base := ptBase + 0x10, n := 9, s := 0x200, flds := [⟨0, 11, .rw, 0, .none⟩, ⟨16, 5, .ro, 8, .none⟩] }
  , { base := ptBase + 0x14, n := 9, s := 0x200, flds := [⟨0, 4, .ro, 0, .none⟩, ⟨8, 8, .ro, 0, .none⟩] }
  , { base := ptBase + 0x40, n := 9, s := 0x200, m := 8, t := 0x20, flds := [⟨0, 1, .rw, 0, .none⟩,
        ⟨12, 20, .rw, 0, .none⟩] }
  , { base := ptBase + 0x44, n := 9, s := 0x200, m := 8, t := 0x20,
      flds := [⟨0, 16, .rw, 0x8000, .range 0x8000 0xFFFF⟩] }
  , { base := ptBase + 0x48, n := 9, s := 0x200, m := 8, t := 0x20,
      flds := [⟨0, 25, .rw, 0, .range 0 16777216⟩] }
  , { base := ptBase + 0x4C, n := 9, s := 0x200, m := 8, t := 0x20, flds := [⟨12, 20, .rw, 0, .none⟩] }
  , { base := ptBase + 0x50, n := 9, s := 0x200, m := 8, t := 0x20, flds := word32 }
  , { base := ptBase + 0x2000, flds := [⟨0, 3, .ro, 0, .none⟩, ⟨4, 5, .ro, 0, .none⟩, ⟨12, 1, .ro, 0, .none⟩] }
  , { base := ptBase + 0x2004, flds := [⟨0, 11, .ro, 764, .none⟩, ⟨16, 5, .ro, 4, .none⟩] }
  , { base := ptBase + 0x2008, flds := [⟨0, 4, .ro, 0, .none⟩, ⟨4, 1, .ro, 0, .none⟩] }
  , { base := ptBase + 0x200C, flds := cnt32 }
  , { base := ptBase + 0x2010, flds := [⟨0, 1, .w1c, 0, .none⟩, ⟨3, 29, .ro, 0, .none⟩] }
  , { base := ptBase + 0x2014, flds := [⟨0, 16, .ro, 0, .none⟩, ⟨16, 4, .ro, 0, .none⟩, ⟨24, 7, .ro, 0, .none⟩] }
  , { base := ptBase + 0x2018, flds := cnt32 } ]

/-- MB_ registers (R482; the Access column is the host's view). MB_CTL and MB_STAT.BUSY report
`State.mboxes`. -/
def mbRegs : List RegDesc :=
  [ { base := mbBase + 0x00, n := 8, s := 0x100, m := 16, t := 4, flds := word32 }
  , { base := mbBase + 0x40, n := 8, s := 0x100, m := 16, t := 4, flds := cnt32 }
  , { base := mbBase + 0x80, n := 8, s := 0x100, flds := [⟨0, 1, .w1s, 0, .none⟩, ⟨1, 1, .ro, 0, .none⟩,
        ⟨2, 1, .w1c, 0, .none⟩, ⟨3, 1, .rw, 0, .none⟩, ⟨4, 2, .ro, 0, .none⟩] }
  , { base := mbBase + 0x1000, flds := [⟨0, 1, .ro, 0, .none⟩, ⟨1, 1, .ro, 0, .none⟩, ⟨8, 8, .ro, 0, .none⟩,
        ⟨16, 16, .ro, 0, .none⟩] }
  , { base := mbBase + 0x1004, flds := [⟨0, 6, .rw, 24, .range 8 32⟩] }
  , { base := mbBase + 0x1008, n := 4, s := 4, flds := cnt32 } ]

/-- ID_ registers (R505). -/
def idRegs : List RegDesc :=
  [ { base := idBase + 0x00, flds := [⟨0, 1, .ro, 0, .none⟩, ⟨1, 1, .ro, 0, .none⟩, ⟨2, 2, .ro, 0, .none⟩,
        ⟨8, 8, .ro, 0, .none⟩, ⟨16, 16, .ro, 0, .none⟩] }
  , { base := idBase + 0x04, flds := [⟨0, 5, .ro, 0, .none⟩] }
  , { base := idBase + 0x08, flds := [⟨0, 24, .ro, 0, .none⟩, ⟨24, 5, .ro, 0, .none⟩] }
  , { base := idBase + 0x0C, flds := [⟨0, 16, .ro, 0, .none⟩, ⟨31, 1, .ro, 0, .none⟩] }
  , { base := idBase + 0x10, flds := [⟨0, 16, .ro, 0x2F3A, .none⟩, ⟨16, 16, .ro, 0x4860, .none⟩] }
  , { base := idBase + 0x14, n := 3, s := 4, flds := cnt32 }
  , { base := idBase + 0x20, flds := [⟨0, 1, .ro, 0, .none⟩, ⟨8, 5, .ro, 0, .none⟩] }
  , { base := idBase + 0x24, n := 2, s := 4, flds := cnt32 }
  , { base := idBase + 0x2C, flds := cnt32 }
  , { base := idBase + 0x30, flds := [⟨0, 24, .ro, 0, .none⟩] } ]

/-- CAP_ registers (R518). -/
def capRegs : List RegDesc :=
  [ { base := capBase + 0x00, n := 8, s := 0x800, flds := [⟨0, 1, .rw, 0, .none⟩,
        ⟨1, 2, .rw, 2, .toVal 3 3 2⟩, ⟨8, 1, .ro, 0, .none⟩] }
  , { base := capBase + 0x04, n := 8, s := 0x800, m := 3, t := 4, flds := cnt32 }
  , { base := capBase + 0x100, n := 8, s := 0x800, m := 4, t := 0x80, flds := [⟨0, 1, .rw, 0, .none⟩,
        ⟨2, 6, .rw, 0x2A, .none⟩, ⟨8, 1, .ro, 0, .none⟩, ⟨9, 1, .rw, 0, .none⟩, ⟨12, 8, .rw, 8, .range 1 255⟩] }
  , { base := capBase + 0x104, n := 8, s := 0x800, m := 4, t := 0x80,
      flds := [⟨0, 15, .rw, 1920, .range 1 16384⟩, ⟨16, 16, .rw, 1080, .range 1 65535⟩] }
  , { base := capBase + 0x108, n := 8, s := 0x800, m := 4, t := 0x80, flds := [⟨0, 24, .rw, 3840, .lowZero 4⟩] }
  , { base := capBase + 0x10C, n := 8, s := 0x800, m := 4, t := 0x80,
      flds := [⟨0, 9, .rw, 0, .none⟩, ⟨9, 4, .rw, 0, .none⟩] }
  , { base := capBase + 0x110, n := 8, s := 0x800, m := 4, t := 0x80, flds := [⟨0, 22, .rw, 0, .lowZero 4⟩] }
  , { base := capBase + 0x114, n := 8, s := 0x800, m := 4, t := 0x80, flds := [⟨0, 4, .rw, 0, .none⟩,
        ⟨4, 5, .rw, 16, .range 1 16⟩, ⟨12, 12, .rw, 8, .range 1 4095⟩, ⟨24, 4, .rw, 0, .none⟩] }
  , { base := capBase + 0x118, n := 8, s := 0x800, m := 4, t := 0x80, flds := [⟨0, 22, .rw, 0, .lowZero 4⟩] }
  , { base := capBase + 0x11C, n := 8, s := 0x800, m := 4, t := 0x80, flds := [⟨0, 4, .rw, 0, .none⟩,
        ⟨4, 5, .rw, 16, .range 1 16⟩, ⟨12, 12, .rw, 8, .range 1 4095⟩, ⟨24, 4, .rw, 0, .none⟩] }
  , { base := capBase + 0x120, n := 8, s := 0x800, m := 4, t := 0x80, flds := [⟨8, 24, .rw, 0, .none⟩] }
  , { base := capBase + 0x124, n := 8, s := 0x800, m := 4, t := 0x80,
      flds := [⟨0, 16, .rw, 0, .none⟩, ⟨16, 8, .rw, 1, .range 1 255⟩] }
  , { base := capBase + 0x128, n := 8, s := 0x800, m := 4, t := 0x80, flds := [⟨8, 24, .rw, 0, .none⟩] }
  , { base := capBase + 0x12C, n := 8, s := 0x800, m := 4, t := 0x80, flds := [⟨5, 27, .rw, 0, .none⟩] }
  , { base := capBase + 0x130, n := 8, s := 0x800, m := 4, t := 0x80, flds := [⟨0, 16, .rw, 0, .none⟩] }
  , { base := capBase + 0x134, n := 8, s := 0x800, m := 4, t := 0x80, flds := [⟨0, 16, .ro, 0, .none⟩,
        ⟨16, 6, .w1c, 0, .none⟩, ⟨31, 1, .w1c, 0, .none⟩] }
  , { base := capBase + 0x138, n := 8, s := 0x800, m := 4, t := 0x80, flds := cnt32 }
  , { base := capBase + 0x13C, n := 8, s := 0x800, m := 4, t := 0x80, flds := cnt32 }
  , { base := capBase + 0x140, n := 8, s := 0x800, m := 4, t := 0x80, flds := cnt32 } ]

/-- PWR_ registers (R564). SECTOR and SECTOR_CLK are 0xF: the record enables engines in every sector. -/
def pwrRegs : List RegDesc :=
  [ { base := pwrBase + 0x00, flds := [⟨0, 3, .ro, 0, .none⟩, ⟨4, 3, .ro, 0, .none⟩, ⟨8, 1, .ro, 0, .none⟩,
        ⟨9, 3, .ro, 0, .none⟩, ⟨16, 1, .ro, 0, .none⟩] }
  , { base := pwrBase + 0x04, flds := [⟨0, 5, .ro, 0x17, .none⟩, ⟨8, 4, .ro, 0xF, .none⟩, ⟨12, 4, .ro, 0xF, .none⟩,
        ⟨16, 4, .ro, 0xF, .none⟩, ⟨20, 8, .ro, 0xFF, .none⟩] }
  , { base := pwrBase + 0x08, n := 2, s := 4, flds := [⟨0, 16, .ro, 0, .none⟩, ⟨16, 16, .ro, 0, .none⟩] }
  , { base := pwrBase + 0x10, flds := [⟨0, 10, .rw, 0, .none⟩, ⟨12, 8, .rw, 100, .range 1 255⟩] }
  , { base := pwrBase + 0x14, flds := [⟨0, 16, .rw, 10000, .none⟩, ⟨16, 16, .ro, 11500, .none⟩] }
  , { base := pwrBase + 0x18, flds := [⟨0, 5, .w1c, 0, .none⟩] }
  , { base := pwrBase + 0x1C, n := 2, s := 4, flds := cnt32 }
  , { base := pwrBase + 0x24, flds := [⟨0, 10, .rc, 0, .none⟩] } ]

/-- CMP_ pipe registers (R544) but for the conversion matrices and the coefficient banks. -/
def cmpRegs : List RegDesc :=
  [ { base := cmpBase + 0x000, n := 4, s := 0x4000, flds := [⟨0, 1, .rw, 0, .none⟩, ⟨1, 1, .rw, 1, .none⟩,
        ⟨2, 1, .rw, 0, .none⟩, ⟨3, 1, .rw, 0, .none⟩, ⟨4, 2, .rw, 2, .toVal 3 3 2⟩, ⟨8, 3, .rw, 3, .none⟩] }
  , { base := cmpBase + 0x004, n := 4, s := 0x4000, flds := [⟨0, 24, .rw, 0, .none⟩] }
  , { base := cmpBase + 0x008, n := 4, s := 0x4000, flds := [⟨0, 15, .rw, 1920, .range 64 7680⟩,
        ⟨16, 15, .rw, 2200, .none⟩] }
  , { base := cmpBase + 0x00C, n := 4, s := 0x4000, flds := [⟨0, 15, .rw, 88, .none⟩, ⟨16, 15, .rw, 44, .none⟩,
        ⟨31, 1, .rw, 0, .none⟩] }
  , { base := cmpBase + 0x010, n := 4, s := 0x4000, flds := [⟨0, 15, .rw, 1080, .range 64 4320⟩,
        ⟨16, 15, .rw, 1125, .none⟩] }
  , { base := cmpBase + 0x014, n := 4, s := 0x4000, flds := [⟨0, 15, .rw, 4, .none⟩, ⟨16, 15, .rw, 5, .none⟩,
        ⟨31, 1, .rw, 0, .none⟩] }
  , { base := cmpBase + 0x018, n := 4, s := 0x4000, flds := [⟨0, 22, .rw, 148500, .range 25000 2200000⟩] }
  , { base := cmpBase + 0x020, n := 4, s := 0x4000, m := 4, t := 4, flds := [⟨0, 13, .rw, 0, .none⟩,
        ⟨16, 13, .rw, 0, .none⟩] }
  , { base := cmpBase + 0x030, n := 4, s := 0x4000, m := 2, t := 0x20, flds := [⟨0, 13, .rw, 0, .none⟩] }
  , { base := cmpBase + 0x040, n := 4, s := 0x4000, m := 4, t := 4, flds := [⟨0, 13, .rw, 0, .none⟩,
        ⟨16, 13, .rw, 0, .none⟩] }
  , { base := cmpBase + 0x034, n := 4, s := 0x4000, m := 2, t := 0x20, flds := [⟨0, 12, .rw, 257, .none⟩,
        ⟨16, 12, .rw, 2056, .none⟩] }
  , { base := cmpBase + 0x060, n := 4, s := 0x4000, flds := [⟨0, 1, .w1s, 0, .none⟩] }
  , { base := cmpBase + 0x064, n := 4, s := 0x4000, flds := [⟨0, 16, .ro, 0, .none⟩, ⟨16, 6, .ro, 0, .none⟩] }
  , { base := cmpBase + 0x070, n := 4, s := 0x4000, m := 4, t := 4, flds := cnt32 }
  , { base := cmpBase + 0x0C0, n := 4, s := 0x4000, flds := [⟨0, 1, .w1s, 0, .none⟩, ⟨1, 1, .rw, 0, .none⟩,
        ⟨2, 1, .rw, 0, .none⟩, ⟨4, 4, .rw, 0, .none⟩, ⟨8, 20, .rw, 0, .none⟩] }
  , { base := cmpBase + 0x0C4, n := 4, s := 0x4000, m := 4, t := 4, flds := word32 }
  , { base := cmpBase + 0x0D4, n := 4, s := 0x4000, flds := [⟨0, 3, .ro, 0, .none⟩] }
  , { base := cmpBase + 0x100, n := 4, s := 0x4000, m := 4, t := 0x40, flds := [⟨0, 1, .rw, 0, .none⟩,
        ⟨1, 3, .rw, 0, .toVal 6 7 0⟩, ⟨4, 4, .rw, 0, .none⟩, ⟨8, 6, .rw, 0, .none⟩] }
  , { base := cmpBase + 0x104, n := 4, s := 0x4000, m := 4, t := 0x40, flds := [⟨8, 24, .rw, 0, .none⟩] }
  , { base := cmpBase + 0x108, n := 4, s := 0x4000, m := 4, t := 0x40, flds := [⟨0, 16, .rw, 0, .none⟩] }
  , { base := cmpBase + 0x10C, n := 4, s := 0x4000, m := 4, t := 0x40, flds := [⟨0, 24, .rw, 0, .lowZero 6⟩] }
  , { base := cmpBase + 0x110, n := 4, s := 0x4000, m := 4, t := 0x40, flds := [⟨8, 24, .rw, 0, .none⟩] }
  , { base := cmpBase + 0x114, n := 4, s := 0x4000, m := 4, t := 0x40, flds := [⟨0, 16, .rw, 0, .none⟩] }
  , { base := cmpBase + 0x118, n := 4, s := 0x4000, m := 4, t := 0x40, flds := [⟨0, 15, .rw, 0, .range 1 16384⟩,
        ⟨16, 15, .rw, 0, .range 1 16384⟩] }
  , { base := cmpBase + 0x11C, n := 4, s := 0x4000, m := 4, t := 0x40, flds := [⟨0, 15, .rw, 0, .range 0 16383⟩,
        ⟨16, 15, .rw, 0, .range 0 16383⟩] }
  , { base := cmpBase + 0x120, n := 4, s := 0x4000, m := 4, t := 0x40, flds := [⟨0, 15, .rw, 0, .range 1 16384⟩,
        ⟨16, 15, .rw, 0, .range 1 16384⟩] }
  , { base := cmpBase + 0x124, n := 4, s := 0x4000, m := 4, t := 0x40, flds := [⟨0, 20, .rw, 65536, .range 4096 524288⟩] }
  , { base := cmpBase + 0x128, n := 4, s := 0x4000, m := 4, t := 0x40, flds := [⟨0, 20, .rw, 65536, .range 4096 524288⟩] }
  , { base := cmpBase + 0x12C, n := 4, s := 0x4000, m := 4, t := 0x40, flds := word32 }
  , { base := cmpBase + 0x130, n := 4, s := 0x4000, m := 4, t := 0x40, flds := word32 }
  , { base := cmpBase + 0x134, n := 4, s := 0x4000, m := 4, t := 0x40, flds := [⟨0, 12, .rw, 4095, .none⟩] }
  , { base := cmpBase + 0x200, n := 4, s := 0x4000, m := 8, t := 0x20, flds := [⟨0, 1, .rw, 0, .none⟩,
        ⟨1, 3, .rw, 0, .toVal 4 7 0⟩, ⟨4, 4, .rw, 0, .none⟩, ⟨8, 2, .rw, 0, .none⟩, ⟨11, 2, .rw, 0, .none⟩] }
  , { base := cmpBase + 0x204, n := 4, s := 0x4000, m := 8, t := 0x20, flds := [⟨8, 24, .rw, 0, .none⟩] }
  , { base := cmpBase + 0x208, n := 4, s := 0x4000, m := 8, t := 0x20, flds := [⟨0, 16, .rw, 0, .none⟩] }
  , { base := cmpBase + 0x20C, n := 4, s := 0x4000, m := 8, t := 0x20, flds := [⟨0, 24, .rw, 0, .lowZero 6⟩] }
  , { base := cmpBase + 0x210, n := 4, s := 0x4000, m := 8, t := 0x20, flds := [⟨0, 15, .rw, 0, .range 1 16384⟩,
        ⟨16, 15, .rw, 0, .range 1 16384⟩] }
  , { base := cmpBase + 0x214, n := 4, s := 0x4000, m := 8, t := 0x20, flds := [⟨0, 15, .rw, 0, .range 0 16383⟩,
        ⟨16, 15, .rw, 0, .range 0 16383⟩] }
  , { base := cmpBase + 0x218, n := 4, s := 0x4000, m := 8, t := 0x20, flds := [⟨0, 12, .rw, 4095, .none⟩] }
  , { base := cmpBase + 0x300, n := 4, s := 0x4000, flds := [⟨0, 3, .ro, 0, .none⟩, ⟨8, 8, .ro, 0, .none⟩,
        ⟨16, 4, .ro, 0, .none⟩] }
  , { base := cmpBase + 0x304, n := 4, s := 0x4000, m := 2, t := 4, flds := cnt32 } ]

/-- A coefficient word: taps 2t and 2t + 1 (R544). -/
def coefFlds : List Fld := [⟨0, 10, .rw, 0, .none⟩, ⟨16, 10, .rw, 0, .none⟩]

/-- Reset words of CMP_CSC[m] in order +0x0 to +0x10 (R523). -/
def cscReset (m i : Nat) : Nat :=
  let k := if m = 0 then [1192, 0, 1836, 1192, 8192 - 218, 8192 - 546, 1192, 2163, 0, 0]
           else [1192, 0, 1634, 1192, 8192 - 401, 8192 - 833, 1192, 2066, 0, 0]
  nth k (2 * i) + 2 ^ 16 * nth k (2 * i + 1)

/-- All tables. -/
def regTable : List RegDesc :=
  lcRegs ++ engRegs ++ secRegs ++ synRegs ++ mcRegs ++ cxRegs ++ feRegs ++ ptRegs ++ mbRegs ++ idRegs ++ capRegs
    ++ pwrRegs ++ cmpRegs

/-- Whether the register stands at offset `off`. -/
def RegDesc.holds (d : RegDesc) (off : Nat) : Bool :=
  Nat.ble d.base off &&
    (let x := off - d.base
     let i := if d.s = 0 then 0 else x / d.s
     let r := if d.s = 0 then x else x % d.s
     let j := if d.t = 0 then 0 else r / d.t
     let q := if d.t = 0 then r else r % d.t
     Nat.blt i d.n && Nat.blt j d.m && Nat.beq q 0)

/-- The place of `off` in the coefficient banks of a pipe, if it lies there: the axis (0 horizontal, 1
vertical) and the word index t of its phase (R544). -/
def coefPlace (off : Nat) : Option (Nat × Nat) :=
  if cmpBase ≤ off ∧ off < cmpBase + 0x10000 ∧ off % 4 = 0 ∧ 0x800 ≤ off % 0x4000 then
    let x := off % 0x4000 - 0x800
    let v := x / 0xE00
    let y := x % 0xE00 % 0x700
    if v ≤ 3 then
      if y < 0x400 then some (0, y % 16 / 4)
      else if y < 0x400 + 768 then some (1, (y - 0x400) % 12 / 4)
      else none
    else none
  else none

/-- The fields of the register at `off`; none where no register stands. -/
def fieldsAt (off : Nat) : List Fld :=
  match coefPlace off with
  | some _ => coefFlds
  | none =>
    match regTable.find? (·.holds off) with
    | some d => d.flds
    | none => []

/-- The word a register's fields reset to. -/
def fldsReset : List Fld → Nat
  | [] => 0
  | f :: r => f.reset * 2 ^ f.lo + fldsReset r

/-- Reset bits the tables of the spec give by index: ENG_ID_HI.ENGINE (wired), partition 0's PT registers
(R442, with the record's 768 granules of which the top 4 are the management range), the conversion matrices
(R523) and the coefficient banks (R525). -/
def resetExtra (off : Nat) : Nat :=
  if off < ptBase + 0x200 then
    (if off = 0x00 then 3 else if off = 0x04 then 0xFFFF else if off = 0x08 then 764 * 2 ^ 16
     else if off = 0x0C then 4 + 4 * 16 else 0)
  else if engBase ≤ off ∧ off < engBase + 0x4000 ∧ off % 0x100 = 4 then (off - engBase) / 0x100 * 2 ^ 16
  else if cmpBase ≤ off ∧ off < cmpBase + 0x10000 then
    (let x := off % 0x4000
     if 0x20 ≤ x ∧ x < 0x60 ∧ x % 0x20 ≤ 0x10 then cscReset ((x - 0x20) / 0x20) ((x - 0x20) % 0x20 / 4)
     else match coefPlace off with
       | some (0, t) => if t = 1 then 256 * 2 ^ 16 else 0
       | some (_, t) => if t = 1 then 256 else 0
       | none => 0)
  else 0

/-- The word a register holds after device reset (R13). -/
def resetWord (off : Nat) : Word := BitVec.ofNat 32 (fldsReset (fieldsAt off) + resetExtra off)

/-! ### Access to the register map -/

/-- The stored word of a register. -/
def rd (s : State) (off : Nat) : Nat := (tabGet resetWord off s.regs).toNat

/-- Stores a word. -/
def wr (s : State) (off v : Nat) : State :=
  { s with regs := tabPut resetWord off (BitVec.ofNat 32 v) s.regs }

/-- The field of `n` bits at `lo` of a register. -/
def fld (s : State) (off lo n : Nat) : Nat := bits (rd s off) lo n

/-- Sets the field of `n` bits at `lo` of a register. -/
def setFld (s : State) (off lo n v : Nat) : State := wr s off (setBits (rd s off) lo n v)

/-- Adds to a 32-bit counter that wraps (R85). -/
def bump (s : State) (off : Nat) (k : Nat := 1) : State := wr s off (rd s off + k)

/-- Adds to a field of `n` bits that saturates at its largest value. -/
def bumpSat (s : State) (off lo n : Nat) (k : Nat := 1) : State :=
  setFld s off lo n (min (2 ^ n - 1) (fld s off lo n + k))

/-- The word a write of `v` leaves in a register that held `old`, field by field (R14, R15, R17). -/
def writeFlds (old v : Nat) : List Fld → Nat
  | [] => 0
  | f :: r =>
    let o := bits old f.lo f.width
    let x := bits v f.lo f.width
    let y := match f.acc with
      | .rw => f.clamp.apply x
      | .w1c => o - Nat.land o x
      | .w1s => Nat.lor o x
      | .ro | .wo | .rc => o
    y * 2 ^ f.lo + writeFlds old v r

end Sys2Proof.Machine
end

