-- ==== Sys2Proof/Machine/Common.lean ====
section
/-!
DEFINITION. What every family uses: time, the error log, interrupt vectors and messages to the host.
-/
namespace Sys2Proof.Machine

/-- A command that only changes the state. -/
abbrev Out := Host.Outcome State Fault Refusal

/-! ### Time (R11, R49) -/

/-- Time units of one ACLK cycle: 6 from the PLL, 25 from the wake oscillator (R5, R559). -/
def aclkUnit (s : State) : Nat := if s.pll then 6 else 25

/-- The ACLK cycle in progress. -/
def aclk (s : State) : Nat := s.aclkBase + (s.now - s.aclkFrom) / aclkUnit s

/-- The 64-bit wake-oscillator count (R85). -/
def wake (s : State) : Nat := s.now / 25

/-- Moves time forward to `u`; time never moves back. -/
def atTime (s : State) (u : Nat) : State := { s with now := max s.now u }

/-- Moves time forward to wake-oscillator cycle `t`. -/
def atWake (s : State) (t : Nat) : State := atTime s (25 * t)

/-- Moves time forward to ACLK cycle `c`. -/
def atAclk (s : State) (c : Nat) : State := atTime s (s.aclkFrom + (c - s.aclkBase) * aclkUnit s)

/-- A free value, and the state that has drawn it. -/
def free (s : State) : Nat × State := (Config.freeNat s.fresh, { s with fresh := s.fresh + 1 })

/-! ### The line-clock value (R48) -/

/-- The phase at wake cycle `t` (R48): it rises over the line period and holds at 4,095. -/
def lcPhase (s : State) (t : Nat) : Nat :=
  min 4095 ((256 * t - s.lc.tickAt) * 4096 / max 1 s.lc.lperiod)

/-- Line and phase in the layout of LC_NOW_LO (R85). -/
def lcLp (s : State) (t : Nat) : Nat := lcPhase s t + 4096 * s.lc.line

/-- The line-clock value of the present cycle, as a record carries it (R57, R567). -/
def stamp (s : State) : Stamp := { lp := lcLp s (wake s), frame := s.lc.frame }

/-! ### Interrupt vectors (R444, R445) -/

/-- MSI-X vector `v` of function `p`. -/
def vec (s : State) (p v : Nat) : Msix := tabGet (fun _ => {}) (64 * p + v) s.msix

/-- Replaces vector `v` of function `p`. -/
def setVec (s : State) (p v : Nat) (x : Msix) : State :=
  { s with msix := tabPut (fun _ => {}) (64 * p + v) x s.msix }

/-- MSI-X control of function `p`. -/
def msixCtlOf (s : State) (p : Nat) : MsixCtl := tabGet (fun _ => {}) p s.msixCtl

/-- PT_STATUS of partition `p` (R452). -/
def ptStatusOff (p : Nat) : Nat := ptBase + 0x200 * p

/-- PT_STATUS.STAGE of partition `p`: the order of R447 reached. -/
def ptStage (s : State) (p : Nat) : Nat := fld s (ptStatusOff p) 4 3

/-- Whether a vector may send now: its function's MSI-X is enabled and neither mask is set (R445). -/
def vecOpen (s : State) (p v : Nat) : Bool :=
  (msixCtlOf s p).enable && !(msixCtlOf s p).fmask && !(vec s p v).masked

/-- Raises vector `v` of function `p`: an open vector waits for its message, a masked one sets its pending
bit (R445). From order 4 to order 7 of a reset of `p` nothing is raised (R447). -/
def raise (s : State) (p v : Nat) : State :=
  if 4 ≤ ptStage s p ∧ ptStage s p < 7 then s
  else if vecOpen s p v then setVec s p v { vec s p v with due := true }
  else setVec s p v { vec s p v with pend := true }

/-! ### Error log (R565 to R572) -/

/-- Severity of a code (R572). -/
def sevOf (code : Nat) : Nat :=
  if code ∈ [0x31, 0x47, 0x53, 0x60, 0x61, 0x84, 0xC0, 0xD4] then 0
  else if code ∈ [0x01, 0x12, 0x32, 0x33, 0x34, 0x35, 0x40, 0x50, 0x93, 0xC2, 0xD2, 0xD3] then 1
  else if code ∈ [0x03, 0x14, 0x15, 0x27, 0x41, 0x43, 0x45, 0x46, 0x52, 0xD0, 0xD1, 0xF0, 0xF1] then 3
  else 2

/-- PLANE of the unit that appends a record (R568). -/
def planeOf (kind : Nat) (eflan : Bool) : Nat :=
  if eflan ∨ kind = 15 then 2
  else if kind = 14 ∨ (7 ≤ kind ∧ kind ≤ 9) then 1
  else 0

/-- What a raising rule supplies of a record. -/
structure Rep where
  code : Nat
  tag : Nat := 15
  kind : Nat := 0
  unit : Nat := 0
  queue : Option Nat := none
  owner : Nat := 0
  eflan : Bool := false
  detail : List Nat := []
  deriving DecidableEq, Repr

/-- DETAIL filled to 8 words of 32 bits (R568). -/
def detail8 (l : List Nat) : List Nat := ((l ++ [0, 0, 0, 0, 0, 0, 0, 0]).take 8).map (· % 2 ^ 32)

/-- Low and high word of a value wider than 32 bits, in DETAIL order (R568). -/
def two (v : Nat) : List Nat := [v % 2 ^ 32, v / 2 ^ 32]

/-- The record a report becomes with sequence number `seq` and stamp `st` (R567). -/
def mkRec (s : State) (r : Rep) (seq : Nat) (st : Stamp) : LogRec :=
  { code := r.code, sev := sevOf r.code, plane := planeOf r.kind r.eflan, tag := r.tag, seq := seq, stamp := st,
    unitKind := r.kind, unit := r.unit, queue := r.queue, owner := r.owner,
    dieLo := rd s (idBase + 0x08), dieHi := bits (rd s (idBase + 0x0C)) 0 16, detail := detail8 r.detail }

/-- Takes the first record of severity 0 or 1 out of a list of records. -/
def dropMinor : List LogRec → Option (LogRec × List LogRec)
  | [] => none
  | r :: rs => if r.sev ≤ 1 then some (r, rs) else (dropMinor rs).map fun (x, l) => (x, r :: l)

/-- Counts a lost record with sequence number `seq` (R570). -/
def ErrLog.lose (l : ErrLog) (seq : Nat) : ErrLog :=
  { l with lost := l.lost + 1, lostSinceRead := l.lostSinceRead + 1,
           lostLow := if l.lost = 0 then seq else min l.lostLow seq }

/-- Stores a record: at the end of a log with room; in a full log a record of severity 2 or 3 displaces the
oldest of severity 0 or 1, and any other is dropped (R570). -/
def ErrLog.store (l : ErrLog) (r : LogRec) : ErrLog :=
  let l' := { l with seq := (l.seq + 1) % 2 ^ 32 }
  if l.recs.length < 2048 then { l' with recs := l.recs ++ [r] }
  else if 2 ≤ r.sev then
    match dropMinor l.recs with
    | some (x, rest) => ({ l' with recs := rest ++ [r] }).lose x.seq
    | none => l'.lose r.seq
  else l'.lose r.seq

/-- Appends a record with a given stamp, and raises vector 8 to the PF at or above ERRLOG_CONFIG.SEVERITY
(R444, R566). -/
def appendAt (s : State) (r : Rep) (st : Stamp) : State :=
  let s := { s with log := s.log.store (mkRec s r s.log.seq st) }
  if s.log.severity ≤ sevOf r.code then raise s 0 8 else s

/-- Appends a record stamped with the present line-clock value (R567). -/
def append (s : State) (r : Rep) : State := appendAt s r (stamp s)

/-- The 16 words of a stored record (R567). -/
def LogRec.words (r : LogRec) : List Nat :=
  [r.code + 2 ^ 8 * r.sev + 2 ^ 10 * r.plane + 2 ^ 12 * r.tag, r.seq, r.stamp.lp, r.stamp.frame,
   r.unitKind + 2 ^ 4 * r.unit + 2 ^ 12 * (r.queue.getD 0) + 2 ^ 24 * b2n r.queue.isSome, r.owner, r.dieLo,
   r.dieHi] ++ r.detail

end Sys2Proof.Machine
end

