-- ==== Sys2Proof/Machine/Operands.lean ====
section
/-!
DEFINITION. The operand formats of the engines and their arithmetic, exact and then rounded once: encodings
(R125 to R130), conversion (R131 to R136, R142 to R147), stochastic draws (R137 to R140), the vector unit's
arithmetic (R94) and the tensor unit's accumulation (R96, R151, R152).
-/
namespace Sys2Proof.Machine

/-- Integer formats (R130). -/
def isIntFmt : Fmt → Bool
  | .int4 | .int8 | .uint8 | .int32 => true
  | _ => false

/-- Width in bits of an element (R125, R130); F19 fills a 32-bit container (R129). -/
def fmtWidth : Fmt → Nat
  | .int4 => 4
  | .e4m3 | .e5m2 | .int8 | .uint8 => 8
  | .fp16 | .bf16 => 16
  | .f19 | .fp32 | .int32 => 32

/-- The fields of a floating-point format (R125): exponent bits, fraction bits p − 1, bias, and the largest
finite value as a count of quanta and the exponent of the quantum (R127). -/
structure FpPar where
  ebits : Nat
  fbits : Nat
  bias : Nat
  maxI : Nat
  maxQ : Int

/-- Parameters of a format (R125, R127). Integer formats use none of them. -/
def fpPar : Fmt → FpPar
  | .e4m3 => ⟨4, 3, 7, 14, 5⟩
  | .e5m2 => ⟨5, 2, 15, 7, 13⟩
  | .fp16 => ⟨5, 10, 15, 2047, 5⟩
  | .bf16 => ⟨8, 7, 127, 255, 120⟩
  | .f19 => ⟨8, 10, 127, 2047, 117⟩
  | _ => ⟨8, 23, 127, 2 ^ 24 - 1, 104⟩

/-- Exponent of the smallest normal value (R125). -/
def emin (f : Fmt) : Int := 1 - (fpPar f).bias

/-- A value: a NaN, an infinity, or `m` × 2^`q` with a sign (zeros keep theirs). -/
inductive Val
  | nan
  | inf (neg : Bool)
  | fin (neg : Bool) (m : Nat) (q : Int)
  deriving DecidableEq, Repr

/-- Lowest and highest value of an integer format (R130). -/
def intRange : Fmt → Int × Int
  | .int4 => (-8, 7)
  | .int8 => (-128, 127)
  | .uint8 => (0, 255)
  | _ => (-2147483648, 2147483647)

/-- The value of an integer. -/
def ofInt (x : Int) : Val := .fin (decide (x < 0)) x.natAbs 0

/-- The value a pattern stands for (R126, R129, R130). -/
def decodeVal (f : Fmt) (w : Nat) : Val :=
  match f with
  | .uint8 => .fin false (w % 256) 0
  | .int4 => ofInt (toSigned 4 w)
  | .int8 => ofInt (toSigned 8 w)
  | .int32 => ofInt (toSigned 32 w)
  | f =>
    let p := fpPar f
    let m := bits w 0 p.fbits
    let e := bits w p.fbits p.ebits
    let s := bit w (p.fbits + p.ebits)
    if f = .e4m3 ∧ e = 15 ∧ m = 7 then .nan
    else if f ≠ .e4m3 ∧ e = 2 ^ p.ebits - 1 then (if m = 0 then .inf s else .nan)
    else if e = 0 then (if f = .f19 then .fin s 0 0 else .fin s m (emin f - p.fbits))
    else .fin s (m + 2 ^ p.fbits) ((e : Int) - p.bias - p.fbits)

/-- The canonical NaN of a float format (R127, R128). -/
def canonNan (f : Fmt) : Nat :=
  let p := fpPar f
  if f = .e4m3 then 0x7F else (2 ^ p.ebits - 1) * 2 ^ p.fbits + 2 ^ (p.fbits - 1)

/-- The sign bit of a float format, set or not. -/
def signBit (f : Fmt) (neg : Bool) : Nat :=
  if neg then 2 ^ ((fpPar f).fbits + (fpPar f).ebits) else 0

/-- The infinity of a format; FP8 E4M3 has none and gives its NaN (R144, R145). -/
def infOf (f : Fmt) (neg : Bool) : Nat :=
  if f = .e4m3 then 0x7F else signBit f neg + (2 ^ (fpPar f).ebits - 1) * 2 ^ (fpPar f).fbits

/-- The pattern of `i` quanta of 2^`q` in a float format, when it is in range (R126): `i` is below 2^p, and
below 2^(p − 1) only at the subnormal quantum. -/
def encodeFp (f : Fmt) (neg : Bool) (i : Nat) (q : Int) : Nat :=
  let p := fpPar f
  if i < 2 ^ p.fbits then signBit f neg + i
  else signBit f neg + (q + p.fbits + p.bias).toNat * 2 ^ p.fbits + (i - 2 ^ p.fbits)

/-- The largest finite pattern (R127). -/
def maxFinite (f : Fmt) (neg : Bool) : Nat := encodeFp f neg (fpPar f).maxI (fpPar f).maxQ

/-- Rounds `m` × 2^`q` to quanta of 2^`k` (R134): the kept part, with `draw` a 16-bit draw. -/
def roundQuanta (m : Nat) (q k : Int) (r : Rnd) (draw : Nat) : Nat :=
  if k ≤ q then m * 2 ^ (q - k).toNat
  else
    let d := 2 ^ (k - q).toNat
    let i := m / d
    let f := m % d
    match r with
    | .towardZero => i
    | .nearestEven => if d < 2 * f ∨ (2 * f = d ∧ i % 2 = 1) then i + 1 else i
    | .stochastic => if 65536 ≤ f * 65536 / d + draw then i + 1 else i

/-- Rounds a finite non-zero value into a float format (R134, R135): quanta and exponent of the quantum, with a
carry into the next binade taken. -/
def roundFp (f : Fmt) (m : Nat) (q : Int) (r : Rnd) (draw : Nat) : Nat × Int :=
  let p := fpPar f
  let e := (Nat.log2 m : Int) + q
  let k := (if f = .f19 then e else max e (emin f)) - p.fbits
  let i := roundQuanta m q k r draw
  if i = 2 ^ (p.fbits + 1) then (2 ^ p.fbits, k + 1) else (i, k)

/-- Whether a rounded magnitude exceeds the largest finite value (R142). -/
def overMax (f : Fmt) (i : Nat) (k : Int) : Bool :=
  decide ((fpPar f).maxQ < k ∨ (k = (fpPar f).maxQ ∧ (fpPar f).maxI < i))

/-- A value rounded once into a format: the pattern, and whether the element overflowed (R134 to R136, R142
to R147). `ieee` is OVF_MODE. -/
def roundInto (f : Fmt) (y : Val) (r : Rnd) (ieee : Bool) (draw : Nat) : Nat × Bool :=
  let r := if f = .f19 ∧ r = .stochastic then .nearestEven else r
  if isIntFmt f then
    let (lo, hi) := intRange f
    match y with
    | .nan => (0, false)
    | .inf s => (ofSigned (fmtWidth f) (if s then lo else hi), true)
    | .fin s m q =>
      let i : Int := roundQuanta m q 0 r draw
      let x := if s then -i else i
      if x < lo then (ofSigned (fmtWidth f) lo, true)
      else if hi < x then (ofSigned (fmtWidth f) hi, true)
      else (ofSigned (fmtWidth f) x, false)
  else
    match y with
    | .nan => (canonNan f, false)
    | .inf s => (infOf f s, false)
    | .fin s 0 _ => (signBit f s, false)
    | .fin s m q =>
      let (i, k) := roundFp f m q r draw
      if overMax f i k then ((if ieee then infOf f s else maxFinite f s), true)
      else if f = .f19 ∧ k + (Nat.log2 i : Int) < -126 then (signBit f s, false)
      else (encodeFp f s i k, false)

/-- The exact product of two values (R132). -/
def mulVal : Val → Val → Val
  | .nan, _ => .nan
  | _, .nan => .nan
  | .inf s, .inf t => .inf (s ^^ t)
  | .inf s, .fin t m _ => if m = 0 then .nan else .inf (s ^^ t)
  | .fin s m _, .inf t => if m = 0 then .nan else .inf (s ^^ t)
  | .fin s m q, .fin t n k => .fin (s ^^ t) (m * n) (q + k)

/-- The signed count of quanta 2^`k` of a finite value with `k ≤ q`. -/
def quanta (s : Bool) (m : Nat) (q k : Int) : Int :=
  let x : Int := m * 2 ^ (q - k).toNat
  if s then -x else x

/-- The exact sum of two values. An exact zero is −0.0 only when both terms are (R151). -/
def addVal : Val → Val → Val
  | .nan, _ => .nan
  | _, .nan => .nan
  | .inf s, .inf t => if s = t then .inf s else .nan
  | .inf s, .fin _ _ _ => .inf s
  | .fin _ _ _, .inf t => .inf t
  | .fin s m q, .fin t n k =>
    let e := min q k
    let x := quanta s m q e + quanta t n k e
    if x = 0 then .fin (decide (m = 0 ∧ n = 0) && s && t) 0 0
    else .fin (decide (x < 0)) x.natAbs e

/-- The negated value. -/
def negVal : Val → Val
  | .nan => .nan
  | .inf s => .inf (!s)
  | .fin s m q => .fin (!s) m q

/-- x < y for values that are not NaN. -/
def ltVal (x y : Val) : Bool :=
  match addVal x (negVal y) with
  | .fin s m _ => s && m != 0
  | .inf s => s
  | .nan =>
    match x, y with
    | .inf s, .inf t => s && !t
    | _, _ => false

/-- x × SCALE, exact (R132); SCALE is an FP32 pattern. -/
def scaled (x : Val) (scale : Nat) : Val := mulVal x (decodeVal .fp32 scale)

/-- The pattern, as FP32 with sign 0, that folds into an AMAX register (R118, R153); none for a NaN. A
magnitude that FP32 cannot hold exactly (an INT32) is rounded toward +infinity. -/
def amaxOf : Val → Option Nat
  | .nan => none
  | .inf _ => some 0x7F800000
  | .fin _ 0 _ => some 0
  | .fin _ m q =>
    let (i, k) := roundFp .fp32 m q .towardZero 0
    let exact := roundQuanta m q k .towardZero 0 * 2 ^ (k - q).toNat = m ∨ k ≤ q
    let i := if exact then i else i + 1
    some (if i = 2 ^ 24 then encodeFp .fp32 false (2 ^ 23) (k + 1) else encodeFp .fp32 false i k)

/-! ### Stochastic draws (R138 to R140) -/

/-- R138. -/
def mix64 (z : BitVec 64) : BitVec 64 :=
  let z := (z ^^^ (z >>> 30)) * 0xBF58476D1CE4E5B9#64
  let z := (z ^^^ (z >>> 27)) * 0x94D049BB133111EB#64
  z ^^^ (z >>> 31)

/-- The state a generator is set to at a reseed (R139). -/
def seedGen (seed : BitVec 64) (step lane : Nat) : BitVec 64 :=
  mix64 (mix64 (seed ^^^ (BitVec.ofNat 64 step <<< 32)) + BitVec.ofNat 64 lane)

/-- A generator advanced once (R138). -/
def genNext (st : BitVec 64) : BitVec 64 := st + 0x9E3779B97F4A7C15#64

/-- The 16-bit draw of an advanced generator (R138). -/
def genDraw (st : BitVec 64) : Nat := (mix64 st >>> 48).toNat

/-- A generator advanced `n` times. -/
def genSkip (st : BitVec 64) (n : Nat) : BitVec 64 := st + BitVec.ofNat 64 n * 0x9E3779B97F4A7C15#64

/-! ### The vector unit's arithmetic (R94): nearest-even, subnormals kept, canonical NaNs -/

/-- A value rounded to nearest-even with IEEE overflow. -/
def fpRound (f : Fmt) (y : Val) : Nat := (roundInto f y .nearestEven true 0).1

/-- Sum of two patterns. -/
def fpAdd (f : Fmt) (a b : Nat) : Nat := fpRound f (addVal (decodeVal f a) (decodeVal f b))

/-- Product of two patterns. -/
def fpMul (f : Fmt) (a b : Nat) : Nat := fpRound f (mulVal (decodeVal f a) (decodeVal f b))

/-- a × b + c, rounded once (R94). -/
def fpFma (f : Fmt) (a b c : Nat) : Nat :=
  fpRound f (addVal (mulVal (decodeVal f a) (decodeVal f b)) (decodeVal f c))

/-! ### The tensor unit's accumulation (R96, R151, R152) -/

/-- The exact sum of a group's products. A zero sum is −0.0 only when every product is (R151). -/
def groupSum : List Val → Val
  | [] => .fin false 0 0
  | [x] => x
  | x :: y :: r => addVal x (groupSum (y :: r))

/-- The FP32 accumulator after one group, and whether the update made a finite sum overflow (R96, R151). -/
def accFp (acc : Nat) (g : Val) : Nat × Bool :=
  let y := addVal (decodeVal .fp32 acc) g
  (fpRound .fp32 y, (roundInto .fp32 y .nearestEven true 0).2)

/-- The INT32 accumulator after one group, saturating, and whether it saturated (R96). -/
def accInt (acc : Nat) (g : Int) : Nat × Bool :=
  let x := toSigned 32 acc + g
  if x < -2147483648 then (ofSigned 32 (-2147483648), true)
  else if 2147483647 < x then (ofSigned 32 2147483647, true)
  else (ofSigned 32 x, false)

/-- The exact integer value of a pattern of an integer format. -/
def intVal (f : Fmt) (w : Nat) : Int :=
  match decodeVal f w with
  | .fin s m _ => if s then -(m : Int) else m
  | _ => 0

/-- Columns of the array for a pair of operand types: the wider type sets W (R95). -/
def arrayWidth (a b : Fmt) : Nat :=
  let w := max (fmtWidth a) (fmtWidth b)
  if w ≤ 4 then 128 else if w ≤ 8 then 64 else if w ≤ 16 then 32 else 16

end Sys2Proof.Machine
end

