-- ==== Sys2Proof/Machine/CapBase.lean ====
section
/-!
DEFINITION. Capture channels: their registers in use, faults, and what a boundary of the line clock does to them
(R512, R516, R517).
-/
namespace Sys2Proof.Machine

/-- A register of CAP[u] (R518). -/
def capOff (u r : Nat) : Nat := capBase + 0x800 * u + r

/-- A register of CAP_VC[u][v] (R518). -/
def vcOff (u v r : Nat) : Nat := capOff u (0x100 + 0x80 * v + r)

/-- Channel `v` of unit `u`. -/
def capVc (s : State) (u v : Nat) : CapVc := tabGet (fun _ => {}) (4 * u + v) s.caps

/-- Replaces channel `v` of unit `u`. -/
def setCapVc (s : State) (u v : Nat) (x : CapVc) : State :=
  { s with caps := tabPut (fun _ => {}) (4 * u + v) x s.caps }

/-- The partition tag that Eflan has given unit `u`: the partition whose PT_TAGS lists it, M for none (R309, R443). -/
def capTag (s : State) (u : Nat) : Nat :=
  ((List.range 9).find? fun p => bit (fld s (ptBase + 0x200 * p + 0x14) 8 8) u).getD 15

/-- Whether a channel is joined to a batch slot: CAP_VCFG.MODEL (R510). -/
def capJoined (s : State) (u v : Nat) : Bool :=
  ((s.model.map (·.batch)).getD []).any fun b => b.cap == u && b.vc == v

/-- Offsets in CAP_VC of the registers that take effect at a boundary or a Frame Start (R517). -/
def capCfgRegs : List Nat := [0x04, 0x08, 0x0C, 0x10, 0x14, 0x18, 0x1C]

/-- The words of those registers as they stand. -/
def capCfgNow (s : State) (u v : Nat) : List Nat := capCfgRegs.map fun r => rd s (vcOff u v r)

/-- Their words in use. -/
def capCfg (s : State) (u v : Nat) : List Nat := ((capVc s u v).act).getD (capCfgNow s u v)

/-- CAP_GEOM.WIDTH in use. -/
def capWidth (s : State) (u v : Nat) : Nat := bits (nth (capCfg s u v) 0) 0 15

/-- CAP_GEOM.HEIGHT in use. -/
def capHeight (s : State) (u v : Nat) : Nat := bits (nth (capCfg s u v) 0) 16 16

/-- CAP_PITCH in use. -/
def capPitch (s : State) (u v : Nat) : Nat := bits (nth (capCfg s u v) 1) 0 24

/-- The bit of FLAGS that a fault sets (R515). -/
def capFlag (code : Nat) : Nat :=
  match code with
  | 0xE3 => 1 | 0xE4 => 2 | 0xE1 => 4 | 0xE2 => 8 | 0xE0 => 16 | _ => 0

/-- Sets bits of FLAGS in the frame in progress. -/
def capSetFlags (s : State) (u v m : Nat) : State :=
  let x := capVc s u v
  setCapVc s u v { x with frame := x.frame.map fun f => { f with flags := Nat.lor f.flags m } }

/-- A fault of R516: counted, marked in the frame, and kept for the record of this line-clock frame. -/
def capFault (s : State) (u v code : Nat) : State :=
  let s := capSetFlags (bump s (vcOff u v 0x40)) u v (capFlag code)
  let st := stamp s
  let fs := ((capVc s u v).frame.map (·.fs)).getD st
  if s.capFaults.any fun x => x.code == code && x.cap == u && x.vc == v then
    { s with capFaults := s.capFaults.map fun x =>
        if x.code = code ∧ x.cap = u ∧ x.vc = v then { x with count := x.count + 1 } else x }
  else
    { s with capFaults := s.capFaults ++ [{ code := code, cap := u, vc := v, count := 1, stamp := st, fs := fs }] }

/-- The end of a camera frame: missing lines are a fault, and CAP_LAST and CAP_FRAME_CNT report the frame (R516,
R518). -/
def capClose (s : State) (u v : Nat) : State :=
  match (capVc s u v).frame with
  | none => s
  | some f =>
    let s := if f.lines < capHeight s u v then capFault s u v 0xE3 else s
    let flags := ((capVc s u v).frame.map (·.flags)).getD 0
    let off := vcOff u v 0x34
    let s := setFld s off 0 16 f.lines
    let s := setFld s off 16 6 (Nat.lor (fld s off 16 6) flags)
    let s := bump s (vcOff u v 0x38)
    let x := capVc s u v
    setCapVc s u v { x with frame := x.frame.map fun f => { f with closed := true } }

/-- The records of the faults of the line-clock frame that ends (R516, R444). -/
def capRecords (s : State) : List CapFault → State
  | [] => s
  | x :: r =>
    let s := appendAt s { code := x.code, tag := capTag s x.cap, kind := 11, unit := x.cap + 16 * x.vc,
                          detail := [x.cap, x.vc, x.fs.lp, x.fs.frame, x.count] } x.stamp
    capRecords (raise s 0 10) r

/-- What a boundary does to a list of channels: a frame that goes into a model ends, and adds not yet made and changes of
configuration of a joined channel are settled (R512, R517). -/
def capEdges (s : State) : List Nat → State
  | [] => s
  | k :: r =>
    let u := k / 4
    let v := k % 4
    let s := match (capVc s u v).frame with
      | some f => if f.model ∧ !f.closed then capClose s u v else s
      | none => s
    let x := capVc s u v
    capEdges (setCapVc s u v { x with due := 0, act := if capJoined s u v then none else x.act }) r

/-- A boundary of the line clock, for capture (R512, R516, R517). -/
def capBoundary (s : State) : State :=
  let s := capEdges s (s.caps.map (·.1))
  { capRecords s s.capFaults with capFaults := [] }

/-- A camera frame that starts now (R512, R515): into the model, or into the next buffer of HBM3E. -/
def capNewFrame (s : State) (u v : Nat) : State :=
  let x := { capVc s u v with act := if capJoined s u v then (capVc s u v).act else none }
  let reg (r : Nat) : Nat := rd s (vcOff u v r)
  if capJoined s u v then setCapVc s u v { x with frame := some { fs := stamp s, model := true } }
  else if fld s (vcOff u v 0) 0 1 = 0 then setCapVc s u v { x with frame := none }
  else
    let f : CapFrame :=
      { fs := stamp s, model := false, buf := x.k % max 1 (bits (reg 0x24) 16 8), seq := (x.k + 1) % 2 ^ 32,
        base := reg 0x20 / 256 * 256 + hi32 (bits (reg 0x24) 0 16), stride := reg 0x28 / 256 * 256,
        recAt := reg 0x2C / 32 * 32 + hi32 (bits (reg 0x30) 0 16) }
    setCapVc s u v { x with frame := some f, k := x.k + 1 }

/-- A channel's binding to the batch has changed at a boundary (R185, R512): a frame without lines that started in the
new line-clock frame follows the new binding; another is dropped. -/
def capRebind (s : State) (u v : Nat) : State :=
  let x := capVc s u v
  match x.frame with
  | none => setCapVc s u v { x with act := if capJoined s u v then none else x.act }
  | some f =>
    if f.fs.frame = s.lc.frame ∧ f.lines = 0 ∧ !f.closed then
      let k := if f.model then x.k else x.k - 1
      let s := capNewFrame (setCapVc s u v { x with k := k, act := none }) u v
      let y := capVc s u v
      setCapVc s u v { y with frame := y.frame.map fun g => { g with fs := f.fs } }
    else if f.model then s
    else setCapVc s u v { x with frame := none, act := none }

/-- The channels of a list of unit and channel numbers follow their new binding. -/
def capRebinds (s : State) : List (Nat × Nat) → State
  | [] => s
  | (u, v) :: r => capRebinds (capRebind s u v) r

/-- A unit stops until Eflan configures it again; its frames are dropped (R447 order 2, R517). -/
def capHalt (s : State) (u : Nat) : State :=
  let s := { s with capStop := u :: s.capStop.filter (· != u) }
  { s with caps := s.caps.map fun (k, x) => if k / 4 = u then (k, { x with frame := none, due := 0 }) else (k, x) }

end Sys2Proof.Machine
end

