-- ==== Sys2Proof/Machine/LineClock.lean ====
section
/-!
DEFINITION. The line clock (R48 to R72, R85, R602): sources, judging of edges, freewheeling, line ticks and the
frame-sync output. The unit works in wake-oscillator cycles; its LOST, REGAINED and WRAP bits and its
counters are plain registers.
-/
namespace Sys2Proof.Machine

/-- Wake-oscillator cycles of `us` microseconds (R5: 480 MHz). -/
def wakeOfUs (us : Nat) : Nat := us * 480

/-- The kind of the source in force: 0 frame-sync, 1 display, 2 camera, 3 internal (R52). -/
def lcKind (s : State) : Nat := bits s.lc.src 0 2

/-- LC_SRC.UNIT in force. -/
def lcUnit (s : State) : Nat := bits s.lc.src 2 3

/-- LC_SRC.VC in force. -/
def lcVc (s : State) : Nat := bits s.lc.src 5 2

/-- LC_FMIN in wake-oscillator cycles. -/
def lcFmin (s : State) : Nat := wakeOfUs (fld s (lcBase + 0x0C) 0 20)

/-- LC_FMAX in wake-oscillator cycles. -/
def lcFmax (s : State) : Nat := wakeOfUs (fld s (lcBase + 0x10) 0 20)

/-- LC_LINES. -/
def lcLines (s : State) : Nat := fld s (lcBase + 0x14) 0 16

/-- LC_FNOM in wake-oscillator cycles. -/
def lcFnom (s : State) : Nat := wakeOfUs (fld s (lcBase + 0x18) 0 20)

/-- Offset of LC_STATUS. -/
def lcStatusOff : Nat := lcBase + 0x20

/-- Offset of LC_FAST_CNT. -/
def lcFastOff : Nat := lcBase + 0x2C

/-- Offset of LC_GLITCH_CNT. -/
def lcGlitchOff : Nat := lcBase + 0x30

/-- The active copy of a shadowed pipe register (R530). -/
def pipeAct (s : State) (off : Nat) : Nat := (tabGet resetWord off s.pipeActive).toNat

/-- Horizontal total of the pipe that is the source. -/
def srcHtot (s : State) : Nat := bits (pipeAct s (cmpBase + 0x4000 * (lcUnit s % 4) + 0x08)) 16 15

/-- Vertical total of the pipe that is the source. -/
def srcVtot (s : State) : Nat := bits (pipeAct s (cmpBase + 0x4000 * (lcUnit s % 4) + 0x10)) 16 15

/-- Pixel clock in kHz of the pipe that is the source. -/
def srcKhz (s : State) : Nat := bits (pipeAct s (cmpBase + 0x4000 * (lcUnit s % 4) + 0x18)) 0 22

/-- ACLK in kHz (R5). -/
def aclkKhz (s : State) : Nat := if s.pll then 2000000 else 480000

/-- The mean of the accepted periods held (R64). -/
def meanPeriod (ps : List Nat) : Nat := ps.sum / max 1 ps.length

/-- Takes an accepted frame period: LC_FPERIOD is the mean of the last 4 (R64). -/
def acceptPeriod (l : LineClock) (p : Nat) : LineClock :=
  let ps := (p :: l.periods).take 4
  { l with periods := ps, fperiod := meanPeriod ps }

/-- LC_LPERIOD of the frame that an edge begins, in 1/256 wake cycles (R52, R53, R64). `first`: the unit has
just locked. -/
def nextLperiod (s : State) (first : Bool) : Nat :=
  if s.lc.mode ≠ .locked then s.lc.lperiod
  else if lcKind s = 3 then lcFnom s * 256 / max 1 (lcLines s)
  else if lcKind s = 1 then srcHtot s * 480000 * 256 / max 1 (srcKhz s)
  else if lcKind s = 2 ∧ first = false then
    (if s.lc.hdrCount < 2 then s.lc.lperiod
     else (s.lc.hdrLast - s.lc.hdrFirst) * 256 / (s.lc.hdrCount - 1))
  else s.lc.fperiod * 256 / max 1 (lcLines s)

/-- The expected last line E of the frame that an edge begins (R602). -/
def nextLastLine (s : State) (lper : Nat) (first : Bool) : Nat :=
  if lcKind s = 1 then srcVtot s - 1
  else if lcKind s = 2 ∧ first = false then
    min 65535 (ceilDiv (s.lc.fperiod * 256) (max 1 lper) - 1)
  else lcLines s - 1

/-- The line period C in 1/256 ACLK cycles (R70); exact from the pipe's timing for a display source. -/
def nextCLine (s : State) (lper : Nat) : Nat :=
  if lcKind s = 1 ∧ s.lc.mode = .locked then srcHtot s * aclkKhz s * 256 / max 1 (srcKhz s)
  else lper * aclkKhz s / 480000

/-- The records of a frame's ignored edges and glitches, appended at the boundary that ends it (R81). -/
def lcFrameRecords (s : State) : State :=
  let s := if s.lc.fastInFrame = 0 then s else
    appendAt s { code := 0x32, kind := 12, detail := [s.lc.frame, s.lc.fastInFrame] } s.lc.fastStamp
  if s.lc.glitchInFrame = 0 then s else
    appendAt s { code := 0x33, kind := 12, detail := [s.lc.frame, s.lc.glitchInFrame] } s.lc.glitchStamp

/-- A frame edge stamped at wake cycle `t` (R48, R50, R69, R70, R602): the frame number rises by 1 or wraps,
the line and phase are 0, E and C are fixed, and the frame-sync output starts its pulse. -/
def lcFrameEdge (s : State) (t : Nat) (first : Bool) : State :=
  let s := capBoundary (lcFrameRecords s)
  let lper := nextLperiod s first
  let wrapped := s.lc.frame + 1 = 2 ^ 32
  let fso := fld s (lcBase + 0x1C) 0 1 = 1
  let lc := { s.lc with
    frame := (s.lc.frame + 1) % 2 ^ 32, line := 0, edgeAt := t, tickAt := 256 * t,
    lperiod := lper, lastLine := nextLastLine s lper first, cLine := nextCLine s lper,
    hdrCount := 0, hdrFirst := 0, hdrLast := 0,
    prevNotLocked := s.lc.notLocked, prevCut := false, notLocked := decide (s.lc.mode ≠ .locked),
    fastInFrame := 0, glitchInFrame := 0,
    fsoActive := fso, fsoLeft := if fso then fld s (lcBase + 0x1C) 2 8 else 0,
    nextEdgeAt := t + (if s.lc.mode = .locked ∧ lcKind s = 3 then lcFnom s else s.lc.fperiod) }
  let s := { s with lc := lc }
  if wrapped then setFld s lcStatusOff 10 1 1 else s

/-- The loss of the timebase at wake cycle `t`, in the order of R63. -/
def lcLose (s : State) (t : Nat) : State :=
  let s := atWake s t
  let s := { s with lc := { s.lc with mode := .freewheel, acqCount := 0, notLocked := true } }
  let s := setFld s lcStatusOff 8 1 1
  let s := lcFrameEdge s t false
  let s := append s { code := 0x30, kind := 12 }
  raise s 0 6

/-- Whether the time since the last accepted edge reaches LC_FMAX by wake cycle `t` while LOCKED to an outside
source (R63). -/
def lcLossDue (s : State) (t : Nat) : Bool :=
  s.lc.powered && decide (s.lc.mode = .locked) && lcKind s != 3 &&
    (match s.lc.refAt with
     | some r => Nat.ble (r + lcFmax s) t
     | none => false)

/-- An accepted frame edge while LOCKED (R63, R64). -/
def lcAccept (s : State) (t : Nat) : State :=
  let lc := if s.lc.edgeAccepted then acceptPeriod s.lc (t - s.lc.edgeAt) else s.lc
  lcFrameEdge { s with lc := { lc with refAt := some t, edgeAccepted := true } } t false

/-- The third consecutive in-range edge: LOCKED again, with a new frame at the edge (R65). -/
def lcRegain (s : State) (t : Nat) : State :=
  let s := { s with lc := { s.lc with mode := .locked, acqCount := 0, refAt := some t, periods := [],
                                      edgeAccepted := true } }
  let s := lcFrameEdge s t true
  let s := { s with lc := { s.lc with prevCut := true } }
  let s := setFld s lcStatusOff 9 1 1
  let s := append s { code := 0x31, kind := 12 }
  raise s 0 6

/-- An edge nearer than LC_FMIN to its reference: ignored and counted (R62, R81). -/
def lcTooSoon (s : State) (t : Nat) : State :=
  let s := bump s lcFastOff
  { s with lc := { s.lc with
      fastInFrame := s.lc.fastInFrame + 1,
      fastStamp := if s.lc.fastInFrame = 0 then { lp := lcLp s t, frame := s.lc.frame } else s.lc.fastStamp } }

/-- Judges an edge of the selected source stamped at wake cycle `t` (R61 to R65). -/
def lcJudge (s : State) (t : Nat) : State :=
  let s := match s.lc.refAt with
    | some r => if lcLossDue s t then lcLose s (r + lcFmax s) else s
    | none => s
  let s := atWake s t
  match s.lc.refAt with
  | none => { s with lc := { s.lc with refAt := some t, acqCount := 0 } }
  | some r =>
    let p := t - r
    if p < lcFmin s then lcTooSoon s t
    else if s.lc.mode = .locked then lcAccept s t
    else if lcFmax s ≤ p then { s with lc := { s.lc with refAt := some t, acqCount := 0 } }
    else if s.lc.acqCount + 1 < 3 then
      { s with lc := { s.lc with refAt := some t, acqCount := s.lc.acqCount + 1 } }
    else lcRegain s t

/-- One line tick at time `t256` (in 256ths of a wake cycle): the next line, phase 0, and one tick of the
frame-sync pulse (R48, R69). -/
def lcTick (s : State) (t256 : Nat) : State :=
  let s := atWake s (ceilDiv t256 256)
  { s with lc := { s.lc with line := min 65535 (s.lc.line + 1), tickAt := t256, fsoLeft := s.lc.fsoLeft - 1 } }

/-- Two LC_SRC words name the same source: kind, and the unit and channel that the kind uses (R52, R55). -/
def sameSource (a b : Nat) : Bool :=
  bits a 0 2 == bits b 0 2 &&
    (bits a 0 2 == 0 || bits a 0 2 == 3 ||
      (bits a 2 3 == bits b 2 3 && (bits a 0 2 == 1 || bits a 5 2 == bits b 5 2)))

/-- The change to the source that LC_SRC holds (R55). -/
def lcChange (s : State) : State :=
  let w := rd s (lcBase + 0x08)
  let same := sameSource s.lc.src w
  let lc := { s.lc with src := w, srcDue := false }
  if same then { s with lc := lc }
  else if bits w 0 2 = 3 then
    { s with lc := { lc with mode := .locked, acqCount := 0, periods := [], edgeAccepted := false,
                             nextEdgeAt := lc.edgeAt + lc.fperiod } }
  else
    { s with lc := { lc with mode := .acquiring, acqCount := 0, refAt := none, notLocked := true,
                             nextEdgeAt := lc.edgeAt + lc.fperiod } }

/-! ### Meanings -/

/-- R51. -/
def execLcNowLoRead (t : Nat) (s : State) : Out :=
  let s := atWake s t
  .next (wr { s with rdata := [lcLp s (wake s)], rstat := 0 } (lcBase + 0x04) s.lc.frame)

/-- R85. -/
def execLcEdgeLoRead (s : State) : Out :=
  .next (wr { s with rdata := [s.lc.edgeAt % 2 ^ 32], rstat := 0 } (lcBase + 0x38) (s.lc.edgeAt / 2 ^ 32))

/-- R55: a written LC_SRC takes effect in the next wake-oscillator cycle. -/
def execLcSourceChange (s : State) : Out :=
  .next (if s.lc.powered && s.lc.srcDue then lcChange (atWake s (wake s + 1)) else s)

/-- R57, R60: judged only while the frame-sync input is selected. -/
def execFrameSyncPulse (t len : Nat) (s : State) : Out :=
  .next <|
    if s.lc.powered && lcKind s == 0 then
      if len < 8 then
        let s := atWake s t
        let s := bump s lcGlitchOff
        { s with lc := { s.lc with
            glitchInFrame := s.lc.glitchInFrame + 1,
            glitchStamp := if s.lc.glitchInFrame = 0 then { lp := lcLp s t, frame := s.lc.frame }
                           else s.lc.glitchStamp } }
      else lcJudge s t
    else s

/-- R69: the pulse has lasted its line ticks. -/
def execFsoPulseEnd (s : State) : Out :=
  .next (if s.lc.fsoActive && s.lc.fsoLeft == 0 then { s with lc := { s.lc with fsoActive := false } } else s)

/-- R52, R55: the internal source's frame edge. -/
def execInternalFrameEdge (s : State) : Out :=
  .next <|
    if s.lc.powered && lcKind s == 3 && decide (s.lc.mode = .locked) then
      lcAccept (atWake s s.lc.nextEdgeAt) s.lc.nextEdgeAt
    else s

/-- R63. -/
def execTimebaseLost (s : State) : Out :=
  .next <|
    match s.lc.refAt with
    | some r => if lcLossDue s (r + lcFmax s) then lcLose s (r + lcFmax s) else s
    | none => s

/-- R64: freewheel edges come every frozen LC_FPERIOD, in FREEWHEEL and in ACQUIRING (R55). -/
def execFreewheelFrameEdge (s : State) : Out :=
  .next <|
    if s.lc.powered && decide (s.lc.mode ≠ .locked) then
      lcFrameEdge (atWake s s.lc.nextEdgeAt) s.lc.nextEdgeAt false
    else s

/-- R53: ticks are synthesised but for a display source while LOCKED, whose ticks its lines give (R52). -/
def execLineTick (s : State) : Out :=
  .next <|
    if s.lc.powered && !(lcKind s == 1 && decide (s.lc.mode = .locked)) then
      lcTick s (s.lc.tickAt + s.lc.lperiod)
    else s

end Sys2Proof.Machine
end

