-- ==== Sys2Proof/Machine/Fabric.lean ====
section
/-!
DEFINITION. The device address map, partition range checks and the arbiters (R302 to R325): what an access of a
given tag may reach, how a device address becomes memory or a host address, and one arbitration round.
-/
namespace Sys2Proof.Machine

/-! ### Partitions and their ranges (R309, R440 to R443) -/

/-- A register of PT[p] (R452). -/
def ptOff (p r : Nat) : Nat := ptBase + 0x200 * p + r

/-- Bytes of a granule (R441). -/
def granule : Nat := 2 ^ 26

/-- Tag of the management plane (R309). -/
def tagM : Nat := 15

/-- External memory in bytes, by the variant that MC_STATUS.CAP reports (R302). -/
def capacity (s : State) : Nat := (if fld s mcBase 4 1 = 1 then 1152 else 768) * granule

/-- First device address of the management range (R443). -/
def mgmtLo (s : State) : Nat := fld s (ptBase + 0x2004) 0 11 * granule

/-- One past the last device address of the management range. -/
def mgmtHi (s : State) : Nat := mgmtLo s + fld s (ptBase + 0x2004) 16 5 * granule

/-- The Foxglove memory: the top 4 MiB of the management range (R532). -/
def foxLo (s : State) : Nat := mgmtHi s - 2 ^ 22

/-- First address of partition p's HBM3E range. -/
def hbmLo (s : State) (p : Nat) : Nat := fld s (ptOff p 0x08) 0 11 * granule

/-- One past the last address of partition p's HBM3E range. -/
def hbmHi (s : State) (p : Nat) : Nat := hbmLo s p + fld s (ptOff p 0x08) 16 11 * granule

/-- Whether quad `q` belongs to partition `p`. -/
def ownsQuad (s : State) (p q : Nat) : Bool := bit (fld s (ptOff p 0x04) 0 16) q

/-- The partition of quad `q`; `tagM` when it belongs to none. -/
def quadPart (s : State) (q : Nat) : Nat := ((List.range 9).find? fun p => ownsQuad s p q).getD tagM

/-- The partition of engine `e` (R309). -/
def engPart (s : State) (e : Nat) : Nat := quadPart s (e / 4)

/-- The quads of partition `p`, ascending: its logical quads (R32). -/
def quadsOf (s : State) (p : Nat) : List Nat := (List.range 16).filter fun q => ownsQuad s p q

/-- Whether partition `p` exists (PT_STATUS.CREATED). -/
def partExists (s : State) (p : Nat) : Bool := fld s (ptStatusOff p) 0 1 == 1

/-- Whether aperture range `i` of partition `p` holds device address `a`, and the host address it gives (R440). -/
def apertureAt (s : State) (p i a : Nat) : Option Nat :=
  let o := ptOff p (0x40 + 0x20 * i)
  let dev := fld s o 12 20 * 2 ^ 12 + hi32 (fld s (o + 4) 0 16)
  let pages := fld s (o + 8) 0 25
  if fld s o 0 1 = 1 ∧ dev ≤ a ∧ a < dev + 4096 * pages then
    some (fld s (o + 0xC) 12 20 * 2 ^ 12 + hi32 (rd s (o + 0x10)) + (a - dev))
  else none

/-- The host address of a device address in the host aperture: the lowest-numbered range of the tag's partition
decides; tag M goes through partition 0 (R440). -/
def hostAddr (s : State) (tag a : Nat) : Option Nat :=
  let p := if tag = tagM then 0 else tag
  ((List.range 8).filterMap fun i => apertureAt s p i a).head?

/-- Whether a device address lies in the host aperture (R302). -/
def isHost (a : Nat) : Bool := Nat.ble (2 ^ 47) a

/-- Whether `n` bytes at `a` lie wholly inside a range of the tag (R303, R310). A request tagged M reaches all of
external memory. -/
def inRange (s : State) (tag a n : Nat) : Bool :=
  if isHost a then
    (match hostAddr s tag a, hostAddr s tag (a + n - 1) with
     | some x, some y => y == x + (n - 1)
     | _, _ => false)
  else if tag = tagM then Nat.ble (a + n) (capacity s)
  else Nat.ble (hbmLo s tag) a && Nat.ble (a + n) (hbmHi s tag)

/-- Whether a write may be performed: in range, and the Foxglove memory is written with tag M alone (R310). -/
def writable (s : State) (tag a n : Nat) : Bool :=
  inRange s tag a n && (isHost a || tag == tagM || Nat.ble (mgmtHi s) a || Nat.ble (a + n) (foxLo s))

/-- The bursts of an access: pieces that each lie within one aligned 256-byte block (R306). -/
def burstsOf (a n : Nat) : List (Nat × Nat) :=
  if n = 0 then []
  else
    (List.range ((a + n - 1) / 256 - a / 256 + 1)).map fun i =>
      let b := (a / 256 + i) * 256
      (max a b, min (a + n) (b + 256) - max a b)

/-- The controller of a device address and the address within it (R305). -/
def stripeOf (a : Nat) : Nat × Nat :=
  let st := a / 256
  (Nat.xor (Nat.xor (st % 16) (st / 16 % 16)) (Nat.xor (st / 256 % 16) (st / 4096 % 16)), a / 4096 * 256 + a % 256)

/-- One byte at a device address, as the tag's partition sees it. -/
def devByte (s : State) (tag a : Nat) : Byte :=
  if isHost a then
    (match hostAddr s tag a with
     | some h => s.host.read h
     | none => 0#8)
  else s.hbm.read a

/-- `n` bytes at a device address. -/
def devBytes (s : State) (tag a : Nat) : Nat → List Byte
  | 0 => []
  | n + 1 => devByte s tag a :: devBytes s tag (a + 1) n

/-- An `n`-byte little-endian number at a device address. -/
def devNat (s : State) (tag a n : Nat) : Nat := leNat (devBytes s tag a n)

/-- The first burst of a read that lies outside the tag's ranges (R310). -/
def readFault (s : State) (tag a n : Nat) : Option Nat :=
  ((burstsOf a n).find? fun b => !inRange s tag b.1 b.2).map (·.1)

/-- The first burst of a write that may not be performed. -/
def writeFault (s : State) (tag a n : Nat) : Option Nat :=
  ((burstsOf a n).find? fun b => !writable s tag b.1 b.2).map (·.1)

/-- Performs one write burst that has passed its check: into external memory, or as a posted write to the host
with the requester ID of the tag's function (R432, R440). -/
def putBurst (s : State) (tag a : Nat) (data : List Byte) : State :=
  if isHost a then
    (match hostAddr s tag a with
     | some h => { s with host := s.host.writeBytes h data,
                          sent := .write (if tag = tagM then 0 else tag) h data :: s.sent }
     | none => s)
  else { s with hbm := s.hbm.writeBytes a data }

/-- Performs every burst of a write that passes its check (R310: a failing burst is not performed, not even in
part). -/
def putBursts (s : State) (tag base : Nat) (data : List Byte) : List (Nat × Nat) → State
  | [] => s
  | (a, n) :: r =>
    putBursts (if writable s tag a n then putBurst s tag a ((data.drop (a - base)).take n) else s) tag base data r

/-- Writes bytes at a device address, dropping the bursts that fail their check. -/
def devWrite (s : State) (tag a : Nat) (data : List Byte) : State :=
  putBursts s tag a data (burstsOf a data.length)

/-! ### Reports (R310, R311, R567) -/

/-- UNIT_KIND and UNIT of a requester (R311, R568). -/
def reqUnit (r : Nat) : Nat × Nat :=
  if r < 64 then (1, r) else if r < 68 then (4, r - 64) else if r < 72 then (3, r - 68)
  else if r < 76 then (10, r - 72) else if r < 84 then (11, r - 76) else if r = 84 then (8, 0)
  else if r = 85 then (14, 0) else if r = 86 then (15, 0) else (13, 0)

/-- Who a report concerns: the queue and its OWNER (R567). -/
structure Who where
  queue : Option Nat := none
  owner : Nat := 0
  deriving DecidableEq, Repr

/-- Error 0x90 for a burst at a device address: counted, recorded in PT_VIOL and logged by a unit (R310, R452). -/
def violationAs (s : State) (tag req a kind unit : Nat) (w : Who) : State :=
  let s := bumpSat s (ptBase + 0x200C) 0 32
  let s := wr s (ptBase + 0x2010) (a % 2 ^ 32 / 8 * 8 + 1)
  let s := wr s (ptBase + 0x2014) (bits a 32 16 + tag * 2 ^ 16 + req * 2 ^ 24)
  append s { code := 0x90, tag := tag, kind := kind, unit := unit, queue := w.queue, owner := w.owner,
             detail := [tag, req] ++ two a }

/-- Error 0x90 for a burst, reported by the unit of its requester. -/
def violation (s : State) (tag req a : Nat) (w : Who := {}) : State :=
  violationAs s tag req a (reqUnit req).1 (reqUnit req).2 w

/-- Error 0x90 for a tile-memory or semaphore access refused at its destination: counted and logged, with
PT_VIOL_LO and PT_VIOL_HI unchanged (R310). `low` is the offset or index, `logical` the engine or quad named. -/
def localViolation (s : State) (tag req low : Nat) (sem : Bool) (logical : Nat) (w : Who := {}) : State :=
  let s := bumpSat s (ptBase + 0x200C) 0 32
  append s { code := 0x90, tag := tag, kind := (reqUnit req).1, unit := (reqUnit req).2, queue := w.queue,
             owner := w.owner, detail := [tag, req, low, 2 ^ 31 + b2n sem * 2 ^ 16 + logical % 2 ^ 16] }

/-! ### External memory errors (R326, R327) -/

/-- Memory controller `c`. -/
def mcOf (s : State) (c : Nat) : McSt := tabGet (fun _ => {}) c s.mcs

/-- Replaces memory controller `c`. -/
def setMc (s : State) (c : Nat) (x : McSt) : State := { s with mcs := tabPut (fun _ => {}) c x s.mcs }

/-- A register of MC[c] (R329). -/
def mcOff (c r : Nat) : Nat := mcBase + 0x80 * c + r

/-- MC_ERR_LO and MC_ERR_HI of the word at address `a` (R326, R327). -/
def mcErrReg (s : State) (a : Nat) (ue : Bool) : State :=
  let c := (stripeOf a).1
  wr (wr s (mcOff c 0x14) (1 + 2 * b2n ue + a % 2 ^ 32 / 8 * 8)) (mcOff c 0x18) (bits a 32 16)

/-- What the check code of the word at device address `a` does at its controller: a correction is counted, logged as
0x93 at every 1,024th, and waits to be written back (R326); an uncorrectable error is recorded (R327). -/
def mcEcc (s : State) (a : Nat) (ecc : Ecc) : State :=
  if isHost a then s
  else match ecc with
    | .ok => s
    | .uncorrectable => mcErrReg s a true
    | .corrected =>
      let c := (stripeOf a).1
      let s := mcErrReg (bumpSat s (mcOff c 0x10) 0 32) a false
      let s := setMc s c { mcOf s c with corrections := (mcOf s c).corrections ++ [a / 8 * 8] }
      let n := rd s (mcOff c 0x10)
      if n % 1024 = 0 then append s { code := 0x93, kind := 5, unit := c, detail := [n] } else s

/-! ### Engines as requesters -/

/-- Engine `e`. -/
def eng (s : State) (e : Nat) : Engine := tabGet (fun _ => {}) e s.engines

/-- Replaces engine `e`. -/
def setEng (s : State) (e : Nat) (x : Engine) : State :=
  { s with engines := tabPut (fun _ => {}) e x s.engines }

/-- A register of ENG[e] (R124). -/
def engOff (e r : Nat) : Nat := engBase + 0x100 * e + r

/-- A register of QD[q] (R124). -/
def qdOff (q r : Nat) : Nat := qdBase + 0x20 * q + r

/-- Whether engine `e` is enabled and not failed: its bit of QD_STATUS.LIVE. -/
def engLive (s : State) (e : Nat) : Bool := bit (fld s (qdOff (e / 4) 0) 8 4) (e % 4)

/-- Whether engine `e` is declared failed (ENG_STATUS.FAILED). -/
def engFailed (s : State) (e : Nat) : Bool := fld s (engOff e 8) 2 1 == 1

/-- Offset of PWR_DOMAIN. -/
def pwrDomainOff : Nat := pwrBase + 0x04

/-- Whether requester `r` is masked: its domain is off or its reset is asserted (R39). -/
def masked (s : State) (r : Nat) : Bool :=
  if r < 64 then (eng s r).inReset || !bit (fld s pwrDomainOff 8 4) (r / 16)
  else if r < 72 then
    !bit (fld s pwrDomainOff 8 4) (r % 4) || (Nat.blt r 68 && (((tabFind (r - 64) s.cx).bind (·.resetFrom)).isSome))
  else if r < 76 then !bit (fld s pwrDomainOff 16 4) (r - 72)
  else if r < 84 then !bit (fld s pwrDomainOff 20 8) (r - 76)
  else if r = 85 then fld s pwrDomainOff 0 1 == 0
  else false

/-! ### Arbiters (R313 to R325) -/

/-- Arbiter `a`. -/
def arb (s : State) (a : Nat) : ArbSt := tabGet (fun _ => {}) a s.arbs

/-- Replaces arbiter `a`. -/
def setArb (s : State) (a : Nat) (x : ArbSt) : State :=
  { s with arbs := tabPut (fun _ => {}) a x s.arbs }

/-- A register of ARB[a] (R329). -/
def arbOff (a r : Nat) : Nat := arbBase + 0x80 * a + r

/-- Base level of a request with a tag (R313). -/
def baseLevel (s : State) (tag : Nat) : Nat := if tag = tagM then 7 else fld s (ptOff tag 0x0C) 0 3

/-- The oldest raised request of a requester. -/
def reqHead (x : ArbSt) (r : Nat) : Option Burst := x.raised.find? fun b => b.req == r

/-- Whether requester `r` takes part in a round: raised and not masked (R315, R324). -/
def raisedReq (s : State) (x : ArbSt) (r : Nat) : Bool := (reqHead x r).isSome && !masked s r

/-- Whether requester `r`'s oldest request is of the real-time class. -/
def raisedRt (s : State) (x : ArbSt) (r : Nat) : Bool :=
  match reqHead x r with
  | some b => b.rt && !masked s r
  | none => false

/-- Current level of a requester (R317, R319): the level it holds, or its base level if that is higher. -/
def levelOf (s : State) (x : ArbSt) (r : Nat) : Nat :=
  match reqHead x r with
  | some b => max (tabGet (fun _ => 0) r x.level) (baseLevel s b.tag)
  | none => tabGet (fun _ => 0) r x.level

/-- The first requester at or after `ptr`, in requester order and wrapping after 87, that has a property. -/
def pickFrom (ptr : Nat) (f : Nat → Bool) : Option Nat :=
  ((List.range 88).map fun i => (ptr + i) % 88).find? f

/-- The winner of a round: real-time round-robin, else the highest level from the bulk pointer (R316, R317). -/
def roundWinner (s : State) (x : ArbSt) : Option Nat :=
  match pickFrom x.rtPtr (raisedRt s x) with
  | some r => some r
  | none =>
    let top := maxOf (((List.range 88).filter (raisedReq s x)).map (levelOf s x))
    pickFrom x.bulkPtr fun r => raisedReq s x r && levelOf s x r == top

/-- Takes the oldest request of requester `r` out of the raised ones. -/
def dropHead (r : Nat) : List Burst → List Burst
  | [] => []
  | b :: bs => if b.req = r then bs else b :: dropHead r bs

/-- What a lost round does to bulk requester `r` (R317, R322): it gains a level up to 7 and its run grows; a
run that reaches STARVE_LIM sets its flag once, with 0x91 and vector 7. -/
def loseRound (s : State) (a r : Nat) : State :=
  let x := arb s a
  let run := tabGet (fun _ => 0) r x.run + 1
  let lv := min 7 (levelOf s x r + 1)
  let s := setArb s a { x with level := tabPut (fun _ => 0) r lv x.level, run := tabPut (fun _ => 0) r run x.run }
  let s := if fld s (arbOff a 0x1C) 0 16 < min 0xFFFF run then
      wr s (arbOff a 0x1C) (min 0xFFFF run + r * 2 ^ 16) else s
  if fld s (arbOff a 0) 0 16 ≤ run ∧ fld s (arbOff a (0x08 + 4 * (r / 32))) (r % 32) 1 = 0 then
    let s := setFld s (arbOff a (0x08 + 4 * (r / 32))) (r % 32) 1 1
    let tag := ((reqHead x r).map (·.tag)).getD tagM
    let s := append s { code := 0x91, tag := tag, kind := 6, unit := a, detail := [a, r, tag] }
    raise s 0 7
  else s

/-- Lost rounds of a list of requesters. -/
def loseRounds (s : State) (a : Nat) : List Nat → State
  | [] => s
  | r :: rs => loseRounds (loseRound s a r) a rs

/-- Masked requesters lose their level and run at arbiter `a` (R324). -/
def maskArb (s : State) (a : Nat) : State :=
  let x := arb s a
  setArb s a { x with level := x.level.filter fun k => !masked s k.1, run := x.run.filter fun k => !masked s k.1 }

/-- Beats of 64 bytes that a burst moves (R306). -/
def beatsOf (b : Burst) : Nat := if b.len = 0 then 0 else (b.addr + b.len - 1) / 64 - b.addr / 64 + 1

/-- One round at arbiter `a` (R315 to R317, R321, R322): the winner's burst is granted and the bulk requesters
that lose gain a level. -/
def arbRound (s : State) (a : Nat) : State :=
  let s := maskArb s a
  let x := arb s a
  match roundWinner s x with
  | none => s
  | some w =>
    match reqHead x w with
    | none => s
    | some b =>
      let losers := (List.range 88).filter fun r => raisedReq s x r && !raisedRt s x r && r != w
      let s := loseRounds s a losers
      let x := arb s a
      let x := { x with raised := dropHead w x.raised, granted := x.granted ++ [b] }
      let x := if b.rt then { x with rtPtr := (w + 1) % 88, beats := x.beats + beatsOf b }
               else { x with bulkPtr := (w + 1) % 88, level := tabDrop w x.level, run := tabDrop w x.run }
      setArb s a x

/-- Requests raised or lowered during a round join after it; a requester with nothing raised has a run of 0
(R315, R317). -/
def arbJoin (s : State) (a : Nat) (rise : List Burst) (lower : List Nat) : State :=
  let x := arb s a
  let raised := (x.raised.filter fun b => !lower.contains b.req) ++ rise
  setArb s a { x with raised := raised, run := x.run.filter fun k => raised.any fun b => b.req == k.1 }

/-- Raises a burst at the port arbiter of its controller (R305, R314); bursts to the host go to the PCIe
controller, which serves them in order, as arbiter 20 of the model. -/
def raiseBurst (s : State) (b : Burst) : State :=
  let a := if isHost b.addr then 20 else (stripeOf b.addr).1
  let x := arb s a
  if isHost b.addr then setArb s a { x with granted := x.granted ++ [b] }
  else setArb s a { x with raised := x.raised ++ [b] }

end Sys2Proof.Machine
end

