-- ==== Sys2Proof/Machine/Jobs.lean ====
section
/-!
DEFINITION. Queues, jobs and their ends: sequence numbers, completion registers, counters, queue faults and
relocation (R362 to R367, R397, R410, R422, R256).
-/
namespace Sys2Proof.Machine

/-- Queue `q`. -/
def que (s : State) (q : Nat) : Queue := tabGet (fun _ => {}) q s.queues

/-- Replaces queue `q`. -/
def setQue (s : State) (q : Nat) (x : Queue) : State :=
  { s with queues := tabPut (fun _ => {}) q x s.queues }

/-- Hardware slot `n`. -/
def slotOf (s : State) (n : Nat) : SlotSt := tabGet (fun _ => {}) n s.slots

/-- Replaces slot `n`. -/
def setSlot (s : State) (n : Nat) (x : SlotSt) : State :=
  { s with slots := tabPut (fun _ => {}) n x s.slots }

/-- Context `i`. -/
def ctxOf (s : State) (i : Nat) : Ctx := tabGet (fun _ => {}) i s.ctxs

/-- Replaces context `i`. -/
def setCtx (s : State) (i : Nat) (x : Ctx) : State :=
  { s with ctxs := tabPut (fun _ => {}) i x s.ctxs }

/-- A register of the FE block (R430). -/
def feOff (r : Nat) : Nat := feBase + r

/-- FE_TIMEOUT.LIMIT in ms (R425). -/
def timeLimit (s : State) : Nat := fld s (feOff 0) 0 17

/-- Time units of one millisecond. -/
def msUnits : Nat := 12000000

/-- Whether the front end runs: the device is in P0 with no transition in progress (R550). -/
def feRuns (s : State) : Bool := Nat.beq (fld s pwrBase 0 9) 0

/-- Whether function `p` answers on its windows: PCIE is on, the function is enabled, and its partition is under no
reset (R442, R447, R545). -/
def fnOn (s : State) (p : Nat) : Bool := fld s pwrDomainOff 0 1 == 1 && fld s (ptStatusOff p) 0 2 == 3 && ptStage s p == 0

/-- Whether the PCIe functions' MW0 answers for function `p`: PCIE is on and the function is enabled (R442, R545). -/
def mw0On (s : State) (p : Nat) : Bool := fld s pwrDomainOff 0 1 == 1 && fld s (ptStatusOff p) 0 2 == 3

/-- Effective priority of a queue (R421). -/
def effPrio (s : State) (q : Nat) : Nat := (que s q).prioSet.getD (que s q).prio

/-- Whose work a queue's record concerns (R567). -/
def whoQ (s : State) (q : Nat) : Who := { queue := some q, owner := (que s q).owner }

/-! ### Job ends (R422, R256) -/

/-- Takes the completions that follow SEQ without a gap (R422). -/
def advanceComp (seq err : Nat) (ahead : List (Nat × Nat)) : Nat → Nat × Nat × List (Nat × Nat)
  | 0 => (seq, err, ahead)
  | k + 1 =>
    match ahead.find? (·.1 == seq + 1) with
    | some x => advanceComp (seq + 1) x.2 (ahead.filter (·.1 != seq + 1)) k
    | none => (seq, err, ahead)

/-- Job number `n` of a queue has ended with code `err`: the completion register takes the largest number up to
which every job has completed, FE_CERR the error, and one counter rises (R256, R422). -/
def Queue.finish (x : Queue) (n err : Nat) : Queue :=
  let r := advanceComp x.compSeq x.compErr ((n, err) :: x.ahead) (x.ahead.length + 1)
  { x with
    compSeq := r.1, compErr := r.2.1, ahead := r.2.2,
    completed := if err = 0 then x.completed + 1 else x.completed,
    faulted := if err = 0 then x.faulted else x.faulted + 1,
    errSeq := if err = 0 then x.errSeq else n,
    errCode := if err = 0 then x.errCode else err,
    errCount := if err = 0 then x.errCount else min 255 (x.errCount + 1) }

/-- A job of queue `q` takes the next sequence number (R410, R256). -/
def takeSeq (s : State) (q : Nat) : State :=
  let x := que s q
  setQue s q { x with seq := (x.seq + 1) % 2 ^ 48, submitted := x.submitted + 1 }

/-- A job that begins and ends at once with code `err` (0 for none). -/
def instantJob (s : State) (q err : Nat) : State :=
  let s := takeSeq s q
  let x := que s q
  setQue s q (x.finish x.seq err)

/-- Starts a job of a kind: it takes a number, and its timer runs from now (R410, R426). -/
def startJob (s : State) (q : Nat) (k : JobKind) : State :=
  let s := takeSeq s q
  let x := que s q
  let j : Job := { key := s.jobKey + 1, queue := q, seq := x.seq, kind := k, part := x.part, since := s.now,
                   limit := timeLimit s }
  { s with jobs := s.jobs ++ [j], jobKey := s.jobKey + 1 }

/-- The job with a key. -/
def jobOf (s : State) (key : Nat) : Option Job := s.jobs.find? (·.key == key)

/-- Changes the job with a key. -/
def updJob (s : State) (key : Nat) (f : Job → Job) : State :=
  { s with jobs := s.jobs.map fun j => if j.key = key then f j else j }

/-- Ends a job: with the code it was told to stop with, else the given code, else the one it has met. -/
def endJob (s : State) (key err : Nat) : State :=
  match jobOf s key with
  | none => s
  | some j =>
    let e := match j.stop with
      | some (_, code) => if err = 0x27 ∨ err = 0xB3 then err else code
      | none => if err ≠ 0 then err else j.err
    let s := { s with jobs := s.jobs.filter (·.key != key) }
    setQue s j.queue ((que s j.queue).finish j.seq e)

/-- The record of a job that ended with `code` (R423: every error of a job reaches the error log), appended by the
front-end slot unless the rule names another unit. -/
def jobRecord (s : State) (q code : Nat) (kind unit : Nat) (detail : List Nat) : State :=
  append s { code := code, tag := (que s q).part, kind := kind, unit := unit, queue := some q,
             owner := (que s q).owner, detail := detail }

/-- A job that the front end ends with an error: recorded by its slot. -/
def failJob (s : State) (key code : Nat) : State :=
  match jobOf s key with
  | none => s
  | some j => endJob (jobRecord s j.queue code 7 ((que s j.queue).slot.getD 0) []) key code

/-- Ends a job that was told to stop, with the code it was told to stop with, recorded by its slot (R423, R427). -/
def stopJob (s : State) (key : Nat) : State :=
  match jobOf s key with
  | none => s
  | some j =>
    match j.stop with
    | some (_, code) => failJob s key code
    | none => s

/-- A job that begins and ends at once with an error, recorded by its slot. -/
def failInstant (s : State) (q code : Nat) : State :=
  instantJob (jobRecord s q code 7 ((que s q).slot.getD 0) []) q code

/-- Notes the first error a job meets. -/
def markJob (s : State) (key err : Nat) : State :=
  updJob s key fun j => { j with err := if j.err = 0 then err else j.err }

/-- The unfinished jobs of a queue. -/
def jobsOf (s : State) (q : Nat) : List Job := s.jobs.filter (·.queue == q)

/-- Whether a queue has no job running. -/
def queueIdle (s : State) (q : Nat) : Bool := (jobsOf s q).isEmpty

/-! ### Queue faults (R397) -/

/-- The device address of the command that slot `n` decodes (R430). -/
def cmdAddr (s : State) (n : Nat) : Nat := (slotOf s n).buf.addr + 4 * (slotOf s n).buf.pos

/-- Faults the queue of slot `n` with `err`, in the order of R397. `begun`: the job that raised it, when it has
already begun. -/
def queueFault (s : State) (n err op : Nat) (begun : Option Nat := none) : State :=
  let sl := slotOf s n
  let q := sl.queue
  let s := setSlot s n { sl with mode := .halted, hold := 0, held := none, flowFrom := none, waitFrom := none,
                                 spin := none, miss := none }
  let s := match begun with
    | some key => endJob s key err
    | none => instantJob s q err
  let s := setQue s q { que s q with qfault := true }
  let s := bump s (feOff 0x08)
  let s := append s { code := err, tag := (que s q).part, kind := 7, unit := n, queue := some q,
                      owner := (que s q).owner, detail := [op] ++ two sl.buf.addr ++ [if op = 0 then sl.buf.pos else sl.hdr] }
  raise s (que s q).part 1

/-! ### Relocation (R362 to R367) -/

/-- What a use of a handle needs (R364). -/
structure Need where
  read : Bool := false
  write : Bool := false
  fence : Bool := false
  deriving DecidableEq, Repr

/-- The outcome of a relocation: a reference, a fault, or a read of the table that has to come first. -/
inductive Reloc
  | ok (r : Ref)
  | fault (err : Nat)
  | miss (ctx index : Nat)
  /-- The context's table is being changed (R412). -/
  | wait
  deriving DecidableEq, Repr

/-- The address, size and flags of a handle-table entry's words (R363). -/
def entryAddr (w : List Nat) : Nat := nth w 0 / 256 * 256 + hi32 (bits (nth w 1) 0 16)

/-- Size of the object (R363). -/
def entrySize (w : List Nat) : Nat := nth w 2 + hi32 (bits (nth w 3) 0 8)

/-- Checks an entry's words against a handle and its use, in the order of R364. -/
def checkEntry (w : List Nat) (handle : Nat) (need : Need) : Reloc :=
  let gen := bits (nth w 1) 24 8
  if gen = 0 then .fault 0xB0
  else if gen ≠ handle / 2 ^ 24 % 256 then .fault 0xB1
  else if (need.read && !bit (nth w 1) 16) || (need.write && !bit (nth w 1) 17) || (need.fence && !bit (nth w 1) 18)
  then .fault 0xB2
  else .ok { addr := entryAddr w, bound := entryAddr w + entrySize w }

/-- Whether a change of context `c`'s table is pending in some slot (R412). -/
def tablePending (s : State) (c : Nat) : Bool :=
  s.slots.any fun (_, x) => match x.req with
    | some (_, _, k) => k == c
    | none => false

/-- The cached entry of a context and index (R367). -/
def relocFind (s : State) (c i : Nat) : Option (List Nat) :=
  (s.reloc.find? fun x => x.1 == c && x.2.1 == i).map (·.2.2)

/-- Relocates a handle in a context (R364, R367, R412). -/
def relocate (s : State) (ctx : Option Nat) (handle : Nat) (need : Need) : Reloc :=
  match ctx with
  | none => .fault 0xB0
  | some c =>
    let x := ctxOf s c
    let i := handle % 2 ^ 24
    if tablePending s c then .wait
    else if !x.valid || Nat.ble x.count i then .fault 0xB0
    else match relocFind s c i with
      | some w => checkEntry w handle need
      | none => .miss c i

/-- Makes a cached entry the most recently used one. -/
def relocTouch (s : State) (c i : Nat) : State :=
  match s.reloc.find? fun x => x.1 == c && x.2.1 == i with
  | some x => { s with reloc := x :: s.reloc.filter fun y => !(y.1 == c && y.2.1 == i) }
  | none => s

/-- Caches an entry that is not empty; a full cache loses its least recently used one (R367). -/
def relocInsert (s : State) (c i : Nat) (w : List Nat) : State :=
  if bits (nth w 1) 24 8 = 0 then s
  else { s with reloc := ((c, i, w) :: s.reloc.filter fun y => !(y.1 == c && y.2.1 == i)).take 512 }

/-- Flushes the relocation cache for a context (R367). -/
def relocFlush (s : State) (c : Nat) : State := { s with reloc := s.reloc.filter (·.1 != c) }

/-- A reference moved by an offset (R365). -/
def Ref.plus (r : Ref) (off : Nat) : Ref := { r with addr := r.addr + off }

/-- The bytes of a stream of `n` bytes at a reference, cut at the bound (R365). -/
def Ref.cut (r : Ref) (n : Nat) : Nat := min n (r.bound - r.addr)

/-- A fixed-size structure read at a reference: bytes at or past the bound read as 0 (R365). -/
def refBytes (s : State) (tag : Nat) (r : Ref) (n : Nat) : List Byte :=
  devBytes s tag r.addr (r.cut n) ++ List.replicate (n - r.cut n) 0#8

/-- The words of a fixed-size structure at a reference. -/
def refWords (s : State) (tag : Nat) (r : Ref) (n : Nat) : List Nat := bytesWords (refBytes s tag r (4 * n))

/-- Whether a read of `n` bytes at a reference, cut at its bound, meets the tag's ranges (R310). -/
def refReadFault (s : State) (tag : Nat) (r : Ref) (n : Nat) : Option Nat := readFault s tag r.addr (r.cut n)

/-- Whether a write of `n` bytes at a reference, cut at its bound, may be performed. -/
def refWriteFault (s : State) (tag : Nat) (r : Ref) (n : Nat) : Option Nat := writeFault s tag r.addr (r.cut n)

/-- A fixed-size structure write at a reference: bytes at or past the bound are dropped (R365). -/
def refWrite (s : State) (tag : Nat) (r : Ref) (data : List Byte) : State :=
  devWrite s tag r.addr (data.take (r.cut data.length))

/-- The address of the fence an object and offset name: clamped to the last whole aligned word; none when the
object holds no such word (R293, R365). -/
def fenceAddr (r : Ref) (off : Nat) : Option Nat :=
  let a := r.addr + off / 8 * 8
  if a + 8 ≤ r.bound then some a
  else if r.addr + 8 ≤ r.bound then some ((r.bound - 8) / 8 * 8) else none

end Sys2Proof.Machine
end

