-- ==== Sys2Proof/Machine/EngineOps.lean ====
section
/-!
DEFINITION. Logical engines and quads (R32, R115), semaphores (R269 to R279), the far-line cache's write-backs
(R111), releases (R296) and the end of work that met an error (R30, R573, R604).
-/
namespace Sys2Proof.Machine

/-! ### Logical positions (R31, R32, R115, R124) -/

/-- The physical engine bound to logical position `j` of quad `q` (QD_LMAP). -/
def lmapAt (s : State) (q j : Nat) : Nat := 4 * q + fld s (qdOff q 4) (2 * j) 2

/-- Logical positions of quad `q` in use. -/
def lmapCount (s : State) (q : Nat) : Nat := fld s (qdOff q 4) 8 3

/-- The logical position that engine `e` holds in its quad, if any. -/
def lmapPos (s : State) (e : Nat) : Option Nat :=
  (List.range (lmapCount s (e / 4))).find? fun j => lmapAt s (e / 4) j == e

/-- The live engines of a quad, ascending: enabled and not failed. -/
def quadLive (s : State) (q : Nat) : List Nat := ((List.range 4).map fun k => 4 * q + k).filter (engLive s)

/-- The logical engines of partition `p`, ascending: physical indices. -/
def logEngs (s : State) (p : Nat) : List Nat :=
  (quadsOf s p).flatMap fun q => (List.range (lmapCount s q)).map (lmapAt s q)

/-- The logical index of engine `e` in its partition. -/
def logIndex (s : State) (e : Nat) : Nat := (logEngs s (engPart s e)).findIdx (· == e)

/-- The logical index of quad `q` in its partition. -/
def logQuad (s : State) (q : Nat) : Nat := (quadsOf s (quadPart s q)).findIdx (· == q)

/-! ### Semaphores (R269 to R279) -/

/-- SYN_SEM of a semaphore (physical quad × 512 + index). -/
def semOff (sem : Nat) : Nat := synBase + 4 * sem

/-- The value of a semaphore. -/
def semVal (s : State) (sem : Nat) : Nat := rd s (semOff sem)

/-- The semaphore that a unit of partition `p` names by logical quad and index; none outside the partition. -/
def semOf (s : State) (p lq i : Nat) : Option Nat := (quadsOf s p)[lq]?.map fun q => 512 * q + i % 512

/-- The semaphore that a host-supplied field names: the logical quad is clamped to the last one (R17, R292). -/
def semClamped (s : State) (p lq i : Nat) : Option Nat :=
  semOf s p (min lq ((quadsOf s p).length - 1)) i

/-- ROUND of a barrier word (R277). -/
def barRound (v : Nat) : Nat := bits v 16 16

/-- The distance d by which an ARRIVE for round `k` is judged (R278). -/
def barDist (k v : Nat) : Nat := (k % 2 ^ 16 + 2 ^ 16 - barRound v) % 2 ^ 16

/-- A counting arrival for round `k` with `p` participants (R278). -/
def barCount (v k p : Nat) : Nat :=
  if barDist k v = 0 then
    let c := bits v 0 16 + 1
    if max 1 p ≤ c then (k + 1) % 2 ^ 16 * 2 ^ 16 else setBits v 0 16 c
  else v

/-- Whether a BAR_WAIT for round `k` is met (R279). -/
def barMet (v k : Nat) : Bool :=
  let d := (barRound v + 2 ^ 16 - k % 2 ^ 16) % 2 ^ 16
  Nat.ble 1 d && Nat.ble d 32767

/-- Puts an arrival behind those of its port and lower ports: engines in quad order, then the fabric port (R274). -/
def arriveInsert (a : Nat × Nat × Nat) : List (Nat × Nat × Nat) → List (Nat × Nat × Nat)
  | [] => [a]
  | b :: r => if a.1 < b.1 then a :: b :: r else b :: arriveInsert a r

/-- The value one cycle's operations leave (R274). -/
def SemCycle.result (c : SemCycle) : Nat :=
  let v := min (c.old + c.adds) (2 ^ 32 - 1) - c.subs
  c.set.getD (c.arrives.foldl (fun w a => barCount w a.2.1 a.2.2) v)

/-- Whether the ADDs of a cycle saturate (R271). -/
def SemCycle.saturates (c : SemCycle) : Bool := Nat.ble (2 ^ 32) (c.old + c.adds)

/-- The value a semaphore held after the operations of cycle `x` (R274 order 5, R275). -/
def semAt (s : State) (sem x : Nat) : Nat :=
  (((s.semCycles.filter fun c => c.sem == sem && Nat.blt x c.cycle).map (·.old)).getLast?).getD (semVal s sem)

/-- What cycle `x` has done to a semaphore so far. -/
def semIn (s : State) (sem x : Nat) : SemCycle :=
  (s.semCycles.find? fun c => c.sem == sem && c.cycle == x).getD { sem := sem, cycle := x, old := semAt s sem x }

/-- Recomputes later cycles of a semaphore, oldest first, from the value before them. -/
def semChain (v : Nat) : List SemCycle → Nat × List SemCycle
  | [] => (v, [])
  | c :: cs =>
    let c' := { c with old := v }
    let r := semChain c'.result cs
    (r.1, r.2 ++ [c'])

/-- Applies an operation that reaches the semaphore in cycle `x` (R274): cycles after it are recomputed. A
saturating ADD is counted and logged as 0x82 once in a cycle (R271). -/
def semApplyAt (s : State) (sem x : Nat) (f : SemCycle → SemCycle) : State :=
  let c := semIn s sem x
  let c' := f c
  let later := (s.semCycles.filter fun y => y.sem == sem && Nat.blt x y.cycle).reverse
  let r := semChain c'.result later
  let older := s.semCycles.filter fun y => !(y.sem == sem && Nat.ble x y.cycle)
  let s := wr { s with semCycles := r.2 ++ c' :: older.filter fun y => Nat.ble (aclk s) (y.cycle + 128) } (semOff sem) r.1
  if c'.saturates && !c.saturates then
    append (bump s (synBase + 0x880C))
      { code := 0x82, tag := quadPart s (sem / 512), kind := 2, unit := sem / 512,
        detail := [logQuad s (sem / 512), sem % 512] }
  else s

/-- Applies an operation in the present cycle. -/
def semApply (s : State) (sem : Nat) (f : SemCycle → SemCycle) : State := semApplyAt s sem (aclk s) f

/-- ADD (R270). -/
def semAdd (s : State) (sem n : Nat) : State := semApply s sem fun c => { c with adds := c.adds + n }

/-- SUB (R270). -/
def semSub (s : State) (sem n : Nat) : State := semApply s sem fun c => { c with subs := c.subs + n }

/-- SET (R270). -/
def semSet (s : State) (sem v : Nat) : State := semApply s sem fun c => { c with set := some (v % 2 ^ 32) }

/-- A counting ARRIVE from a port, in cycle `x` (R278). -/
def semArriveAt (s : State) (sem x port k p : Nat) : State :=
  semApplyAt s sem x fun c => { c with arrives := arriveInsert (port, k, p) c.arrives }

/-- The input of the sync memory that engine `e` uses for a semaphore: 0 to 3 for the quad's engines, 4 for the
fabric port (R273). -/
def semPort (e sem : Nat) : Nat := if e / 4 = sem / 512 then e % 4 else 4

/-- Whether engine `e`'s own private block holds a semaphore (R115). -/
def semPrivate (s : State) (e sem : Nat) : Bool :=
  e / 4 == sem / 512 && Nat.ble 384 (sem % 512) && lmapPos s e == some ((sem % 512 - 384) / 32)

/-- Latency L of a semaphore operation from engine `e` (R28, R275). -/
def semLat (s : State) (e sem : Nat) : Nat :=
  if semPrivate s e sem then 2 else if e / 4 = sem / 512 then 4
  else 24 + Config.semFar e (sem / 512) % 37

/-- Latency L of a semaphore operation from the front end (R28, R275). -/
def semLatFe (sem : Nat) : Nat := 24 + Config.semFar 84 (sem / 512) % 37

/-- What a poll whose reply arrives in the present cycle read, for latency `l` (R275). -/
def pollRead (s : State) (sem l : Nat) : Nat := semAt s sem (aclk s - (l - l / 2))

/-! ### Engine work and its end by an error (R30, R92, R573, R604) -/

/-- An entry of a step table in engine `e`'s tile memory (R73): its words. -/
def stepWords (s : State) (e table i : Nat) : List Nat :=
  bytesWords (s.tile.readBytes (e * 2 ^ 22 + (table + 32 * i) % 2 ^ 22) 32)

/-- Whether the end of the running step is a break point (R82). -/
def RunStep.isBreak (r : RunStep) : Bool := bit (nth r.words 2) 1 || r.last

/-- The running step of engine `e` ends, or is ended by an error and counts as never ended (R82, R604). A stop
request takes effect at a break point (R84); under a switch of variant, the engine also stops when the next step's
guard is not met, and otherwise starts that step in the next cycle (R189). -/
def seqEnd (s : State) (e : Nat) (failed : Bool) : State :=
  let x := eng s e
  match x.seq.cur with
  | none => s
  | some r =>
    let q := x.seq
    let w := stepWords s e q.plan.table q.ptr
    let guardMet := !bit (nth w 2) 0 ||
      (match semOf s q.plan.part (bits (nth w 3) 9 4) (bits (nth w 3) 0 9) with
       | some sem => Nat.ble (nth w 4) (semVal s sem)
       | none => false)
    let stops := q.stopAsked && (r.isBreak || (q.stopSwitch && !guardMet))
    let g := match x.waves.find? fun w => w.work == .step with
      | some w => w.g
      | none => x.stepG
    let q' := { q with cur := none, lastEnd := aclk s,
                       ended := if failed then q.ended else (r.frame, r.variant, r.index, aclk s) :: q.ended,
                       failedSteps := if failed then (r.frame, r.variant, r.index) :: q.failedSteps else q.failedSteps,
                       armed := q.armed && !stops, stopAsked := q.stopAsked && !stops,
                       met := if q.stopAsked && q.stopSwitch && !stops then some (aclk s) else q.met }
    setEng s e { x with seq := q', stepG := g, waves := x.waves.filter fun w => w.work != .step,
                        waits := x.waits.filter fun k => k.dst.isNone ||
                          !x.waves.any fun w => w.work == .step && w.vbase == 16 * k.wave }

/-- Wave `w` of engine `e`: the resident wave whose block of vector registers begins at register 16 × `w`, a
name that no two resident waves share (R89). -/
def waveAt (s : State) (e w : Nat) : Option Wave := (eng s e).waves.find? fun x => x.vbase == 16 * w

/-- Replaces wave `w` of engine `e`. -/
def setWave (s : State) (e w : Nat) (x : Wave) : State :=
  setEng s e { eng s e with waves := (eng s e).waves.map fun y => if y.vbase = 16 * w then x else y }

/-- Takes wave `w` off engine `e`. -/
def dropWave (s : State) (e w : Nat) : State :=
  setEng s e { eng s e with waves := (eng s e).waves.filter fun y => y.vbase != 16 * w,
                            waits := (eng s e).waits.filter fun y => y.wave != w || y.dst.isNone }

/-- Whose work wave `w` of engine `e` is, for a record (R567, R604). -/
def whoWave (s : State) (e w : Nat) : Who :=
  match waveAt s e w with
  | none => {}
  | some x =>
    match (if x.work = .step then (eng s e).seq.plan.queue else (jobOf s x.job).map (·.queue)) with
    | some q => whoQ s q
    | none => {}

/-- Ends the work of a wave with an error: a step ends at once and counts as never ended; a job takes the error
and loses the wave (R573, R604). -/
def endWork (s : State) (e w code : Nat) : State :=
  match waveAt s e w with
  | none => s
  | some x =>
    if x.work = .step then seqEnd s e true
    else
      markJob (dropWave s e w) x.job code

/-- A record that engine `e` appends for wave `w` (R92, R604). -/
def engRecord (s : State) (e w code : Nat) (detail : List Nat) : State :=
  append s { code := code, tag := engPart s e, kind := 1, unit := e, queue := (whoWave s e w).queue,
             owner := (whoWave s e w).owner, detail := detail }

/-! ### External bursts of an engine (R306, R312) -/

/-- The present instant in the layout of LC_NOW_LO. -/
def nowLp (s : State) : Nat := lcLp s (wake s)

/-- Whether a traffic entry covers the present instant and still has bytes left (R312). -/
def Traffic.open (t : Traffic) (lp : Nat) : Bool :=
  Nat.ble t.start lp && Nat.blt lp t.stop && Nat.blt t.moved t.bytes

/-- Counts `n` bytes under the first open entry. -/
def trafficMove (lp n : Nat) : List Traffic → List Traffic
  | [] => []
  | t :: r => if t.open lp then { t with moved := t.moved + n } :: r else t :: trafficMove lp n r

/-- Raises one burst of engine `e`, in the class its traffic declaration gives it (R311, R312). -/
def engBurst (s : State) (e : Nat) (write : Bool) (addr len : Nat) (data : List Byte) (use : Nat) : State :=
  let x := eng s e
  let rt := x.seq.cur.isSome && x.seq.plan.traffic.any fun t => t.open (nowLp s)
  let s := if rt then setEng s e { x with seq := { x.seq with plan := { x.seq.plan with
      traffic := trafficMove (nowLp s) len x.seq.plan.traffic } } }
           else s
  let s := if use = 2 ∨ use = 3 then setEng s e { eng s e with outstanding := (eng s e).outstanding + 1 } else s
  raiseBurst s { req := e, tag := engPart s e, rt := rt, write := write, addr := addr, len := len, data := data,
                 use := use }

/-! ### Far-line cache write-backs (R111, R112) -/

/-- One byte of a line. -/
def FarLine.byte (l : FarLine) (i : Nat) : Byte := tabGet (fun _ => 0#8) i l.bytes

/-- `n` bytes of a line from byte `i`. -/
def FarLine.get (l : FarLine) (i n : Nat) : List Byte := (List.range n).map fun k => l.byte (i + k)

/-- Raises the write-back of the dirty sectors in a list, one burst of 64 bytes each. -/
def writeBackSectors (s : State) (e : Nat) (l : FarLine) : List Nat → State
  | [] => s
  | k :: ks =>
    writeBackSectors (engBurst s e true (l.tag * 1024 + 64 * k) 64 (l.get (64 * k) 64) 2) e l ks

/-- The dirty sectors of a line. -/
def FarLine.dirtySectors (l : FarLine) : List Nat := (List.range 16).filter fun k => bit l.dirty k

/-- Writes back line `n` of engine `e`; its sectors stay valid and clean. -/
def flcCleanLine (s : State) (e n : Nat) : State :=
  match tabFind n (eng s e).lines with
  | none => s
  | some l =>
    let s := writeBackSectors s e l l.dirtySectors
    setEng s e { eng s e with lines := tabPut (fun _ => {}) n { l with dirty := 0 } (eng s e).lines }

/-- Writes back a list of lines. -/
def flcCleanLines (s : State) (e : Nat) : List Nat → State
  | [] => s
  | n :: ns => flcCleanLines (flcCleanLine s e n) e ns

/-- Writes back every dirty sector of engine `e` (R111, R112). -/
def flcClean (s : State) (e : Nat) : State := flcCleanLines s e (List.range 48)

/-- Whether no sector of engine `e` is dirty. -/
def flcIsClean (s : State) (e : Nat) : Bool := (eng s e).lines.all fun l => l.2.dirty == 0

/-- An acquire drops every valid sector that is not dirty (R111). -/
def flcAcquire (s : State) (e : Nat) : State :=
  setEng s e { eng s e with lines := (eng s e).lines.filterMap fun (n, l) =>
    if l.dirty = 0 then none else some (n, { l with valid := l.dirty }), acq := (eng s e).acq + 1 }

/-! ### Releases of an engine (R296) -/

/-- Fence slot `n`. -/
def fslot (s : State) (n : Nat) : FSlot := tabGet (fun _ => {}) n s.fslots

/-- Replaces fence slot `n`. -/
def setFslot (s : State) (n : Nat) (x : FSlot) : State := { s with fslots := tabPut (fun _ => {}) n x s.fslots }

/-- The slot in which a fence is resident (R285). -/
def fenceSlotOf (s : State) (a : Nat) : Option Nat :=
  (List.range 48).find? fun n => (fslot s n).valid && (fslot s n).addr == a

/-- A signal reaches the fence unit: the slots take it when its fence is resident, else the transit unit (R283,
R287). -/
def sendSignal (s : State) (f : FSig) : State :=
  if (fenceSlotOf s f.addr).isSome then { s with fsigs := s.fsigs ++ [f] }
  else { s with transits := s.transits ++ [f] }

/-- The poll by which wave `w` waits. -/
def setSpin (s : State) (e w : Nat) (sp : Option Spin) : State :=
  match waveAt s e w with
  | none => s
  | some x => setWave s e w { x with spin := sp }

/-- An ARRIVE of wave `w` of engine `e` that reaches the semaphore in cycle `x` is judged (R278). -/
def engArrive (s : State) (e w sem x k parts : Nat) : State :=
  let d := barDist k (semIn s sem x).result
  if d = 0 then setSpin (semArriveAt s sem x (semPort e sem) k parts) e w none
  else if d = 1 then setSpin s e w (some { sem := sem, want := .arrive k parts, issued := aclk s })
  else endWork (engRecord s e w 0x83 []) e w 0x83

/-- A release of engine `e` takes effect. -/
def releaseApply (s : State) (e : Nat) : Release → State
  | .add sem n => semAdd s sem n
  | .sub sem n => semSub s sem n
  | .arrive w sem k parts => engArrive s e w sem (aclk s) k parts
  | .fence a v tag q => sendSignal s { addr := a, value := v, tag := tag, req := e, queue := q }

/-- Issues a release of engine `e`: the far-line cache is written back, and the release takes effect at once when
every store of the engine is acknowledged, else it waits (R111, R296). -/
def releaseIssue (s : State) (e : Nat) (r : Release) : State :=
  let s := flcClean s e
  let x := eng s e
  if x.outstanding = 0 ∧ x.releases = [] then releaseApply s e r
  else setEng s e { x with releases := x.releases ++ [r] }

end Sys2Proof.Machine
end

