-- ==== Sys2Proof/Machine/Front.lean ====
section
/-!
DEFINITION. The command front end (R385 to R412): doorbells, rings, prefetch, the checks every command undergoes,
and the flow-control commands.
-/
namespace Sys2Proof.Machine

/-! ### Doorbells and rings (R385 to R394) -/

/-- The write pointer after a doorbell of value `v` (R387). -/
def wptrAfter (wptr rptr entries v : Nat) : Nat :=
  let d := (v + 2 ^ 32 - wptr) % 2 ^ 32
  if d = 0 ∨ 2 ^ 31 ≤ d then wptr
  else (wptr + min d (entries - (wptr + 2 ^ 32 - rptr) % 2 ^ 32)) % 2 ^ 32

/-- A 4-byte write of `v` to queue `q`'s doorbell word through function `fn` (R391, R394, R442): only the
function of the queue's partition reaches it; a slot takes R387 and RUNG, a page records the value. -/
def execDoorbell (fn : Part) (q : Qid) (v size : Nat) (s : State) : Out :=
  let x := que s q
  if size ≠ 4 ∨ x.life = .free ∨ x.part ≠ fn ∨ !fnOn s fn then .next s
  else
    let v := v % 2 ^ 32
    match x.slot with
    | some n =>
      let sl := slotOf s n
      .next (setSlot s n { sl with wptr := wptrAfter sl.wptr sl.rptr x.entries v, rung := true })
    | none => .next (setQue s q { x with pageWptr := wptrAfter x.pageWptr x.rptr x.entries v, pageRung := true })

/-- An IDLE slot whose RUNG reads 1 enters FETCHING (R392). -/
def execSlotWake (n : Slot) (s : State) : Out :=
  let sl := slotOf s n
  if feRuns s ∧ sl.valid ∧ sl.mode = .idle ∧ sl.rung then
    .next (setSlot s n { sl with mode := .fetching, hold := 0, wptrSeen := sl.wptr })
  else .next s

/-- The device address of ring entry `k` of a queue (R385). -/
def entryAt (x : Queue) (k : Nat) : Nat := x.ring + 16 * (k % x.entries)

/-- The buffer that a ring entry's words name in the object a reference covers (R388, R389). -/
def entryBuf (w : List Nat) (r : Ref) : Buf :=
  let a := r.addr + nth w 1 / 4 * 4 + hi32 (bits (nth w 2) 0 8)
  { addr := a, words := min (bits (nth w 3) 0 24) ((r.bound - a) / 4) }

/-- RPTR moves past the running entry (R386). The entry read ahead begins at once; one of 0 words is consumed
(R389), as is any that follows it only after its own read. -/
def slotAdvance (s : State) (n : Nat) : State :=
  let sl := slotOf s n
  let base := { sl with inEntry := false, entryWords := none, rptr := (sl.rptr + 1) % 2 ^ 32, calls := [], loops := [],
                        skip := 0, ahead := none, pf := none, pfMiss := none, buf := {} }
  match sl.pf with
  | some p =>
    if p.entry = base.rptr ∧ base.rptr ≠ sl.wptr then
      match p.buf with
      | some b =>
        if b.words = 0 then setSlot s n { base with rptr := (base.rptr + 1) % 2 ^ 32 }
        else
          let s := setSlot s n { base with inEntry := true, buf := b, ahead := p.bytes.map fun d => (b.addr, d) }
          if p.bad then queueFault s n 0x92 0 else s
      | none => setSlot s n { base with entryWords := some p.words }
    else setSlot s n base
  | none => setSlot s n base

/-- The buffer of the entry whose words have arrived begins (R389). -/
def entryBegin (s : State) (n : Nat) (w : List Nat) (r : Ref) : State :=
  let b := entryBuf w r
  let s := bump s (feOff 0x14)
  if b.words = 0 then slotAdvance (setSlot s n { slotOf s n with pf := none }) n
  else setSlot s n { slotOf s n with inEntry := true, entryWords := none, buf := b, calls := [], loops := [],
                                     skip := 0, fetchedAt := aclk s }

/-- Relocates the handle of an arrived entry in the queue's initial context and begins its buffer (R389). -/
def entryRelocate (s : State) (n : Nat) (w : List Nat) : State :=
  let sl := slotOf s n
  match relocate s (some (que s sl.queue).ctx) (nth w 0) { read := true } with
  | .ok r => entryBegin (relocTouch s (que s sl.queue).ctx (nth w 0 % 2 ^ 24)) n w r
  | .fault e => queueFault s n e 0
  | .miss c i => bump (setSlot s n { sl with entryWords := some w, miss := some (c, i) }) (feOff 0x18)
  | .wait => setSlot s n { sl with entryWords := some w, mode := .held, hold := 6 }

/-- Relocates the handle of an entry read ahead; a fault is left for the time RPTR reaches it (R408). -/
def prefetchRelocate (s : State) (n : Nat) (p : Prefetch) : State :=
  let sl := slotOf s n
  let c := (que s sl.queue).ctx
  match relocate s (some c) (nth p.words 0) { read := true } with
  | .ok r =>
    bump (relocTouch (setSlot s n { sl with pf := some { p with buf := some (entryBuf p.words r) }, pfMiss := none })
      c (nth p.words 0 % 2 ^ 24)) (feOff 0x14)
  | .miss c i => bump (setSlot s n { sl with pf := some p, pfMiss := some (c, i) }) (feOff 0x18)
  | _ => setSlot s n { sl with pf := none, pfMiss := none }

/-- A ring entry arrives (R385, R388, R389, R408): the entry at RPTR, or, while a buffer runs, the one after it
once WPTR covers it. A read that fails faults the queue (R573). -/
def execRingEntryFetch (n : Slot) (ecc : Ecc) (s : State) : Out :=
  let sl := slotOf s n
  let x := que s sl.queue
  if !sl.valid ∨ !feRuns s then .next s
  else if sl.mode = .fetching ∧ !sl.inEntry ∧ sl.miss = none ∧ sl.rptr ≠ sl.wptrSeen then
    match sl.entryWords with
    | some w => .next (entryRelocate s n w)
    | none =>
      let a := entryAt x sl.rptr
      if ecc = .uncorrectable then .next (queueFault (mcEcc s a ecc) n 0x92 0)
      else match readFault s x.part a 16 with
        | some v => .next (queueFault (violation s x.part 84 v (whoQ s sl.queue)) n 0x90 0)
        | none => .next (entryRelocate (mcEcc s a ecc) n (bytesWords (devBytes s x.part a 16)))
  else if sl.inEntry ∧ sl.pf = none ∧ (sl.mode = .fetching ∨ sl.mode = .held) ∧ (sl.rptr + 1) % 2 ^ 32 ≠ sl.wptr then
    let a := entryAt x ((sl.rptr + 1) % 2 ^ 32)
    let s := setSlot s n { sl with wptrSeen := sl.wptr }
    if ecc = .uncorrectable ∨ (readFault s x.part a 16).isSome then .next (mcEcc s a ecc)
    else .next (prefetchRelocate (mcEcc s a ecc) n { entry := (sl.rptr + 1) % 2 ^ 32, words := bytesWords (devBytes s x.part a 16) })
  else .next s

/-- The slot's idle step (R393): it reads WPTR and clears RUNG, and stays FETCHING or enters IDLE. -/
def idleStep (s : State) (n : Nat) : State :=
  let sl := slotOf s n
  if sl.wptr ≠ sl.rptr then setSlot s n { sl with wptrSeen := sl.wptr, rung := false }
  else setSlot s n { sl with wptrSeen := sl.wptr, rung := false, mode := .idle, flowFrom := none }

/-- Whether the current buffer of slot `n` has been decoded to its end. -/
def atBufEnd (sl : SlotSt) : Bool := sl.valid && sl.mode == .fetching && sl.inEntry && Nat.ble sl.buf.words sl.buf.pos

/-- The loops open in the current buffer (R400, R404). -/
def ownLoops (sl : SlotSt) : List LoopSt := sl.loops.filter fun l => l.depth == sl.calls.length

/-- The end of a buffer (R402, R404): 0x24 while it has a loop open, RETURN in a called buffer, else the ring
entry ends. -/
def bufferEnd (s : State) (n : Nat) : State :=
  let sl := slotOf s n
  if ownLoops sl ≠ [] then queueFault s n 0x24 0
  else match sl.calls with
    | b :: r => setSlot s n { sl with buf := b, calls := r, skip := 0 }
    | [] => slotAdvance s n

/-- The end of a called buffer acts as RETURN, or ends the ring entry at depth 0 (R402). -/
def execBufferEnd (n : Slot) (s : State) : Out :=
  if feRuns s ∧ atBufEnd (slotOf s n) then .next (bufferEnd s n) else .next s

/-- The end of a ring entry (R386, R393): RPTR advances, and a slot that finds RPTR equal to the WPTR it last saw
performs its idle step. -/
def execRingEntryEnd (n : Slot) (s : State) : Out :=
  let sl := slotOf s n
  let s := if feRuns s ∧ atBufEnd sl ∧ sl.calls = [] then bufferEnd s n else s
  let sl := slotOf s n
  if feRuns s ∧ sl.valid ∧ sl.mode = .fetching ∧ !sl.inEntry ∧ sl.entryWords = none ∧ sl.rptr = sl.wptrSeen
  then .next (idleStep s n) else .next s

/-- The next entry's buffer is read into the prefetch store, unless its NO_PREFETCH is 1 (R408, R409). -/
def execBufferPrefetch (n : Slot) (ecc : Ecc) (s : State) : Out :=
  let sl := slotOf s n
  match sl.pf with
  | none => .next s
  | some p =>
    match p.buf with
    | none => .next s
    | some b =>
      if !feRuns s ∨ !sl.valid ∨ p.bytes.isSome ∨ p.bad ∨ bit (nth p.words 2) 8 ∨ b.words = 0 then .next s
      else
        let part := (que s sl.queue).part
        let len := min 65536 (4 * b.words)
        let s := mcEcc (bump s (feOff 0x1C)) b.addr ecc
        if (readFault s part b.addr len).isSome then .next s
        else if ecc = .uncorrectable then .next (setSlot s n { sl with pf := some { p with bad := true } })
        else .next (setSlot s n { sl with pf := some { p with bytes := some (devBytes s part b.addr len) } })

/-! ### Decoding (R395 to R399) -/

/-- The opcodes of R399. -/
def opcodes : List Nat :=
  [0x00, 0x01, 0x02, 0x03, 0x04, 0x05, 0x06, 0x08, 0x09, 0x0A, 0x10, 0x11, 0x12, 0x13, 0x14, 0x15, 0x16, 0x17,
   0x20, 0x21, 0x22, 0x23, 0x24, 0x25, 0x30]

/-- The length R399 gives an opcode; none for NOP, which takes any. -/
def opLen (op : Nat) : Option Nat :=
  match op with
  | 0x00 => none
  | 0x01 => some 5 | 0x02 => some 5 | 0x03 => some 1 | 0x04 => some 2 | 0x05 => some 1 | 0x06 => some 9
  | 0x08 => some 6 | 0x09 => some 6 | 0x0A => some 3 | 0x10 => some 10 | 0x11 => some 5 | 0x12 => some 16
  | 0x13 => some 9 | 0x14 => some 4 | 0x15 => some 12 | 0x16 => some 5 | 0x17 => some 5
  | 0x20 => some 3 | 0x21 => some 2 | 0x22 => some 4 | 0x23 => some 7 | 0x24 => some 2 | 0x25 => some 5
  | 0x30 => some 4
  | _ => some 0

/-- Whether an opcode is accepted in kernel queues alone (R399). -/
def kernelOnly (op : Nat) : Bool := Nat.ble 0x20 op && Nat.ble op 0x25

/-- Whether a command is a job that takes a sequence number; RENDER_PASS only with OP 0 (R399, R410). -/
def isJobCmd (op : Nat) (w : List Nat) : Bool :=
  if op = 0x11 then bits (nth w 1) 0 1 == 0
  else op == 0x30 || (Nat.ble 0x08 op && op != 0x12 && Nat.ble op 0x25)

/-- `k` words of the current buffer of slot `n` from its next word: from the bytes read ahead where they cover
them, else from memory. -/
def cmdWords (s : State) (n k : Nat) : List Nat :=
  let sl := slotOf s n
  let a := sl.buf.addr + 4 * sl.buf.pos
  match sl.ahead with
  | some (b, d) =>
    if sl.calls = [] ∧ b ≤ a ∧ a + 4 * k ≤ b + d.length then bytesWords ((d.drop (a - b)).take (4 * k))
    else bytesWords (devBytes s (que s sl.queue).part a (4 * k))
  | none => bytesWords (devBytes s (que s sl.queue).part a (4 * k))

/-- The first burst of the next `k` words that the queue's partition may not read; none for words read ahead. -/
def cmdFault (s : State) (n k : Nat) : Option Nat :=
  let sl := slotOf s n
  let a := sl.buf.addr + 4 * sl.buf.pos
  match sl.ahead with
  | some (b, d) =>
    if sl.calls = [] ∧ b ≤ a ∧ a + 4 * k ≤ b + d.length then none else readFault s (que s sl.queue).part a (4 * k)
  | none => readFault s (que s sl.queue).part a (4 * k)

/-- Whether slot `n` can decode a command: it fetches, its entry's buffer runs, no handle is being read, and a
command is left. -/
def canDecode (sl : SlotSt) : Bool :=
  sl.valid && sl.mode == .fetching && sl.inEntry && sl.miss.isNone && Nat.blt sl.buf.pos sl.buf.words

/-- Relocates the handles of a command in ascending word order (R364, R396 order 6). -/
def relocAll (s : State) (ctx : Option Nat) : List (Nat × Need) → List Ref → Except Reloc (List Ref)
  | [], acc => .ok acc.reverse
  | (h, need) :: r, acc =>
    match relocate s ctx h need with
    | .ok x => relocAll s ctx r (x :: acc)
    | e => .error e

/-- Marks the entries of a list of handles as used (R367). -/
def touchAll (s : State) (c : Nat) : List (Nat × Need) → State
  | [] => s
  | (h, _) :: r => touchAll (relocTouch s c (h % 2 ^ 24)) c r

/-- Pass order (R199): whether a command breaks it. -/
def passBreak (inPass : Bool) (op : Nat) (w : List Nat) : Bool :=
  if op = 0x12 then !inPass
  else if op = 0x11 then inPass == (bits (nth w 1) 0 1 == 0)
  else inPass && !(Nat.ble op 0x06 || op == 0x30)

/-- Flow structure (R396 order 4, R400, R402, R404): the error of a command that breaks it. -/
def flowBreak (sl : SlotSt) (op : Nat) : Option Nat :=
  match op with
  | 0x01 => if ownLoops sl ≠ [] then some 0x24 else none
  | 0x02 => if sl.calls.length = 4 then some 0x23 else none
  | 0x03 => if sl.calls = [] ∨ ownLoops sl ≠ [] then some 0x24 else none
  | 0x04 => if sl.loops.length = 4 then some 0x23 else none
  | 0x05 => if (sl.loops.head?.map (·.depth)) = some sl.calls.length then none else some 0x24
  | _ => none

/-- Moves slot `n` past a command of `k` words. -/
def pastCmd (s : State) (n k : Nat) : State :=
  let sl := slotOf s n
  setSlot s n { sl with buf := { sl.buf with pos := sl.buf.pos + k } }

/-- What a row adds to the decoding of its opcode: whether the words are this row's, the handles it uses, and
what the command does once its checks pass. -/
structure CmdRow where
  op : Nat
  sel : List Nat → Bool := fun _ => true
  needs : List Nat → List (Nat × Need) := fun _ => []
  act : State → Nat → List Nat → List Ref → State

/-- A skipped command passes checks 1 to 3 and is otherwise not executed; a skipped job takes its number and
completes at once (R407). -/
def skipCmd (s : State) (n op : Nat) (w : List Nat) : State :=
  let sl := slotOf s n
  let s := pastCmd (setSlot s n { sl with skip := sl.skip - 1 }) n w.length
  if isJobCmd op w then instantJob s sl.queue 0 else s

/-- Whether a queue discards the commands up to RENDER_PASS OP 1, because its pass was refused or has ended (R217). -/
def discarding (s : State) (q : Nat) : Bool := (que s q).inPass && !(s.passes.any fun p => p.queue == q)

/-- Checks 4 to 6 of R396 on a command of slot `n`, then its action. -/
def runCmd (s : State) (n : Nat) (row : CmdRow) (w : List Nat) : State :=
  let sl := slotOf s n
  match flowBreak sl row.op with
  | some e => queueFault s n e row.op
  | none =>
    if passBreak (que s sl.queue).inPass row.op w then queueFault s n 0x64 row.op
    else if (row.op = 0x12 ∨ row.op = 0x30) ∧ discarding s sl.queue then pastCmd s n w.length
    else
      let needs := row.needs w
      match relocAll s sl.ctx needs [] with
      | .error (.fault e) => queueFault s n e row.op
      | .error (.miss c i) => bump (setSlot s n { sl with miss := some (c, i) }) (feOff 0x18)
      | .error _ => setSlot s n { sl with mode := .held, hold := 6 }
      | .ok refs =>
        let s := touchAll (bump s (feOff 0x14) needs.length) (sl.ctx.getD 0) needs
        let s := if 0x01 ≤ row.op ∧ row.op ≤ 0x06 ∧ sl.flowFrom = none then
            setSlot s n { slotOf s n with flowFrom := some s.now, flowLimit := timeLimit s } else s
        row.act s n w refs

/-- Decodes the next command of slot `n` as a row's command (R396): checks 1 to 3, skipping, then `runCmd`. A
command of another opcode leaves the state unchanged: that row is then not the step that happens. -/
def decodeCmd (s : State) (n : Nat) (row : CmdRow) : State :=
  let sl := slotOf s n
  if !feRuns s ∨ !canDecode sl then s
  else match cmdFault s n 1 with
    | some v => queueFault (violation s (que s sl.queue).part 84 v (whoQ s sl.queue)) n 0x90 0
    | none =>
      let hdr := nth (cmdWords s n 1) 0
      let len := bits hdr 12 12
      let s1 := setSlot s n { sl with hdr := sl.buf.pos }
      if bits hdr 24 8 ≠ row.op then s
      else if kernelOnly row.op ∧ !(que s sl.queue).kernel then queueFault s1 n 0x21 row.op
      else if len = 0 ∨ (opLen row.op).getD len ≠ len ∨ sl.buf.words < sl.buf.pos + len then queueFault s1 n 0x22 row.op
      else match cmdFault s n len with
        | some v => queueFault (violation s1 (que s sl.queue).part 84 v (whoQ s sl.queue)) n 0x90 row.op
        | none =>
          let w := cmdWords s n len
          if !row.sel w then s
          else if 0 < sl.skip then skipCmd s1 n row.op w
          else runCmd s1 n row w

/-- A command with an unknown opcode faults the queue with 0x20 (R396). -/
def execUnknownOpcode (n : Slot) (s : State) : Out :=
  let sl := slotOf s n
  if !feRuns s ∨ !canDecode sl then .next s
  else match cmdFault s n 1 with
    | some v => .next (queueFault (violation s (que s sl.queue).part 84 v (whoQ s sl.queue)) n 0x90 0)
    | none =>
      let op := bits (nth (cmdWords s n 1) 0) 24 8
      if opcodes.contains op then .next s else .next (queueFault (setSlot s n { sl with hdr := sl.buf.pos }) n 0x20 op)

/-! ### Handle-table entries (R363 to R367) -/

/-- Reads the 16-byte entry of a context and index: its words, or the error that ends the read. -/
def handleRead (s : State) (c i : Nat) (ecc : Ecc) : Except Nat (List Nat) :=
  let x := ctxOf s c
  let a := x.table + 16 * i
  if ecc = .uncorrectable then .error 0x92
  else if (readFault s x.part a 16).isSome then .error 0x90
  else .ok (bytesWords (devBytes s x.part a 16))

/-- Records a handle-table read outside the partition's ranges (R310). -/
def handleReadReport (s : State) (c i e : Nat) (w : Who) : State :=
  if e = 0x90 then violation s (ctxOf s c).part 84 ((ctxOf s c).table + 16 * i) w else s

/-- The handle-table entry that a relocation missed arrives (R364, R367, R573): it is cached unless empty, and the
relocation is judged against it. A read that fails ends the command's job with the code; a ring entry's faults the
queue. -/
def execHandleEntryFetch (n : Slot) (ecc : Ecc) (s : State) : Out :=
  let sl := slotOf s n
  match sl.miss, sl.pfMiss with
  | some (c, i), _ =>
    let s0 := setSlot (mcEcc s ((ctxOf s c).table + 16 * i) ecc) n { sl with miss := none }
    if tablePending s c then .next (setSlot s n { sl with miss := none, mode := .held, hold := 6 })
    else match handleRead s c i ecc with
      | .ok w =>
        let s1 := relocInsert s0 c i w
        (match sl.entryWords with
         | some ew =>
           (match checkEntry w (nth ew 0) { read := true } with
            | .ok r => .next (entryBegin s1 n ew r)
            | .fault e => .next (queueFault s1 n e 0)
            | _ => .next s1)
         | none =>
           if bits (nth w 1) 24 8 = 0 then
             .next (queueFault s1 n 0xB0 (bits (devNat s (que s sl.queue).part (cmdAddr s n) 4) 24 8))
           else .next s1)
      | .error e =>
        let s1 := handleReadReport s0 c i e (whoQ s sl.queue)
        if sl.entryWords.isSome then .next (queueFault s1 n e 0)
        else
          let w := bytesWords (devBytes s (que s sl.queue).part (cmdAddr s n) 8)
          let op := bits (nth w 0) 24 8
          let s2 := if isJobCmd op w then (if e = 0x90 then instantJob s1 sl.queue e else failInstant s1 sl.queue e)
            else match (jobsOf s1 sl.queue).find? fun j => j.kind == .pass with
              | some j => if op = 0x12 then markJob s1 j.key e else queueFault s1 n e op
              | none => queueFault s1 n e op
          .next (pastCmd s2 n (bits (nth w 0) 12 12))
  | none, some (c, i) =>
    (match handleRead s c i ecc, sl.pf with
     | .ok w, some p => .next (prefetchRelocate (relocInsert (setSlot (mcEcc s ((ctxOf s c).table + 16 * i) ecc) n { sl with pfMiss := none }) c i w) n p)
     | _, _ => .next (setSlot (mcEcc s ((ctxOf s c).table + 16 * i) ecc) n { sl with pfMiss := none, pf := none }))
  | none, none => .next s

/-- Slots that wait for a change of context `c`'s table resume (R412, R418). -/
def resumeTableWaits (s : State) : State :=
  { s with slots := s.slots.map fun (n, x) =>
      if x.mode = .held ∧ x.hold = 6 then (n, { x with mode := .fetching, hold := 0 }) else (n, x) }

/-! ### Flow control (R400 to R407) -/

/-- NOP does nothing (R399). -/
def execNop (n : Slot) (s : State) : Out :=
  .next (decodeCmd s n { op := 0x00, act := fun s n w _ => pastCmd s n w.length })

/-- The target buffer that the words of a JUMP or CALL name (R401). -/
def targetBuf (w : List Nat) (r : Ref) : Buf :=
  let a := r.addr + nth w 2 / 4 * 4 + hi32 (bits (nth w 3) 0 8)
  { addr := a, words := min (bits (nth w 4) 0 24) ((r.bound - a) / 4) }

/-- The handle that JUMP, CALL and COND read (R401, R405). -/
def readNeed (w : List Nat) : List (Nat × Need) := [(nth w 1, { read := true })]

/-- The first of a command's references. -/
def ref0 (refs : List Ref) : Ref := refs.headD {}

/-- What the command does once its checks pass: JUMP replaces the current buffer with its target (R401). -/
def actJump (s : State) (n : Nat) (w : List Nat) (refs : List Ref) : State :=
  let sl := slotOf s n
  setSlot s n { sl with buf := targetBuf w (ref0 refs), skip := 0,
                        ahead := if sl.calls = [] then none else sl.ahead }

/-- JUMP replaces the current buffer with its target (R401). -/
def execJump (n : Slot) (s : State) : Out :=
  .next (decodeCmd s n { op := 0x01, needs := readNeed, act := actJump })

/-- What the command does once its checks pass: CALL pushes the word after itself and enters its target; a target of 0 words returns at once (R401). -/
def actCall (s : State) (n : Nat) (w : List Nat) (refs : List Ref) : State :=
  let s := pastCmd s n w.length
  let sl := slotOf s n
  let b := targetBuf w (ref0 refs)
  if b.words = 0 then s else setSlot s n { sl with buf := b, calls := sl.buf :: sl.calls }

/-- CALL pushes the word after itself and enters its target; a target of 0 words returns at once (R401). -/
def execCall (n : Slot) (s : State) : Out :=
  .next (decodeCmd s n { op := 0x02, needs := readNeed, act := actCall })

/-- What the command does once its checks pass: RETURN pops the top return point (R402). -/
def actRet (s : State) (n : Nat) (_w : List Nat) (_refs : List Ref) : State :=
  let sl := slotOf s n
  match sl.calls with
  | b :: r => setSlot s n { sl with buf := b, calls := r, skip := 0 }
  | [] => s

/-- RETURN pops the top return point (R402). -/
def execRet (n : Slot) (s : State) : Out :=
  .next (decodeCmd s n { op := 0x03, act := actRet })

/-- What the command does once its checks pass: LOOP opens a loop of COUNT passes, 0 read as 1 (R403). -/
def actLoop (s : State) (n : Nat) (w : List Nat) (_refs : List Ref) : State :=
  let s := pastCmd s n w.length
  let sl := slotOf s n
  setSlot s n { sl with loops := { left := max 1 (nth w 1), body := sl.buf.pos, depth := sl.calls.length } :: sl.loops }

/-- LOOP opens a loop of COUNT passes, 0 read as 1 (R403). -/
def execLoop (n : Slot) (s : State) : Out :=
  .next (decodeCmd s n { op := 0x04, act := actLoop })

/-- What the command does once its checks pass: ENDLOOP decrements the innermost loop and repeats its body or closes it (R403). -/
def actEndloop (s : State) (n : Nat) (w : List Nat) (_refs : List Ref) : State :=
  let sl := slotOf s n
  match sl.loops with
  | l :: r =>
    if l.left = 1 then pastCmd (setSlot s n { sl with loops := r }) n w.length
    else setSlot s n { sl with loops := { l with left := l.left - 1 } :: r, buf := { sl.buf with pos := l.body } }
  | [] => s

/-- ENDLOOP decrements the innermost loop and repeats its body or closes it (R403). -/
def execEndloop (n : Slot) (s : State) : Out :=
  .next (decodeCmd s n { op := 0x05, act := actEndloop })

/-- The compare functions, with `a` on the left (R244). -/
def compareFn (f a b : Nat) : Bool :=
  match f with
  | 0 => false | 1 => Nat.blt a b | 2 => a == b | 3 => Nat.ble a b | 4 => Nat.blt b a | 5 => a != b
  | 6 => Nat.ble b a | _ => true

/-- COND's comparison at an address inside its object or not (R405): the word is read, and SKIP commands are skipped on
failure. `fault` is the address at which the read is outside the partition's ranges. -/
def condAct (s : State) (n : Nat) (w : List Nat) (part a : Nat) (inside : Bool) (fault : Option Nat) : State :=
  let sl := slotOf s n
  let wide := bit (nth w 0) 3
  match fault with
  | some v => queueFault (violation s part 84 v (whoQ s sl.queue)) n 0x90 0x06
  | none =>
    let x := if inside then devNat s part a (if wide then 8 else 4) else 0
    let ref := if wide then nth w 4 + hi32 (nth w 5) else nth w 4
    let mask := if wide then nth w 6 + hi32 (nth w 7) else nth w 6
    let s := pastCmd s n w.length
    if compareFn (bits (nth w 0) 0 3) (Nat.land x mask) ref then s
    else setSlot s n { slotOf s n with skip := bits (nth w 8) 0 12 }

/-- The test of COND and its effect on what follows (R405, R406). A read outside the partition's ranges faults the
queue with 0x90. -/
def condTest (s : State) (n : Nat) (w : List Nat) (r : Ref) : State :=
  let part := (que s (slotOf s n).queue).part
  let len := if bit (nth w 0) 3 then 8 else 4
  let a := r.addr + nth w 2 / len * len + hi32 (bits (nth w 3) 0 8)
  let inside := Nat.ble (a + len) r.bound
  condAct s n w part a inside (if inside then readFault s part a len else none)

/-- Holds slot `n` with a decoded command for job order (R411). -/
def holdCmd (s : State) (n hold op : Nat) (w : List Nat) (refs : List Ref) : State :=
  setSlot s n { slotOf s n with mode := .held, hold := hold, held := some { op := op, words := w, refs := refs } }

/-- What the command does once its checks pass: COND tests a word in memory and skips SKIP commands on failure; with WAIT_IDLE it first waits for every earlier
job of the queue (R405, R406). -/
def actCond (s : State) (n : Nat) (w : List Nat) (refs : List Ref) : State :=
  if bit (nth w 0) 4 && !queueIdle s (slotOf s n).queue then holdCmd s n 3 0x06 w refs
  else condTest s n w (ref0 refs)

/-- COND tests a word in memory and skips SKIP commands on failure; with WAIT_IDLE it first waits for every earlier
job of the queue (R405, R406). -/
def execCond (n : Slot) (s : State) : Out :=
  .next (decodeCmd s n { op := 0x06, needs := readNeed, act := actCond })

/-! ### Job order (R410, R411) -/

/-- Whether the queue's previous job lets an in-order job begin: it has completed, or it is a model run handed to
the deadline monitor (R411). -/
def prevDone (s : State) (q : Nat) : Bool :=
  (jobsOf s q).all fun j => j.seq != (que s q).seq || j.kind == .runModel

/-- Whether every earlier job of the queue has started and relocated its handles (R411). -/
def allStarted (s : State) (q : Nat) : Bool := (jobsOf s q).all (·.relocated)

/-- Begins a job of slot `n` in place: the slot moves past the command and its timers of flow control stop
(R426). -/
def beginAt (s : State) (n k : Nat) : State :=
  let sl := slotOf s n
  setSlot s n { sl with mode := .fetching, hold := 0, held := none, flowFrom := none,
                        buf := { sl.buf with pos := sl.buf.pos + k } }

/-- Begins a job when its order condition holds; else the slot is held for job order (R411). -/
def startOr (ok : Bool) (op : Nat) (act : State → Nat → List Nat → List Ref → State) (s : State) (n : Nat)
    (w : List Nat) (refs : List Ref) : State :=
  if ok then act (beginAt s n w.length) n w refs else holdCmd s n 3 op w refs

end Sys2Proof.Machine
end

