-- ==== Sys2Proof/Machine/Sync.lean ====
section
/-!
DEFINITION. Semaphores, phased barriers, fences and releases (R269 to R301).
-/
namespace Sys2Proof.Machine

/-! ### Waits of a hardware slot -/

/-- The wait job of slot `n`'s queue. -/
def waitJob (s : State) (n : Nat) : Option Job :=
  (jobsOf s (slotOf s n).queue).find? fun j => j.kind == .wait

/-- Holds slot `n` in a wait (R290, R292). -/
def holdWait (s : State) (n hold : Nat) (sp : Option Spin) : State :=
  setSlot s n { slotOf s n with mode := .held, hold := hold, waitFrom := some s.now, spin := sp }

/-- The wait of slot `n` is met: its job completes and the slot fetches again (R289). -/
def waitMet (s : State) (n : Nat) : State :=
  let s1 := setSlot s n { slotOf s n with mode := .fetching, hold := 0, waitFrom := none, spin := none }
  match waitJob s n with
  | some j => endJob s1 j.key 0
  | none => s1

/-- The waits of a list of slots are met. -/
def waitsMet (s : State) : List Nat → State
  | [] => s
  | n :: ns => waitsMet (waitMet s n) ns

/-- The wait of slot `n` ends with an error that faults the queue (R290, R573). -/
def waitFault (s : State) (n err op : Nat) : State :=
  match waitJob s n with
  | some j => queueFault s n err op (some j.key)
  | none => queueFault s n err op

/-! ### Fence slots (R285, R286) -/

/-- Whether a signal to address `a` is in progress. -/
def signalling (s : State) (a : Nat) : Bool := (s.fsigs.any fun f => f.addr == a) || s.transits.any fun f => f.addr == a

/-- Whether fence slot `n` is pinned (R285): a queue waits on it, a signal to it is in progress, or its word is
being read. -/
def pinned (s : State) (n : Nat) : Bool :=
  let x := fslot s n
  x.valid && (!x.waiters.isEmpty || signalling s x.addr || s.pageIns.any fun p => p.into == some n)

/-- Whether fence slot `n` holds a fence whose word has been read. -/
def fslotReady (s : State) (n : Nat) : Bool := (fslot s n).valid && !(s.pageIns.any fun p => p.into == some n)

/-- The least recently used of a list of fence slots. -/
def lruOf (s : State) : List Nat → Option Nat
  | [] => none
  | n :: ns =>
    match lruOf s ns with
    | some m => if (fslot s n).used ≤ (fslot s m).used then some n else some m
    | none => some n

/-- Whether a fence slot has a status bit set (R286, R301). -/
def fslotFlagged (x : FSlot) : Bool := x.regress || x.abandoned || x.value == 2 ^ 64 - 1

/-- The slot a page-in takes (R286): a free one, else the least recently used one that is not pinned, those with
no status bit first. -/
def fslotTake (s : State) : Option Nat :=
  match (List.range 48).find? fun n => !(fslot s n).valid with
  | some n => some n
  | none =>
    match lruOf s ((List.range 48).filter fun n => !pinned s n && !fslotFlagged (fslot s n)) with
    | some n => some n
    | none => lruOf s ((List.range 48).filter fun n => !pinned s n)

/-- Marks fence slot `n` as used now. -/
def fslotUse (s : State) (n : Nat) : State :=
  let s := { s with fclock := s.fclock + 1 }
  setFslot s n { fslot s n with used := s.fclock }

/-- A wait takes fence slot `k`: the word is read again into it (R286 step 4). -/
def pageInto (s : State) (p : PageIn) (k : Nat) : State :=
  let s := setFslot s k { valid := true, addr := p.addr, part := p.part, waiters := [(p.slot, p.value)] }
  fslotUse { s with pageIns := s.pageIns ++ [{ p with into := some k }] } k

/-- A wait on a fence that is resident: met against its value, or counted among its waiters. -/
def waitResident (s : State) (k slot value : Nat) : State :=
  let s := fslotUse s k
  if feRuns s && fslotReady s k && Nat.ble value (fslot s k).value then waitMet s slot
  else setFslot s k { fslot s k with waiters := (fslot s k).waiters ++ [(slot, value)] }

/-- A wait asks for a slot: it joins its fence's slot when the fence has become resident, takes a slot, or joins
the queue of waits (R286). -/
def waitSlot (s : State) (p : PageIn) : State :=
  match fenceSlotOf s p.addr with
  | some k => waitResident s k p.slot p.value
  | none =>
    match fslotTake s with
    | some k => pageInto s p k
    | none => { s with fwaiting := s.fwaiting ++ [p] }

/-- Waits queued for a slot take slots that are no longer pinned, in arrival order (R286). -/
def fenceSettle (s : State) : Nat → State
  | 0 => s
  | k + 1 =>
    match s.fwaiting with
    | [] => s
    | p :: r =>
      if (fenceSlotOf s p.addr).isSome || (fslotTake s).isSome then fenceSettle (waitSlot { s with fwaiting := r } p) k
      else s

/-- The slots whose waits a value meets. -/
def metBy (v : Nat) (ws : List (Nat × Nat)) : List Nat := (ws.filter fun w => Nat.ble w.2 v).map (·.1)

/-- Every wait that fence slot `k`'s value meets resumes (R289); waits are judged in P0 alone (R550). -/
def fenceWake (s : State) (k : Nat) : State :=
  let x := fslot s k
  if !feRuns s then s
  else
  let s := setFslot s k { x with waiters := x.waiters.filter fun w => !Nat.ble w.2 x.value }
  waitsMet s (metBy x.value x.waiters)

/-- Slot `n` no longer waits on any fence (R290, R380 order 1). -/
def fenceForget (s : State) (n : Nat) : State :=
  let s := { s with fslots := s.fslots.map fun (k, x) => (k, { x with waiters := x.waiters.filter fun w => w.1 != n }),
                    fwaiting := s.fwaiting.filter fun p => p.slot != n,
                    pageIns := s.pageIns.filter fun p => p.slot != n || p.into.isSome }
  fenceSettle s s.fwaiting.length

/-! ### WAIT_FENCE and SIGNAL_FENCE (R293) -/

/-- The address WAIT_FENCE and SIGNAL_FENCE name (R293). -/
def fenceRef (w : List Nat) (i : Nat) (r : Ref) : Option Nat := fenceAddr r (nth w i + hi32 (bits (nth w (i + 1)) 0 8))

/-- The 64-bit value at word `i`, low word first. -/
def val64 (w : List Nat) (i : Nat) : Nat := nth w i + hi32 (nth w (i + 1))

/-- Begins a WAIT_FENCE as a job (R286, R290, R291). -/
def beginWaitFence (s : State) (n : Nat) (w : List Nat) (refs : List Ref) : State :=
  let q := (slotOf s n).queue
  let part := (que s q).part
  let v := val64 w 4
  let s := startJob s q .wait
  let s := holdWait s n 1 none
  match fenceRef w 2 (ref0 refs) with
  | none => if v = 0 then waitMet s n else s
  | some a =>
    match readFault s part a 8 with
    | some b =>
      let s1 := setSlot s n { slotOf s n with mode := .fetching, hold := 0, waitFrom := none }
      (match waitJob s n with
       | some j => endJob (violation s1 part 84 b (whoQ s q)) j.key 0x90
       | none => s1)
    | none =>
      match fenceSlotOf s a with
      | some k => waitResident s k n v
      | none => { s with pageIns := s.pageIns ++ [{ slot := n, addr := a, value := v, part := part }] }

/-- WAIT_FENCE holds the queue until the fence reaches VALUE (R293). -/
def actWaitFence (s : State) (n : Nat) (w : List Nat) (refs : List Ref) : State :=
  startOr (prevDone s (slotOf s n).queue) 0x08 beginWaitFence s n w refs

/-- WAIT_FENCE (R293). -/
def execWaitFence (n : Slot) (s : State) : Out :=
  .next (decodeCmd s n { op := 0x08, needs := fun w => [(nth w 1, { read := true, fence := true })],
                         act := actWaitFence })

/-- Takes effect of a SIGNAL_FENCE as a job that ends at once (R283, R291, R293). -/
def beginSignalFence (s : State) (n : Nat) (w : List Nat) (refs : List Ref) : State :=
  let q := (slotOf s n).queue
  let part := (que s q).part
  match fenceRef w 2 (ref0 refs) with
  | none => instantJob s q 0
  | some a =>
    match writeFault s part a 8 with
    | some b => instantJob (violation s part 84 b (whoQ s q)) q 0x90
    | none => sendSignal (instantJob s q 0) { addr := a, value := val64 w 4, tag := part, req := 84, queue := some q }

/-- SIGNAL_FENCE waits for every earlier job of the queue (R293). -/
def actSignalFence (s : State) (n : Nat) (w : List Nat) (refs : List Ref) : State :=
  startOr (queueIdle s (slotOf s n).queue) 0x09 beginSignalFence s n w refs

/-- SIGNAL_FENCE (R293). -/
def execSignalFence (n : Slot) (s : State) : Out :=
  .next (decodeCmd s n { op := 0x09, needs := fun w => [(nth w 1, { write := true, fence := true })],
                         act := actSignalFence })

/-! ### Signals (R281 to R287) -/

/-- The report of a signal below the fence's value (R282): 0x80, or 0x81 on an exhausted fence. -/
def regressRecord (s : State) (f : FSig) (u : Nat) : State :=
  append s { code := if u = 2 ^ 64 - 1 then 0x81 else 0x80, tag := f.tag, kind := 8, queue := f.queue,
             owner := (f.queue.map fun q => (que s q).owner).getD 0,
             detail := two f.addr ++ two u ++ two f.value }

/-- A signal takes effect on the fence of slot `k` (R282). -/
def signalSlot (s : State) (k : Nat) (f : FSig) : State :=
  let x := fslot s k
  let s := fslotUse s k
  if x.value < f.value then
    let s := devWrite (setFslot s k { fslot s k with value := f.value }) f.tag f.addr (leBytes 8 f.value)
    fenceWake s k
  else if f.value < x.value then regressRecord (setFslot s k { fslot s k with regress := true }) f x.value
  else s

/-- Takes the first signal whose fence is ready out of the list. -/
def readySignal (s : State) : List FSig → Option (FSig × Nat × List FSig)
  | [] => none
  | f :: r =>
    match fenceSlotOf s f.addr with
    | some k => if fslotReady s k then some (f, k, r) else (readySignal s r).map fun x => (x.1, x.2.1, f :: x.2.2)
    | none => (readySignal s r).map fun x => (x.1, x.2.1, f :: x.2.2)

/-- The fence unit applies the next signal to a resident fence (R282, R283). -/
def execFenceSignalApply (s : State) : Out :=
  match readySignal s s.fsigs with
  | none => .next s
  | some (f, k, r) =>
    let s := signalSlot { s with fsigs := r } k f
    .next (fenceSettle s s.fwaiting.length)

/-- The transit unit performs the oldest signal to a fence that is not resident (R287); an uncorrectable error
drops the signal and is logged as 0x92 (R573). -/
def execTransitSignal (ecc : Ecc) (s : State) : Out :=
  match s.transits with
  | [] => .next s
  | f :: r =>
    let s := mcEcc (bump { s with transits := r } (synBase + 0x8808)) f.addr ecc
    if ecc = .uncorrectable then
      .next (append s { code := 0x92, tag := f.tag, kind := 8, queue := f.queue,
                        owner := (f.queue.map fun q => (que s q).owner).getD 0, detail := two f.addr })
    else
      let u := devNat s f.tag f.addr 8
      if u < f.value then .next (devWrite s f.tag f.addr (leBytes 8 f.value))
      else if f.value < u then .next (regressRecord s f u)
      else .next s

/-- A fence word read for slot `n`'s wait arrives (R286, R287): the first reading meets the wait or takes a slot;
the reading into a slot judges its waits. An uncorrectable error faults the queue and the fence takes no slot
(R573). -/
def execFencePageIn (n : Slot) (ecc : Ecc) (s : State) : Out :=
  match s.pageIns.find? fun p => p.slot == n.val with
  | none => .next s
  | some p =>
    if !feRuns s || s.transits.any fun f => f.addr == p.addr then .next s
    else
      let s := mcEcc { s with pageIns := s.pageIns.filter fun x => x != p } p.addr ecc
      let v := devNat s p.part p.addr 8
      match p.into with
      | none =>
        if ecc = .uncorrectable then .next (waitFault s n 0x92 0x08)
        else if p.value ≤ v then .next (waitMet s n)
        else .next (waitSlot s p)
      | some k =>
        if ecc = .uncorrectable then
          let ws := (fslot s k).waiters.map (·.1)
          let s := setFslot s k {}
          let s := ws.foldl (fun t m => waitFault t m 0x92 0x08) s
          .next (fenceSettle s s.fwaiting.length)
        else
          let s := bump (setFslot s k { fslot s k with value := v }) (synBase + 0x8804)
          let s := fenceWake s k
          .next (fenceSettle s s.fwaiting.length)

/-- An engine signals a fence at a raw device address, as a release (R281, R291, R296). -/
def execEngineFenceSignal (e : Eng) (w : Fin 8) (addr : Nat) (v : Dword) (s : State) : Out :=
  let a := addr % 2 ^ 48 / 8 * 8
  match waveAt s e w with
  | none => .next s
  | some _ =>
    let tag := engPart s e
    match writeFault s tag a 8 with
    | some b => .next (endWork (violation s tag e b (whoWave s e w)) e w 0x90)
    | none => .next (releaseIssue s e (.fence a v.toNat tag (whoWave s e w).queue))

/-- The oldest release of an engine takes effect once every earlier store is acknowledged (R296). -/
def execReleaseComplete (e : Eng) (s : State) : Out :=
  let x := eng s e
  match x.releases with
  | [] => .next s
  | r :: rs => if x.outstanding ≠ 0 then .next s else .next (releaseApply (setEng s e { x with releases := rs }) e r)

/-! ### Engine operations on semaphores (R269 to R279) -/

/-- Runs `f` on the semaphore that wave `w` of engine `e` names in cycle `c`; one outside the partition ends the
work with 0x90 (R30, R269). -/
def engSem (s : State) (e w lq i c : Nat) (f : State → Nat → State) : State :=
  let s := atAclk s c
  match waveAt s e w with
  | none => s
  | some _ =>
    match semOf s (engPart s e) lq i with
    | some sem => f s sem
    | none => endWork (localViolation s (engPart s e) e (i % 512) true lq (whoWave s e w)) e w 0x90

/-- An engine issues WAIT (R270, R275): it polls until the value reaches `n`; 0 is met at once. -/
def execSemWait (e : Eng) (w : Fin 8) (lq : Nat) (i : Fin 512) (n : Word) (c : Nat) (s : State) : Out :=
  .next (engSem s e w lq i c fun s sem =>
    if n.toNat = 0 then flcAcquire s e
    else setSpin s e w (some { sem := sem, want := .atLeast n.toNat, issued := aclk s }))

/-- An engine's ADD, a release (R270, R271, R296). -/
def execSemAdd (e : Eng) (w : Fin 8) (lq : Nat) (i : Fin 512) (n : Word) (c : Nat) (s : State) : Out :=
  .next (engSem s e w lq i c fun s sem => releaseIssue s e (.add sem n.toNat))

/-- An engine's SUB, a release (R270, R296). -/
def execSemSub (e : Eng) (w : Fin 8) (lq : Nat) (i : Fin 512) (n : Word) (c : Nat) (s : State) : Out :=
  .next (engSem s e w lq i c fun s sem => releaseIssue s e (.sub sem n.toNat))

/-- An engine's ARRIVE for round `k` with `p` participants, a release (R278, R296). -/
def execSemArrive (e : Eng) (w : Fin 8) (lq : Nat) (i : Fin 512) (k p : BitVec 16) (c : Nat) (s : State) : Out :=
  .next (engSem s e w lq i c fun s sem => releaseIssue s e (.arrive w sem k.toNat p.toNat))

/-- An engine's BAR_WAIT for round `k` (R279). -/
def execSemBarWait (e : Eng) (w : Fin 8) (lq : Nat) (i : Fin 512) (k : BitVec 16) (c : Nat) (s : State) : Out :=
  .next (engSem s e w lq i c fun s sem =>
    setSpin s e w (some { sem := sem, want := .barrier k.toNat, issued := aclk s }))

/-- A poll reply for wave `w` of engine `e` (R275, R278, R279): the poll read the semaphore half a latency ago; a
wait that is met is an acquire, and one that is not met polls again at once. -/
def engPollReply (s : State) (e w : Nat) : State :=
  match (waveAt s e w).bind (·.spin) with
  | none => s
  | some sp =>
    let l := semLat s e sp.sem
    if aclk s < sp.issued + l then s
    else
      let again := setSpin s e w (some { sp with issued := aclk s })
      let v := pollRead s sp.sem l
      match sp.want with
      | .atLeast n => if n ≤ v then flcAcquire (setSpin s e w none) e else again
      | .barrier k => if barMet v k then flcAcquire (setSpin s e w none) e else again
      | .arrive k p =>
        let x := aclk s - (l - l / 2)
        let s' := engArrive s e w sp.sem x k p
        if barDist k (semIn s sp.sem x).result = 0 then flcAcquire s' e else s'

/-- A poll reply for slot `n` (R275, R292). -/
def slotPollReply (s : State) (n : Nat) : State :=
  let sl := slotOf s n
  match sl.spin with
  | none => s
  | some sp =>
    let l := semLatFe sp.sem
    if aclk s < sp.issued + l ∨ !feRuns s then s
    else
      let again := setSlot s n { sl with spin := some { sp with issued := aclk s } }
      let v := pollRead s sp.sem l
      match sp.want with
      | .atLeast k => if k ≤ v then waitMet s n else again
      | .barrier k => if barMet v k then waitMet s n else again
      | .arrive k p =>
        let x := aclk s - (l - l / 2)
        let d := barDist k (semIn s sp.sem x).result
        if d = 0 then
          setSlot (semArriveAt s sp.sem x 4 k p) n
            { sl with spin := some { sem := sp.sem, want := .barrier k, issued := aclk s } }
        else if d = 1 then again
        else
          let s1 := setSlot s n { sl with mode := .fetching, hold := 0, waitFrom := none, spin := none }
          match waitJob s n with
          | some j => failJob s1 j.key 0x83
          | none => s1

/-- A semaphore poll reply arrives in ACLK cycle `c` (R275): `u` below 64 is engine `u` with wave `w`, else
hardware slot `u` − 64. -/
def execSemPollReply (u : Fin 128) (w : Fin 8) (c : Nat) (s : State) : Out :=
  let s := atAclk s c
  if u.val < 64 then .next (engPollReply s u w) else .next (slotPollReply s (u.val - 64))

/-- `k` ACLK cycles have passed in which a wave of engine `e` spun and no wave issued other work (R299). -/
def execSpinPrescaler (e : Eng) (k : Nat) (s : State) : Out :=
  let x := eng s e
  if x.waves.any fun w => w.spin.isSome then
    let t := x.spinCycles + k
    .next (bump (setEng s e { x with spinCycles := t % 1024 }) (synBase + 0x9000 + 4 * e) (t / 1024))
  else .next s

/-! ### SEM_OP (R292) -/

/-- The semaphore a SEM_OP names: LQUAD is clamped to the partition's last logical quad. -/
def semOpTarget (s : State) (n : Nat) (w : List Nat) : Option Nat :=
  semClamped s (que s (slotOf s n).queue).part (bits (nth w 1) 16 4) (bits (nth w 1) 4 9)

/-- A SEM_OP whose partition holds no quad ends with 0x90 (R30). -/
def semOpRefused (s : State) (n : Nat) (w : List Nat) : State :=
  let q := (slotOf s n).queue
  instantJob (localViolation s (que s q).part 84 (bits (nth w 1) 4 9) true (bits (nth w 1) 16 4) (whoQ s q)) q 0x90

/-- Begins a SEM_OP WAIT. -/
def beginSemWait (s : State) (n : Nat) (w : List Nat) (_refs : List Ref) : State :=
  match semOpTarget s n w with
  | none => semOpRefused s n w
  | some sem =>
    if nth w 2 = 0 then instantJob s (slotOf s n).queue 0
    else holdWait (startJob s (slotOf s n).queue .wait) n 2
      (some { sem := sem, want := .atLeast (nth w 2), issued := aclk s })

/-- Takes effect of a SEM_OP ADD. -/
def beginSemAdd (s : State) (n : Nat) (w : List Nat) (_refs : List Ref) : State :=
  match semOpTarget s n w with
  | none => semOpRefused s n w
  | some sem => instantJob (semAdd s sem (nth w 2)) (slotOf s n).queue 0

/-- Takes effect of a SEM_OP SUB. -/
def beginSemSub (s : State) (n : Nat) (w : List Nat) (_refs : List Ref) : State :=
  match semOpTarget s n w with
  | none => semOpRefused s n w
  | some sem => instantJob (semSub s sem (nth w 2)) (slotOf s n).queue 0

/-- Begins a SEM_OP ARRIVE: the arrival is judged (R278), then the slot waits for the round (R279). -/
def beginSemArrive (s : State) (n : Nat) (w : List Nat) (_refs : List Ref) : State :=
  match semOpTarget s n w with
  | none => semOpRefused s n w
  | some sem =>
    let k := bits (nth w 2) 0 16
    let p := bits (nth w 2) 16 16
    let q := (slotOf s n).queue
    let d := barDist k (semIn s sem (aclk s)).result
    if d = 0 then
      holdWait (startJob (semArriveAt s sem (aclk s) 4 k p) q .wait) n 2
        (some { sem := sem, want := .barrier k, issued := aclk s })
    else if d = 1 then
      holdWait (startJob s q .wait) n 2 (some { sem := sem, want := .arrive k p, issued := aclk s })
    else failInstant s q 0x83

/-- SEM_OP WAIT starts in order. -/
def actSemOpWait (s : State) (n : Nat) (w : List Nat) (refs : List Ref) : State :=
  startOr (prevDone s (slotOf s n).queue) 0x0A beginSemWait s n w refs

/-- SEM_OP ADD waits for every earlier job. -/
def actSemOpAdd (s : State) (n : Nat) (w : List Nat) (refs : List Ref) : State :=
  startOr (queueIdle s (slotOf s n).queue) 0x0A beginSemAdd s n w refs

/-- SEM_OP SUB waits for every earlier job. -/
def actSemOpSub (s : State) (n : Nat) (w : List Nat) (refs : List Ref) : State :=
  startOr (queueIdle s (slotOf s n).queue) 0x0A beginSemSub s n w refs

/-- SEM_OP ARRIVE starts in order. -/
def actSemOpArrive (s : State) (n : Nat) (w : List Nat) (refs : List Ref) : State :=
  startOr (prevDone s (slotOf s n).queue) 0x0A beginSemArrive s n w refs

/-- SEM_OP WAIT holds the queue until the semaphore reaches N (R292). -/
def execSemOpWait (n : Slot) (s : State) : Out :=
  .next (decodeCmd s n { op := 0x0A, sel := fun w => bits (nth w 1) 0 2 == 0, act := actSemOpWait })

/-- SEM_OP ADD (R292). -/
def execSemOpAdd (n : Slot) (s : State) : Out :=
  .next (decodeCmd s n { op := 0x0A, sel := fun w => bits (nth w 1) 0 2 == 1, act := actSemOpAdd })

/-- SEM_OP SUB (R292). -/
def execSemOpSub (n : Slot) (s : State) : Out :=
  .next (decodeCmd s n { op := 0x0A, sel := fun w => bits (nth w 1) 0 2 == 2, act := actSemOpSub })

/-- SEM_OP ARRIVE then BAR_WAIT (R292). -/
def execSemOpArrive (n : Slot) (s : State) : Out :=
  .next (decodeCmd s n { op := 0x0A, sel := fun w => bits (nth w 1) 0 2 == 3, act := actSemOpArrive })

end Sys2Proof.Machine
end

