-- ==== Sys2Proof/Machine/Steps.lean ====
section
/-!
DEFINITION. Step tables and the sequencers that run them (R71 to R84, R189).
-/
namespace Sys2Proof.Machine

/-- Changes the sequencer of engine `e`. -/
def updSeq (s : State) (e : Nat) (f : Seq → Seq) : State := setEng s e { eng s e with seq := f (eng s e).seq }

/-- The ACLK cycle of a time in 256ths of a wake-oscillator cycle. -/
def aclkOf (s : State) (t256 : Nat) : Nat := s.aclkBase + (25 * ceilDiv t256 256 - s.aclkFrom) / aclkUnit s

/-- A sequencer's view of the phase (R71). -/
def seqPhase (s : State) : Nat := min 4095 ((aclk s - aclkOf s s.lc.tickAt) * 2 ^ 20 / max 1 s.lc.cLine)

/-- The start point of a step (R73): a line above the expected last line E is read as E:4,095 (R602). -/
def startPoint (s : State) (w : List Nat) : Nat × Nat :=
  let line := bits (nth w 0) 12 16
  if s.lc.lastLine < line then (s.lc.lastLine, 4095) else (line, bits (nth w 0) 0 12)

/-- Whether the view has reached a step's start point (R71). -/
def startReached (s : State) (w : List Nat) : Bool :=
  let p := startPoint s w
  Nat.blt p.1 s.lc.line || (p.1 == s.lc.line && Nat.ble p.2 (seqPhase s))

/-- The words of the next step of engine `e`. -/
def nextWords (s : State) (e : Nat) : List Nat := stepWords s e (eng s e).seq.plan.table (eng s e).seq.ptr

/-- The guard semaphore of a step's words in the model's partition. -/
def guardSem (s : State) (e : Nat) (w : List Nat) : Option Nat :=
  semOf s (eng s e).seq.plan.part (bits (nth w 3) 9 4) (bits (nth w 3) 0 9)

/-- The tester's first poll of the next step; a step without a guard is seen met at once (R76). -/
def firstPoll (s : State) (e : Nat) : State :=
  let g := bit (nth (nextWords s e) 2) 0
  updSeq s e fun q => { q with poll := if g then some (aclk s) else none, replied := false,
                               met := if g then none else some (aclk s) }

/-- A start point is first seen (R76): step `i` of engine `e`, in ACLK cycle `c`. The tester polls for the next
step at once. -/
def execStepStartPoint (e : Eng) (i : Fin 4096) (c : Nat) (s : State) : Out :=
  let s := atAclk s c
  let q := (eng s e).seq
  if q.armed ∧ q.frame.isSome ∧ q.ptr ≤ i ∧ i < q.plan.count ∧ (tabFind i q.seen).isNone ∧
      startReached s (stepWords s e q.plan.table i) then
    let s := updSeq s e fun q => { q with seen := (i.val, aclk s) :: q.seen }
    if q.ptr = i then .next (firstPoll s e) else .next s
  else .next s

/-- A guard poll's reply arrives in ACLK cycle `c` (R76): the guard is seen met, or the step is late and the tester
polls again. -/
def execGuardPollReply (e : Eng) (c : Nat) (s : State) : Out :=
  let s := atAclk s c
  let q := (eng s e).seq
  let w := nextWords s e
  match q.poll, guardSem s e w with
  | some t, some sem =>
    let l := semLat s e sem
    if aclk s < t + l then .next s
    else if nth w 4 ≤ pollRead s sem l then .next (updSeq s e fun q => { q with poll := none, replied := true,
                                                                                met := some (aclk s) })
    else if q.replied then .next (updSeq s e fun q => { q with poll := some (aclk s) })
    else
      let s := bump s (lcBase + 0x100 + 0x10 * e)
      .next (updSeq s e fun q => { q with poll := some (aclk s), replied := true, late := q.late + 1,
                                          lateStamp := if q.late = 0 then stamp s else q.lateStamp })
  | _, _ => .next s

/-- Reseeds the generators of engine `e` from ENG_SEED (R117, R139). -/
def reseed (s : State) (e step : Nat) : State :=
  let seed := BitVec.ofNat 64 (rd s (engOff e 0x0C) + 2 ^ 32 * rd s (engOff e 0x10))
  setEng s e { eng s e with gens := (List.range 192).map fun i => (i, seedGen seed step i) }

/-- Starts the next step of engine `e` (R77, R78, R91, R117): g0 to g2 are set, the generators are reseeded, and the
start is an acquire. -/
def startStep (s : State) (e : Nat) : State :=
  let q := (eng s e).seq
  let i := q.ptr
  let w := nextWords s e
  let now := aclk s
  let f := q.frame.getD 0
  let s := reseed (flcAcquire s e) e i
  let x := eng s e
  let g := tabPut (fun _ => 0#32) 0 (BitVec.ofNat 32 (nth w 6))
    (tabPut (fun _ => 0#32) 1 (BitVec.ofNat 32 i) (tabPut (fun _ => 0#32) 2 (BitVec.ofNat 32 f) x.stepG))
  let wave : Wave := { work := .step, g := g, pc := bits (nth w 5) 0 22 / 4 * 4, vbase := 0, blocks := List.range 8,
                       started := true, placedAt := now }
  let delay := now - (tabFind i q.seen).getD now
  let q' := { q with ptr := i + 1, poll := none, replied := false, met := none, delayMax := max q.delayMax delay,
                     cur := some { index := i, start := now, frame := f, variant := q.plan.variant, words := w,
                                   last := i + 1 == q.plan.count } }
  let s := setEng s e { x with seq := q', waves := x.waves ++ [wave] }
  if (tabFind (i + 1) q.seen).isSome then firstPoll s e else s

/-- A step starts in the cycle after its guard is seen met and its predecessor has ended (R77), in ACLK cycle
`c`. -/
def execStepStart (e : Eng) (c : Nat) (s : State) : Out :=
  let s := atAclk s c
  let q := (eng s e).seq
  match q.met, q.cur with
  | some m, none => if q.armed ∧ q.ptr < q.plan.count ∧ m < aclk s ∧ q.lastEnd < aclk s then .next (startStep s e)
                    else .next s
  | _, _ => .next s

/-- A running step's cycle MAX_CYC + 1 (R79), in ACLK cycle `c`. -/
def execStepOverrun (e : Eng) (c : Nat) (s : State) : Out :=
  let s := atAclk s c
  match (eng s e).seq.cur with
  | none => .next s
  | some r =>
    if r.overran ∨ aclk s < r.start + max 1 (bits (nth r.words 1) 0 24) then .next s
    else
      let s := bump s (lcBase + 0x108 + 0x10 * e)
      .next (updSeq s e fun q => { q with cur := some { r with overran := true }, overs := q.overs + 1,
                                          overStamp := if q.overs = 0 then stamp s else q.overStamp })

/-- The records of a frame that an engine's sequencer has ended (R81). -/
def seqRecords (s : State) (e f skipped : Nat) : State :=
  let q := (eng s e).seq
  let s := if q.late = 0 then s else
    appendAt s { code := 0x34, tag := q.plan.part, kind := 12, detail := [f, e, q.late] } q.lateStamp
  let s := if q.overs = 0 then s else
    appendAt s { code := 0x35, tag := q.plan.part, kind := 12, detail := [f, e, q.overs] } q.overStamp
  if skipped = 0 then s else append s { code := 0x36, tag := q.plan.part, kind := 12, detail := [f, e, skipped] }

/-- A frame boundary as engine `e` sees it, after the monitor has acted on it (R80, R81, R185 order 5): unstarted
steps are skipped, DELAY_MAX is set, and the pointer returns to entry 0 of what the engine runs next. -/
def execStepFrameBoundary (e : Eng) (s : State) : Out :=
  let q := (eng s e).seq
  if s.monFrame ≠ s.lc.frame ∨ q.frame = some s.lc.frame ∨ (!q.armed ∧ q.next = none) then .next s
  else
    let skipped := if q.armed ∧ q.frame.isSome then q.plan.count - q.ptr else 0
    let s := seqRecords s e (q.frame.getD 0) skipped
    let s := bump s (lcBase + 0x10C + 0x10 * e) skipped
    let s := if q.frame.isSome then wr s (lcBase + 0x104 + 0x10 * e) (min q.delayMax (2 ^ 32 - 1)) else s
    .next (updSeq s e fun q =>
      { q with armed := q.next.isSome, plan := q.next.getD q.plan, frame := if q.next.isSome then some s.lc.frame else none,
               ptr := 0, seen := [], poll := none, replied := false, met := none, delayMax := 0, late := 0, overs := 0,
               stopSent := q.stopSent && q.next.isNone, stopAsked := false,
               ended := q.ended.filter fun x => x.1 == s.lc.frame,
               failedSteps := q.failedSteps.filter fun x => x.1 == s.lc.frame })

/-- Sends a stop request to a list of engines; `sw` marks a switch of variant. -/
def sendStops (s : State) (sw : Bool) : List Nat → State
  | [] => s
  | e :: es =>
    sendStops (updSeq s e fun q => if q.armed || q.cur.isSome then { q with stopSent := true, stopSwitch := sw } else q)
      sw es

/-- Whether engine `e`'s sequencer has stopped. -/
def seqStopped (s : State) (e : Nat) : Bool :=
  let q := (eng s e).seq
  !q.armed && q.cur.isNone && !q.stopSent

end Sys2Proof.Machine
end

