-- ==== Sys2Proof/Machine/Monitor.lean ====
section
/-!
DEFINITION. The deadline monitor: runs, checkpoints, switches of variant, batches and engine loss (R174 to R198).
-/
namespace Sys2Proof.Machine

/-- Changes the resident model. -/
def updModel (s : State) (f : Model → Model) : State := { s with model := s.model.map f }

/-- Changes the active run. -/
def updRun (s : State) (f : Run → Run) : State := updModel s fun m => { m with run := m.run.map f }

/-- Changes the frame in progress of the active run. -/
def updFrame (s : State) (f : RunFrame → RunFrame) : State := updRun s fun r => { r with frame := r.frame.map f }

/-- The active run, if any. -/
def runOf (s : State) : Option Run := s.model.bind (·.run)

/-! ### Groups and bindings (R32, R163) -/

/-- The quads of group `g`: the partition's logical quad `g`, or its quads in the g-th of its sectors. -/
def groupQuads (s : State) (part : Nat) (sector : Bool) (g : Nat) : List Nat :=
  let qs := quadsOf s part
  if sector then
    match ((List.range 4).filter fun k => qs.any fun q => q / 4 == k)[g]? with
    | some k => qs.filter fun q => q / 4 == k
    | none => []
  else match qs[g]? with
    | some q => [q]
    | none => []

/-- Rebinds quad `q`'s logical positions over its live engines (R32, R123). -/
def rebindQuad (s : State) (q : Nat) : State :=
  let en := fld s (qdOff q 0) 0 4
  let bad := fld s (qdOff q 0) 4 4
  let s := setFld s (qdOff q 0) 8 4 (en - Nat.land en bad)
  let l := quadLive s q
  let w := fld s (qdOff q 4) 0 8
  let put := fun (w : Nat) (j : Nat) => match l[j]? with
    | some e => setBits w (2 * j) 2 (e % 4)
    | none => w
  wr s (qdOff q 4) (put (put (put (put w 0) 1) 2) 3 + 2 ^ 8 * l.length)

/-- Rebinds a list of quads. -/
def rebindQuads (s : State) : List Nat → State
  | [] => s
  | q :: qs => rebindQuads (rebindQuad s q) qs

/-- The live engines of a group in logical order. -/
def groupLive (s : State) (part : Nat) (sector : Bool) (g : Nat) : List Nat :=
  (groupQuads s part sector g).flatMap (quadLive s)

/-- The physical engine bound to a logical engine of a group. -/
def Model.engOf (m : Model) (g l : Nat) : Option Nat := (m.bind.find? fun b => b.1 == g && b.2.1 == l).map (·.2.2)

/-- The bound engines of a model. -/
def Model.engines (m : Model) : List Nat := m.bind.map (·.2.2)

/-- The group that holds a physical engine. -/
def modelGroupOf (s : State) (m : Model) (e : Nat) : Option Nat :=
  (List.range m.groups).find? fun g => (groupQuads s m.part m.sector g).contains (e / 4)

/-- The directory entries of a variant whose logical engine is bound, with the engine. -/
def Model.bound (m : Model) (v : Nat) : List (DirEnt × Nat) :=
  m.dir.filterMap fun d => if d.variant = v then (m.engOf d.group d.leng).map fun e => (d, e) else none

/-- What engine of directory entry `d` runs in a run of queue `q`. -/
def Model.plan (m : Model) (d : DirEnt) (q : Nat) : SeqPlan :=
  { part := m.part, variant := d.variant, queue := some q, table := d.table, count := d.count,
    traffic := (m.traffic.filter fun t => t.variant == d.variant && t.group == d.group && t.leng == d.leng).map
      (·.traffic) }

/-- Writes ENG_SEED of a variant's engines (R171 order 4). -/
def seedVariant (s : State) : List (DirEnt × Nat) → State
  | [] => s
  | (d, e) :: r => seedVariant (wr (wr s (engOff e 0x0C) d.seed) (engOff e 0x10) (d.seed / 2 ^ 32)) r

/-- Resets listed semaphores of the given kinds to INIT (R165). -/
def resetSems (s : State) (part : Nat) (kinds : List Nat) : List SemEnt → State
  | [] => s
  | x :: r =>
    let s := match semOf s part x.lquad x.index with
      | some sem => if kinds.contains x.resetAt then semSet s sem x.init else s
      | none => s
    resetSems s part kinds r

/-- The active variant becomes `v`. -/
def setVariant (s : State) (v : Nat) : State := updModel s fun m => { m with variant := v }

/-- At a frame boundary or rerun origin the engines get the seeds of the active variant, unless they hold them
(R171 order 4). -/
def seedActive (s : State) : State :=
  match s.model with
  | none => s
  | some m =>
    if m.seeds = m.variant then s
    else updModel (seedVariant s (m.bound m.variant)) fun m => { m with seeds := m.variant }

/-! ### The end of a run (R179) -/

/-- Ends a list of jobs without error. -/
def endJobs (s : State) : List Nat → State
  | [] => s
  | k :: ks => endJobs (endJob s k 0) ks

/-- The sequencers of a list of engines run nothing from the next frame boundary. -/
def planNone (s : State) : List Nat → State
  | [] => s
  | e :: es => planNone (updSeq s e fun q => { q with next := none }) es

/-- The run ends: its job completes with `code`, and stop commands that waited for it complete (R179). -/
def endRun (s : State) (code : Nat) : State :=
  match s.model, runOf s with
  | some m, some r =>
    let s := planNone s m.engines
    let s := updModel s fun m => { m with run := none }
    endJobs (endJob s r.key code) r.stopKeys
  | _, _ => s

/-- Whether a run's job has been told to stop (R179, R427). -/
def runStopping (s : State) (r : Run) : Bool := (jobOf s r.key).any fun j => j.stop.isSome

/-- A run told to stop ends once every sequencer of the model has stopped (R179, R427). -/
def settleRun (s : State) : State :=
  match s.model, runOf s with
  | some m, some r =>
    match (jobOf s r.key).bind (·.stop) with
    | some (_, code) =>
      if m.engines.all (seqStopped s) then endRun (jobRecord s r.queue code 7 ((que s r.queue).slot.getD 0) []) code else s
    | none => s
  | _, _ => s

/-- Engine `e` receives a stop request (R84, R189): it stops at once when no step runs. -/
def execEngineStopRequest (e : Eng) (s : State) : Out :=
  let q := (eng s e).seq
  if q.stopSent then
    .next (settleRun (updSeq s e fun q => { q with stopSent := false, stopAsked := q.cur.isSome,
                                                   armed := q.armed && q.cur.isSome }))
  else .next s

/-! ### RUN_MODEL (R174 to R176, R179) -/

/-- MODE of a RUN_MODEL: 0b11 reads as 0b10. -/
def runMode (w : List Nat) : Nat := min 2 (bits (nth w 1) 0 2)

/-- The handles of a RUN_MODEL: the output ring, and the fence with FENCE_EN; a stop reads none. -/
def runNeeds (w : List Nat) : List (Nat × Need) :=
  if runMode w = 2 then []
  else (nth w 4, { write := true }) ::
    (if bit (nth w 1) 9 then [(nth w 7, { write := true, fence := true })] else [])

/-- Whether a run of a queue's partition is refused (R72, R176). -/
def runRefused (s : State) (part : Nat) : Bool :=
  match s.model with
  | none => true
  | some m => m.part != part || m.unrunnable || m.run.isSome || !s.pll

/-- Begins a counted or continuous run: refused with 0x55, or handed to the monitor (R175, R176). -/
def beginRun (counted : Bool) (s : State) (n : Nat) (w : List Nat) (refs : List Ref) : State :=
  let q := (slotOf s n).queue
  let part := (que s q).part
  if runRefused s part then instantJob (jobRecord s q 0x55 13 0 []) q 0x55
  else
    let s := startJob s q .runModel
    let fence := bit (nth w 1) 9
    let ret := bits (nth w 1) 16 8
    let croc := match s.model with
      | some m => m.crocOnly || bit (nth w 1) 8
      | none => false
    updModel s fun m => { m with
      streak := 0,
      run := some { queue := q, key := s.jobKey, counted := counted, count := max 1 (nth w 2),
                    retFrames := if ret = 0 then 30 else ret, retSlack := bits (nth w 3) 0 24,
                    out := (ref0 refs).plus (nth w 5 + hi32 (bits (nth w 6) 0 8)),
                    entries := max 1 (bits (nth w 6) 16 16), fenceOn := fence,
                    fence := if fence then fenceRef w 8 (nthRef refs 1) else none,
                    fenceBase := val64 w 10, variant := if croc then 1 else 0 } }
where
  /-- Reference `i` of a command. -/
  nthRef (refs : List Ref) (i : Nat) : Ref := refs.getD i {}

/-- Begins a stop: without an active run it completes at once; else it completes with the run (R176, R179). -/
def beginRunStop (s : State) (n : Nat) (_w : List Nat) (_refs : List Ref) : State :=
  let q := (slotOf s n).queue
  match s.model, runOf s with
  | some m, some _ =>
    if m.part = (que s q).part then
      let s := startJob s q .runModel
      updRun s fun r => { r with stop := true, stopKeys := r.stopKeys ++ [s.jobKey] }
    else instantJob s q 0
  | _, _ => instantJob s q 0

/-- RUN_MODEL starts in order. -/
def actRunCounted (s : State) (n : Nat) (w : List Nat) (refs : List Ref) : State :=
  startOr (prevDone s (slotOf s n).queue) 0x15 (beginRun true) s n w refs

/-- RUN_MODEL starts in order. -/
def actRunContinuous (s : State) (n : Nat) (w : List Nat) (refs : List Ref) : State :=
  startOr (prevDone s (slotOf s n).queue) 0x15 (beginRun false) s n w refs

/-- RUN_MODEL starts in order. -/
def actRunStop (s : State) (n : Nat) (w : List Nat) (refs : List Ref) : State :=
  startOr (prevDone s (slotOf s n).queue) 0x15 beginRunStop s n w refs

/-- RUN_MODEL with MODE 0b00 (R174). -/
def execRunModelCounted (n : Slot) (s : State) : Out :=
  .next (decodeCmd s n { op := 0x15, sel := fun w => runMode w == 0, needs := runNeeds, act := actRunCounted })

/-- RUN_MODEL with MODE 0b01 (R174). -/
def execRunModelContinuous (n : Slot) (s : State) : Out :=
  .next (decodeCmd s n { op := 0x15, sel := fun w => runMode w == 1, needs := runNeeds, act := actRunContinuous })

/-- RUN_MODEL with MODE 0b10 or 0b11 (R174, R179). -/
def execRunModelStop (n : Slot) (s : State) : Out :=
  .next (decodeCmd s n { op := 0x15, sel := fun w => runMode w == 2, needs := runNeeds, act := actRunStop })

/-- The monitor arms the model's sequencers (R175): the run's first frame is the next one to begin. -/
def execRunArm (s : State) : Out :=
  match runOf s with
  | none => .next s
  | some r =>
    if r.armed ∨ runStopping s r then .next s
    else .next (updRun (setVariant s r.variant) fun r => { r with armed := true })

/-! ### Checkpoints (R186, R187) -/

/-- The steps of engine `e`'s table that carry checkpoint `id`. -/
def ckptSteps (s : State) (d : DirEnt) (e id : Nat) : List Nat :=
  (List.range d.count).filter fun i =>
    let w := nth (stepWords s e d.table i) 2
    bit w 2 && bits w 16 8 == id

/-- The cycles in which engine `e` ended steps of a frame and variant; none for a step that has not ended. -/
def endCycle (s : State) (e f v i : Nat) : Option Nat :=
  ((eng s e).seq.ended.find? fun x => x.1 == f && x.2.1 == v && x.2.2.1 == i).map (·.2.2.2)

/-- The cycle in which a checkpoint was met in frame `f`: the last end among its steps, once all have ended (R186). -/
def ckptMet (s : State) (m : Model) (c : Ckpt) (f : Nat) : Option Nat :=
  let ends := (m.bound c.variant).flatMap fun (d, e) => (ckptSteps s d e c.id).map fun i => endCycle s e f c.variant i
  if ends.all (·.isSome) then some (maxOf (ends.filterMap id)) else none

/-- Whether a checkpoint's deadline has been reached in the frame in progress; one above E is the frame boundary
(R186, R602). -/
def ckptDue (s : State) (c : Ckpt) : Bool :=
  Nat.ble c.line s.lc.lastLine && Nat.ble (c.phase + 4096 * c.line) (nowLp s)

/-- The ACLK cycle of a deadline in the frame in progress, from the frame's edge and line period. -/
def ckptCycle (s : State) (c : Ckpt) : Nat :=
  aclkOf s (256 * s.lc.edgeAt) + ceilDiv (c.line * s.lc.cLine) 256 + ceilDiv (c.phase * s.lc.cLine) (2 ^ 20)

/-- The slack of a checkpoint met in cycle `t` (R178). Before the frame boundary, the spec does not give the cycle
of a deadline that is read as that boundary: a free value. -/
def ckptSlack (s : State) (c : Ckpt) (t : Nat) : Int × State :=
  if c.line ≤ s.lc.lastLine then ((ckptCycle s c : Int) - (t : Int), s)
  else
    let r := free s
    ((r.1 % 2 ^ 31 : Nat), r.2)

/-- Error 0x51 for the frame, at most once (R193). -/
def logMissed (s : State) : State :=
  match s.model, runOf s with
  | some m, some r =>
    match r.frame with
    | some f =>
      let s := updFrame s fun f => { f with missed := true, logged51 := true }
      if f.logged51 then s
      else append s { code := 0x51, tag := m.part, kind := 13, queue := some r.queue, owner := (que s r.queue).owner }
    | none => s
  | _, _ => s

/-- Error 0x50 for the frame, at most once (R188). -/
def logFullMissed (s : State) : State :=
  match s.model, runOf s with
  | some m, some r =>
    match r.frame with
    | some f =>
      let s := updFrame s fun f => { f with logged50 := true }
      if f.logged50 then s
      else append s { code := 0x50, tag := m.part, kind := 13, queue := some r.queue, owner := (que s r.queue).owner }
    | none => s
  | _, _ => s

/-- Checkpoints of the full variant judged missed before the frame boundary: the switch to Crocus (R188), or a
missed output alone in a frame that was not LOCKED (R194). -/
def missFull (s : State) (m : Model) (id : Nat) : State :=
  let s := updFrame s fun f => { f with missCkpt := some (min id (f.missCkpt.getD id)) }
  if s.lc.notLocked then logMissed s
  else
    let s := logFullMissed (setVariant s 1)
    sendStops (updFrame s fun f => { f with stopping := true }) true m.engines

/-- Judges one checkpoint of the frame in progress (R187). -/
def judgeOne (s : State) (m : Model) (c : Ckpt) : State :=
  match (runOf s).bind (·.frame) with
  | none => s
  | some f =>
    if f.stopping ∨ f.producer ≠ c.variant ∨ f.recorded ∨ (f.judged.any fun j => j.1 == c.id) then s
    else if ckptDue s c then
      let s := updFrame s fun f => { f with judged := f.judged ++ [(c.id, none)] }
      if c.variant = 0 then missFull s m c.id else logMissed s
    else match ckptMet s m c f.number with
      | some t =>
        let r := ckptSlack s c t
        updFrame r.2 fun f => { f with judged := f.judged ++ [(c.id, some r.1)] }
      | none => s

/-- Judges a list of checkpoints in ascending order, so that a record names the lowest missed (R187). -/
def judgeAll (s : State) (m : Model) : List Ckpt → State
  | [] => s
  | c :: cs => judgeAll (judgeOne s m c) m cs

/-! ### Output records (R177, R178) -/

/-- Whether the bound engines were late or overran in the frame (R195). -/
def runRough (s : State) (m : Model) : Bool := m.engines.any fun e =>
  Nat.blt 0 (eng s e).seq.late || Nat.blt 0 (eng s e).seq.overs

/-- The smallest slack of the judged checkpoints, as 32 bits (R178). -/
def slackWord (f : RunFrame) : Nat :=
  match f.judged with
  | [] => 0x7FFFFFFF
  | _ =>
    if f.judged.any fun j => j.2.isNone then 0x80000000
    else
      let v := (f.judged.filterMap (·.2)).foldl min (2 ^ 31 - 1 : Int)
      ofSigned 32 (max (-(2 ^ 31 : Int)) v)

/-- The streak after the frame, as it stands (R195). -/
def streakAfter (s : State) (m : Model) (r : Run) (f : RunFrame) (locked cut : Bool) : Nat :=
  if f.began = 1 ∧ !f.rerun ∧ f.producer = 1 ∧ !m.crocOnly ∧ !f.missed ∧ locked ∧ !cut ∧ !(runRough s m) ∧
      f.judged.all fun j => match j.2 with
        | some v => decide ((r.retSlack : Int) ≤ v)
        | none => false
  then m.streak + 1 else 0

/-- The first six words of a frame's record (R178). -/
def recordWords (s : State) (m : Model) (r : Run) (f : RunFrame) (notLocked cut : Bool) : List Nat :=
  let mark := if f.missed then 2 else f.producer
  [f.number,
   mark + 4 * b2n f.rerun + 8 * b2n notLocked + 16 * b2n cut + 32 * b2n f.engLost + 64 * b2n m.crocOnly +
     128 * b2n f.missCkpt.isSome + 2 ^ 16 * f.missCkpt.getD 0,
   (m.batch.map fun x => 2 ^ x.slot).foldl (· + ·) 0,
   (r.done + 1) % 2 ^ 32, slackWord f, streakAfter s m r f (!notLocked) cut]

/-- The record of a frame falls due once every checkpoint of its producer has been judged (R177). -/
def recordIfJudged (s : State) : State :=
  match s.model with
  | none => s
  | some m =>
    match m.run with
    | none => s
    | some r =>
      match r.frame with
      | none => s
      | some f =>
        let cs := m.ckpts.filter fun c => c.variant == f.producer
        if f.stopping ∨ f.recorded ∨ cs = [] ∨ !(cs.all fun c => f.judged.any fun j => j.1 == c.id) ∨ f.engLost then s
        else
          updRun s fun r => { r with due := some (recordWords s m r f s.lc.notLocked false),
                                     frame := some { f with recorded := true } }

/-- Judges the checkpoints of the frame in progress and makes its record due when they are all judged. -/
def judgeNow (s : State) : State :=
  match s.model with
  | none => s
  | some m => recordIfJudged (judgeAll s m m.ckpts)

/-- A step's program ends in ACLK cycle `c` (R82, R186, R189). -/
def execStepEnd (e : Eng) (c : Nat) (s : State) : Out :=
  let s := atAclk s c
  if (eng s e).seq.cur.isSome then .next (settleRun (judgeNow (seqEnd s e false))) else .next s

/-- A deadline is reached in ACLK cycle `c`: checkpoints not met by then are judged missed (R187). -/
def execCheckpointDeadline (c : Nat) (s : State) : Out := .next (judgeNow (atAclk s c))

/-- Writes an output record and signals the run's fence (R177); a ring outside the partition's ranges ends the run
with 0x90. A counted run ends with its COUNT-th record (R179). -/
def writeRecord (s : State) (m : Model) (r : Run) (w : List Nat) : State :=
  let o := r.out.plus (32 * (r.done % r.entries))
  let data := wordBytes (w ++ [nowLp s, s.lc.frame])
  let s := updRun s fun r => { r with due := none, done := r.done + 1 }
  match refWriteFault s m.part o 32 with
  | some b => endRun (violation s m.part 87 b (whoQ s r.queue)) 0x90
  | none =>
    let s := refWrite s m.part o data
    let s := match r.fence with
      | some a =>
        (match writeFault s m.part a 8 with
         | some b => violation s m.part 87 b (whoQ s r.queue)
         | none => sendSignal s { addr := a, value := (r.fenceBase + r.done + 1) % 2 ^ 64, tag := m.part, req := 87,
                                  queue := some r.queue })
      | none => s
    if (r.counted ∧ r.done + 1 = r.count) ∨ (r.stop ∧ r.frame.isNone) then endRun s 0 else s

/-- The monitor writes the record that is due (R177). -/
def execOutputRecordWrite (s : State) : Out :=
  match s.model with
  | none => .next s
  | some m =>
    match m.run with
    | none => .next s
    | some r =>
      match r.due with
      | none => .next s
      | some w => .next (writeRecord s m r w)

/-! ### The rerun (R190) -/

/-- Starts the Crocus table of a list of engines from entry 0 in the frame in progress. -/
def rerunSeqs (s : State) (m : Model) (q : Nat) : List (DirEnt × Nat) → State
  | [] => s
  | (d, e) :: r =>
    rerunSeqs (updSeq s e fun x => { x with armed := true, plan := m.plan d q, next := none, frame := some s.lc.frame,
                                            ptr := 0, seen := [], poll := none, replied := false, met := none,
                                            stopAsked := false }) m q r

/-- In the cycle after the last engine stops, the Crocus rerun starts (R190). -/
def execRerunStart (s : State) : Out :=
  match s.model with
  | none => .next s
  | some m =>
    match m.run, m.run.bind (·.frame) with
    | some r, some f =>
      if !f.stopping ∨ f.engLost ∨ !(m.engines.all (seqStopped s)) then .next s
      else
        let s := resetSems s m.part [2] m.sems
        let s := seedActive s
        let s := rerunSeqs s m r.queue (m.bound 1)
        .next (updFrame s fun f => { f with stopping := false, rerun := true, producer := 1, judged := [] })
    | _, _ => .next s

/-! ### Joins and leaves (R182 to R185) -/

/-- Writes a status word (R183); one outside the partition's ranges is dropped and reported. -/
def writeStatus (s : State) (j : JoinReq) (code frame : Nat) : State :=
  match refWriteFault s j.tag j.status 8 with
  | some b => violation s j.tag 87 b (whoQ s j.queue)
  | none => refWrite s j.tag j.status (leBytes 8 (code + frame * 2 ^ 32))

/-- The request that the words of a STREAM_JOIN or STREAM_LEAVE make. -/
def joinReq (s : State) (n : Nat) (leave : Bool) (w : List Nat) (refs : List Ref) : JoinReq :=
  let q := (slotOf s n).queue
  let top := match s.model with
    | some m => if m.part = (que s q).part then m.maxStreams - 1 else 15
    | none => 15
  { leave := leave, slot := min (bits (nth w 1) 0 4) top, cap := bits (nth w 1) 4 3, vc := bits (nth w 1) 7 2,
    noRetry := bit (nth w 1) 16, status := (ref0 refs).plus (nth w 3 + hi32 (bits (nth w 4) 0 8)),
    tag := (que s q).part, queue := q }

/-- Whether a slot has a pending join. -/
def Model.joining (m : Model) (slot : Nat) : Option JoinReq := m.requests.find? fun j => !j.leave && j.slot == slot

/-- A join reaches the monitor (R182, R183). -/
def beginJoin (s : State) (n : Nat) (w : List Nat) (refs : List Ref) : State :=
  let j := joinReq s n false w refs
  let s := instantJob s j.queue 0
  match s.model with
  | none => writeStatus s j 7 0
  | some m =>
    if m.part ≠ j.tag then writeStatus s j 7 0
    else if m.batch.any (fun b => b.slot == j.slot) ∨ (m.joining j.slot).isSome then writeStatus s j 6 0
    else if (m.batch.any fun b => b.cap == j.cap && b.vc == j.vc) ∨
        (m.requests.any fun x => !x.leave && x.cap == j.cap && x.vc == j.vc) then writeStatus s j 8 0
    else writeStatus (updModel s fun m => { m with requests := m.requests ++ [j] }) j 1 0

/-- A leave reaches the monitor (R184). -/
def beginLeave (s : State) (n : Nat) (w : List Nat) (refs : List Ref) : State :=
  let j := joinReq s n true w refs
  let s := instantJob s j.queue 0
  match s.model with
  | none => writeStatus s j 7 0
  | some m =>
    if m.part ≠ j.tag then writeStatus s j 7 0
    else if m.batch.any fun b => b.slot == j.slot then updModel s fun m => { m with requests := m.requests ++ [j] }
    else match m.joining j.slot with
      | some k =>
        let s := updModel s fun m => { m with requests := m.requests.filter fun x => x != k }
        writeStatus (writeStatus s k 5 0) j 9 s.lc.frame
      | none => writeStatus s j 9 s.lc.frame

/-- The status word that a join or leave needs. -/
def streamNeeds (w : List Nat) : List (Nat × Need) := [(nth w 2, { write := true })]

/-- STREAM_JOIN starts in order. -/
def actStreamJoin (s : State) (n : Nat) (w : List Nat) (refs : List Ref) : State :=
  startOr (prevDone s (slotOf s n).queue) 0x16 beginJoin s n w refs

/-- STREAM_LEAVE starts in order. -/
def actStreamLeave (s : State) (n : Nat) (w : List Nat) (refs : List Ref) : State :=
  startOr (prevDone s (slotOf s n).queue) 0x17 beginLeave s n w refs

/-- STREAM_JOIN (R182). -/
def execStreamJoin (n : Slot) (s : State) : Out :=
  .next (decodeCmd s n { op := 0x16, needs := streamNeeds, act := actStreamJoin })

/-- STREAM_LEAVE (R184). -/
def execStreamLeave (n : Slot) (s : State) : Out :=
  .next (decodeCmd s n { op := 0x17, needs := streamNeeds, act := actStreamLeave })

/-- Leaves take effect in order of arrival: the region becomes free (R185 order 1). -/
def applyLeaves (s : State) : List JoinReq → State
  | [] => s
  | j :: r =>
    let s := if j.leave then
        writeStatus (updModel s fun m => { m with batch := m.batch.filter fun b => b.slot != j.slot,
                                                  requests := m.requests.filter fun x => x != j }) j 9 s.lc.frame
      else s
    applyLeaves s r

/-- Pending joins in order of arrival: each takes the lowest free region, or is deferred or refused (R185 order 2). -/
def applyJoins (s : State) : List JoinReq → State
  | [] => s
  | j :: r =>
    let s := if j.leave then s else
      match s.model with
      | none => s
      | some m =>
        match (List.range m.capacity).find? fun k => !(m.batch.any fun b => b.region == k) with
        | some k =>
          writeStatus (updModel s fun m => { m with
            batch := m.batch ++ [{ slot := j.slot, region := k, cap := j.cap, vc := j.vc }],
            requests := m.requests.filter fun x => x != j }) j 2 s.lc.frame
        | none =>
          if j.noRetry then
            writeStatus (updModel s fun m => { m with requests := m.requests.filter fun x => x != j }) j 4 0
          else writeStatus s j 3 0
    applyJoins s r

/-! ### Frame boundaries (R185 to R196) -/

/-- What the frame that has ended leaves behind (R187, R191 to R196): misses judged at the boundary, a record that
is still due, the streak and the return to the full variant. -/
def closeFrame (s : State) (m : Model) (r : Run) (f : RunFrame) : State :=
  let cut := s.lc.prevCut
  let bad := s.lc.prevNotLocked || cut
  let cs := m.ckpts.filter fun c => c.variant == f.producer
  let left := cs.filter fun c => !(f.judged.any fun j => j.1 == c.id)
  let met := left.filterMap fun c => (ckptMet s m c f.number).map fun t => ((c.id, some ((aclkOf s (256 * s.lc.edgeAt) : Int) - (t : Int))) : Nat × Option Int)
  let late := left.filter fun c => !(met.any fun j => j.1 == c.id)
  let s := if f.recorded then s else
    updFrame s fun f => { f with judged := f.judged ++ met ++ (late.map fun c => (c.id, none)) }
  let s :=
    if f.recorded then s
    else if f.stopping ∨ f.engLost then logMissed s
    else if late = [] then s
    else if f.producer = 0 then
      let s := updFrame s fun f => { f with missCkpt := some ((late.map (·.id)).foldl min (f.missCkpt.getD 255)) }
      if bad then logMissed s else logMissed (logFullMissed (setVariant s 1))
    else logMissed s
  let f' := ((runOf s).bind (·.frame)).getD f
  let streak := streakAfter s m r f' (!s.lc.prevNotLocked) cut
  let s := if f.recorded then s else updRun s fun r => { r with due := some (recordWords s m r f' s.lc.prevNotLocked cut) }
  let s := updModel s fun m => { m with streak := streak }
  if r.retFrames ≤ streak ∧ !m.crocOnly then
    append (updModel (setVariant s 0) fun m => { m with streak := 0 })
      { code := 0x53, tag := m.part, kind := 13, queue := some r.queue, owner := (que s r.queue).owner }
  else s

/-- Writes the batch word of a list of engines (R181). -/
def writeBatch (s : State) (m : Model) : List (DirEnt × Nat) → State
  | [] => s
  | (d, e) :: r =>
    let mask := (m.batch.map fun x => 2 ^ x.slot).foldl (· + ·) 0
    let regions := (m.batch.map fun x => x.region * 16 ^ x.slot).foldl (· + ·) 0
    let data := wordBytes [mask, regions % 2 ^ 32, regions / 2 ^ 32, s.lc.frame]
    writeBatch { s with tile := s.tile.writeBytes (e * 2 ^ 22 + d.batch) data } m r

/-- Gives the sequencers of a list of engines what they run from this boundary. -/
def planSeqs (s : State) (m : Model) (q : Nat) : List (DirEnt × Nat) → State
  | [] => s
  | (d, e) :: r => planSeqs (updSeq s e fun x => { x with next := some (m.plan d q) }) m q r

/-- The run goes into the frame that begins, ends with the frame that has ended, or waits for an engine loss to be
repaired (R175, R179, R197). -/
def openFrame (s : State) : State :=
  match s.model with
  | none => s
  | some m =>
    match m.run with
    | none => s
    | some r =>
      let s := planNone s m.engines
      if r.stop then
        (if r.due.isSome then updRun s fun r => { r with frame := none } else endRun s 0)
      else if r.counted ∧ r.count ≤ r.done + b2n r.due.isSome then updRun s fun r => { r with frame := none }
      else if !r.armed then s
      else
        let lost := m.loss.isSome
        let s := updRun s fun r => { r with frame := some { number := s.lc.frame, began := m.variant,
                                                            producer := m.variant, engLost := lost, missed := lost } }
        let s := updJob s r.key fun j => { j with since := s.now }
        if lost then s else planSeqs (seedActive s) m r.queue (m.bound m.variant)

/-- At a frame boundary the monitor acts in the order of R185: leaves, joins, the variant, semaphores, batch words
and sequencers. -/
def execMonitorFrameBoundary (s : State) : Out :=
  if s.monFrame = s.lc.frame then .next s
  else
    let s := { s with monFrame := s.lc.frame }
    match s.model with
    | none => .next s
    | some m =>
      let reqs := m.requests
      let s := match m.run, m.run.bind (·.frame) with
        | some r, some f => closeFrame s m r f
        | _, _ => s
      let old := m.batch.map fun b => (b.cap, b.vc)
      let s := applyJoins (applyLeaves s reqs) reqs
      let new := ((s.model.map (·.batch)).getD []).map fun b => (b.cap, b.vc)
      let s := capRebinds s ((old.filter fun x => !new.contains x) ++ new.filter fun x => !old.contains x)
      let s := resetSems s m.part [1, 2] m.sems
      let s := match s.model with
        | some m => writeBatch s m (m.bound m.variant)
        | none => s
      .next (openFrame s)

/-! ### Engine loss (R197, R198) -/

/-- Engine `e` of the partition has been declared failed (R197 order 1). -/
def modelEngineLost (s : State) (e : Nat) : State :=
  match s.model with
  | none => s
  | some m =>
    match modelGroupOf s m e with
    | none => s
    | some _ =>
      let l := m.loss.getD {}
      let s := updModel s fun m => { m with loss := some { l with engines := l.engines ++ [e], reloading := false } }
      let s := updSeq s e fun q => { q with armed := false, next := none, stopSent := false, stopAsked := false }
      if m.run.isSome then
        let s := setVariant s 1
        let s := updFrame s fun f => { f with stopping := true, engLost := true, missed := true }
        sendStops s true (m.engines.filter fun x => x != e)
      else s

/-- The records of the engines of a loss. -/
def lossRecords (s : State) (part : Nat) : List Nat → State
  | [] => s
  | e :: es => lossRecords (append s { code := 0x52, tag := part, kind := 1, unit := e, eflan := true }) part es

/-- The binding of a group's logical engines to its live engines (R32). -/
def bindGroup (s : State) (m : Model) (g : Nat) : List (Nat × Nat × Nat) :=
  let live := groupLive s m.part m.sector g
  (List.range (min live.length (max m.fullEng m.crocEng))).map fun l => (g, l, live.getD l 0)

/-- Once every live engine has stopped after a loss, Eflan logs 0x52, rebinds the groups concerned, and starts the
reload, or the model becomes unrunnable and its run ends with 0x52 (R197 orders 2 and 3). -/
def execModelEngineLossRebind (s : State) : Out :=
  match s.model with
  | none => .next s
  | some m =>
    match m.loss with
    | none => .next s
    | some l =>
      if l.reloading ∨ !(m.engines.all (seqStopped s)) then .next s
      else
        let gs := (List.range m.groups).filter fun g => l.engines.any fun e => modelGroupOf s m e == some g
        let s := lossRecords s m.part l.engines
        let s := rebindQuads s (gs.flatMap (groupQuads s m.part m.sector))
        let bind := (m.bind.filter fun b => !gs.contains b.1) ++ gs.flatMap (bindGroup s m)
        let s := updModel s fun m => { m with bind := bind, loss := some { l with reloading := true } }
        if gs.any fun g => Nat.blt (groupLive s m.part m.sector g).length m.crocEng then
          let s := endRun s 0x52
          .next (updModel s fun m => { m with unrunnable := true, loss := none })
        else .next s

/-- Copies the images of directory entries from the package to their engines (R171, R197). -/
def copyImages (s : State) (addr : Nat) : List (DirEnt × Nat) → State
  | [] => s
  | (d, e) :: r =>
    copyImages { s with tile := s.tile.writeBytes (e * 2 ^ 22 + d.imgTm) (devBytes s tagM (addr + d.imgOff) d.imgSize) }
      addr r

/-- The Crocus reload ends (R197 orders 3 and 4): the model is Crocus-only and its run resumes at the next frame
boundary. A package read that fails makes the model unrunnable and ends its run with 0x52. -/
def execModelReloadComplete (ecc : Ecc) (s : State) : Out :=
  match s.model with
  | none => .next s
  | some m =>
    match m.loss with
    | none => .next s
    | some l =>
      if !l.reloading then .next s
      else
        let gs := (List.range m.groups).filter fun g => l.engines.any fun e => modelGroupOf s m e == some g
        let ds := (m.bound 1).filter fun x => gs.contains x.1.group
        let bad := if ecc = .uncorrectable then some (0x92, m.addr)
          else (readFault s m.part m.addr m.size).map fun b => (0x90, b)
        let s := mcEcc s m.addr ecc
        match bad with
        | some (code, a) =>
          let s := append s { code := code, tag := m.part, kind := 15, eflan := true, detail := two a }
          let s := endRun s 0x52
          .next (updModel s fun m => { m with unrunnable := true, loss := none })
        | none =>
          let s := copyImages s m.addr ds
          let s := resetSems s m.part [0, 1, 2] (m.sems.filter fun x =>
            gs.any fun g => (groupQuads s m.part m.sector g).contains ((quadsOf s m.part).getD x.lquad 16))
          .next (updModel s fun m => { m with crocOnly := true, variant := 1, seeds := 2, streak := 0, loss := none })

end Sys2Proof.Machine
end

