-- ==== Sys2Proof/Machine/PassOps.lean ====
section
/-!
DEFINITION. The pass descriptor's fields after their clamps (R241), tile ownership (R214, R215) and the residency
footprint (R216).
-/
namespace Sys2Proof.Machine

/-! ### The pass descriptor (R241); `d` is its words -/

/-- ORIGIN_X. -/
def pdOriginX (d : List Nat) : Nat := min 16320 (bits (nth d 13) 0 15 / 64 * 64)

/-- ORIGIN_Y. -/
def pdOriginY (d : List Nat) : Nat := min 16320 (bits (nth d 13) 16 15 / 64 * 64)

/-- WIDTH. -/
def pdWidth (d : List Nat) : Nat := clampTo 1 (16384 - pdOriginX d) (bits (nth d 0) 0 15)

/-- HEIGHT. -/
def pdHeight (d : List Nat) : Nat := clampTo 1 (16384 - pdOriginY d) (bits (nth d 0) 16 15)

/-- Samples per pixel: 1, 2 or 4. -/
def pdSamples (d : List Nat) : Nat := 2 ^ min 2 (bits (nth d 1) 0 2)

/-- DS_FMT: 0 none, 1 D16, 2 D24S8, 3 D32F, 4 S8. -/
def pdDsFmt (d : List Nat) : Nat := let f := bits (nth d 1) 2 3; if 5 ≤ f then 0 else f

/-- ATT_COUNT. -/
def pdAtts (d : List Nat) : Nat := min 4 (bits (nth d 1) 5 3)

/-- DS_LOAD: 0 clear, 1 load, 2 don't care. -/
def pdDsLoad (d : List Nat) : Nat := min 2 (bits (nth d 1) 8 2)

/-- Whether DS_STORE stores. -/
def pdDsStore (d : List Nat) : Bool := !bit (nth d 1) 10

/-- RES_TM. -/
def pdResTm (d : List Nat) : Nat := bits (nth d 4) 0 22 / 16 * 16

/-- RES_SIZE. -/
def pdResSize (d : List Nat) : Nat := min (bits (nth d 5) 0 23) (4194304 - pdResTm d)

/-- Word `k` of attachment `i`. -/
def pdAttWord (d : List Nat) (i k : Nat) : Nat := nth d (16 + 8 * i + k)

/-- FORMAT of attachment `i`: 0 RGBA8888, 1 BGRA8888, 2 RGBA1010102, 3 RGB565, 4 RGBA16F. -/
def pdAttFmt (d : List Nat) (i : Nat) : Nat := let f := bits (pdAttWord d i 0) 0 3; if 5 ≤ f then 0 else f

/-- LOAD of attachment `i`. -/
def pdAttLoad (d : List Nat) (i : Nat) : Nat := min 2 (bits (pdAttWord d i 0) 3 2)

/-- STORE of attachment `i`; a resolve at 1 sample acts as store. -/
def pdAttStore (d : List Nat) (i : Nat) : Nat :=
  let x := bits (pdAttWord d i 0) 5 2
  if pdSamples d = 1 ∧ 2 ≤ x then 0 else x

/-- RESIDENT of attachment `i`. -/
def pdAttResident (d : List Nat) (i : Nat) : Bool := bit (pdAttWord d i 0) 7

/-- PITCH of attachment `i`. -/
def pdAttPitch (d : List Nat) (i : Nat) : Nat := bits (pdAttWord d i 4) 0 24 / 256 * 256

/-- DS_PITCH. -/
def pdDsPitch (d : List Nat) : Nat := bits (nth d 12) 0 24 / 256 * 256

/-- Bytes per sample of a colour FORMAT. -/
def colBytes (f : Nat) : Nat := if f = 3 then 2 else if f = 4 then 8 else 4

/-- Bytes per sample of a DS_FMT. -/
def dsBytes (f : Nat) : Nat := nth [0, 2, 4, 4, 1] f

/-! ### Tiles -/

/-- Tiles in a row. -/
def pdTw (d : List Nat) : Nat := (pdWidth d + 63) / 64

/-- Rows of tiles. -/
def pdTh (d : List Nat) : Nat := (pdHeight d + 63) / 64

/-- The logical engine that owns tile `l` of `n` owners (R214). -/
def tileOwner (l n : Nat) : Nat := if n = 0 then 0 else (l + l / n) % n

/-- The resident footprint of tile `l` for one attachment (R216). -/
def tileBytes (d : List Nat) (l perSample : Nat) : Nat :=
  let w := (min 64 (pdWidth d - 64 * (l % pdTw d)) + 7) / 8 * 8
  let h := (min 64 (pdHeight d - 64 * (l / pdTw d)) + 7) / 8 * 8
  w * h * pdSamples d * perSample

/-- The tiles that logical owner `i` of `n` owns, ascending. -/
def tilesOf (d : List Nat) (i n : Nat) : List Nat :=
  (List.range (pdTw d * pdTh d)).filter fun l => tileOwner l n == i

/-- DS(e) of logical owner `i` of `n` (R216). -/
def ownerDs (d : List Nat) (i n : Nat) : Nat :=
  ((tilesOf d i n).map fun l => tileBytes d l (dsBytes (pdDsFmt d))).sum

/-- COL(e) of logical owner `i` of `n` (R216). -/
def ownerCol (d : List Nat) (i n : Nat) : Nat :=
  ((List.range (pdAtts d)).map fun a =>
    if pdAttResident d a then ((tilesOf d i n).map fun l => tileBytes d l (colBytes (pdAttFmt d a))).sum else 0).sum

/-- The owners of a pass that still live. -/
def Pass.alive (p : Pass) : List Nat := p.owners.filter fun e => !p.failed.contains e

/-- The logical position of owner `e` in a pass. -/
def Pass.posOf (p : Pass) (e : Nat) : Nat := p.owners.findIdx (· == e)

/-- The tiles that owner `e` holds. -/
def Pass.tilesOn (p : Pass) (e : Nat) : List Nat :=
  if p.owners.contains e then tilesOf p.desc (p.posOf e) p.owners.length else []

/-- Bytes of residency that owner `e` holds. -/
def Pass.resOn (p : Pass) (e : Nat) : Nat :=
  ownerDs p.desc (p.posOf e) p.owners.length + ownerCol p.desc (p.posOf e) p.owners.length

/-- The active pass of a partition (R201). -/
def passOf (s : State) (p : Nat) : Option Pass := s.passes.find? (·.part == p)

/-- Changes the active pass of a partition. -/
def updPass (s : State) (p : Nat) (f : Pass → Pass) : State :=
  { s with passes := s.passes.map fun x => if x.part = p then f x else x }

/-- A register of SEC_PASS[p] (R246). -/
def passOff (p r : Nat) : Nat := secBase + 0x800 + 0x40 * p + r

end Sys2Proof.Machine
end

