-- ==== Sys2Proof/Machine/Compute.lean ====
section
/-!
DEFINITION. Compute dispatch and the choice of pre-emption victims (R247 to R261, R268).
-/
namespace Sys2Proof.Machine

/-! ### Live ranges (R249, R257) -/

/-- Changes the dispatch with a key. -/
def updDisp (s : State) (key : Nat) (f : Disp → Disp) : State :=
  { s with disps := s.disps.map fun d => if d.key = key then f d else d }

/-- The pre-empted job with a key. -/
def preOf (s : State) (key : Nat) : Option Pre := s.pres.find? (·.key == key)

/-- Changes the pre-empted job with a key. -/
def updPre (s : State) (key : Nat) (f : Pre → Pre) : State :=
  { s with pres := s.pres.map fun x => if x.key = key then f x else x }

/-- Compression engine `k`. -/
def cxOf (s : State) (k : Nat) : CxSt := tabGet (fun _ => {}) k s.cx

/-- Replaces compression engine `k`. -/
def setCx (s : State) (k : Nat) (x : CxSt) : State := { s with cx := tabPut (fun _ => {}) k x s.cx }

/-- Whether the transfer of a job on engine `e` runs on its sector's compression engine. -/
def xferOn (s : State) (key e : Nat) : Bool :=
  match (cxOf s (e / 16)).xfer with
  | some x => x.key == key && x.eng == e
  | none => false

/-- Whether a pass holds its live range on owner `e` (R249): from its first visit there, but for the time from the
end of its spill there until its restore there begins. -/
def passHolds (s : State) (p : Pass) (e : Nat) : Bool :=
  p.alive.contains e && p.held.contains e &&
    (match preOf s p.key with
     | none => true
     | some x => x.unspilled.contains e || x.restored.contains e || xferOn s p.key e)

/-- The live ranges held on engine `e`: queue, base and size (R249, R257). -/
def liveOn (s : State) (e : Nat) : List (Nat × Nat × Nat) :=
  (s.disps.filterMap fun d => if d.used.contains e then some (d.queue, d.tmBase, d.tmLive) else none)
    ++ s.passes.filterMap fun p =>
      if passHolds s p e then some (p.queue, pdResTm p.desc, pdResSize p.desc) else none

/-- Whether two ranges of bytes overlap. -/
def overlaps (a n b m : Nat) : Bool := n != 0 && m != 0 && Nat.blt a (b + m) && Nat.blt b (a + n)

/-- Whether a job of another queue holds a live range on engine `e` that overlaps a range. -/
def liveClash (s : State) (e queue base size : Nat) : Bool :=
  (liveOn s e).any fun x => x.1 != queue && overlaps base size x.2.1 x.2.2

/-- Whether a restore is in progress or pending on engine `e` (R249). -/
def restorePending (s : State) (e : Nat) : Bool :=
  s.pres.any fun x => x.phase == .restoring && (x.ranges.any fun r => r.1 == e) && !x.restored.contains e

/-! ### Placement (R249 to R254) -/

/-- The unallocated blocks of 16 vector registers of engine `e` (R89). -/
def freeBlocks (s : State) (e : Nat) : List Nat :=
  (List.range 8).filter fun b => (eng s e).waves.all fun w => !w.blocks.contains b

/-- Whether engine `e` can take `k` waves of a dispatch (R249). -/
def canTake (s : State) (d : Disp) (e k : Nat) : Bool :=
  engLive s e && !(eng s e).inReset && engPart s e == d.part
    && Nat.ble ((eng s e).waves.length + k) 8 && Nat.ble (k * d.vblk) (freeBlocks s e).length
    && !restorePending s e && !liveClash s e d.queue d.tmBase d.tmLive
    && (match preOf s d.key with
        | some x => x.restored.contains e
        | none => true)

/-- Waves of one workgroup (R248). -/
def Disp.waves (d : Disp) : Nat := (d.wgSize + 511) / 512

/-- The workgroups of a dispatch. -/
def Disp.total (d : Disp) : Nat := d.gx * d.gy * d.gz

/-- The live engines of quad `q` in logical order. -/
def quadOrder (s : State) (q : Nat) : List Nat :=
  ((List.range (lmapCount s q)).map (lmapAt s q)).filter (engLive s)

/-- The engine of each wave of a quad workgroup (R250). -/
def quadWaves (s : State) (d : Disp) (q : Nat) : List Nat :=
  let l := quadOrder s q
  if l = [] then [] else (List.range d.waves).map fun j => l.getD (j % l.length) 0

/-- Where the next workgroup goes among the quads allowed: the engine of each of its waves (R250, R251). -/
def placeAt (s : State) (d : Disp) (ok : Nat → Bool) : Option (List Nat) :=
  if d.quadScope then
    ((quadsOf s d.part).filter ok).findSome? fun q =>
      let l := quadWaves s d q
      if l ≠ [] ∧ l.all (fun e => canTake s d e (l.filter (· == e)).length) then some l else none
  else (((logEngs s d.part).filter fun e => ok (e / 4)).find? fun e => canTake s d e 1).map fun e => [e]

/-- Whether quad `q` has placed no workgroup in the present cycle (R251). -/
def quadFresh (s : State) (q : Nat) : Bool := tabFind q s.placedIn != some (aclk s)

/-- Whether a dispatch has a workgroup waiting for placement. -/
def dispWaits (s : State) (d : Disp) : Bool :=
  Nat.blt d.next d.total
    && (match jobOf s d.key with
        | some j => j.stop.isNone && j.err == 0
        | none => false)
    && (que s d.queue).slot.isSome
    && (match preOf s d.key with
        | some x => x.phase == .restoring
        | none => true)

/-- The slot of a queue, 64 for none. -/
def slotNo (s : State) (q : Nat) : Nat := (que s q).slot.getD 64

/-- The dispatch with the least slot. -/
def leastSlot (s : State) : List Disp → Option Disp
  | [] => none
  | d :: r =>
    match leastSlot s r with
    | some x => if slotNo s d.queue ≤ slotNo s x.queue then some d else some x
    | none => some d

/-- The dispatch of partition `p` served next (R254): highest priority, and in turn by slot among equals. -/
def nextDisp (s : State) (p : Nat) : Option Disp :=
  let l := s.disps.filter fun d => d.part == p && dispWaits s d
  let top := maxOf (l.map fun d => effPrio s d.queue)
  let l := l.filter fun d => effPrio s d.queue == top
  match tabFind p s.lastServed with
  | some k =>
    match leastSlot s (l.filter fun d => Nat.blt k (slotNo s d.queue)) with
    | some d => some d
    | none => leastSlot s l
  | none => leastSlot s l

/-- Adds wave `j` of workgroup `g` of a dispatch to engine `e` (R89, R248). -/
def addWave (s : State) (d : Disp) (g j e : Nat) : State :=
  let b := (freeBlocks s e).take d.vblk
  let w : Wave := { work := .compute, job := d.key, group := g, index := j, pc := d.entry, vbase := 16 * b.headD 0,
                    blocks := b, placedAt := aclk s,
                    mask := 2 ^ min 512 (d.wgSize - 512 * j) - 1 }
  setEng s e { eng s e with waves := (eng s e).waves ++ [w] }

/-- Adds the waves of a workgroup. -/
def addWaves (s : State) (d : Disp) (g j : Nat) : List Nat → State
  | [] => s
  | e :: es => addWaves (addWave s d g j e) d g (j + 1) es

/-- The timer of a pre-empted job resumes (R261, R265). -/
def resumeTimer (s : State) (key : Nat) : State :=
  updJob s key fun j =>
    match j.paused with
    | some t => { j with since := j.since + (s.now - t), paused := none }
    | none => j

/-- Places the next workgroup of a dispatch. -/
def placeGroup (s : State) (d : Disp) (l : List Nat) : State :=
  let s := resumeTimer (addWaves s d d.next 0 l) d.key
  let s := updDisp s d.key fun d => { d with next := d.next + 1, used := (d.used ++ l).eraseDups }
  { s with placedIn := tabInsert (l.headD 0 / 4) (aclk s) (tabDrop (l.headD 0 / 4) s.placedIn),
           lastServed := tabInsert d.part (slotNo s d.queue) (tabDrop d.part s.lastServed) }

/-! ### Pre-emption: the choice, and draining (R258 to R261) -/

/-- Bytes that a spill of `l` live bytes moves (R259). -/
def spillBytes (l : Nat) : Nat := if l = 0 then 64 else 64 + 32 + l + 16 * ((l + 65535) / 65536)

/-- Bytes of one spill slot (R259). -/
def spillSlot (liveMax : Nat) : Nat := (spillBytes liveMax + 255) / 256 * 256

/-- Puts a transfer behind those that wait from an earlier cycle, or the same cycle with a lower partition or
logical engine (R263). -/
def xferInsert (x : Xfer) : List Xfer → List Xfer
  | [] => [x]
  | y :: r =>
    if x.since < y.since ∨ (x.since = y.since ∧ (x.part < y.part ∨ (x.part = y.part ∧ x.leng < y.leng)))
    then x :: y :: r else y :: xferInsert x r

/-- Whether a wave of a job is resident on engine `e`. -/
def waveOf (s : State) (key e : Nat) : Bool := (eng s e).waves.any fun w => w.work == .compute && w.job == key

/-- Engine `e` is drained for a victim: its spill waits (R261). -/
def drainEng (s : State) (key e : Nat) : State :=
  match preOf s key with
  | none => s
  | some x =>
    match x.ranges.find? (·.1 == e) with
    | none => s
    | some r =>
      let s := updPre s key fun x => { x with undrained := x.undrained.filter (· != e) }
      { s with xfers := xferInsert { part := x.part, key := key, eng := e, leng := logIndex s e, base := r.2.1,
                                     size := r.2.2, restore := false, since := aclk s } s.xfers }

/-- Drains a list of engines of a victim that hold no wave of it. -/
def drainList (s : State) (key : Nat) : List Nat → State
  | [] => s
  | e :: es => drainList (if waveOf s key e then s else drainEng s key e) key es

/-- Drains every engine of every victim whose last wave has ended. -/
def drainAll (s : State) : List Pre → State
  | [] => s
  | x :: r => drainAll (if x.phase = .spilling then drainList s x.key x.undrained else s) r

/-! ### Restores that become ready (R265) -/

/-- Whether a queue's slot holds a RENDER_PASS that waits at OP 0 (R265). -/
def waitsPass (s : State) (q : Nat) : Bool :=
  s.slots.any fun x => x.2.valid && x.2.queue == q && (x.2.held.map (·.op)) == some 0x11

/-- Whether queue `t` has a job that runs or waits and uses engine placement (R265). -/
def usesEngines (s : State) (t : Nat) : Bool :=
  (s.disps.any fun d => d.queue == t) || (s.passes.any fun x => x.queue == t) || waitsPass s t

/-- Whether a spilled job may be restored: its queue is in a slot, and no queue of its partition with a higher priority
uses engine placement (R265, R266). -/
def mayRestore (s : State) (x : Pre) : Bool :=
  (que s x.queue).slot.isSome
    && !(s.slots.any fun n => n.2.valid && (que s n.2.queue).part == x.part
          && Nat.blt (effPrio s x.queue) (effPrio s n.2.queue) && usesEngines s n.2.queue)

/-- The next engine of sector `k` that a restoring job waits for, in ascending logical order; none while one of the
sector is under way or waits (R265). -/
def restoreNext (s : State) (x : Pre) (k : Nat) : Option (Nat × Nat × Nat) :=
  let mine := (logEngs s x.part).filterMap fun e => x.ranges.find? fun r => r.1 == e && e / 16 == k
  let left := mine.filter fun r => !x.restored.contains r.1
  if left.any fun r => xferOn s x.key r.1 || s.xfers.any fun t => t.key == x.key && t.eng == r.1 then none
  else left.find? fun r => !liveClash s r.1 x.queue r.2.1 r.2.2

/-- The restores of a job that have become ready join the transfers that wait. -/
def restoreReady (s : State) (x : Pre) : List Nat → State
  | [] => s
  | k :: ks =>
    let s := match restoreNext s x k with
      | none => s
      | some r =>
        { s with xfers := xferInsert { part := x.part, key := x.key, eng := r.1, leng := logIndex s r.1, base := r.2.1,
                                       size := r.2.2, restore := true, since := aclk s } s.xfers }
    restoreReady s x ks

/-- Judges a list of pre-empted jobs for their restore (R265): a spilled one that may be restored begins, and one whose
every engine is restored goes on. -/
def restoreList (s : State) : List Pre → State
  | [] => s
  | x :: r =>
    let s :=
      if x.phase = .spilling then s
      else if x.phase = .spilled ∧ !mayRestore s x then s
      else
        let s := updPre s x.key fun x => { x with phase := .restoring }
        if x.ranges.all fun r => x.restored.contains r.1 then
          let s := { s with pres := s.pres.filter (·.key != x.key) }
          if s.passes.any fun p => p.key == x.key then resumeTimer s x.key else s
        else restoreReady s x (List.range 4)
    restoreList s r

/-- Restores that have become ready wait from now on (R265). -/
def restoreScan (s : State) : State := restoreList s s.pres

/-- A job that could be a victim: its key, queue and live ranges. -/
def victims (s : State) (p prio : Nat) : List (Nat × Nat × List (Nat × Nat × Nat)) :=
  let ok (key q : Nat) : Bool := (que s q).preempt && Nat.blt (effPrio s q) prio && (preOf s key).isNone
    && (match jobOf s key with
        | some j => j.stop.isNone
        | none => false)
  (s.disps.filterMap fun d =>
    if d.part = p ∧ ok d.key d.queue then some (d.key, d.queue, d.used.map fun e => (e, d.tmBase, d.tmLive)) else none)
    ++ s.passes.filterMap fun x =>
      if x.part = p ∧ ok x.key x.queue ∧ pdResSize x.desc ≤ (que s x.queue).liveMax then
        some (x.key, x.queue, (x.alive.filter (x.held.contains ·)).map fun e => (e, pdResTm x.desc, x.resOn e))
      else none

/-- The victim: the lowest priority, and the one that started last among equals (R260). -/
def chooseVictim (s : State) : List (Nat × Nat × List (Nat × Nat × Nat)) → Option (Nat × Nat × List (Nat × Nat × Nat))
  | [] => none
  | v :: r =>
    match chooseVictim s r with
    | none => some v
    | some x =>
      if effPrio s v.2.1 < effPrio s x.2.1 ∨ (effPrio s v.2.1 = effPrio s x.2.1 ∧ x.1 < v.1) then some v else some x

/-- A blocked job of priority `prio` makes the dispatchers of partition `p` choose a victim, unless a pre-emption is
in progress (R260, R261). -/
def preempt (s : State) (p prio : Nat) : State :=
  if s.pres.any fun x => x.part == p && x.phase == .spilling then s
  else match chooseVictim s (victims s p prio) with
    | none => s
    | some (key, q, ranges) =>
      let es := ranges.map (·.1)
      let x : Pre := { key := key, queue := q, part := p, ranges := ranges, undrained := es, unspilled := es,
                       phase := if es = [] then .spilled else .spilling }
      let s := updJob { s with pres := s.pres ++ [x] } key fun j => { j with paused := some (j.paused.getD s.now) }
      drainList s key es

/-- Places the next workgroup of partition `p`, or chooses a victim when its job is blocked (R250, R251, R260). -/
def dispatchStep (s : State) (p : Nat) : State :=
  match nextDisp s p with
  | none => s
  | some d =>
    match placeAt s d (quadFresh s) with
    | some l => placeGroup s d l
    | none =>
      if (placeAt s d fun _ => true).isSome ∨ (preOf s d.key).isSome then s else preempt s p (effPrio s d.queue)

/-- A quad dispatcher of partition `p` places the next workgroup in ACLK cycle `c`, on the first free engine or
quad; a job that is blocked may choose a victim (R250, R260). -/
def execWorkgroupPlace (p : Part) (c : Nat) (s : State) : Out :=
  let s := dispatchStep (atAclk s c) p
  .next (restoreScan (drainAll s s.pres))

/-! ### DISPATCH (R247, R253) -/

/-- Whether a partition holds the resident model (R172). -/
def modelPart (s : State) (p : Nat) : Bool :=
  match s.model with
  | some m => m.part == p
  | none => false

/-- Whether a partition has a live engine (R577). -/
def anyLive (s : State) (p : Nat) : Bool := (quadsOf s p).any fun q => !(quadLive s q).isEmpty

/-- The dispatch that a command's words describe, after their clamps (R247). -/
def dispOf (s : State) (q key : Nat) (w : List Nat) (arg : Ref) : Disp :=
  let quad := bit (nth w 1) 0
  let base := bits (nth w 8) 0 22 / 16 * 16
  let live := min (bits (nth w 9) 0 23 / 16 * 16) (4194304 - base)
  { key := key, queue := q, part := (que s q).part, quadScope := quad, vblk := clampTo 1 8 (bits (nth w 1) 4 4),
    wgSize := clampTo 1 (if quad then 2048 else 512) (bits (nth w 1) 16 12), entry := bits (nth w 2) 0 22 / 4 * 4,
    gx := bits (nth w 3) 0 16, gy := bits (nth w 3) 16 16, gz := bits (nth w 4) 0 8,
    arg := arg.addr + nth w 6 + hi32 (bits (nth w 7) 0 8), tmBase := base,
    tmLive := if (que s q).preempt then min live (que s q).liveMax else live }

/-- Begins a DISPATCH: refused with 0x56 in a model partition (R172) and 0x70 without a live engine (R577); an
empty grid completes at once (R247). -/
def beginDispatch (s : State) (n : Nat) (w : List Nat) (refs : List Ref) : State :=
  let q := (slotOf s n).queue
  if modelPart s (que s q).part then failInstant s q 0x56
  else if !anyLive s (que s q).part then failInstant s q 0x70
  else
    let d := dispOf s q 0 w (ref0 refs)
    if d.total = 0 then instantJob s q 0
    else
      let s := startJob s q .dispatch
      { s with disps := s.disps ++ [{ d with key := s.jobKey }] }

/-- Whether the queue's previous job is a dispatch that has placed its last workgroup (R253). -/
def prevPlaced (s : State) (q : Nat) : Bool :=
  (jobsOf s q).all fun j => j.seq != (que s q).seq
    || s.disps.any fun d => d.key == j.key && Nat.ble d.total d.next

/-- What the command does once its checks pass: a DISPATCH starts in order, or earlier with OVERLAP (R253). -/
def actDispatch (s : State) (n : Nat) (w : List Nat) (refs : List Ref) : State :=
  let q := (slotOf s n).queue
  startOr (prevDone s q || (bit (nth w 1) 1 && prevPlaced s q)) 0x10 beginDispatch s n w refs

/-- DISPATCH starts a compute job over a grid of workgroups (R247). -/
def execDispatch (n : Slot) (s : State) : Out :=
  .next (decodeCmd s n { op := 0x10, needs := fun w => [(nth w 5, { read := true })], act := actDispatch })

/-! ### Waves of a dispatch (R248, R255) -/

/-- The scalar registers of a wave at its start (R248): g0 to g4, and free values in the rest. -/
def waveRegs (s : State) (d : Disp) (x : Wave) (e ep : Nat) : List (Nat × Word) :=
  [(0, BitVec.ofNat 32 d.arg), (1, BitVec.ofNat 32 (bits d.arg 32 16)), (2, BitVec.ofNat 32 x.group),
   (3, BitVec.ofNat 32 (bits x.group 32 8 + x.index % 16 * 2 ^ 8)), (4, BitVec.ofNat 32 (logIndex s e))]
    ++ (List.range 27).map fun i => (i + 5, Config.freeWord ep (2 ^ 20 + i))

/-- Vector register 0 of a wave at its start: each work-item's local index (R248). -/
def waveV0 (x : Wave) : List (Nat × Word) :=
  (List.range 512).map fun i => (x.vbase * 512 + i, BitVec.ofNat 32 (x.index * 512 + i))

/-- Wave `w` of engine `e` issues its first instruction, 32 cycles after its placement or later (R248, R251). At the
first wave of a job on an engine the generators are reseeded with step index 0 (R117), and the job's start is an
acquire (R111). -/
def execWaveStart (e : Eng) (w : Fin 8) (c : Nat) (s : State) : Out :=
  let s := atAclk s c
  match waveAt s e w with
  | none => .next s
  | some x =>
    match s.disps.find? (·.key == x.job) with
    | none => .next s
    | some d =>
      if x.work ≠ .compute ∨ x.started ∨ aclk s < x.placedAt + 32 then .next s
      else
        let first := !(eng s e).seeded.contains d.key
        let s := if first then
            let s := reseed (flcAcquire s e) e 0
            setEng s e { eng s e with seeded := d.key :: (eng s e).seeded }
          else s
        let (ep, s) := (s.fresh, { s with fresh := s.fresh + 1 })
        let s := setWave s e w { x with started := true, epoch := ep, g := waveRegs s d x e ep }
        let mine (k : Nat) : Bool := x.blocks.contains (k / 512 / 16)
        .next (setEng s e { eng s e with vreg := (eng s e).vreg.filter (fun v => !mine v.1) ++ waveV0 x })

/-- Wave `w` of engine `e` ends its program in ACLK cycle `c` (R255). The job's last wave on the engine writes the
far-line cache back (R111), and an engine may be drained for a victim (R261). -/
def execWaveEnd (e : Eng) (w : Fin 8) (c : Nat) (s : State) : Out :=
  let s := atAclk s c
  match waveAt s e w with
  | none => .next s
  | some x =>
    if x.work ≠ .compute ∨ !x.started ∨ x.spin.isSome then .next s
    else
      let s := dropWave s e w
      let s := if waveOf s x.job e then s else flcClean s e
      .next (restoreScan (drainAll s s.pres))

/-! ### Completion (R255, R268) -/

/-- Removes what a job has in the dispatchers and among the transfers that wait. -/
def dropDisp (s : State) (key : Nat) : State :=
  { s with disps := s.disps.filter (·.key != key), pres := s.pres.filter (·.key != key),
           xfers := s.xfers.filter (·.key != key) }

/-- Ends a dispatch: with the error it met, else 0x70 when it lost workgroups, else 0x71 when it lost live data; a
job told to stop ends with that code. Eflan's record carries the count of lost workgroups and the lowest index
(R268). -/
def endDisp (s : State) (d : Disp) : State :=
  match jobOf s d.key with
  | none => dropDisp s d.key
  | some j =>
    let s := dropDisp s d.key
    if j.stop.isSome then stopJob s d.key
    else if j.err ≠ 0 then endJob s d.key j.err
    else if d.lost ≠ 0 then
      endJob (append s { code := 0x70, tag := d.part, kind := 1, unit := d.lostEng, queue := some d.queue,
                         owner := (que s d.queue).owner, eflan := true, detail := d.lost :: two d.lostLow }) d.key 0x70
    else if d.lostData then
      endJob (append s { code := 0x71, tag := d.part, kind := 1, unit := d.lostEng, queue := some d.queue,
                         owner := (que s d.queue).owner, eflan := true }) d.key 0x71
    else endJob s d.key 0

/-- Whether every store of the engines that a dispatch uses is acknowledged (R255). -/
def storesDone (s : State) (es : List Nat) : Bool := es.all fun e => flcIsClean s e && (eng s e).outstanding == 0

/-- Whether a job has a wave on any engine. -/
def anyWave (s : State) (key : Nat) : Bool :=
  s.engines.any fun x => x.2.waves.any fun w => w.work == .compute && w.job == key

/-- Whether a dispatch has ended: nothing is left to place, no wave is resident, and its stores are acknowledged. -/
def dispEnded (s : State) (d : Disp) : Bool :=
  (Nat.ble d.total d.next || (match jobOf s d.key with
    | some j => j.stop.isSome || j.err != 0
    | none => true)) && !anyWave s d.key && storesDone s d.used

/-- Once a partition without a resident model has no job, Eflan rebinds the logical positions of its quads that have
lost an engine (R123, R252). -/
def rebindIdle (s : State) (p : Nat) : State :=
  if (s.jobs.any fun j => j.part == p) || modelPart s p then s
  else rebindQuads s ((quadsOf s p).filter fun q => fld s (qdOff q 0) 4 4 != 0)

/-- The dispatch of queue `q` completes (R255), and failed positions may be rebound (R252). -/
def execDispatchComplete (q : Qid) (s : State) : Out :=
  match s.disps.find? fun d => d.queue == q.val && dispEnded s d with
  | some d => .next (restoreScan (rebindIdle (endDisp s d) d.part))
  | none => .next s

/-! ### Engine loss (R268, R267, R577) -/

/-- The distinct workgroups of a job on engine `e`. -/
def groupsOn (s : State) (key e : Nat) : List Nat :=
  (((eng s e).waves.filter fun w => w.work == .compute && w.job == key).map (·.group)).eraseDups

/-- Drops the waves of a list of workgroups of a job from every engine. -/
def dropGroups (s : State) (key : Nat) (gs : List Nat) : State :=
  { s with engines := s.engines.map fun (e, x) =>
      (e, { x with waves := x.waves.filter fun w => !(w.work == .compute && w.job == key && gs.contains w.group) }) }

/-- A dispatch loses what it has on engine `e`: its workgroups there, and with `data` its live range. -/
def dispLoses (s : State) (d : Disp) (e : Nat) (data : Bool) : State :=
  let gs := groupsOn s d.key e
  let s := dropGroups s d.key gs
  updDisp s d.key fun d =>
    { d with lostEng := if gs ≠ [] ∨ (data ∧ d.used.contains e) then e else d.lostEng,
             lostLow := if gs = [] then d.lostLow
                        else gs.foldl min (if d.lost = 0 then gs.headD 0 else d.lostLow),
             lost := d.lost + gs.length,
             lostData := d.lostData || (data && d.used.contains e && d.tmLive != 0),
             used := if data then d.used.filter (· != e) else d.used }

/-- Each dispatch of a list loses what it has on engine `e`. -/
def dispsLose (s : State) (e : Nat) (data : Bool) : List Disp → State
  | [] => s
  | d :: r => dispsLose (dispLoses s d e data) e data r

/-- A pre-empted job loses its live range on a failed engine `e` (R267). -/
def preLoses (s : State) (e : Nat) (x : Pre) : State :=
  if !(x.ranges.any fun r => r.1 == e) ∨ x.restored.contains e then s
  else
    let s := updPre s x.key fun x =>
      let left := x.unspilled.filter (· != e)
      { x with ranges := x.ranges.filter (·.1 != e), undrained := x.undrained.filter (· != e), unspilled := left,
               phase := if x.phase = .spilling ∧ left = [] then .spilled else x.phase }
    let s := { s with xfers := s.xfers.filter fun t => !(t.key == x.key && t.eng == e) }
    let s := if xferOn s x.key e then setCx s (e / 16) { cxOf s (e / 16) with xfer := none } else s
    updDisp s x.key fun d => { d with lostData := d.lostData || d.tmLive != 0, lostEng := e }

/-- Each pre-empted job of a list loses its live range on engine `e`. -/
def presLose (s : State) (e : Nat) : List Pre → State
  | [] => s
  | x :: r => presLose (preLoses s e x) e r

/-- Ends the dispatches of a list with 0x70 when they wait for placement in a partition without a live engine
(R577). -/
def dispsEnd (s : State) : List Disp → State
  | [] => s
  | d :: r =>
    let s := if dispWaits s d || (preOf s d.key).isSome then
        (match jobOf s d.key with
         | some j => if j.stop.isSome ∨ j.err ≠ 0 then endDisp s d
                     else endDisp s { d with lost := max 1 d.lost }
         | none => s)
      else s
    dispsEnd s r

/-- What a failed engine `e` does to the dispatches (R268, R267, R577). -/
def computeEngineLost (s : State) (e : Nat) : State :=
  let s := dispsLose s e true s.disps
  let s := presLose s e s.pres
  let p := engPart s e
  if anyLive s p then s else dispsEnd s (s.disps.filter fun d => d.part == p)

/-! ### SET_PRIORITY (R421) -/

/-- Whether a kernel queue of partition `p` may name queue `t` in a teardown or a priority (R382). -/
def mayTarget (s : State) (p t : Nat) : Bool := (que s t).life != .free && (p == 0 || (que s t).part == p)

/-- What the command does once its checks pass: SET_PRIORITY sets an override, or is refused with 0x28 (R421). -/
def actSetPriority (s : State) (n : Nat) (w : List Nat) (_refs : List Ref) : State :=
  let s := beginAt s n w.length
  let q := (slotOf s n).queue
  let t := bits (nth w 1) 0 12
  if mayTarget s (que s q).part t then
    instantJob (setQue s t { que s t with prioSet := some (bits (nth w 1) 16 3) }) q 0
  else failInstant s q 0x28

/-- SET_PRIORITY sets a queue's priority override (R421). -/
def execSetPriority (n : Slot) (s : State) : Out := .next (decodeCmd s n { op := 0x24, act := actSetPriority })

end Sys2Proof.Machine
end

