-- ==== Sys2Proof/Machine/RasterMath.lean ====
section
/-!
DEFINITION. The arithmetic of the raster pipeline: clipping and the viewport transform (R208), culling (R209),
coverage (R229), depth and stencil (R231, R232), blending and the colour formats (R233, R234).
-/
namespace Sys2Proof.Machine

/-! ### Exact numbers and their rounding -/

/-- 2 to an integer power. -/
def pow2 (q : Int) : Rat := if 0 ≤ q then ((2 ^ q.toNat : Nat) : Rat) else 1 / ((2 ^ (-q).toNat : Nat) : Rat)

/-- A finite value as a rational; an infinity or NaN with the bits `w` counts as a free number. -/
def valRat (w : Nat) : Val → Rat
  | .fin s m q => (if s then -1 else 1) * (m : Rat) * pow2 q
  | _ => (Config.nonFinite w : Rat)

/-- The number an FP32 pattern stands for. -/
def ratOf (w : Nat) : Rat := valRat w (decodeVal .fp32 w)

/-- A rational as a value that rounds as it does: 64 bits or more of its quotient, and a last bit that says whether
more follows. -/
def ratVal (x : Rat) : Val :=
  let n := x.num.natAbs
  let sh := 64 + Nat.log2 x.den
  let i := n * 2 ^ sh / x.den
  let more := n * 2 ^ sh % x.den
  .fin (decide (x.num < 0)) (2 * i + (if more = 0 then 0 else 1)) (-(sh : Int) - 1)

/-- A rational rounded once into a format, to nearest-even. -/
def roundRat (f : Fmt) (x : Rat) : Nat := if x = 0 then 0 else fpRound f (ratVal x)

/-- A rational rounded to the nearest integer, ties to even. -/
def roundInt (x : Rat) : Int :=
  let fl := x.num / (x.den : Int)
  let r := x - (fl : Rat)
  if r < 1 / 2 then fl else if 1 / 2 < r then fl + 1 else if fl % 2 = 0 then fl else fl + 1

/-- Quotient of two FP32 patterns, rounded once. -/
def fpDiv (a b : Nat) : Nat :=
  match decodeVal .fp32 a, decodeVal .fp32 b with
  | .nan, _ => canonNan .fp32
  | _, .nan => canonNan .fp32
  | .inf _, .inf _ => canonNan .fp32
  | .inf s, .fin t _ _ => infOf .fp32 (s ^^ t)
  | .fin s _ _, .inf t => signBit .fp32 (s ^^ t)
  | .fin s m q, .fin t n k =>
    if n = 0 then (if m = 0 then canonNan .fp32 else infOf .fp32 (s ^^ t))
    else if m = 0 then signBit .fp32 (s ^^ t)
    else roundRat .fp32 ((if s ^^ t then -1 else 1) * (m : Rat) * pow2 q / ((n : Rat) * pow2 k))

/-- FP32 1.0. -/
def fpOne : Nat := 0x3F800000

/-- A negated FP32 pattern. -/
def fpNeg (a : Nat) : Nat := Nat.xor a 0x80000000

/-- Difference of two FP32 patterns. -/
def fpSub (a b : Nat) : Nat := fpAdd .fp32 a (fpNeg b)

/-- Clamps an FP32 pattern to [0, 1]; a NaN reads as 0, and −0.0 becomes +0.0. -/
def fpUnit (a : Nat) : Nat :=
  match decodeVal .fp32 a with
  | .nan => 0
  | v => if ltVal (.fin false 1 0) v then fpOne else if ltVal (.fin false 0 0) v then a else 0

/-- The smaller or larger of two FP32 patterns; with a NaN, or zeros of two signs, a free value. -/
def fpPick (big : Bool) (a b : Nat) : Nat :=
  match decodeVal .fp32 a, decodeVal .fp32 b with
  | .nan, _ => Config.nanMinMax big a b
  | _, .nan => Config.nanMinMax big a b
  | x, y =>
    if ltVal x y then (if big then b else a)
    else if a ≠ b ∧ !ltVal y x then Config.nanMinMax big a b
    else if big then a else b

/-! ### Clipping (R208) -/

/-- A shaded vertex: clip-space x, y, z, w and the varyings, as FP32 patterns. -/
structure ClipVert where
  x : Nat
  y : Nat
  z : Nat
  w : Nat
  vars : List Nat
  deriving DecidableEq, Repr

/-- Absolute value. -/
def ratAbs (x : Rat) : Rat := if x < 0 then -x else x

/-- The distance of a vertex from a plane, positive inside: 0 and 1 are 0 ≤ z and z ≤ w; 2 to 5 are the guard band
32,768 pixels outside the edges of a viewport of width `vw` and height `vh` (R208). -/
def planeDist (vw vh : Nat) (plane : Nat) (v : ClipVert) : Rat :=
  let g (size c : Rat) : Rat := ratAbs size * c + (ratAbs size + 65536) * ratOf v.w
  match plane with
  | 0 => ratOf v.z
  | 1 => ratOf v.w - ratOf v.z
  | 2 => g (ratOf vw) (ratOf v.x)
  | 3 => g (ratOf vw) (-ratOf v.x)
  | 4 => g (ratOf vh) (ratOf v.y)
  | _ => g (ratOf vh) (-ratOf v.y)

/-- A component of a new vertex at `t` between two: linear, rounded once to FP32. -/
def lerpWord (t : Rat) (a b : Nat) : Nat := roundRat .fp32 (ratOf a + t * (ratOf b - ratOf a))

/-- The vertex at `t` between two. -/
def lerpVert (t : Rat) (a b : ClipVert) : ClipVert :=
  { x := lerpWord t a.x b.x, y := lerpWord t a.y b.y, z := lerpWord t a.z b.z, w := lerpWord t a.w b.w,
    vars := (a.vars.zip b.vars).map fun (p, q) => lerpWord t p q }

/-- Clips the edges of a polygon, or of an open line, against one plane. -/
def clipEdges (d : ClipVert → Rat) : List (ClipVert × ClipVert) → List ClipVert
  | [] => []
  | (a, b) :: r =>
    let cut := lerpVert (d a / (d a - d b)) a b
    (if 0 ≤ d a then (if 0 ≤ d b then [a] else [a, cut]) else if 0 ≤ d b then [cut] else []) ++ clipEdges d r

/-- Clips a polygon against one plane. -/
def clipPoly (d : ClipVert → Rat) (l : List ClipVert) : List ClipVert := clipEdges d (l.zip (l.drop 1 ++ l.take 1))

/-- Clips a line against one plane: none when nothing is left. -/
def clipLine (d : ClipVert → Rat) (a b : ClipVert) : Option (ClipVert × ClipVert) :=
  let cut := lerpVert (d a / (d a - d b)) a b
  if 0 ≤ d a then (if 0 ≤ d b then some (a, b) else some (a, cut)) else if 0 ≤ d b then some (cut, b) else none

/-- Clips a polygon against every plane in turn. -/
def clipPolyAll (vw vh : Nat) (l : List ClipVert) : List ClipVert :=
  (List.range 6).foldl (fun l k => clipPoly (planeDist vw vh k) l) l

/-- Clips a line against every plane in turn. -/
def clipLineAll (vw vh : Nat) (a b : ClipVert) : Option (ClipVert × ClipVert) :=
  (List.range 6).foldl (fun o k => o.bind fun (a, b) => clipLine (planeDist vw vh k) a b) (some (a, b))

/-! ### Draw state (R243); `ds` is the draw-state words -/

/-- VARYINGS. -/
def dsVaryings (ds : List Nat) : Nat := min 32 (bits (nth ds 2) 0 6)

/-- The scissor: x0, y0 inclusive, x1, y1 exclusive. -/
def dsScissor (ds : List Nat) : Nat × Nat × Nat × Nat :=
  (min 16384 (bits (nth ds 13) 0 15), min 16384 (bits (nth ds 13) 16 15),
   min 16384 (bits (nth ds 14) 0 15), min 16384 (bits (nth ds 14) 16 15))

/-! ### The viewport transform, snapping and culling (R208, R209) -/

/-- A vertex on the screen before snapping: sx and sy as exact numbers, sz, 1/w and the varyings. -/
structure ScreenVert where
  sx : Rat
  sy : Rat
  sz : Nat
  rw : Nat
  vars : List Nat

/-- The viewport transform in FP32, each operation rounded (R208). -/
def toScreen (ds : List Nat) (v : ClipVert) : ScreenVert :=
  let half := 0x3F000000
  let sx := fpAdd .fp32 (nth ds 7) (fpMul .fp32 (fpAdd .fp32 (fpDiv v.x v.w) fpOne) (fpMul .fp32 (nth ds 9) half))
  let sy := fpAdd .fp32 (nth ds 8) (fpMul .fp32 (fpSub fpOne (fpDiv v.y v.w)) (fpMul .fp32 (nth ds 10) half))
  let sz := fpAdd .fp32 (nth ds 11) (fpMul .fp32 (fpDiv v.z v.w) (fpSub (nth ds 12) (nth ds 11)))
  { sx := ratOf sx, sy := ratOf sy, sz := sz, rw := fpDiv fpOne v.w, vars := v.vars }

/-- Snaps a screen vertex to multiples of 1/256 pixel, ties to even (R209). -/
def snap (v : ScreenVert) : Vert :=
  { sx := roundInt (v.sx * 256), sy := roundInt (v.sy * 256), sz := v.sz, rw := v.rw, vars := v.vars }

/-- Twice the signed area of a snapped triangle; below 0 when it runs counter-clockwise on screen, where y grows
downward. -/
def area2 (a b c : Vert) : Int := (b.sx - a.sx) * (c.sy - a.sy) - (c.sx - a.sx) * (b.sy - a.sy)

/-- Whether culling leaves a triangle, and whether it is front-facing (R209). -/
def cullTri (ds : List Nat) (a b c : Vert) : Option Bool :=
  let s := area2 a b c
  let front := if bit (nth ds 2) 10 then decide (0 < s) else decide (s < 0)
  let cull := bits (nth ds 2) 8 2
  if s = 0 ∨ (if front then 2 ≤ cull else cull % 2 = 1) then none else some front

/-- The two triangles of a rectangle given by its corners in order; the order of the corners follows
`Config.expandCcw`. -/
def quadTris (a b c d : Vert) : List (Vert × Vert × Vert) :=
  if decide (area2 a b c < 0) == Config.expandCcw then [(a, b, c), (a, c, d)] else [(a, c, b), (a, d, c)]

/-- A screen vertex moved. -/
def ScreenVert.shift (v : ScreenVert) (dx dy : Rat) : ScreenVert := { v with sx := v.sx + dx, sy := v.sy + dy }

/-- The largest integer whose square is at most `n`, by the binary search `k` steps long. -/
def isqrt (n lo hi : Nat) : Nat → Nat
  | 0 => lo
  | k + 1 =>
    let m := (lo + hi + 1) / 2
    if m * m ≤ n then isqrt n m hi k else isqrt n lo (m - 1) k

/-- Square root of a positive rational, to 2^−64 of its value or better. -/
def ratSqrt (x : Rat) : Rat :=
  let n := x.num.natAbs * x.den * 2 ^ 256
  ((isqrt n 0 (2 ^ (Nat.log2 n / 2 + 1)) (Nat.log2 n + 2) : Nat) : Rat) / ((x.den * 2 ^ 128 : Nat) : Rat)

/-- A line as a rectangle 1 pixel wide centred on it (R207). -/
def lineTris (a b : ScreenVert) : List (Vert × Vert × Vert) :=
  let dx := b.sx - a.sx
  let dy := b.sy - a.sy
  if dx = 0 ∧ dy = 0 then []
  else
    let l := ratSqrt (dx * dx + dy * dy)
    let nx := -dy / l / 2
    let ny := dx / l / 2
    quadTris (snap (a.shift nx ny)) (snap (b.shift nx ny)) (snap (b.shift (-nx) (-ny))) (snap (a.shift (-nx) (-ny)))

/-- A point as a 1×1 square centred on it (R207). -/
def pointTris (a : ScreenVert) : List (Vert × Vert × Vert) :=
  let h : Rat := 1 / 2
  quadTris (snap (a.shift (-h) (-h))) (snap (a.shift h (-h))) (snap (a.shift h h)) (snap (a.shift (-h) h))

/-- The triangles that vertex `a` makes with each pair of neighbours (R208). -/
def fanFrom (a : Vert) : List Vert → List (Vert × Vert × Vert)
  | [] => []
  | b :: r =>
    (match r with
     | [] => []
     | c :: _ => [(a, b, c)]) ++ fanFrom a r

/-- A polygon fanned from its first vertex (R208). -/
def fanTris : List Vert → List (Vert × Vert × Vert)
  | [] => []
  | a :: r => fanFrom a r

/-- The triangles that a primitive's vertices become (R207, R208). -/
def primTris (ds : List Nat) : List ClipVert → List (Vert × Vert × Vert)
  | [a] => if (clipLineAll (nth ds 9) (nth ds 10) a a).isSome then pointTris (toScreen ds a) else []
  | [a, b] =>
    match clipLineAll (nth ds 9) (nth ds 10) a b with
    | some (p, q) => lineTris (toScreen ds p) (toScreen ds q)
    | none => []
  | l => fanTris ((clipPolyAll (nth ds 9) (nth ds 10) l).map fun v => snap (toScreen ds v))

/-! ### Coverage (R229, R210) -/

/-- The edge function of a → b at a point, in 1/256 pixel. -/
def edgeAt (a b : Vert) (x y : Int) : Int := (b.sx - a.sx) * (y - a.sy) - (b.sy - a.sy) * (x - a.sx)

/-- Whether a sample lies inside edge a → b of a triangle with third vertex `c`: strictly, or on a top or left
edge. -/
def insideEdge (a b c : Vert) (x y : Int) : Bool :=
  let s : Int := if edgeAt a b c.sx c.sy < 0 then -1 else 1
  let e := s * edgeAt a b x y
  decide (0 < e) || (decide (e = 0) &&
    (if a.sy = b.sy then decide (a.sy < c.sy) else decide (0 < -(b.sy - a.sy) * s)))

/-- Whether a triangle covers a sample at a point in 1/256 pixel. -/
def coversAt (t : Tri) (x y : Int) : Bool :=
  insideEdge t.v0 t.v1 t.v2 x y && insideEdge t.v1 t.v2 t.v0 x y && insideEdge t.v2 t.v0 t.v1 x y

/-- The position of sample `i` of `n` in pixel (x, y), in 1/256 pixel (R229). -/
def sampleAt (n x y i : Nat) : Int × Int :=
  let o : List (Int × Int) := match n with
    | 1 => [(0, 0)]
    | 2 => [(4, 4), (-4, -4)]
    | _ => [(-2, -6), (6, -2), (-6, 2), (2, 6)]
  let p := o.getD i (0, 0)
  (256 * x + 128 + 16 * p.1, 256 * y + 128 + 16 * p.2)

/-- Whether sample `i` of pixel (x, y) is covered. -/
def covers (t : Tri) (n x y i : Nat) : Bool :=
  let p := sampleAt n x y i
  coversAt t p.1 p.2

/-- Whether the triangle's side of edge a → b holds some inner point of a rectangle. -/
def edgeMeets (a b c : Vert) (x0 y0 x1 y1 : Int) : Bool :=
  let s : Int := if edgeAt a b c.sx c.sy < 0 then -1 else 1
  [(x0, y0), (x1, y0), (x0, y1), (x1, y1)].any fun p => decide (0 < s * edgeAt a b p.1 p.2)

/-- Whether the inside of a triangle meets the inside of a rectangle, in 1/256 pixel. -/
def triMeets (t : Tri) (x0 y0 x1 y1 : Int) : Bool :=
  let xs := [t.v0.sx, t.v1.sx, t.v2.sx]
  let ys := [t.v0.sy, t.v1.sy, t.v2.sy]
  (xs.any fun x => decide (x < x1)) && (xs.any fun x => decide (x0 < x))
    && (ys.any fun y => decide (y < y1)) && (ys.any fun y => decide (y0 < y))
    && edgeMeets t.v0 t.v1 t.v2 x0 y0 x1 y1 && edgeMeets t.v1 t.v2 t.v0 x0 y0 x1 y1
    && edgeMeets t.v2 t.v0 t.v1 x0 y0 x1 y1

/-- The surface pixels of tile `l`: x0, y0 inclusive, x1, y1 exclusive, without the pass's edges. -/
def tileRect (d : List Nat) (l : Nat) : Nat × Nat × Nat × Nat :=
  let x := pdOriginX d + 64 * (l % pdTw d)
  let y := pdOriginY d + 64 * (l / pdTw d)
  (x, y, x + 64, y + 64)

/-- Whether tile `l` has a pixel inside both the pass area and the scissor (R210). -/
def tileOpen (d ds : List Nat) (l : Nat) : Bool :=
  let (x0, y0, x1, y1) := tileRect d l
  let (sx0, sy0, sx1, sy1) := dsScissor ds
  Nat.blt (max x0 sx0) (min (min x1 (pdOriginX d + pdWidth d)) sx1)
    && Nat.blt (max y0 sy0) (min (min y1 (pdOriginY d + pdHeight d)) sy1)

/-- The tiles a triangle is entered in, ascending (R210). -/
def triTiles (d ds : List Nat) (t : Tri) : List Nat :=
  (List.range (pdTw d * pdTh d)).filter fun l =>
    let (x0, y0, x1, y1) := tileRect d l
    tileOpen d ds l && triMeets t (256 * x0) (256 * y0) (256 * x1) (256 * y1)

/-- Whether a triangle covers every sample of tile `l` (R211 FULL): coverage is convex, so the corner pixels
decide. -/
def coversTile (d : List Nat) (l : Nat) (t : Tri) : Bool :=
  let (x0, y0, x1, y1) := tileRect d l
  let n := pdSamples d
  (List.range n).all fun i => covers t n x0 y0 i && covers t n (x1 - 1) y0 i && covers t n x0 (y1 - 1) i
    && covers t n (x1 - 1) (y1 - 1) i

/-! ### Depth and stencil (R231, R232, R244) -/

/-- z of a sample: the plane through the three vertices, exact, rounded once to FP32, clamped to [0, 1] (R231). -/
def planeZ (t : Tri) (x y : Int) : Nat :=
  let e0 := edgeAt t.v1 t.v2 x y
  let e1 := edgeAt t.v2 t.v0 x y
  let e2 := edgeAt t.v0 t.v1 x y
  let s := e0 + e1 + e2
  fpUnit (roundRat .fp32 ((ratOf t.v0.sz * (e0 : Rat) + ratOf t.v1.sz * (e1 : Rat) + ratOf t.v2.sz * (e2 : Rat))
    / (s : Rat)))

/-- The stored depth of an FP32 z in [0, 1] (R231). -/
def depthStore (fmt z : Nat) : Nat :=
  match fmt with
  | 1 => (roundInt (ratOf z * 65535)).toNat
  | 2 => (roundInt (ratOf z * 16777215)).toNat
  | _ => z

/-- Compares under a function (R244), as integers. -/
def cmpNat (f a b : Nat) : Bool := compareFn f a b

/-- Compares under a function, as FP32; a NaN is unequal to everything. -/
def cmpFp (f a b : Nat) : Bool :=
  match decodeVal .fp32 a, decodeVal .fp32 b with
  | .nan, _ => f == 5 || f == 7
  | _, .nan => f == 5 || f == 7
  | x, y =>
    let lt := ltVal x y
    let gt := ltVal y x
    match f with
    | 0 => false | 1 => lt | 2 => !lt && !gt | 3 => !gt | 4 => gt | 5 => lt || gt | 6 => !lt | _ => true

/-- A stencil operation (R244). -/
def stencilOp (op old ref : Nat) : Nat :=
  match op with
  | 0 => old | 1 => 0 | 2 => ref | 3 => min 255 (old + 1) | 4 => old - 1 | 5 => 255 - old
  | 6 => (old + 1) % 256 | _ => (old + 255) % 256

/-- The depth/stencil test of one sample: whether it passes, and the stored value after it (R231, R232). -/
def dsTest (ds : List Nat) (fmt : Nat) (front : Bool) (z old : Nat) : Bool × Nat :=
  let hasD := fmt == 1 || fmt == 2 || fmt == 3
  let hasS := fmt == 2 || fmt == 4
  let st := if fmt = 2 then bits old 24 8 else if fmt = 4 then bits old 0 8 else 0
  let dOld := if fmt = 2 then bits old 0 24 else old
  let w := nth ds (if front then 4 else 5)
  let ref := bits w 12 8
  let rm := bits w 20 8
  let wm := if front then bits (nth ds 6) 0 8 else bits (nth ds 6) 8 8
  let sOn := hasS && bit (nth ds 3) 8
  let dOn := hasD && bit (nth ds 3) 0
  let sOk := !sOn || cmpNat (bits w 0 3) (Nat.land ref rm) (Nat.land st rm)
  let dNew := depthStore fmt z
  let dOk := !dOn || (if fmt = 3 then cmpFp (bits (nth ds 3) 2 3) dNew dOld else cmpNat (bits (nth ds 3) 2 3) dNew dOld)
  let op := if !sOk then bits w 3 3 else if !dOk then bits w 6 3 else bits w 9 3
  let res := stencilOp op st ref
  let st' := if sOn then Nat.lor (Nat.land st (255 - wm)) (Nat.land res wm) else st
  let d' := if dOn && bit (nth ds 3) 1 && sOk && dOk then dNew else dOld
  (sOk && dOk, if fmt = 2 then d' + st' * 2 ^ 24 else if fmt = 4 then st' else d')

/-! ### Colour formats and blending (R233, R234) -/

/-- The components R, G, B, A of a colour FORMAT: lowest bit and width; width 0 for one it lacks (R233, R520). -/
def colParts (f : Nat) : List (Nat × Nat) :=
  match f with
  | 1 => [(16, 8), (8, 8), (0, 8), (24, 8)]
  | 2 => [(0, 10), (10, 10), (20, 10), (30, 2)]
  | 3 => [(0, 5), (5, 6), (11, 5), (0, 0)]
  | 4 => [(0, 16), (16, 16), (32, 16), (48, 16)]
  | _ => [(0, 8), (8, 8), (16, 8), (24, 8)]

/-- FP16 to FP32 keeps infinities and NaNs. -/
def halfToSingle (h : Nat) : Nat := fpRound .fp32 (decodeVal .fp16 h)

/-- A stored component as FP32: v / (2^n − 1) rounded for UNORM, exact for FP16. -/
def compValue (f : Nat) (v : Nat) (part : Nat × Nat) : Nat :=
  if part.2 = 0 then fpOne
  else if f = 4 then halfToSingle (bits v part.1 16)
  else roundRat .fp32 ((bits v part.1 part.2 : Rat) / ((2 ^ part.2 - 1 : Nat) : Rat))

/-- An FP32 result as a stored component of `n` bits: clamped and scaled for UNORM, FP16 otherwise. -/
def compStore (f n x : Nat) : Nat :=
  if f = 4 then fpRound .fp16 (decodeVal .fp32 x) else (roundInt (ratOf (fpUnit x) * ((2 ^ n - 1 : Nat) : Rat))).toNat

/-- A blend factor (R244) for component `c`: source and destination components and the blend constant. -/
def blendFactor (code c : Nat) (src dst const : List Nat) : Nat :=
  let one (x : Nat) : Nat := fpSub fpOne x
  match code with
  | 0 => 0
  | 2 => nth src c | 3 => one (nth src c) | 4 => nth src 3 | 5 => one (nth src 3)
  | 6 => nth dst c | 7 => one (nth dst c) | 8 => nth dst 3 | 9 => one (nth dst 3)
  | 10 => nth const c | 11 => one (nth const c)
  | 12 => if c = 3 then fpOne else fpPick false (nth src 3) (one (nth dst 3))
  | _ => fpOne

/-- One component after blending (R233, R244). -/
def blendComp (op fs fd s d : Nat) : Nat :=
  match op with
  | 3 => fpPick false s d
  | 4 => fpPick true s d
  | 1 => fpSub (fpMul .fp32 s fs) (fpMul .fp32 d fd)
  | 2 => fpSub (fpMul .fp32 d fd) (fpMul .fp32 s fs)
  | _ => fpAdd .fp32 (fpMul .fp32 s fs) (fpMul .fp32 d fd)

/-- The stored value of one sample of attachment `i` of a FORMAT after a shader's colour is blended into it
(R233). -/
def blend (ds : List Nat) (i f : Nat) (color : List Nat) (old : Nat) : Nat :=
  let w := nth ds (16 + i)
  let parts := colParts f
  let src := if f = 4 then color else color.map fpUnit
  let dst := parts.map (compValue f old)
  let const := (List.range 4).map fun k => nth ds (20 + k)
  let on := bit w 0
  let out (c : Nat) : Nat :=
    let (s, d, o) := if c = 3 then (bits w 12 4, bits w 16 4, bits w 20 3) else (bits w 1 4, bits w 5 4, bits w 9 3)
    if on then blendComp (if 5 ≤ o then 0 else o) (blendFactor s c src dst const) (blendFactor d c src dst const)
      (nth src c) (nth dst c)
    else nth src c
  (List.range 4).foldl (fun v c =>
    let (lo, n) := parts.getD c (0, 0)
    if n ≠ 0 ∧ bit w (23 + c) then setBits v lo n (compStore f n (out c)) else v) old

/-- A clear colour as a stored value (R228, R233). -/
def clearColor (f : Nat) (color : List Nat) : Nat :=
  (List.range 4).foldl (fun v c =>
    let (lo, n) := (colParts f).getD c (0, 0)
    if n ≠ 0 then setBits v lo n (compStore f n (nth color c)) else v) 0

/-- The average of a pixel's samples (R234). -/
def resolveSamples (f : Nat) (l : List Nat) : Nat :=
  let n := l.length
  (List.range 4).foldl (fun v c =>
    let (lo, k) := (colParts f).getD c (0, 0)
    if k = 0 then v
    else if f = 4 then
      let sum := (l.map fun x => halfToSingle (bits x lo 16)).foldl (fun a b => fpAdd .fp32 a b) 0x80000000
      setBits v lo k (fpRound .fp16 (decodeVal .fp32 (fpMul .fp32 sum (if n = 2 then 0x3F000000 else 0x3E800000))))
    else
      let sum := (l.map fun x => bits x lo k).sum
      setBits v lo k ((sum + n / 2) / n)) 0

end Sys2Proof.Machine
end

