-- ==== Sys2Proof/Machine/Raster.lean ====
section
/-!
DEFINITION. Render passes (R199 to R246): begin and end, draws and their batches, tile sorters and the bin pool,
partial renders, tile visits, and the loss of an owner. A batch's vertex waves and a visit's pixel waves lie inside
one step; what their shaders leave is an operand of that step, because the instruction encoding is not published
(R92).
-/
namespace Sys2Proof.Machine

/-! ### Handles of a pass -/

/-- Relocates a handle within one step, reading the table entry when it is not cached (R364, R366, R367). -/
def relocNow (s : State) (ctx : Option Nat) (h : Nat) (need : Need) (ecc : Ecc) :
    Except (Nat × Nat) (Ref × State) :=
  match relocate s ctx h need with
  | .ok r => .ok (r, bump (relocTouch s (ctx.getD 0) (h % 2 ^ 24)) (feOff 0x14))
  | .fault e => .error (e, 0)
  | .wait => .error (0xB0, 0)
  | .miss c i =>
    match handleRead s c i ecc with
    | .error e => .error (e, (ctxOf s c).table + 16 * i)
    | .ok w =>
      match checkEntry w h need with
      | .ok r => .ok (r, bump (bump (relocInsert (mcEcc s ((ctxOf s c).table + 16 * i) ecc) c i w) (feOff 0x18)) (feOff 0x14))
      | .fault e => .error (e, 0)
      | _ => .error (0xB0, 0)

/-- Relocates a list of handles within one step, in order; one that is not used is not looked up. -/
def relocMany (s : State) (ctx : Option Nat) (ecc : Ecc) : List (Option (Nat × Need)) →
    Except (Nat × Nat) (List Ref × State)
  | [] => .ok ([], s)
  | none :: r =>
    match relocMany s ctx ecc r with
    | .ok (l, s) => .ok ({} :: l, s)
    | .error e => .error e
  | some (h, need) :: r =>
    match relocNow s ctx h need ecc with
    | .error e => .error e
    | .ok (x, s) =>
      match relocMany s ctx ecc r with
      | .ok (l, s) => .ok (x :: l, s)
      | .error e => .error e

/-- The handles of a pass descriptor in ascending word order: the pool, the depth/stencil surface, and each
attachment's surface and resolve surface (R241, R364). A load needs READ; a store, a resolve and streamed colour
need WRITE. -/
def passHandles (d : List Nat) : List (Option (Nat × Need)) :=
  [some (nth d 6, { write := true }),
   if pdDsFmt d ≠ 0 ∧ (pdDsLoad d = 1 ∨ pdDsStore d) then
     some (nth d 9, { read := pdDsLoad d == 1, write := pdDsStore d }) else none]
    ++ (List.range 4).flatMap fun i =>
      if pdAtts d ≤ i then [none, none]
      else
        let st := pdAttStore d i
        let rd := pdAttLoad d i == 1
        let wr := st % 3 == 0 || !pdAttResident d i
        [if rd ∨ wr then some (pdAttWord d i 1, { read := rd, write := wr }) else none,
         if 2 ≤ st then some (pdAttWord d i 5, { write := true }) else none]

/-- Reference `i` of a list. -/
def refAt (l : List Ref) (i : Nat) : Ref := l.getD i {}

/-! ### The pass registers (R246) -/

/-- Chunks in a pool. -/
def Pass.total (p : Pass) : Nat := (p.pool.map (·.count)).sum

/-- Brings SEC_PASS_STATUS, SEC_PASS_TOTAL and SEC_PASS_USED of partition `p` in line with its pass. -/
def passRegs (s : State) (p : Nat) : State :=
  let x := passOf s p
  let b (f : Pass → Bool) : Nat := b2n ((x.map f).getD false)
  let n (f : Pass → Nat) : Nat := (x.map f).getD 0
  let s := setFld s (passOff p 0) 0 1 (b2n x.isSome)
  let s := setFld s (passOff p 0) 1 1 (b fun x => x.faultAt.isSome || x.mode == .partialRender)
  let s := setFld s (passOff p 0) 3 1 (b fun x => !x.failed.isEmpty)
  let s := setFld s (passOff p 0) 4 4 (n fun x => x.pool.length)
  let s := setFld s (passOff p 4) 0 16 (n Pass.total)
  setFld s (passOff p 8) 0 16 (n fun x => x.used)

/-! ### Pass begin (R199 to R201, R213 to R217) -/

/-- The sectors that hold a quad of partition `p`. -/
def sectorsOf (s : State) (p : Nat) : List Nat := (List.range 4).filter fun k => (quadsOf s p).any fun q => q / 4 == k

/-- Chunks that a head table takes (R211, R213). -/
def headChunks (d : List Nat) : Nat := ceilDiv (8 * (pdTw d * pdTh d)) 65536

/-- Whether a pass with `n` owners fits (R217). -/
def passFits (d : List Nat) (n : Nat) : Bool :=
  let smp := pdSamples d
  Nat.ble (dsBytes (pdDsFmt d) * smp) 16
    && Nat.ble (((List.range (pdAtts d)).map fun a => colBytes (pdAttFmt d a)).sum * smp) 16
    && (List.range n).all fun i => Nat.ble (ownerDs d i n) 2621440
      && Nat.ble (ownerDs d i n + ownerCol d i n) (pdResSize d)

/-- The range of whole chunks at a reference, at most `count` (R221). -/
def poolRange (r : Ref) (count : Nat) : List PoolRange :=
  let n := min count ((r.bound - r.addr) / 65536)
  if n = 0 then [] else [{ addr := r.addr, count := n }]

/-- The queue is between OP 0 and OP 1, and the partition has begun one more pass (R246). -/
def passBegun (s : State) (q : Nat) : State :=
  let p := (que s q).part
  let s := setQue s q { que s q with inPass := true }
  let s := setFld s (passOff p 0) 16 16 (fld s (passOff p 0) 16 16 + 1)
  wr s (passOff p 0x1C) 0

/-- Opens a pass whose handles are relocated: refused with 0x63 when it does not fit (R217); else every live engine
of the partition owns tiles (R214, R215) and each sorter needs its head table (R213). -/
def openPass (s : State) (q : Nat) (d : List Nat) (refs : List Ref) : State :=
  let p := (que s q).part
  let owners := (logEngs s p).filter (engLive s)
  let s := passBegun (startJob s q .pass) q
  if !passFits d owners.length then markJob s s.jobKey 0x63
  else
    let pool := (refAt refs 0).plus (nth d 7 / 256 * 256 + hi32 (bits (nth d 8) 0 8))
    let off (a b : Nat) : Nat := nth d a + hi32 (bits (nth d b) 0 8)
    let x : Pass :=
      { key := s.jobKey, queue := q, part := p, desc := d, owners := owners,
        dsRef := (refAt refs 1).plus (off 10 11),
        surfs := (List.range 4).map fun i => (refAt refs (2 + 2 * i)).plus (off (18 + 8 * i) (19 + 8 * i)),
        resolves := (List.range 4).map fun i => (refAt refs (3 + 2 * i)).plus (off (22 + 8 * i) (23 + 8 * i)),
        pool := poolRange pool (bits (nth d 8) 16 16),
        sorters := (sectorsOf s p).zipIdx.map fun (k, i) => { sector := k, next := i, headLeft := headChunks d } }
    passRegs { s with passes := s.passes ++ [x] } p

/-- The queue fault or job error of a handle that a begun command could not relocate (R364, R573). -/
def relocFail (s : State) (n op : Nat) (e : Nat × Nat) : State :=
  let q := (slotOf s n).queue
  if e.1 = 0x92 then failInstant (mcEcc s e.2 .uncorrectable) q e.1
  else if e.1 = 0x90 then instantJob (violation s (que s q).part 84 e.2 (whoQ s q)) q e.1
  else queueFault s n e.1 op

/-! ### Tile sorters and the bin pool (R210 to R213, R219) -/

/-- The device address of chunk `c` of a pool. -/
def chunkAddr : List PoolRange → Nat → Nat
  | [], _ => 0
  | r :: rs, c => if c < r.count then r.addr + 65536 * c else chunkAddr rs (c - r.count)

/-- A chunk reference (R211). -/
def chunkRef (c off : Nat) : Nat := c * 2 ^ 16 + off / 16 * 16

/-- The device address of a chunk reference. -/
def refAddr (p : Pass) (r : Nat) : Nat := chunkAddr p.pool (r / 2 ^ 16) + r % 2 ^ 16

/-- A write of a pass's unit, requester `req`: one outside the partition's ranges ends the pass with 0x90. -/
def passWrite (s : State) (p : Pass) (req a : Nat) (data : List Byte) : State :=
  match writeFault s p.part a data.length with
  | none => devWrite s p.part a data
  | some v => devWrite (markJob (violation s p.part req v (whoQ s p.queue)) p.key 0x90) p.part a data

/-- Changes the sorter of sector `k` in the pass of partition `p`. -/
def updSorter (s : State) (p k : Nat) (f : Sorter → Sorter) : State :=
  updPass s p fun x => { x with sorters := x.sorters.map fun t => if t.sector = k then f t else t }

/-- Takes the next unused chunk of the pool; none when the pool has none left. -/
def takeChunk (s : State) (p : Nat) (x : Pass) : Option (Nat × State) :=
  if x.used < x.total then some (x.used, passRegs (updPass s p fun x => { x with used := x.used + 1 }) p) else none

/-- The bin pool is empty (R219): the sorter stalls, STALLED and FAULT are set, 0x60 is appended and vector 2
raised. -/
def binFault (s : State) (p k : Nat) : State :=
  let s := updSorter s p k fun t => { t with stalled := true }
  let s := passRegs (updPass s p fun x => { x with faultAt := some s.now }) p
  let s := setFld s (passOff p 0) 2 1 1
  let s := bumpSat s (passOff p 0x1C) 0 16
  let s := append s { code := 0x60, tag := p, kind := 3, unit := k, detail := [p, fld s (passOff p 0) 16 16] }
  raise s p 2

/-- The bytes of a vertex in a primitive record (R212). -/
def vertBytes (v : Vert) (varyings : Nat) : List Byte :=
  wordBytes ([ofSigned 32 v.sx, ofSigned 32 v.sy, v.sz, v.rw] ++ (List.range varyings).map (nth v.vars))

/-- A primitive record (R212). -/
def recordBytes (t : Tri) (varyings : Nat) : List Byte :=
  wordBytes [t.draw % 2 ^ 16 + b2n t.front * 2 ^ 16, t.prim, 0, 0]
    ++ vertBytes t.v0 varyings ++ vertBytes t.v1 varyings ++ vertBytes t.v2 varyings

/-- The draw-state words of a draw of a pass. -/
def Pass.drawState (x : Pass) (i : Nat) : List Nat := ((x.draws[i]?).map (·.state)).getD []

/-- Takes a chunk for a head table: the entries of its tiles are empty (R211). -/
def stepHead (s : State) (p : Nat) (x : Pass) (t : Sorter) : State × Bool :=
  match takeChunk s p x with
  | none => (binFault s p t.sector, false)
  | some (c, s) =>
    let tiles := min 8192 (pdTw x.desc * pdTh x.desc - 8192 * t.heads.length)
    let s := passWrite s x (68 + t.sector) (chunkAddr x.pool c) (List.replicate (8 * tiles) 0xFF#8)
    (updSorter s p t.sector fun t => { t with headLeft := t.headLeft - 1, heads := t.heads ++ [c] }, true)

/-- Writes the record of the first triangle not yet binned, taking a vertex chunk when the current one has no
room. -/
def stepRecord (s : State) (p : Nat) (x : Pass) (t : Sorter) (tri : Tri) : State × Bool :=
  let v := dsVaryings (x.drawState tri.draw)
  let len := (16 + 3 * (16 + 4 * v) + 15) / 16 * 16
  match (match t.vertChunk with
         | some c => if t.vertOff + len ≤ 65536 then some (c, t.vertOff) else none
         | none => none) with
  | some (c, off) =>
    let s := passWrite s x (68 + t.sector) (chunkAddr x.pool c + off) (recordBytes tri v)
    (updSorter s p t.sector fun t => { t with record := some (chunkRef c off), vertOff := off + len }, true)
  | none =>
    match takeChunk s p x with
    | none => (binFault s p t.sector, false)
    | some (c, s) => (updSorter s p t.sector fun t => { t with vertChunk := some c, vertOff := 0 }, true)

/-- The device address of the head-table entry of a tile. -/
def headAddr (x : Pass) (t : Sorter) (l : Nat) : Nat := chunkAddr x.pool (nth t.heads (l / 8192)) + 8 * (l % 8192)

/-- The two words of entry `i` of a list block. -/
def entryWords (ref batch : Nat) (full : Bool) : List Byte := wordBytes [ref, batch % 2 ^ 24 + b2n full * 2 ^ 24]

/-- Notes that the first triangle has been entered in tile `l`. -/
def noteEntry (s : State) (p : Nat) (t : Sorter) (tri : Tri) (l : Nat) (full : Bool) : State :=
  let s := bump s (secBase + 0x100 * t.sector + 8)
  let s := updPass s p fun x => { x with entries := x.entries ++ [{ tile := l, full := full, tri := tri }],
                                          binnedSince := true }
  updSorter s p t.sector fun t => { t with entered := t.entered ++ [l] }

/-- Adds an entry for the first triangle to the list of tile `l`, in the list's last block or a new one (R210,
R211). `tails` holds each tile's first block, last block and entries used in the last. -/
def stepEntry (s : State) (p : Nat) (x : Pass) (t : Sorter) (tri : Tri) (ref l : Nat) : State × Bool :=
  let req := 68 + t.sector
  let full := coversTile x.desc l tri
  let tail := tabFind l t.tails
  match tail with
  | some (first, last, used) =>
    if used < 7 then
      let s := passWrite s x req (refAddr x last + 8 * used) (entryWords ref tri.batch full)
      let s := passWrite s x req (refAddr x last + 60) (wordBytes [used + 1])
      let s := updSorter s p t.sector fun t =>
        { t with tails := tabInsert l (first, last, used + 1) (tabDrop l t.tails) }
      (noteEntry s p t tri l full, true)
    else newBlock req full (some (first, last))
  | none => newBlock req full none
where
  /-- Begins a new list block, taking a list chunk when the current one has no room. -/
  newBlock (req : Nat) (full : Bool) (old : Option (Nat × Nat)) : State × Bool :=
    match (match t.listChunk with
           | some c => if t.listOff + 64 ≤ 65536 then some (c, t.listOff) else none
           | none => none) with
    | none =>
      match takeChunk s p x with
      | none => (binFault s p t.sector, false)
      | some (c, s) => (updSorter s p t.sector fun t => { t with listChunk := some c, listOff := 0 }, true)
    | some (c, off) =>
      let b := chunkRef c off
      let s := passWrite s x req (refAddr x b) (entryWords ref tri.batch full)
      let s := passWrite s x req (refAddr x b + 56) (wordBytes [0xFFFFFFFF, 1])
      let first := (old.map (·.1)).getD b
      let s := match old with
        | some (_, last) => passWrite s x req (refAddr x last + 56) (wordBytes [b])
        | none => s
      let s := passWrite s x req (headAddr x t l) (wordBytes [first, b])
      let s := updSorter s p t.sector fun t =>
        { t with listOff := off + 64, tails := tabInsert l (first, b, 1) (tabDrop l t.tails) }
      (noteEntry s p t tri l full, true)

/-- One action of the sorter of sector `k`; false when it has nothing to do or stalls. -/
def sorterStep (s : State) (p k : Nat) : State × Bool :=
  match passOf s p with
  | none => (s, false)
  | some x =>
    match x.sorters.find? (·.sector == k) with
    | none => (s, false)
    | some t =>
      if 0 < t.headLeft then stepHead s p x t
      else match t.todo with
        | [] => (s, false)
        | tri :: rest =>
          match t.record with
          | none => stepRecord s p x t tri
          | some ref =>
            match (triTiles x.desc (x.drawState tri.draw) tri).find? fun l => !t.entered.contains l with
            | some l => stepEntry s p x t tri ref l
            | none =>
              (updPass (updSorter s p k fun t => { t with todo := rest, record := none, entered := [] }) p
                fun x => { x with binnedSince := true }, true)

/-- The sorter of sector `k` works until it has nothing to do or stalls. -/
def sorterRun (s : State) (p k : Nat) : Nat → State
  | 0 => s
  | n + 1 =>
    match sorterStep s p k with
    | (s, true) => sorterRun s p k n
    | (s, false) => s

/-- More actions than any sorter of a pass has to do. -/
def Pass.work (x : Pass) : Nat :=
  2 * (x.sorters.map fun t => t.headLeft + (t.todo.length + 1) * (pdTw x.desc * pdTh x.desc + 4)).sum

/-- The sorters of a list of sectors work in turn, until one stalls. -/
def sortersRun (s : State) (p : Nat) : List Nat → State
  | [] => s
  | k :: ks =>
    match passOf s p with
    | none => s
    | some x => if x.faultAt.isSome then s else sortersRun (sorterRun s p k x.work) p ks

/-- The sorters of the pass of partition `p` resume. -/
def resumeSorters (s : State) (p : Nat) : State :=
  match passOf s p with
  | none => s
  | some x => sortersRun s p (x.sorters.map (·.sector))

/-! ### RENDER_PASS and DRAW commands (R240, R242) -/

/-- Begins a pass at OP 0: refused with 0x56 in a model partition (R172) and 0x62 without a live engine (R577). -/
def beginPass (ecc : Ecc) (s : State) (n : Nat) (w : List Nat) (_refs : List Ref) : State :=
  let sl := slotOf s n
  let q := sl.queue
  let p := (que s q).part
  if modelPart s p then passBegun (failInstant s q 0x56) q
  else if !anyLive s p then passBegun (failInstant s q 0x62) q
  else match relocNow s sl.ctx (nth w 2) { read := true } ecc with
    | .error e => relocFail s n 0x11 e
    | .ok (r, s) =>
      let a := r.plus (nth w 3 / 64 * 64 + hi32 (bits (nth w 4) 0 8))
      match refReadFault s p a 256 with
      | some v => instantJob (violation s p 84 v (whoQ s q)) q 0x90
      | none =>
        if ecc = .uncorrectable then relocFail s n 0x11 (0x92, a.addr) else
        let d := refWords s p a 64
        match relocMany s sl.ctx ecc (passHandles d) with
        | .error e => relocFail s n 0x11 e
        | .ok (refs, s) => resumeSorters (openPass s q d refs) p

/-- What the command does once its checks pass: OP 0 starts in order, waits for a table that is being changed (R412),
and waits while another pass of the partition is active (R201). -/
def actPassBegin (ecc : Ecc) (s : State) (n : Nat) (w : List Nat) (refs : List Ref) : State :=
  let sl := slotOf s n
  let q := sl.queue
  if (match sl.ctx with
      | some c => tablePending s c
      | none => false) then setSlot s n { sl with mode := .held, hold := 6 }
  else if !prevDone s q then holdCmd s n 3 0x11 w refs
  else if (passOf s (que s q).part).isSome then holdCmd s n 4 0x11 w refs
  else beginPass ecc (beginAt s n w.length) n w refs

/-- RENDER_PASS OP 0 opens a pass, assigns tile owners and checks its fit (R217). -/
def execRenderPassBegin (n : Slot) (ecc : Ecc) (s : State) : Out :=
  .next (decodeCmd s n { op := 0x11, sel := fun w => bits (nth w 1) 0 1 == 0, act := actPassBegin ecc })

/-- What the command does once its checks pass: OP 1 closes the pass; a pass that did not fit completes with 0x63
(R217, R227). -/
def actPassEnd (s : State) (n : Nat) (w : List Nat) (_refs : List Ref) : State :=
  let s := beginAt s n w.length
  let q := (slotOf s n).queue
  let s := setQue s q { que s q with inPass := false }
  if s.passes.any fun x => x.queue == q then updPass s (que s q).part fun x => { x with closed := true }
  else match (jobsOf s q).find? fun j => j.kind == .pass && j.err == 0x63 with
    | some j => failJob s j.key 0x63
    | none => s

/-- RENDER_PASS OP 1 closes the pass (R227). -/
def execRenderPassEnd (n : Slot) (s : State) : Out :=
  .next (decodeCmd s n { op := 0x11, sel := fun w => bits (nth w 1) 0 1 == 1, act := actPassEnd })

/-- TOPO after its clamp. -/
def drawTopo (w : List Nat) : Nat := let t := bits (nth w 1) 0 3; if 6 ≤ t then 3 else t

/-- The vertex indices of a draw in order, a restart as none (R205, R206). The index object is read up to its
bound. -/
def drawIndices (s : State) (tag : Nat) (w : List Nat) (index : Ref) : List (Option Nat) :=
  let base := nth w 14
  if !bit (nth w 1) 4 then (List.range (nth w 11)).map fun i => some ((nth w 13 + i + base) % 2 ^ 32)
  else
    let size := if bit (nth w 1) 5 then 4 else 2
    let n := min (nth w 11) ((index.bound - index.addr) / size - nth w 13)
    (List.range n).map fun i =>
      let x := devNat s tag (index.addr + size * (nth w 13 + i)) size
      if bit (nth w 1) 6 ∧ x = 2 ^ (8 * size) - 1 then none else some ((x + base) % 2 ^ 32)

/-- Splits a list of indices at its restarts. -/
def splitRuns : List (Option Nat) → List Nat → List (List Nat)
  | [], run => [run.reverse]
  | none :: r, run => run.reverse :: splitRuns r []
  | some i :: r, run => splitRuns r (i :: run)

/-- The primitives of one run of vertices (R207). -/
def runPrims (topo : Nat) (l : List Nat) : List (List Nat) :=
  let at' (i : Nat) : Nat := nth l i
  match topo with
  | 0 => l.map fun i => [i]
  | 1 => (List.range (l.length / 2)).map fun i => [at' (2 * i), at' (2 * i + 1)]
  | 2 => (List.range (l.length - 1)).map fun i => [at' i, at' (i + 1)]
  | 4 => (List.range (l.length - 2)).map fun i =>
      if i % 2 = 1 then [at' (i + 1), at' i, at' (i + 2)] else [at' i, at' (i + 1), at' (i + 2)]
  | 5 => (List.range (l.length - 2)).map fun i => [at' 0, at' (i + 1), at' (i + 2)]
  | _ => (List.range (l.length / 3)).map fun i => [at' (3 * i), at' (3 * i + 1), at' (3 * i + 2)]

/-- The primitives of one instance of a draw, as vertex indices (R207). -/
def drawPrims (s : State) (tag : Nat) (w : List Nat) (index : Ref) : List (List Nat) :=
  (splitRuns (drawIndices s tag w index) []).flatMap (runPrims (drawTopo w))

/-- Batches of one instance (R204). -/
def batchesOf (prims : Nat) : Nat := ceilDiv prims 1024

/-- The handles of a DRAW (R242); the index object only when INDEXED. -/
def drawNeeds (w : List Nat) : List (Nat × Need) :=
  [(nth w 2, { read := true }), (nth w 5, { read := true })]
    ++ if bit (nth w 1) 4 then [(nth w 8, { read := true })] else []

/-- What the command does once its checks pass: a DRAW is cut into batches, numbered on from those before it (R204).
A draw-state block outside the partition's ranges ends the pass with 0x90. -/
def actDraw (s : State) (n : Nat) (w : List Nat) (refs : List Ref) : State :=
  let s := pastCmd s n w.length
  let q := (slotOf s n).queue
  let p := (que s q).part
  match passOf s p with
  | none => s
  | some x =>
    let a := (ref0 refs).plus (nth w 3 / 64 * 64 + hi32 (bits (nth w 4) 0 8))
    match refReadFault s p a 96 with
    | some v => markJob (violation s p 84 v (whoQ s q)) x.key 0x90
    | none =>
      let index := (refAt refs 2).plus (nth w 9 + hi32 (bits (nth w 10) 0 8))
      let prims := (drawPrims s p w index).length
      let d : DrawSt := { words := w, state := refWords s p a 24,
                          const := (refAt refs 1).addr + nth w 6 + hi32 (bits (nth w 7) 0 8),
                          index := index, first := x.batches, prims := prims }
      updPass s p fun x => { x with draws := x.draws ++ [d], batches := x.batches + nth w 12 * batchesOf prims }

/-- DRAW is cut into batches for the pass's geometry units (R242). -/
def execDraw (n : Slot) (s : State) : Out :=
  .next (decodeCmd s n { op := 0x12, needs := drawNeeds, act := actDraw })

/-! ### Geometry batches (R204 to R209) -/

/-- Whether a pass goes on: its job has met no error and has not been told to stop (R203). -/
def passLive (s : State) (x : Pass) : Bool :=
  match jobOf s x.key with
  | some j => j.err == 0 && j.stop.isNone
  | none => false

/-- Batch numbers of one round of R204. -/
def batchRound : Nat := 16777216

/-- The place of sector `k`'s unit among the units of a pass. -/
def Pass.unitOf (x : Pass) (k : Nat) : Nat := x.sorters.findIdx (·.sector == k)

/-- The first batch at or after `a` that goes to unit `i` of `g` (R204). -/
def batchFrom (a i g : Nat) : Nat :=
  (((List.range (2 * g + 1)).map (a + ·)).find? fun b => b % batchRound % max 1 g == i).getD a

/-- Whether the unit of sector `k` has a batch of the pass that it may bin now. -/
def batchReady (s : State) (x : Pass) (k : Nat) : Bool :=
  passLive s x && x.mode == .binning && x.faultAt.isNone && (preOf s x.key).isNone
    && (match x.sorters.find? (·.sector == k) with
        | some t => Nat.blt t.next x.batches && t.next / batchRound == x.rounds
        | none => false)

/-- The partition that sector `k`'s geometry unit serves next: the passes in turn by partition (R202). -/
def geoNext (s : State) (k : Nat) : Option Nat :=
  let l := (List.range 9).filter fun p => match passOf s p with
    | some x => batchReady s x k
    | none => false
  match tabFind k s.geoTurn with
  | some t => (match l.find? fun p => Nat.blt t p with
    | some p => some p
    | none => l.head?)
  | none => l.head?

/-- The shaded vertex of an index. -/
def shaded (outs : List (Nat × List Word)) (i : Nat) : ClipVert :=
  let l := ((tabFind i outs).getD []).map BitVec.toNat
  { x := nth l 0, y := nth l 1, z := nth l 2, w := nth l 3, vars := l.drop 4 }

/-- The triangles that culling leaves of a list, and how many it removes (R209). -/
def cullAll (ds : List Nat) (draw prim batch : Nat) : List (Vert × Vert × Vert) → List Tri × Nat
  | [] => ([], 0)
  | (a, b, c) :: r =>
    let (l, n) := cullAll ds draw prim batch r
    match cullTri ds a b c with
    | some f => ({ draw := draw, prim := prim, batch := batch, front := f, v0 := a, v1 := b, v2 := c } :: l, n)
    | none => (l, n + 1)

/-- The triangles of a list of primitives, numbered from `i`, and how many culling removes. -/
def batchTris (ds : List Nat) (draw batch : Nat) (outs : List (Nat × List Word)) :
    Nat → List (List Nat) → List Tri × Nat
  | _, [] => ([], 0)
  | i, v :: r =>
    let (l, n) := cullAll ds draw i batch (primTris ds (v.map (shaded outs)))
    let (l', n') := batchTris ds draw batch outs (i + 1) r
    (l ++ l', n + n')

/-- The draw that holds batch `a` of a pass, with its index. -/
def drawOf (x : Pass) (a : Nat) : Option (DrawSt × Nat) :=
  x.draws.zipIdx.find? fun (d, _) => Nat.ble d.first a && Nat.blt a (d.first + nth d.words 12 * batchesOf d.prims)

/-- The unit of sector `k` bins batch `a` of the pass of partition `p`. -/
def binBatch (s : State) (p k a : Nat) (x : Pass) (outs : List (Nat × List Word)) : State :=
  match drawOf x a with
  | none => s
  | some (d, i) =>
    let per := batchesOf d.prims
    let j := a - d.first
    let first := 1024 * (j % per)
    let prims := ((drawPrims s p d.words d.index).drop first).take 1024
    let topo := drawTopo d.words
    let (tris, culled) := batchTris d.state i (a % batchRound) outs (j / per * d.prims + first) prims
    let s := bump s (secBase + 0x100 * k) (prims.length * if topo ≤ 2 then 2 else 1)
    let s := bump s (secBase + 0x100 * k + 4) culled
    let s := resumeTimer s x.key
    let s := match (if bit (nth d.words 1) 4 then
        readFault s p d.index.addr (d.index.cut ((nth d.words 13 + nth d.words 11) * if bit (nth d.words 1) 5 then 4 else 2))
        else none) with
      | some v => markJob (violation s p (68 + k) v (whoQ s x.queue)) x.key 0x90
      | none => s
    let s := updSorter s p k fun t =>
      { t with todo := tris, next := batchFrom (a + 1) (x.unitOf k) x.sorters.length }
    resumeSorters { s with geoTurn := tabInsert k p (tabDrop k s.geoTurn) } p

/-- A partial render starts (R224, R204): 0x61 is appended, and every owner visits its tiles with entries. -/
def startPartial (s : State) (p : Nat) (round : Bool) : State :=
  match passOf s p with
  | none => s
  | some x =>
    if x.failed ≠ [] then markJob s x.key 0x62
    else
      let s := append s { code := 0x61, tag := p, kind := 3, unit := (x.sorters.map (·.sector)).headD 0 }
      passRegs (updPass s p fun x => { x with mode := .partialRender, done := [], faultAt := none,
                                              roundRender := round }) p

/-- Whether every unit of a pass has binned its batches of the present round, and a batch of the next one waits
(R204). -/
def roundOver (x : Pass) : Bool :=
  Nat.blt (batchRound * (x.rounds + 1)) x.batches
    && x.sorters.all fun t => Nat.blt x.rounds (t.next / batchRound) && t.todo.isEmpty && t.headLeft == 0

/-- The geometry unit of sector `k` takes its next batch of the pass of partition `p` (R204): `outs` holds what the
vertex shader leaves for each vertex index of the batch: x, y, z, w and the varyings. -/
def execGeometryBatch (p : Part) (k : Sector) (outs : List (Nat × List Word)) (s : State) : Out :=
  match passOf s p with
  | none => .next s
  | some x =>
    match x.sorters.find? (·.sector == k.val) with
    | none => .next s
    | some t =>
      if geoNext s k = some p.val then .next (binBatch s p k t.next x outs)
      else if passLive s x && x.mode == .binning && x.faultAt.isNone && (preOf s x.key).isNone && roundOver x then
        .next (startPartial s p true)
      else .next s

/-! ### Growing the pool (R220 to R226) -/

/-- A decline (R222, R224, R226, R239): ignored without a fault; after an owner's loss it ends the pass with 0x62;
with nothing binned since a partial render it ends it with 0x65; else a partial render starts. -/
def declineBins (s : State) (p : Nat) : State :=
  match passOf s p with
  | none => s
  | some x =>
    if x.faultAt.isNone then s
    else if x.failed ≠ [] then markJob s x.key 0x62
    else if x.hadPartial ∧ !x.binnedSince then markJob s x.key 0x65
    else startPartial s p false

/-- An answer for the pool of partition `p` (R220, R221, R223): the chunks `r` keeps, or a decline. -/
def answerBins (s : State) (p passId count : Nat) (r : List PoolRange) : State :=
  match passOf s p with
  | none => s
  | some x =>
    if passId ≠ fld s (passOff p 0) 16 16 then s
    else
      let keep := (r.map fun g => { g with count := min g.count (65535 - x.total) }).filter fun g => g.count != 0
      if count = 0 ∨ keep = [] ∨ 8 ≤ x.pool.length then declineBins s p
      else
        let resume := x.faultAt.isSome
        let s := updPass s p fun x =>
          { x with pool := x.pool ++ keep, faultAt := none, sorters := x.sorters.map fun t => { t with stalled := false } }
        let s := passRegs s p
        if resume then resumeSorters s p else s

/-- What the command does once its checks pass: GROW_BINS answers for the pass of its queue's partition and completes
(R245). -/
def actGrowBins (s : State) (n : Nat) (w : List Nat) (refs : List Ref) : State :=
  let s := beginAt s n w.length
  let q := (slotOf s n).queue
  let count := bits (nth w 1) 0 16
  let r := (ref0 refs).plus (nth w 3 / 256 * 256 + hi32 (bits (nth w 4) 0 8))
  instantJob (answerBins s (que s q).part (bits (nth w 1) 16 16) count (poolRange r count)) q 0

/-- GROW_BINS adds a chunk range to the pool, or declines (R245). The range is looked up, and needs WRITE, only when
COUNT is not 0. -/
def execGrowBins (n : Slot) (s : State) : Out :=
  .next (decodeCmd s n { op := 0x25, needs := fun w => if bits (nth w 1) 0 16 = 0 then [] else
    [(nth w 2, { write := true })], act := actGrowBins })

/-- The whole chunks of a range that lie inside partition `p`'s HBM3E range (R221). -/
def chunksInside (s : State) (p a count : Nat) : List PoolRange :=
  let skip := min count (ceilDiv (hbmLo s p - a) 65536)
  let n := min (count - skip) ((hbmHi s p - (a + 65536 * skip)) / 65536)
  if n = 0 then [] else [{ addr := a + 65536 * skip, count := n }]

/-- A write of `v` to SEC_PASS_GROW_CNT of partition `p` (R220). -/
def growCntWrite (s : State) (p v : Nat) : State :=
  let a := rd s (passOff p 0x0C) / 256 * 256 + hi32 (fld s (passOff p 0x10) 0 16)
  answerBins s p (bits v 16 16) (bits v 0 16) (chunksInside s p a (bits v 0 16))

/-- A write of `v` to SEC_PASS_GROW_CNT of partition `p` through function `fn`'s MW0: it takes effect only from the
function that owns the partition (R246), outside a reset of it (R448). -/
def execSecPassGrowCntWrite (fn p : Part) (v : Word) (s : State) : Out :=
  if fn = p ∧ mw0On s fn ∧ ptStage s p = 0 then .next (growCntWrite s p v.toNat) else .next s

/-- SEC_PASS_WAIT microseconds have passed since a fault with no answer (R222). -/
def execBinWaitExpiry (p : Part) (s : State) : Out :=
  let w := fld s (passOff p 0x18) 0 16
  match (passOf s p).bind (·.faultAt) with
  | some t => if w ≠ 0 ∧ t + 12000 * w ≤ s.now then .next (declineBins s p) else .next s
  | none => .next s

/-! ### Tile visits (R227 to R236) -/

/-- The pixels of a tile inside the pass area: width and height. -/
def tileSize (d : List Nat) (l : Nat) : Nat × Nat :=
  (min 64 (pdWidth d - 64 * (l % pdTw d)), min 64 (pdHeight d - 64 * (l / pdTw d)))

/-- The bin slot of a visit (R99): the stored depth/stencil and colour of each sample, by pixel × samples + sample
with 64 pixels to a row, and the shader outputs not yet used. -/
structure Bin where
  ds : Nat → Nat
  col : Nat → Nat → Nat
  px : List PxOut

/-- The samples of attachment `a` (4 for depth/stencil). -/
def Bin.plane (b : Bin) (a : Nat) : Nat → Nat := if a = 4 then b.ds else b.col a

/-- Tests and blends one sample of a pixel (R231 to R233). -/
def binSample (p : Pass) (st : List Nat) (t : Tri) (out : PxOut) (x y idx i : Nat) (b : Bin) : Bin :=
  let pos := sampleAt (pdSamples p.desc) x y i
  let k := idx * pdSamples p.desc + i
  let z := if bit (nth st 2) 11 then fpUnit out.depth.toNat else planeZ t pos.1 pos.2
  let (ok, ds') := dsTest st (pdDsFmt p.desc) t.front z (b.ds k)
  let b := { b with ds := fun j => if j = k then ds' else b.ds j }
  if !ok then b
  else
    { b with col := fun a j =>
        if j = k ∧ a < pdAtts p.desc then
          blend st a (pdAttFmt p.desc a) (((out.colors.drop (4 * a)).take 4).map BitVec.toNat) (b.col a k)
        else b.col a j }

/-- Shades one pixel of a triangle: the shader runs when a sample is covered (R230), and the samples it keeps are
tested and blended in order. -/
def binPixel (p : Pass) (l : Nat) (t : Tri) (b : Bin) (idx : Nat) : Bin :=
  let st := p.drawState t.draw
  let (x0, y0, _, _) := tileRect p.desc l
  let (sx0, sy0, sx1, sy1) := dsScissor st
  let (w, h) := tileSize p.desc l
  let x := x0 + idx % 64
  let y := y0 + idx / 64
  let n := pdSamples p.desc
  let hit := if idx % 64 < w ∧ idx / 64 < h ∧ sx0 ≤ x ∧ x < sx1 ∧ sy0 ≤ y ∧ y < sy1 then
      (List.range n).filter fun i => covers t n x y i else []
  if hit = [] then b
  else
    let out := b.px.headD { keep := 15, depth := 0, colors := [] }
    let hit := if bit (nth st 2) 12 then hit.filter fun i => bit out.keep i else hit
    hit.foldl (fun b i => binSample p st t out x y idx i b) { b with px := b.px.drop 1 }

/-- Shades one triangle over a tile, pixel by pixel in row order. -/
def binTri (p : Pass) (l : Nat) (b : Bin) (t : Tri) : Bin := (List.range 4096).foldl (binPixel p l t) b

/-- Puts an entry behind those of its batch and lower ones (R228: ascending batch, primitive order within one). -/
def entInsert (x : TileEnt) : List TileEnt → List TileEnt
  | [] => [x]
  | y :: r => if x.tri.batch < y.tri.batch then x :: y :: r else y :: entInsert x r

/-- The entries of a tile in the order of R228. -/
def Pass.entriesOf (p : Pass) (l : Nat) : List TileEnt :=
  (p.entries.filter fun x => x.tile == l).foldl (fun acc x => entInsert x acc) []

/-- The bytes of a surface pixel sample: its place at a reference (R234). -/
def sampleAddr (r : Ref) (pitch samples size x y i : Nat) : Nat := r.addr + y * pitch + (x * samples + i) * size

/-- The planes of a pass: each attachment, and 4 for depth/stencil where the pass has it. -/
def Pass.planes (p : Pass) : List Nat := List.range (pdAtts p.desc) ++ if pdDsFmt p.desc = 0 then [] else [4]

/-- Bytes per sample of a plane. -/
def Pass.bytes (p : Pass) (a : Nat) : Nat := if a = 4 then dsBytes (pdDsFmt p.desc) else colBytes (pdAttFmt p.desc a)

/-- The surface of a plane and its pitch. -/
def Pass.surf (p : Pass) (a : Nat) : Ref × Nat :=
  if a = 4 then (p.dsRef, pdDsPitch p.desc) else (refAt p.surfs a, pdAttPitch p.desc a)

/-- A sample of a plane read from its surface; a byte past the object's end reads as 0. -/
def surfRead (s : State) (p : Pass) (l a k : Nat) : Nat :=
  let (x0, y0, _, _) := tileRect p.desc l
  let n := pdSamples p.desc
  let (r, pitch) := p.surf a
  let idx := k / n
  let z := p.bytes a
  let at' := sampleAddr r pitch n z (x0 + idx % 64) (y0 + idx / 64) (k % n)
  if at' + z ≤ r.bound then devNat s p.part at' z else 0

/-- The clear value of a plane (R228, R241). -/
def Pass.clear (p : Pass) (a : Nat) : Nat :=
  let d := p.desc
  if a = 4 then
    let z := depthStore (pdDsFmt d) (fpUnit (nth d 2))
    let st := bits (nth d 3) 0 8
    if pdDsFmt d = 2 then z + st * 2 ^ 24 else if pdDsFmt d = 4 then st else z
  else clearColor (pdAttFmt d a) ((List.range 4).map fun c => nth d (48 + 4 * a + c))

/-- LOAD of a plane: 0 clear, 1 load, 2 don't care. -/
def Pass.load (p : Pass) (a : Nat) : Nat := if a = 4 then pdDsLoad p.desc else pdAttLoad p.desc a

/-- Whether a plane stays in the residency range between visits. -/
def Pass.isResident (p : Pass) (a : Nat) : Bool := a == 4 || pdAttResident p.desc a

/-- A free value of `z` bytes. -/
def freeSample (ep k z : Nat) : Nat :=
  ((Config.freeWord ep (2 * k)).toNat + (Config.freeWord ep (2 * k + 1)).toNat * 2 ^ 32) % 2 ^ (8 * z)

/-- The stored sample of a plane with which a visit begins (R228): by the load operation on the first visit; later
from the residency range, or from the surface for streamed colour. -/
def slotFill (s : State) (p : Pass) (l ep a k : Nat) : Nat :=
  if p.loaded.contains l then
    if p.isResident a then nth ((tabFind (8 * l + a) p.resident).getD []) k else surfRead s p l a k
  else if p.load a = 0 then p.clear a
  else if p.load a = 1 then surfRead s p l a k
  else freeSample (ep + a) k (p.bytes a)

/-- Writes bytes of a pass's surface with requester `e`, cut at the object's end; a write outside the partition's
ranges ends the pass with 0x90. -/
def surfWrite (p : Pass) (e : Nat) (r : Ref) (s : State) (x : Nat × List Byte) : State :=
  passWrite s p e x.1 (x.2.take (r.bound - x.1))

/-- The pixels of a tile inside the pass, as indexes with 64 to a row. -/
def tilePixels (d : List Nat) (l : Nat) : List Nat :=
  let (w, h) := tileSize d l
  (List.range 4096).filter fun i => Nat.blt (i % 64) w && Nat.blt (i / 64) h

/-- Writes the samples of a plane to its surface (R234). -/
def storePlane (s : State) (p : Pass) (e l a : Nat) (f : Nat → Nat) : State :=
  let (x0, y0, _, _) := tileRect p.desc l
  let n := pdSamples p.desc
  let (r, pitch) := p.surf a
  let z := p.bytes a
  ((tilePixels p.desc l).flatMap fun idx => (List.range n).map fun i =>
    (sampleAddr r pitch n z (x0 + idx % 64) (y0 + idx / 64) i, leBytes z (f (idx * n + i)))).foldl
    (surfWrite p e r) s

/-- Writes the resolved pixels of an attachment (R234). -/
def resolvePlane (s : State) (p : Pass) (e l a : Nat) (f : Nat → Nat) : State :=
  let (x0, y0, _, _) := tileRect p.desc l
  let n := pdSamples p.desc
  let r := refAt p.resolves a
  let z := p.bytes a
  ((tilePixels p.desc l).map fun idx =>
    (sampleAddr r (pdAttPitch p.desc a / n) 1 z (x0 + idx % 64) (y0 + idx / 64) 0,
     leBytes z (resolveSamples (pdAttFmt p.desc a) ((List.range n).map fun i => f (idx * n + i))))).foldl
    (surfWrite p e r) s

/-- The store operations of a tile's last visit (R228, R234). -/
def storeLast (p : Pass) (e l : Nat) (b : Bin) (s : State) (a : Nat) : State :=
  if a = 4 then (if pdDsStore p.desc then storePlane s p e l 4 b.ds else s)
  else
    let st := pdAttStore p.desc a
    let s := if st % 3 = 0 then storePlane s p e l a (b.col a) else s
    if 2 ≤ st then resolvePlane s p e l a (b.col a) else s

/-- The write-back of a visit that is not the tile's last (R228): resident data to the residency range, whose bytes
have no published layout, and streamed colour to its surface. -/
def storeMore (p : Pass) (e l : Nat) (b : Bin) (s : State) (a : Nat) : State :=
  if p.isResident a then
    let n := 4096 * pdSamples p.desc
    let lo := e * 2 ^ 22 + pdResTm p.desc
    let s := { s with tile := s.tile.blank lo (lo + p.resOn e) (s.fresh + 1), fresh := s.fresh + 1 }
    updPass s p.part fun x =>
      { x with resident := tabInsert (8 * l + a) ((List.range n).map (b.plane a)) (tabDrop (8 * l + a) x.resident) }
  else storePlane s p e l a (b.col a)

/-- A visit of tile `l` on engine `e` (R228). -/
def visit (s : State) (p : Pass) (e l : Nat) (px : List PxOut) : State :=
  let ep := s.fresh + 1
  let s := { s with fresh := s.fresh + 8 }
  let b0 : Bin := { ds := slotFill s p l ep 4, col := slotFill s p l ep, px := px }
  let b := (p.entriesOf l).foldl (fun b x => binTri p l b x.tri) b0
  let s := p.planes.foldl (if p.mode = .final then storeLast p e l b else storeMore p e l b) s
  updPass (resumeTimer s p.key) p.part fun x =>
    { x with done := x.done ++ [l], loaded := if x.loaded.contains l then x.loaded else x.loaded ++ [l],
             held := if x.held.contains e then x.held else x.held ++ [e] }

/-- The tiles an owner visits under the present mode, ascending (R227). -/
def Pass.toVisit (p : Pass) (e : Nat) : List Nat :=
  (p.tilesOn e).filter fun l => !p.done.contains l
    && (p.mode == .final || p.entries.any fun x => x.tile == l)

/-- The orphans that no survivor has taken (R238). -/
def Pass.orphans (p : Pass) : List Nat :=
  (List.range (pdTw p.desc * pdTh p.desc)).filter fun l =>
    p.failed.contains (p.owners.getD (tileOwner l p.owners.length) 0) && !p.done.contains l

/-- The next tile that engine `e` visits: its own, and at pass end, once every survivor has finished its own, an
orphan (R227, R238). -/
def Pass.nextTile (p : Pass) (e : Nat) : Option Nat :=
  if p.mode = .binning ∨ !p.alive.contains e then none
  else match p.toVisit e with
    | l :: _ => some l
    | [] => if p.mode = .final ∧ p.alive.all fun o => p.toVisit o = [] then p.orphans.head? else none

/-- Whether every batch of a pass has been binned. -/
def Pass.binned (p : Pass) : Bool :=
  p.faultAt.isNone && p.sorters.all fun t => Nat.ble p.batches t.next && t.todo.isEmpty && t.headLeft == 0

/-- A closed pass whose batches are binned enters its last visits (R227). -/
def enterFinal (s : State) (p : Nat) : State :=
  updPass s p fun x => if x.closed ∧ x.mode = .binning ∧ x.binned then { x with mode := .final, done := [] } else x

/-- The active pass that engine `e` owns tiles of. -/
def passOn (s : State) (e : Nat) : Option Pass := s.passes.find? fun x => x.owners.contains e

/-- Engine `e` shades its next tile (R228): `px` holds what the pixel shader leaves for each pixel it runs on, in
order. A visit that another queue's live range keeps off the engine makes the dispatchers choose a victim (R260). -/
def execTileVisit (e : Eng) (px : List PxOut) (s : State) : Out :=
  let s := match passOn s e with
    | some x => enterFinal s x.part
    | none => s
  match passOn s e with
  | none => .next s
  | some x =>
    match x.nextTile e with
    | none => .next s
    | some l =>
      if !passLive s x ∨ !engLive s e ∨ (eng s e).inReset then .next s
      else if (match preOf s x.key with
               | some y => !y.restored.contains e.val
               | none => restorePending s e) then .next s
      else if x.tilesOn e ≠ [] ∧ (x.tilesOn e).contains l ∧
          liveClash s e x.queue (pdResTm x.desc) (pdResSize x.desc) then
        .next (preempt s x.part (effPrio s x.queue))
      else .next (visit s x e l px)

/-- Every owner has finished its visits of a partial render: the pool is released, each sorter takes a new head
table, and binning resumes (R224). -/
def execPartialRenderDone (p : Part) (s : State) : Out :=
  match passOf s p with
  | none => .next s
  | some x =>
    if x.mode ≠ .partialRender ∨ !passLive s x ∨ x.alive.any (fun e => x.toVisit e ≠ []) then .next s
    else
      let fresh (t : Sorter) : Sorter :=
        { sector := t.sector, next := t.next, headLeft := headChunks x.desc, todo := t.todo, entered := t.entered }
      let s := updPass s p fun x =>
        { x with mode := .binning, used := 0, entries := [], done := [], hadPartial := true, binnedSince := false,
                 rounds := if x.roundRender then x.rounds + 1 else x.rounds, roundRender := false,
                 sorters := x.sorters.map fresh }
      let s := bumpSat (passRegs s p) (passOff p 0x1C) 16 16
      .next (resumeSorters s p)

/-! ### Completion and the loss of an owner (R200, R203, R238, R239) -/

/-- The pass of partition `p` ends: its pool is released. -/
def closePass (s : State) (x : Pass) : State :=
  let s := { s with passes := s.passes.filter (·.part != x.part), pres := s.pres.filter (·.key != x.key),
                    xfers := s.xfers.filter (·.key != x.key) }
  passRegs s x.part

/-- Ends the job of a pass that has stopped or met an error. -/
def endStoppedPass (s : State) (x : Pass) : State :=
  match jobOf s x.key with
  | none => closePass s x
  | some j =>
    let s := closePass s x
    if j.stop.isSome then stopJob s x.key
    else if j.err = 0x90 ∨ j.err = 0x41 then endJob s x.key j.err
    else failJob s x.key j.err

/-- The pass of partition `p` completes once every tile's last visit is over (R200), or once it has stopped at its
break points (R203, R226, R239). -/
def execPassComplete (p : Part) (s : State) : Out :=
  let s := enterFinal s p
  match passOf s p with
  | none => .next s
  | some x =>
    if !passLive s x then .next (restoreScan (rebindIdle (endStoppedPass s x) p))
    else if x.mode = .final ∧ (x.alive.all fun e => x.toVisit e = []) ∧ x.orphans = [] then
      let s := closePass s x
      let s := if x.lostData then
          append s { code := 0x71, tag := p, kind := 1, unit := x.owners.headD 0, queue := some x.queue,
                     owner := (que s x.queue).owner, eflan := true }
        else s
      .next (restoreScan (rebindIdle (endJob s x.key (if x.lostData then 0x71 else 0)) p))
    else .next s

/-- An owner is declared failed (R238, R239, R577): LOST is set; after a partial render the pass ends with 0x62, and
without a live engine with 0x70. -/
def passEngineLost (s : State) (e : Nat) : State :=
  match passOn s e with
  | none => s
  | some x =>
    if x.failed.contains e then s
    else
      let s := updPass s x.part fun x => { x with failed := x.failed ++ [e], held := x.held.filter (· != e) }
      let s := passRegs s x.part
      if !anyLive s x.part then markJob s x.key 0x70
      else if x.hadPartial ∨ x.mode = .partialRender then markJob s x.key 0x62
      else s

end Sys2Proof.Machine
end

