-- ==== Sys2Proof/Machine/Failure.lean ====
section
/-!
DEFINITION. Tile-memory errors, failed engines, their masking, resets and self-tests (R104 to R106, R121 to R123,
R573 to R580, R583).
-/
namespace Sys2Proof.Machine

/-! ### Clocks and domains -/

/-- Whether engine `e`'s sector is powered and clocked (PWR_DOMAIN.SECTOR and SECTOR_CLK). -/
def engClocked (s : State) (e : Nat) : Bool :=
  bit (fld s pwrDomainOff 8 4) (e / 16) && bit (fld s pwrDomainOff 12 4) (e / 16)

/-! ### Declarations (R122, R575, R576) -/

/-- ENG_STATUS.WORK of engine `e` (R124): a step, compute waves, or a tile of a pass. -/
def workOf (s : State) (e : Nat) : Work :=
  if (eng s e).seq.cur.isSome then .step
  else if (eng s e).waves.any fun w => w.work == .compute then .compute
  else if s.passes.any fun x => x.alive.contains e && x.held.contains e then .raster
  else .idle

/-- The value of ENG_STATUS.WORK. -/
def Work.code : Work → Nat
  | .idle => 0 | .compute => 1 | .raster => 2 | .step => 3

/-- Engine `e` is declared failed with cause `code` (R122): the status bits change, the sequencer stops, its work is
disposed of (R576) and Eflan's handling waits (R575). The caller has appended the cause record. -/
def declareFailed (s : State) (e code : Nat) : State :=
  if engFailed s e then s
  else
    let q := e / 4
    let w := workOf s e
    let s := setFld s (engOff e 8) 2 1 1
    let s := setFld s (qdOff q 0) (4 + e % 4) 1 1
    let s := setFld s (qdOff q 0) (8 + e % 4) 1 0
    let s := computeEngineLost s e
    let s := passEngineLost s e
    let s := seqEnd s e true
    let s := modelEngineLost s e
    let x := eng s e
    let s := setEng s e { x with waves := [], tq := [], waits := [], releases := [], declared := x.declared + 1, cause := code,
                                 lostWork := w, failedAt := aclk s }
    { s with failOrder := s.failOrder ++ [e] }

/-! ### Tile-memory errors (R104, R105) -/

/-- Records an error of a tile-memory word in ENG_TM_ERR (R104, R105). -/
def tmErrReg (s : State) (e word : Nat) (ue : Bool) : State :=
  wr s (engOff e 0x38) (1 + 2 * b2n ue + word % 2 ^ 18 * 2 ^ 4)

/-- Counts a correction of engine `e` in ENG_TM_CE_CNT; every 1,024th is logged as 0x40 with the count (R104, R114). -/
def countCorrection (s : State) (e : Nat) : State :=
  let s := bumpSat s (engOff e 0x34) 0 32
  let n := rd s (engOff e 0x34)
  if n % 1024 = 0 then append s { code := 0x40, tag := engPart s e, kind := 1, unit := e, detail := [n] } else s

/-- A corrected error of word `word` of engine `e`'s tile memory (R104): recorded and counted; the corrected value waits
for a free bank. -/
def tmCorrected (s : State) (e word : Nat) : State :=
  let s := tmErrReg s e word false
  let x := eng s e
  let s := setEng s e { x with corrections := x.corrections.filter (· != word) ++ [word] }
  countCorrection s e

/-- An uncorrectable error of a word of engine `e`'s tile memory (R105): the cause record names the work that made
the access, and the engine is declared failed. -/
def tmUncorrectable (s : State) (e word : Nat) (w : Who := {}) : State :=
  let s := tmErrReg s e word true
  let s := append s { code := 0x41, tag := engPart s e, kind := 1, unit := e, queue := w.queue, owner := w.owner,
                      detail := [word * 16] }
  declareFailed s e 0x41

/-- What the check code of a word shows: nothing, a correction, or a failure. -/
def tmEcc (s : State) (e word : Nat) (w : Who) : Ecc → State
  | .ok => s
  | .corrected => tmCorrected s e word
  | .uncorrectable => tmUncorrectable s e word w

/-- The corrected word of an error is written back in a cycle in which its bank is free (R104). Memory holds the
corrected value already. -/
def execTmCorrectionWriteback (e : Eng) (s : State) : Out :=
  .next (setEng s e { eng s e with corrections := (eng s e).corrections.drop 1 })

/-- The scrubber of engine `e` reads its next word in ACLK cycle `c` (R106), while it is enabled and its sector
clocked. -/
def execTmScrub (e : Eng) (c : Nat) (ecc : Ecc) (s : State) : Out :=
  let s := atAclk s c
  let x := eng s e
  if fld s (engOff e 0x3C) 0 1 = 0 ∨ !engClocked s e ∨ aclk s < x.scrubAt + fld s (engOff e 0x3C) 8 8 * 256 then .next s
  else
    .next (tmEcc (setEng s e { x with scrubAt := aclk s, scrubWord := (x.scrubWord + 1) % 2 ^ 18 }) e x.scrubWord {} ecc)

/-! ### Heartbeats and the watchdog (R121) -/

/-- Engine `e` sends its heartbeat in ACLK cycle `c` (R121). -/
def execEngineHeartbeat (e : Eng) (c : Nat) (s : State) : Out :=
  let s := atAclk s c
  if !engClocked s e ∨ aclk s < (eng s e).beatAt + 1024 then .next s
  else .next (setEng s e { eng s e with beatAt := aclk s })

/-- LIMIT cycles have passed without a heartbeat of engine `e` by ACLK cycle `c` (R121): its quad counts, records
0x43 and declares it failed. An engine that failed in this cycle for its tile memory gets the second record alone
(R580). -/
def execQuadWatchdogExpiry (e : Eng) (c : Nat) (s : State) : Out :=
  let s := atAclk s c
  let q := e.val / 4
  if fld s (qdOff q 8) 31 1 = 0 ∨ !engClocked s e ∨ aclk s < (eng s e).beatAt + fld s (qdOff q 8) 0 24
      ∨ (engFailed s e ∧ (eng s e).failedAt ≠ aclk s) then .next s
  else
    let s := bump s (qdOff q 0x0C)
    let s := append s { code := 0x43, tag := engPart s e, kind := 1, unit := e, queue := (eng s e).seq.plan.queue.filter fun _ =>
                          (eng s e).seq.cur.isSome }
    .next (declareFailed s e 0x43)

/-! ### Masking and engine resets (R39, R575, R583) -/

/-- What an engine reset does at once (R583): waves, tensor state, releases and the far-line cache are dropped, and
g0 to g31 become 0; the engine is masked. -/
def resetEngine (s : State) (e : Nat) : State :=
  let x := eng s e
  setEng s e { x with waves := [], stepG := [], stage0 := {}, stage1 := {}, acc0 := {}, acc1 := {}, tq := [],
                      loadFree := 0, arrayFree := 0, drainFree := 0, lines := [], waits := [], outstanding := 0, releases := [],
                      acq := x.acq + 1, inReset := true, resetFrom := aclk s,
                      seq := { x.seq with armed := false, cur := none, next := none, poll := none, met := none,
                                          stopSent := false, stopAsked := false } }

/-- Eflan handles the failed engine that was declared first (R575 orders 2 and 3): its reset is asserted, 0x45 is
appended and vector 3 raised to the partition's owner and the physical function. -/
def execEngineFailMask (s : State) : Out :=
  match s.failOrder with
  | [] => .next s
  | e :: r =>
    let s := resetEngine { s with failOrder := r } e
    let x := eng s e
    let p := engPart s e
    let s := append s { code := 0x45, tag := p, kind := 1, unit := e, eflan := true,
                        detail := [x.cause, x.lostWork.code, x.declared] }
    let s := raise s 0 3
    .next (if p = 0 ∨ p = tagM then s else raise s p 3)

/-- An engine reset ends after 256 ACLK cycles (R583); a failed engine stays held, and one that a partition reset
resets is released with its partition (R447, R575). -/
def execEngineResetEnd (e : Eng) (c : Nat) (s : State) : Out :=
  let s := atAclk s c
  let x := eng s e
  if x.inReset ∧ !engFailed s e ∧ x.resetFrom + 256 ≤ aclk s ∧ ptStage s (engPart s e) = 0 then
    .next (setEng s e { x with inReset := false })
  else .next s

/-! ### Self-tests (R579) -/

/-- Starts the self-test of each failed engine of a list that is not retired (R579). -/
def startTests (s : State) : List Nat → State
  | [] => s
  | e :: es =>
    let x := eng s e
    startTests (if engFailed s e ∧ x.declared < 3 then setEng s e { x with testing := some (aclk s) } else s) es

/-- The self-test of engine `e` ends after 131,072 ACLK cycles (R579): its tile memory is zero, and the engine returns
to service with 0x47 or stays failed with 0x46. -/
def execSelfTestEnd (e : Eng) (pass : Bool) (c : Nat) (s : State) : Out :=
  let s := atAclk s c
  let x := eng s e
  match x.testing with
  | none => .next s
  | some t =>
    if aclk s < t + 131072 then .next s
    else
      let q := e.val / 4
      let s := setEng { s with tile := s.tile.blank (e * 2 ^ 22) ((e + 1) * 2 ^ 22) 0 } e { x with testing := none }
      if pass then
        let s := setFld s (engOff e 8) 2 1 0
        let s := setFld s (qdOff q 0) (4 + e % 4) 1 0
        let s := setFld s (qdOff q 0) (8 + e % 4) 1 (fld s (qdOff q 0) (e % 4) 1)
        .next (append s { code := 0x47, tag := engPart s e, kind := 1, unit := e, eflan := true })
      else .next (append s { code := 0x46, tag := engPart s e, kind := 1, unit := e, eflan := true })

end Sys2Proof.Machine
end

