-- ==== Sys2Proof/Machine/Copy.lean ====
section
/-!
DEFINITION. Places (R349), COPY and its channels (R413, R414).
-/
namespace Sys2Proof.Machine

/-! ### Places (R349, R365) -/

/-- The handle that the triple of words at `i` uses, if it names a memory object. -/
def placeNeed (w : List Nat) (i : Nat) (need : Need) : List (Nat × Need) :=
  if bit (nth w (i + 2)) 8 then [] else [(nth w i, need)]

/-- The place that the triple of words at `i` names (R349); none for tile memory of a partition without engines. `r` is
the relocated handle. -/
def placeOf (s : State) (part : Nat) (w : List Nat) (i : Nat) (r : Ref) : Option Place :=
  let t := nth w (i + 2)
  if bit t 8 then
    let l := logEngs s part
    (l[min (bits t 16 6) (l.length - 1)]?).map fun e => .tile e (bits (nth w (i + 1)) 0 22)
  else some (.obj (r.plus (nth w (i + 1) + hi32 (bits t 0 8))))

/-- `n` bytes at a place, cut at the end of its object or of the tile memory (R350, R413). -/
def Place.cut (p : Place) (n : Nat) : Nat :=
  match p with
  | .obj r => r.cut n
  | .tile _ off => min n (2 ^ 22 - off)

/-- A place moved by `k` bytes. -/
def Place.plus (p : Place) (k : Nat) : Place :=
  match p with
  | .obj r => .obj (r.plus k)
  | .tile e off => .tile e (off + k)

/-- `n` bytes at a place. -/
def placeBytes (s : State) (tag : Nat) (p : Place) (n : Nat) : List Byte :=
  match p with
  | .obj r => devBytes s tag r.addr n
  | .tile e off => s.tile.readBytes (e * 2 ^ 22 + off) n

/-- Writes bytes at a place. -/
def placeWrite (s : State) (tag : Nat) (p : Place) (data : List Byte) : State :=
  match p with
  | .obj r => devWrite s tag r.addr data
  | .tile e off => { s with tile := s.tile.writeBytes (e * 2 ^ 22 + off) data }

/-- The offset of the first byte of `n` at a place that a read may not reach, with its device address (R310). -/
def placeReadFault (s : State) (tag : Nat) (p : Place) (n : Nat) : Option (Nat × Nat) :=
  match p with
  | .obj r => (readFault s tag r.addr n).map fun a => (a - r.addr, a)
  | .tile _ _ => none

/-- The same for a write. -/
def placeWriteFault (s : State) (tag : Nat) (p : Place) (n : Nat) : Option (Nat × Nat) :=
  match p with
  | .obj r => (writeFault s tag r.addr n).map fun a => (a - r.addr, a)
  | .tile _ _ => none

/-- What the check code of the word at byte `k` of a place does (R104, R105, R326, R327). -/
def placeEcc (s : State) (p : Place) (k : Nat) (w : Who) (ecc : Ecc) : State :=
  match p with
  | .obj r => mcEcc s (r.addr + k) ecc
  | .tile e off => tmEcc s e ((off + k) / 16) w ecc

/-- The code of an uncorrectable error at a place. -/
def Place.errCode : Place → Nat
  | .obj _ => 0x92
  | .tile _ _ => 0x41

/-- The device address of byte `k` of a place, 0 in tile memory. -/
def Place.addr (p : Place) (k : Nat) : Nat :=
  match p with
  | .obj r => r.addr + k
  | .tile _ off => off + k

/-! ### COPY (R413, R414) -/

/-- The handles of a COPY. -/
def copyNeeds (w : List Nat) : List (Nat × Need) :=
  placeNeed w 1 { read := true } ++ placeNeed w 4 { write := true }

/-- Begins a COPY as a job: it waits for a channel (R414). -/
def beginCopy (s : State) (n : Nat) (w : List Nat) (refs : List Ref) : State :=
  let q := (slotOf s n).queue
  let part := (que s q).part
  let dstRef := if bit (nth w 3) 8 then refAt refs 0 else refAt refs 1
  match placeOf s part w 1 (refAt refs 0), placeOf s part w 4 dstRef with
  | some a, some b =>
    let len := nth w 7 + hi32 (bits (nth w 8) 0 8)
    let s := startJob s q .copy
    { s with copies := s.copies ++ [{ key := s.jobKey, src := a, dst := b, len := min (a.cut len) (b.cut len) }] }
  | _, _ => instantJob (localViolation s part 84 (bits (nth w 2) 0 22) false (bits (nth w 3) 16 6) (whoQ s q)) q 0x90

/-- COPY starts in order. -/
def actCopy (s : State) (n : Nat) (w : List Nat) (refs : List Ref) : State :=
  startOr (prevDone s (slotOf s n).queue) 0x13 beginCopy s n w refs

/-- COPY queues a byte move between two places (R413). -/
def execCopy (n : Slot) (s : State) : Out :=
  .next (decodeCmd s n { op := 0x13, needs := copyNeeds, act := actCopy })

/-- The lowest free copy channel. -/
def freeChannel (s : State) : Option Nat := (List.range 4).find? fun k => !(s.copies.any fun c => c.chan == some k)

/-- The first COPY that waits, in order of job start, takes a free channel (R414). -/
def execCopyChannelStart (s : State) : Out :=
  match freeChannel s, s.copies.find? (·.chan.isNone) with
  | some k, some c =>
    .next { s with copies := s.copies.map fun x => if x.key = c.key then { x with chan := some k } else x }
  | _, _ => .next s

/-- How many bytes a COPY moves: all, or, told to stop, those up to a break point that the spec does not fix. -/
def copyLen (s : State) (c : CopyJob) : Nat × State :=
  match (jobOf s c.key).bind (·.stop) with
  | none => (c.len, s)
  | some _ =>
    let r := free s
    (min c.len (r.1 % (c.len / 65536 + 1) * 65536), r.2)

/-- The smallest of the positions at which a COPY is cut short. -/
def cutAt (n : Nat) : List (Option Nat) → Nat
  | [] => n
  | some k :: r => cutAt (min k n) r
  | none :: r => cutAt n r

/-- The COPY on channel `k` ends (R414): the bytes are moved in order, up to the first that fails a range check (R310)
or, with `ecc` uncorrectable, up to byte `pos` of the source (R573), and the job completes. -/
def copyEnd (s : State) (c : CopyJob) (k pos : Nat) (ecc : Ecc) : State :=
  match jobOf s c.key with
  | none => { s with copies := s.copies.filter (·.key != c.key) }
  | some j =>
    let (n, s) := copyLen s c
    let s := { s with copies := s.copies.filter (·.key != c.key) }
    let who := whoQ s j.queue
    let rf := placeReadFault s j.part c.src n
    let wf := placeWriteFault s j.part c.dst n
    let bad := if pos < n ∧ ecc = .uncorrectable then some pos else none
    let m := cutAt n [rf.map (·.1), wf.map (·.1), bad]
    let s := placeWrite s j.part c.dst (placeBytes s j.part c.src m)
    let s := if pos < n ∧ ecc = .corrected then placeEcc s c.src pos who ecc else s
    if m = n then (if j.stop.isSome then stopJob s c.key else endJob s c.key 0)
    else if bad = some m then
      let s := placeEcc s c.src m who .uncorrectable
      let s := if c.src.errCode = 0x92 then jobRecord s j.queue 0x92 9 k (two (c.src.addr m)) else s
      endJob s c.key c.src.errCode
    else if rf.map (·.1) = some m then endJob (violation s j.part 84 ((rf.map (·.2)).getD 0) who) c.key 0x90
    else endJob (violation s j.part 84 ((wf.map (·.2)).getD 0) who) c.key 0x90

/-- The last byte of the COPY on channel `k` is acknowledged, and the job completes (R414). -/
def execCopyComplete (k : Fin 4) (pos : Nat) (ecc : Ecc) (s : State) : Out :=
  match s.copies.find? (·.chan == some k.val) with
  | none => .next s
  | some c => .next (copyEnd s c k pos ecc)

end Sys2Proof.Machine
end

