-- ==== Sys2Proof/Machine/Tsf.lean ====
section
/-!
DEFINITION. The Tarwen Stream Format (R332 to R340) and fixed-ratio block coding (R342 to R346) as functions on
bytes.
-/
namespace Sys2Proof.Machine

/-! ### CRC-32 (R336) -/

/-- `k` shifts of the reflected CRC register. -/
def crcShift (c : Nat) : Nat → Nat
  | 0 => c
  | k + 1 => crcShift (if c % 2 = 1 then Nat.xor (c / 2) 0xEDB88320 else c / 2) k

/-- The CRC register after a list of bytes. -/
def crcFeed (c : Nat) : List Byte → Nat
  | [] => c
  | b :: r => crcFeed (crcShift (Nat.xor c b.toNat) 8) r

/-- CRC-32 of a list of bytes. -/
def crc32 (l : List Byte) : Nat := Nat.xor (crcFeed 0xFFFFFFFF l) 0xFFFFFFFF

/-! ### Stream and block headers (R333, R334) -/

/-- Bytes of a full TSF block. -/
def tsfBlock : Nat := 65536

/-- A stream header. -/
def tsfHeader (level streamId : Nat) : List Byte :=
  let b := wordBytes [0x31465354, 1 + level % 16 * 2 ^ 8 + 16 * 2 ^ 16, streamId, 0, 0, 0, 0]
  b ++ leBytes 4 (crc32 b)

/-- Whether 32 bytes are a stream header that the decoder takes (R338). -/
def tsfHeaderOk (b : List Byte) : Bool :=
  let w := bytesWords b
  nth w 0 == 0x31465354 && bits (nth w 1) 0 8 == 1 && bits (nth w 1) 16 5 == 16 && nth w 7 == crc32 (b.take 28)

/-- A block header. -/
def tsfBlockHeader (coded last : Bool) (raw len crc : Nat) : List Byte :=
  wordBytes [b2n coded + 2 * b2n last + 0x7A5B * 2 ^ 16, raw, len, crc]

/-- Whether a block header's words break no check of R338. -/
def tsfBlockOk (w : List Nat) : Bool :=
  let coded := bit (nth w 0) 0
  let last := bit (nth w 0) 1
  let raw := bits (nth w 1) 0 17
  let len := bits (nth w 2) 0 17
  bits (nth w 0) 16 16 == 0x7A5B
    && (if last then Nat.ble raw tsfBlock && (raw != 0 || !coded) else raw == tsfBlock)
    && (if coded then Nat.blt len tsfBlock else len == raw)

/-! ### Decoding a coded block (R337) -/

/-- Reads extension bytes: the sum and the bytes that follow; none past the end. -/
def tsfExt : List Byte → Option (Nat × List Byte)
  | [] => none
  | b :: r => if b.toNat = 255 then (tsfExt r).map fun (v, t) => (v + 255, t) else some (b.toNat, r)

/-- Copies `n` bytes from `off` back; the newest byte stands first. -/
def tsfCopy (out : List Byte) (off : Nat) : Nat → List Byte
  | 0 => out
  | n + 1 => tsfCopy (out.getD (off - 1) 0#8 :: out) off n

/-- One sequence of a coded block. -/
def tsfSeq (p out : List Byte) : Option (List Byte × List Byte) :=
  match p with
  | [] => none
  | t :: p1 =>
    let lit0 := t.toNat % 16
    let mc := t.toNat / 16
    if lit0 = 0 ∧ mc = 0 then none
    else do
      let (le, p2) ← if lit0 = 15 then tsfExt p1 else some (0, p1)
      let (me, p3) ← if mc = 15 then tsfExt p2 else some (0, p2)
      let lit := lit0 + le
      match (if mc = 0 then some (0, p3) else match p3 with
             | a :: b :: r => some (leNat [a, b] + 1, r)
             | _ => none) with
      | none => none
      | some (off, p4) =>
        if p4.length < lit then none
        else
          let out1 := (p4.take lit).reverse ++ out
          if mc ≠ 0 ∧ min out1.length 65536 < off then none
          else some (p4.drop lit, if mc = 0 then out1 else tsfCopy out1 off (mc + 3 + me))

/-- The sequences of a coded block: the output behind the window, newest byte first. -/
def tsfSeqs (out : List Byte) : Nat → List Byte → Option (List Byte)
  | _, [] => some out
  | 0, _ :: _ => none
  | k + 1, p =>
    match tsfSeq p out with
    | some (p', out') => tsfSeqs out' k p'
    | none => none

/-- Decodes a coded payload behind the window `hist` (newest first) into `raw` bytes; none where R338 gives 0xA0. -/
def tsfDecode (hist payload : List Byte) (raw : Nat) : Option (List Byte) :=
  match tsfSeqs hist payload.length payload with
  | none => none
  | some out =>
    let o := (out.take (out.length - hist.length)).reverse
    if o.length = raw then some o else none

/-! ### Encoding a block (R339, R340) -/

/-- How far the bytes at `p` and `q` agree, below `n`. -/
def tsfAgree (d : List Byte) (p q : Nat) : Nat → Nat
  | 0 => 0
  | n + 1 => if d.getD p 0#8 = d.getD q 0#8 then tsfAgree d (p + 1) (q + 1) n + 1 else 0

/-- The best match at `p` among candidates at distance `dist` and more, of which `left` may still be examined:
the longest, and among equals the nearest. -/
def tsfSearch (d : List Byte) (p stop : Nat) (best : Nat × Nat) (left : Nat) (dist : Nat) : Nat → Nat × Nat
  | 0 => best
  | k + 1 =>
    if left = 0 ∨ p < dist then best
    else
      let n := tsfAgree d p (p - dist) (stop - p)
      if n < 4 then tsfSearch d p stop best left (dist + 1) k
      else tsfSearch d p stop (if best.1 < n then (n, dist) else best) (left - 1) (dist + 1) k

/-- Candidates examined at a level (R339). -/
def tsfDepth (level : Nat) : Nat := nth [0, 4, 8, 12, 16, 32, 48, 64, 128, 256] level

/-- Extension bytes of a count. -/
def tsfExtBytes (v : Nat) : List Byte := List.replicate (v / 255) 255#8 ++ [BitVec.ofNat 8 (v % 255)]

/-- One sequence: literals, and a match of `len` bytes at distance `off` (0 for none). -/
def tsfEmit (lits : List Byte) (len off : Nat) : List Byte :=
  let lit := min 15 lits.length
  let mc := if len = 0 then 0 else min 15 (len - 3)
  [BitVec.ofNat 8 (lit + 16 * mc)]
    ++ (if lit = 15 then tsfExtBytes (lits.length - 15) else [])
    ++ (if mc = 15 then tsfExtBytes (len - 18) else [])
    ++ (if len = 0 then [] else leBytes 2 (off - 1))
    ++ lits

/-- Codes the bytes from `p` to `stop` of `d`; `lits` are the literals gathered since the last match. -/
def tsfCode (d : List Byte) (depth stop p : Nat) (lits : List Byte) : Nat → List Byte
  | 0 => []
  | k + 1 =>
    if stop ≤ p then (if lits = [] then [] else tsfEmit lits 0 0)
    else
      let m := if p + 4 ≤ stop then tsfSearch d p stop (0, 0) depth 1 65536 else (0, 0)
      if m.1 = 0 then tsfCode d depth stop (p + 1) (lits ++ [d.getD p 0#8]) k
      else tsfEmit lits m.1 m.2 ++ tsfCode d depth stop (p + m.1) [] k

/-- A coded or stored block of the bytes `data` behind the window `hist` (newest first): its header and payload
(R340). -/
def tsfEncode (hist data : List Byte) (level : Nat) (last : Bool) : List Byte :=
  let d := hist.reverse ++ data
  let n := data.length
  let p := if level = 0 then [] else tsfCode d (tsfDepth level) d.length hist.length [] (n + 1)
  if level = 0 ∨ n ≤ p.length then tsfBlockHeader false last n n (crc32 data) ++ data
  else tsfBlockHeader true last n p.length (crc32 data) ++ p

/-- The window after `data` (newest first, at most 65,536 bytes). -/
def tsfWindow (hist data : List Byte) : List Byte := (data.reverse ++ hist).take tsfBlock

/-- A stream of stored blocks over the bytes `data` (R340), as a spill writes it (R259). -/
def tsfStored (data : List Byte) : Nat → List Byte
  | 0 => []
  | k + 1 =>
    if data.length ≤ tsfBlock then tsfEncode [] data 0 true
    else tsfEncode [] (data.take tsfBlock) 0 false ++ tsfStored (data.drop tsfBlock) k

/-- The data of a stream of stored blocks; none where R338 gives an error. -/
def tsfUnstore (b : List Byte) : Nat → Option (List Byte)
  | 0 => none
  | k + 1 =>
    let w := bytesWords (b.take 16)
    let n := bits (nth w 1) 0 17
    let d := (b.drop 16).take n
    if !tsfBlockOk w ∨ bit (nth w 0) 0 ∨ d.length ≠ n ∨ crc32 d ≠ nth w 3 then none
    else if bit (nth w 0) 1 then some d
    else (tsfUnstore (b.drop (16 + n)) k).map (d ++ ·)

/-! ### Fixed-ratio coding (R342 to R345) -/

/-- The components of a pixel word of a FORMAT: their lowest bits and widths. -/
def frParts (format : Nat) : List (Nat × Nat) :=
  if format = 2 then [(0, 10), (10, 10), (20, 10), (30, 2)] else [(0, 8), (8, 8), (16, 8), (24, 8)]

/-- The value of index `i` between endpoints (R345). -/
def frValue (e0 e1 n i : Nat) : Nat := (e0 * (n - i) + e1 * i + n / 2) / n

/-- Distance of two numbers. -/
def absDiff (a b : Nat) : Nat := max a b - min a b

/-- The index from 0 to `n` with the least cost, the lower one on a tie. -/
def frBest (cost : Nat → Nat) : Nat → Nat
  | 0 => 0
  | n + 1 => let b := frBest cost n; if cost (n + 1) < cost b then n + 1 else b

/-- Smallest and largest of a list. -/
def frEnds (l : List Nat) : Nat × Nat := (l.foldl min (l.headD 0), maxOf l)

/-- Encodes 16 pixel words at 4:1 (R343): 16 bytes. -/
def frEncode4 (format : Nat) (px : List Nat) : List Byte :=
  let parts := frParts format
  let ends := parts.map fun (lo, w) => frEnds (px.map fun p => bits p lo w)
  let word (f : Nat × Nat → Nat) : Nat := ((parts.zip ends).map fun ((lo, _), e) => f e * 2 ^ lo).sum
  let cost (p i : Nat) : Nat := ((parts.zip ends).map fun ((lo, w), e) =>
    absDiff (bits p lo w) (frValue e.1 e.2 15 i) ^ 2).sum
  let idx := (px.zipIdx.map fun (p, j) => frBest (cost p) 15 * 2 ^ (4 * j)).sum
  leBytes 4 (word (·.1)) ++ leBytes 4 (word (·.2)) ++ leBytes 8 idx

/-- Where the pieces of component `c` lie in a 2:1 block (R344): the bits of e0, e1 and the index field, and the
width of the endpoints. -/
def frPlace2 (format c : Nat) : Nat × Nat × Nat × Nat :=
  if format = 2 then (68 * c, 68 * c + 10, 68 * c + 20, 10) else (64 * c, 64 * c + 8, 64 * c + 16, 8)

/-- Encodes 16 pixel words at 2:1 (R344): 32 bytes. -/
def frEncode2 (format : Nat) (px : List Nat) : List Byte :=
  let coded := if format = 2 then [0, 1, 2] else [0, 1, 2, 3]
  let v := (coded.map fun c =>
    let (lo, w) := (frParts format).getD c (0, 8)
    let vs := px.map fun p => bits p lo w
    let e := frEnds vs
    let (a, b, i, _) := frPlace2 format c
    e.1 * 2 ^ a + e.2 * 2 ^ b
      + (vs.zipIdx.map fun (x, j) => frBest (fun k => absDiff x (frValue e.1 e.2 7 k)) 7 * 2 ^ (i + 3 * j)).sum).sum
  let alpha := if format = 2 then (px.zipIdx.map fun (p, j) => bits p 30 2 * 2 ^ (204 + 2 * j)).sum else 0
  leBytes 32 (v + alpha)

/-- Pixel `j` of a 4:1 block. -/
def frDecode4 (format : Nat) (b : List Byte) (j : Nat) : Nat :=
  let e0 := leNat (b.take 4)
  let e1 := leNat ((b.drop 4).take 4)
  let i := bits (leNat (b.drop 8)) (4 * j) 4
  ((frParts format).map fun (lo, w) => frValue (bits e0 lo w) (bits e1 lo w) 15 i * 2 ^ lo).sum

/-- Pixel `j` of a 2:1 block. -/
def frDecode2 (format : Nat) (b : List Byte) (j : Nat) : Nat :=
  let v := leNat b
  let coded := if format = 2 then [0, 1, 2] else [0, 1, 2, 3]
  (coded.map fun c =>
    let (a, e, i, w) := frPlace2 format c
    frValue (bits v a w) (bits v e w) 7 (bits v (i + 3 * j) 3) * 2 ^ ((frParts format).getD c (0, 8)).1).sum
    + (if format = 2 then bits v (204 + 2 * j) 2 * 2 ^ 30 else 0)

/-- Bytes of a coded block: 32 at 2:1, 16 at 4:1 (R342). -/
def frBytes (ratio : Bool) : Nat := if ratio then 16 else 32

/-- Encodes 16 pixel words at a ratio (R343, R344). -/
def frEncode (ratio : Bool) (format : Nat) (px : List Nat) : List Byte :=
  if ratio then frEncode4 format px else frEncode2 format px

/-- Pixel `j` of a block coded at a ratio. -/
def frDecode (ratio : Bool) (format : Nat) (b : List Byte) (j : Nat) : Nat :=
  if ratio then frDecode4 format b j else frDecode2 format b j

end Sys2Proof.Machine
end

