-- ==== Sys2Proof/Machine/Cx.lean ====
section
/-!
DEFINITION. Compression engines: COMPRESS jobs (R330, R347 to R358), spills and restores (R259 to R267, R331), and the
reset by escalation (R584).
-/
namespace Sys2Proof.Machine

/-! ### The job descriptor after its clamps (R348); `d` is its words -/

/-- MODE: 0 TSF encode, 1 TSF decode, 2 fixed-ratio encode, 3 fixed-ratio decode. -/
def cdMode (d : List Nat) : Nat := let m := bits (nth d 0) 0 3; if 4 ≤ m then 0 else m

/-- LEVEL. -/
def cdLevel (d : List Nat) : Nat := min 9 (bits (nth d 0) 4 4)

/-- FINAL. -/
def cdFinal (d : List Nat) : Bool := bit (nth d 0) 8

/-- RESUME. -/
def cdResume (d : List Nat) : Bool := bit (nth d 0) 9

/-- RATIO: 4:1. -/
def cdRatio (d : List Nat) : Bool := bit (nth d 0) 10

/-- FORMAT. -/
def cdFormat (d : List Nat) : Nat := let f := bits (nth d 0) 12 2; if f = 3 then 0 else f

/-- WIDTH. -/
def cdWidth (d : List Nat) : Nat := clampTo 1 16384 (bits (nth d 18) 0 15)

/-- HEIGHT. -/
def cdHeight (d : List Nat) : Nat := clampTo 1 16384 (bits (nth d 18) 16 15)

/-- PITCH. -/
def cdPitch (d : List Nat) : Nat := bits (nth d 19) 0 24 / 4 * 4

/-- Bytes of one row of coded blocks (R342). -/
def cdRow (d : List Nat) : Nat := ceilDiv (cdWidth d) 4 * frBytes (cdRatio d)

/-- Rows of blocks. -/
def cdRows (d : List Nat) : Nat := ceilDiv (cdHeight d) 4

/-- The words of a descriptor with the low bits of the CONT offset at 0 (R348). -/
def cdWords (w : List Nat) : List Nat := w.set 16 (nth w 16 / 16 * 16)

/-- The handles a descriptor uses, in ascending word order: IN, OUT, HIST of a resumed TSF job, and CONT. -/
def cdHandles (d : List Nat) : List (Option (Nat × Need)) :=
  let h (i : Nat) (need : Need) : Option (Nat × Need) := if bit (nth d (i + 2)) 8 then none else some (nth d i, need)
  [h 2 { read := true }, h 7 { write := true },
   if cdResume d && Nat.blt (cdMode d) 2 then h 12 { read := true } else none,
   h 15 { read := cdResume d, write := true }]

/-- Input bytes (R350). -/
def cdInLen (d : List Nat) (p : Place) : Nat :=
  if cdMode d < 2 then p.cut (nth d 5 + hi32 (bits (nth d 6) 0 8))
  else if cdMode d = 2 then p.cut (cdPitch d * (cdHeight d - 1) + 4 * cdWidth d)
  else p.cut (cdRow d * cdRows d)

/-! ### Engines and queues (R330) -/

/-- The sectors whose engine a partition's COMPRESS jobs may use. -/
def cxSectors (s : State) (p : Nat) : List Nat :=
  match sectorsOf s p with
  | [] => [0, 1, 2, 3]
  | l => l

/-- Whether a transfer waits for engine `k`. -/
def xferWaits (s : State) (k : Nat) : Bool := s.xfers.any fun x => x.eng / 16 == k

/-- Whether engine `k` can take a COMPRESS job. -/
def cxFree (s : State) (k : Nat) : Bool :=
  let x := cxOf s k
  x.run.isNone && x.xfer.isNone && x.resetFrom.isNone && !xferWaits s k

/-- Begins a COMPRESS as a job: it waits for an engine (R330, R347). -/
def beginCompress (s : State) (n : Nat) (w : List Nat) (_refs : List Ref) : State :=
  let q := (slotOf s n).queue
  let s := updJob (startJob s q .compress) (s.jobKey + 1) fun j => { j with relocated := false }
  { s with compWaits := s.compWaits ++ [{ key := s.jobKey, ctx := (slotOf s n).ctx, words := w,
                                          sectors := cxSectors s (que s q).part }] }

/-- COMPRESS starts in order. -/
def actCompress (s : State) (n : Nat) (w : List Nat) (refs : List Ref) : State :=
  startOr (prevDone s (slotOf s n).queue) 0x14 beginCompress s n w refs

/-- COMPRESS queues a compression job (R347). -/
def execCompress (n : Slot) (s : State) : Out := .next (decodeCmd s n { op := 0x14, act := actCompress })

/-! ### Input, output and counters of an engine -/

/-- Engine `k` has read `i` and written `o` bytes (R359). -/
def cxMoved (s : State) (k i o : Nat) : State :=
  setCx s k { cxOf s k with inBytes := (cxOf s k).inBytes + i, outBytes := (cxOf s k).outBytes + o }

/-- The range fault of a COMPRESS access: the record of R310. -/
def cxViolation (s : State) (k : Nat) (r : CompRun) (a : Nat) : State :=
  violation s r.part (64 + k) a (match jobOf s r.key with
    | some j => whoQ s j.queue
    | none => {})

/-- A job's run ends with STATUS 3 (R357). -/
def CompRun.fail (r : CompRun) (code : Nat) : CompRun := { r with status := some 3, err := code }

/-- Reads `n` bytes at a place for engine `k`; a range fault ends the run with 0x90. -/
def cxRead (s : State) (k : Nat) (r : CompRun) (p : Place) (n : Nat) : State × CompRun × List Byte :=
  match placeReadFault s r.part p n with
  | some x => (cxViolation s k r x.2, r.fail 0x90, [])
  | none => (cxMoved s k n 0, r, placeBytes s r.part p n)

/-- Writes bytes at a place for engine `k`; a range fault ends the run with 0x90. -/
def cxWrite (s : State) (k : Nat) (r : CompRun) (p : Place) (data : List Byte) : State × CompRun :=
  match placeWriteFault s r.part p data.length with
  | some x => (cxViolation s k r x.2, r.fail 0x90)
  | none => (cxMoved (placeWrite s r.part p data) k 0 data.length, r)

/-! ### The start of a job (R347 to R351, R356) -/

/-- The continuation record's bytes at CONT; bytes past its end read as 0 (R365). -/
def contWords (s : State) (r : CompRun) : List Nat :=
  let n := r.cont.cut 64
  bytesWords (placeBytes s r.part r.cont n ++ List.replicate (64 - n) 0#8)

/-- A resumed job takes up its continuation record and, in a TSF mode, its window (R356). `hist` is the HIST place. -/
def cxResume (s : State) (k : Nat) (r : CompRun) (hist : Option Place) : State × CompRun :=
  let m := cdMode r.desc
  match placeReadFault s r.part r.cont (r.cont.cut 64) with
  | some x => (cxViolation s k r x.2, r.fail 0x90)
  | none =>
    let w := contWords s r
    let s := cxMoved s k (r.cont.cut 64) 0
    if nth w 0 ≠ 0x544E4F43 ∨ bits (nth w 1) 4 3 ≠ m ∨ (m = 0 ∧ bit (nth w 1) 13) then (s, r.fail 0xA2)
    else
      let r := { r with hdr := bit (nth w 1) 12, last := bit (nth w 1) 13, raw := nth w 6 + hi32 (nth w 7),
                        coded := nth w 8 + hi32 (nth w 9), blocks := nth w 10, nextRow := bits (nth w 12) 0 14,
                        streamId := nth w 13 }
      if 2 ≤ m then (s, r)
      else if r.last then (s, { r with status := some 0 })
      else match hist with
        | none => (s, r)
        | some p =>
          let x := cxRead s k r p (p.cut (min 65536 (bits (nth w 11) 0 17)))
          (x.1, { x.2.1 with hist := x.2.2.reverse })

/-- The stream header of a TSF job that has none yet: written by an encoder, read and checked by a decoder (R333,
R338, R351 to R353). -/
def cxHeader (s : State) (k : Nat) (r : CompRun) : State × CompRun :=
  if r.status.isSome ∨ r.hdr ∨ 2 ≤ cdMode r.desc then (s, r)
  else if cdMode r.desc = 0 then
    if r.outLen < 32 then (s, { r with status := some 1 })
    else cxWrite s k { r with hdr := true, outDone := 32, coded := r.coded + 32 } r.out
      (tsfHeader (cdLevel r.desc) r.streamId)
  else if r.inLen < 32 then (s, { r with status := some 2 })
  else
    let x := cxRead s k r r.inp 32
    if x.2.1.status.isSome then (x.1, x.2.1)
    else if !tsfHeaderOk x.2.2 then (x.1, r.fail 0xA0)
    else (x.1, { r with hdr := true, inDone := 32, coded := r.coded + 32, streamId := nth (bytesWords x.2.2) 2 })

/-- The code and address of the first problem in starting a job, or its run. -/
def cxBuild (s : State) (c : CompWait) (part : Nat) (d : List Nat) (refs : List Ref) : Option CompRun :=
  match placeOf s part d 2 (refAt refs 0), placeOf s part d 7 (refAt refs 1), placeOf s part d 15 (refAt refs 3) with
  | some a, some b, some t =>
    some { key := c.key, part := part, desc := d, inp := a, out := b, cont := t, inLen := cdInLen d a,
           outLen := b.cut (nth d 10 + hi32 (bits (nth d 11) 0 8)), streamId := nth d 1 }
  | _, _, _ => none

/-- A handle of a COMPRESS that fails (R364, R366, R573): a relocation fault faults the queue with the job begun, a
failed read ends the job. -/
def cxRelocFail (s : State) (q key : Nat) (e : Nat × Nat) : State :=
  if e.1 = 0x92 then failJob (mcEcc s e.2 .uncorrectable) key e.1
  else if e.1 = 0x90 then endJob (violation s (que s q).part 84 e.2 (whoQ s q)) key e.1
  else match (que s q).slot with
    | some n => queueFault s n e.1 0x14 (some key)
    | none => failJob s key e.1

/-- Starts a job on engine `k`: the descriptor is read, its handles are relocated, and the stream begins or resumes. -/
def cxStart (s : State) (k : Nat) (c : CompWait) (j : Job) (ecc : Ecc) : State :=
  let s := { s with compWaits := s.compWaits.filter (·.key != c.key) }
  match relocNow s c.ctx (nth c.words 1) { read := true } ecc with
  | .error e => cxRelocFail s j.queue c.key e
  | .ok (r, s) =>
    let a := r.plus (nth c.words 2 / 128 * 128 + hi32 (bits (nth c.words 3) 0 8))
    match refReadFault s j.part a 128 with
    | some v => endJob (violation s j.part (64 + k) v (whoQ s j.queue)) c.key 0x90
    | none =>
      if ecc = .uncorrectable then cxRelocFail s j.queue c.key (0x92, a.addr)
      else
        let d := cdWords (refWords s j.part a 32)
        match relocMany s c.ctx .ok (cdHandles d) with
        | .error e => cxRelocFail s j.queue c.key e
        | .ok (refs, s) =>
          let s := updJob s c.key fun j => { j with relocated := true }
          match cxBuild s c j.part d refs with
          | none => endJob (localViolation s j.part (64 + k) (bits (nth d 3) 0 22) false (bits (nth d 4) 16 6)
              (whoQ s j.queue)) c.key 0x90
          | some r =>
            let x := if cdResume d then cxResume s k r (placeOf s j.part d 12 (refAt refs 2)) else (s, r)
            let x := cxHeader x.1 k x.2
            setCx x.1 k { cxOf x.1 k with run := some x.2, mid := true, since := aclk s }

/-- The first waiting job that has a free engine, with the lowest of them (R330). A job whose context's table is being
changed waits (R412). -/
def cxNext (s : State) : List CompWait → Option (CompWait × Nat)
  | [] => none
  | c :: r =>
    match (if (c.ctx.map (tablePending s)).getD false then none else c.sectors.find? (cxFree s)) with
    | some k => some (c, k)
    | none => cxNext s r

/-- A waiting COMPRESS job starts on a free engine (R330); `ecc` is what the read of its descriptor shows. -/
def execCompressJobStart (ecc : Ecc) (s : State) : Out :=
  match cxNext s s.compWaits with
  | none => .next s
  | some (c, k) =>
    match jobOf s c.key with
    | none => .next { s with compWaits := s.compWaits.filter (·.key != c.key) }
    | some j => .next (cxStart s k c j ecc)

/-! ### TSF blocks (R338 to R340, R351 to R353) -/

/-- Uncoded bytes per ACLK cycle of an encode level (R331, R339). -/
def tsfRate (level : Nat) : Nat := nth [64, 32, 24, 20, 16, 12, 12, 8, 4, 3] level

/-- A coded block is put behind an encode's output, or stops the job when it does not fit (R352). -/
def cxPut (s : State) (k : Nat) (r : CompRun) (data blk : List Byte) (last : Bool) : State × CompRun :=
  if r.outLen < r.outDone + blk.length then (s, { r with status := some 1 })
  else
    cxWrite s k { r with inDone := r.inDone + data.length, outDone := r.outDone + blk.length,
                         raw := r.raw + data.length, coded := r.coded + blk.length, blocks := r.blocks + 1,
                         hist := tsfWindow r.hist data, last := last,
                         status := if last then some 0 else none } (r.out.plus r.outDone) blk

/-- The next block of an encode (R339 to R341, R351). -/
def cxEncode (s : State) (k : Nat) (r : CompRun) : State × CompRun :=
  let left := r.inLen - r.inDone
  let final := cdFinal r.desc
  if left < tsfBlock ∧ !final then (s, { r with status := some 2 })
  else
    let n := min left tsfBlock
    let x := cxRead s k r (r.inp.plus r.inDone) n
    if x.2.1.status.isSome then (x.1, x.2.1)
    else cxPut x.1 k r x.2.2 (tsfEncode r.hist x.2.2 (cdLevel r.desc) (final && n == left)) (final && n == left)

/-- The output of a decoded block: 0xA0 and 0xA1 leave the bytes of the block undefined (R338). -/
def cxOut (s : State) (k : Nat) (r : CompRun) (h : List Nat) (code : Nat) (out : Option (List Byte))
    (n : Nat) : State × CompRun :=
  let raw := bits (nth h 1) 0 17
  let last := bit (nth h 0) 1
  match out with
  | none =>
    let bytes := (List.range raw).map fun i => Config.freeByte s.fresh i
    let x := cxWrite { s with fresh := s.fresh + 1 } k r (r.out.plus r.outDone) bytes
    (x.1, x.2.fail code)
  | some o =>
    cxWrite s k { r with inDone := r.inDone + 16 + n, outDone := r.outDone + raw, raw := r.raw + raw,
                         coded := r.coded + 16 + n, blocks := r.blocks + 1, hist := tsfWindow r.hist o, last := last,
                         status := if last then some 0 else none } (r.out.plus r.outDone) o

/-- The next block of a decode (R338, R353). -/
def cxDecode (s : State) (k : Nat) (r : CompRun) : State × CompRun :=
  let left := r.inLen - r.inDone
  if left < 16 then (s, { r with status := some 2 })
  else
    let x := cxRead s k r (r.inp.plus r.inDone) 16
    let h := bytesWords x.2.2
    let n := bits (nth h 2) 0 17
    if x.2.1.status.isSome then (x.1, x.2.1)
    else if !tsfBlockOk h then (x.1, r.fail 0xA0)
    else if left < 16 + n then (s, { r with status := some 2 })
    else if r.outLen - r.outDone < bits (nth h 1) 0 17 then (s, { r with status := some 1 })
    else
      let y := cxRead x.1 k r (r.inp.plus (r.inDone + 16)) n
      if y.2.1.status.isSome then (y.1, y.2.1)
      else
        let out := if bit (nth h 0) 0 then tsfDecode r.hist y.2.2 (bits (nth h 1) 0 17) else some y.2.2
        match out with
        | none => cxOut y.1 k r h 0xA0 none n
        | some o => if crc32 o = nth h 3 then cxOut y.1 k r h 0 (some o) n else cxOut y.1 k r h 0xA1 none n

/-- ACLK cycles that the block in progress takes at the engine's rate (R331, R339). -/
def cxBlockTime (s : State) (r : CompRun) : Nat :=
  if cdMode r.desc = 0 then ceilDiv (min (r.inLen - r.inDone) tsfBlock) (tsfRate (cdLevel r.desc))
  else if r.inLen - r.inDone < 16 then 0
  else
    let h := bytesWords (placeBytes s r.part (r.inp.plus r.inDone) 16)
    ceilDiv (bits (nth h 1) 0 17) (if bit (nth h 0) 0 then 32 else 64)

/-- What the check code of the input read by a block or row shows: an uncorrectable word ends the run (R357). -/
def cxEcc (s : State) (r : CompRun) (pos : Nat) (ecc : Ecc) : State × CompRun :=
  let who : Who := match jobOf s r.key with
    | some j => whoQ s j.queue
    | none => {}
  let s := placeEcc s r.inp pos who ecc
  if ecc = .uncorrectable then (s, r.fail r.inp.errCode) else (s, r)

/-- The end of a block or row on engine `k`: it yields to a waiting transfer, stops for its job's stop, or goes on
(R358). -/
def cxAfter (s : State) (k : Nat) (r : CompRun) : State :=
  let stop := match jobOf s r.key with
    | some j => j.stop.isSome
    | none => true
  setCx s k { cxOf s k with run := some r, mid := r.status.isNone && !xferWaits s k && !stop, since := aclk s }

/-- A TSF block of engine `k` is done in ACLK cycle `c` (R339); `ecc` is what the input it read shows, at byte `pos`
of the job's input. -/
def execTsfBlockDone (k : Sector) (c pos : Nat) (ecc : Ecc) (s : State) : Out :=
  let s := atAclk s c
  let x := cxOf s k
  match x.run with
  | none => .next s
  | some r =>
    if !x.mid ∨ r.status.isSome ∨ 2 ≤ cdMode r.desc ∨ aclk s < x.since + cxBlockTime s r then .next s
    else
      let y := cxEcc s r pos ecc
      if y.2.status.isSome then .next (cxAfter y.1 k y.2)
      else
        let z := if cdMode r.desc = 0 then cxEncode y.1 k r else cxDecode y.1 k r
        .next (cxAfter z.1 k z.2)

/-! ### Fixed-ratio rows (R342 to R346, R354) -/

/-- A pixel of the uncoded surface, nearest inside (R346); bytes past the object read as 0 (R365). -/
def frPixel (s : State) (r : CompRun) (x y : Nat) : Nat :=
  let off := cdPitch r.desc * min y (cdHeight r.desc - 1) + 4 * min x (cdWidth r.desc - 1)
  leNat (placeBytes s r.part (r.inp.plus off) ((r.inp.plus off).cut 4))

/-- The coded bytes of row `by` of blocks. -/
def frEncodeRow (s : State) (r : CompRun) (row : Nat) : List Byte :=
  (List.range (ceilDiv (cdWidth r.desc) 4)).flatMap fun bx =>
    frEncode (cdRatio r.desc) (cdFormat r.desc)
      ((List.range 16).map fun j => frPixel s r (4 * bx + j % 4) (4 * row + j / 4))

/-- Writes the decoded pixels of one line of a row, inside the surface (R346). -/
def frDecodeLine (s : State) (k : Nat) (r : CompRun) (row y : Nat) (blk : List Byte) : State × CompRun :=
  let data := (List.range (cdWidth r.desc)).flatMap fun x =>
    let b := frBytes (cdRatio r.desc)
    leBytes 4 (frDecode (cdRatio r.desc) (cdFormat r.desc) ((blk.drop (x / 4 * b)).take b) (x % 4 + 4 * (y - 4 * row)))
  cxWrite s k r (r.out.plus (cdPitch r.desc * y)) data

/-- The lines of a row of blocks. -/
def frDecodeLines (s : State) (k : Nat) (r : CompRun) (row : Nat) (blk : List Byte) : List Nat → State × CompRun
  | [] => (s, r)
  | y :: ys =>
    let x := frDecodeLine s k r row y blk
    if x.2.status.isSome then x else frDecodeLines x.1 k x.2 row blk ys

/-- One row of blocks of a fixed-ratio job: done, or the job stops before it (R354). -/
def frRow (s : State) (k : Nat) (r : CompRun) : State × CompRun :=
  let d := r.desc
  let row := r.nextRow
  let lines := (List.range 4).filterMap fun i => if 4 * row + i < cdHeight d then some (4 * row + i) else none
  let px := lines.length * (4 * cdWidth d)
  let fin (r : CompRun) : CompRun := { r with status := if cdRows d ≤ r.nextRow then some 0 else r.status }
  if cdRows d ≤ row then (s, fin r)
  else if cdMode d = 2 then
    if r.outLen < (row + 1) * cdRow d then (s, { r with status := some 1 })
    else match placeReadFault s r.part (r.inp.plus (cdPitch d * (4 * row)))
        (r.inp.plus (cdPitch d * (4 * row)) |>.cut (cdPitch d * (lines.length - 1) + 4 * cdWidth d)) with
      | some v => (cxViolation s k r v.2, r.fail 0x90)
      | none =>
        let x := cxWrite (cxMoved s k px 0) k { r with nextRow := row + 1, inDone := r.inDone + px,
                                                       outDone := r.outDone + cdRow d }
          (r.out.plus (row * cdRow d)) (frEncodeRow s r row)
        (x.1, if x.2.status.isSome then x.2 else fin x.2)
  else if r.outLen < cdPitch d * (4 * row + lines.length - 1) + 4 * cdWidth d then (s, { r with status := some 1 })
  else
    let src := r.inp.plus (row * cdRow d)
    let x := cxRead s k r src (src.cut (cdRow d))
    if x.2.1.status.isSome then (x.1, x.2.1)
    else
      let y := frDecodeLines x.1 k { r with nextRow := row + 1, inDone := r.inDone + cdRow d, outDone := r.outDone + px }
        row (x.2.2 ++ List.replicate (cdRow d - x.2.2.length) 0#8) lines
      (y.1, if y.2.status.isSome then y.2 else fin y.2)

/-- A row of fixed-ratio blocks of engine `k` is done in ACLK cycle `c`, at 64 bytes of the surface a cycle (R331,
R354). -/
def execFixedRatioRowDone (k : Sector) (c pos : Nat) (ecc : Ecc) (s : State) : Out :=
  let s := atAclk s c
  let x := cxOf s k
  match x.run with
  | none => .next s
  | some r =>
    let time := ceilDiv (min 4 (cdHeight r.desc - 4 * r.nextRow) * 4 * cdWidth r.desc) 64
    if !x.mid ∨ r.status.isSome ∨ cdMode r.desc < 2 ∨ aclk s < x.since + time then .next s
    else
      let y := cxEcc s r pos ecc
      if y.2.status.isSome then .next (cxAfter y.1 k y.2)
      else
        let z := frRow y.1 k r
        .next (cxAfter z.1 k z.2)

/-! ### The end of a job (R355, R357, R358) -/

/-- The words of the continuation record (R355). -/
def contRecord (r : CompRun) (status : Nat) : List Nat :=
  [0x544E4F43,
   status + cdMode r.desc * 2 ^ 4 + b2n r.hdr * 2 ^ 12 + b2n r.last * 2 ^ 13 + (if status = 3 then r.err * 2 ^ 16 else 0)]
    ++ two r.inDone ++ two r.outDone ++ two r.raw ++ two r.coded
    ++ [r.blocks % 2 ^ 32, min 65536 r.raw, r.nextRow % 2 ^ 14, r.streamId, 0, 0]

/-- The record of an error of a COMPRESS job; 0x41 and 0x90 have theirs from their detectors. -/
def cxRecord (s : State) (k q : Nat) (r : CompRun) (code : Nat) : State :=
  if code = 0x41 ∨ code = 0x90 then s
  else jobRecord s q code 4 k (if code = 0x92 then two (r.inp.addr r.inDone) else [])

/-- The job of engine `k` ends: stopped at a block or row without a record (R358), or with its continuation record
(R355) and its code (R357). -/
def cxEnd (s : State) (k : Nat) (r : CompRun) (j : Job) : State :=
  let s := setCx s k { cxOf s k with run := none, mid := false }
  let s := bump s (cxBase + 0x40 * k + 0x0C)
  if j.stop.isSome then stopJob s r.key
  else
    let status := r.status.getD 0
    let data := (wordBytes (contRecord r status)).take (r.cont.cut 64)
    let x := cxWrite s k r r.cont data
    let code := if x.2.err = 0x90 then 0x90 else if status = 3 then r.err else 0
    let s := if code = 0 then x.1 else bump x.1 (cxBase + 0x40 * k + 0x10)
    endJob (if code = 0 then s else cxRecord s k j.queue r code) r.key code

/-- The COMPRESS job of engine `k` ends (R355). -/
def execCompressJobEnd (k : Sector) (s : State) : Out :=
  let x := cxOf s k
  match x.run with
  | none => .next s
  | some r =>
    match jobOf s r.key with
    | none => .next (setCx s k { x with run := none, mid := false })
    | some j => if r.status.isSome ∨ (j.stop.isSome ∧ !x.mid) then .next (cxEnd s k r j) else .next s

/-- A compression engine's reset by escalation ends after 4,096 ACLK cycles (R584). -/
def execCxResetEnd (k : Sector) (c : Nat) (s : State) : Out :=
  let s := atAclk s c
  match (cxOf s k).resetFrom with
  | some t => if t + 4096 ≤ aclk s then .next (setCx s k { cxOf s k with resetFrom := none }) else .next s
  | none => .next s

/-! ### Spills and restores (R259 to R267) -/

/-- Engine `k` begins the transfer that waits first in its sector, when it is of the kind asked; a COMPRESS job in a
block or row yields first (R261, R263, R358). -/
def xferStart (s : State) (k : Nat) (restore : Bool) : State :=
  let x := cxOf s k
  match s.xfers.find? fun t => t.eng / 16 == k with
  | none => s
  | some t =>
    if t.restore ≠ restore ∨ x.xfer.isSome ∨ x.mid ∨ x.resetFrom.isSome then s
    else setCx { s with xfers := s.xfers.filter (· != t) } k { x with xfer := some t, xferAt := aclk s }

/-- After a transfer of engine `k` a COMPRESS job that yielded goes on (R358). -/
def xferOver (s : State) (k : Nat) : State :=
  let s := bump s (cxBase + 0x40 * k + 0x14)
  let x := cxOf s k
  let go := (x.run.map fun r => r.status.isNone).getD false && !xferWaits s k
  setCx s k { x with xfer := none, mid := x.mid || go, since := aclk s }

/-- The device address of a transfer's spill slot (R259). -/
def spillAddr (s : State) (t : Xfer) : Nat :=
  match preOf s t.key with
  | none => 0
  | some p => (que s p.queue).spill + spillSlot (que s p.queue).liveMax * t.leng

/-- The bytes a spill writes (R259): a progress record whose layout is not published, and a stream of stored blocks. -/
def spillData (s : State) (t : Xfer) : List Byte :=
  let rec64 := (List.range 64).map fun i => Config.freeByte s.fresh i
  if t.size = 0 then rec64
  else rec64 ++ tsfHeader 0 (Config.freeNat s.fresh % 2 ^ 32)
    ++ tsfStored (s.tile.readBytes (t.eng * 2 ^ 22 + t.base) t.size) (t.size / tsfBlock + 1)

/-- A victim is free of engine `e` (R261 orders 4 and 5). -/
def spillFrees (s : State) (key e : Nat) : State :=
  let s := updDisp s key fun d => { d with used := d.used.filter (· != e) }
  updPre s key fun x =>
    let left := x.unspilled.filter (· != e)
    { x with unspilled := left, phase := if left = [] then .spilled else x.phase }

/-- Cycles a transfer takes at 61.44 B per ACLK cycle (R262, R263). -/
def xferTime (t : Xfer) : Nat := ceilDiv (spillBytes t.size * 100) 6144

/-- The stop of a job told to end, or of one that is gone: its transfer ends at its next block (R267). -/
def xferStopped (s : State) (t : Xfer) : Bool :=
  (preOf s t.key).isNone || (match jobOf s t.key with
    | some j => j.stop.isSome
    | none => true)

/-- Engine `k` starts the spill that waits first (R261, R263), in ACLK cycle `c`. -/
def execSpillStart (k : Sector) (c : Nat) (s : State) : Out :=
  let s := restoreScan (atAclk s c)
  .next (xferStart s k false)

/-- The spill on engine `k` ends in ACLK cycle `c` (R261); `ecc` is what the tile memory shows at byte `pos` of the
live range. -/
def execSpillEnd (k : Sector) (c pos : Nat) (ecc : Ecc) (s : State) : Out :=
  let s := atAclk s c
  let x := cxOf s k
  match x.xfer with
  | none => .next s
  | some t =>
    if t.restore then .next s
    else if xferStopped s t then .next (restoreScan (xferOver s k))
    else if aclk s < x.xferAt + xferTime t then .next s
    else
      let who := match preOf s t.key with
        | some p => whoQ s p.queue
        | none => {}
      if ecc = .uncorrectable then
        .next (restoreScan (xferOver (tmEcc s t.eng ((t.base + pos) / 16) who .uncorrectable) k))
      else
        let s := tmEcc s t.eng ((t.base + pos) / 16) who ecc
        let a := spillAddr s t
        let data := spillData s t
        let s := match writeFault s t.part a data.length with
          | some v => violation s t.part (64 + k) v who
          | none => s
        let s := cxMoved (devWrite { s with fresh := s.fresh + 1 } t.part a data) k t.size data.length
        .next (restoreScan (xferOver (spillFrees s t.key t.eng) k))

/-- Engine `k` starts the restore that waits first (R263, R265), in ACLK cycle `c`. -/
def execRestoreStart (k : Sector) (c : Nat) (s : State) : Out :=
  let s := restoreScan (atAclk s c)
  .next (xferStart s k true)

/-- An engine of a spilled job is restored: it may be used again (R265). -/
def restoreDone (s : State) (key e : Nat) (lost : Bool) : State :=
  let s := updDisp s key fun d => { d with used := (e :: d.used).eraseDups, lostData := d.lostData || lost,
                                           lostEng := if lost then e else d.lostEng }
  let s := if lost then { s with passes := s.passes.map fun p => if p.key = key then { p with lostData := true } else p }
           else s
  updPre s key fun x => { x with restored := x.restored ++ [e] }

/-- The live range that a spill slot's stream holds; bytes that are not such a stream leave the range undefined (R259:
software must not write the area). -/
def restoreData (s : State) (t : Xfer) (b : List Byte) : List Byte :=
  match tsfUnstore (b.drop 96) (t.size / tsfBlock + 1) with
  | some d => if d.length = t.size then d else (List.range t.size).map fun i => Config.freeByte s.fresh i
  | none => (List.range t.size).map fun i => Config.freeByte s.fresh i

/-- The restore on engine `k` ends in ACLK cycle `c` (R265): the live range is written back, or, on an uncorrectable
error of the spill area, not (R267). -/
def execRestoreEnd (k : Sector) (c pos : Nat) (ecc : Ecc) (s : State) : Out :=
  let s := atAclk s c
  let x := cxOf s k
  match x.xfer with
  | none => .next s
  | some t =>
    if !t.restore then .next s
    else if xferStopped s t then .next (restoreScan (xferOver s k))
    else if aclk s < x.xferAt + xferTime t then .next s
    else
      let who := match preOf s t.key with
        | some p => whoQ s p.queue
        | none => {}
      let a := spillAddr s t
      let n := spillBytes t.size
      let s := mcEcc s (a + pos) ecc
      match readFault s t.part a n with
      | some v => .next (restoreScan (xferOver (restoreDone (violation s t.part (64 + k) v who) t.key t.eng true) k))
      | none =>
        if ecc = .uncorrectable then
          .next (restoreScan (xferOver (restoreDone s t.key t.eng true) k))
        else
          let data := if t.size = 0 then [] else restoreData s t (devBytes s t.part a n)
          let s := { s with tile := s.tile.writeBytes (t.eng * 2 ^ 22 + t.base) data, fresh := s.fresh + 1 }
          .next (restoreScan (xferOver (restoreDone (cxMoved s k n t.size) t.key t.eng false) k))

end Sys2Proof.Machine
end

