-- ==== Sys2Proof/Machine/Cmds.lean ====
section
/-!
DEFINITION. The other commands of the front end: WRITE_REG, SET_CONTEXT, LOAD_HANDLE_TABLE, TIMESTAMP (R415 to R418),
the start of held commands (R411), and the reads that latch (R422, R424, R430, R301).
-/
namespace Sys2Proof.Machine

/-! ### WRITE_REG (R416) -/

/-- A register of SEC_PASS[p] (R246). -/
def passReg (p r : Nat) : Nat := secBase + 0x800 + 0x40 * p + r

/-- What the command does once its checks pass: WRITE_REG writes a register of its partition's SEC_PASS; REG 4 to 7 is
dropped (R416). -/
def actWriteReg (s : State) (n : Nat) (w : List Nat) (_refs : List Ref) : State :=
  let s := beginAt s n w.length
  let q := (slotOf s n).queue
  let p := (que s q).part
  let v := nth w 2
  let put (s : State) (r : Nat) : State :=
    wr s (passReg p r) (writeFlds (rd s (passReg p r)) v (fieldsAt (passReg p r)))
  let s := match bits (nth w 1) 0 3 with
    | 0 => put s 0x0C
    | 1 => put s 0x10
    | 2 => growCntWrite s p v
    | 3 => put s 0x18
    | _ => s
  instantJob s q 0

/-- WRITE_REG writes a SEC_PASS register of the queue's partition (R416). -/
def execWriteReg (n : Slot) (s : State) : Out := .next (decodeCmd s n { op := 0x20, act := actWriteReg })

/-! ### SET_CONTEXT and LOAD_HANDLE_TABLE (R370, R417, R418) -/

/-- Makes a context current; one that is not VALID or is of another partition leaves the queue without one (R370). -/
def beginSetContext (s : State) (n : Nat) (w : List Nat) (_refs : List Ref) : State :=
  let sl := slotOf s n
  let c := bits (nth w 1) 0 10
  let ok := (ctxOf s c).valid && (ctxOf s c).part == (que s sl.queue).part
  instantJob (setSlot s n { sl with ctx := if ok then some c else none }) sl.queue 0

/-- SET_CONTEXT starts after all earlier jobs have started. -/
def actSetContext (s : State) (n : Nat) (w : List Nat) (refs : List Ref) : State :=
  startOr (allStarted s (slotOf s n).queue) 0x21 beginSetContext s n w refs

/-- SET_CONTEXT makes another context current for later commands (R417). -/
def execSetContext (n : Slot) (s : State) : Out := .next (decodeCmd s n { op := 0x21, act := actSetContext })

/-- Posts a handle-table change for Eflan and holds the slot; without a current context the command completes with 0xB0
(R418). The job ends when Eflan has served the request. -/
def beginLoadTable (s : State) (n : Nat) (w : List Nat) (_refs : List Ref) : State :=
  let sl := slotOf s n
  match sl.ctx with
  | none => failInstant s sl.queue 0xB0
  | some c =>
    let s := startJob s sl.queue .wait
    let a := nth w 1 / 16 * 16 + hi32 (bits (nth w 2) 0 16)
    setSlot s n { sl with mode := .held, hold := 5, req := some (a, min 16777216 (bits (nth w 3) 0 25), c) }

/-- LOAD_HANDLE_TABLE starts after all earlier jobs have started. -/
def actLoadTable (s : State) (n : Nat) (w : List Nat) (refs : List Ref) : State :=
  startOr (allStarted s (slotOf s n).queue) 0x22 beginLoadTable s n w refs

/-- LOAD_HANDLE_TABLE posts a handle-table change for Eflan and holds the slot (R418). -/
def execLoadHandleTable (n : Slot) (s : State) : Out := .next (decodeCmd s n { op := 0x22, act := actLoadTable })

/-- Eflan serves the posted request of slot `n` (R418, R38, R367): the context entry and the relocation cache change,
REQ clears, and the command completes. -/
def serveRequest (s : State) (n : Nat) : State :=
  let sl := slotOf s n
  match sl.req with
  | none => s
  | some (a, count, c) =>
    let s := relocFlush (setCtx s c { ctxOf s c with table := a, count := count }) c
    waitMet (setSlot s n { sl with req := none }) n

/-! ### TIMESTAMP (R415) -/

/-- The 16 bytes of a TIMESTAMP record taken now. -/
def stampBytes (s : State) : List Byte :=
  wordBytes ([(stamp s).lp, (stamp s).frame] ++ two (wake s % 2 ^ 64))

/-- Writes a TIMESTAMP's record and ends its job; a range fault ends it with 0x90. -/
def beginTimestamp (s : State) (n : Nat) (w : List Nat) (refs : List Ref) : State :=
  let q := (slotOf s n).queue
  let tag := (que s q).part
  let r := (ref0 refs).plus (nth w 2 / 16 * 16 + hi32 (bits (nth w 3) 0 8))
  match refWriteFault s tag r 16 with
  | some v => instantJob (violation s tag 84 v (whoQ s q)) q 0x90
  | none => instantJob (refWrite s tag r (stampBytes s)) q 0

/-- The handle of a TIMESTAMP. -/
def stampNeeds (w : List Nat) : List (Nat × Need) := [(nth w 1, { write := true })]

/-- TIMESTAMP starts after all earlier jobs. -/
def actTimestamp (s : State) (n : Nat) (w : List Nat) (refs : List Ref) : State :=
  startOr (queueIdle s (slotOf s n).queue) 0x30 beginTimestamp s n w refs

/-- TIMESTAMP with EARLY starts on decode. -/
def actTimestampEarly (s : State) (n : Nat) (w : List Nat) (refs : List Ref) : State :=
  beginTimestamp (beginAt s n w.length) n w refs

/-- TIMESTAMP writes its record after earlier jobs complete (R415). -/
def execTimestamp (n : Slot) (s : State) : Out :=
  .next (decodeCmd s n { op := 0x30, sel := fun w => !bit (nth w 0) 0, needs := stampNeeds, act := actTimestamp })

/-- TIMESTAMP with EARLY writes its record when decoded (R415). -/
def execTimestampEarly (n : Slot) (s : State) : Out :=
  .next (decodeCmd s n { op := 0x30, sel := fun w => bit (nth w 0) 0, needs := stampNeeds, act := actTimestampEarly })

/-! ### The start of a held command (R411) -/

/-- What a held command does at its start. -/
def heldAct (ecc : Ecc) (op : Nat) (w : List Nat) : State → Nat → List Nat → List Ref → State :=
  match op with
  | 0x06 => actCond
  | 0x08 => actWaitFence
  | 0x09 => actSignalFence
  | 0x0A => match bits (nth w 1) 0 2 with
    | 0 => actSemOpWait
    | 1 => actSemOpAdd
    | 2 => actSemOpSub
    | _ => actSemOpArrive
  | 0x10 => actDispatch
  | 0x11 => actPassBegin ecc
  | 0x13 => actCopy
  | 0x14 => actCompress
  | 0x15 => match runMode w with
    | 0 => actRunCounted
    | 1 => actRunContinuous
    | _ => actRunStop
  | 0x16 => actStreamJoin
  | 0x17 => actStreamLeave
  | 0x21 => actSetContext
  | 0x22 => actLoadTable
  | 0x30 => actTimestamp
  | _ => fun s _ _ _ => s

/-- The command held for job order or pass order in slot `n` begins once it may (R199, R411); `ecc` is what the read of
a pass descriptor shows. -/
def execJobStart (n : Slot) (ecc : Ecc) (s : State) : Out :=
  let sl := slotOf s n
  match sl.held with
  | none => .next s
  | some h =>
    if feRuns s ∧ sl.valid ∧ sl.mode = .held ∧ (sl.hold = 3 ∨ sl.hold = 4) then
      .next (heldAct ecc h.op h.words s n h.words h.refs)
    else .next s

/-! ### Reads that latch (R301, R410, R422, R424, R430) -/

/-- Answers a read with words. -/
def reply (s : State) (ws : List Nat) : State := { s with rdata := ws, rstat := 0 }

/-- Whether function `fn` sees queue `q` in the FE block (R430): the physical function all, a virtual function those
of its partition. -/
def seesQueue (s : State) (fn q : Nat) : Bool := fn == 0 || ((que s q).life != .free && (que s q).part == fn)

/-- FE_COMP[q] (R422). -/
def compWord (s : State) (q : Nat) : Nat :=
  let x := que s q
  x.compSeq % 2 ^ 48 + x.compErr * 2 ^ 48 + b2n x.destroyed * 2 ^ 56 + b2n x.qfault * 2 ^ 57

/-- FE_CERR[q] (R422). -/
def cerrWord (s : State) (q : Nat) : Nat :=
  let x := que s q
  x.errSeq % 2 ^ 48 + x.errCode * 2 ^ 48 + x.errCount * 2 ^ 56

/-- A read of a 64-bit FE register at `off`: 8 bytes return it whole, 4 bytes its low half, latching the high half. -/
def pairRead (s : State) (off v size : Nat) : State :=
  if size = 8 then reply s (two v) else wr (reply s [v % 2 ^ 32]) (off + 4) (v / 2 ^ 32)

/-- A read of FE_COMP[q] (R424): posted writes of the device go to the host before it. -/
def execFeCompRead (fn : Part) (q : Qid) (size : Nat) (s : State) : Out :=
  if seesQueue s fn q then .next (pairRead s (feOff (0x2000 + 0x10 * q)) (compWord s q) size)
  else .next (reply s (if size = 8 then [0, 0] else [0]))

/-- A read of FE_CERR[q] (R422). -/
def execFeCerrRead (fn : Part) (q : Qid) (size : Nat) (s : State) : Out :=
  if seesQueue s fn q then .next (pairRead s (feOff (0x2008 + 0x10 * q)) (cerrWord s q) size)
  else .next (reply s (if size = 8 then [0, 0] else [0]))

/-- Whether function `fn` sees slot `n` (R430). -/
def seesSlot (s : State) (fn n : Nat) : Bool :=
  fn == 0 || ((slotOf s n).valid && (que s (slotOf s n).queue).part == fn)

/-- A read of FE_QSLOT[n] SEQ_LO latches SEQ_HI (R410). -/
def execFeQslotSeqRead (fn : Part) (n : Slot) (s : State) : Out :=
  let v := if (slotOf s n).valid then (que s (slotOf s n).queue).seq else 0
  if seesSlot s fn n then .next (pairRead s (feOff (0x1010 + 0x40 * n)) (v % 2 ^ 48) 4) else .next (reply s [0])

/-- A read of FE_QSLOT[n] BUF_LO latches BUF_HI (R430). -/
def execFeQslotBufRead (fn : Part) (n : Slot) (s : State) : Out :=
  let v := if (slotOf s n).valid && (slotOf s n).inEntry then cmdAddr s n else 0
  if seesSlot s fn n then .next (pairRead s (feOff (0x1028 + 0x40 * n)) (v % 2 ^ 48) 4) else .next (reply s [0])

/-- A read of SYN_FSLOT[k] VAL_LO latches VALUE_HI (R301). -/
def execSynFslotValRead (k : Fin 48) (s : State) : Out :=
  .next (pairRead s (synBase + 0x8008 + 0x20 * k) (if (fslot s k).valid then (fslot s k).value else 0) 4)

end Sys2Proof.Machine
end

