-- ==== Sys2Proof/Machine/MailOps.lean ====
section
/-!
DEFINITION. Mailboxes: submission, taking, the checks every message undergoes, and replies (R462 to R470).
-/
namespace Sys2Proof.Machine

/-- A register of MB[m] (R482). -/
def mbOff (m r : Nat) : Nat := mbBase + 0x100 * m + r

/-- Offset of MB_STAT. -/
def mbStatOff : Nat := mbBase + 0x1000

/-- Whether Eflan runs and takes requests (MB_STAT.ALIVE). -/
def alive (s : State) : Bool := fld s mbStatOff 0 1 == 1

/-- Whether the boot ROM has stopped and serves MB0 in place of Eflan (ID_BOOT.STAGE, R491). -/
def recovery (s : State) : Bool := fld s idBase 2 2 == 1

/-- Whether a message of mailbox `m` is served: by Eflan, or MB0's by the boot ROM (R491). -/
def serves (s : State) (m : Nat) : Bool := alive s || (recovery s && m == 0)

/-- The codes that are known: to Eflan the catalogue's, to the boot ROM VERSION, FW_UPDATE and CONFIG_UPDATE (R471,
R491). -/
def knownCode (s : State) (codes : List Nat) (c : Nat) : Bool :=
  if alive s then codes.contains c else c == 0x001 || c == 0x0B2 || c == 0x0B3

/-- The words of a reply after word 0, filled to 15. -/
def replyWords (l : List Nat) : List Nat := (l ++ List.replicate 15 0).take 15

/-- Writes a list of words to registers from an offset upward. -/
def wrList (s : State) (off : Nat) : List Nat → State
  | [] => s
  | v :: r => wrList (wr s off v) (off + 4) r

/-- Eflan's reply to mailbox `m` whose request words are `w` (R463 orders 4 and 5, R467): CODE, VER and TAG are echoed,
GO and TAKEN clear and DONE sets, and vector 0 is raised for a PCIe request with IRQ. -/
def mbReply (s : State) (m : Nat) (w : List Nat) (status : Nat) (words : List Nat) : State :=
  let w0 := nth w 0
  let s := wrList s (mbOff m 0x40) ((bits w0 0 16 + status * 2 ^ 16 + bits w0 24 8 * 2 ^ 24) :: replyWords words)
  let ctl := rd s (mbOff m 0x80)
  let s := wr s (mbOff m 0x80) (setBits (setBits (setBits ctl 0 1 0) 1 1 0) 2 1 1)
  let s := { s with mboxes := tabDrop m s.mboxes, mbOrder := s.mbOrder.filter (· != m) }
  if bit ctl 3 ∧ bits ctl 4 2 = 2 ∧ m ≠ 0 then raise s 0 0 else s

/-- Marks the message of mailbox `m` as being acted on; its reply comes later. -/
def mbBegin (s : State) (m : Nat) (w : List Nat) : State :=
  { s with mboxes := tabInsert m { words := w, acting := true } (tabDrop m s.mboxes),
           mbOrder := s.mbOrder.filter (· != m) }

/-- What a request names that another message may be changing (R465): queues (1), contexts (2), partitions (0), the
resident model (3), and the power state or clock (4, R548). -/
def mbNames (w : List Nat) : List (Nat × Nat) :=
  let p := bits (nth w 1) 0 4
  match bits (nth w 0) 0 12 with
  | 0x010 | 0x011 | 0x012 | 0x013 | 0x014 | 0x020 | 0x042 => [(0, p)]
  | 0x021 | 0x022 => [(2, bits (nth w 1) 0 10)]
  | 0x030 => [(0, bits (nth w 1) 8 4), (2, bits (nth w 1) 16 10)]
  | 0x031 | 0x032 => [(1, bits (nth w 1) 0 12)]
  | 0x050 | 0x051 | 0x052 => [(3, 0), (0, p)]
  | 0x060 | 0x061 => [(4, 0)]
  | 0x080 | 0x081 => let t := bits (nth w 1) 8 4; if t ≤ 8 then [(0, t)] else []
  | _ => []

/-- What a message in progress is changing. A partition under reset is not waited for: its messages are refused (R448). -/
def mbChanges (w : List Nat) : List (Nat × Nat) :=
  match bits (nth w 0) 0 12 with
  | 0x012 => [(0, bits (nth w 1) 0 4)]
  | 0x031 => [(1, bits (nth w 1) 0 12)]
  | 0x050 => [(3, 0)]
  | 0x060 | 0x061 => [(4, 0)]
  | _ => []

/-- The partition that a request names, if it names one (R448, R465). -/
def mbPart (w : List Nat) : Option Nat := ((mbNames w).find? (·.1 == 0)).map (·.2)

/-- Whether a partition is under reset: its STAGE is not 0 (R448, R452). -/
def partBusy (s : State) (p : Nat) : Bool := Nat.blt p 9 && Nat.blt 0 (ptStage s p)

/-- Whether a request waits: for a message in progress (R465), or, a POWER_STATE, for a partition reset to release
(R563). -/
def mbBlocked (s : State) (w : List Nat) : Bool :=
  (s.mboxes.any fun x => x.2.acting && (mbChanges x.2.words).any fun c => (mbNames w).contains c)
    || (bits (nth w 0) 0 12 == 0x060 && (List.range 9).any (partBusy s))

/-- The first taken message that does not wait for another. -/
def mbNext (s : State) : Option (Nat × List Nat) :=
  s.mbOrder.findSome? fun m => match tabFind m s.mboxes with
    | some x => if x.acting || mbBlocked s x.words then none else some (m, x.words)
    | none => none

/-- The codes of the catalogue (R471). -/
def mbCodes : List Nat :=
  [0x001, 0x010, 0x011, 0x012, 0x013, 0x014, 0x020, 0x021, 0x022, 0x030, 0x031, 0x032, 0x040, 0x041, 0x042, 0x050,
   0x051, 0x052, 0x060, 0x061, 0x062, 0x070, 0x071, 0x080, 0x081, 0x090, 0x091, 0x0A0, 0x0A1, 0x0B0, 0x0B1, 0x0B2,
   0x0B3]

/-- Messages for MB0 alone (R471). -/
def mb0Only (code : Nat) : Bool := code == 0x090 || code == 0x0B2 || code == 0x0B3

/-- Eflan acts on the message of mailbox `m` when it is the next one, has the code and passes `sel`; the common checks
come first: version, MB0 alone, and a partition under reset (R448, R465, R469, R470). Another message leaves the state
unchanged: that row is then not the step that happens. -/
def message (s : State) (m code : Nat) (sel : List Nat → Bool) (act : State → Nat → List Nat → State) : State :=
  match mbNext s with
  | none => s
  | some (k, w) =>
    if !serves s m ∨ k ≠ m ∨ bits (nth w 0) 0 12 ≠ code ∨ !sel w ∨ !knownCode s mbCodes code then s
    else if bits (nth w 0) 12 4 ≠ 1 then mbReply s m w 0x03 []
    else if mb0Only code ∧ m ≠ 0 then mbReply s m w 0x04 []
    else if code ≠ 0x013 ∧ ((mbPart w).map (partBusy s)).getD false then mbReply s m w 0x05 []
    else act s m w

/-- Every message of a code. -/
def anyWords (_w : List Nat) : Bool := true

/-! ### Rows -/

/-- Whether the serial port or PCIe reaches mailbox `m` (R454, R462). -/
def portOpen (s : State) (m : Nat) (serial : Bool) : Bool := if serial then s.hotSwap.good else m != 0 && mw0On s 0

/-- A write of GO at 1 to mailbox `m`, with IRQ (R463, R464): through PCIe MB0 is out of reach (R462). -/
def execMailboxGo (m : Mb) (serial irq : Bool) (s : State) : Out :=
  if !portOpen s m serial then .next s
  else if fld s (mbOff m 0x80) 0 1 = 1 then .next (bumpSat s (mbBase + 0x1014) 0 32)
  else
    .next { wr s (mbOff m 0x80) (1 + 8 * b2n irq + (if serial then 0x10 else 0x20)) with mbWait := s.mbWait ++ [m.val] }

/-- Eflan copies the request that waits first and sets TAKEN (R463, R465). -/
def execMailboxTake (s : State) : Out :=
  match s.mbWait.find? (serves s) with
  | none => .next s
  | some m =>
    let w := (List.range 16).map fun i => rd s (mbOff m (4 * i))
    .next { setFld s (mbOff m 0x80) 1 1 1 with
      mbWait := s.mbWait.erase m, mboxes := tabInsert m { words := w } (tabDrop m s.mboxes), mbOrder := s.mbOrder ++ [m] }

/-- A write of DONE at 1 acknowledges the reply of mailbox `m` (R463). -/
def execMailboxDoneClear (m : Mb) (serial : Bool) (s : State) : Out :=
  if !portOpen s m serial then .next s else .next (setFld s (mbOff m 0x80) 2 1 0)

/-- A message with an unknown CODE replies UNKNOWN_MESSAGE (R469). -/
def execUnknownMessage (m : Mb) (s : State) : Out :=
  match mbNext s with
  | none => .next s
  | some (k, w) =>
    if !serves s m ∨ k ≠ m ∨ knownCode s mbCodes (bits (nth w 0) 0 12) then .next s else .next (mbReply s m w 0x02 [])

/-! ### Extended buffers (R468) -/

/-- Whether the extended buffer of a request meets R468. -/
def xbOk (s : State) (m : Nat) (w : List Nat) : Bool :=
  let n := nth w 15
  if m = 0 then Nat.ble (nth w 13 + n) 16384
  else
    let a := nth w 13 + hi32 (bits (nth w 14) 0 16)
    n == 0 || (inRange s 0 a n && (isHost a || Nat.ble (a + n) (hbmHi s 0)))

/-- The bytes of the extended buffer; MB0's is the staging buffer. Eflan reads with tag M. -/
def xbBytes (s : State) (m : Nat) (w : List Nat) : List Byte :=
  if m = 0 then s.staging.readBytes (nth w 13) (nth w 15)
  else devBytes s tagM (nth w 13 + hi32 (bits (nth w 14) 0 16)) (nth w 15)

/-- Writes bytes to the start of the extended buffer. -/
def xbWrite (s : State) (m : Nat) (w : List Nat) (data : List Byte) : State :=
  if m = 0 then { s with staging := s.staging.writeBytes (nth w 13) data }
  else devWrite s tagM (nth w 13 + hi32 (bits (nth w 14) 0 16)) data

end Sys2Proof.Machine
end

