-- ==== Sys2Proof/Machine/Teardown.lean ====
section
/-!
DEFINITION. The global timeout and its escalation (R425 to R429), and the teardown of queues (R380 to R383, R419,
R420).
-/
namespace Sys2Proof.Machine

/-! ### Stopping a job's units (R380 order 2, R427) -/

/-- Sequencers of an active run are told to stop; nothing is recorded for the frame in progress (R179). -/
def stopRun (s : State) : State :=
  match s.model with
  | none => s
  | some m =>
    let due (r : Run) : Option (List Nat) := if (r.frame.map (·.recorded)).getD false then none else r.due
    let s := updRun (planNone s m.engines) fun r => { r with frame := none, armed := false, due := due r }
    settleRun (sendStops s true m.engines)

/-- Ends what a stopping job has where no unit holds work of it: a COPY without a channel, a COMPRESS that waits, a
pass, which is always at a break point between steps, and a dispatch without waves. -/
def settleJob (s : State) (j : Job) : State :=
  match j.kind with
  | .copy =>
    if s.copies.any fun c => c.key == j.key && c.chan.isNone then
      stopJob { s with copies := s.copies.filter (·.key != j.key) } j.key
    else s
  | .compress =>
    if s.compWaits.any fun c => c.key == j.key then
      stopJob { s with compWaits := s.compWaits.filter (·.key != j.key) } j.key
    else s
  | .pass => match s.passes.find? (·.key == j.key) with
    | some x => endStoppedPass s x
    | none => stopJob s j.key
  | .dispatch => match s.disps.find? (·.key == j.key) with
    | some d => if dispEnded s d then endDisp s d else s
    | none => stopJob s j.key
  | .runModel => if (runOf s).any fun r => r.key == j.key then settleRun s else s
  | .wait => s

/-- Tells every unit that holds work of a job to stop at its next break point; the job ends with `code` (R380, R427). -/
def tellStop (s : State) (key code : Nat) : State :=
  match jobOf s key with
  | none => s
  | some j =>
    let s := updJob s key fun j => { j with stop := some (j.stop.getD (s.now, code)) }
    let s := if j.kind = .runModel ∧ (runOf s).any (fun r => r.key == key) then stopRun s else s
    match jobOf s key with
    | some j => settleJob s j
    | none => s

/-- Tells a list of jobs to stop. -/
def tellStops (s : State) (code : Nat) : List Job → State
  | [] => s
  | j :: r => tellStops (tellStop s j.key code) code r

/-! ### Timeouts (R426, R427) -/

/-- The job that runs with number `k` of queue `q`. -/
def jobNo (s : State) (q k : Nat) : Option Job := s.jobs.find? fun j => j.queue == q && j.seq == k

/-- Whether a job's timer has reached its LIMIT at time `s.now`. -/
def timedOut (s : State) (j : Job) : Bool := j.paused.isNone && Nat.ble (j.since + j.limit * msUnits) s.now

/-- The timer of job `k` of queue `q` reaches LIMIT at wake cycle `t` (R427). Waits have their own row. -/
def execJobTimeout (q : Qid) (k t : Nat) (s : State) : Out :=
  let s := atWake s t
  match jobNo s q k with
  | none => .next s
  | some j =>
    if !feRuns s ∨ j.kind = .wait ∨ j.stop.isSome ∨ !timedOut s j then .next s
    else .next (tellStop (bump s (feOff 0x0C)) j.key 0x26)

/-- A run of flow-control commands of slot `n` reaches LIMIT (R427). -/
def execFlowRunTimeout (n : Slot) (t : Nat) (s : State) : Out :=
  let s := atWake s t
  let sl := slotOf s n
  match sl.flowFrom with
  | none => .next s
  | some f => if feRuns s ∧ sl.valid ∧ f + sl.flowLimit * msUnits ≤ s.now then .next (queueFault s n 0x25 0) else .next s

/-- A fence or semaphore wait of slot `n` reaches LIMIT (R290, R292, R427). -/
def execFenceWaitTimeout (n : Slot) (t : Nat) (s : State) : Out :=
  let s := atWake s t
  let sl := slotOf s n
  match waitJob s n with
  | none => .next s
  | some j =>
    if feRuns s ∧ sl.valid ∧ (sl.hold = 1 ∨ sl.hold = 2) ∧ timedOut s j then
      .next (waitFault (fenceForget s n) n 0x85 (if sl.hold = 1 then 0x08 else 0x0A))
    else .next s

/-! ### Escalation (R428, R429, R583, R584) -/

/-- Resets engine `e` by escalation: counted, and other jobs lose their waves there (R428). -/
def escalateEng (s : State) (e : Nat) : State :=
  let s := dispsLose s e false s.disps
  let s := seqEnd s e true
  bump (resetEngine s e) (feOff 0x10)

/-- Resets a list of engines. -/
def escalateEngs (s : State) : List Nat → State
  | [] => s
  | e :: es => escalateEngs (escalateEng s e) es

/-- The engines that hold work of a job: waves, or a run's sequencers that have not stopped. A failed engine holds none
(R576). -/
def jobEngs (s : State) (j : Job) : List Nat :=
  (List.range 64).filter fun e => !engFailed s e && (waveOf s j.key e
    || (j.kind == .runModel && ((s.model.map (·.engines)).getD []).contains e && !seqStopped s e))

/-- Resets the compression engine or copy channel that holds a job (R584). -/
def escalateUnits (s : State) (j : Job) : State :=
  let ks := (List.range 4).filter fun k => ((cxOf s k).run.map (·.key)) == some j.key
  let s := ks.foldl (fun s k => bump (setCx s k { cxOf s k with run := none, mid := false, resetFrom := some (aclk s) })
    (feOff 0x10)) s
  if s.copies.any fun c => c.key == j.key then
    bump { s with copies := s.copies.filter (·.key != j.key) } (feOff 0x10)
  else s

/-- The job's work is gone: it ends with `code`. -/
def endEscalated (s : State) (j : Job) (code : Nat) : State :=
  let s := dropDisp s j.key
  if (runOf s).any fun r => r.key == j.key then
    endRun (jobRecord s j.queue code 7 ((que s j.queue).slot.getD 0) []) code
  else failJob s j.key code

/-- The grace of a stopping job ends at wake cycle `t` (R428): the units that still hold its work are reset, and it
ends with 0x27. -/
def execTimeoutGraceExpiry (q : Qid) (k t : Nat) (s : State) : Out :=
  let s := atWake s t
  match jobNo s q k with
  | none => .next s
  | some j =>
    match j.stop with
    | none => .next s
    | some (from', code) =>
      if code ≠ 0x26 ∨ s.now < from' + ceilDiv (j.limit * 1000) 16 * 12000 then .next s
      else
        let s := escalateEngs s (jobEngs s j)
        let s := updJob (escalateUnits s j) j.key fun j => { j with stop := some (from', 0x27) }
        .next (endEscalated s j 0x27)

/-! ### Teardown (R380 to R383, R419, R420) -/

/-- A fence that a teardown signals at its end: address, value and tag. -/
abbrev TdFence := Nat × Nat × Nat

/-- Signals a list of teardown fences; one outside the tag's ranges is reported and dropped (R291, R310). -/
def signalAll (s : State) (q : Nat) : List TdFence → State
  | [] => s
  | (a, v, tag) :: r =>
    let s := match writeFault s tag a 8 with
      | some b => violation s tag 84 b (whoQ s q)
      | none => sendSignal s { addr := a, value := v, tag := tag, req := 84, queue := some q }
    signalAll s q r

/-- Order 1 in the slot of the queue: fetch stops, the prefetch store is dropped, a held wait releases its fence slot,
and a posted request is withdrawn (R380, R419, R420). -/
def drainSlot (s : State) (n : Nat) : State :=
  let s := fenceForget s n
  let sl := slotOf s n
  let s := setSlot s n { sl with mode := .draining, hold := 0, held := none, pf := none, pfMiss := none, miss := none,
                                 entryWords := none, ahead := none, req := none, spin := none, flowFrom := none,
                                 waitFrom := none }
  if sl.req.isSome then resumeTableWaits s else s

/-- Ends the wait jobs of a queue with 0xB3. -/
def endWaits (s : State) : List Job → State
  | [] => s
  | j :: r => endWaits (if j.kind = .wait then failJob s j.key 0xB3 else s) r

/-- The index k of a run's frame in progress (R177); before its first frame, that of the frame to come. -/
def Run.frameIndex (r : Run) : Nat :=
  if (r.frame.map (·.recorded)).getD false then r.done - b2n r.due.isNone else r.done + b2n r.due.isSome

/-- The promise of an active run of queue `q` (R378): its fence and the value owed. -/
def runPromise (s : State) (q : Nat) : Option (Nat × Nat) :=
  match runOf s with
  | some r => if r.queue = q then r.fence.map fun a => (a, r.fenceBase + (if r.counted then r.count else r.frameIndex + 1)) else none
  | none => none

/-- Orders 1 and 2 of a teardown of queue `q` (R380). `mbox` is the mailbox that waits for its end. -/
def teardown (s : State) (q : Nat) (fences : List TdFence) (mbox : Option Nat) : State :=
  let x := que s q
  let es := (List.range 64).filter fun e => (jobsOf s q).any fun j => (jobEngs s j).contains e
  let s := setQue s q { x with life := .draining, tdOrder := 2, tdAt := s.now, tdFences := fences, tdMbox := mbox,
                               tdEngines := es, tdRun := runPromise s q }
  let s := match x.slot with
    | some n => drainSlot s n
    | none => s
  tellStops (endWaits s (jobsOf s q)) 0xB3 ((jobsOf s q).filter (·.kind != .wait))

/-- What the command does once its checks pass: TEARDOWN_QUEUE puts its target into DRAINING, joins a teardown in
progress, signals at once for a DEAD queue, or is refused with 0xB4 (R382, R383, R420). -/
def actTeardown (s : State) (n : Nat) (w : List Nat) (refs : List Ref) : State :=
  let s := beginAt s n w.length
  let q := (slotOf s n).queue
  let part := (que s q).part
  let t := bits (nth w 1) 0 12
  if !mayTarget s part t then failInstant s q 0xB4
  else
    let fence : List TdFence := match fenceAddr (ref0 refs) (nth w 3 + hi32 (bits (nth w 4) 0 8)) with
      | some a => [(a, val64 w 5, part)]
      | none => []
    let s := instantJob s q 0
    match (que s t).life with
    | .draining => setQue s t { que s t with tdFences := (que s t).tdFences ++ fence }
    | .dead => signalAll s t fence
    | _ => teardown s t fence none

/-- TEARDOWN_QUEUE (R420). -/
def execTeardownQueue (n : Slot) (s : State) : Out :=
  .next (decodeCmd s n { op := 0x23, needs := fun w => [(nth w 2, { write := true, fence := true })], act := actTeardown })

/-- Settles every job of a list. -/
def settleJobs (s : State) : List Job → State
  | [] => s
  | j :: r => settleJobs (settleJob s j) r

/-- Engine `e` has reached its break point for draining queue `q` and acknowledges (R380 order 3); jobs with no work
left end with 0xB3. -/
def execTeardownAck (e : Eng) (q : Qid) (s : State) : Out :=
  let x := que s q
  if x.life ≠ .draining ∨ (jobsOf s q).any fun j => (jobEngs s j).contains e.val then .next s
  else
    let s := setQue s q { x with tdEngines := x.tdEngines.filter (· != e.val) }
    .next (settleJobs s (jobsOf s q))

/-- Signals and releases of queue `q` that have not taken effect. -/
def signalsOut (s : State) (q : Nat) : Bool :=
  (s.fsigs.any fun f => f.queue == some q) || (s.transits.any fun f => f.queue == some q)
    || s.engines.any fun e => e.2.releases.any fun r => match r with
      | .fence _ _ _ k => k == some q
      | _ => false

/-- Cancels the pending joins of a queue (R380 order 5, R183). -/
def cancelJoins (s : State) (q : Nat) : List JoinReq → State
  | [] => s
  | j :: r =>
    let s := if !j.leave ∧ j.queue = q then
        writeStatus (updModel s fun m => { m with requests := m.requests.filter fun x => x != j }) j 5 0 else s
    cancelJoins s q r

/-- Every engine has acknowledged and every store and signal of queue `q` is done (R380 orders 4 and 5, R423): its
completion register shows the last job and DESTROYED, and its pending joins are cancelled. -/
def execTeardownDrained (q : Qid) (s : State) : Out :=
  let s := settleJobs s (jobsOf s q)
  let x := que s q
  if x.life ≠ .draining ∨ x.tdOrder ≠ 2 ∨ x.tdEngines ≠ [] ∨ jobsOf s q ≠ [] ∨ signalsOut s q then .next s
  else
    let s := setQue s q { x with destroyed := true, tdOrder := 5 }
    .next (cancelJoins s q ((s.model.map (·.requests)).getD []))

/-- LIMIT passes after order 1 of a teardown of queue `q` (R429): engines that have not acknowledged are reset, and
their acknowledgement is taken as given. -/
def execTeardownLimitExpiry (q : Qid) (t : Nat) (s : State) : Out :=
  let s := atWake s t
  let x := que s q
  if x.life ≠ .draining ∨ x.tdOrder ≠ 2 ∨ s.now < x.tdAt + timeLimit s * msUnits then .next s
  else
    let s := escalateEngs s (x.tdEngines.filter fun e => (jobsOf s q).any fun j => (jobEngs s j).contains e)
    .next (settleJobs (setQue s q { que s q with tdEngines := [] }) (jobsOf s q))

/-! ### Promises (R376, R378, R381) -/

/-- The record of a fence advanced for queue `q` (R381). -/
def abandonRecord (s : State) (q a : Nat) : State :=
  append s { code := 0x84, tag := (que s q).part, kind := 8, queue := some q, owner := (que s q).owner, detail := two a }

/-- Advances a fence for a torn-down queue (R381): a resident one in its slot; another by one indivisible operation,
after which a raised fence takes a slot with ABANDONED set when one is free or unpinned. -/
def advance (s : State) (q a v : Nat) : State :=
  let tag := (que s q).part
  match writeFault s tag a 8 with
  | some b => violation s tag 84 b (whoQ s q)
  | none =>
    match fenceSlotOf s a with
    | some k =>
      let x := fslot s k
      let u := if fslotReady s k then x.value else devNat s tag a 8
      if u < v then
        let s := devWrite (setFslot s k { x with value := v, abandoned := true }) tag a (leBytes 8 v)
        fenceWake (abandonRecord s q a) k
      else s
    | none =>
      if devNat s tag a 8 < v then
        let s := abandonRecord (devWrite s tag a (leBytes 8 v)) q a
        match fslotTake s with
        | some k => fslotUse (setFslot s k { valid := true, addr := a, part := tag, value := v, abandoned := true }) k
        | none => s
      else s

/-- Advances the promises of the entries of a list, in list order. -/
def advanceList (s : State) (q : Nat) : List (List Nat) → State
  | [] => s
  | w :: r =>
    let s := if bit (nth w 1) 31 then advance s q (nth w 0 / 8 * 8 + hi32 (bits (nth w 1) 0 16)) (val64 w 2) else s
    advanceList s q r

/-- The words of promise entry `i`. -/
def promWords (s : State) (q i : Nat) : List Nat :=
  bytesWords (devBytes s (que s q).part ((que s q).prom + 16 * i) 16)

/-- Order 7 of a teardown (R380): the slot is released, the queue is DEAD, the teardown fences are signalled, and a
QUEUE_DESTROY frees the queue and replies with its last number (R373, R471). -/
def teardownEnd (s : State) (q : Nat) : State :=
  let x := que s q
  let rptr := (x.slot.map fun n => (slotOf s n).rptr).getD x.rptr
  let s := match x.slot with
    | some n => setSlot s n {}
    | none => s
  let s := setQue s q { x with life := .dead, slot := none, saved := none, tdOrder := 7, tdFences := [], rptr := rptr }
  let s := signalAll s q x.tdFences
  match x.tdMbox with
  | none => s
  | some m =>
    let w := ((tabFind m s.mboxes).map (·.words)).getD []
    mbReply (setQue s q {}) m w 0x00 (two (x.compSeq % 2 ^ 48))

/-- The promise list of queue `q` is read once, and its fences advanced, and the teardown ends (R380 orders 6 and 7,
R381). An uncorrectable error at entry `pos` ends the reading there (R381, R573). -/
def execPromiseListRead (q : Qid) (pos : Nat) (ecc : Ecc) (s : State) : Out :=
  let x := que s q
  if x.life ≠ .draining ∨ x.tdOrder ≠ 5 then .next s
  else
    let s := if pos < x.promCount then mcEcc s (x.prom + 16 * pos) ecc else s
    let rf := (readFault s x.part x.prom (16 * x.promCount)).map fun a => (a - x.prom) / 16
    let bad := ecc = .uncorrectable ∧ pos < x.promCount
    let n := min (rf.getD x.promCount) (if bad then pos else x.promCount)
    let s := advanceList s q ((List.range n).map fun i => promWords s q i)
    let s := if bad ∧ n = pos then
        append s { code := 0x92, tag := x.part, kind := 8, queue := some q.val, owner := x.owner,
                   detail := two (x.prom + 16 * pos) }
      else match readFault s x.part x.prom (16 * x.promCount) with
        | some a => violation s x.part 84 a (whoQ s q)
        | none => s
    let s := match x.tdRun with
      | some (a, v) => if bad then s else advance s q a v
      | none => s
    .next (fenceSettle (teardownEnd s q) s.fwaiting.length)

end Sys2Proof.Machine
end

