-- ==== Sys2Proof/Machine/Capture.lean ====
section
/-!
DEFINITION. Camera capture: packets, lines, frames and their records (R506 to R518).
-/
namespace Sys2Proof.Machine

/-- Whether unit `u` receives: its domain is on and CAP_PHY.EN is 1 (R545, R518). -/
def capOn (s : State) (u : Nat) : Bool := bit (fld s pwrDomainOff 20 8) u && fld s (capOff u 0) 0 1 == 1

/-- Whether channel `v` of unit `u` is the line clock's source (R52). -/
def capIsSource (s : State) (u v : Nat) : Bool := s.lc.powered && lcKind s == 2 && lcUnit s == u && lcVc s == v

/-- What a packet header's ECC does (R507): none where the packet is dropped. -/
def capHeader (s : State) (u v : Nat) : Ecc → State × Bool
  | .ok => (s, true)
  | .corrected => (bump s (capOff u 4), true)
  | .uncorrectable => (capFault s u v 0xE0, false)

/-- The data types supported (R506). -/
def capTypes : List Nat := [0x18, 0x19, 0x1E, 0x1F, 0x2A, 0x2B, 0x2C, 0x2D, 0x2E]

/-- Bytes that a sample takes in memory, and the factor that places it (R509, R520). -/
def capSample (dt : Nat) : Nat × Nat :=
  match dt with
  | 0x2A | 0x1E | 0x18 => (1, 1)
  | 0x19 => (2, 64)
  | _ => (2, 1)

/-- Samples of a pixel in the order received (R509). -/
def capPerPixel (dt : Nat) : Nat := if dt = 0x1E ∨ dt = 0x1F then 2 else 1

/-- Samples as they lie in memory. -/
def capBytes (dt : Nat) (px : List Nat) : List Byte :=
  px.flatMap fun x => leBytes (capSample dt).1 (x * (capSample dt).2)

/-- Marks the line of a failed write: CRC in the record (R516). -/
def capLost (s : State) (u v : Nat) : State := capSetFlags s u v 4

/-- Writes a run of bytes to HBM3E for a line (R515): a word that cannot be merged drops the line with 0x92; bursts
outside the tag's ranges are dropped with 0x90. Also says whether the line was written. -/
def capPutHbm (s : State) (u v a : Nat) (data : List Byte) (ecc : Ecc) : State × Bool :=
  let tag := capTag s u
  let s := mcEcc s a ecc
  if ecc = .uncorrectable ∧ !isHost a then
    (capLost (append s { code := 0x92, tag := tag, kind := 11, unit := u + 16 * v, detail := two a }) u v, false)
  else
    let s := match writeFault s tag a data.length with
      | some b => violationAs s tag (76 + u) b 11 (u + 16 * v) {}
      | none => s
    (devWrite s tag a data, true)

/-- A line of a frame for HBM3E (R509, R515). -/
def capLineHbm (s : State) (u v dt : Nat) (f : CapFrame) (px chroma : List Nat) (ecc : Ecc) : State :=
  let n := f.lines
  let w := capWidth s u v
  let pitch := capPitch s u v
  let a := f.base + f.buf * f.stride
  let r := capPutHbm s u v (a + n * pitch) (capBytes dt (px.take (w * capPerPixel dt))) ecc
  if !r.2 then r.1
  else
    let s := if (dt = 0x18 ∨ dt = 0x19) ∧ n % 2 = 1 then
        (capPutHbm r.1 u v (a + capHeight s u v * pitch + n / 2 * pitch) (capBytes dt (chroma.take (w / 2 * 2))) .ok).1
      else r.1
    bump s (vcOff u v 0x3C)

/-- Where a line goes in destination set `d` (R510): the engine, the offset in its tile memory, how many bytes may be
written, and the logical engine. -/
def capPlace (s : State) (m : Model) (u v d n region : Nat) : Option (Nat × Nat × Nat × Nat) :=
  let cfg := capCfg s u v
  let wa := nth cfg (3 + 2 * d)
  let wb := nth cfg (4 + 2 * d)
  let b := max 1 (bits wb 12 12)
  let k := max 1 (bits wb 4 5)
  let g := bits wb 24 4
  let pitch := capPitch s u v
  let band := n / b
  let l := bits wb 0 4 + band % k
  let row := band / k * b + n % b
  let size := if d = 0 then m.streamFull else m.streamCroc
  let es := (groupQuads s m.part m.sector g).flatMap fun q => (List.range (lmapCount s q)).map (lmapAt s q)
  match es[l]?, m.dir.find? fun x => x.variant == d && x.group == g && x.leng == l with
  | some e, some x =>
    let off := bits wa 0 22 + row * pitch
    some (e, x.pool + region * size + off, min pitch (size - off), l)
  | _, _ => none

/-- Writes a line into one destination set of the model (R510, R514). Also says whether it failed. -/
def capLineSet (s : State) (m : Model) (u v d region n : Nat) (data : List Byte) (ecc : Ecc) : State × Bool :=
  match capPlace s m u v d n region with
  | none => (s, false)
  | some (e, off, room, l) =>
    let tag := capTag s u
    let data := data.take room
    if data = [] then (s, false)
    else if tag ≠ m.part ∨ engPart s e ≠ tag then (localViolation s tag (76 + u) off false l, false)
    else
      let s := tmEcc s e (off / 16) {} ecc
      if ecc = .uncorrectable then (capLost s u v, true)
      else ({ s with tile := s.tile.writeBytes (e * 2 ^ 22 + off) data }, false)

/-- A line of a frame for the model: both sets, set 0 unless the model is Crocus-only, and nothing while the sectors
are gated (R510, R546). -/
def capLineModel (s : State) (u v dt : Nat) (f : CapFrame) (px : List Nat) (ecc : Ecc) : State :=
  match s.model with
  | none => s
  | some m =>
    match m.batch.find? fun b => b.cap == u && b.vc == v with
    | none => s
    | some b =>
      if 2 ≤ fld s (pwrBase + 0) 0 3 then s
      else
        let data := capBytes dt (px.take (capWidth s u v * capPerPixel dt))
        let r := if m.crocOnly then (s, false) else capLineSet s m u v 0 b.region f.lines data ecc
        if r.2 then r.1
        else
          let r := capLineSet r.1 m u v 1 b.region f.lines data (if m.crocOnly then ecc else .ok)
          if r.2 then r.1 else bump r.1 (vcOff u v 0x3C)

/-- Counts a line of the frame in progress; in a model frame every ADD_LINES-th issues an add (R508, R511). -/
def capCount (s : State) (u v n : Nat) : State :=
  let x := capVc s u v
  let add := (x.frame.map (·.model)).getD false && n < capHeight s u v
    && (n + 1) % max 1 (fld s (vcOff u v 0) 12 8) == 0
  setCapVc s u v { x with due := x.due + b2n add,
                          frame := x.frame.map fun f => { f with lines := n + 1, adds := f.adds + b2n add } }

/-- A line of the selected data type (R508, R509, R516). -/
def capLine (s : State) (u v dt : Nat) (f : CapFrame) (crc : Bool) (px chroma : List Nat) (ecc : Ecc) : State :=
  if capHeight s u v ≤ f.lines then capCount (capFault s u v 0xE4) u v f.lines
  else
    let s := if px.length = capWidth s u v * capPerPixel dt then s else capFault s u v 0xE2
    let s := if !crc then capFault s u v 0xE1
      else if f.model then capLineModel s u v dt f px ecc
      else capLineHbm s u v dt f px chroma ecc
    capCount s u v f.lines

/-- The header of a long packet with pixel data, as the line clock measures it (R53). -/
def capMeasure (s : State) (u v dt t : Nat) : State :=
  if capIsSource s u v ∧ capTypes.contains dt then
    { s with lc := { s.lc with hdrCount := s.lc.hdrCount + 1, hdrFirst := if s.lc.hdrCount = 0 then t else s.lc.hdrFirst,
                               hdrLast := t } }
  else s

/-- A long packet whose header has passed (R508). -/
def capLong (s : State) (u v dt t : Nat) (crc : Bool) (px chroma : List Nat) (ecc : Ecc) : State :=
  let s := capMeasure s u v dt t
  let joined := capJoined s u v
  if s.capStop.contains u ∨ (!joined ∧ fld s (vcOff u v 0) 0 1 = 0) then s
  else if dt ≠ fld s (vcOff u v 0) 2 6 ∨ (joined ∧ (dt = 0x18 ∨ dt = 0x19)) then
    capFault (bump s (capOff u 8)) u v 0xE6
  else match (capVc s u v).frame with
    | none => s
    | some f =>
      if f.closed then capFault (setFld s (vcOff u v 0x34) 31 1 1) u v 0xE5
      else capLine s u v dt f crc px chroma ecc

/-- A CSI-2 long packet (R507, R508). -/
def execLinePacket (u : Cap) (v : Vc) (t : Nat) (dt : Fin 64) (hdr : Ecc) (crc : Bool) (px chroma : List Nat) (ecc : Ecc)
    (s : State) : Out :=
  let s := atWake s t
  if !capOn s u then .next s
  else
    let r := capHeader s u v hdr
    .next (if r.2 then capLong r.1 u v dt (wake s) crc px chroma ecc else r.1)

/-- The record of a frame written to HBM3E (R515), with the stamp of the frame's end. -/
def capRecord (s : State) (u v : Nat) : State :=
  match (capVc s u v).frame with
  | none => s
  | some f =>
    let e := stamp s
    let tag := capTag s u
    let a := f.recAt + 32 * f.buf
    let s := match writeFault s tag a 32 with
      | some b => violationAs s tag (76 + u) b 11 (u + 16 * v) {}
      | none => s
    devWrite s tag a (wordBytes [f.fs.frame, f.fs.lp, e.frame, e.lp, f.lines % 65536, f.flags, f.seq, f.buf])

/-- A frame that has not ended ends now; one for HBM3E leaves its record (R515, R516). -/
def capEnd (s : State) (u v : Nat) : State :=
  match (capVc s u v).frame with
  | none => s
  | some f =>
    let s := if f.closed then s else if f.model then capClose s u v else capRecord (capClose s u v) u v
    setCapVc s u v { capVc s u v with frame := none }

/-- A Frame Start (R508, R512, R516): an edge for the line clock that has this source, the end of a frame that had no
Frame End, and a new frame. -/
def execFrameStartPacket (u : Cap) (v : Vc) (t : Nat) (hdr : Ecc) (s : State) : Out :=
  let s := atWake s t
  if !capOn s u then .next s
  else
    let r := capHeader s u v hdr
    if !r.2 then .next r.1
    else
      let s := if capIsSource r.1 u v then lcJudge r.1 (wake s) else r.1
      if s.capStop.contains u.val then .next s
      else
        let s := if ((capVc s u v).frame.map (·.closed)).getD true then s else capSetFlags s u v 32
        .next (capNewFrame (capEnd s u v) u v)

/-- A Frame End (R511, R513): the adds for the remaining lines, or with FILL for the missing ones too, and the end. -/
def execFrameEndPacket (u : Cap) (v : Vc) (t : Nat) (hdr : Ecc) (s : State) : Out :=
  let s := atWake s t
  if !capOn s u then .next s
  else
    let r := capHeader s u v hdr
    let s := r.1
    match (capVc s u v).frame with
    | none => .next s
    | some f =>
      if !r.2 then .next s
      else
        let al := max 1 (fld s (vcOff u v 0) 12 8)
        let h := capHeight s u v
        let want := ceilDiv (if fld s (vcOff u v 0) 9 1 = 1 then h else min f.lines h) al
        let x := capVc s u v
        let s := if f.model ∧ !f.closed then setCapVc s u v { x with due := x.due + (want - f.adds) } else s
        .next (capEnd s u v)

/-- Generic short packets and embedded data are received and discarded (R506); Line Start and Line End are ignored
(R53). -/
def execOtherShortPacket (u : Cap) (v : Vc) (t : Nat) (hdr : Ecc) (s : State) : Out :=
  let s := atWake s t
  if capOn s u then .next (capHeader s u v hdr).1 else .next s

/-- A D-PHY error loses a burst (R516). -/
def execDphyError (u : Cap) (v : Vc) (t : Nat) (s : State) : Out :=
  let s := atWake s t
  if capOn s u then .next (capFault (bump s (capOff u 0x0C)) u v 0xE7) else .next s

/-- The writes that an issued add counts are acknowledged, and it takes effect (R511). -/
def execCaptureSemAdd (u : Cap) (v : Vc) (s : State) : Out :=
  let x := capVc s u v
  if x.due = 0 then .next s
  else
    let s := setCapVc s u v { x with due := x.due - 1 }
    let w := nth (capCfg s u v) 2
    let tag := capTag s u
    match semOf s tag (bits w 9 4) (bits w 0 9) with
    | some sem => .next (semAdd s sem 1)
    | none => .next (localViolation s tag (76 + u) (bits w 0 9) true (bits w 9 4))

/-- A receiver gains or loses sync (R518). -/
def execReceiverSyncChange (u : Cap) (on : Bool) (s : State) : Out :=
  if capOn s u then .next (setFld s (capOff u 0) 8 1 (b2n on)) else .next s

/-! ### Peony's writes of CAP registers (R517, R518) -/

/-- The clamps of CAP registers that the tables do not give: unsupported data types, and LQUAD above the partition's
last logical quad. -/
def capClamp (s : State) (u r x : Nat) : Nat :=
  let y := (r - 0x100) % 0x80
  if r < 0x100 then x
  else if y = 0 ∧ !capTypes.contains (bits x 2 6) then setBits x 2 6 0x2A
  else if y = 0x0C then setBits x 9 4 (min (bits x 9 4) ((quadsOf s (capTag s u)).length - 1))
  else x

/-- A write of register `r` of unit `u`: changes of GEOM, PITCH, SEM and DST wait (R517), EN starts the count of frames
(R515), and a receiver that is switched off loses sync. -/
def capWrite (s : State) (u r x : Nat) : State :=
  let off := capOff u r
  let v := (r - 0x100) / 0x80
  let y := (r - 0x100) % 0x80
  let old := rd s off
  let new := capClamp s u r (writeFlds old x (fieldsAt off))
  if r = 0 then
    let s := wr s off new
    if bits new 0 1 = 0 then setFld s off 8 1 0 else s
  else if r < 0x100 ∨ 0x300 ≤ r then wr s off new
  else
    let c := capVc s u v
    if capCfgRegs.contains y then
      wr (setCapVc s u v { c with act := some (c.act.getD (capCfgNow s u v)) }) off new
    else if y = 0 ∧ bits old 0 1 ≠ bits new 0 1 then
      let keep := bits new 0 1 == 1 || (c.frame.map (·.model)).getD false
      wr (setCapVc s u v { c with k := 0, frame := if keep then c.frame else none }) off new
    else wr s off new

end Sys2Proof.Machine
end

