-- ==== Sys2Proof/Machine/DisplayPix.lean ====
section
/-!
DEFINITION. What a display pipe composes: layers, fetch, colour conversion, scaling, blending and output (R519 to
R529). A pixel is the list of its components R, G, B and A in 12 bits.
-/
namespace Sys2Proof.Machine

/-! ### Arithmetic of R520, R523, R524, R527 and R528 -/

/-- mul12 (R527). -/
def mul12 (a b : Nat) : Nat := (a * b + 2048 + (a * b + 2048) / 4096) / 4096

/-- 8-bit input to 12 bits. -/
def to12of8 (x : Nat) : Nat := x * 16 + x / 16

/-- 10-bit input to 12 bits. -/
def to12of10 (x : Nat) : Nat := x * 4 + x / 256

/-- A 12-bit component as it leaves the pipe: 10 bits with BPC 1, 8 bits with BPC 0 (R528). -/
def outComp (bpc : Bool) (x : Nat) : Nat := if bpc then min 1023 ((x + 2) / 4) else (x * 255 + 2048) / 4096

/-- Saturation of a signed value to 12 bits. -/
def sat12 (x : Int) : Nat := min 4095 x.toNat

/-- A pixel word of a format unpacked to R, G, B, A (R520): 0 RGBA8888, 1 BGRA8888, 2 RGBA1010102, 3 RGB565. -/
def unpackPx (fmt w : Nat) : List Nat :=
  match fmt with
  | 0 => [to12of8 (bits w 0 8), to12of8 (bits w 8 8), to12of8 (bits w 16 8), to12of8 (bits w 24 8)]
  | 1 => [to12of8 (bits w 16 8), to12of8 (bits w 8 8), to12of8 (bits w 0 8), to12of8 (bits w 24 8)]
  | 2 => [to12of10 (bits w 0 10), to12of10 (bits w 10 10), to12of10 (bits w 20 10), bits w 30 2 * 1365]
  | _ =>
    let five (x : Nat) : Nat := x * 128 + x * 4 + x / 8
    [five (bits w 0 5), bits w 5 6 * 64 + bits w 5 6, five (bits w 11 5), 4095]

/-- Signed coefficient `i`, 0 to 8, of conversion matrix `m` of pipe `p` (R523, R544). -/
def cscCoef (s : State) (p m i : Nat) : Int :=
  toSigned 13 (bits (pipeAct s (cmpBase + 0x4000 * p + 0x20 + 0x20 * m + 4 * (i / 2))) (16 * (i % 2)) 13)

/-- Colour conversion of Y, Cb and Cr in 12 bits (R523). -/
def cscPx (s : State) (p m y cb cr : Nat) : List Nat :=
  let offs := pipeAct s (cmpBase + 0x4000 * p + 0x34 + 0x20 * m)
  let dy : Int := (y : Int) - (bits offs 0 12 : Nat)
  let db : Int := (cb : Int) - (bits offs 16 12 : Nat)
  let dr : Int := (cr : Int) - (bits offs 16 12 : Nat)
  ([0, 1, 2].map fun r => sat12 ((cscCoef s p m (3 * r) * dy + cscCoef s p m (3 * r + 1) * db
    + cscCoef s p m (3 * r + 2) * dr + 512) / 1024)) ++ [4095]

/-! ### Layers (R519, R521, R544) -/

/-- A layer as the pipe uses it: 0 to 3 the video layers, 4 to 11 the graphic layers. -/
structure Layer where
  idx : Nat
  ctl : Nat
  addr : Nat
  pitch : Nat
  caddr : Nat
  w : Nat
  h : Nat
  x : Nat
  y : Nat
  dw : Nat
  dh : Nat
  stepX : Nat
  stepY : Nat
  initX : Int
  initY : Int
  alpha : Nat
  deriving DecidableEq, Repr

/-- Whether it is a video layer. -/
def Layer.video (l : Layer) : Bool := Nat.blt l.idx 4

/-- FMT. -/
def Layer.fmt (l : Layer) : Nat := bits l.ctl 1 3

/-- CODED and RATIO (R342); CODED holds for FMT 0 to 2. -/
def Layer.coded (l : Layer) : Option Bool := if bit l.ctl 11 && Nat.ble l.fmt 2 then some (bit l.ctl 12) else none

/-- Whether the layer's alpha is 4,095 whatever its pixels hold (R522 order 5, R529). -/
def Layer.noAlpha (l : Layer) : Bool := bit l.ctl 9 || Nat.ble 3 l.fmt

/-- Layer `i` of pipe `p`, from the active copies. -/
def layerOf (s : State) (p i : Nat) : Layer :=
  let base := cmpBase + 0x4000 * p + (if i < 4 then 0x100 + 0x40 * i else 0x200 + 0x20 * (i - 4))
  let reg (r : Nat) : Nat := pipeAct s (base + r)
  let addr := reg 0x04 / 256 * 256 + hi32 (bits (reg 0x08) 0 16)
  if i < 4 then
    { idx := i, ctl := reg 0, addr := addr, pitch := reg 0x0C, caddr := reg 0x10 / 256 * 256 + hi32 (bits (reg 0x14) 0 16),
      w := max 1 (bits (reg 0x18) 0 15), h := max 1 (bits (reg 0x18) 16 15), x := bits (reg 0x1C) 0 15,
      y := bits (reg 0x1C) 16 15, dw := max 1 (bits (reg 0x20) 0 15), dh := max 1 (bits (reg 0x20) 16 15),
      stepX := reg 0x24, stepY := reg 0x28, initX := toSigned 32 (reg 0x2C), initY := toSigned 32 (reg 0x30),
      alpha := bits (reg 0x34) 0 12 }
  else
    let w := max 1 (bits (reg 0x10) 0 15)
    let h := max 1 (bits (reg 0x10) 16 15)
    { idx := i, ctl := reg 0, addr := addr, pitch := reg 0x0C, caddr := 0, w := w, h := h, x := bits (reg 0x14) 0 15,
      y := bits (reg 0x14) 16 15, dw := w, dh := h, stepX := 65536, stepY := 65536, initX := 0, initY := 0,
      alpha := bits (reg 0x18) 0 12 }

/-- Active size of pipe `p`. -/
def pipeHact (s : State) (p : Nat) : Nat := bits (pipeAct s (cmpBase + 0x4000 * p + 0x08)) 0 15

/-- Active lines of pipe `p`. -/
def pipeVact (s : State) (p : Nat) : Nat := bits (pipeAct s (cmpBase + 0x4000 * p + 0x10)) 0 15

/-- Whether a pixel of the active area lies in the layer's destination rectangle. -/
def Layer.holds (l : Layer) (x y : Nat) : Bool :=
  Nat.ble l.x x && Nat.blt x (l.x + l.dw) && Nat.ble l.y y && Nat.blt y (l.y + l.dh)

/-- Puts a layer behind those that blend before it (R521): ascending Z, then video layers before graphic ones. -/
def layerInsert (l : Layer) : List Layer → List Layer
  | [] => [l]
  | k :: r => if bits l.ctl 4 4 * 16 + l.idx < bits k.ctl 4 4 * 16 + k.idx then l :: k :: r else k :: layerInsert l r

/-- The enabled host layers of pipe `p` from the bottom up; none while its host layers are off (R531). -/
def hostLayers (s : State) (p : Nat) (off : Bool) : List Layer :=
  if off then []
  else (((List.range 12).map (layerOf s p)).filter fun l => bit l.ctl 0).foldl (fun r l => layerInsert l r) []

/-! ### Fetch (R520, R522, R529, R540) -/

/-- The address of a source pixel's bytes, and in a coded source of its block and the place in it (R342). -/
def Layer.pixelAt (l : Layer) (x y : Nat) : Nat × Nat :=
  match l.coded with
  | some ratio => (l.addr + (y / 4 * ceilDiv l.w 4 + x / 4) * frBytes ratio, y % 4 * 4 + x % 4)
  | none =>
    let n := if l.fmt < 3 then 4 else if l.fmt = 4 then 1 else 2
    (l.addr + y * l.pitch + x * n, 0)

/-- The address of the chroma pair of a source pixel of NV12 or P010. -/
def Layer.chromaAt (l : Layer) (x y : Nat) : Nat :=
  l.caddr + y / 2 * l.pitch + x / 2 * (if l.fmt = 4 then 2 else 4)

/-- The aligned 64-byte spans that a source pixel lies in (R529). -/
def Layer.pixelSpans (l : Layer) (x y : Nat) : List Nat :=
  let a := (l.pixelAt x y).1 / 64
  if 4 ≤ l.fmt then [a, l.chromaAt x y / 64] else [a]

/-- A source pixel of layer `l` of pipe `p` in R, G, B and A; the pipe reads with tag `tag` (R520, R522, R523). -/
def sourcePx (s : State) (p tag : Nat) (l : Layer) (x y : Nat) : List Nat :=
  let a := l.pixelAt x y
  match l.coded with
  | some ratio => unpackPx l.fmt (frDecode ratio l.fmt (devBytes s tag a.1 (frBytes ratio)) a.2)
  | none =>
    if l.fmt < 3 then unpackPx l.fmt (devNat s tag a.1 4)
    else if l.fmt = 3 then unpackPx 3 (devNat s tag a.1 2)
    else
      let c := l.chromaAt x y
      let m := b2n (bit l.ctl 10)
      if l.fmt = 4 then
        cscPx s p m (to12of8 (devNat s tag a.1 1)) (to12of8 (devNat s tag c 1)) (to12of8 (devNat s tag (c + 1) 1))
      else
        let ten (a : Nat) : Nat := to12of10 (bits (devNat s tag a 2) 6 10)
        cscPx s p m (ten a.1) (ten c) (ten (c + 2))

/-- Tap `t` of a coefficient row (R525, R544). -/
def coefOf (s : State) (p : Nat) (l : Layer) (vert : Bool) (ph t : Nat) : Int :=
  let b := cmpBase + 0x4000 * p + 0x800 + 0xE00 * l.idx + 0x700 * b2n (bit l.ctl 13)
  let off := if vert then b + 0x400 + 12 * ph + 4 * (t / 2) else b + 16 * ph + 4 * (t / 2)
  toSigned 10 (fld s off (16 * (t % 2)) 10)

/-- A source position held inside 0 to `n` − 1 (R524). -/
def srcAt (n : Nat) (i : Int) : Nat := min (n - 1) i.toNat

/-- The source columns of output column `x`, one for each tap, and the phase (R524). -/
def tapsX (l : Layer) (x : Nat) : List Nat × Nat :=
  let p : Int := l.initX + ((x * l.stepX : Nat) : Int)
  ((List.range 8).map fun (t : Nat) => srcAt l.w (p / 65536 - 3 + (t : Int)), ((p / 1024) % 64).toNat)

/-- The source rows of output row `y`, one for each tap, and the phase. -/
def tapsY (l : Layer) (y : Nat) : List Nat × Nat :=
  let p : Int := l.initY + ((y * l.stepY : Nat) : Int)
  ((List.range 6).map fun (t : Nat) => srcAt l.h (p / 65536 - 2 + (t : Int)), ((p / 1024) % 64).toNat)

/-- One pass of the scaler over a list of pixels with their coefficients, rounded and saturated (R524). -/
def scalePx (cs : List Int) (px : List (List Nat)) : List Nat :=
  (List.range 4).map fun k =>
    sat12 ((((cs.zip px).map fun (c, q) => c * ((nth q k : Nat) : Int)).foldl (· + ·) 0 + 128) / 256)

/-- The source pixels that an output pixel of the layer is made of (R524). -/
def feedPx (l : Layer) (x y : Nat) : List (Nat × Nat) :=
  if l.video then (tapsX l (x - l.x)).1.flatMap fun c => (tapsY l (y - l.y)).1.map fun r => (c, r)
  else [(x - l.x, y - l.y)]

/-- The spans that an output pixel of the layer needs. -/
def feedSpans (l : Layer) (x y : Nat) : List Nat := ((feedPx l x y).flatMap fun q => l.pixelSpans q.1 q.2).eraseDups

/-- An output pixel of a layer before blending: scaled vertically and then horizontally (R522). -/
def layerPx (s : State) (p tag : Nat) (l : Layer) (x y : Nat) : List Nat :=
  let px :=
    if l.video then
      let tx := tapsX l (x - l.x)
      let ty := tapsY l (y - l.y)
      let cv := (List.range 6).map (coefOf s p l true ty.2)
      let ch := (List.range 8).map (coefOf s p l false tx.2)
      scalePx ch (tx.1.map fun c => scalePx cv (ty.1.map fun r => sourcePx s p tag l c r))
    else sourcePx s p tag l (x - l.x) (y - l.y)
  if l.noAlpha then px.set 3 4095 else px

/-! ### Hidden spans (R529) -/

/-- Whether a layer is opaque. -/
def Layer.opaqueLayer (l : Layer) : Bool := l.alpha == 4095 && l.noAlpha

/-- The four highest opaque layers that meet the strip of output line `y`; `ls` stand from the bottom up. -/
def stripCovers (s : State) (p : Nat) (ls : List Layer) (y : Nat) : List Layer :=
  ((ls.filter fun l => l.opaqueLayer && Nat.blt l.x (pipeHact s p)
    && Nat.blt l.y (min (pipeVact s p) (y / 64 * 64 + 64)) && Nat.blt (y / 64 * 64) (l.y + l.dh)).reverse).take 4

/-- Whether layer `l` of `ls` is hidden at a pixel. -/
def hiddenAt (s : State) (p : Nat) (ls : List Layer) (l : Layer) (x y : Nat) : Bool :=
  (stripCovers s p ls y).any fun c => c.holds x y
    && Nat.blt (ls.findIdx fun k => k.idx == l.idx) (ls.findIdx fun k => k.idx == c.idx)

/-- The output columns of a layer inside the active area. -/
def layerCols (s : State) (p : Nat) (l : Layer) : List Nat :=
  (List.range (min l.dw (pipeHact s p - l.x))).map (l.x + ·)

/-- The output lines of a layer inside the active area. -/
def layerRows (s : State) (p : Nat) (l : Layer) : List Nat :=
  (List.range (min l.dh (pipeVact s p - l.y))).map (l.y + ·)

/-- Whether every output pixel that a span feeds is hidden. -/
def spanHidden (s : State) (p : Nat) (ls : List Layer) (l : Layer) (span : Nat) : Bool :=
  (layerRows s p l).all fun y => (layerCols s p l).all fun x =>
    !(feedSpans l x y).contains span || hiddenAt s p ls l x y

/-- The spans that line `y` of a layer needs. -/
def lineSpans (s : State) (p : Nat) (l : Layer) (y : Nat) : List Nat :=
  ((layerCols s p l).flatMap fun x => feedSpans l x y).eraseDups

/-- The spans that the pipe comes to with line `y` of a layer: those that the line above did not need. -/
def newSpans (s : State) (p : Nat) (l : Layer) (y : Nat) : List Nat :=
  if y < l.y ∨ l.y + l.dh ≤ y then []
  else if y = l.y then lineSpans s p l y
  else let old := lineSpans s p l (y - 1); (lineSpans s p l y).filter fun a => !old.contains a

/-! ### Blending (R526, R527) -/

/-- The blend of a colour and alpha over a result. -/
def blendOver (dst c : List Nat) (a : Nat) : List Nat :=
  (List.range 3).map fun k => min 4095 (nth c k + mul12 (nth dst k) (4095 - a))

/-- A pixel with ALPHA and PREMULT blended over a result (R526). -/
def blendPx (dst px : List Nat) (alpha : Nat) (premult : Bool) : List Nat :=
  let a := mul12 (nth px 3) alpha
  blendOver dst (if premult then px.map (mul12 · alpha) else px.map (mul12 · a)) a

/-- The background of pipe `p` (R527). -/
def background (s : State) (p : Nat) : List Nat :=
  let b := pipeAct s (cmpBase + 0x4000 * p + 4)
  [to12of8 (bits b 0 8), to12of8 (bits b 8 8), to12of8 (bits b 16 8)]

/-! ### Foxglove (R532, R536) -/

/-- The Foxglove source pixel at a place of the active area, if the layer lies there: `mode` 2 shows the safe image. -/
def foxPx (x : PipeSt) (mode bank : Nat) (px py : Nat) : Option (List Nat) :=
  match x.fg with
  | none => none
  | some f =>
    if f.x ≤ px ∧ px < f.x + f.w ∧ f.y ≤ py ∧ py < f.y + f.h then
      some ((x.store.readBytes ((if mode = 2 then 2 ^ 19 else 0) + bank * 2 ^ 18 + 4 * ((py - f.y) * f.w + (px - f.x))) 4).map
        (·.toNat))
    else none

/-- A Foxglove pixel blended over a result. -/
def blendFox (dst : List Nat) (f : FgCfg) (px : List Nat) : List Nat :=
  blendPx dst (px.map to12of8) 4095 f.premult

end Sys2Proof.Machine
end

