-- ==== Sys2Proof/Machine/Display.lean ====
section
/-!
DEFINITION. Display pipes: scanout, commits, Foxglove, links and the AUX channel (R519 to R544).
-/
namespace Sys2Proof.Machine

/-- A register of CMP_PIPE[p] (R544). -/
def cmpOff (p r : Nat) : Nat := cmpBase + 0x4000 * p + r

/-- Pipe `p`. -/
def pipeOf (s : State) (p : Nat) : PipeSt := tabGet (fun _ => {}) p s.pipes

/-- Replaces pipe `p`. -/
def setPipe (s : State) (p : Nat) (x : PipeSt) : State := { s with pipes := tabPut (fun _ => {}) p x s.pipes }

/-- The partition tag that Eflan has given pipe `p`, M for none (R309, R443). -/
def pipeTag (s : State) (p : Nat) : Nat :=
  ((List.range 9).find? fun k => bit (fld s (ptOff k 0x14) 0 4) p).getD tagM

/-- Whether the active CMP_CTL.EN of pipe `p` is 1 and its domain is on. -/
def pipeOn (s : State) (p : Nat) : Bool :=
  bit (fld s pwrDomainOff 16 4) p && bit (pipeAct s (cmpOff p 0)) 0

/-- FG_STATUS.MODE: 0 off, 1 image, 2 safe image. -/
def fgMode (s : State) (p : Nat) : Nat := fld s (cmpOff p 0x300) 0 2

/-- The output depth in force (R528, R537): the command's while Foxglove is enabled. -/
def pipeBpc (s : State) (p : Nat) : Bool :=
  match (pipeOf s p).fg with
  | some f => if fgMode s p = 0 then bit (pipeAct s (cmpOff p 0)) 1 else f.bpc
  | none => bit (pipeAct s (cmpOff p 0)) 1

/-- Host layers are off after a reset of the pipe's partition and in P3 (R531). -/
def pipeHostOff (s : State) (p : Nat) : Bool := (pipeOf s p).hostOff || (pipeOf s p).dark || fld s pwrDomainOff 2 1 == 0

/-- A record of pipe `p`, which raises vector 9 (R540, R542). -/
def pipeFault (s : State) (p code : Nat) (detail : List Nat) : State :=
  raise (append s { code := code, tag := pipeTag s p, kind := 10, unit := p, detail := detail }) 0 9

/-! ### Scanout (R540) -/

/-- Whether the fetch of a span fails: outside the tag's ranges, or marked. -/
def spanFails (s : State) (tag : Nat) (bad : List Nat) (a : Nat) : Bool := bad.contains a || !inRange s tag (64 * a) 64

/-- One failed span of a layer (R540): counted, and logged once in a frame; an address outside the tag's ranges is
also a violation (R310). -/
def fetchFault (s : State) (p tag : Nat) (l : Layer) (a : Nat) : State :=
  let s := bump s (cmpOff p 0x78)
  let s := if inRange s tag (64 * a) 64 then mcEcc s (64 * a) .uncorrectable else violation s tag (72 + p) (64 * a)
  let x := pipeOf s p
  if x.ferr.contains l.idx then s
  else pipeFault (setPipe s p { x with ferr := l.idx :: x.ferr }) p 0xF3 ([l.idx] ++ two (64 * a))

/-- The failed spans of a list. -/
def fetchFaults (s : State) (p tag : Nat) (l : Layer) (bad : List Nat) : List Nat → State
  | [] => s
  | a :: r => fetchFaults (if spanFails s tag bad a then fetchFault s p tag l a else s) p tag l bad r

/-- What line `y` fetches for a list of layers of `all`: hidden spans are skipped and counted (R529). -/
def fetchLine (s : State) (p tag y : Nat) (bad : List Nat) (all : List Layer) : List Layer → State
  | [] => s
  | l :: r =>
    let new := newSpans s p l y
    let skip := new.filter (spanHidden s p all l)
    let s := bump s (cmpOff p 0x7C) skip.length
    fetchLine (fetchFaults s p tag l bad (new.filter fun a => !skip.contains a)) p tag y bad all r

/-- Whether a layer's pixel is missing: its data is not present, or a span of it failed (R540). -/
def pxMissing (s : State) (tag : Nat) (late : List (Nat × Nat × Nat)) (bad : List Nat) (l : Layer) (x y : Nat) : Bool :=
  (late.any fun k => k.1 == l.idx && Nat.ble k.2.1 x && Nat.blt x k.2.2) || (feedSpans l x y).any (spanFails s tag bad)

/-- The pixel that host layers give at a place over the background; missing pixels are transparent (R521, R540). -/
def hostPx (s : State) (p tag : Nat) (late : List (Nat × Nat × Nat)) (bad : List Nat) (ls : List Layer) (x y : Nat) :
    List Nat :=
  ls.foldl (fun acc l =>
    if l.holds x y && !pxMissing s tag late bad l x y then
      blendPx acc (layerPx s p tag l x y) l.alpha (bit l.ctl 8)
    else acc) (background s p)

/-- The output of one pixel, with the Foxglove source pixel there (R521, R527, R528). -/
def outPx (s : State) (p tag : Nat) (late : List (Nat × Nat × Nat)) (bad : List Nat) (ls : List Layer) (x y : Nat) :
    (Nat × Nat × Nat) × Option (List Nat) :=
  let st := pipeOf s p
  let host := hostPx s p tag late bad ls x y
  let fox := if fgMode s p = 0 then none else foxPx st (fgMode s p) (fld s (cmpOff p 0x300) 2 1) x y
  let px := match st.fg, fox with
    | some f, some q => blendFox host f q
    | _, _ => host
  let o (k : Nat) : Nat := outComp (pipeBpc s p) (nth px k)
  ((o 0, o 1, o 2), fox)

/-- The bytes that a pixel adds to the frame's CRC: those of an opaque Foxglove pixel (R537). -/
def crcBytes (o : (Nat × Nat × Nat) × Option (List Nat)) : List Byte :=
  match o.2 with
  | some q => if nth q 3 = 255 then leBytes 2 o.1.1 ++ leBytes 2 o.1.2.1 ++ leBytes 2 o.1.2.2 else []
  | none => []

/-- Composes and scans out active line `y` of pipe `p` (R519 to R529, R537, R540). -/
def composeLine (s : State) (p y : Nat) (late : List (Nat × Nat × Nat)) (bad : List Nat) (fgBad : Bool) : State :=
  let tag := pipeTag s p
  let x := pipeOf s p
  let bad := (bad.filter fun a => !x.bad.contains a) ++ x.bad
  let ls := hostLayers s p (pipeHostOff s p)
  let s := setPipe s p { x with bad := bad }
  let s := fetchLine s p tag y bad ls ls
  let miss := ls.any fun l => (List.range (pipeHact s p)).any fun c => l.holds c y
    && late.any fun k => k.1 == l.idx && Nat.ble k.2.1 c && Nat.blt c k.2.2
  let s := if miss then bump s (cmpOff p 0x74) else s
  let s := if miss ∧ !(pipeOf s p).under then
      pipeFault (setPipe s p { pipeOf s p with under := true }) p 0xF2 [] else s
  let px := (List.range (pipeHact s p)).map fun c => outPx s p tag late bad ls c y
  let x := pipeOf s p
  setPipe s p { x with out := px.map (·.1), crc := crcFeed x.crc (px.flatMap crcBytes),
                       fgBad := x.fgBad || (fgBad && px.any fun o => o.2.isSome) }

/-- Whether pipe `p` is the line clock's source (R52). -/
def pipeIsSource (s : State) (p : Nat) : Bool := s.lc.powered && lcKind s == 1 && lcUnit s == p

/-- Line `l` of pipe `p` begins: a frame edge at line 0, a tick at the others (R52, R54). -/
def pipeLineTick (s : State) (p l : Nat) : State :=
  if !pipeIsSource s p then s
  else if l = 0 then lcJudge s (wake s)
  else if s.lc.mode = .locked then lcTick s (256 * wake s)
  else s

/-- Pipe `p` scans out its next line, from wake-oscillator cycle `t`. The first line of vertical blank waits for the
frame boundary, which comes with it. -/
def execDisplayLine (p : Pipe) (t : Nat) (late : List (Nat × Nat × Nat)) (bad : List Nat) (fgBad : Bool) (s : State) : Out :=
  let s := atWake s t
  let x := pipeOf s p
  if !pipeOn s p ∨ (x.line ≠ 0 ∧ x.line = x.vact ∧ !x.bdone) then .next s
  else
    let y := x.line
    let x := if y = 0 then
        { x with vact := pipeVact s p, vtot := bits (pipeAct s (cmpOff p 0x10)) 16 15, bdone := false, crc := 0xFFFFFFFF,
                 fgBad := false, under := false, ferr := [], bad := [] }
      else x
    let s := pipeLineTick (setPipe s p x) p y
    let s := if y < x.vact then composeLine s p y late bad fgBad else setPipe s p { pipeOf s p with out := [] }
    let x := pipeOf s p
    .next (setPipe s p { x with line := if y + 1 < x.vtot then y + 1 else 0 })

/-! ### Commits (R530, R531, R542) -/

/-- Whether an offset within a pipe is shadowed (R544). -/
def shadowed (r : Nat) : Bool := Nat.blt r 0x60 || (Nat.ble 0x100 r && Nat.blt r 0x300)

/-- The shadow copies of pipe `p`. -/
def shadowCopies (s : State) (p : Nat) : List (Nat × Word) :=
  s.regs.filter fun k => Nat.ble (cmpOff p 0) k.1 && Nat.blt k.1 (cmpOff p 0x4000) && shadowed (k.1 - cmpOff p 0)

/-- A write of 1 to CMP_COMMIT.ARM: a snapshot is taken, in place of one that waits (R530, R531). -/
def cmpArm (s : State) (p : Nat) : State :=
  setFld (setPipe s p { pipeOf s p with armed := some (shadowCopies s p) }) (cmpOff p 0x60) 0 1 1

/-- The active copies with those of pipe `p` replaced by a snapshot. -/
def takeSnapshot (s : State) (p : Nat) (snap : List (Nat × Word)) : State :=
  let others := s.pipeActive.filter fun k => !(Nat.ble (cmpOff p 0) k.1 && Nat.blt k.1 (cmpOff p 0x4000))
  { s with pipeActive := snap.foldl (fun l k => tabPut resetWord k.1 k.2 l) others }

/-- The link rate in kbit/s that CMP_CTL names, and its coding as a fraction (R541, R542). -/
def linkRate (ctl : Nat) : Nat × Nat × Nat :=
  let r := bits ctl 8 3
  if r < 4 then (nth [1620000, 2700000, 5400000, 8100000] r, 8, 10)
  else if bit ctl 3 then (nth [2160000, 2430000, 3240000, 4320000] (r - 4), 8, 10)
  else (nth [10000000, 13500000, 20000000, 20000000] (r - 4), 128, 132)

/-- Whether the active timing fits the link (R542). -/
def linkFits (s : State) (p : Nat) : Bool :=
  let ctl := pipeAct s (cmpOff p 0)
  let r := linkRate ctl
  let lanes := 2 ^ min 2 (bits ctl 4 2)
  Nat.ble (bits (pipeAct s (cmpOff p 0x18)) 0 22 * 3 * (if pipeBpc s p then 10 else 8) * r.2.2) (lanes * r.1 * r.2.1)

/-- What each transfer checks (R542): with PORT_EN at 1 the port is enabled only if the timing in force fits the link. -/
def portCheck (s : State) (p : Nat) : State :=
  let port := bit (pipeAct s (cmpOff p 0)) 2
  let fits := linkFits s p
  let s := if port ∧ !fits then pipeFault s p 0xF4 [] else s
  setPipe s p { pipeOf s p with portOn := port && fits }

/-- A transfer of the armed snapshot (R530, R542): a change of LANES, RATE or EDP starts training. -/
def hostTransfer (s : State) (p : Nat) : State :=
  let x := pipeOf s p
  match x.armed with
  | none => s
  | some snap =>
    let old := pipeAct s (cmpOff p 0)
    let s := takeSnapshot s p snap
    let new := pipeAct s (cmpOff p 0)
    let s := setFld (setPipe s p { x with armed := none, hostOff := false }) (cmpOff p 0x60) 0 1 0
    let x := pipeOf s p
    let change := bits old 3 3 ≠ bits new 3 3 ∨ bits old 8 3 ≠ bits new 8 3
    let x := { x with training := x.training || decide change,
                      link := x.link && !decide change, line := if bit old 0 then x.line else 0 }
    setPipe s p x

/-! ### Foxglove at the boundary (R536 to R538) -/

/-- Judges the Foxglove CRC of the frame that ends (R537, R538). -/
def foxJudge (s : State) (p : Nat) : State :=
  let x := pipeOf s p
  match x.fg with
  | none => s
  | some f =>
    if fgMode s p = 0 ∨ !f.crcEn then s
    else
      let crc := Nat.xor x.crc 0xFFFFFFFF
      let want := if fgMode s p = 2 then f.crcSafe else f.crcImage
      let off := cmpOff p 0x300
      let run := fld s off 8 8
      let s := wr s (cmpOff p 0x304) crc
      if crc = want ∧ !x.fgBad then setFld s off 8 8 0
      else
        let s := bump s (cmpOff p 0x308)
        let s := setFld s off 8 8 (min 255 (run + 1))
        let s := if run = 0 then pipeFault s p 0xF0 [p, crc, want] else s
        if f.safeEn ∧ fgMode s p = 1 ∧ !x.safeDue ∧ max 1 f.limit ≤ min 255 (run + 1) then
          append (setPipe s p { pipeOf s p with safeDue := true }) { code := 0xF1, tag := pipeTag s p, kind := 10, unit := p }
        else s

/-- Takes up the Foxglove change that waits (R536): a new command swaps the banks and clears the run. `safe`: the safe
image was called for at an earlier boundary and is shown from here (R538). -/
def foxTransfer (s : State) (p : Nat) (safe : Bool) : State :=
  let x := pipeOf s p
  let off := cmpOff p 0x300
  match x.fgNext with
  | some (some f) =>
    let s := setPipe s p { x with fg := some f, fgNext := none, safeDue := false }
    let s := setFld (setFld s off 0 2 1) off 2 1 (1 - fld s off 2 1)
    setFld (setFld s off 8 8 0) off 16 4 1
  | some none =>
    let s := setPipe s p { x with fg := none, fgNext := none, safeDue := false }
    setFld (setFld s off 0 2 0) off 16 4 1
  | none =>
    if safe then setFld (setPipe s p { x with safeDue := false }) off 0 2 2 else s

/-- The Foxglove transfer and the host's at one boundary (R531), with the check that a transfer makes (R542). -/
def transfers (s : State) (p : Nat) (safe : Bool) : State :=
  let x := pipeOf s p
  let s := hostTransfer (foxTransfer s p safe) p
  if x.fgNext.isSome ∨ x.armed.isSome then portCheck s p else s

/-- The frame boundary of pipe `p` (R530, R531): the first line of vertical blank; a pipe that is off takes a commit up
at once. -/
def execDisplayFrameBoundary (p : Pipe) (s : State) : Out :=
  let x := pipeOf s p
  if !bit (fld s pwrDomainOff 16 4) p then .next s
  else if bit (pipeAct s (cmpOff p 0)) 0 then
    (if x.line = x.vact ∧ !x.bdone then
      let s := bump (setPipe s p { x with bdone := true, dark := x.dark && fld s pwrDomainOff 2 1 == 0 }) (cmpOff p 0x70)
      .next (transfers (foxJudge s p) p x.safeDue)
    else .next s)
  else .next (transfers s p x.safeDue)

/-! ### Links (R541 to R543) -/

/-- HPD of pipe `p` changes (R540, R542): a rise trains the link, a fall loses it. -/
def execHpdChange (p : Pipe) (high : Bool) (s : State) : Out :=
  let x := pipeOf s p
  if x.hpd = high then .next s
  else if high then .next (setPipe s p { x with hpd := true, training := true })
  else
    let s := setPipe s p { x with hpd := false, link := false, training := false }
    .next (if x.link then pipeFault s p 0xF4 [] else s)

/-- Link training of pipe `p` ends (R542); a failed training is a lost link. -/
def execLinkTrainingDone (p : Pipe) (ok : Bool) (s : State) : Out :=
  let x := pipeOf s p
  if !x.training then .next s
  else
    let s := setPipe s p { x with training := false, link := ok }
    .next (if ok then s else pipeFault s p 0xF4 [])

/-- The AUX transaction that GO asks for starts; during training it waits (R543). -/
def execAuxTransaction (p : Pipe) (s : State) : Out :=
  let x := pipeOf s p
  if fld s (cmpOff p 0xC0) 0 1 = 1 ∧ !x.aux ∧ !x.training then
    .next (setFld (setPipe s p { x with aux := true }) (cmpOff p 0xD4) 0 3 0)
  else .next s

/-- The AUX transaction ends with its reply: the bytes of an acknowledged read stand in CMP_AUX_DATA (R543, R544). -/
def execAuxReply (p : Pipe) (code : Fin 5) (data : List Byte) (s : State) : Out :=
  let x := pipeOf s p
  if !x.aux then .next s
  else
    let cmd := rd s (cmpOff p 0xC0)
    let s := setFld (setPipe s p { x with aux := false }) (cmpOff p 0xC0) 0 1 0
    let s := setFld s (cmpOff p 0xD4) 0 3 code
    if code.val = 1 ∧ bit cmd 2 then
      let n := bits cmd 4 4 + 1
      let old := wordBytes ((List.range 4).map fun i => rd s (cmpOff p (0xC4 + 4 * i)))
      let new := bytesWords (((data.take n) ++ old.drop (data.take n).length).take 16)
      .next ((List.range 4).foldl (fun s i => wr s (cmpOff p (0xC4 + 4 * i)) (nth new i)) s)
    else .next s

/-! ### Peony's writes of CMP registers (R544) -/

/-- The clamps of CMP registers that the tables do not give: pairs of fields, RATE, and CODED. -/
def cmpClamp (s : State) (p r x : Nat) : Nat :=
  let h := rd s (cmpOff p 0x08)
  let v := rd s (cmpOff p 0x10)
  let sync (room : Nat) : Nat :=
    let a := min room (bits x 0 15)
    setBits (setBits x 0 15 a) 16 15 (min (room - a) (bits x 16 15))
  if r = 0 then (if bits x 8 3 = 7 ∧ !bit x 3 then setBits x 8 3 6 else x)
  else if r = 0x08 then setBits x 16 15 (max (bits x 0 15 + 32) (bits x 16 15))
  else if r = 0x0C then sync (bits h 16 15 - bits h 0 15)
  else if r = 0x10 then setBits x 16 15 (max (bits x 0 15 + 3) (bits x 16 15))
  else if r = 0x14 then sync (bits v 16 15 - bits v 0 15)
  else if (0x100 ≤ r ∧ r < 0x200 ∧ r % 0x40 = 0 ∨ 0x200 ≤ r ∧ r < 0x300 ∧ r % 0x20 = 0) ∧ 2 < bits x 1 3 then setBits x 11 1 0
  else x

/-- A write of register `r` of pipe `p`: shadowed registers take it in the shadow copy; ARM takes a snapshot. -/
def cmpWrite (s : State) (p r x : Nat) : State :=
  let off := cmpOff p r
  if r = 0x60 then (if bit x 0 then cmpArm s p else s)
  else wr s off (cmpClamp s p r (writeFlds (rd s off) x (fieldsAt off)))

/-- The host layers of pipe `p` go off and its armed snapshot is dropped (R531). -/
def pipeHalt (s : State) (p : Nat) : State :=
  setFld (setPipe s p { pipeOf s p with hostOff := true, armed := none }) (cmpOff p 0x60) 0 1 0

/-! ### Foxglove commands (R533 to R536) -/

/-- Bytes `a` up to `a + n` of a command as a number. -/
def cmdNat (b : List Byte) (a n : Nat) : Nat := leNat ((b.drop a).take n)

/-- The staging area of pipe `p` (R532). -/
def stageOf (s : State) (p : Nat) : Nat := foxLo s + 2 ^ 20 * p

/-- The fields of an OP 0 command. -/
def fgCfgOf (b : List Byte) : FgCfg :=
  let flags := cmdNat b 32 1
  { x := cmdNat b 24 2, y := cmdNat b 26 2, w := cmdNat b 28 2, h := cmdNat b 30 2, premult := bit flags 0,
    crcEn := bit flags 1, safeEn := bit flags 2, bpc := bit flags 3, limit := cmdNat b 33 1, crcImage := cmdNat b 36 4,
    crcSafe := cmdNat b 40 4 }

/-- The result of the checks of R536, in their order; 1 where all pass. -/
def foxCheck (s : State) (p : Nat) (b : List Byte) : Nat :=
  let f := fgCfgOf b
  match s.foxKey with
  | none => 8
  | some key =>
    if !Config.ed448Ok key (Config.shake (b.take 232)) ((b.drop 232).take 114) then 2
    else if cmdNat b 0 4 ≠ 0x4C475846 ∨ cmdNat b 4 2 ≠ 1 ∨ 2 < cmdNat b 6 1 ∨ cmdNat b 7 1 ≠ p ∨
        16384 < f.x + f.w ∨ 16384 < f.y + f.h ∨ f.w * f.h = 0 ∨ 65536 < f.w * f.h then 5
    else if cmdNat b 16 4 ≠ rd s (idBase + 0x08) ∨ cmdNat b 20 2 ≠ bits (rd s (idBase + 0x0C)) 0 16 then 4
    else if cmdNat b 8 8 ≤ s.foxCount then 3
    else if cmdNat b 6 1 = 0 ∧ Config.shake (s.hbm.readBytes (stageOf s p) (4 * f.w * f.h)) ≠ (b.drop 44).take 64 then 6
    else if cmdNat b 6 1 = 0 ∧ f.safeEn ∧
        Config.shake (s.hbm.readBytes (stageOf s p + 0x40000) (4 * f.w * f.h)) ≠ (b.drop 108).take 64 then 7
    else 1

/-- Copies a pipe's staging areas into the banks not in use (R536). -/
def foxCopy (s : State) (p : Nat) : State :=
  let x := pipeOf s p
  let bank := 1 - fld s (cmpOff p 0x300) 2 1
  let put (st : Mem) (at' src : Nat) : Mem := st.writeBytes at' (s.hbm.readBytes src (2 ^ 18))
  setPipe s p { x with store := put (put x.store (bank * 2 ^ 18) (stageOf s p)) (2 ^ 19 + bank * 2 ^ 18)
                                    (stageOf s p + 0x40000) }

/-- Eflan finishes the check of the queued command (R536). -/
def execFoxgloveCheckDone (s : State) : Out :=
  match s.foxCmd with
  | none => .next s
  | some (p, b) =>
    let r := foxCheck s p b
    let s := { s with foxCmd := none, foxChecked := cmdNat b 8 8 }
    if r ≠ 1 then .next (setFld s (cmpOff p 0x300) 16 4 r)
    else
      let s := { s with foxCount := cmdNat b 8 8 }
      match cmdNat b 6 1 with
      | 0 =>
        let s := foxCopy s p
        .next (setPipe s p { pipeOf s p with fgNext := some (some (fgCfgOf b)) })
      | 1 => .next (setPipe s p { pipeOf s p with fgNext := some none })
      | _ => .next (setFld { s with foxKey := some ((b.drop 172).take 57) } (cmpOff p 0x300) 16 4 1)

end Sys2Proof.Machine
end

