-- ==== Sys2Proof/Machine/Reset.lean ====
section
/-!
DEFINITION. Partition resets, device-wide resets and the destruction of partitions (R446 to R449, R476, R574, R579,
R581, R603), and the unloading of a model that they share with MODEL_UNLOAD (R173).
-/
namespace Sys2Proof.Machine

/-! ### Unloading a model (R173) -/

/-- The tile memories of a list of engines become undefined. -/
def blankTiles (s : State) : List Nat → State
  | [] => s
  | e :: es =>
    blankTiles { s with tile := s.tile.blank (e * 2 ^ 22) ((e + 1) * 2 ^ 22) (s.fresh + 1), fresh := s.fresh + 1 } es

/-- Answers the pending joins and leaves of an unload: CANCELLED and LEFT, naming the frame in progress. -/
def cancelRequests (s : State) : List JoinReq → State
  | [] => s
  | j :: r => cancelRequests (writeStatus s j (if j.leave then 9 else 5) s.lc.frame) r

/-- Unloads the resident model: its batch empties, its tile memory is free with undefined contents, its requests are
answered, and the channels of its batch return to external memory (R173, R185). -/
def unloadModel (s : State) : State :=
  match s.model with
  | none => s
  | some m =>
    let s := cancelRequests (planNone s m.engines) m.requests
    let s := { s with model := none }
    let s := setFld s (ptStatusOff m.part) 7 1 0
    capRebinds (blankTiles s m.engines) (m.batch.map fun b => (b.cap, b.vc))

/-! ### Orders 1 and 2 (R447) -/

/-- The reset in progress of partition `p`. -/
def resetOf (s : State) (p : Nat) : Option PReset := s.resets.find? fun x => x.part == p

/-- Changes the reset of partition `p`. -/
def updReset (s : State) (p : Nat) (f : PReset → PReset) : State :=
  { s with resets := s.resets.map fun x => if x.part = p then f x else x }

/-- The enabled engines of partition `p`. -/
def partEngs (s : State) (p : Nat) : List Nat :=
  ((quadsOf s p).flatMap fun q => (List.range 4).map (4 * q + ·)).filter fun e =>
    bit (fld s (qdOff (e / 4) 0) 0 4) (e % 4)

/-- The queues of partition `p`. -/
def partQueues (s : State) (p : Nat) : List Nat :=
  (s.queues.filter fun x => x.2.life != .free && x.2.part == p).map (·.1)

/-- A queue stops in its slot; what an active run of it promised is kept for order 6 (R378, R419, R447). -/
def resetQueue (s : State) (q : Nat) : State :=
  let x := que s q
  let run := match x.tdRun with
    | some r => some r
    | none => runPromise s q
  let s := setQue s q { x with life := .draining, tdOrder := 0, tdEngines := [], tdFences := [], tdRun := run }
  match x.slot with
  | some n => drainSlot s n
  | none => s

/-- A list of queues stops. -/
def resetQueues (s : State) : List Nat → State
  | [] => s
  | q :: qs => resetQueues (resetQueue s q) qs

/-- Asserts the reset of a list of engines (R583). -/
def resetEngines (s : State) : List Nat → State
  | [] => s
  | e :: es => resetEngines (resetEngine s e) es

/-- Stops what the compression engines hold of partition `p`: at once outside a block or row, else the job is told to
stop (R358, R447); transfers of `p` stop (R267). -/
def resetCx (s : State) (p : Nat) : List Nat → State
  | [] => s
  | k :: ks =>
    let x := cxOf s k
    let x := match x.xfer with
      | some t => if t.part = p then { x with xfer := none } else x
      | none => x
    let s := match x.run with
      | none => setCx s k x
      | some r =>
        if r.part ≠ p then setCx s k x
        else if x.mid then
          updJob (setCx s k x) r.key fun j => { j with stop := some (j.stop.getD (s.now, 0xB3)) }
        else setCx s k { x with run := none }
    resetCx s p ks

/-- The passes of a list end without their jobs ending. -/
def resetPasses (s : State) : List Pass → State
  | [] => s
  | x :: r => resetPasses (closePass s x) r

/-- The deadline monitor ends a run of partition `p`; its job ends at order 6. -/
def resetRun (s : State) (p : Nat) : State :=
  match s.model with
  | none => s
  | some m => if m.part = p then updModel (planNone s m.engines) fun m => { m with run := none, loss := none } else s

/-- Pipes and capture units tagged `p` stop. -/
def resetUnits (s : State) (p : Nat) : State :=
  let t := fld s (ptOff p 0x14) 0 16
  let s := ((List.range 4).filter (bit t)).foldl pipeHalt s
  ((List.range 8).filter fun u => bit t (8 + u)).foldl capHalt s

/-- Takes the raised requests tagged `p` out of every arbiter. -/
def resetRaised (s : State) (p : Nat) : State :=
  { s with arbs := s.arbs.map fun (a, x) => (a, { x with raised := x.raised.filter fun b => b.tag != p }) }

/-- Orders 1 and 2 for partition `p`. -/
def resetStop (s : State) (p : Nat) : State :=
  let s := resetQueues s (partQueues s p)
  let s := resetRun s p
  let es := partEngs s p
  let s := resetEngines s es
  let s := { s with disps := s.disps.filter (·.part != p), pres := s.pres.filter (·.part != p),
                    xfers := s.xfers.filter (·.part != p),
                    copies := s.copies.filter fun c => !(s.jobs.any fun j => j.key == c.key && j.part == p),
                    compWaits := s.compWaits.filter fun c => !(s.jobs.any fun j => j.key == c.key && j.part == p) }
  let s := resetCx s p (List.range 4)
  let s := resetPasses s (s.passes.filter (·.part == p))
  resetRaised (resetUnits s p) p

/-- A start of a reset of partition `p` (R446): one that meets a reset in progress merges with it (R448). -/
def resetStart (s : State) (r : PReset) : State :=
  if (resetOf s r.part).isSome then
    updReset s r.part fun x => { x with clear := x.clear || r.clear, flr := x.flr || r.flr,
                                        mboxes := x.mboxes ++ r.mboxes }
  else
    let p := r.part
    let s := setFld (setFld s (ptStatusOff p) 2 1 1) (ptStatusOff p) 4 3 2
    let s := { s with resets := s.resets ++ [{ r with failed := (partEngs s p).filter (engFailed s) }] }
    resetStop s p

/-! ### Orders 3 to 6 (R447) -/

/-- Whether the fabric and the PCIe controller hold no request of partition `p`, and no shared unit its work. -/
def resetDrained (s : State) (p : Nat) : Bool :=
  !(s.arbs.any fun x => x.2.granted.any fun b => b.tag == p) && !(s.hostReads.any fun h => h.tag == p)
    && !(s.fsigs.any fun f => f.tag == p) && !(s.transits.any fun f => f.tag == p)
    && !(s.cx.any fun x => (x.2.run.map (·.part)) == some p)

/-- Order 4: interrupts of the function not yet sent are discarded. -/
def resetVectors (s : State) (p : Nat) : State :=
  { s with msix := s.msix.map fun (k, v) => if k / 64 = p then (k, { v with due := false, pend := false }) else (k, v) }

/-- Clears the ARB_STARVE bits of a list of requesters at arbiter `a`. -/
def clearStarve (s : State) (a : Nat) : List Nat → State
  | [] => s
  | r :: rs => clearStarve (setFld s (arbOff a (0x08 + 4 * (r / 32))) (r % 32) 1 0) a rs

/-- Order 5 at a list of arbiters: the engines of the partition return to their base level with a run of 0. -/
def resetArbs (s : State) (es : List Nat) : List Nat → State
  | [] => s
  | a :: r =>
    let x := arb s a
    let s := setArb s a { x with level := x.level.filter fun k => !es.contains k.1,
                                 run := x.run.filter fun k => !es.contains k.1 }
    resetArbs (clearStarve s a es) es r

/-- Sets the semaphores of a list of quads to 0 (R276). -/
def zeroSems (s : State) (qs : List Nat) : State :=
  { s with semCycles := s.semCycles.filter fun c => !qs.contains (c.sem / 512)
           regs := s.regs.filter fun x => !(Nat.ble synBase x.1 && Nat.blt x.1 (synBase + 0x8000)
             && qs.contains ((x.1 - synBase) / 0x800)) }

/-- Ends a list of jobs with 0xB3. -/
def abandonJobs (s : State) : List Job → State
  | [] => s
  | j :: r => abandonJobs (failJob s j.key 0xB3) r

/-- A queue ends as under orders 4 to 6 of a teardown and is destroyed (R380, R381, R447). -/
def resetEndQueue (s : State) (q : Nat) : State :=
  let x := que s q
  let s := cancelJoins (setQue s q { x with destroyed := true }) q ((s.model.map (·.requests)).getD [])
  let s := advanceList s q ((List.range x.promCount).map fun i => promWords s q i)
  let s := match x.tdRun with
    | some (a, v) => advance s q a v
    | none => s
  setQue (teardownEnd s q) q {}

/-- Every queue of a list ends. -/
def resetEndQueues (s : State) : List Nat → State
  | [] => s
  | q :: qs => resetEndQueues (resetEndQueue s q) qs

/-- Contexts of a partition are destroyed, and their cached entries go (R367). -/
def dropCtxs (s : State) (p : Nat) : State :=
  let cs := (s.ctxs.filter fun x => x.2.valid && x.2.part == p).map (·.1)
  { s with ctxs := s.ctxs.filter fun x => !cs.contains x.1, reloc := s.reloc.filter fun x => !cs.contains x.1 }

/-- Tile memories of a list of engines are zeroed (R447). -/
def zeroTiles (s : State) : List Nat → State
  | [] => s
  | e :: es => zeroTiles { s with tile := s.tile.blank (e * 2 ^ 22) ((e + 1) * 2 ^ 22) 0 } es

/-- A model of partition `p` that is being loaded is given up: its message is refused with BUSY. -/
def dropLoading (s : State) (p : Nat) : State :=
  match s.loading with
  | some (m, x) =>
    if x.part = p then mbReply { s with loading := none } m (((tabFind m s.mboxes).map (·.words)).getD []) 0x05 [] else s
  | none => s

/-- Order 6 as far as quads are concerned (R447, R476, R579): semaphores are 0, tile memories are zeroed, and engines
that were failed when the reset started are tested. -/
def resetQuads (s : State) (p : Nat) (failed : List Nat) : State :=
  let s := zeroSems s (quadsOf s p)
  let es := partEngs s p
  startTests (zeroTiles s (es.filter fun e => !failed.contains e)) failed

/-- Orders 3 to 6 of the reset of partition `p` (R447). -/
def resetMid (s : State) (r : PReset) : State :=
  let p := r.part
  let s := setFld s (ptStatusOff p) 4 3 6
  let s := { s with replies := s.replies.filter (·.burst.tag != p), arrived := s.arrived.filter (·.burst.tag != p) }
  let s := resetVectors s p
  let s := setFld s (ptOff p 0x0C) 0 3 (fld s (ptOff p 0x0C) 4 3)
  let s := resetArbs s (partEngs s p) (List.range 20)
  let s := abandonJobs s (s.jobs.filter (·.part == p))
  let s := resetEndQueues s (partQueues s p)
  let s := fenceSettle s s.fwaiting.length
  let s := if (s.model.map (·.part)) = some p then unloadModel s else s
  let s := dropCtxs (dropLoading s p) p
  let s := resetQuads s p r.failed
  let s := if r.clear then { s with hbm := s.hbm.blank (hbmLo s p) (hbmHi s p) 0 } else s
  updReset s p fun x => { x with zeroFrom := aclk s }

/-- Orders 3 to 6 of a list of resets that have not reached them. -/
def resetMids (s : State) : List PReset → State
  | [] => s
  | r :: rs => resetMids (if r.destroy || ptStage s r.part != 2 then s else resetMid s r) rs

/-- No request of partition `p` remains in ACLK cycle `c` (R447 orders 3 to 6). In a device-wide reset the partitions
advance together, once none has a request left (R448). -/
def execPartResetDrained (p : Part) (c : Nat) (s : State) : Out :=
  let s := atAclk s c
  match resetOf s p with
  | none => .next s
  | some r =>
    if r.destroy ∨ ptStage s p ≠ 2 then .next s
    else if s.wide.isSome then
      .next (if s.resets.all fun x => x.destroy || resetDrained s x.part then resetMids s s.resets else s)
    else .next (if resetDrained s p then resetMids s [r] else s)

/-! ### Order 7 (R447) -/

/-- Cycles of order 6: zeroing tile memory, and zeroing external memory at 1.75 ms (3,500,000 cycles) per 4 GiB. -/
def zeroCycles (s : State) (r : PReset) : Nat :=
  max (if quadsOf s r.part = [] then 0 else 32768)
    (if r.clear then ceilDiv ((hbmHi s r.part - hbmLo s r.part) * 3500000) (2 ^ 32) else 0)

/-- Whether order 6 of a reset has ended: every zeroing and every self-test. -/
def zeroed (s : State) (r : PReset) : Bool :=
  Nat.ble (r.zeroFrom + zeroCycles s r) (aclk s) && (partEngs s r.part).all fun e => (eng s e).testing.isNone

/-- Releases a list of engines that are not failed (R447, R575). -/
def releaseEngines (s : State) : List Nat → State
  | [] => s
  | e :: es =>
    releaseEngines (if engFailed s e then s else setEng s e { eng s e with inReset := false, beatAt := aclk s }) es

/-- The release of partition `p`: resets end, logical positions follow the live engines (R123), and 0xC0 is appended
with the partition and the cause (R603); mailboxes that waited are answered. -/
def resetRelease (s : State) (r : PReset) : State :=
  let p := r.part
  let s := releaseEngines s (partEngs s p)
  let s := { s with resets := s.resets.filter fun x => x.part != p }
  let s := setFld (setFld s (ptStatusOff p) 2 1 0) (ptStatusOff p) 4 3 0
  let s := rebindIdle (bumpSat s (ptStatusOff p) 16 16) p
  let s := append s { code := 0xC0, tag := p, kind := 15, eflan := true, detail := [p, r.cause] }
  let s := if r.flr then { s with msix := s.msix.filter fun x => x.1 / 64 != p, msixCtl := tabDrop p s.msixCtl } else s
  r.mboxes.foldl (fun s m => mbReply s m (((tabFind m s.mboxes).map (·.words)).getD []) 0x00 []) s

/-- The releases of a list of resets. -/
def resetReleases (s : State) : List PReset → State
  | [] => s
  | r :: rs => resetReleases (resetRelease s r) rs

/-- Zeroing and self-tests of partition `p` have ended by ACLK cycle `c` (R447 order 7): one message on vector 5, and
one 0xC2 for a device-wide reset (R448, R603). -/
def execPartResetRelease (p : Part) (c : Nat) (s : State) : Out :=
  let s := atAclk s c
  match resetOf s p with
  | none => .next s
  | some r =>
    if r.destroy ∨ ptStage s p ≠ 6 then .next s
    else match s.wide with
      | some cause =>
        let rs := s.resets.filter fun x => !x.destroy
        if rs.all fun x => ptStage s x.part == 6 && zeroed s x then
          let s := resetReleases s rs
          let s := append { s with wide := none } { code := 0xC2, kind := 15, eflan := true, detail := [cause] }
          .next (raise s 0 5)
        else .next s
      | none => .next (if zeroed s r then raise (resetRelease s r) 0 5 else s)

/-! ### Device-wide resets (R449, R574, R603) -/

/-- Starts the reset of a list of partitions as parts of a device-wide reset. -/
def resetAll (s : State) : List Nat → State
  | [] => s
  | p :: ps => resetAll (if partExists s p then resetStart s { part := p, cause := 4 } else s) ps

/-- Disables the functions of partitions 1 to 8. -/
def disableVfs (s : State) : State :=
  (List.range 8).foldl (fun s i => setFld s (ptStatusOff (i + 1)) 1 1 0) (setFld s (ptBase + 0x2008) 4 1 0)

/-- What a reset by the link does to configuration space: VF Enable, the link state, and, unless R574 started it, NumVFs
and every MSI-X capability (R449). -/
def resetConfig (s : State) (all : Bool) : State :=
  let s := disableVfs (wr s (ptBase + 0x2000) 0)
  if all then { setFld s (ptBase + 0x2008) 0 4 0 with msix := [], msixCtl := [] }
  else { s with msix := s.msix.filter fun x => x.1 / 64 == 0, msixCtl := s.msixCtl.filter fun x => x.1 == 0 }

/-- A device-wide reset begins in P0 (R449): partitions 0 to 8 in one sequence. One that meets another merges. -/
def wideBegin (s : State) (cause : Nat) : State :=
  let s := resetConfig s (decide (cause ≠ 5))
  let x := arb s 20
  let s := setArb s 20 { x with granted := x.granted.filter fun b => !b.write }
  if s.wide.isSome then s else resetAll { s with wide := some cause } (List.range 9)

/-- A device-wide reset with a cause of R603. In P1 to P3, or while the device wakes, it waits until the device is awake
(R547, R563); in P4 nothing remains to reset. The second part says whether a wake has to start. -/
def wideStart (s : State) (cause : Nat) : State × Bool :=
  let cur := fld s pwrBase 0 3
  if cur = 4 then (s, false)
  else if cur = 0 then (wideBegin s cause, false)
  else if s.power.reset.isSome then (s, false)
  else ({ s with power := { s.power with reset := some cause } }, !(s.power.waking && fld s pwrBase 4 3 == 0))

/-! ### Starts (R446) -/

/-- An FLR of VF `p` in ACLK cycle `c` (R446): a partition reset that never clears external memory. -/
def execVfFlr (p : Part) (c : Nat) (s : State) : Out :=
  let s := atAclk s c
  if p.val = 0 ∨ fld s (ptStatusOff p) 1 1 = 0 then .next s
  else if partExists s p then .next (resetStart s { part := p, cause := 1, flr := true })
  else .next { s with msix := s.msix.filter fun x => x.1 / 64 != p.val, msixCtl := tabDrop p s.msixCtl }

/-- Resets a list of partitions that lose their functions. -/
def resetLost (s : State) : List Nat → State
  | [] => s
  | p :: ps =>
    resetLost (if partExists s p then resetStart s { part := p, cause := 2, flr := true }
      else { s with msix := s.msix.filter fun x => x.1 / 64 != p, msixCtl := tabDrop p s.msixCtl }) ps

/-- The host writes VF Enable and NumVFs in ACLK cycle `c` (R446, R452): clearing VF Enable resets partitions 1 to 8, and
lowering NumVFs those above it. -/
def execVfEnableChange (en : Bool) (num : Fin 9) (c : Nat) (s : State) : Out :=
  let s := atAclk s c
  let was := fld s (ptBase + 0x2008) 4 1 = 1
  let old := fld s (ptBase + 0x2008) 0 4
  let s := setFld (setFld s (ptBase + 0x2008) 0 4 num) (ptBase + 0x2008) 4 1 (b2n en)
  let s := (List.range 8).foldl (fun s i => setFld s (ptStatusOff (i + 1)) 1 1 (b2n (en && Nat.ble (i + 1) num))) s
  let lost := ((List.range 8).map (· + 1)).filter fun p => decide ((was ∧ en = false) ∨ (was ∧ num.val < p ∧ p ≤ old))
  .next (resetLost s lost)

/-- PART_RESET of mailbox `m` in ACLK cycle `c` (R446, R471): it replies at the release. -/
def execPartReset (m : Mb) (c : Nat) (s : State) : Out :=
  .next (message (atAclk s c) m 0x013 anyWords fun s m w =>
    let p := bits (nth w 1) 0 4
    if 8 < p ∨ !partExists s p then mbReply s m w 0x06 []
    else resetStart (mbBegin s m w) { part := p, cause := 3, clear := bit (nth w 1) 8, mboxes := [m] })

/-! ### Destruction of a partition (R475, R476) -/

/-- PART_DESTROY of mailbox `m` in ACLK cycle `c` (R476): the partition's quads are reset as order 6 of R447 does. -/
def execPartDestroy (m : Mb) (c : Nat) (s : State) : Out :=
  .next (message (atAclk s c) m 0x012 anyWords fun s m w =>
    let p := bits (nth w 1) 0 4
    if p = 0 ∨ 8 < p ∨ !partExists s p then mbReply s m w 0x06 []
    else if partQueues s p ≠ [] ∨ (s.ctxs.any fun x => x.2.valid && x.2.part == p) ∨ (s.model.map (·.part)) = some p
      ∨ (s.loading.map (·.2.part)) = some p then mbReply s m w 0x07 []
    else
      let failed := (partEngs s p).filter (engFailed s)
      let s := resetEngines (mbBegin s m w) (partEngs s p)
      let s := resetQuads s p failed
      { s with resets := s.resets ++ [{ part := p, cause := 0, failed := failed, mboxes := [m], destroy := true,
                                        zeroFrom := aclk s }] })

/-- The granules of partition 0: those below every other partition's and the management range (R475). -/
def regrow (s : State) : State :=
  let tops := ((List.range 8).filter fun i => partExists s (i + 1) && fld s (ptOff (i + 1) 0x08) 16 11 != 0).map fun i =>
    fld s (ptOff (i + 1) 0x08) 0 11
  setFld s (ptOff 0 0x08) 16 11 (tops.foldl min (fld s (ptBase + 0x2004) 0 11))

/-- The partition ceases to exist: its quads return to partition 0, and its granules when nothing lies between
(R475). Its units are tagged M and stop. -/
def destroyPart (s : State) (p : Nat) : State :=
  let qs := fld s (ptOff p 0x04) 0 16
  let s := resetUnits s p
  let s := setFld s (ptOff 0 0x04) 0 16 (Nat.lor (fld s (ptOff 0 0x04) 0 16) qs)
  let s := (List.range 8).foldl (fun s i =>
    wr (wr (wr (wr s (ptOff p (0x40 + 0x20 * i)) 0) (ptOff p (0x44 + 0x20 * i)) 0x8000) (ptOff p (0x48 + 0x20 * i)) 0)
      (ptOff p (0x4C + 0x20 * i)) 0) s
  let s := wr (wr (wr (wr s (ptOff p 0x04) 0) (ptOff p 0x08) 0) (ptOff p 0x0C) 0) (ptOff p 0x14) 0
  let s := (List.range 8).foldl (fun s i => wr s (ptOff p (0x50 + 0x20 * i)) 0) s
  regrow (setFld (setFld s (ptOff p 0x10) 0 11 0) (ptStatusOff p) 0 1 0)

/-- The reset and zeroing of the destroyed partition `p`'s quads have ended by ACLK cycle `c` (R476). -/
def execPartDestroyDone (p : Part) (c : Nat) (s : State) : Out :=
  let s := atAclk s c
  match resetOf s p with
  | none => .next s
  | some r =>
    if r.destroy ∧ zeroed s r ∧ r.zeroFrom + 256 ≤ aclk s then
      let s := releaseEngines s (partEngs s p)
      let s := destroyPart { s with resets := s.resets.filter fun x => x.part != p.val } p
      let s := rebindIdle s 0
      .next (r.mboxes.foldl (fun s m => mbReply s m (((tabFind m s.mboxes).map (·.words)).getD []) 0x00 []) s)
    else .next s

end Sys2Proof.Machine
end

