-- ==== Sys2Proof/Machine/Power.lean ====
section
/-!
DEFINITION. Power states, wake and clocks (R545 to R559, R563), input power and temperature (R560, R561), and the
hot-swap controller (R590 to R593).
-/
namespace Sys2Proof.Machine

/-! ### Registers -/

/-- PWR_STATE.CUR (R564). -/
def pwrCur (s : State) : Nat := fld s pwrBase 0 3

/-- PWR_STATE.TARGET. -/
def pwrTarget (s : State) : Nat := fld s pwrBase 4 3

/-- PWR_STATE.BUSY. -/
def pwrBusy (s : State) : Bool := fld s pwrBase 8 1 == 1

/-- PWR_STATE.STEP. -/
def pwrStep (s : State) : Nat := fld s pwrBase 9 3

/-- Sectors with enabled engines. -/
def liveSectors (s : State) : Nat :=
  ((List.range 4).filter fun k => (List.range 4).any fun j => fld s (qdOff (4 * k + j) 0) 0 4 != 0).foldl
    (fun w k => w + 2 ^ k) 0

/-- Sets the status fields of a transition. -/
def setPwr (s : State) (cur target : Nat) (busy : Bool) (step : Nat) : State :=
  setFld (setFld (setFld (setFld s pwrBase 0 3 cur) pwrBase 4 3 target) pwrBase 8 1 (b2n busy)) pwrBase 9 3 step

/-- ACLK runs from the PLL or from the wake oscillator from now on (R559); its count goes on. -/
def setPll (s : State) (b : Bool) : State :=
  let s := { s with aclkBase := aclk s, aclkFrom := s.now, pll := b }
  let s := setFld s pwrBase 16 1 (b2n b)
  { s with engines := s.engines.map fun (e, x) => (e, { x with clk := b }) }

/-- Every enabled engine runs from a clock source. -/
def setClks (s : State) (b : Bool) : State :=
  (List.range 64).foldl (fun s e => if engClocked s e && bit (fld s (qdOff (e / 4) 0) 0 4) (e % 4) then
    setEng s e { eng s e with clk := b } else s) s

/-- The reply to the message that a transition serves, if there is one. -/
def pwrReply (s : State) (status : Nat) (words : List Nat) : State :=
  match s.power.mbox with
  | none => s
  | some m =>
    let s := { s with power := { s.power with mbox := none } }
    match tabFind m s.mboxes with
    | some x => mbReply s m x.words status words
    | none => s

/-- A state transition has completed (R564). -/
def pwrDone (s : State) : State := bump s (pwrBase + 0x20)

/-! ### Wake (R554 to R558) -/

/-- Timers go on from where they paused (R550). -/
def shiftTimers (s : State) : State :=
  let d := s.now - s.power.pausedAt
  { s with jobs := s.jobs.map fun j => { j with since := j.since + d }
           slots := s.slots.map fun (n, x) => (n, { x with flowFrom := x.flowFrom.map (· + d),
                                                           waitFrom := x.waitFrom.map (· + d) }) }

/-- Every held wait on a resident fence is judged again (R550). -/
def rejudge (s : State) : State := (List.range 48).foldl fenceWake s

/-- Starts a wake from now (R554): every sector that is off or gated starts, from the wake oscillator unless the device
was in P1. -/
def wakeBegin (s : State) (target : Nat) (mbox : Option Nat) : State :=
  let s := if pwrCur s = 1 then s else setPll s false
  let s := setFld (setFld s pwrDomainOff 8 4 (liveSectors s)) pwrDomainOff 12 4 (liveSectors s)
  let s := { s with engines := s.engines.map fun (e, x) => (e, { x with beatAt := aclk s, scrubAt := aclk s }) }
  let s := setPwr s (pwrCur s) target true (if 3 ≤ pwrCur s then 1 else 0)
  { s with power := { s.power with mbox := mbox, takenAt := s.now, stepAt := s.now, waking := true } }

/-- The line-clock unit comes back (R50, R68, R558): ACQUIRING, or LOCKED on the internal source, with a new frame one
higher than the last. -/
def wakeLc (s : State) : State :=
  let lc := { s.lc with powered := true, refAt := none, acqCount := 0, periods := [], edgeAccepted := false,
                        mode := if lcKind s = 3 then .locked else .acquiring }
  lcFrameEdge { s with lc := lc } (wake s) false

/-- Restores ENG_FLC.GROUPS_ON (R113): the groups serve allocations 2,000 cycles later. -/
def restoreFlc (s : State) : State :=
  { s with engines := s.engines.map fun (e, x) =>
      (e, if x.flcOn = 0 ∧ x.flcSaved ≠ 0 then { x with flcTarget := some x.flcSaved, flcSince := aclk s } else x) }

/-- GROUPS_ON of a list of engines reads what was restored. -/
def restoreGroups (s : State) : List Nat → State
  | [] => s
  | e :: es =>
    let s := if (eng s e).flcTarget.isSome then setFld s (engOff e 0x2C) 0 3 (eng s e).flcSaved else s
    restoreGroups s es

/-- Domains of a state that a wake has reached (R545); P0, P1 or P2 or P3 from a lower state. -/
def wakeDomains (s : State) (t : Nat) : State :=
  let sec := liveSectors s
  let s := setFld s pwrDomainOff 8 4 (if t ≤ 1 then sec else 0)
  let s := setFld s pwrDomainOff 12 4 (if t = 0 then sec else 0)
  let on := t ≤ 2
  let s := setFld (setFld (setFld (setFld s pwrDomainOff 0 1 1) pwrDomainOff 1 1 (b2n on)) pwrDomainOff 2 1 (b2n on))
    pwrDomainOff 3 1 (b2n (t = 3))
  let s := setFld s pwrDomainOff 4 1 (b2n on)
  let s := if on then setFld (setFld s pwrDomainOff 16 4 0xF) pwrDomainOff 20 8 0xFF else s
  if on then (List.range 16).foldl (fun s c => setFld s (mcOff c 0) 0 2 1) s else s

/-- The wake ends (R557): the domains of the target, the line clock, the pipes, the slots, the reply, and a device-wide
reset that waited (R547, R563). -/
def wakeEnd (s : State) : State :=
  let cur := pwrCur s
  let t := pwrTarget s
  let s := wakeDomains s t
  let s := if 3 ≤ cur ∧ t ≤ 2 then wakeLc s else s
  let s := if cur = 3 ∧ t ≤ 2 then
      { s with pipes := s.pipes.map fun (p, x) => (p, { x with dark := decide (fgMode s p ≠ 0) }) } else s
  let s := if cur = 4 then
      let s := { s with pipes := s.pipes.map fun (p, x) => (p, { x with fg := none, fgNext := none, safeDue := false }),
                        pcieOut := true }
      (List.range 4).foldl (fun s p => setFld s (cmpOff p 0x300) 0 3 0) s
    else s
  let s := if t = 0 then restoreGroups (restoreFlc s) (List.range 64) else s
  let s := pwrDone (setPwr s t 0 false 0)
  let s := { s with power := { s.power with waking := false } }
  let s := wr s (pwrBase + 0x1C) ((s.now - s.power.takenAt) / 12000)
  let s := if t = 0 then rejudge (shiftTimers s) else s
  let s := pwrReply s 0x00 [t]
  match s.power.reset with
  | some cause => if t = 0 then wideBegin { s with power := { s.power with reset := none } } cause else s
  | none => s

/-- The memory step of the privileged sequence has ended (R555): the stacks have left self-refresh and every controller
is READY. -/
def memoryReady (s : State) : State :=
  (List.range 16).foldl (fun s c => setFld s (mcOff c 0) 0 2 1) (setFld s pwrDomainOff 2 2 1)

/-- Every ready signal of the present step has risen at wake cycle `t` (R555): the next step starts, or the wake ends.
A wake from P1 or P2 has no steps and ends once the engines run. -/
def execWakeStepReady (t : Nat) (s : State) : Out :=
  let s := atWake s t
  if !s.power.waking then .next s
  else if pwrStep s = 0 ∨ pwrStep s = 4 then .next (wakeEnd s)
  else
    let k := pwrStep s + 1
    let s := if k = 4 ∧ pwrTarget s ≤ 2 then memoryReady s else s
    .next { setFld s pwrBase 9 3 k with power := { s.power with stepAt := s.now } }

/-- Typical time of a step of the privileged sequence in µs (R555). -/
def stepTime (k : Nat) : Nat := nth [0, 400, 50, 650, 100] k

/-- Unit `unit` of the present step has not risen its ready signal after 10 times the typical time (R556). -/
def execWakeStepTimeout (unit t : Nat) (s : State) : Out :=
  let s := atWake s t
  let k := pwrStep s
  if !s.power.waking ∨ k = 0 ∨ s.now < s.power.stepAt + 10 * stepTime k * 12000 then .next s
  else
    let s := append s { code := 0x14, kind := 15, eflan := true, detail := [k, unit] }
    let s := setFld s (pwrBase + 0x18) 3 1 1
    let s := setPwr s (pwrCur s) 0 false 0
    let s := { s with power := { s.power with waking := false } }
    .next (pwrReply s 0x0B [pwrCur s, k])

/-! ### Entry (R547 to R553) -/

/-- Whether POWER_STATE with target `t` is refused (R549). -/
def pwrRefused (s : State) (t : Nat) : Bool :=
  let work := (s.jobs.any fun j => j.kind != .wait) || !s.passes.isEmpty || (s.queues.any fun x => x.2.inPass)
    || (runOf s).isSome
  let deep := s.model.isSome || s.loading.isSome || !s.pres.isEmpty
  let off := (List.range 8).any (fun i => partExists s (i + 1)) || fld s (ptBase + 0x2008) 4 1 == 1
    || (s.queues.any fun x => x.2.life != .free) || (s.ctxs.any fun x => x.2.valid)
    || (List.range 4).any fun p => fgMode s p != 0
  (Nat.ble 1 t && work) || (Nat.ble 3 t && deep) || (Nat.ble 4 t && off)

/-- POWER_STATE of mailbox `m` at wake cycle `t` (R548, R549, R554). -/
def execPowerState (m : Mb) (t : Nat) (s : State) : Out :=
  .next (message (atWake s t) m 0x060 anyWords fun s m w =>
    let tgt := min 4 (bits (nth w 1) 0 3)
    let cur := pwrCur s
    if tgt = cur then mbReply s m w 0x00 [cur]
    else if pwrRefused s tgt then mbReply s m w 0x0B [cur]
    else if tgt < cur then wakeBegin (mbBegin s m w) tgt (some m)
    else
      let s := setPwr (mbBegin s m w) cur tgt true 0
      { s with power := { s.power with mbox := some m, takenAt := s.now, stepAt := s.now,
                                       pausedAt := if cur = 0 then s.now else s.power.pausedAt } })

/-- The dirty sectors of a line go to memory at once. -/
def flushSectors (s : State) (e : Nat) (l : FarLine) : List Nat → State
  | [] => s
  | k :: ks =>
    let a := l.tag * 1024 + 64 * k
    let tag := engPart s e
    let s := match writeFault s tag a 64 with
      | some b => violation s tag e b
      | none => devWrite s tag a (l.get (64 * k) 64)
    flushSectors s e l ks

/-- Cleans and powers off the far-line caches of a list of engines (R113). -/
def flushEngines (s : State) : List Nat → State
  | [] => s
  | e :: es =>
    let x := eng s e
    let s := x.lines.foldl (fun s l => flushSectors s e l.2 l.2.dirtySectors) s
    let s := setFld s (engOff e 0x2C) 0 3 0
    let s := setEng s e { eng s e with lines := [], waits := [], acq := (eng s e).acq + 1, flcTarget := none, flcOn := 0 }
    flushEngines s es

/-- P0 to P1 (R551): engine clocks stop. -/
def enterP1 (s : State) : State := setFld s pwrDomainOff 12 4 0

/-- P1 to P2: far-line caches are cleaned and off, sector logic powers off, and the PLL stops. -/
def enterP2 (s : State) : State :=
  let s := flushEngines s (List.range 64)
  setPll (setFld s pwrDomainOff 8 4 0) false

/-- P2 to P3: capture and pipes without Foxglove stop, the line clock's state is saved, the stacks enter self-refresh,
and LC, CORE and the controllers power off; tile memory is lost and semaphores are 0 (R107, R276, R546). -/
def enterP3 (s : State) : State :=
  let fg := ((List.range 4).filter fun p => fgMode s p != 0).foldl (fun w p => w + 2 ^ p) 0
  let s := setFld (setFld s pwrDomainOff 20 8 0) pwrDomainOff 16 4 fg
  let s := setFld (setFld (setFld (setFld s pwrDomainOff 1 1 0) pwrDomainOff 2 1 0) pwrDomainOff 3 1 1) pwrDomainOff 4 1 0
  let s := (List.range 16).foldl (fun s c => setFld s (mcOff c 0) 0 2 2) s
  let s := { s with caps := s.caps.map fun (k, x) => (k, { x with frame := none, due := 0 })
                    lc := { s.lc with powered := false, fsoActive := false, fsoLeft := 0 }
                    reloc := []
                    slots := s.slots.map fun (n, x) => (n, { x with pf := none, pfMiss := none, ahead := none }) }
  zeroSems (blankTiles s (List.range 64)) (List.range 16)

/-- What taking the link down does when PCIE powers off at P4 (R553): 0xC1, the count, VF Enable and the controller's
state. -/
def linkLost (s : State) : State :=
  bumpSat (append s { code := 0xC1, kind := 15, eflan := true }) (ptBase + 0x2018) 0 32

/-- P3 to P4: the reply is written, PCIE powers off, and the stacks lose their contents. -/
def enterP4 (s : State) : State :=
  let s := pwrReply s 0x00 [4]
  let s := (List.range 16).foldl (fun s c => setFld s (mcOff c 0) 0 2 0) s
  let s := resetConfig (linkLost (setFld (setFld s pwrDomainOff 0 1 0) pwrDomainOff 2 2 0)) true
  { s with hbm := s.hbm.blank 0 (2 ^ 47) (s.fresh + 1), fresh := s.fresh + 1, pcieOut := false }

/-- One step of an entry completes at wake cycle `t` (R548, R551). An engine's outstanding stores come first, and a
reset of a partition is let end. -/
def execPowerEntryStep (t : Nat) (s : State) : Out :=
  let s := atWake s t
  let cur := pwrCur s
  if !pwrBusy s ∨ s.power.waking ∨ pwrTarget s ≤ cur ∨ s.resets ≠ [] then .next s
  else if cur = 1 ∧ s.engines.any (fun x => x.2.outstanding != 0) then .next s
  else
    let s := match cur with
      | 0 => enterP1 s
      | 1 => enterP2 s
      | 2 => enterP3 s
      | _ => enterP4 s
    let s := pwrDone (setPwr s (cur + 1) (pwrTarget s) true 0)
    let s := { s with power := { s.power with stepAt := s.now } }
    match s.power.reset with
    | some _ => .next (if cur + 1 < 4 then wakeBegin s 0 s.power.mbox else s)
    | none =>
      if cur + 1 = pwrTarget s then .next (pwrReply (setPwr s (cur + 1) 0 false 0) 0x00 [cur + 1])
      else .next s

/-! ### Clocks (R559) -/

/-- CLOCK_SWITCH to the PLL, mailbox `m`, at wake cycle `t` (R559): the PLL starts. -/
def execClockSwitchPll (m : Mb) (t : Nat) (s : State) : Out :=
  .next (message (atWake s t) m 0x061 (fun w => bit (nth w 1) 0) fun s m w =>
    if !feRuns s then mbReply s m w 0x0B []
    else if s.pll then mbReply s m w 0x00 [1]
    else { mbBegin s m w with power := { s.power with pll := some (m, s.now) } })

/-- The PLL locks at wake cycle `t`, at least 20 µs after it started (R559): every powered engine moves to it, and the
message replies. -/
def execPllLock (t : Nat) (s : State) : Out :=
  let s := atWake s t
  match s.power.pll with
  | none => .next s
  | some (m, t0) =>
    if s.now < t0 + 240000 then .next s
    else
      let s := setClks (setPll { s with power := { s.power with pll := none } } true) true
      match tabFind m s.mboxes with
      | some x => .next (mbReply s m x.words 0x00 [1])
      | none => .next s

/-- CLOCK_SWITCH to the wake oscillator, mailbox `m`, at wake cycle `t` (R473, R559). -/
def execClockSwitchWake (m : Mb) (t : Nat) (s : State) : Out :=
  .next (message (atWake s t) m 0x061 (fun w => !bit (nth w 1) 0) fun s m w =>
    if !feRuns s then mbReply s m w 0x0B []
    else if !s.pll then mbReply s m w 0x00 [0]
    else if (runOf s).isSome then mbReply s m w 0x20 []
    else mbReply (setPll s false) m w 0x00 [0])

/-! ### Input power and temperature (R560, R561) -/

/-- Adds up a list. -/
def sumOf (l : List Nat) : Nat := l.foldl (· + ·) 0

/-- Whether a condition last reported at `last` may be reported again: once in each AVG_WIN (R560). -/
def mayReport (s : State) (last : Option Nat) : Bool :=
  match last with
  | none => true
  | some x => Nat.ble (x + max 1 (fld s (pwrBase + 0x10) 12 8) * 120000000) s.now

/-- Reports a condition of R560: record, PWR_EVENT bit, vector 11. -/
def pwrReport (s : State) (code evt : Nat) : State :=
  raise (setFld (append s { code := code, kind := 15, eflan := true }) (pwrBase + 0x18) evt 1 1) 0 11

/-- Judges the conditions of R560 after a sample, in the order of its table. -/
def judgePower (s : State) (mw : Nat) : State :=
  let sust := fld s (idBase + 0x30) 0 10 * 1000
  let peak := fld s (idBase + 0x30) 10 10 * 1000
  let n := max 1 (fld s (pwrBase + 0x10) 12 8) * 10
  let win := s.power.samples.take n
  let overLim (lim : Nat) : Bool := Nat.blt (lim * win.length) (sumOf win)
  let s := if overLim sust && mayReport s s.power.sustAt then
      pwrReport { s with power := { s.power with sustAt := some s.now } } 0x10 0 else s
  let s := if (Nat.blt peak mw || Nat.blt (fld s (idBase + 0x30) 20 4) s.power.overRun) && mayReport s s.power.peakAt then
      pwrReport { s with power := { s.power with peakAt := some s.now } } 0x11 1 else s
  if overLim (fld s (pwrBase + 0x10) 0 10 * 1000) && mayReport s s.power.warnAt then
    pwrReport { s with power := { s.power with warnAt := some s.now } } 0x12 4
  else s

/-- Eflan samples the 12 V input at wake cycle `t`: `mw` milliwatts at `mv` millivolts (R560). -/
def execPowerSample (t mw mv : Nat) (s : State) : Out :=
  let s := atWake s t
  if !alive s then .next s
  else
    let s := wr s (pwrBase + 0x08) (min 65535 (mw / 100) + min 65535 mv * 2 ^ 16)
    let s := setFld s (pwrBase + 0x24) 0 10 (max (fld s (pwrBase + 0x24) 0 10) (min 1023 (mw / 1000)))
    let sust := fld s (idBase + 0x30) 0 10 * 1000
    let s := { s with power := { s.power with
      samples := (mw :: s.power.samples).take 2550, milliwatts := mw,
      overRun := if sust < mw then s.power.overRun + 1 else 0 } }
    .next (judgePower s mw)

/-- Eflan reads the temperatures at wake cycle `t`, in 0.01 °C (R561). -/
def execTempSample (t : Nat) (die hbm : Int) (s : State) : Out :=
  let s := atWake s t
  if !alive s then .next s
  else
    let s := wr s (pwrBase + 0x0C) (ofSigned 16 die + ofSigned 16 hbm * 2 ^ 16)
    let warn : Int := toSigned 16 (fld s (pwrBase + 0x14) 0 16)
    if warn ≤ die ∧ !s.power.hot then
      .next (pwrReport { s with power := { s.power with hot := true } } 0x13 2)
    else if die ≤ warn - 500 then .next { s with power := { s.power with hot := false } }
    else .next s

/-! ### The hot-swap controller (R590 to R593) -/

/-- The device in Off (R591): every domain is unpowered. Module flash, the Foxglove key and counter that it holds, and
the host's memory remain; the memories of the device lose their contents. -/
def powerOff (s : State) : State :=
  let r : State := { pending := s.pending, now := s.now, fresh := s.fresh + 1, flash := s.flash, foxKey := s.foxKey,
                     foxCount := s.foxCount, sent := s.sent, host := s.host, perst := s.perst, rdata := s.rdata,
                     rstat := s.rstat, wire := s.wire }
  let r := { r with hbm := s.hbm.blank 0 (2 ^ 47) r.fresh, tile := s.tile.blank 0 (2 ^ 28) r.fresh
                    lc := { r.lc with powered := false }
                    hotSwap := { s.hotSwap with closed := false, good := false }
                    peony := { romDue := false, tripped := s.peony.tripped } }
  wr r pwrDomainOff 0

/-- The switch opens, with a fault latched or not (R591, R592). -/
def openSwitch (s : State) (latch thermal : Bool) : State :=
  let h := s.hotSwap
  let h := { h with latched := h.latched || latch, thermal := h.thermal || thermal,
                    faultAt := if latch then s.now else h.faultAt }
  let s := { s with hotSwap := h }
  if h.closed then powerOff s else s

/-- PRSNT2# changes at wake cycle `t` (R590, R591). -/
def execPrsnt2Change (low : Bool) (t : Nat) (s : State) : Out :=
  let s := atWake s t
  if s.hotSwap.prsnt2Low = low then .next s
  else
    let s := { s with hotSwap := { s.hotSwap with prsnt2Low := low, prsnt2Since := s.now } }
    .next (if low then s else openSwitch s false false)

/-- PWRDIS changes at wake cycle `t` (R590, R591). -/
def execPwrdisChange (high : Bool) (t : Nat) (s : State) : Out :=
  let s := atWake s t
  if s.hotSwap.pwrdis = high then .next s
  else
    let s := { s with hotSwap := { s.hotSwap with pwrdis := high, pwrdisSince := s.now } }
    .next (if high then openSwitch s false false else s)

/-- The 12 V input reads `mv` at wake cycle `t` (R590 to R592): below 10.2 V the switch opens and a latched fault clears,
but for a thermal trip's; above 14.0 V it opens and latches. -/
def execInputVoltageChange (mv t : Nat) (s : State) : Out :=
  let s := atWake s t
  let h := s.hotSwap
  let h := { h with vin := mv, vinSince := if mv < 10800 ∨ h.vin < 10800 then s.now else h.vinSince }
  let h := if mv < 10200 ∧ !h.thermal then { h with latched := false } else h
  let s := { s with hotSwap := h }
  .next (if mv < 10200 then openSwitch s false false else if 14000 < mv then openSwitch s true false else s)

/-- Input current of `ma` mA for `us` µs, at `mv` mV, seen at wake cycle `t` (R591). -/
def execOvercurrent (ma us mv t : Nat) (s : State) : Out :=
  let s := atWake s t
  if s.hotSwap.closed ∧ (50000 < ma ∨ (36000 < ma ∧ 12000 ≤ us) ∨ 14000 < mv) then .next (openSwitch s true false)
  else .next s

/-- The die reads `die` or a stack `hbm`, in 0.01 °C, at wake cycle `t` (R561): from 115 °C and 105 °C the power sequencer
opens the switch, and flash records the trip. -/
def execThermalTrip (t : Nat) (die hbm : Int) (s : State) : Out :=
  let s := atWake s t
  if s.hotSwap.good ∧ (11500 ≤ die ∨ 10500 ≤ hbm) then
    .next (openSwitch { s with peony := { s.peony with tripped := true } } true true)
  else .next s

/-- PWRDIS held high for 10 ms, or 12 V gone, clears a latched fault at wake cycle `t`; a thermal trip's only when the
controller's sensor is cool (R592, R593). -/
def execFaultLatchClear (t : Nat) (cool : Bool) (s : State) : Out :=
  let s := atWake s t
  let h := s.hotSwap
  let held := h.pwrdis ∧ max h.pwrdisSince h.faultAt + 120000000 ≤ s.now
  if h.latched ∧ (held ∨ h.vin < 10200) ∧ (!h.thermal ∨ cool) then
    .next { s with hotSwap := { h with latched := false, thermal := false } }
  else .next s

/-- Every condition of R590 has held for its time at wake cycle `t`: the switch closes and the ramp begins. -/
def execHotSwapClose (t : Nat) (s : State) : Out :=
  let s := atWake s t
  let h := s.hotSwap
  if !h.closed ∧ !h.latched ∧ 10800 ≤ h.vin ∧ h.vinSince + 20 * msUnits ≤ s.now ∧ h.prsnt2Low
      ∧ h.prsnt2Since + 50 * msUnits ≤ s.now ∧ !h.pwrdis ∧ h.pwrdisSince + msUnits ≤ s.now then
    .next { s with hotSwap := { h with closed := true, closedAt := s.now } }
  else .next s

/-- The output has ramped for 12 ms and is good at wake cycle `t` (R590): power-on reset, in which time counts from 0, and
Peony leaves reset 5 ms later. -/
def execPowerGood (t : Nat) (s : State) : Out :=
  let s := atWake s t
  let h := s.hotSwap
  if !h.closed ∨ h.good ∨ s.now < h.closedAt + 12 * msUnits then .next s
  else
    .next { pending := s.pending, fresh := s.fresh, flash := s.flash, foxKey := s.foxKey, foxCount := s.foxCount,
            sent := s.sent, host := s.host, perst := s.perst, hbm := s.hbm, tile := s.tile, rdata := s.rdata,
            rstat := s.rstat, wire := s.wire
            hotSwap := { h with good := true, vinSince := 0, prsnt2Since := 0, pwrdisSince := 0, closedAt := 0, faultAt := 0 }
            peony := { dueAt := 5 * msUnits, tripped := s.peony.tripped } }

end Sys2Proof.Machine
end

