-- ==== Sys2Proof/Machine/HostLink.lean ====
section
/-!
DEFINITION. The host link: MW2, reads of host memory, MSI-X messages, the link's own events, and Eflan's scan of doorbell
pages (R42, R374, R391, R418, R431 to R433, R438, R444, R445, R449, R450).
-/
namespace Sys2Proof.Machine

/-! ### Slots (R374, R391) -/

/-- What Eflan may unload slot `n` for, in the order of R374: 1 an empty ring and no job, 2 a held wait, 3 a queue whose
only job is spilled. A queue with a job running, inside a pass or with an active run is never unloaded. -/
def unloadClass (s : State) (n : Nat) : Option Nat :=
  let sl := slotOf s n
  let q := sl.queue
  let js := jobsOf s q
  if !sl.valid ∨ (que s q).inPass ∨ (que s q).life ≠ .slotted ∨ ((runOf s).map (·.queue)) = some q then none
  else if js = [] ∧ sl.rptr = sl.wptr ∧ !sl.inEntry ∧ (sl.mode = .idle ∨ sl.mode = .halted) then some 1
  else if sl.mode = .held ∧ (sl.hold = 1 ∨ sl.hold = 2) ∧ js.all (fun j => j.kind == .wait) then some 2
  else if js.length = 1 ∧ js.all (fun j => s.pres.any fun p => p.key == j.key && p.phase == .spilled) then some 3
  else none

/-- The slot that Eflan unloads, least recently fetched first. -/
def unloadChoice (s : State) : Option Nat :=
  let cs := (List.range 64).filterMap fun n => (unloadClass s n).map fun k => (k, (slotOf s n).fetchedAt, n)
  (cs.foldl (fun (m : Option (Nat × Nat × Nat)) c => match m with
    | some d => if c.1 < d.1 ∨ (c.1 = d.1 ∧ c.2.1 < d.2.1) then some c else m
    | none => some c) none).map fun c => c.2.2

/-- The fence and value that slot `n` waits for. -/
def slotWait (s : State) (n : Nat) : Option (Nat × Nat) :=
  match s.fslots.findSome? fun x => (x.2.waiters.find? fun w => w.1 == n).map fun w => (x.2.addr, w.2) with
  | some r => some r
  | none => ((s.fwaiting ++ s.pageIns).find? fun p => p.slot == n).map fun p => (p.addr, p.value)

/-- Slot `n`'s state goes to SAVE and its WPTR back to the page (R374, R391). A queue with work left stays recorded as
rung, so that a later scan loads it again. -/
def unloadSlot (s : State) (n : Nat) : State :=
  let sl := slotOf s n
  let q := sl.queue
  let left := sl.rung || sl.rptr != sl.wptr || sl.inEntry || sl.mode == .held || !(jobsOf s q).isEmpty
  let s := setQue s q { que s q with life := .created, slot := none, rptr := sl.rptr, pageWptr := sl.wptr, pageRung := left,
                                     saved := some { sl with waitAt := slotWait s n } }
  fenceForget (setSlot s n {}) n

/-- A held wait is taken up again (R374): a fence wait reads its fence anew, a poll is issued anew. -/
def retakeWait (s : State) (n : Nat) : State :=
  let sl := slotOf s n
  match sl.mode, sl.waitAt with
  | .held, some (a, v) =>
    let s := setSlot s n { sl with waitAt := none }
    (match fenceSlotOf s a with
     | some k => waitResident s k n v
     | none => { s with pageIns := s.pageIns ++ [{ slot := n, addr := a, value := v, part := (que s sl.queue).part }] })
  | _, _ => setSlot s n { sl with spin := sl.spin.map fun x => { x with issued := aclk s }, waitAt := none }

/-- Queue `q` is loaded into slot `n` (R374, R391): the slot takes its WPTR from the page and RUNG is set. -/
def loadSlot (s : State) (q n : Nat) : State :=
  let x := que s q
  let base := x.saved.getD { ctx := some x.ctx }
  let s := setQue s q { x with life := .slotted, slot := some n, saved := none, pageRung := false }
  retakeWait (setSlot s n { base with valid := true, queue := q, wptr := x.pageWptr, rptr := x.rptr, rung := true }) n

/-- Loads a list of queues, unloading a slot for each when none is free. -/
def loadQueues (s : State) : List Nat → State
  | [] => s
  | q :: qs =>
    match (List.range 64).find? fun n => !(slotOf s n).valid with
    | some n => loadQueues (loadSlot s q n) qs
    | none =>
      match unloadChoice s with
      | some n => loadQueues (loadSlot (unloadSlot s n) q n) qs
      | none => s

/-- Serves the posted requests of a list of slots (R418). -/
def serveAll (s : State) : List Nat → State
  | [] => s
  | n :: ns => serveAll (serveRequest s n) ns

/-- Rebinds the logical positions of a list of partitions (R252). -/
def rebindAll (s : State) : List Nat → State
  | [] => s
  | p :: ps => rebindAll (rebindIdle s p) ps

/-- Eflan's scan at wake cycle `t` (R42, R374, R418): rung queues without a slot are loaded in queue order, posted table
requests are served, failed positions are rebound (R252) and spilled jobs are restored where they may be (R265). -/
def execEflanScan (t : Nat) (s : State) : Out :=
  let s := atWake s t
  if !alive s ∨ !feRuns s then .next s
  else
    let rung := (s.queues.filter fun x => x.2.life == .created && x.2.pageRung && ptStage s x.2.part == 0).map (·.1)
    let s := loadQueues s rung
    let s := resumeTableWaits (serveAll s (List.range 64))
    .next (restoreScan (rebindAll s (List.range 9)))

/-! ### MW2 (R438, R442, R552) -/

/-- The device address of MW2 offset `x` of partition `p` (R438). -/
def mw2Addr (s : State) (p x : Nat) : Nat := hbmLo s p + fld s (ptOff p 0x10) 0 11 * granule + x

/-- Whether function `p` serves `n` bytes at MW2 offset `x` (R435, R442, R552). -/
def mw2On (s : State) (p x n : Nat) : Bool :=
  fnOn s p && Nat.ble (x + n) (2 ^ 20 * 2 ^ fld s (ptOff p 0x10) 16 5) && fld s (mcOff 0 0) 0 2 == 1

/-- Logs 0x90 for each burst of a list that lies outside the ranges (R438). -/
def mw2Violations (s : State) (p : Nat) : List (Nat × Nat) → State
  | [] => s
  | b :: r => mw2Violations (violation s p 85 b.1) p r

/-- A read that no completion with data answers: 1 Unsupported Request, 2 Completer Abort. -/
def readRefused (s : State) (status : Nat) : State := { s with rdata := [], rstat := status }

/-- A host read of `n` bytes at MW2 offset `x` of function `fn` (R438): `ecc` is what the word at byte `pos` of it shows. -/
def execMw2Read (fn : Part) (x n pos : Nat) (ecc : Ecc) (s : State) : Out :=
  let n := clampTo 1 4096 n
  if !mw2On s fn x n then .next (readRefused s 1)
  else
    let a := mw2Addr s fn x
    let bad := (burstsOf a n).filter fun b => !inRange s fn b.1 b.2
    if bad ≠ [] then .next (readRefused (mw2Violations s fn bad) 1)
    else
      let s := if pos < n then mcEcc s (a + pos) ecc else s
      if pos < n ∧ ecc = .uncorrectable then
        .next (readRefused (append s { code := 0x92, tag := fn, kind := 14, detail := two (a + pos) }) 2)
      else .next (reply s (bytesWords (devBytes s fn a n)))

/-- Writes the bursts of a list that pass their check, but for the uncorrectable word at `bad`. -/
def mw2Put (s : State) (p base : Nat) (data : List Byte) (bad : Option Nat) : List (Nat × Nat) → State
  | [] => s
  | (a, n) :: r =>
    let s := if !writable s p a n then violation s p 85 a
      else
        let d := (data.drop (a - base)).take n
        match bad with
        | some w =>
          if a ≤ w ∧ w < a + n then
            let lo := max a (w / 8 * 8)
            let hi := min (a + n) (w / 8 * 8 + 8)
            putBurst (putBurst s p a (d.take (lo - a))) p hi (d.drop (hi - a))
          else putBurst s p a d
        | none => putBurst s p a d
    mw2Put s p base data bad r

/-- A host write at MW2 offset `x` of function `fn` (R433, R438): a poisoned one is dropped whole with 0xC3; failing bursts
are dropped; `ecc` is what the partly covered word at byte `pos` of it shows. -/
def execMw2Write (fn : Part) (x : Nat) (data : List Byte) (poisoned : Bool) (pos : Nat) (ecc : Ecc) (s : State) : Out :=
  if poisoned then .next (append s { code := 0xC3, tag := fn, kind := 14 })
  else if !mw2On s fn x data.length then .next s
  else
    let a := mw2Addr s fn x
    let n := data.length
    let w := (a + pos) / 8 * 8
    let seen := decide (pos < n) && (Nat.blt w a || Nat.blt (a + n) (w + 8))
    let s := if seen then mcEcc s (a + pos) ecc else s
    .next (mw2Put s fn a data (if seen ∧ ecc = .uncorrectable then some (a + pos) else none) (burstsOf a n))

/-- A received AtomicOp completes with Unsupported Request (R432). -/
def execAtomicOpReceived (_fn : Part) (s : State) : Out := .next (readRefused s 1)

/-! ### Reads of host memory (R433) -/

/-- Stores what a completion brought as the contents of host memory at a device address of a tag. -/
def hostPut (s : State) (tag a : Nat) (data : List Byte) : State :=
  match (if isHost a then hostAddr s tag a else none) with
  | some h => { s with host := s.host.writeBytes h (data.take 256) }
  | none => s

/-- The first burst of engine `e` that waits for host memory. -/
def hostReadOf (e : Nat) : List Burst → Option (Burst × List Burst)
  | [] => none
  | b :: r => if b.req = e then some (b, r) else (hostReadOf e r).map fun (x, l) => (x, b :: l)

/-- A burst read from host memory ends for engine `e`: with its data, or with 0xC4 (R433). A masked engine's is discarded
(R324). -/
def hostEngine (s : State) (e : Nat) (ok : Bool) (data : List Byte) : State :=
  match hostReadOf e s.hostReads with
  | none => s
  | some (b, rest) =>
    let s := { s with hostReads := rest }
    let s := if ok then hostPut s b.tag b.addr data else s
    if masked s e then s
    else
      let who := whoWave s e (((eng s e).waits.find? fun w => w.addr / 256 == b.addr / 256).elim 32 (·.wave))
      let s := if ok then s else append s { code := 0xC4, tag := b.tag, kind := 14, queue := who.queue, owner := who.owner }
      { s with arrived := s.arrived ++ [{ burst := b, data := if ok then devBytes s b.tag b.addr b.len else [],
                                          err := if ok then 0 else 0xC4 }] }

/-- A read by copy channel `k` ends; an error ends its job with 0xC4. -/
def hostCopy (s : State) (k a : Nat) (ok : Bool) (data : List Byte) : State :=
  match s.copies.find? fun c => c.chan == some k with
  | none => s
  | some c =>
    match jobOf s c.key with
    | none => s
    | some j =>
      if ok then hostPut s j.part a data
      else endJob (jobRecord { s with copies := s.copies.filter fun x => x.key != c.key } j.queue 0xC4 14 0 []) c.key 0xC4

/-- A read by compression engine `k` ends; an error ends its job (R357), or loses the data of a restore (R267). -/
def hostCompress (s : State) (k a : Nat) (ok : Bool) (data : List Byte) : State :=
  let x := cxOf s k
  match x.xfer with
  | some t =>
    if ok then hostPut s t.part a data
    else if t.restore then restoreScan (xferOver (restoreDone s t.key t.eng true) k)
    else s
  | none =>
    match x.run with
    | none => s
    | some r =>
      if ok then hostPut s r.part a data
      else if r.status.isSome then s
      else setCx s k { x with run := some (r.fail 0xC4), mid := false }

/-- A fetch by slot `n` ends; an error faults its queue. -/
def hostSlot (s : State) (n a : Nat) (ok : Bool) (data : List Byte) : State :=
  let sl := slotOf s n
  if !sl.valid then s
  else if ok then hostPut s (que s sl.queue).part a data
  else if sl.mode = .fetching then queueFault s n 0xC4 0 else s

/-- The read of a fence for slot `n`'s wait ends; an error ends the waits with it (R573). -/
def hostFence (s : State) (n : Nat) (ok : Bool) (data : List Byte) : State :=
  match s.pageIns.find? fun p => p.slot == n with
  | none => s
  | some p =>
    if !isHost p.addr then s
    else if ok then hostPut s p.part p.addr (data.take 8)
    else
      let s := { s with pageIns := s.pageIns.filter fun x => x != p }
      match p.into with
      | none => waitFault s n 0xC4 0x08
      | some k =>
        let ws := (fslot s k).waiters.map (·.1)
        let s := ws.foldl (fun s m => waitFault s m 0xC4 0x08) (setFslot s k {})
        fenceSettle s s.fwaiting.length

/-- A read of host memory ends for whoever made it. `a` is the device address of the burst. -/
def hostReadEnds (s : State) (r : HostReq) (a : Nat) (ok : Bool) (data : List Byte) : State :=
  match r with
  | .engine e => hostEngine s e ok data
  | .copy k => hostCopy s k a ok data
  | .compress k => hostCompress s k a ok data
  | .slot n => hostSlot s n a ok data
  | .fence n => hostFence s n ok data

/-- The completions of a burst read from host memory have arrived in ACLK cycle `c` (R433): with data, or any of them
with Unsupported Request, Completer Abort or poison, and then the burst returns nothing. -/
def execHostReadCompletion (r : HostReq) (a : Nat) (cpl : HostCpl) (data : List Byte) (c : Nat) (s : State) : Out :=
  .next (hostReadEnds (atAclk s c) r a (cpl == .data) data)

/-- A completion of a burst read from host memory times out in ACLK cycle `c` (R433). -/
def execHostReadTimeout (r : HostReq) (a : Nat) (c : Nat) (s : State) : Out :=
  .next (hostReadEnds (atAclk s c) r a false [])

/-! ### MSI-X (R445) -/

/-- Whether the link is in L0 or L1 (PT_LINK.UP). -/
def linkUp (s : State) : Bool := fld s (ptBase + 0x2000) 12 1 == 1

/-- The merged events of vector `v` of function `fn` send one message in ACLK cycle `c`, at most one in 2,000 cycles
(R445); a vector masked meanwhile sets its pending bit instead. -/
def execMsixSend (fn : Part) (v : Fin 64) (c : Nat) (s : State) : Out :=
  let s := atAclk s c
  let x := vec s fn v
  if !x.due then .next s
  else if !vecOpen s fn v then .next (setVec s fn v { x with due := false, pend := true })
  else if !linkUp s ∨ aclk s < (x.lastSent.elim 0 (· + 2000)) then .next s
  else
    let s := setVec s fn v { x with due := false, lastSent := some (aclk s) }
    .next { s with sent := .msix fn v x.addr x.data :: s.sent }

/-- Vectors of function `p` in a list that are open and pending wait for one message each. -/
def releasePend (s : State) (p : Nat) : List Nat → State
  | [] => s
  | v :: vs =>
    let x := vec s p v
    releasePend (if vecOpen s p v ∧ x.pend then setVec s p v { x with pend := false, due := true } else s) p vs

/-- The host writes MSI-X Enable and Function Mask in function `fn`'s configuration space, and clears the mask bit of
vector `v` in its MW0 if one is given (R437, R445): each vector that is then open and has its pending bit set sends one
message. -/
def execMsixUnmask (fn : Part) (v : Option (Fin 64)) (en fm : Bool) (s : State) : Out :=
  if fld s pwrDomainOff 0 1 = 0 ∨ fld s (ptStatusOff fn) 1 1 = 0 then .next s
  else
    let s := { s with msixCtl := tabPut (fun _ => {}) fn.val { enable := en, fmask := fm } s.msixCtl }
    let s := match v with
      | some v => if mw0On s fn then setVec s fn v { vec s fn v with masked := false } else s
      | none => s
    .next (releasePend s fn (List.range 64))

/-! ### The link (R431, R449, R450) -/

/-- A device-wide reset starts, with the wake that it needs (R547, R449). -/
def wideReset (s : State) (cause : Nat) : State :=
  let r := wideStart s cause
  if r.2 then wakeBegin r.1 0 r.1.power.mbox else r.1

/-- An FLR of the PF in ACLK cycle `c` starts a device-wide reset (R449). -/
def execPfFlr (c : Nat) (s : State) : Out := .next (wideReset (atAclk s c) 1)

/-- A hot reset in ACLK cycle `c` starts a device-wide reset (R449). -/
def execHotReset (c : Nat) (s : State) : Out := .next (wideReset (atAclk s c) 2)

/-- PERST# is asserted in ACLK cycle `c` (R449): a device-wide reset, and the PCIe controller is held in reset. -/
def execPerstAssert (c : Nat) (s : State) : Out :=
  let s := atAclk s c
  if s.perst then .next s else .next (wideReset { s with perst := true } 3)

/-- PERST# is released (R449): the link may train. -/
def execPerstRelease (s : State) : Out := .next { s with perst := false }

/-- The link leaves L0 for Detect in ACLK cycle `c` (R449): 0xC1, its count, and a device-wide reset. -/
def execLinkDown (c : Nat) (s : State) : Out :=
  let s := atAclk s c
  if linkUp s then .next (wideReset (linkLost s) 4) else .next s

/-- The link reaches L0 (R431, R450, R452): PT_LINK shows it, at a speed of 1 to 5 and a width of 1, 2, 4, 8 or 16 (its
base-2 logarithm is `lanes`). -/
def execPcieLinkUp (speed : Fin 5) (lanes : Fin 5) (s : State) : Out :=
  if s.perst ∨ !s.pcieOut ∨ fld s pwrDomainOff 0 1 = 0 then .next s
  else .next (wr s (ptBase + 0x2000) (speed + 1 + 2 ^ lanes.val * 2 ^ 4 + 2 ^ 12))

end Sys2Proof.Machine
end

