-- ==== Sys2Proof/Machine/Boot.lean ====
section
/-!
DEFINITION. Module flash, the boot ROM, Eflan's start and restart, identity, attestation and updates (R483 to R505,
R561, R574, R582).
-/
namespace Sys2Proof.Machine

/-! ### Objects in flash (R485 to R489, R496) -/

/-- The `n`-byte little-endian field at byte `i` of an object. -/
def fieldAt (d : List Byte) (i n : Nat) : Nat := leNat ((d.drop i).take n)

/-- Flash offset of record copy `k`. -/
def recordAt (k : Nat) : Nat := 0x1000 * k

/-- Flash offset of image slot `k`. -/
def slotAt (k : Nat) : Nat := 0x100000 + 0x200000 * k

/-- The 256 bytes of record copy `k`. -/
def recordOf (s : State) (k : Nat) : List Byte := s.flash.readBytes (recordAt k) 256

/-- The die certificate (R496). -/
def certOf (s : State) : List Byte := s.flash.readBytes 0x2000 194

/-- Whether a Tarwen signature of 114 bytes verifies over the digest of covered bytes (R483). -/
def sigOk (key covered sig : List Byte) : Bool := Config.ed448Ok key (Config.shake covered) sig

/-- MAGIC, FORMAT, TARGET, MGMT_SIZE and the signature of a record (R487, R488): what the boot ROM checks. -/
def recordRom (d : List Byte) : Bool :=
  fieldAt d 0 4 == 0x47464E43 && fieldAt d 4 2 == 1 && fieldAt d 12 4 == 0x4860
    && sigOk Config.firmwareKey (d.take 128) ((d.drop 128).take 114)
    && Nat.ble 4 (fieldAt d 33 1) && Nat.ble (fieldAt d 33 1) 16

/-- Whether a record's die fields are those of the certificate (R488). -/
def recordDie (d cert : List Byte) : Bool :=
  bits (fieldAt d 16 4) 0 29 == bits (fieldAt cert 8 4) 0 29 && fieldAt d 20 2 == fieldAt cert 12 2

/-- Whether an image header is right, whatever its SVN (R490). -/
def headerOk (h : List Byte) : Bool :=
  fieldAt h 0 4 == 0x4E414C45 && fieldAt h 4 2 == 1 && fieldAt h 12 4 == 0x4860
    && Nat.ble 1 (fieldAt h 16 4) && Nat.ble (fieldAt h 16 4) 2096896

/-- The 256-byte header of slot `k`. -/
def headerOf (s : State) (k : Nat) : List Byte := s.flash.readBytes (slotAt k) 256

/-- What the signature of slot `k`'s image covers: header bytes 0 to 19 and the body (R486). -/
def imageCovered (s : State) (k : Nat) : List Byte :=
  let h := headerOf s k
  h.take 20 ++ s.flash.readBytes (slotAt k + 256) (min 2096896 (fieldAt h 16 4))

/-- Whether slot `k`'s signature verifies. -/
def imageOk (s : State) (k : Nat) : Bool :=
  sigOk Config.firmwareKey (imageCovered s k) ((headerOf s k).drop 20 |>.take 114)

/-- SVN of an image header. -/
def svnOf (h : List Byte) : Nat := fieldAt h 6 2

/-- VERSION of an image header. -/
def verOf (h : List Byte) : Nat := fieldAt h 8 4

/-- Whether slot `a`, with SVN and VERSION, orders ahead of slot `b` (R490 step 2). -/
def aheadOf (a : Nat) (x : Nat × Nat) (b : Nat) (y : Nat × Nat) : Bool :=
  Nat.blt y.1 x.1 || (x.1 == y.1 && (Nat.blt y.2 x.2 || (x.2 == y.2 && Nat.blt a b)))

/-! ### The boot ROM (R490, R491) -/

/-- Offset of ID_BOOT. -/
def idBootOff : Nat := idBase

/-- Offset of ID_STATUS. -/
def idStatusOff : Nat := idBase + 4

/-- The record copy in use (ID_BOOT.CFG_COPY). -/
def cfgCopy (s : State) : Nat := fld s idBootOff 1 1

/-- The image slot running (ID_BOOT.SLOT). -/
def bootSlot (s : State) : Nat := fld s idBootOff 0 1

/-- Whether Eflan runs an image (ID_BOOT.STAGE 0b10). -/
def eflanRuns (s : State) : Bool := fld s idBootOff 2 2 == 2

/-- The ROM stops with a code and serves MB0 (R490, R491). -/
def romStop (s : State) (code : Nat) (bad : List (Nat × Nat)) : State :=
  let s := setFld (setFld s idBootOff 2 2 1) idBootOff 8 8 code
  { s with peony := { s.peony with romDue := false, bad := bad } }

/-- Record copies in the order in which the ROM verifies them (R490 step 1). -/
def recordOrder (s : State) : List Nat :=
  if fieldAt (recordOf s 0) 8 4 < fieldAt (recordOf s 1) 8 4 then [1, 0] else [0, 1]

/-- Candidate slots in order (R490 step 2). -/
def candidates (s : State) (minSvn : Nat) : List Nat :=
  let ok (k : Nat) : Bool := headerOk (headerOf s k) && Nat.ble minSvn (svnOf (headerOf s k))
  let id (k : Nat) : Nat × Nat := (svnOf (headerOf s k), verOf (headerOf s k))
  (if aheadOf 1 (id 1) 0 (id 0) then [1, 0] else [0, 1]).filter ok

/-- The first element of a list that passes, with those before it. -/
def firstGood (f : Nat → Bool) : List Nat → Option Nat × List Nat
  | [] => (none, [])
  | k :: ks => if f k then (some k, []) else ((firstGood f ks).1, k :: (firstGood f ks).2)

/-- The boot ROM verifies a record and an image at wake cycle `t` (R490); `flashErr`: a flash read failed. -/
def execBootRomStart (t : Nat) (flashErr : Bool) (s : State) : Out :=
  let s := atWake s t
  if !s.peony.romDue ∨ s.now < s.peony.dueAt ∨ !s.hotSwap.good then .next s
  else
    let s := wr s (idBase + 0x2C) (Config.romVersion % 2 ^ 32)
    if flashErr then .next (romStop s 4 [])
    else
      let r := firstGood (fun k => recordRom (recordOf s k)) (recordOrder s)
      let bad := r.2.map fun k => (2, k)
      match r.1 with
      | none => .next (romStop s 1 bad)
      | some c =>
        let s := setFld s idBootOff 1 1 c
        let minSvn := fieldAt (recordOf s c) 34 2
        let cs := candidates s minSvn
        let i := firstGood (imageOk s) cs
        let bad := bad ++ i.2.map fun k => (3, k)
        match i.1 with
        | none => .next (romStop s (if cs = [] then 3 else 2) bad)
        | some k =>
          let s := setFld (setFld s idBootOff 0 1 k) idBootOff 8 8 0
          .next { s with peony := { s.peony with romDue := false, eflanDue := true, bad := bad, minSvn := minSvn,
                                                 fwDigest := Config.shake (imageCovered s k),
                                                 cfgDigest := Config.shake (recordOf s c) } }

/-! ### Eflan's start (R466, R488, R489, R492 to R497, R560, R561) -/

/-- The configuration in force (R487, R497). -/
structure BootCfg where
  engines : Nat
  variant : Nat
  mgmt : Nat
  sust : Nat
  peak : Nat
  peakMs : Nat

/-- The configuration of a record, its limits capped at the module's rating, or the fallback of R497. -/
def bootCfg (d : List Byte) (ok : Bool) : BootCfg :=
  if ok then
    { engines := fieldAt d 24 8, variant := fieldAt d 32 1 % 2, mgmt := fieldAt d 33 1,
      sust := min 300 (fieldAt d 36 2), peak := min 390 (fieldAt d 38 2), peakMs := min 10 (fieldAt d 40 1) }
  else { engines := 0, variant := 0, mgmt := 4, sust := 300, peak := 390, peakMs := 10 }

/-- Loads the die fields into ENG_ID of a list of engines (R120, R497). -/
def loadEngIds (s : State) (die xy : Nat) : List Nat → State
  | [] => s
  | e :: es =>
    let s := setFld (setFld s (engOff e 0) 0 29 die) (engOff e 4) 0 16 xy
    loadEngIds (setFld s (engOff e 4) 31 1 1) die xy es

/-- Sets the enables of a list of quads; disabled engines are held in reset (R489). -/
def enableQuads (s : State) (engines : Nat) : List Nat → State
  | [] => s
  | q :: qs =>
    let m := bits engines (4 * q) 4
    let s := setFld (setFld (setFld s (qdOff q 0) 0 4 m) (qdOff q 0) 4 4 0) (qdOff q 0) 8 4 m
    let s := (List.range 4).foldl (fun s k => setEng s (4 * q + k) { eng s (4 * q + k) with inReset := !bit m k }) s
    enableQuads s engines qs

/-- Configures the device after power-on: enables, capacity, the management range and partition 0 (R442, R443, R489). -/
def configure (s : State) (c : BootCfg) : State :=
  let s := rebindQuads (enableQuads s c.engines (List.range 16)) (List.range 16)
  let s := (List.range 16).foldl (fun s k => setFld (setFld s (mcOff k 0) 4 1 c.variant) (mcOff k 0) 0 1 1) s
  let base := (if c.variant = 1 then 1152 else 768) - c.mgmt
  let s := wr s (ptBase + 0x2004) (base + c.mgmt * 2 ^ 16)
  let quads := ((List.range 16).filter fun q => bits c.engines (4 * q) 4 != 0).foldl (fun w q => w + 2 ^ q) 0
  let s := setFld (setFld s (ptOff 0 0x04) 0 16 quads) (ptOff 0 0x08) 16 11 base
  setFld (setFld s pwrDomainOff 8 4 (liveSectors s)) pwrDomainOff 12 4 (liveSectors s)

/-- Loads the ID registers (R505). -/
def loadId (s : State) (c : BootCfg) (d : List Byte) : State :=
  let h := headerOf s (bootSlot s)
  let s := wr s (idBase + 0x14) (verOf h)
  let s := wr s (idBase + 0x18) (svnOf h + fieldAt d 34 2 * 2 ^ 16)
  let s := wr s (idBase + 0x1C) (fieldAt d 8 4)
  let s := wr s (idBase + 0x20) (c.variant + c.mgmt * 2 ^ 8)
  let s := wr (wr s (idBase + 0x24) (c.engines % 2 ^ 32)) (idBase + 0x28) (c.engines / 2 ^ 32)
  wr s (idBase + 0x30) (c.sust + c.peak * 2 ^ 10 + c.peakMs * 2 ^ 20)

/-- Answers a list of taken mailboxes with RESTARTED (R466). -/
def restartReplies (s : State) : List (Nat × Mbox) → State
  | [] => s
  | (m, x) :: r => restartReplies (mbReply s m x.words 0x0D []) r

/-- What a restart leaves unanswered is answered, and nothing replies later (R466). -/
def restartMail (s : State) : State :=
  let s := restartReplies s s.mboxes
  { s with mbOrder := [], loading := none, power := { s.power with mbox := none, pll := none },
           resets := s.resets.map fun r => { r with mboxes := [] },
           queues := s.queues.map fun (q, x) => (q, { x with tdMbox := none }) }

/-- Appends a record of Eflan's. -/
def eflanRecord (s : State) (code : Nat) (detail : List Nat) : State :=
  append s { code := code, kind := 15, eflan := true, detail := detail }

/-- Appends the records of copies and slots that failed verification (R492). -/
def badRecords (s : State) : List (Nat × Nat) → State
  | [] => s
  | (k, i) :: r => badRecords (eflanRecord s (0xD0 + k) [i]) r

/-- The identity key of a secret (R494): 57 bytes of SHAKE256 of the secret and "TVID". -/
def identityOf (secret : List Byte) : List Byte :=
  (Config.shake (secret ++ [0x54#8, 0x56#8, 0x49#8, 0x44#8])).take 57

/-- Whether the certificate is accepted (R496, R497). -/
def certAccepted (cert : List Byte) (key : Option (List Byte)) : Bool :=
  match key with
  | some k => sigOk Config.identityKey (cert.take 80) ((cert.drop 80).take 114)
      && (cert.drop 20).take 57 == Config.ed448Pub k
  | none => false

/-- Eflan starts at wake cycle `t` (R492): identity, the configuration record, the units, ALIVE and the PCIe controller.
`puf`: the PUF secret could be reconstructed (R495). After a restart the tables and the enabled units stay as they are
(R582), and mailboxes that were taken are answered. -/
def execEflanStart (puf : Bool) (t : Nat) (s : State) : Out :=
  let s := atWake s t
  if !s.peony.eflanDue then .next s
  else
    let p := s.peony
    let key := if puf then some (identityOf (Config.pufSecret (s.flash.readBytes 0x3000 4096))) else none
    let cert := certOf s
    let rcd := recordOf s (cfgCopy s)
    let certOk := certAccepted cert key
    let cfgOk := certOk && recordDie rcd cert
    let c := bootCfg rcd cfgOk
    let s := setFld s idBootOff 2 2 2
    let s := setFld s idStatusOff 0 5 (b2n cfgOk + 2 * b2n certOk + 4 * b2n puf)
    let s := loadId s c rcd
    let die := bits (fieldAt cert 8 4) 0 29
    let s := if certOk then
        wr (wr (loadEngIds s die (fieldAt cert 12 2) (List.range 64)) (idBase + 0x08) die) (idBase + 0x0C)
          (fieldAt cert 12 2 + 2 ^ 31)
      else s
    let s := if puf then s else eflanRecord s 0xD1 []
    let s := if certOk then s else eflanRecord s 0xD0 []
    let s := badRecords s (p.bad ++ (if certOk && !cfgOk then [(2, cfgCopy s)] else []))
    let s := if p.restarted then s else configure s c
    let s := setFld s (pwrBase + 0x10) 0 10 c.sust
    let s := if p.restarted then eflanRecord (restartMail s) 0x02 [] else s
    let s := if p.tripped then eflanRecord s 0x15 [] else s
    let s := setFld s mbStatOff 0 1 1
    .next { s with pcieOut := true,
                   peony := { s.peony with eflanDue := false, restarted := false, bad := [], key := key, beatAt := s.now,
                                           tripped := false, cfgDigest := if cfgOk then p.cfgDigest else [] } }

/-- Eflan's background check of the slot not running ends at wake cycle `t` (R492, R505). -/
def execOtherSlotCheck (t : Nat) (s : State) : Out :=
  let s := atWake s t
  if !alive s then .next s
  else
    let k := 1 - bootSlot s
    if headerOk (headerOf s k) && imageOk s k then .next (setFld s idStatusOff 3 1 1)
    else .next (eflanRecord (setFld s idStatusOff 3 1 0) 0xD3 [k])

/-! ### Heartbeat and management reset (R582, R574) -/

/-- Every 1 ms Eflan increments MB_STAT.BEAT (R582). -/
def execEflanHeartbeat (t : Nat) (s : State) : Out :=
  let s := atWake s t
  if !alive s ∨ s.now < s.peony.beatAt + msUnits then .next s
  else .next { setFld s mbStatOff 16 16 (fld s mbStatOff 16 16 + 1) with peony := { s.peony with beatAt := s.now } }

/-- Erases flash from an offset: what it then holds is not stated (free values). -/
def flashErase (s : State) (a n : Nat) : State :=
  { s with flash := s.flash.blank a (a + n) (s.fresh + 1), fresh := s.fresh + 1 }

/-- Offset and size of an update's target: the record copy not in use, or the image slot not running (R502). -/
def updateTarget (s : State) (cfg : Bool) : Nat × Nat :=
  if cfg then (recordAt (1 - cfgCopy s), 0x1000) else (slotAt (1 - bootSlot s), 0x200000)

/-- Ends an open update by erasing its target (R502, R504). -/
def updateAbort (s : State) : State :=
  match s.peony.update with
  | none => s
  | some u =>
    let t := updateTarget s u.cfg
    let s := setFld (flashErase s t.1 t.2) idStatusOff 4 1 0
    { s with peony := { s.peony with update := none } }

/-- A management reset (R582): Peony restarts, its SRAM is lost, and an open update is aborted. -/
def mgmtReset (s : State) : State :=
  let s := updateAbort s
  let s := setFld (bumpSat (setFld s mbStatOff 0 1 0) idBootOff 16 16) idBootOff 2 2 0
  { setFld s idStatusOff 2 1 0 with
    foxCmd := none
    peony := { s.peony with romDue := true, eflanDue := false, dueAt := s.now, restarted := true, bad := [], key := none,
                            reports := [] } }

/-- BEAT has not changed for 100 ms by wake cycle `t` (R582). -/
def execPeonyWatchdogExpiry (t : Nat) (s : State) : Out :=
  let s := atWake s t
  if !eflanRuns s ∨ s.now < s.peony.beatAt + 100 * msUnits then .next s else .next (mgmtReset s)

/-- An uncorrectable error in protected storage is found in ACLK cycle `c` (R574): 0x03 and a device-wide reset for a slot or a
fence slot, 0x03 and a partition reset for a sync memory, a management reset for Peony's SRAM. -/
def execInternalUncorrectable (x : Inner) (c : Nat) (s : State) : Out :=
  let s := atAclk s c
  match x with
  | .slot n => .next (wideReset (append s { code := 0x03, kind := 7, unit := n }) 5)
  | .fence k => .next (wideReset (append s { code := 0x03, kind := 8, unit := k }) 5)
  | .quad q =>
    let p := quadPart s q
    let s := append s { code := 0x03, tag := p, kind := 2, unit := q }
    if p < 9 ∧ partExists s p then .next (resetStart s { part := p, cause := 5 }) else .next s
  | .sram => if eflanRuns s then .next (mgmtReset s) else .next s

/-! ### Identity and attestation (R499 to R501, R505) -/

/-- ID_QUERY of mailbox `m` (R505). -/
def execIdQuery (m : Mb) (s : State) : Out :=
  .next (message s m 0x0B0 anyWords fun s m w =>
    mbReply s m w 0x00 ((List.range 13).map fun i => rd s (idBase + 4 * i)))

/-- The 344 bytes that a report's signature covers (R500). -/
def reportBody (s : State) (key : List Byte) (w : List Nat) : List Byte :=
  let mod := bit (nth w 9) 1 && s.model.isSome
  let flags := b2n mod + 2 * fld s idStatusOff 1 1 + 4 * fld s idStatusOff 0 1
  let pad (n : Nat) (d : List Byte) : List Byte := (d ++ List.replicate n 0#8).take n
  let digest (d : List Byte) : List Byte := pad 64 d
  leBytes 4 0x54545441 ++ leBytes 2 1 ++ leBytes 2 flags ++ leBytes 4 458 ++ leBytes 4 0
    ++ wordBytes ((List.range 8).map fun i => nth w (i + 1))
    ++ wordBytes [rd s (idBase + 0x08), rd s (idBase + 0x0C), rd s (idBase + 0x14), rd s (idBase + 0x18),
                  rd s (idBase + 0x1C), rd s (idBase + 0x2C), (stamp s).lp, (stamp s).frame]
    ++ digest s.peony.fwDigest ++ digest s.peony.cfgDigest
    ++ digest (if mod then (s.model.map (·.digest)).getD [] else [])
    ++ leBytes 8 (if mod then (s.model.map (·.part)).getD 0 else 0)
    ++ pad 57 (Config.ed448Pub key) ++ List.replicate 7 0#8

/-- ATTEST of mailbox `m` at wake cycle `t` (R495, R499, R501): Eflan assembles the report and begins to sign it. -/
def execAttest (m : Mb) (t : Nat) (s : State) : Out :=
  .next (message (atWake s t) m 0x0B1 anyWords fun s m w =>
    match s.peony.key with
    | none => mbReply s m w 0x0B []
    | some key =>
      let cert := bit (nth w 9) 0
      if !xbOk s m w ∨ nth w 15 < (if cert then 652 else 458) then mbReply s m w 0x0C []
      else
        let r : Report := { mbox := m, body := reportBody s key w, cert := if cert then certOf s else [], since := s.now }
        { mbBegin s m w with peony := { s.peony with reports := s.peony.reports ++ [r] } })

/-- The signature of mailbox `m`'s report is finished at wake cycle `t` (R499, R500): the report and the certificate are
written to the extended buffer and the message replies with the byte count. -/
def execAttestSigned (m : Mb) (t : Nat) (s : State) : Out :=
  let s := atWake s t
  match s.peony.reports.find? (·.mbox == m.val), tabFind m.val s.mboxes, s.peony.key with
  | some r, some x, some key =>
    let data := r.body ++ (Config.ed448Sign key (Config.shake r.body) ++ List.replicate 114 0#8).take 114 ++ r.cert
    let s := { s with peony := { s.peony with reports := s.peony.reports.filter (·.mbox != m.val) } }
    .next (mbReply (xbWrite s m x.words data) m x.words 0x00 [data.length])
  | _, _, _ => .next s

/-! ### Updates (R502, R503) -/

/-- OP of an update message. -/
def updOp (k : Nat) (w : List Nat) : Bool := bits (nth w 1) 0 2 == k

/-- OP 0: the target is erased and an update opens (R502). -/
def updBegin (cfg : Bool) (s : State) (m : Nat) (w : List Nat) : State :=
  if s.peony.update.isSome then mbReply s m w 0x0B []
  else
    let t := updateTarget s cfg
    let size := if cfg then 256 else clampTo 257 2097152 (nth w 3)
    let s := setFld (flashErase s t.1 t.2) idStatusOff 4 1 1
    mbReply { s with peony := { s.peony with update := some { cfg := cfg, size := size } } } m w 0x00 []

/-- OP 1: bytes of the extended buffer are written at the offset (R502). -/
def updData (cfg : Bool) (s : State) (m : Nat) (w : List Nat) : State :=
  match s.peony.update with
  | none => mbReply s m w 0x0B []
  | some u =>
    if u.cfg ≠ cfg then mbReply s m w 0x0B []
    else if !xbOk s m w ∨ u.size < nth w 2 + nth w 15 then mbReply s m w 0x0C []
    else
      let s := { s with flash := s.flash.writeBytes ((updateTarget s cfg).1 + nth w 2) (xbBytes s m w) }
      mbReply s m w 0x00 []

/-- The checks of a commit: the status of the first that fails (R503). `inUse`: an image or record is in use. -/
def commitStatus (s : State) (cfg : Bool) : Option Nat :=
  let runs := eflanRuns s
  if cfg then
    let k := 1 - cfgCopy s
    let d := recordOf s k
    let minSvn := fieldAt d 34 2
    let has := (List.range 2).any fun i => headerOk (headerOf s i) && Nat.ble minSvn (svnOf (headerOf s i))
    let higher := !runs || Nat.blt (rd s (idBase + 0x1C)) (fieldAt d 8 4)
    if !sigOk Config.firmwareKey (d.take 128) ((d.drop 128).take 114) then some 0x09
    else if recordRom d && recordDie d (certOf s) && (!runs || fld s idStatusOff 1 1 == 1) && higher
        && Nat.ble s.peony.minSvn minSvn && has then none
    else some 0x04
  else
    let k := 1 - bootSlot s
    let h := headerOf s k
    let ahead := !runs || aheadOf k (svnOf h, verOf h) (bootSlot s) (fld s (idBase + 0x18) 0 16, rd s (idBase + 0x14))
    if !imageOk s k then some 0x09
    else if headerOk h && Nat.ble s.peony.minSvn (svnOf h) && ahead then none
    else some 0x04

/-- OP 2: the target is read back and checked; a failure erases it (R503). -/
def updCommit (cfg : Bool) (s : State) (m : Nat) (w : List Nat) : State :=
  match s.peony.update with
  | none => mbReply s m w 0x0B []
  | some u =>
    if u.cfg ≠ cfg then mbReply s m w 0x0B []
    else match commitStatus s cfg with
      | some st => mbReply (updateAbort s) m w st []
      | none =>
        let d := recordOf s (1 - cfgCopy s)
        let h := headerOf s (1 - bootSlot s)
        let s := setFld { s with peony := { s.peony with update := none,
                                                         minSvn := if cfg then fieldAt d 34 2 else s.peony.minSvn } } idStatusOff 4 1 0
        let s := eflanRecord s 0xD4 (if cfg then [1, fieldAt d 8 4, fieldAt d 34 2] else [0, verOf h, svnOf h])
        mbReply s m w 0x00 []

/-- OP 3: the target is erased and the update ends (R502). -/
def updAbortMsg (cfg : Bool) (s : State) (m : Nat) (w : List Nat) : State :=
  let mine := (s.peony.update.map (·.cfg)) = some cfg
  mbReply (if mine then updateAbort s else s) m w 0x00 []

/-- FW_UPDATE begin (R502). -/
def execFwUpdateBegin (m : Mb) (s : State) : Out := .next (message s m 0x0B2 (updOp 0) (updBegin false))

/-- FW_UPDATE data (R502). -/
def execFwUpdateData (m : Mb) (s : State) : Out := .next (message s m 0x0B2 (updOp 1) (updData false))

/-- FW_UPDATE commit (R503). -/
def execFwUpdateCommit (m : Mb) (s : State) : Out := .next (message s m 0x0B2 (updOp 2) (updCommit false))

/-- FW_UPDATE abort (R502). -/
def execFwUpdateAbort (m : Mb) (s : State) : Out := .next (message s m 0x0B2 (updOp 3) (updAbortMsg false))

/-- CONFIG_UPDATE begin (R502). -/
def execConfigUpdateBegin (m : Mb) (s : State) : Out := .next (message s m 0x0B3 (updOp 0) (updBegin true))

/-- CONFIG_UPDATE data (R502). -/
def execConfigUpdateData (m : Mb) (s : State) : Out := .next (message s m 0x0B3 (updOp 1) (updData true))

/-- CONFIG_UPDATE commit (R503). -/
def execConfigUpdateCommit (m : Mb) (s : State) : Out := .next (message s m 0x0B3 (updOp 2) (updCommit true))

/-- CONFIG_UPDATE abort (R502). -/
def execConfigUpdateAbort (m : Mb) (s : State) : Out := .next (message s m 0x0B3 (updOp 3) (updAbortMsg true))

end Sys2Proof.Machine
end

