-- ==== Sys2Proof/Machine/Engine.lean ====
section
/-!
DEFINITION. What an engine's own instructions do: scalar and vector instructions, conversions, tile-memory accesses and
engine registers (R88 to R94, R100 to R105, R117 to R119, R131, R140).
-/
namespace Sys2Proof.Machine

/-! ### Registers of a wave (R86, R89) -/

/-- The physical vector register that holds a wave's register `v`, if the wave has so many. -/
def physReg (x : Wave) (v : Nat) : Option Nat := x.blocks[v / 16]?.map fun b => 16 * b + v % 16

/-- Element `i` of a wave's vector register `v`. What a compute wave has not written is a free value of its start. -/
def vget (n : Engine) (x : Wave) (v i : Nat) : Word :=
  match physReg x v with
  | none => 0#32
  | some r => (tabFind (r * 512 + i) n.vreg).getD
      (if x.work = .compute then Config.freeWord x.epoch (r * 512 + i) else 0#32)

/-- Writes elements of a wave's vector register `v`: pairs of element and word. -/
def vput (s : State) (e : Nat) (x : Wave) (v : Nat) (ws : List (Nat × Word)) : State :=
  match physReg x v with
  | none => s
  | some r =>
    let n := eng s e
    let ks := ws.map fun w => (r * 512 + w.1, w.2)
    setEng s e { n with vreg := n.vreg.filter (fun k => (tabFind k.1 ks).isNone) ++ ks }

/-- Writes scalar register `g` of wave `w` (R86). -/
def gput (s : State) (e w g : Nat) (v : Word) : State :=
  match waveAt s e w with
  | none => s
  | some x => setWave s e w { x with g := tabPut (fun _ => 0#32) g v x.g }

/-- Delivers the bytes of a load. -/
def loadPut (s : State) (e w : Nat) (dst : LoadDst) (data : List Byte) : State :=
  match dst with
  | .scalar g => gput s e w g (BitVec.ofNat 32 (leNat (data.take 4)))
  | .vector v elem =>
    match waveAt s e w with
    | none => s
    | some x =>
      let ws := (bytesWords data).mapIdx fun k d => (elem.val + k, BitVec.ofNat 32 d)
      vput s e x v (ws.filter fun k => Nat.blt k.1 512 && bit x.mask k.1)

/-- Whether wave `w` of engine `e` can issue: it is resident, started, and does not spin; the engine is clocked and out of
reset (R88, R251). -/
def issuing (s : State) (e w : Nat) : Option Wave :=
  match waveAt s e w with
  | some x => if x.started ∧ x.spin.isNone ∧ !(eng s e).inReset ∧ engClocked s e then some x else none
  | none => none

/-! ### Scalar and vector instructions (R88, R93, R94) -/

/-- The sequencer issues one scalar instruction of wave `w` in ACLK cycle `c` (R88): a result for a scalar register, a
new execution mask, and the next program counter. The instruction encoding is not published, so its result is given. -/
def execScalarInstruction (e : Eng) (w : Fin 8) (g : Option (Fin 32)) (v : Word) (mask : Option (BitVec 512)) (pc : Nat)
    (c : Nat) (s : State) : Out :=
  let s := atAclk s c
  match issuing s e w with
  | none => .next s
  | some x =>
    let x := { x with pc := pc % 2 ^ 22 / 4 * 4, mask := (mask.map (·.toNat)).getD x.mask,
                      g := match g with
                        | some r => tabPut (fun _ => 0#32) r.val v x.g
                        | none => x.g }
    .next (setWave s e w x)

/-- The result of a NaN is the canonical NaN (R94). -/
def canon (w : Nat) : Nat := if decodeVal .fp32 w = .nan then canonNan .fp32 else w

/-- The smaller or larger of two patterns; with a NaN, or zeros of two signs, a free value. -/
def fpMinMax (big : Bool) (a b : Nat) : Nat :=
  let x := decodeVal .fp32 a
  let y := decodeVal .fp32 b
  let zero (v : Val) : Bool := match v with
    | .fin _ m _ => m == 0
    | _ => false
  if x = .nan ∨ y = .nan ∨ (zero x ∧ zero y ∧ a ≠ b) then canon (Config.nanMinMax big a b % 2 ^ 32)
  else if ltVal x y = big then b else a

/-- One element of an FP32 or INT32 operation (R87, R94). -/
def vop32 (op : VOp) (a b c : Nat) : Nat :=
  let cmp (r : Bool) : Nat := (Config.cmpWord r).toNat
  let spec (k : Nat) : Nat := canon (Config.special k (BitVec.ofNat 32 a)).toNat
  let x := decodeVal .fp32 a
  let y := decodeVal .fp32 b
  let num := decide (x ≠ .nan ∧ y ≠ .nan)
  match op with
  | .move => a
  | .fma => fpFma .fp32 a b c
  | .add => fpAdd .fp32 a b
  | .mul => fpMul .fp32 a b
  | .min => fpMinMax false a b
  | .max => fpMinMax true a b
  | .cmpLt => cmp (num && ltVal x y)
  | .cmpLe => cmp (num && !ltVal y x)
  | .cmpEq => cmp (num && !ltVal x y && !ltVal y x)
  | .rcp => spec 0
  | .rsqrt => spec 1
  | .exp2 => spec 2
  | .log2 => spec 3
  | .sin => spec 4
  | .cos => spec 5
  | .iadd => (a + b) % 2 ^ 32
  | .imul => a * b % 2 ^ 32
  | .iand => Nat.land a b
  | .ior => Nat.lor a b
  | .ixor => Nat.xor a b
  | .ishl => if b < 32 then a * 2 ^ b % 2 ^ 32 else (Config.shiftWide false (BitVec.ofNat 32 a) (BitVec.ofNat 32 b)).toNat
  | .ishr => if b < 32 then a / 2 ^ b else (Config.shiftWide true (BitVec.ofNat 32 a) (BitVec.ofNat 32 b)).toNat
  | .icmpLt => cmp (decide (toSigned 32 a < toSigned 32 b))

/-- One half of a packed FP16 or BF16 operation (R87): FMA, add and multiply. -/
def vop16 (f : Fmt) (op : VOp) (a b c : Nat) : Nat :=
  match op with
  | .fma => fpFma f a b c
  | .add => fpAdd f a b
  | .mul => fpMul f a b
  | _ => a

/-- One element of an operation: packed for FP16 and BF16 (R87), else 32 bits wide. -/
def vop (f : Fmt) (op : VOp) (a b c : Nat) : Nat :=
  if f = .fp16 ∨ f = .bf16 then
    vop16 f op (a % 65536) (b % 65536) (c % 65536) + vop16 f op (a / 65536) (b / 65536) (c / 65536) * 65536
  else vop32 op a b c

/-- A vector instruction of wave `w` in ACLK cycle `c` (R93): each active work-item gets its result; others keep what
they hold. -/
def execVectorInstruction (e : Eng) (w : Fin 8) (op : VOp) (f : Fmt) (d a b x : Fin 128) (c : Nat) (s : State) : Out :=
  let s := atAclk s c
  match issuing s e w with
  | none => .next s
  | some k =>
    let n := eng s e
    let r := ((List.range 512).filter (bit k.mask)).map fun i =>
      (i, BitVec.ofNat 32 (vop f op (vget n k a i).toNat (vget n k b i).toNat (vget n k x i).toNat))
    .next (vput s e k d r)

/-! ### AMAX, overflow and seed (R117 to R119) -/

/-- Folds source elements into an AMAX register (R118). -/
def foldAmax (s : State) (e i : Nat) (xs : List Val) : State :=
  let off := engOff e (0x14 + 4 * i)
  let m := maxOf (xs.filterMap amaxOf)
  let nan := xs.any fun x => x == .nan
  setFld (setFld s off 0 31 (max (fld s off 0 31) m)) off 31 1 (max (fld s off 31 1) (b2n nan))

/-- Counts overflowed elements (R119, R147). -/
def countOvf (s : State) (e k : Nat) : State :=
  if k = 0 then s else bumpSat (setFld s (engOff e 0x24) 0 1 1) (engOff e 0x28) 0 32 k

/-- The clear instruction writes 0 to an AMAX register (R118). -/
def execAmaxClear (e : Eng) (i : Fin 4) (s : State) : Out := .next (setFld s (engOff e (0x14 + 4 * i)) 0 31 0)

/-- A sequencer instruction of wave `w` writes ENG_SEED (R117). -/
def execSeedWrite (e : Eng) (w : Fin 8) (v : Dword) (s : State) : Out :=
  match issuing s e w with
  | none => .next s
  | some _ => .next (wr (wr s (engOff e 0x0C) (v.toNat % 2 ^ 32)) (engOff e 0x10) (v.toNat / 2 ^ 32))

/-- An instruction of wave `w` that cannot be decoded ends its job or step with 0x44 (R92). -/
def execIllegalInstruction (e : Eng) (w : Fin 8) (c : Nat) (s : State) : Out :=
  let s := atAclk s c
  match issuing s e w with
  | none => .next s
  | some _ => .next (endWork (engRecord s e w 0x44 []) e w 0x44)

/-! ### Vector conversions (R131, R132, R140, R147) -/

/-- Elements of a format in one register (R140). -/
def perReg (f : Fmt) : Nat := 32 / fmtWidth f

/-- Generator `i` of an engine (R139); it holds 0 before the first reseed. -/
def genOf (n : Engine) (i : Nat) : BitVec 64 := (tabFind i n.gens).getD 0#64

/-- Advances generators `lo` up to `hi` by `k` draws. -/
def genAdvance (n : Engine) (lo hi k : Nat) : Engine :=
  { n with gens := (List.range 192).map fun i => (i, if lo ≤ i ∧ i < hi then genSkip (genOf n i) k else genOf n i) }

/-- The source elements of work-item `i`, `k` of them, from register `r` on (R140). -/
def convSrc (n : Engine) (x : Wave) (f : Fmt) (r i k : Nat) : List Nat :=
  (List.range k).map fun j =>
    bits (vget n x (r + j / perReg f) i).toNat (j % perReg f * fmtWidth f) (fmtWidth f)

/-- Packs elements of a format into words (R130, R140). -/
def packElems (f : Fmt) (l : List Nat) : List Word :=
  (List.range (ceilDiv l.length (perReg f))).map fun r =>
    BitVec.ofNat 32 ((List.range (perReg f)).foldl (fun w j => w + nth l (r * perReg f + j) % 2 ^ fmtWidth f
      * 2 ^ (j * fmtWidth f)) 0)

/-- A conversion of wave `w` from format `sf` in registers from `a` to format `tf` in registers from `d`, in ACLK cycle
`c` (R131, R140). -/
def execVectorConvert (e : Eng) (w : Fin 8) (sf tf : Fmt) (rnd : Rnd) (ieee : Bool) (scale : Word) (amax : Fin 4)
    (d a : Fin 128) (c : Nat) (s : State) : Out :=
  let s := atAclk s c
  match issuing s e w with
  | none => .next s
  | some x =>
    let n := eng s e
    let k := max (perReg sf) (perReg tf)
    let draws := decide (rnd = .stochastic ∧ tf ≠ .f19)
    let act := (List.range 512).filter (bit x.mask)
    let item (i : Nat) : List (Nat × Bool) := (convSrc n x sf a i k).mapIdx fun j p =>
      roundInto tf (scaled (decodeVal sf p) scale.toNat) rnd ieee
        (if draws then genDraw (genSkip (genOf n (i % 128)) (i / 128 * k + j + 1)) else 0)
    let out := act.map fun i => (i, item i)
    let s := foldAmax s e amax (act.flatMap fun i => (convSrc n x sf a i k).map (decodeVal sf))
    let s := countOvf s e ((out.map fun o => (o.2.filter (·.2)).length).foldl (· + ·) 0)
    let s := if draws then setEng s e (genAdvance (eng s e) 0 128 (4 * k)) else s
    .next ((List.range (k / perReg tf)).foldl (fun s r =>
      vput s e x (d + r) (out.map fun o => (o.1, ((packElems tf (o.2.map (·.1)))[r]?).getD 0#32))) s)

/-! ### Tile memory (R29, R30, R100 to R105) -/

/-- The engine whose tile memory an access of engine `e` names: its own, or a logical engine of its partition; none
outside the partition (R30). -/
def tileTarget (s : State) (e : Nat) : Option Nat → Option Nat
  | none => some e
  | some l => (logEngs s (engPart s e))[l]?

/-- An access of wave `w` outside its partition ends its work with 0x90 (R30, R310). -/
def tileRefused (s : State) (e w l off : Nat) : State :=
  endWork (localViolation s (engPart s e) e off false l (whoWave s e w)) e w 0x90

/-- What the check code of the word at byte `pos` of an access shows to the wave that made it: an uncorrectable word ends
its work with 0x41 and fails the engine that holds it (R104, R105). -/
def tileEcc (s : State) (e w t pos : Nat) (ecc : Ecc) : State :=
  let who := whoWave s e w
  let s := if ecc = .uncorrectable then endWork s e w 0x41 else s
  tmEcc s t (pos % 2 ^ 22 / 16) who ecc

/-- A load of wave `w` from tile memory in ACLK cycle `c` (R101): `len` bytes, at most 128, from byte `off` of its own
engine's or logical engine `l`'s tile memory; `ecc` is what the word at byte `pos` of it shows. -/
def execTileLoad (e : Eng) (w : Fin 8) (l : Option Nat) (off len : Nat) (dst : LoadDst) (pos : Nat) (ecc : Ecc) (c : Nat)
    (s : State) : Out :=
  let s := atAclk s c
  let off := off % 2 ^ 22
  let len := min (clampTo 1 128 len) (2 ^ 22 - off)
  match issuing s e w with
  | none => .next s
  | some _ =>
    match tileTarget s e l with
    | none => .next (tileRefused s e w (l.getD 0) off)
    | some t =>
      let s := if pos < len then tileEcc s e w t (off + pos) ecc else s
      if ecc = .uncorrectable ∧ pos < len then .next s
      else .next (loadPut s e w dst (s.tile.readBytes (t * 2 ^ 22 + off) len))

/-- Writes bytes from offset `off` of engine `t`'s tile memory, but for the word `bad` (R105). -/
def tilePut (s : State) (t off : Nat) (bad : Option Nat) : List Byte → State
  | [] => s
  | b :: r =>
    let s := if bad = some (off / 16) then s else { s with tile := s.tile.write (t * 2 ^ 22 + off) b }
    tilePut s t (off + 1) bad r

/-- Whether a store of `len` bytes at `off` covers the word at byte `a` only partly (R103). -/
def partWord (off len a : Nat) : Bool := Nat.blt (a / 16 * 16) off || Nat.blt (off + len) (a / 16 * 16 + 16)

/-- A store of wave `w` to tile memory in ACLK cycle `c` (R101, R103, R105): `ecc` is what the partly covered word at byte
`pos` of it shows in its read-merge-write. -/
def execTileStore (e : Eng) (w : Fin 8) (l : Option Nat) (off : Nat) (data : List Byte) (pos : Nat) (ecc : Ecc) (c : Nat)
    (s : State) : Out :=
  let s := atAclk s c
  let off := off % 2 ^ 22
  let data := data.take (min 128 (2 ^ 22 - off))
  match issuing s e w with
  | none => .next s
  | some _ =>
    match tileTarget s e l with
    | none => .next (tileRefused s e w (l.getD 0) off)
    | some t =>
      let seen := decide (pos < data.length) && partWord off data.length (off + pos)
      let bad := if seen ∧ ecc = .uncorrectable then some ((off + pos) / 16) else none
      let s := tilePut s t off bad data
      .next (if seen then tileEcc s e w t (off + pos) ecc else s)

end Sys2Proof.Machine
end

