-- ==== Sys2Proof/Machine/Tensor.lean ====
section
/-!
DEFINITION. The tensor unit: TLOAD, TMMA, TDRAIN and the interlocks between them (R95 to R98, R151 to R153). Each takes
effect when it starts; the cycles from which its resources are free again follow the rates of R87.
-/
namespace Sys2Proof.Machine

/-! ### Stages and accumulators -/

/-- A half-stage. -/
def stageOf' (n : Engine) (k : Nat) : Stage := if k = 0 then n.stage0 else n.stage1

/-- Replaces a half-stage. -/
def setStage (n : Engine) (k : Nat) (x : Stage) : Engine := if k = 0 then { n with stage0 := x } else { n with stage1 := x }

/-- An accumulator half. -/
def accOf (n : Engine) (k : Nat) : AccHalf := if k = 0 then n.acc0 else n.acc1

/-- Replaces an accumulator half. -/
def setAcc (n : Engine) (k : Nat) (x : AccHalf) : Engine := if k = 0 then { n with acc0 := x } else { n with acc1 := x }

/-- Whether a format may be an element of A or B (R97). -/
def tensorFmt : Fmt → Bool
  | .fp32 | .int32 => false
  | _ => true

/-- An offset of the tensor unit: its low 4 bits read as 0 (R97). -/
def tOff (off : Nat) : Nat := off % 2 ^ 22 / 16 * 16

/-- A stride of the tensor unit, at least `lo` (R97). -/
def tStride (lo x : Nat) : Nat := clampTo lo 65520 (x / 16 * 16)

/-- `n` bytes of engine `e`'s tile memory from offset `o` on. Offsets have 22 bits (R100), so the last byte is followed by
the first. -/
def tRead (m : Mem) (e o n : Nat) : List Byte :=
  let k := 2 ^ 22 - o % 2 ^ 22
  m.readBytes (e * 2 ^ 22 + o % 2 ^ 22) (min n k) ++ m.readBytes (e * 2 ^ 22) (n - k)

/-- The writes that put bytes into engine `e`'s tile memory from offset `o` on. -/
def tPieces (e o : Nat) (b : List Byte) : List (Nat × List Byte) :=
  let k := 2 ^ 22 - o % 2 ^ 22
  [(e * 2 ^ 22 + o % 2 ^ 22, b.take k), (e * 2 ^ 22, b.drop k)]

/-- Element `j` of a row of packed elements of a format (R130). -/
def rowElem (f : Fmt) (b : List Byte) (j : Nat) : Nat :=
  let k := j * fmtWidth f / 8
  bits (leNat ((b.drop k).take (ceilDiv (fmtWidth f) 8))) (j * fmtWidth f % 8) (fmtWidth f)

/-! ### TLOAD (R97) -/

/-- Rows of B fill a half-stage. -/
def tloadDo (s : State) (e : Nat) (stage kg off stride : Nat) (f : Fmt) : State :=
  let n := eng s e
  let rows := 16 * kg
  let bytes := (List.range rows).flatMap fun r =>
    (tRead s.tile e (off + r * stride) 64).mapIdx fun j b => (r * 64 + j, b)
  let c := aclk s
  setEng s e { setStage n stage { bytes := bytes, kg := kg, fmt := f, readyAt := c + 8 * kg + 3, freeAt := 0 } with
    loadFree := c + 8 * kg }

/-! ### TMMA (R95, R96, R151, R152) -/

/-- Element (k, j) of the held B. -/
def bElem (x : Stage) (k j : Nat) : Nat :=
  let a := k * 64 + j * fmtWidth x.fmt / 8
  let byte (i : Nat) : Nat := ((tabFind (a + i) x.bytes).getD 0#8).toNat
  bits (byte 0 + 256 * byte 1 + 65536 * byte 2 + 16777216 * byte 3) (j * fmtWidth x.fmt % 8) (fmtWidth x.fmt)

/-- One element of the accumulator after the groups of a TMMA in ascending order of k, and its overflows (R96, R151). -/
def accGroups (float : Bool) (fa fb : Fmt) (prods : Nat → List (Nat × Nat)) (acc ovf : Nat) : List Nat → Nat × Nat
  | [] => (acc, ovf)
  | g :: gs =>
    let r := if float then accFp acc (groupSum ((prods g).map fun p => mulVal (decodeVal fa p.1) (decodeVal fb p.2)))
      else accInt acc ((prods g).foldl (fun t p => t + intVal fa p.1 * intVal fb p.2) 0)
    accGroups float fa fb prods r.1 (ovf + b2n r.2) gs

/-- Rows of A times the held B, added to an accumulator half. With ACCUM, values held in another layout or type are free
values. -/
def tmmaDo (s : State) (e : Nat) (stage acc m kg off stride : Nat) (f : Fmt) (accum : Bool) : State :=
  let n := eng s e
  let st := stageOf' n stage
  let h := accOf n acc
  let kg := min kg (max 1 st.kg)
  let wd := arrayWidth f st.fmt
  let m := if wd = 128 then min m 128 else m
  let float := !(isIntFmt f && isIntFmt st.fmt)
  let same := h.width == wd && h.float == float
  let ep := s.fresh
  let start (i : Nat) : Nat :=
    if !accum then 0 else if same then ((tabFind i h.words).getD 0#32).toNat else (Config.freeWord ep i).toNat
  let arow (i : Nat) : List Byte := tRead s.tile e (off + i * stride) (16 * kg * fmtWidth f / 8)
  let cell (i : Nat) (row : List Byte) (j : Nat) : Nat × Nat :=
    accGroups float f st.fmt (fun g => (List.range 16).map fun k => (rowElem f row (16 * g + k), bElem st (16 * g + k) j))
      (start (i * wd + j)) 0 (List.range kg)
  let res := (List.range m).flatMap fun i =>
    let row := arow i
    (List.range wd).map fun j => (i * wd + j, cell i row j)
  let words := res.map fun r => (r.1, BitVec.ofNat 32 r.2.1)
  let kept := if same then h.words.filter fun k => Nat.ble (m * wd) k.1 else []
  let c := aclk s
  let n := setStage n stage { st with freeAt := c + m * kg }
  let n := setAcc n acc { words := words ++ kept, width := wd, float := float, readyAt := c + m * kg + 9, freeAt := 0 }
  let s := { setEng s e { n with arrayFree := c + m * kg } with fresh := s.fresh + 1 }
  countOvf s e ((res.map fun r => r.2.2).foldl (· + ·) 0)

/-! ### TDRAIN (R97, R140, R153) -/

/-- The value of an accumulator word. -/
def accVal (float : Bool) (w : Nat) : Val := decodeVal (if float then .fp32 else .int32) w

/-- An accumulator half is converted into tile memory. -/
def tdrainDo (s : State) (e : Nat) (acc m off stride : Nat) (f : Fmt) (rnd : Rnd) (ieee : Bool) (scale amax : Nat) : State :=
  let n := eng s e
  let h := accOf n acc
  let wd := h.width
  let m := if wd = 128 then min m 128 else m
  let draws := decide (rnd = .stochastic ∧ f ≠ .f19)
  let word (k : Nat) : Val := accVal h.float ((tabFind k h.words).getD 0#32).toNat
  let out (k : Nat) : Nat × Bool := roundInto f (scaled (word k) scale) rnd ieee
    (if draws then genDraw (genSkip (genOf n (128 + k % 64)) (k / 64 + 1)) else 0)
  let rows := (List.range m).map fun i => (List.range wd).map fun j => out (i * wd + j)
  let pieces := (rows.mapIdx fun i r => (i, r)).flatMap fun r => tPieces e (off + r.1 * stride)
    ((wordBytes ((packElems f (r.2.map (·.1))).map (·.toNat))).take (wd * fmtWidth f / 8))
  let s := { s with tile := pieces.foldl (fun t p => t.writeBytes p.1 p.2) s.tile }
  let s := foldAmax s e amax ((List.range (m * wd)).map word)
  let s := countOvf s e ((rows.flatten.filter (·.2)).length)
  let c := aclk s
  let done := c + ceilDiv (m * wd) (if fmtWidth f = 32 then 32 else 64)
  let n := eng s e
  let n := if draws then
      { n with gens := (List.range 192).map fun i =>
          (i, if 128 ≤ i then genSkip (genOf n i) ((m * wd + 63 - (i - 128)) / 64) else genOf n i) }
    else n
  setEng s e { setAcc n acc { accOf n acc with freeAt := done } with drainFree := done }

/-! ### Interlocks (R98) -/

/-- Whether a tensor instruction's resources are free. -/
def tReady (s : State) (e : Nat) : TIns → Bool
  | .load k _ _ _ _ => Nat.ble (eng s e).loadFree (aclk s) && Nat.ble (stageOf' (eng s e) k).freeAt (aclk s)
  | .mma k a _ _ _ _ _ _ =>
    Nat.ble (eng s e).arrayFree (aclk s) && Nat.ble (stageOf' (eng s e) k).readyAt (aclk s)
      && Nat.ble (accOf (eng s e) a).freeAt (aclk s)
  | .drain a _ _ _ _ _ _ _ _ => Nat.ble (eng s e).drainFree (aclk s) && Nat.ble (accOf (eng s e) a).readyAt (aclk s)

/-- A tensor instruction runs. -/
def tRun (s : State) (e : Nat) : TIns → State
  | .load k kg off st f => tloadDo s e k kg off st f
  | .mma k a m kg off st f acc => tmmaDo s e k a m kg off st f acc
  | .drain a m off st f r i sc am => tdrainDo s e a m off st f r i sc am

/-- A tensor instruction of wave `w` runs with what the word at offset `pos` of tile memory shows; an uncorrectable word
ends the wave's work and the instruction does nothing (R105). -/
def tStart (s : State) (e w : Nat) (i : TIns) (pos : Nat) (ecc : Ecc) : State :=
  let s := tileEcc s e w e pos ecc
  if ecc = .uncorrectable then s else tRun s e i

/-- A tensor instruction of wave `w` issues (R88, R98): it runs at once when the queue is empty and its resources are
free, else it waits in the queue of 4; with the queue full the wave stalls. -/
def tIssue (s : State) (e w : Nat) (i : TIns) (pos : Nat) (ecc : Ecc) : State :=
  match issuing s e w with
  | none => s
  | some _ =>
    let n := eng s e
    if n.tq.isEmpty && tReady s e i then tStart s e w i pos ecc
    else if n.tq.length < 4 then setEng s e { n with tq := n.tq ++ [(w, i)] }
    else s

/-- TLOAD of wave `w` in ACLK cycle `c` (R97). -/
def execTload (e : Eng) (w : Fin 8) (stage : Fin 2) (kg off stride : Nat) (f : Fmt) (pos : Nat) (ecc : Ecc) (c : Nat)
    (s : State) : Out :=
  let f := if tensorFmt f then f else .f19
  .next (tIssue (atAclk s c) e w (.load stage (clampTo 1 16 kg) (tOff off) (tStride 64 stride) f) pos ecc)

/-- TMMA of wave `w` in ACLK cycle `c` (R97). -/
def execTmma (e : Eng) (w : Fin 8) (stage acc : Fin 2) (m kg off stride : Nat) (f : Fmt) (accum : Bool) (pos : Nat)
    (ecc : Ecc) (c : Nat) (s : State) : Out :=
  let f := if tensorFmt f then f else .f19
  .next (tIssue (atAclk s c) e w
    (.mma stage acc (clampTo 1 256 m) (clampTo 1 16 kg) (tOff off) (tStride 16 stride) f accum) pos ecc)

/-- TDRAIN of wave `w` in ACLK cycle `c` (R97). -/
def execTdrain (e : Eng) (w : Fin 8) (acc : Fin 2) (m off stride : Nat) (f : Fmt) (rnd : Rnd) (ieee : Bool) (scale : Word)
    (amax : Fin 4) (pos : Nat) (ecc : Ecc) (c : Nat) (s : State) : Out :=
  .next (tIssue (atAclk s c) e w
    (.drain acc (clampTo 1 256 m) (tOff off) (tStride 16 stride) f rnd ieee scale.toNat amax) pos ecc)

/-- The tensor instruction that waits first on engine `e` proceeds in ACLK cycle `c`, once its resources are free (R98). -/
def execTensorInterlockRelease (e : Eng) (pos : Nat) (ecc : Ecc) (c : Nat) (s : State) : Out :=
  let s := atAclk s c
  let n := eng s e
  match n.tq with
  | [] => .next s
  | (w, i) :: r => if tReady s e i then .next (tStart (setEng s e { n with tq := r }) e w i pos ecc) else .next s

end Sys2Proof.Machine
end

