-- ==== Sys2Proof/Machine/FarLine.lean ====
section
/-!
DEFINITION. The far-line cache (R108 to R114): loads and stores, fills, the change of its powered groups and its
cleaning.
-/
namespace Sys2Proof.Machine

/-! ### Lines and entries (R108, R109) -/

/-- The line that holds an address, with its entry. -/
def findLine (x : Engine) (a : Nat) : Option (Nat × FarLine) := x.lines.find? fun k => k.2.tag == a / 1024

/-- Groups that allocate: powered and not departing (R112). -/
def groupsOpen (x : Engine) : Nat := min x.flcOn (x.flcTarget.getD x.flcOn)

/-- Sectors of a line that an access touches. -/
def lineSectors (a n : Nat) : List Nat :=
  (List.range 16).filter fun k => Nat.blt (a % 1024) (64 * k + 64) && Nat.blt (64 * k) (a % 1024 + n)

/-- Whether an access covers sector `k` of its line whole. -/
def coversSector (a n k : Nat) : Bool := Nat.ble (a % 1024) (64 * k) && Nat.ble (64 * k + 64) (a % 1024 + n)

/-- Sets or clears bit `k` of a sector mask. -/
def maskPut (m k : Nat) (v : Bool) : Nat := setBits m k 1 (b2n v)

/-- Writes bytes into a line from byte `i`. -/
def FarLine.put (l : FarLine) (i : Nat) : List Byte → FarLine
  | [] => l
  | b :: r => FarLine.put { l with bytes := tabPut (fun _ => 0#8) i b l.bytes } (i + 1) r

/-- Replaces line `k` of engine `e` and makes it the most recently used. -/
def putLine (s : State) (e k : Nat) (l : FarLine) : State :=
  let x := eng s e
  setEng s e { x with lines := tabPut (fun _ => {}) k { l with used := x.lineClock + 1 } x.lines, lineClock := x.lineClock + 1 }

/-- The bursts on their way: raised, granted, or with their reply under way. -/
def burstsOut (s : State) : List Burst :=
  s.arbs.flatMap (fun a => a.2.raised ++ a.2.granted) ++ s.replies.map (·.burst) ++ s.arrived.map (·.burst) ++ s.hostReads

/-- Fills of engine `e` on their way. -/
def fillsOut (s : State) (e : Nat) : List Burst :=
  (burstsOut s).filter fun b => b.req == e && !b.write && (b.use == 1 || Nat.ble 4 b.use)

/-- The entry that a new line takes: an empty one, else the least recently used of the groups that allocate; its dirty
sectors are written back first (R109). -/
def allocLine (s : State) (e a : Nat) : Option (Nat × State) :=
  let x := eng s e
  let ks := List.range (8 * groupsOpen x)
  let fresh (k : Nat) (s : State) : Nat × State := (k, putLine s e k { tag := a / 1024 })
  match ks.find? fun k => (tabFind k x.lines).isNone with
  | some k => some (fresh k s)
  | none =>
    let age (k : Nat) : Nat := (tabGet (fun _ => ({} : FarLine)) k x.lines).used
    let old := ks.foldl (fun (m : Option Nat) k => match m with
      | some j => if age k < age j then some k else m
      | none => some k) none
    old.map fun k => fresh k (flcCleanLine s e k)

/-- Fetches the 256-byte quarter of an address unless it is on its way (R109); at most 16 misses are outstanding. -/
def fetchQuarter (s : State) (e a : Nat) : State :=
  let out := fillsOut s e
  let use := 4 + (eng s e).acq
  if 16 ≤ out.length ∨ out.any (fun b => b.use == use && b.addr == a / 256 * 256) then s
  else engBurst s e false (a / 256 * 256) 256 [] use

/-- Tries an access against the line in entry `k` (R109): done, or its quarter is fetched. -/
def lineAccess (s : State) (e k : Nat) (l : FarLine) (w : FlcWait) : State × Bool :=
  let ks := lineSectors w.addr w.len
  match w.dst with
  | some d =>
    if ks.all fun i => bit l.valid i then
      (loadPut (putLine s e k l) e w.wave d (l.get (w.addr % 1024) w.len), true)
    else (fetchQuarter s e w.addr, false)
  | none =>
    if ks.all fun i => bit l.valid i || coversSector w.addr w.len i then
      let l := { l with valid := ks.foldl (fun m i => maskPut m i true) l.valid,
                        dirty := ks.foldl (fun m i => maskPut m i true) l.dirty }
      (putLine s e k (l.put (w.addr % 1024) w.data), true)
    else (fetchQuarter s e w.addr, false)

/-- The burst of an access that bypasses the cache: whole 64-byte lines for a load, the bytes themselves for a store,
whose acknowledgement releases wait for (R110, R296). -/
def bypassBurst (s : State) (e : Nat) (w : FlcWait) : State :=
  match w.dst with
  | some _ => engBurst s e false (w.addr / 64 * 64) (ceilDiv (w.addr % 64 + w.len) 64 * 64) [] 1
  | none => engBurst s e true w.addr w.len w.data 3

/-- Write-backs of engine `e` not yet acknowledged. -/
def writeBacksOut (s : State) (e : Nat) : List Burst := (burstsOut s).filter fun b => b.req == e && b.use == 2

/-- Takes a line of a departing group that has been written back out of the cache, so that an access to it is a miss
(R112). -/
def dropDeparting (s : State) (e a : Nat) : State :=
  match findLine (eng s e) a with
  | none => s
  | some (k, l) =>
    if k / 8 < groupsOpen (eng s e) ∨ l.dirty ≠ 0 ∨ (writeBacksOut s e).any (fun b => b.addr / 1024 == l.tag) then s
    else setEng s e { eng s e with lines := tabDrop k (eng s e).lines }

/-- Tries an access of the cache: the state, and whether it has been served. A line in a departing group makes it wait
until it has been written back (R112); with no group that allocates it goes past the cache. -/
def farTry (s : State) (e : Nat) (w : FlcWait) : State × Option FlcWait :=
  let done (r : State × Bool) : State × Option FlcWait := (r.1, if r.2 then none else some w)
  let s := dropDeparting s e w.addr
  match findLine (eng s e) w.addr with
  | some (k, l) => if k / 8 < groupsOpen (eng s e) then done (lineAccess s e k l w) else (s, some w)
  | none =>
    match allocLine s e w.addr with
    | some (k, s) => done (lineAccess s e k (tabGet (fun _ => ({} : FarLine)) k (eng s e).lines) w)
    | none => (bypassBurst s e w, w.dst.map fun _ => { w with bypass := true })

/-- Tries every waiting access of engine `e`, oldest first. -/
def flcServeList (s : State) (e : Nat) : List FlcWait → State
  | [] => s
  | w :: ws =>
    if w.bypass then flcServeList (setEng s e { eng s e with waits := (eng s e).waits ++ [w] }) e ws
    else
      let r := farTry s e w
      let s := match r.2 with
        | some w => setEng r.1 e { eng r.1 e with waits := (eng r.1 e).waits ++ [w] }
        | none => r.1
      flcServeList s e ws

/-- Tries the waiting accesses again. -/
def flcServe (s : State) (e : Nat) : State :=
  let x := eng s e
  flcServeList (setEng s e { x with waits := [] }) e x.waits

/-! ### Loads and stores (R109, R110, R114) -/

/-- What the check code of the sector at address `a` shows to an access of wave `w` (R114): an uncorrectable clean
sector is dropped, counted and fetched again; a dirty one is lost, and ends the access with 0x42. -/
def farEcc (s : State) (e w a : Nat) (ecc : Ecc) : State × Bool :=
  match findLine (eng s e) a with
  | none => (s, false)
  | some (k, l) =>
    let i := a % 1024 / 64
    if ecc ≠ .uncorrectable ∨ !bit l.valid i then (s, false)
    else
      let s' := putLine s e k { l with valid := maskPut l.valid i false, dirty := maskPut l.dirty i false }
      if bit l.dirty i then (endWork (engRecord s' e w 0x42 (two a)) e w 0x42, true)
      else (countCorrection s' e, false)

/-- Serves an access, or lets it wait. -/
def farAccess (s : State) (e : Nat) (w : FlcWait) : State :=
  flcServeList s e [w]

/-- The bytes of an access at most 128 long, inside one aligned block of 128 bytes. -/
def farLen (a n : Nat) : Nat := clampTo 1 (128 - a % 128) n

/-- Whether every sector of an access is valid in a powered line. -/
def farHit (x : Engine) (a n : Nat) : Bool :=
  match findLine x a with
  | some (_, l) => (lineSectors a n).all fun i => bit l.valid i
  | none => false

/-- A load of wave `w` through the far-line cache in ACLK cycle `c` (R109, R110): `n` bytes at device address `a`, inside
one aligned block of 128 bytes. `ecc` is what the sector of byte `pos` of it shows. -/
def execFarLineLoad (e : Eng) (w : Fin 8) (a : Nat) (n : Nat) (noalloc : Bool) (dst : LoadDst) (pos : Nat) (ecc : Ecc)
    (c : Nat) (s : State) : Out :=
  let s := atAclk s c
  let a := a % 2 ^ 48
  let n := farLen a n
  match issuing s e w with
  | none => .next s
  | some _ =>
    let (s, ended) := if pos < n then farEcc s e w (a + pos) ecc else (s, false)
    let k : FlcWait := { wave := w, addr := a, len := n, dst := some dst }
    if ended then .next s
    else if noalloc ∧ !farHit (eng s e) a n then
      let s := bypassBurst s e k
      .next (setEng s e { eng s e with waits := (eng s e).waits ++ [{ k with bypass := true }] })
    else .next (farAccess s e k)

/-- A no-allocate store (R110): valid sectors take its bytes; when all are valid they are written back, else the bytes
go to memory past the cache. -/
def storeNoAlloc (s : State) (e : Nat) (w : FlcWait) : State :=
  let hit := farHit (eng s e) w.addr w.len
  let s := match findLine (eng s e) w.addr with
    | none => s
    | some (k, l) =>
      let ks := (lineSectors w.addr w.len).filter fun i => bit l.valid i
      let bytes := (w.data.mapIdx fun i b => (w.addr % 1024 + i, b)).filter fun b => ks.contains (b.1 / 64)
      let l := bytes.foldl (fun (l : FarLine) b => l.put b.1 [b.2]) l
      if hit then
        let s := writeBackSectors s e l ks
        putLine s e k { l with dirty := ks.foldl (fun m i => maskPut m i false) l.dirty }
      else putLine s e k l
  if hit then s else bypassBurst s e w

/-- A store of wave `w` through the far-line cache in ACLK cycle `c` (R109, R110): bytes at device address `a`, inside one
aligned block of 128 bytes. `ecc` is what the partly covered sector of byte `pos` of it shows. -/
def execFarLineStore (e : Eng) (w : Fin 8) (a : Nat) (data : List Byte) (noalloc : Bool) (pos : Nat) (ecc : Ecc)
    (c : Nat) (s : State) : Out :=
  let s := atAclk s c
  let a := a % 2 ^ 48
  let data := data.take (128 - a % 128)
  match issuing s e w with
  | none => .next s
  | some _ =>
    let n := data.length
    let (s, ended) := if pos < n ∧ !coversSector a n ((a + pos) % 1024 / 64) then farEcc s e w (a + pos) ecc else (s, false)
    let k : FlcWait := { wave := w, addr := a, len := n, data := data }
    if ended ∨ n = 0 then .next s
    else if noalloc then .next (storeNoAlloc s e k)
    else .next (farAccess s e k)

/-! ### Fills (R109, R327) -/

/-- Takes the first fill of engine `e` out of the replies that have arrived. -/
def takeFill (e : Nat) : List Reply → Option (Reply × List Reply)
  | [] => none
  | r :: rs =>
    if r.burst.req = e ∧ !r.burst.write then some (r, rs)
    else (takeFill e rs).map fun (x, l) => (x, r :: l)

/-- Whether a fill serves a waiting access. -/
def fillServes (b : Burst) (w : FlcWait) : Bool :=
  if b.use = 1 then w.bypass && b.addr == w.addr / 64 * 64 else !w.bypass && b.addr == w.addr / 256 * 256

/-- Ends the work of each of a list of waiting accesses with an error. -/
def endFarWaits (s : State) (e err : Nat) : List FlcWait → State
  | [] => s
  | w :: ws => endFarWaits (endWork s e w.wave err) e err ws

/-- Installs the sectors of a quarter that its line does not hold. -/
def installQuarter (l : FarLine) (a : Nat) (data : List Byte) : FarLine :=
  (List.range 4).foldl (fun (l : FarLine) i =>
    let k := a % 1024 / 64 + i
    if bit l.valid k then l
    else { l.put (64 * k) ((data.drop (64 * i)).take 64) with valid := maskPut l.valid k true }) l

/-- A load that bypassed the cache takes the bytes of its burst, with those of valid sectors in front. -/
def bypassData (x : Engine) (w : FlcWait) (r : Reply) : List Byte :=
  let raw := (r.data.drop (w.addr - r.burst.addr)).take w.len
  match findLine x w.addr with
  | none => raw
  | some (_, l) => raw.mapIdx fun i b => if bit l.valid ((w.addr + i) % 1024 / 64) then l.byte ((w.addr + i) % 1024) else b

/-- A fill burst arrives at engine `e` in ACLK cycle `c` (R109): its line takes the sectors it lacks and the accesses that
wait are served; an error ends their work (R30, R327). -/
def execFarLineFill (e : Eng) (c : Nat) (s : State) : Out :=
  let s := atAclk s c
  match takeFill e s.arrived with
  | none => .next s
  | some (r, rest) =>
    let s := { s with arrived := rest }
    let x := eng s e
    let b := r.burst
    let hits := x.waits.filter (fillServes b)
    if 4 ≤ b.use ∧ b.use ≠ 4 + x.acq then .next (flcServe s e)
    else if r.err ≠ 0 then
      let w := (hits.head?.map (·.wave)).getD 32
      let s := if r.err = 0x92 then engRecord s e w 0x92 (two b.addr) else s
      let s := setEng s e { eng s e with waits := x.waits.filter fun k => !fillServes b k }
      .next (flcServe (endFarWaits s e r.err hits) e)
    else if b.use = 1 then
      match hits with
      | [] => .next s
      | w :: _ =>
        let s := match w.dst with
          | some d => loadPut s e w.wave d (bypassData x w r)
          | none => s
        .next (setEng s e { eng s e with waits := (eng s e).waits.erase w })
    else
      let at? := match findLine x b.addr with
        | some k => some (k.1, s)
        | none => if hits.isEmpty then none else allocLine s e b.addr
      match at? with
      | none => .next (flcServe s e)
      | some (k, s) =>
        let l : FarLine := tabGet (fun _ => {}) k (eng s e).lines
        .next (flcServe (putLine s e k (installQuarter l b.addr r.data)) e)

/-! ### Power groups and cleaning (R112) -/

/-- Starts the change to the GROUPS_ON written last, when none is in progress: departing groups are written back, the
highest first; new ones power up. -/
def groupsStart (s : State) (e : Nat) : State :=
  let x := eng s e
  let t := fld s (engOff e 0x2C) 0 3
  if x.flcTarget.isSome ∨ t = x.flcOn then s
  else
    let s := setEng s e { x with flcTarget := some t, flcSince := aclk s }
    flcCleanLines s e ((List.range x.flcOn).reverse.flatMap fun g =>
      if t ≤ g then (List.range 8).map (8 * g + ·) else [])

/-- A write-back of the dirty sector `k` of line `n` that finds it uncorrectable drops it, with 0x42 (R114). -/
def dropSector (s : State) (e : Nat) : Option (Fin 48 × Fin 16) → State
  | none => s
  | some (n, k) =>
    match tabFind n.val (eng s e).lines with
    | none => s
    | some l =>
      if !bit l.dirty k then s
      else
        let s := putLine s e n { l with valid := maskPut l.valid k false, dirty := maskPut l.dirty k false }
        let w := ((eng s e).waves.head?.map (·.vbase / 16)).getD 32
        endWork (engRecord s e w 0x42 (two (l.tag * 1024 + 64 * k.val))) e w 0x42

/-- A new value of ENG_FLC.GROUPS_ON is written in ACLK cycle `c` (R112); during a change it takes effect when that ends. -/
def execFlcGroupsChange (e : Eng) (n : Nat) (bad : Option (Fin 48 × Fin 16)) (c : Nat) (s : State) : Out :=
  let s := atAclk s c
  if !bit (fld s pwrDomainOff 8 4) (e / 16) then .next s
  else
    let n := min 6 (n % 8)
    let s := setFld s (engOff e 0x2C) 0 3 n
    let s := setEng s e { eng s e with flcSaved := n }
    .next (groupsStart (if (eng s e).flcTarget.isNone ∧ n < (eng s e).flcOn then dropSector s e bad else s) e)

/-- The highest departing group of engine `e` powers off once its write-backs are acknowledged (R112). -/
def execFlcGroupPowerOff (e : Eng) (c : Nat) (s : State) : Out :=
  let s := atAclk s c
  let x := eng s e
  match x.flcTarget with
  | none => .next s
  | some t =>
    let g := x.flcOn - 1
    let mine := x.lines.filter fun k => k.1 / 8 == g
    if x.flcOn ≤ t ∨ (writeBacksOut s e).any fun b => mine.any fun k => k.2.tag == b.addr / 1024 then
      .next (flcServe s e)
    else
      let s := setEng s e { x with lines := x.lines.filter (fun k => k.1 / 8 != g), flcOn := g,
                                   flcTarget := if g = t then none else some t }
      .next (flcServe (groupsStart s e) e)

/-- New groups serve allocations 2,000 ACLK cycles after the write (R112). -/
def execFlcGroupReady (e : Eng) (c : Nat) (s : State) : Out :=
  let s := atAclk s c
  let x := eng s e
  match x.flcTarget with
  | none => .next s
  | some t =>
    if t ≤ x.flcOn ∨ aclk s < x.flcSince + 2000 then .next s
    else .next (groupsStart (setEng s e { x with flcOn := t, flcTarget := none }) e)

/-- Writing 1 to ENG_FLC.CLEAN writes back every dirty sector (R112); CLEAN reads 1 until they are acknowledged. -/
def execFlcClean (e : Eng) (bad : Option (Fin 48 × Fin 16)) (c : Nat) (s : State) : Out :=
  let s := atAclk s c
  if !bit (fld s pwrDomainOff 8 4) (e / 16) then .next s
  else
    let s := flcClean (dropSector s e bad) e
    .next (if (writeBacksOut s e).isEmpty then s else setFld s (engOff e 0x2C) 8 1 1)

/-- The last write-back of a cleaning is acknowledged and CLEAN reads 0. -/
def execFlcCleanDone (e : Eng) (c : Nat) (s : State) : Out :=
  let s := atAclk s c
  .next (if (writeBacksOut s e).isEmpty then setFld s (engOff e 0x2C) 8 1 0 else s)

end Sys2Proof.Machine
end

