-- ==== Sys2Proof/Machine/MemPath.lean ====
section
/-!
DEFINITION. The path of a burst: arbiter rounds, the controllers, the crossbars, the budget windows and the mesh routers
(R306 to R308, R314 to R328).
-/
namespace Sys2Proof.Machine

/-! ### Replies (R314, R324) -/

/-- The wave whose work a burst of engine `e` belongs to: a waiting access's, else the running step's, else the first
resident wave's. 32 names none. -/
def burstWave (s : State) (e : Nat) (b : Burst) : Nat :=
  let x := eng s e
  match x.waits.find? (fillServes b) with
  | some w => w.wave
  | none =>
    match x.waves.find? fun w => w.work == .step with
    | some w => w.vbase / 16
    | none => (x.waves.head?.map (·.vbase / 16)).getD 32

/-- Whose work a burst is, for a record. -/
def burstWho (s : State) (b : Burst) : Who :=
  if b.req < 64 then whoWave s b.req (burstWave s b.req b) else {}

/-- The acknowledgement of a write reaches engine `e` (R111, R296); an error ends its work (R30, R327). -/
def writeAck (s : State) (b : Burst) (err : Nat) : State :=
  if 64 ≤ b.req then s
  else
    let e := b.req
    let x := eng s e
    let s := if b.use = 2 ∨ b.use = 3 then setEng s e { x with outstanding := x.outstanding - 1 } else s
    if err = 0 then s
    else
      let w := burstWave s e b
      let s := if err = 0x92 then engRecord s e w 0x92 (two b.addr) else s
      endWork s e w err

/-- The first reply that belongs to a burst. -/
def takeReply (b : Burst) : List Reply → Option (Reply × List Reply)
  | [] => none
  | r :: rs => if r.burst = b then some (r, rs) else (takeReply b rs).map fun (x, l) => (x, r :: l)

/-- A crossbar delivers the reply of a granted burst; one for a masked requester is discarded (R324). -/
def deliver (s : State) (b : Burst) : State :=
  match takeReply b s.replies with
  | none => s
  | some (r, rest) =>
    let s := { s with replies := rest }
    if masked s b.req then s
    else if b.write then writeAck s b r.err
    else if b.req < 64 then { s with arrived := s.arrived ++ [r] }
    else s

/-- Delivers a list of granted bursts. -/
def deliverAll (s : State) : List Burst → State
  | [] => s
  | b :: bs => deliverAll (deliver s b) bs

/-! ### Rounds (R315 to R319) -/

/-- A round at arbiter `a` in ACLK cycle `c` (R315 to R317). `rise` are requests of the units outside the engines that
rise in it and join the next round, `lower` those units that lower theirs. A crossbar's grant delivers a reply. -/
def execArbitrationRound (a : Arb) (rise : List Burst) (lower : List (Fin 88)) (c : Nat) (s : State) : Out :=
  let s := arbRound (atAclk s c) a
  let rise := rise.filter fun b =>
    Nat.ble 64 b.req && Nat.blt b.req 88 && Nat.blt a 16 && !isHost b.addr && (stripeOf b.addr).1 == a.val
      && Nat.blt 0 b.len && b.addr % 256 + b.len ≤ 256
  let s := arbJoin s a rise ((lower.map (·.val)).filter (64 ≤ ·))
  if a.val < 16 then .next s
  else
    let x := arb s a
    .next (deliverAll (setArb s a { x with granted := [] }) x.granted)

/-! ### Controllers (R307, R310, R326, R327) -/

/-- Whether two bursts touch a common 64-byte line. -/
def sameLine (a b : Burst) : Bool :=
  Nat.ble (a.addr / 64) ((b.addr + b.len - 1) / 64) && Nat.ble (b.addr / 64) ((a.addr + a.len - 1) / 64)

/-- Whether the `k`-th granted burst of a list may be performed next: no earlier one shares a line with it (R307). -/
def mayPerform (l : List Burst) (k : Nat) : Bool :=
  match l[k]? with
  | some b => !(l.take k).any (sameLine b)
  | none => false

/-- The reply of a burst at controller `m` is raised at its sector's crossbar (R314); the PCIe controller's writes are
posted. -/
def sendReply (s : State) (m : Nat) (b : Burst) (data : List Byte) (err : Nat) : State :=
  if 16 ≤ m then
    if b.write then writeAck s b err
    else if masked s b.req then s
    else { s with arrived := s.arrived ++ [{ burst := b, data := data, err := err }] }
  else
    let x := arb s (16 + m / 4)
    let s := setArb s (16 + m / 4) { x with raised := x.raised ++ [b] }
    { s with replies := s.replies ++ [{ burst := b, data := data, err := err }] }

/-- Counts the beats of a burst (R329). -/
def countBeats (s : State) (m : Nat) (b : Burst) : State :=
  let s := bump s (mcOff m (if b.write then 0x08 else 0x04)) (beatsOf b)
  if b.rt then bump s (mcOff m 0x0C) (beatsOf b) else s

/-- The bytes of a write but for those of the uncorrectable word at `a` (R327). -/
def putButWord (s : State) (b : Burst) (a : Nat) : State :=
  let lo := max b.addr (a / 8 * 8)
  let hi := min (b.addr + b.len) (a / 8 * 8 + 8)
  let s := putBurst s b.tag b.addr (b.data.take (lo - b.addr))
  putBurst s b.tag hi ((b.data.drop (hi - b.addr)).take (b.addr + b.len - hi))

/-- A controller performs burst `b` that has left its queue (R306, R310, R326, R327). -/
def performBurst (s : State) (m : Nat) (b : Burst) (pos : Nat) (ecc : Ecc) : State :=
  let ok := if b.write then writable s b.tag b.addr b.len else inRange s b.tag b.addr b.len
  if !ok then
    sendReply (violation s b.tag b.req b.addr (burstWho s b)) m b [] 0x90
  else if 16 ≤ m then
    if b.write then sendReply (putBurst s b.tag b.addr b.data) m b [] 0
    else { s with hostReads := s.hostReads ++ [b] }
  else
    let s := countBeats s m b
    let a := b.addr + pos
    let part := decide (a / 8 * 8 < b.addr ∨ b.addr + b.len < a / 8 * 8 + 8)
    let seen := decide (pos < b.len) && (!b.write || part)
    let s := if seen then mcEcc s a ecc else s
    if seen ∧ ecc = .uncorrectable then
      sendReply (if b.write then putButWord s b a else s) m b [] 0x92
    else if b.write then sendReply (putBurst s b.tag b.addr b.data) m b [] 0
    else sendReply s m b (devBytes s b.tag b.addr b.len) 0

/-- Controller `m` serves: it is trained and out of self-refresh; the PCIe controller (16) is powered. -/
def mcServes (s : State) (m : Nat) : Bool :=
  if m < 16 then fld s (mcOff m 0) 0 2 == 1 else fld s pwrDomainOff 0 1 == 1

/-- Memory controller `m`, or the PCIe controller (16), performs its `k`-th granted burst in ACLK cycle `c` (R307); `ecc`
is what the word at byte `pos` of it shows. -/
def execMemoryBurst (m : Fin 17) (k pos : Nat) (ecc : Ecc) (c : Nat) (s : State) : Out :=
  let s := atAclk s c
  let i := if m.val < 16 then m.val else 20
  let x := arb s i
  match x.granted[k]? with
  | none => .next s
  | some b =>
    if !mayPerform x.granted k || !mcServes s m then .next s
    else .next (performBurst (setArb s i { x with granted := x.granted.eraseIdx k }) m b pos ecc)

/-- A corrected word of controller `m` is written back when its bank is idle (R326). Memory holds the corrected value
already. -/
def execMcCorrectionWriteback (m : Mc) (s : State) : Out :=
  let x := mcOf s m
  .next (setMc s m { x with corrections := x.corrections.drop 1 })

/-- Device address of 64-byte line `n` of controller `m` (R305). -/
def lineAddr (m n : Nat) : Nat :=
  let loc := n * 64
  let b := loc / 256
  let x := Nat.xor (Nat.xor m (b % 16)) (Nat.xor (b / 16 % 16) (b / 256 % 16))
  (b * 16 + x) * 256 + loc % 256

/-- The patrol scrubber of controller `m` reads its next line in ACLK cycle `c` (R328). -/
def execMcPatrolScrub (m : Mc) (c : Nat) (ecc : Ecc) (s : State) : Out :=
  let s := atAclk s c
  let x := mcOf s m
  if fld s (mcOff m 0x1C) 0 1 = 0 ∨ !mcServes s m ∨ aclk s < x.scrubAt + fld s (mcOff m 0x1C) 8 8 * 1024 then .next s
  else
    let next := if (x.line + 1) * 64 * 16 < capacity s then x.line + 1 else 0
    .next (mcEcc (setMc s m { x with scrubAt := aclk s, line := next }) (lineAddr m x.line) ecc)

/-! ### Budget windows (R321) -/

/-- The budget window of port arbiter `a` closes by ACLK cycle `c` (R321). -/
def execRtWindowClose (a : Mc) (c : Nat) (s : State) : Out :=
  let s := atAclk s c
  let x := arb s a
  let win := fld s (arbOff a 0) 16 8
  if aclk s < x.winFrom + win * 1024 then .next s
  else
    let n := x.beats
    let s := setArb s a { x with winFrom := x.winFrom + win * 1024, beats := 0 }
    let share := min 1000 (n * 10000 / (win * 12288))
    let s := setFld s (arbOff a 0x18) 0 10 (max (fld s (arbOff a 0x18) 0 10) share)
    if n * 25 ≤ win * 18432 then .next s
    else
      let s := bump s (arbOff a 0x14)
      if fld s (arbOff a 0x04) 1 1 = 1 then .next s
      else
        let s := setFld s (arbOff a 0x04) 1 1 1
        .next (append s { code := 0x94, kind := 6, unit := a, detail := [a, n] })

/-! ### Mesh routers (R23, R24, R308) -/

/-- Column and row of engine `e` (R23). -/
def meshPos (e : Nat) : Nat × Nat :=
  (e / 16 % 2 * 4 + e / 4 % 2 * 2 + e % 2, e / 32 * 4 + e / 8 % 2 * 2 + e / 2 % 2)

/-- The engine at a column and row. -/
def meshAt (x y : Nat) : Nat :=
  (y / 4 * 2 + x / 4) * 16 + (y / 2 % 2 * 2 + x / 2 % 2) * 4 + y % 2 * 2 + x % 2

/-- The output a packet for `dst` takes at router `r` (R24): along the row first, then along the column. 0 north,
1 east, 2 south, 3 west, 4 the engine. -/
def meshRoute (r dst : Nat) : Nat :=
  let (x, y) := meshPos r
  let (u, v) := meshPos dst
  if x < u then 1 else if u < x then 3 else if y < v then 2 else if v < y then 0 else 4

/-- The neighbour of router `r` at an output, and the input at which a packet arrives there. -/
def meshNext (r out : Nat) : Nat × Nat :=
  let (x, y) := meshPos r
  match out with
  | 0 => (meshAt x (y - 1), 2)
  | 1 => (meshAt (x + 1) y, 3)
  | 2 => (meshAt x (y + 1), 0)
  | _ => (meshAt (x - 1) y, 1)

/-- Router `r`. -/
def router (s : State) (r : Nat) : Router := tabGet (fun _ => {}) r s.routers

/-- Replaces router `r`. -/
def setRouter (s : State) (r : Nat) (x : Router) : State := { s with routers := tabPut (fun _ => {}) r x s.routers }

/-- The packet that an input offers an output in a class: the oldest one, behind no packet of its own source and
destination (R24). -/
def meshOffer (r out : Nat) (rt : Bool) : List MeshPkt → List MeshPkt → Option MeshPkt
  | _, [] => none
  | before, p :: ps =>
    if p.rt = rt ∧ meshRoute r p.dst = out ∧ !before.any (fun q => q.src == p.src && q.dst == p.dst) then some p
    else meshOffer r out rt (before ++ [p]) ps

/-- The input whose turn it is at an output in a class, with its packet (R308). -/
def meshPick (x : Router) (r out : Nat) (rt : Bool) : Option (Nat × MeshPkt) :=
  let turn := tabGet (fun _ => 0) (out * 2 + b2n rt) x.turn
  ((List.range 5).filterMap fun k =>
    let i := (turn + k) % 5
    (meshOffer r out rt [] (tabGet (fun _ => []) i x.inq)).map fun p => (i, p)).head?

/-- A packet arrives at an input of a router. -/
def meshPush (s : State) (r i : Nat) (p : MeshPkt) : State :=
  let x := router s r
  setRouter s r { x with inq := tabPut (fun _ => []) i (tabGet (fun _ => []) i x.inq ++ [p]) x.inq }

/-- Router `r` forwards one packet on output `out`, real-time before bulk and its inputs in turn (R308); `join` are
packets that its own engine sends. -/
def execMeshForward (r : Eng) (out : Fin 5) (join : List MeshPkt) (s : State) : Out :=
  let s := (join.filter fun p => p.src == r).foldl (fun s p => meshPush s r 4 p) s
  let x := router s r
  let pick := match meshPick x r out true with
    | some k => some k
    | none => meshPick x r out false
  match pick with
  | none => .next s
  | some (i, p) =>
    let s := setRouter s r { inq := tabPut (fun _ => []) i ((tabGet (fun _ => []) i x.inq).erase p) x.inq,
                             turn := tabPut (fun _ => 0) (out * 2 + b2n p.rt) ((i + 1) % 5) x.turn }
    if out.val = 4 then .next { s with meshOut := s.meshOut ++ [p] }
    else
      let n := meshNext r out
      .next (meshPush s n.1 n.2 p)

end Sys2Proof.Machine
end

