-- ==== Sys2Proof/Machine/Views.lean ====
section
/-!
DEFINITION. Registers as they are read and as the host writes them: the words that report live state, the domains that
are off, the latches, and what a host write reaches (R14, R15, R17, R436, R437, R444, R461, R482, R552).
-/
namespace Sys2Proof.Machine

/-! ### What a register reads as -/

/-- Whether the domain of a register's block is on (R545, R552): the tables of the management plane always are. -/
def regPowered (s : State) (off : Nat) : Bool :=
  let on (i : Nat) : Bool := bit (rd s pwrDomainOff) i
  if off < lcBase then true
  else if off < engBase then on 1
  else if off < qdBase then on (8 + (off - engBase) / 0x1000)
  else if off < secBase then on (8 + (off - qdBase) / 0x80)
  else if off < synBase then (if off < secBase + 0x800 then on (8 + (off - secBase) / 0x100) else on 4)
  else if off < synBase + 0x8000 then on (8 + (off - synBase) / 0x2000)
  else if off < synBase + 0x9000 then on 4
  else if off < arbBase then on (8 + (off - synBase - 0x9000) / 0x40)
  else if off < mcBase then on 4
  else if off < cxBase then on 2
  else if off < cmpBase then on (8 + (off - cxBase) / 0x40)
  else if off < capBase then on (16 + (off - cmpBase) / 0x4000)
  else if off < msixBase then on (20 + (off - capBase) / 0x800)
  else if off < feBase then on 0
  else on 4

/-- The state of the ALERT pin (R463, R472): a reply by the serial port's request waits with IRQ set, or a record at or
above SEVERITY is held. -/
def alertPin (s : State) : Bool :=
  ((List.range 8).any fun m => let c := rd s (mbOff m 0x80); bit c 2 && bit c 3 && bits c 4 2 == 1)
    || s.log.recs.any fun r => Nat.ble s.log.severity r.sev

/-- The whole ms left on the oldest running timer of slot `n` (R426, R430): its flow timer, or that of a job. -/
def slotLeft (s : State) (n : Nat) : Nat :=
  let sl := slotOf s n
  let js := (jobsOf s sl.queue).map fun j => (j.since, j.limit, j.paused.getD s.now)
  let fs := match sl.flowFrom with
    | some f => [(f, sl.flowLimit, s.now)]
    | none => []
  match (fs ++ js).foldl (fun (m : Option (Nat × Nat × Nat)) x => match m with
      | some y => if x.1 < y.1 then some x else m
      | none => some x) none with
  | some (f, l, t) => (f + l * msUnits - t) / msUnits
  | none => 0

/-- FE_QSLOT.STATE. -/
def SlotMode.code : SlotMode → Nat
  | .idle => 0 | .fetching => 1 | .held => 2 | .halted => 3 | .draining => 4

/-- A word of FE_QSLOT[n] (R430). -/
def slotWord (s : State) (n r : Nat) : Nat :=
  let x := slotOf s n
  let q := que s x.queue
  let rq := x.req.getD (0, 0, 0)
  if !x.valid then 0
  else match r with
    | 0x00 => x.queue + 2 ^ 15 + x.mode.code * 2 ^ 16 + effPrio s x.queue * 2 ^ 20 + b2n q.kernel * 2 ^ 23
                + b2n x.rung * 2 ^ 24 + x.hold * 2 ^ 26
    | 0x04 => x.wptr
    | 0x08 => x.rptr
    | 0x0C => x.calls.length + x.loops.length * 2 ^ 4 + x.ctx.getD 0 * 2 ^ 16 + b2n x.ctx.isNone * 2 ^ 31
    | 0x10 => q.seq % 2 ^ 32
    | 0x18 => rq.1 % 2 ^ 32
    | 0x1C => rq.1 / 2 ^ 32 + rq.2.2 * 2 ^ 16 + b2n x.req.isSome * 2 ^ 31
    | 0x20 => rq.2.1
    | 0x24 => slotLeft s n
    | 0x28 => if x.inEntry then cmdAddr s n % 2 ^ 32 else 0
    | _ => 0

/-- FE_STATUS (R430). -/
def feStatus (s : State) : Nat :=
  let n (f : SlotSt → Bool) : Nat := (s.slots.filter fun x => x.2.valid && f x.2).length
  n (fun _ => true) + n (fun x => x.mode == .held) * 2 ^ 8 + n (fun x => x.mode == .halted) * 2 ^ 16
    + n (fun x => x.req.isSome) * 2 ^ 24

/-- Queue `q`'s read pointer: its slot's while it is slotted (R430). -/
def queueRptr (s : State) (q : Nat) : Nat :=
  match (que s q).slot with
  | some n => (slotOf s n).rptr
  | none => (que s q).rptr

/-- STATUS of fence slot `k` (R301). -/
def fslotStatus (s : State) (k : Nat) : Nat :=
  let x := fslot s k
  if !x.valid then 0
  else b2n x.regress + b2n (x.value == 2 ^ 64 - 1) * 2 + b2n x.abandoned * 4 + b2n (pinned s k) * 8
        + min 64 x.waiters.length * 2 ^ 8

/-- A word of SYN_FSLOT[k] (R301); VAL_HI is the latched half. -/
def fslotWord (s : State) (k r : Nat) : Nat :=
  let x := fslot s k
  match r with
  | 0x00 => if x.valid then x.addr % 2 ^ 32 else 0
  | 0x04 => if x.valid then x.addr / 2 ^ 32 + x.part * 2 ^ 24 + 2 ^ 31 else 0
  | 0x08 => if x.valid then x.value % 2 ^ 32 else 0
  | 0x0C => rd s (synBase + 0x8000 + 0x20 * k + 0x0C)
  | _ => fslotStatus s k

/-- SYN_FSTAT (R301). -/
def fenceStat (s : State) : Nat :=
  (s.fslots.filter fun x => x.2.valid).length + ((List.range 48).filter (pinned s)).length * 2 ^ 8
    + min 65535 s.fwaiting.length * 2 ^ 16

/-- CX_STATUS of engine `k` (R359). -/
def cxStatus (s : State) (k : Nat) : Nat :=
  let x := cxOf s k
  let job := x.run.bind fun r => (jobOf s r.key).map fun j => (r, j)
  b2n (x.run.isSome || x.xfer.isSome) + b2n x.xfer.isSome * 2
    + b2n (x.run.isSome && (x.xfer.isSome || xferWaits s k)) * 4
    + (match job with
       | some (r, j) => cdMode r.desc * 2 ^ 4 + cdLevel r.desc * 2 ^ 8 + ((que s j.queue).slot.getD 0) * 2 ^ 24
       | none => 0)
    + (match x.xfer, x.run with
       | some t, _ => t.part
       | none, some r => r.part
       | none, none => 0) * 2 ^ 16

/-- ENG_STATUS of engine `e` (R124): FAILED is stored. -/
def engStatus (s : State) (e : Nat) : Nat :=
  let x := eng s e
  let w := workOf s e
  b2n (w != .idle) + b2n (x.waves.any (·.spin.isSome)) * 2 + fld s (engOff e 8) 2 1 * 4 + b2n x.clk * 8
    + x.waves.length * 2 ^ 4 + w.code * 2 ^ 8

/-- CMP_STATUS of pipe `p` (R544): the line scanned out last, active lines first. -/
def cmpStatus (s : State) (p : Nat) : Nat :=
  let x := pipeOf s p
  let line := if pipeOn s p then (x.line + x.vtot - 1) % max 1 x.vtot else 0
  line + b2n (pipeOn s p && Nat.ble x.vact line) * 2 ^ 16 + b2n x.armed.isSome * 2 ^ 17 + b2n x.hpd * 2 ^ 18
    + b2n x.link * 2 ^ 19 + b2n x.training * 2 ^ 20 + b2n (pipeHostOff s p) * 2 ^ 21

/-- LC_STATUS (R85): the W1C bits are stored. -/
def lcStatusWord (s : State) : Nat :=
  let m := match s.lc.mode with
    | .locked => 0 | .acquiring => 1 | .freewheel => 2
  rd s lcStatusOff / 2 ^ 8 * 2 ^ 8 + m + (if s.lc.mode = .locked then 0 else s.lc.acqCount) * 4

/-- A word of function `p`'s MSI-X table or pending bits (R444). -/
def msixWord (s : State) (p r : Nat) : Nat :=
  if r < 0x400 then
    let x := vec s p (r / 16)
    match r % 16 with
    | 0 => x.addr % 2 ^ 32
    | 4 => x.addr / 2 ^ 32
    | 8 => x.data
    | _ => b2n x.masked
  else if r = 0x8000 ∨ r = 0x8004 then
    ((List.range 32).map fun i => b2n (vec s p ((r - 0x8000) * 8 + i)).pend * 2 ^ i).sum
  else 0

/-- The word at MW0 offset `off` as the PF or the serial port reads it (R436, R437): live state where the register
reports it, the stored word elsewhere. -/
def liveWord (s : State) (off : Nat) : Nat :=
  if msixBase ≤ off ∧ off < msixBase + 0x10000 then msixWord s 0 (off - msixBase)
  else if fieldsAt off = [] then 0
  else if lcBase ≤ off ∧ off < engBase then
    (match off - lcBase with
     | 0x00 => lcLp s (wake s)
     | 0x20 => lcStatusWord s
     | 0x24 => s.lc.fperiod
     | 0x28 => s.lc.lperiod
     | 0x34 => s.lc.edgeAt % 2 ^ 32
     | _ => rd s off)
  else if engBase ≤ off ∧ off < qdBase then
    (let e := (off - engBase) / 0x100
     match off % 0x100 with
     | 0x08 => engStatus s e
     | 0x30 => (eng s e).flcOn + b2n (eng s e).flcTarget.isSome * 2 ^ 8
     | _ => rd s off)
  else if synBase + 0x8000 ≤ off ∧ off < synBase + 0x8600 then
    fslotWord s ((off - synBase - 0x8000) / 0x20) (off % 0x20)
  else if off = synBase + 0x8800 then fenceStat s
  else if arbBase ≤ off ∧ off < mcBase ∧ off % 0x80 = 4 then
    setBits (rd s off) 0 1 (b2n ((List.range 3).any fun i => rd s (off + 4 + 4 * i) != 0))
  else if cxBase ≤ off ∧ off < cmpBase then
    (let k := (off - cxBase) / 0x40
     match off % 0x40 with
     | 0x00 => cxStatus s k
     | 0x04 => (cxOf s k).inBytes / 64
     | 0x08 => (cxOf s k).outBytes / 64
     | 0x18 => min 255 (s.compWaits.filter fun c => c.sectors.contains k).length
     | _ => rd s off)
  else if cmpBase ≤ off ∧ off < capBase ∧ off % 0x4000 = 0x64 then cmpStatus s ((off - cmpBase) / 0x4000)
  else if capBase ≤ off ∧ off < msixBase ∧ 0x100 ≤ off % 0x800 ∧ off % 0x80 = 0 then
    setBits (rd s off) 8 1 (b2n (capJoined s ((off - capBase) / 0x800) ((off % 0x800 - 0x100) / 0x80)))
  else if off = mbStatOff then
    setBits (setBits (rd s off) 1 1 (b2n (alertPin s))) 8 8
      (((List.range 8).map fun m => fld s (mbOff m 0x80) 0 1 * 2 ^ m).sum)
  else if feBase ≤ off then
    (let r := off - feBase
     if r = 4 then feStatus s
     else if 0x1000 ≤ r ∧ r < 0x2000 then
       (if r % 0x40 = 0x14 ∨ r % 0x40 = 0x2C then rd s off else slotWord s ((r - 0x1000) / 0x40) (r % 0x40))
     else if 0x2000 ≤ r ∧ r < 0x12000 then
       (match r % 0x10 with
        | 0 => compWord s ((r - 0x2000) / 0x10) % 2 ^ 32
        | 8 => cerrWord s ((r - 0x2000) / 0x10) % 2 ^ 32
        | _ => rd s off)
     else if 0x12000 ≤ r then queueRptr s ((r - 0x12000) / 4)
     else rd s off)
  else rd s off

/-- What a 4-byte read of the low half of a pair latches into its high half. -/
def latchRead (s : State) (off : Nat) : State :=
  let slot (r : Nat) : Nat := (r - 0x1000) / 0x40
  if off = lcBase then wr s (off + 4) s.lc.frame
  else if off = lcBase + 0x34 then wr s (off + 4) (s.lc.edgeAt / 2 ^ 32)
  else if synBase + 0x8000 ≤ off ∧ off < synBase + 0x8600 ∧ off % 0x20 = 8 then
    (let x := fslot s ((off - synBase - 0x8000) / 0x20)
     wr s (off + 4) (if x.valid then x.value / 2 ^ 32 else 0))
  else if feBase + 0x1000 ≤ off ∧ off < feBase + 0x2000 ∧ off % 0x40 = 0x10 then
    wr s (off + 4) (if (slotOf s (slot (off - feBase))).valid then
      (que s (slotOf s (slot (off - feBase))).queue).seq % 2 ^ 48 / 2 ^ 32 else 0)
  else if feBase + 0x1000 ≤ off ∧ off < feBase + 0x2000 ∧ off % 0x40 = 0x28 then
    wr s (off + 4) (if (slotOf s (slot (off - feBase))).valid && (slotOf s (slot (off - feBase))).inEntry then
      cmdAddr s (slot (off - feBase)) % 2 ^ 48 / 2 ^ 32 else 0)
  else if feBase + 0x2000 ≤ off ∧ off < feBase + 0x12000 ∧ off % 8 = 0 then
    (let q := (off - feBase - 0x2000) / 0x10
     wr s (off + 4) ((if off % 16 = 0 then compWord s q else cerrWord s q) / 2 ^ 32))
  else s

/-- A 4-byte read of MW0 offset `off`: its word, and the state after its latches. A register of a domain that is off
reads 0 (R459, R552), and so does an unlisted offset (R436). -/
def readReg (s : State) (off : Nat) : Nat × State :=
  let off := off / 4 * 4
  if !regPowered s off then (0, s) else (liveWord s off % 2 ^ 32, latchRead s off)

/-! ### What the host writes (R436, R437, R461) -/

/-- A host write of `v` to MB_CTL[m] (R463, R464): GO at 1 submits, or collides with a message in progress; otherwise DONE
is cleared by its 1 and IRQ takes its bit. -/
def mbCtlWrite (s : State) (m v : Nat) (serial : Bool) : State :=
  let c := rd s (mbOff m 0x80)
  if bit v 0 then
    if bit c 0 then bumpSat s (mbBase + 0x1014) 0 32
    else { wr s (mbOff m 0x80) (1 + 8 * b2n (bit v 3) + (if serial then 0x10 else 0x20)) with mbWait := s.mbWait ++ [m] }
  else wr s (mbOff m 0x80) (setBits (if bit v 2 then setBits c 2 1 0 else c) 3 1 (b2n (bit v 3)))

/-- A 4-byte host write to the MB block (R462, R464, R482): MB_REQ while GO is 0, MB_CTL, and MB_PORT_CFG for the serial
port alone; MB0 is out of reach of PCIe. -/
def mbHostWrite (s : State) (off v : Nat) (serial : Bool) : State :=
  let r := off - mbBase
  let m := r / 0x100
  if r = 0x1004 then (if serial then wr s off (writeFlds (rd s off) v (fieldsAt off)) else s)
  else if 0x800 ≤ r ∨ (m = 0 ∧ !serial) then s
  else if r % 0x100 < 0x40 then (if fld s (mbOff m 0x80) 0 1 = 0 then wr s off v else s)
  else if r % 0x100 = 0x80 then mbCtlWrite s m v serial
  else s

/-- A 4-byte write to function `p`'s MSI-X table (R444, R445): the address, the data, and the mask bit of a vector; an
unmasked vector sends what it has pending. -/
def msixWrite (s : State) (p r v : Nat) : State :=
  if 0x400 ≤ r then s
  else
    let x := vec s p (r / 16)
    match r % 16 with
    | 0 => setVec s p (r / 16) { x with addr := x.addr / 2 ^ 32 * 2 ^ 32 + v / 4 * 4 }
    | 4 => setVec s p (r / 16) { x with addr := x.addr % 2 ^ 32 + v * 2 ^ 32 }
    | 8 => setVec s p (r / 16) { x with data := v }
    | _ => releasePend (setVec s p (r / 16) { x with masked := bit v 0 }) p [r / 16]

/-- A 4-byte write by function `p` at MW0 offset `off` (R436, R437): what takes effect is the owner's writes to SEC_PASS
outside a partition reset (R246, R448), the PF's to the mailboxes, and the function's own MSI-X table. -/
def mw0Write (s : State) (p off v : Nat) : State :=
  if mbBase ≤ off ∧ off < idBase then (if p = 0 then mbHostWrite s off v false else s)
  else if msixBase ≤ off ∧ off < msixBase + 0x10000 then msixWrite s p (off - msixBase) v
  else if passReg p 0x0C ≤ off ∧ off ≤ passReg p 0x18 ∧ ptStage s p = 0 ∧ regPowered s off then
    (if off = passReg p 0x14 then growCntWrite s p v else wr s off (writeFlds (rd s off) v (fieldsAt off)))
  else s

/-- A write of `size` bytes at MW0 offset `off` by function `fn` (R436): aligned writes of 4 bytes, and of 8 as two, lower
address first; other sizes are ignored. -/
def execRegisterWrite (fn : Part) (off : Fin 2097152) (v : Dword) (size : Nat) (s : State) : Out :=
  if !mw0On s fn then .next s
  else if size = 4 ∧ off.val % 4 = 0 then .next (mw0Write s fn off (v.toNat % 2 ^ 32))
  else if size = 8 ∧ off.val % 8 = 0 then
    .next (mw0Write (mw0Write s fn off (v.toNat % 2 ^ 32)) fn (off + 4) (v.toNat / 2 ^ 32))
  else .next s

end Sys2Proof.Machine
end

