-- ==== Sys2Proof/Machine/RegMail.lean ====
section
/-!
DEFINITION. REG_WRITE and REG_CLEAR: the registers that Eflan reaches for the host (R481).
-/
namespace Sys2Proof.Machine

/-- Whether `off` is the register at `r` in one of `n` blocks at stride `t` from `base`. -/
def inBlock (off base n t : Nat) (rs : List Nat) : Bool :=
  Nat.ble base off && Nat.blt off (base + n * t) && rs.contains ((off - base) % t)

/-- Whether REG_WRITE reaches the register at `off` (R481, R518, R544, R564). -/
def regWriteOk (off : Nat) : Bool :=
  inBlock off lcBase 1 0x100 [0x08, 0x0C, 0x10, 0x14, 0x18, 0x1C]
    || inBlock off engBase 64 0x100 [0x0C, 0x10, 0x2C, 0x3C]
    || inBlock off qdBase 16 0x20 [0x08]
    || inBlock off mcBase 16 0x80 [0x1C]
    || inBlock off arbBase 20 0x80 [0x00]
    || off == feBase
    || inBlock off cmpBase 4 0x4000 [0xC0, 0xC4, 0xC8, 0xCC, 0xD0]
    || (Nat.ble capBase off && Nat.blt off (capBase + 0x4000) && (fieldsAt off).any fun f => f.acc == .rw)
    || off == pwrBase + 0x10 || off == pwrBase + 0x14

/-- Whether REG_CLEAR reaches the register at `off` (R481, R518, R564). -/
def regClearOk (off : Nat) : Bool :=
  off == lcStatusOff
    || inBlock off engBase 64 0x100 [0x14, 0x18, 0x1C, 0x20, 0x24, 0x28, 0x38]
    || inBlock off mcBase 16 0x80 [0x14]
    || inBlock off arbBase 20 0x80 [0x04, 0x08, 0x0C, 0x10, 0x18, 0x1C]
    || off == ptBase + 0x2010
    || (Nat.ble capBase off && Nat.blt off (capBase + 0x4000)
          && (fieldsAt off).any fun f => f.acc == .w1c)
    || off == pwrBase + 0x18 || off == pwrBase + 0x24

/-- The clamps that compare a register with another (R85, R564). -/
def crossClamp (s : State) (off x : Nat) : Nat :=
  if off = lcBase + 0x08 then (if bits x 0 2 = 1 then setBits x 2 3 (min 3 (bits x 2 3)) else x)
  else if off = lcBase + 0x0C then min x (fld s (lcBase + 0x10) 0 20 - 100)
  else if off = lcBase + 0x10 then max x (fld s (lcBase + 0x0C) 0 20 + 100)
  else if off = pwrBase + 0x10 then setBits x 0 10 (min (bits x 0 10) (fld s (idBase + 0x30) 0 10))
  else if off = pwrBase + 0x14 then
    setBits x 0 16 (if bits x 0 16 < 0x8000 then clampTo 5000 11000 (bits x 0 16) else 5000)
  else x

/-- A write of ENG_FLC of engine `e`: a new GROUPS_ON starts the change of power groups, and CLEAN at 1 writes back the
dirty sectors (R112). `mask` says which bits the message writes. -/
def flcWrite (s : State) (e v mask : Nat) : State :=
  if !bit (fld s pwrDomainOff 8 4) (e / 16) then s
  else
    let s := if bits mask 0 3 = 0 then s
      else
        let n := min 6 (bits v 0 3)
        let s := setFld s (engOff e 0x2C) 0 3 n
        groupsStart (setEng s e { eng s e with flcSaved := n }) e
    if bit v 8 ∧ bit mask 8 then
      let s := flcClean s e
      if (writeBacksOut s e).isEmpty then s else setFld s (engOff e 0x2C) 8 1 1
    else s

/-- Eflan writes `v` under `mask` to the register at `off` (R481): the other bits keep their value, and the fields
clamp. -/
def regWrite (s : State) (off v mask : Nat) : State :=
  let old := rd s off
  let x := Nat.lor (old - Nat.land old mask) (Nat.land v mask)
  if capBase ≤ off ∧ off < capBase + 0x4000 then capWrite s ((off - capBase) / 0x800) ((off - capBase) % 0x800) x
  else if engBase ≤ off ∧ off < engBase + 0x4000 ∧ off % 0x100 = 0x2C then flcWrite s ((off - engBase) / 0x100) x mask
  else
    let s := wr s off (crossClamp s off (writeFlds old x (fieldsAt off)))
    if off = lcBase + 0x08 then { s with lc := { s.lc with srcDue := true } } else s

/-- Message REG_WRITE of mailbox `m` at wake-oscillator cycle `t` (R481). -/
def execRegWrite (m : Mb) (t : Nat) (s : State) : Out :=
  .next (message (atWake s t) m 0x070 anyWords fun s m w =>
    let off := bits (nth w 1) 0 21 / 4 * 4
    if !regWriteOk off then mbReply s m w 0x04 []
    else mbReply (regWrite s off (nth w 2) (nth w 3)) m w 0x00 [])

/-- What a clear of `v` leaves in a register that held `old` (R14, R16): an RC register reads cleared; in others the 1
bits of `v` clear their W1C bits. -/
def clearFlds (old v : Nat) : List Fld → Nat
  | [] => 0
  | f :: r =>
    let o := bits old f.lo f.width
    let y := match f.acc with
      | .rc => 0
      | .w1c => o - Nat.land o (bits v f.lo f.width)
      | _ => o
    y * 2 ^ f.lo + clearFlds old v r

/-- Message REG_CLEAR of mailbox `m` (R481): the reply carries the value read before the clear. -/
def execRegClear (m : Mb) (s : State) : Out :=
  .next (message s m 0x071 anyWords fun s m w =>
    let off := bits (nth w 1) 0 21 / 4 * 4
    if !regClearOk off then mbReply s m w 0x04 []
    else
      let old := if regPowered s off then liveWord s off else 0
      mbReply (wr s off (clearFlds (rd s off) (nth w 2) (fieldsAt off))) m w 0x00 [old])

end Sys2Proof.Machine
end

