-- ==== Sys2Proof/Machine/Messages.lean ====
section
/-!
DEFINITION. The messages of Eflan's catalogue about partitions, contexts, queues, fences, semaphores, display, capture,
Foxglove, telemetry and the error log (R369 to R373, R471 to R480, R517, R530, R534, R539, R569, R571).
-/
namespace Sys2Proof.Machine

/-- Message VERSION (R471): mailbox format 1, contract version 1, and the versions of Eflan. -/
def execVersion (m : Mb) (s : State) : Out :=
  .next (message s m 0x001 anyWords fun s m w =>
    mbReply s m w 0x00 [2, 2, rd s (idBase + 0x14), fld s (idBase + 0x18) 0 16])

/-! ### Partitions (R441, R475, R477) -/

/-- Whether quad `q` holds a job, an active pass or a model (R475). -/
def quadHolds (s : State) (q : Nat) : Bool :=
  let mine (l : List Nat) : Bool := l.any fun e => e / 4 == q
  ((List.range 4).any fun k => let x := eng s (4 * q + k); !x.waves.isEmpty || x.seq.cur.isSome)
    || s.disps.any (fun d => mine d.used) || s.pres.any (fun p => mine (p.ranges.map (·.1)))
    || s.passes.any (fun p => mine p.alive)
    || mine ((s.model.map Model.engines).getD [])
    || (match s.loading with
        | some (_, m) => (List.range m.groups).any fun g => (groupQuads s m.part m.sector g).contains q
        | none => false)

/-- MW2_OFF for a partition of `size` granules (R452). -/
def mw2Off (size v : Nat) : Nat := min (size - 1) v

/-- PART_CREATE gives partition `p` its quads, the top granules of partition 0's range, its weight and its window
(R475, R32). -/
def partCreate (s : State) (p weight quads grans off : Nat) : State :=
  let size := fld s (ptOff 0 0x08) 16 11 - grans
  let base := fld s (ptOff 0 0x08) 0 11 + size
  let own := fld s (ptOff 0 0x04) 0 16
  let s := setFld s (ptOff 0 0x04) 0 16 (own - Nat.land own quads)
  let s := setFld s (ptOff 0 0x08) 16 11 size
  let s := setFld s (ptOff p 0x04) 0 16 quads
  let s := setFld (setFld s (ptOff p 0x08) 0 11 base) (ptOff p 0x08) 16 11 grans
  let s := setFld (setFld s (ptOff p 0x0C) 0 3 weight) (ptOff p 0x0C) 4 3 weight
  let s := setFld s (ptOff p 0x10) 0 11 (mw2Off grans off)
  rebindQuads (setFld s (ptStatusOff p) 0 1 1) (quadsOf s p)

/-- Message PART_CREATE of mailbox `m` (R475). -/
def execPartCreate (m : Mb) (s : State) : Out :=
  .next (message s m 0x010 anyWords fun s m w =>
    let p := bits (nth w 1) 0 4
    let quads := bits (nth w 2) 0 16
    let grans := bits (nth w 3) 0 11
    if p = 0 ∨ 8 < p then mbReply s m w 0x06 []
    else if partExists s p ∨ (List.range 16).any (fun q => bit quads q && (!ownsQuad s 0 q || quadHolds s q)) then
      mbReply s m w 0x07 []
    else if fld s (ptOff 0 0x08) 16 11 ≤ grans then mbReply s m w 0x08 []
    else
      let s := partCreate s p (bits (nth w 1) 8 3) quads grans (bits (nth w 4) 0 11)
      mbReply s m w 0x00 [fld s (ptOff p 0x08) 0 11])

/-- Requesters that hold a level above the new base keep it until their next grant (R319). -/
def keepLevels (s : State) (p : Nat) : List Nat → State
  | [] => s
  | a :: as =>
    let x := arb s a
    let rs := (List.range 88).filter fun r => match reqHead x r with
      | some b => !b.rt && b.tag == p
      | none => false
    keepLevels (setArb s a { x with level := rs.foldl (fun l r => tabPut (fun _ => 0) r (levelOf s x r) l) x.level }) p as

/-- Message PART_CHANGE of mailbox `m` (R471, R319): the weight and the window change; INIT stays. -/
def execPartChange (m : Mb) (s : State) : Out :=
  .next (message s m 0x011 anyWords fun s m w =>
    let p := bits (nth w 1) 0 4
    if 8 < p ∨ !partExists s p then mbReply s m w 0x06 []
    else
      let s := keepLevels s p (s.arbs.map (·.1))
      let s := setFld s (ptOff p 0x0C) 0 3 (bits (nth w 1) 8 3)
      mbReply (setFld s (ptOff p 0x10) 0 11 (mw2Off (fld s (ptOff p 0x08) 16 11) (bits (nth w 1) 16 11))) m w 0x00 [])

/-- Message PART_APERTURE of mailbox `m` (R477, R452): range I of a partition. -/
def execPartAperture (m : Mb) (s : State) : Out :=
  .next (message s m 0x014 anyWords fun s m w =>
    let p := bits (nth w 1) 0 4
    if 8 < p ∨ !partExists s p then mbReply s m w 0x06 []
    else
      let o := ptOff p (0x40 + 0x20 * bits (nth w 1) 4 3)
      let hi := max 0x8000 (bits (nth w 3) 0 16)
      let dev := nth w 2 / 4096 * 4096 + hi * 2 ^ 32
      let pages := min (min 16777216 (bits (nth w 4) 0 25)) ((2 ^ 48 - dev) / 4096)
      let s := wr s o (b2n (bit (nth w 1) 8) + nth w 2 / 4096 * 4096)
      let s := wr (wr s (o + 4) hi) (o + 8) pages
      mbReply (wr (wr s (o + 0xC) (nth w 5 / 4096 * 4096)) (o + 0x10) (nth w 6)) m w 0x00 [])

/-! ### Contexts (R369 to R371) -/

/-- HT and COUNT of a context message, from word 2 (R369). -/
def ctxTable (w : List Nat) : Nat × Nat :=
  (nth w 2 / 16 * 16 + hi32 (bits (nth w 3) 0 16), min 16777216 (bits (nth w 4) 0 25))

/-- Message CONTEXT_CREATE of mailbox `m` (R471, R369): the lowest free context number. -/
def execContextCreate (m : Mb) (s : State) : Out :=
  .next (message s m 0x020 anyWords fun s m w =>
    let p := bits (nth w 1) 0 4
    if 8 < p ∨ !partExists s p then mbReply s m w 0x06 []
    else match (List.range 1024).find? fun c => !(ctxOf s c).valid with
      | none => mbReply s m w 0x08 []
      | some c =>
        let t := ctxTable w
        mbReply (setCtx s c { valid := true, part := p, table := t.1, count := t.2 }) m w 0x00 [c])

/-- Message CONTEXT_UPDATE of mailbox `m` (R471, R367): the entry changes and the relocation cache is flushed for it. -/
def execContextUpdate (m : Mb) (s : State) : Out :=
  .next (message s m 0x021 anyWords fun s m w =>
    let c := bits (nth w 1) 0 10
    if !(ctxOf s c).valid then mbReply s m w 0x06 []
    else
      let t := ctxTable w
      mbReply (relocFlush (setCtx s c { ctxOf s c with table := t.1, count := t.2 }) c) m w 0x00 [])

/-- Message CONTEXT_DESTROY of mailbox `m` (R371): refused while a queue names the context or has it as its current
one. -/
def execContextDestroy (m : Mb) (s : State) : Out :=
  .next (message s m 0x022 anyWords fun s m w =>
    let c := bits (nth w 1) 0 10
    if !(ctxOf s c).valid then mbReply s m w 0x06 []
    else if (s.queues.any fun x => x.2.life != .free && x.2.ctx == c) ∨ (s.slots.any fun x => x.2.valid && x.2.ctx == some c)
    then mbReply s m w 0x07 []
    else mbReply (relocFlush (setCtx s c {}) c) m w 0x00 [])

/-! ### Queues (R372, R373, R474) -/

/-- RING_ENTRIES after its clamp: 16 to 65,536, rounded down to a power of two (R372). -/
def ringEntries (n : Nat) : Nat := 2 ^ clampTo 4 16 (Nat.log2 n)

/-- The queue that a QUEUE_CREATE's words describe (R372, R474). -/
def queueOf (w : List Nat) : Queue :=
  { life := .created, kernel := bit (nth w 1) 0, prio := bits (nth w 1) 1 3, preempt := bit (nth w 1) 4,
    part := bits (nth w 1) 8 4, ctx := bits (nth w 1) 16 10,
    ring := nth w 2 / 64 * 64 + hi32 (bits (nth w 3) 0 16), entries := ringEntries (bits (nth w 4) 0 17),
    prom := nth w 5 / 16 * 16 + hi32 (bits (nth w 6) 0 16), promCount := min 256 (bits (nth w 6) 16 9),
    liveMax := min 4194304 (bits (nth w 7) 0 23 / 16 * 16),
    spill := nth w 8 / 256 * 256 + hi32 (bits (nth w 9) 0 16), owner := nth w 10 }

/-- Message QUEUE_CREATE of mailbox `m` (R474): the lowest free queue number. -/
def execQueueCreate (m : Mb) (s : State) : Out :=
  .next (message s m 0x030 anyWords fun s m w =>
    let x := queueOf w
    match (List.range 4096).find? fun q => (que s q).life == .free with
    | none => mbReply s m w 0x08 []
    | some q =>
      if 8 < x.part ∨ !partExists s x.part ∨ !(ctxOf s x.ctx).valid ∨ (ctxOf s x.ctx).part ≠ x.part then
        mbReply s m w 0x06 []
      else mbReply (setQue s q x) m w 0x00 [q])

/-- Message QUEUE_DESTROY of mailbox `m` in ACLK cycle `c` (R373, R471): a CREATED or SLOTTED queue is torn down first, a
DRAINING one waits for its teardown, and a DEAD one is freed with its final number. -/
def execQueueDestroy (m : Mb) (c : Nat) (s : State) : Out :=
  .next (message (atAclk s c) m 0x031 anyWords fun s m w =>
    let q := bits (nth w 1) 0 12
    match (que s q).life with
    | .free => mbReply s m w 0x06 []
    | .dead => mbReply (setQue s q {}) m w 0x00 (two ((que s q).compSeq % 2 ^ 48))
    | .draining => setQue (mbBegin s m w) q { que s q with tdMbox := some m }
    | _ => teardown (mbBegin s m w) q [] (some m))

/-- Message QUEUE_COUNTERS of mailbox `m` (R256, R471). -/
def execQueueCounters (m : Mb) (s : State) : Out :=
  .next (message s m 0x032 anyWords fun s m w =>
    let x := que s (bits (nth w 1) 0 12)
    if x.life = .free then mbReply s m w 0x06 []
    else mbReply s m w 0x00 (two (x.submitted % 2 ^ 64) ++ two (x.completed % 2 ^ 64) ++ two (x.faulted % 2 ^ 64)))

/-! ### Fences and semaphores (R471, R480) -/

/-- Message FENCE_RELEASE of mailbox `m` (R379, R480): unpinned slots of the range are evicted; pinned ones fail it. -/
def execFenceRelease (m : Mb) (s : State) : Out :=
  .next (message s m 0x040 anyWords fun s m w =>
    let base := nth w 1 + hi32 (bits (nth w 2) 0 16)
    let mine := (List.range 48).filter fun k =>
      let x := fslot s k
      x.valid && Nat.ble base x.addr && Nat.blt x.addr (base + nth w 3)
    let held := mine.filter (pinned s)
    let s := (mine.filter fun k => !pinned s k).foldl (fun s k => setFslot s k {}) s
    let s := fenceSettle s s.fwaiting.length
    match held with
    | [] => mbReply s m w 0x00 []
    | k :: _ => mbReply s m w 0x0A [k, held.length])

/-- Message FENCE_STATUS of mailbox `m` (R471, R301): the slot as read before the clear. -/
def execFenceStatus (m : Mb) (s : State) : Out :=
  .next (message s m 0x041 anyWords fun s m w =>
    let k := bits (nth w 1) 0 6
    if 48 ≤ k then mbReply s m w 0x06 []
    else
      let x := fslot s k
      let hi := if x.valid then x.value / 2 ^ 32 else 0
      let words := [fslotWord s k 0, fslotWord s k 4, fslotWord s k 8, hi, fslotStatus s k]
      let s := latchRead s (synBase + 0x8008 + 0x20 * k)
      mbReply (setFslot s k { x with regress := x.regress && !bit (nth w 1) 8,
                                     abandoned := x.abandoned && !bit (nth w 1) 9 }) m w 0x00 words)

/-- Message SEM_SET of mailbox `m` in ACLK cycle `c` (R274, R471). -/
def execSemSet (m : Mb) (c : Nat) (s : State) : Out :=
  .next (message (atAclk s c) m 0x042 anyWords fun s m w =>
    let p := bits (nth w 1) 0 4
    if 8 < p ∨ !partExists s p then mbReply s m w 0x06 []
    else match semClamped s p (bits (nth w 1) 8 4) (bits (nth w 1) 16 9) with
      | some sem => mbReply (semSet s sem (nth w 2)) m w 0x00 []
      | none => mbReply s m w 0x06 [])

/-- Message TELEMETRY of mailbox `m` (R471). -/
def execTelemetry (m : Mb) (s : State) : Out :=
  .next (message s m 0x062 anyWords fun s m w =>
    let temp (lo : Nat) : Nat := ofSigned 32 (toSigned 16 (fld s (pwrBase + 0x0C) lo 16))
    mbReply s m w 0x00 [s.power.milliwatts, fld s (pwrBase + 0x08) 16 16, temp 0, temp 16, pwrCur s + b2n s.pll * 8, aclkKhz s])

/-! ### Display and capture (R517, R530, R544) -/

/-- The record of an uncorrectable error that Eflan meets at an address (R327, R573). -/
def eflanEcc (s : State) (tag a : Nat) : State :=
  append (mcEcc s a .uncorrectable) { code := 0x92, tag := tag, kind := 15, eflan := true, detail := two a }

/-- The device address of the word at byte `pos` of an extended buffer in external memory. -/
def xbWordAt (m : Nat) (w : List Nat) (pos : Nat) : Option Nat :=
  let a := nth w 13 + hi32 (bits (nth w 14) 0 16) + pos
  if m = 0 ∨ isHost a ∨ nth w 15 ≤ pos then none else some a

/-- Eflan reads an extended buffer whose word at byte `pos` shows `ecc`: an uncorrectable error is recorded, and the message
then does nothing (R573). -/
def xbEcc (s : State) (m : Nat) (w : List Nat) (pos : Nat) (ecc : Ecc) : State × Bool :=
  match xbWordAt m w pos, ecc with
  | some a, .uncorrectable => (eflanEcc s tagM a, true)
  | some a, e => (mcEcc s a e, false)
  | none, _ => (s, false)


/-- Whether TAG names what exists: a partition, or M for none. -/
def tagOk (s : State) (t : Nat) : Bool := t == tagM || (Nat.ble t 8 && partExists s t)

/-- Gives bit `i` of PT_TAGS to tag `t` alone (R443, R452). -/
def giveTag (s : State) (i t : Nat) : List Nat → State
  | [] => s
  | p :: ps => giveTag (setFld s (ptOff p 0x14) i 1 (b2n (p == t))) i t ps

/-- The offset and value pairs of a list of words. -/
def pairsOf : List Nat → List (Nat × Nat)
  | a :: b :: r => (a, b) :: pairsOf r
  | _ => []

/-- Whether DISPLAY_CONFIG reaches offset `r` of a pipe: the RW registers but for AUX, and COMMIT (R544). -/
def cmpReach (r : Nat) : Bool :=
  Nat.blt r 0x4000 && !(Nat.ble 0xC0 r && Nat.blt r 0xD8)
    && (r == 0x60 || (fieldsAt (cmpBase + r)).any fun f => f.acc == .rw)

/-- Writes the pairs of a list to pipe `p` in order. -/
def cmpPairs (s : State) (p : Nat) : List (Nat × Nat) → State
  | [] => s
  | (r, x) :: l => cmpPairs (cmpWrite s p r x) p l

/-- Message DISPLAY_CONFIG of mailbox `m` (R530, R544): the tag, the pairs in order, and then the commit. -/
def execDisplayConfig (m : Mb) (pos : Nat) (ecc : Ecc) (t : Nat) (s : State) : Out :=
  .next (message (atWake s t) m 0x080 anyWords fun s m w =>
    let p := bits (nth w 1) 0 2
    let tag := bits (nth w 1) 8 4
    if !tagOk s tag then mbReply s m w 0x06 []
    else if !xbOk s m w then mbReply s m w 0x0C []
    else
      let (s, bad) := xbEcc s m w pos ecc
      let ps := pairsOf (bytesWords (xbBytes s m w))
      if bad then mbReply s m w 0x0C []
      else if !ps.all fun x => cmpReach x.1 then mbReply s m w 0x04 []
      else
        let s := cmpPairs (giveTag s p tag (List.range 9)) p ps
        mbReply (if bit (nth w 1) 16 then cmpArm s p else s) m w 0x00 [])

/-- Whether CAPTURE_CONFIG reaches offset `r` of a unit: the RW registers (R518). -/
def capReach (r : Nat) : Bool := Nat.blt r 0x800 && (fieldsAt (capBase + r)).any fun f => f.acc == .rw

/-- Writes the pairs of a list to capture unit `u` in order. -/
def capPairs (s : State) (u : Nat) : List (Nat × Nat) → State
  | [] => s
  | (r, x) :: l => capPairs (capWrite s u r x) u l

/-- Message CAPTURE_CONFIG of mailbox `m` (R517): a change of tag stops the unit's frames; the unit then runs with its new
settings. -/
def execCaptureConfig (m : Mb) (pos : Nat) (ecc : Ecc) (s : State) : Out :=
  .next (message s m 0x081 anyWords fun s m w =>
    let u := bits (nth w 1) 0 3
    let tag := bits (nth w 1) 8 4
    if !tagOk s tag then mbReply s m w 0x06 []
    else if !xbOk s m w then mbReply s m w 0x0C []
    else
      let (s, bad) := xbEcc s m w pos ecc
      let ps := pairsOf (bytesWords (xbBytes s m w))
      if bad then mbReply s m w 0x0C []
      else if !ps.all fun x => capReach x.1 then mbReply s m w 0x04 []
      else
        let s := if tag = capTag s u then s else capHalt s u
        let s := capPairs (giveTag s (8 + u) tag (List.range 9)) u ps
        mbReply { s with capStop := s.capStop.filter (· != u) } m w 0x00 [])

/-! ### Foxglove (R533, R534, R539) -/

/-- FOXGLOVE_SET KIND 0 (R534): the signed command waits for its check; a reserved KIND is no message. -/
def execFoxgloveSetCommand (m : Mb) (s : State) : Out :=
  .next (message s m 0x090 (fun w => bits (nth w 1) 8 2 == 0 || bits (nth w 1) 8 2 == 3) fun s m w =>
    if bits (nth w 1) 8 2 = 3 then mbReply s m w 0x02 []
    else if !xbOk s m w then mbReply s m w 0x0C []
    else if s.foxCmd.isSome then mbReply s m w 0x07 []
    else mbReply { s with foxCmd := some (bits (nth w 1) 0 2, xbBytes s m w) } m w 0x00 [])

/-- FOXGLOVE_SET KIND 1 (R534): bytes for a pipe's staging area. -/
def execFoxgloveStageWrite (m : Mb) (s : State) : Out :=
  .next (message s m 0x090 (fun w => bits (nth w 1) 8 2 == 1) fun s m w =>
    if !xbOk s m w ∨ 0x80000 < nth w 2 + nth w 15 then mbReply s m w 0x0C []
    else mbReply (devWrite s tagM (stageOf s (bits (nth w 1) 0 2) + nth w 2) (xbBytes s m w)) m w 0x00 [])

/-- FOXGLOVE_SET KIND 2 (R533, R534): the first key. -/
def execFoxgloveKeyInstall (m : Mb) (s : State) : Out :=
  .next (message s m 0x090 (fun w => bits (nth w 1) 8 2 == 2) fun s m w =>
    if !xbOk s m w ∨ nth w 15 < 57 then mbReply s m w 0x0C []
    else if s.foxKey.isSome then mbReply s m w 0x04 []
    else mbReply { s with foxKey := some ((xbBytes s m w).take 57) } m w 0x00 [])

/-- Message FOXGLOVE_STATUS of mailbox `m` (R539). -/
def execFoxgloveStatus (m : Mb) (s : State) : Out :=
  .next (message s m 0x091 anyWords fun s m w =>
    let p := bits (nth w 1) 0 2
    mbReply s m w 0x00 ([rd s (cmpOff p 0x300), rd s (cmpOff p 0x304), rd s (cmpOff p 0x308)] ++ two (s.foxCount % 2 ^ 64)
      ++ [b2n s.foxKey.isSome] ++ two (s.foxChecked % 2 ^ 64)))

/-! ### The error log (R472, R569 to R571) -/

/-- The 0x01 record, once the log has room again (R570). -/
def lostRecord (s : State) : State :=
  if s.log.lost = 0 ∨ 2048 ≤ s.log.recs.length then s
  else
    append { s with log := { s.log with lost := 0, lostLow := 0 } }
      { code := 0x01, kind := 15, eflan := true, detail := [s.log.lost, s.log.lostLow] }

/-- Message ERRLOG_READ of mailbox `m` (R571): the oldest records, whole, into the extended buffer. -/
def execErrlogRead (m : Mb) (s : State) : Out :=
  .next (message s m 0x0A0 anyWords fun s m w =>
    if !xbOk s m w then mbReply s m w 0x0C []
    else
      let n := min (min (bits (nth w 1) 0 16) (nth w 15 / 64)) s.log.recs.length
      let s1 := xbWrite s m w ((s.log.recs.take n).flatMap fun r => wordBytes r.words)
      let s2 := lostRecord { s1 with log := { s1.log with recs := s1.log.recs.drop n, lostSinceRead := 0 } }
      mbReply s2 m w 0x00 [n, s.log.lostSinceRead, s2.log.recs.length])

/-- Message ERRLOG_CONFIG of mailbox `m` (R471, R569). -/
def execErrlogConfig (m : Mb) (s : State) : Out :=
  .next (message s m 0x0A1 anyWords fun s m w =>
    mbReply { s with log := { s.log with severity := bits (nth w 1) 0 2 } } m w 0x00 [])

end Sys2Proof.Machine
end

