-- ==== Sys2Proof/Machine/Load.lean ====
section
/-!
DEFINITION. Models: schedule packages and their checks, loading, unloading and queries (R161 to R173, R180, R478, R479).
-/
namespace Sys2Proof.Machine

/-! ### Packages (R161 to R166) -/

/-- A word of the package at `addr`, `off` bytes from its start. -/
def pkWord (s : State) (addr off : Nat) : Nat := devNat s tagM (addr + off) 4

/-- `n` words of the package from `off`. -/
def pkWords (s : State) (addr off n : Nat) : List Nat := bytesWords (devBytes s tagM (addr + off) (4 * n))

/-- An entry of the engine directory (R163). -/
def dirEntOf (x : List Nat) : DirEnt :=
  { variant := bits (nth x 0) 0 1, group := bits (nth x 0) 8 4, leng := bits (nth x 0) 16 4, imgOff := nth x 1,
    imgSize := bits (nth x 2) 0 23, imgTm := bits (nth x 3) 0 22, table := bits (nth x 4) 0 22,
    count := bits (nth x 5) 0 13, pool := bits (nth x 6) 0 22, batch := bits (nth x 7) 0 22,
    seed := nth x 8 + hi32 (nth x 9) }

/-- The valid checkpoints of a variant's table of `n` entries at `off` (R164). -/
def ckptsOf (s : State) (addr v off n : Nat) : List Ckpt :=
  (List.range n).filterMap fun i =>
    let w := pkWord s addr (off + 8 * i)
    if bit w 31 then some { variant := v, id := i, line := bits w 12 16, phase := bits w 0 12 } else none

/-- An entry of the semaphore list (R165). -/
def semEntOf (x : List Nat) : SemEnt :=
  { index := bits (nth x 0) 0 9, lquad := bits (nth x 0) 9 4, resetAt := bits (nth x 0) 13 2, init := nth x 1 }

/-- An entry of the traffic declaration (R166). -/
def trafEntOf (x : List Nat) : TrafEnt :=
  { variant := bits (nth x 0) 0 1, group := bits (nth x 0) 8 4, leng := bits (nth x 0) 16 4,
    traffic := { start := bits (nth x 2) 0 28, stop := bits (nth x 3) 0 28, bytes := nth x 1 } }

/-- The `n` entries of `k` words each at `off`. -/
def entriesAt {α : Type} (s : State) (addr off n k : Nat) (f : List Nat → α) : List α :=
  (List.range n).map fun i => f (pkWords s addr (off + 4 * k * i) k)

/-- The model that a package describes (R162 to R166). -/
def modelOf (s : State) (part addr size : Nat) : Model :=
  let h (i : Nat) : Nat := pkWord s addr (4 * i)
  let full := bits (h 14) 0 9
  let poolF := bits (h 6) 0 22
  let poolC := bits (h 7) 0 22
  { part := part, addr := addr, size := size, groups := bits (h 3) 0 8, sector := bits (h 3) 8 2 == 2,
    fullEng := bits (h 3) 16 5, crocEng := bits (h 3) 24 5, maxStreams := bits (h 10) 0 5, frameCyc := h 5,
    poolFull := poolF, poolCroc := poolC, streamFull := bits (h 8) 0 22, streamCroc := bits (h 9) 0 22,
    capacity := min (bits (h 10) 0 5) (min (poolF / max 1 (bits (h 8) 0 22)) (poolC / max 1 (bits (h 9) 0 22))),
    dir := entriesAt s addr (h 11) (h 12) 12 dirEntOf,
    ckpts := ckptsOf s addr 0 (h 13) full ++ ckptsOf s addr 1 (h 13 + 8 * full) (bits (h 14) 16 9),
    sems := entriesAt s addr (h 15) (h 16) 2 semEntOf, traffic := entriesAt s addr (h 17) (h 18) 4 trafEntOf }

/-! ### The checks of R170 -/

/-- Whether the header's fields lie in their ranges and its sections within SIZE (R161, R162, R170 order 3). -/
def headerFits (s : State) (addr size : Nat) : Bool :=
  let h (i : Nat) : Nat := pkWord s addr (4 * i)
  let within (lo hi x : Nat) : Bool := Nat.ble lo x && Nat.ble x hi
  let sect (off n : Nat) : Bool := off % 16 == 0 && Nat.ble (off + n) size
  Nat.ble 128 size && h 0 == 0x4B475053 && bits (h 1) 16 16 == 1 && h 4 == size
    && within 1 16 (bits (h 3) 0 8) && within 1 2 (bits (h 3) 8 2) && within 1 16 (bits (h 3) 16 5)
    && within 1 16 (bits (h 3) 24 5) && within 1 16 (bits (h 10) 0 5) && Nat.ble (bits (h 14) 0 9) 256
    && Nat.ble (bits (h 14) 16 9) 256
    && ([8, 9].all fun i => Nat.ble 16 (bits (h i) 0 22) && bits (h i) 0 4 == 0)
    && ((List.range 13).all fun i => h (19 + i) == 0)
    && sect (h 11) (48 * h 12) && sect (h 13) (8 * (bits (h 14) 0 9 + bits (h 14) 16 9)) && sect (h 15) (8 * h 16)
    && sect (h 17) (16 * h 18)

/-- Whether a directory entry's fields lie in their ranges, its image in the package and its table in its image
(R163). -/
def dirFits (size : Nat) (d : DirEnt) : Bool :=
  Nat.ble d.imgSize 4194304 && Nat.ble (d.imgOff + d.imgSize) size && d.imgTm % 16 == 0 && d.pool % 16 == 0
    && d.batch % 16 == 0 && Nat.ble 1 d.count && Nat.ble d.count 4096 && Nat.ble d.imgTm d.table
    && Nat.ble (d.table + 32 * d.count) (d.imgTm + d.imgSize)

/-- Directory entries of a variant, group and logical engine. -/
def Model.dirAt (m : Model) (v g l : Nat) : List DirEnt :=
  m.dir.filter fun d => d.variant == v && d.group == g && d.leng == l

/-- Whether the directory holds exactly one entry for each engine that each variant needs, and no other (R163). -/
def dirWhole (m : Model) : Bool :=
  m.dir.length == m.groups * (m.fullEng + m.crocEng)
    && (List.range m.groups).all fun g =>
      ((List.range m.fullEng).all fun l => (m.dirAt 0 g l).length == 1)
        && (List.range m.crocEng).all fun l => (m.dirAt 1 g l).length == 1

/-- Whether a package meets order 3 of R170. -/
def formatOk (s : State) (m : Model) : Bool :=
  headerFits s m.addr m.size && m.dir.all (dirFits m.size) && dirWhole m && m.sems.all (fun x => x.resetAt != 3)
    && m.traffic.all fun t => !(m.dirAt t.variant t.group t.leng).isEmpty

/-- The words of the step-table entries of a directory entry (R73). -/
def tableOf (s : State) (m : Model) (d : DirEnt) : List (List Nat) :=
  entriesAt s m.addr (d.imgOff + (d.table - d.imgTm)) d.count 8 id

/-- MAX_CYC of a step, after its clamp. -/
def stepMax (w : List Nat) : Nat := max 1 (bits (nth w 1) 0 24)

/-- Whether start points rise or stay equal through a table (R74). -/
def startsRise : List (List Nat) → Bool
  | a :: b :: r => Nat.ble (bits (nth a 0) 0 28) (bits (nth b 0) 0 28) && startsRise (b :: r)
  | _ => true

/-- Whether the MAX_CYC of the steps between break points sum to at most 400,000 (R83); `acc` is the sum so far. -/
def breaksNear (acc : Nat) : List (List Nat) → Bool
  | [] => true
  | w :: r =>
    let a := acc + stepMax w
    Nat.ble a 400000 && breaksNear (if bit (nth w 2) 1 then 0 else a) r

/-- The partition's groups of the model's kind. -/
def groupCount (s : State) (m : Model) : Nat :=
  if m.sector then ((List.range 4).filter fun k => (quadsOf s m.part).any fun q => q / 4 == k).length
  else (quadsOf s m.part).length

/-- Whether a logical quad of the partition lies in the model's groups (R74). -/
def lquadIn (s : State) (m : Model) (lq : Nat) : Bool :=
  match (quadsOf s m.part)[lq]? with
  | some q => (List.range m.groups).any fun g => (groupQuads s m.part m.sector g).contains q
  | none => false

/-- Whether the checkpoints that a variant's steps name are exactly its VALID ones (R170 order 10). -/
def ckptsMatch (s : State) (m : Model) (v : Nat) : Bool :=
  let named := ((m.dir.filter fun d => d.variant == v).flatMap (tableOf s m)).filterMap fun w =>
    if bit (nth w 2) 2 then some (bits (nth w 2) 16 8) else none
  let valid := (m.ckpts.filter fun c => c.variant == v).map (·.id)
  named.all valid.contains && valid.all named.contains

/-- The MAX_CYC of every step of a variant (R167). -/
def variantCost (s : State) (m : Model) (v : Nat) : Nat :=
  (((m.dir.filter fun d => d.variant == v).flatMap (tableOf s m)).map stepMax).sum

/-- What a directory entry takes in its engine's tile memory: image, pool and batch word. -/
def Model.regions (m : Model) (d : DirEnt) : List (Nat × Nat) :=
  [(d.imgTm, d.imgSize), (d.pool, if d.variant = 0 then m.poolFull else m.poolCroc), (d.batch, 16)]

/-- Whether no two regions of a list overlap and none exceeds 4 MiB. -/
def regionsFit : List (Nat × Nat) → Bool
  | [] => true
  | (a, n) :: r =>
    (n == 0 || Nat.ble (a + n) 4194304 && r.all fun x => x.2 == 0 || Nat.ble (a + n) x.1 || Nat.ble (x.1 + x.2) a)
      && regionsFit r

/-- Whether everything fits in each engine that the model binds (R170 order 12). -/
def tilesFit (m : Model) : Bool :=
  let b := m.bound 0 ++ m.bound 1
  m.engines.all fun e => regionsFit (b.flatMap fun x => if x.2 = e then m.regions x.1 else [])

/-- The model bound to the live engines of its groups (R32, R171). -/
def bindModel (s : State) (m : Model) : Model :=
  let n (g : Nat) : Nat := (groupLive s m.part m.sector g).length
  { m with bind := (List.range m.groups).flatMap (bindGroup s m),
           crocOnly := (List.range m.groups).any fun g => Nat.blt (n g) m.fullEng,
           unrunnable := (List.range m.groups).any fun g => Nat.blt (n g) m.crocEng }

/-- The status of the first check of R170 that fails from order 3 on; none where all pass. -/
def loadStatus (s : State) (m : Model) : Option Nat :=
  let tabs := m.dir.map (tableOf s m)
  if !formatOk s m then some 0x10
  else if bits (pkWord s m.addr 4) 0 16 ≠ 1 then some 0x11
  else if s.jobs.any (fun j => j.part == m.part && (j.kind == .dispatch || j.kind == .pass)) then some 0x1A
  else if groupCount s m < m.groups ∨ (bindModel s m).unrunnable then some 0x12
  else if !tabs.all startsRise then some 0x13
  else if !((tabs.all fun t => t.all fun w => !bit (nth w 2) 0 || lquadIn s m (bits (nth w 3) 9 4))
      && m.sems.all fun x => lquadIn s m x.lquad) then some 0x14
  else if !tabs.all (breaksNear 0) then some 0x15
  else if !(ckptsMatch s m 0 && ckptsMatch s m 1) then some 0x17
  else if 2 * variantCost s m 0 < 5 * variantCost s m 1 then some 0x18
  else if !tilesFit (bindModel s m) then some 0x16
  else none

/-! ### Loading (R168 to R171, R478) -/

/-- Message MODEL_LOAD of mailbox `m` in ACLK cycle `c` (R170, R478): a package that passes its checks starts to load.
`ecc` is what the word of the package at byte `pos` shows when it is read (R573). -/
def execModelLoad (m : Mb) (pos : Nat) (ecc : Ecc) (c : Nat) (s : State) : Out :=
  .next (message (atAclk s c) m 0x050 anyWords fun s m w =>
    let p := bits (nth w 1) 0 4
    let a := nth w 2 + hi32 (bits (nth w 3) 0 16)
    let size := nth w 4
    if 8 < p ∨ !partExists s p then mbReply s m w 0x06 []
    else if s.model.isSome then mbReply s m w 0x19 []
    else if a < hbmLo s p ∨ hbmHi s p < a + size then mbReply s m w 0x1B []
    else if ecc = .uncorrectable ∧ pos < size then mbReply (eflanEcc s p (a + pos)) m w 0x0C []
    else
      let s := if pos < size then mcEcc s (a + pos) ecc else s
      let x := modelOf s p a size
      match loadStatus s x with
      | some st => mbReply s m w st []
      | none => { mbBegin s m w with loading := some (m, x) })

/-- The pools of a list of entries hold undefined contents (R171). -/
def blankPools (s : State) (m : Model) : List (DirEnt × Nat) → State
  | [] => s
  | (d, e) :: r =>
    let lo := e * 2 ^ 22 + d.pool
    let n := if d.variant = 0 then m.poolFull else m.poolCroc
    blankPools { s with tile := s.tile.blank lo (lo + n) (s.fresh + 1), fresh := s.fresh + 1 } m r

/-- The load of a checked package, in the order of R171. -/
def installModel (s : State) (m : Model) : State :=
  let s := rebindQuads s (quadsOf s m.part)
  let m := bindModel s m
  let all := m.bound 0 ++ m.bound 1
  let s := blankPools (copyImages s m.addr all) m all
  let s := writeBatch s { m with batch := [] } all
  let s := seedVariant (seedVariant s (m.bound 1)) (m.bound 0)
  let s := resetSems s m.part [0, 1, 2] m.sems
  let digest := Config.shake (devBytes s tagM m.addr m.size)
  setFld { s with model := some { m with variant := b2n m.crocOnly, digest := digest } } (ptStatusOff m.part) 7 1 1

/-- The load in progress ends in ACLK cycle `c` and Eflan replies with its status, the capacity of the batch and FRAME_CYC
(R171, R478). An uncorrectable error met in copying leaves nothing loaded (R573). -/
def execModelLoadComplete (pos : Nat) (ecc : Ecc) (c : Nat) (s : State) : Out :=
  let s := atAclk s c
  match s.loading with
  | none => .next s
  | some (m, x) =>
    let w := ((tabFind m s.mboxes).map (·.words)).getD []
    let s := { s with loading := none }
    if ecc = .uncorrectable ∧ pos < x.size then .next (mbReply (eflanEcc s x.part (x.addr + pos)) m w 0x0C [])
    else
      let s := installModel (if pos < x.size then mcEcc s (x.addr + pos) ecc else s) x
      .next (mbReply s m w (b2n ((s.model.map (·.crocOnly)).getD false)) [x.capacity, x.frameCyc])

/-! ### Unloading and queries (R173, R479) -/

/-- Message MODEL_UNLOAD of mailbox `m` in ACLK cycle `c` (R173). -/
def execModelUnload (m : Mb) (s : State) : Out :=
  .next (message s m 0x051 anyWords fun s m w =>
    let p := bits (nth w 1) 0 4
    if 8 < p ∨ !partExists s p then mbReply s m w 0x06 []
    else if (s.model.map (·.part)) ≠ some p then mbReply s m w 0x00 []
    else if (runOf s).isSome then mbReply s m w 0x20 []
    else mbReply (unloadModel s) m w 0x00 [])

/-- The reply words of MODEL_QUERY about a resident model (R479). -/
def queryWords (s : State) (m : Model) : List Nat :=
  [1 + b2n m.crocOnly * 2 + b2n (!m.unrunnable) * 4 + b2n (runOf s).isSome * 8 + m.variant * 16,
   (m.batch.map fun x => 2 ^ x.slot).foldl (· + ·) 0 + min 65535 m.streak * 2 ^ 16, m.capacity]

/-- Message MODEL_QUERY of mailbox `m` (R479). -/
def execModelQuery (m : Mb) (s : State) : Out :=
  .next (message s m 0x052 anyWords fun s m w =>
    let p := bits (nth w 1) 0 4
    if 8 < p ∨ !partExists s p then mbReply s m w 0x06 []
    else match s.model with
      | some x => if x.part = p then mbReply s m w 0x00 (queryWords s x) else mbReply s m w 0x00 []
      | none => mbReply s m w 0x00 [])

end Sys2Proof.Machine
end

