-- ==== Sys2Proof/Machine/Serial.lean ====
section
/-!
DEFINITION. The octal serial port (R453 to R461). A command is one frame; what the device drives on DQ stands in
`State.wire`.
-/
namespace Sys2Proof.Machine

/-- One bit step of the CRC (R457). -/
def crcStep (c : Nat) : Nat := if 0x8000 ≤ c then Nat.xor (2 * c % 2 ^ 16) 0x1021 else 2 * c % 2 ^ 16

/-- The CRC after one more byte. -/
def crcByte (c : Nat) (b : Byte) : Nat :=
  crcStep (crcStep (crcStep (crcStep (crcStep (crcStep (crcStep (crcStep (Nat.xor c (b.toNat * 256)))))))))

/-- CRC-16 of a list of bytes: polynomial 0x1021 from 0xFFFF (R457). -/
def crc16 (l : List Byte) : Nat := l.foldl crcByte 0xFFFF

/-- A 16-bit value, high byte first. -/
def highFirst (v : Nat) : List Byte := [BitVec.ofNat 8 (v / 256), BitVec.ofNat 8 v]

/-- The header of a frame (R455). -/
def serialHeader (cmd : Nat) (addr : Word) (len : Byte) : List Byte :=
  [BitVec.ofNat 8 cmd, ~~~BitVec.ofNat 8 cmd] ++ (leBytes 4 addr.toNat).reverse ++ [len, 0#8]

/-- The data words of a frame: LEN from 64 clamps to 63 (R455). -/
def serialWords (len : Byte) : Nat := min 63 len.toNat + 1

/-- The address of word `i` of a frame: the low 2 bits of the address read as 0 (R455). -/
def serialAddr (addr : Word) (i : Nat) : Nat := (addr.toNat / 4 * 4 + 4 * i) % 2 ^ 32

/-- The clocks that a read of the word at `a` needs after the header (R459). -/
def serialNeed (a : Nat) : Nat :=
  if (mbBase ≤ a ∧ a < idBase) ∨ (2 ^ 21 ≤ a ∧ a < 2 ^ 21 + 16384) then 8 else 24

/-- A read of the word at `a` of the port's address space (R461). -/
def serialGet (s : State) (a : Nat) : Nat × State :=
  if a < 2 ^ 21 then readReg s a
  else if a < 2 ^ 21 + 16384 then (s.staging.readNat (a - 2 ^ 21) 4, s)
  else (0, s)

/-- Reads `n` words from word `i` of a frame on: the bytes, whether one was not ready (R459), and the state after the
latches. -/
def serialRead (s : State) (addr : Word) (wait i : Nat) : Nat → List Byte × Bool × State
  | 0 => ([], false, s)
  | n + 1 =>
    let a := serialAddr addr i
    if wait < serialNeed a then
      let r := serialRead s addr wait (i + 1) n
      (leBytes 4 0 ++ r.1, true, r.2.2)
    else
      let g := serialGet s a
      let r := serialRead g.2 addr wait (i + 1) n
      (leBytes 4 g.1 ++ r.1, r.2.1, r.2.2)

/-- A READ frame (R455 to R459): the data and its CRC; a word not ready is sent as 0x00, the CRC is complemented and the
frame is counted in MB_PORT_LATE_CNT. -/
def execSerialRead (addr : Word) (len : Byte) (s : State) : Out :=
  if !s.hotSwap.good then .next s
  else
    let r := serialRead s addr (fld s (mbBase + 0x1004) 0 6) 0 (serialWords len)
    let crc := crc16 (serialHeader 0x0B addr len ++ r.1)
    let s := if r.2.1 then bumpSat r.2.2 (mbBase + 0x100C) 0 32 else r.2.2
    .next { s with wire := r.1 ++ highFirst (if r.2.1 then 65535 - crc else crc) }

/-- A write of a word at `a` of the port's address space (R461): the writable MB_ registers and the staging buffer. -/
def serialPut (s : State) (a v : Nat) : State :=
  if mbBase ≤ a ∧ a < idBase then mbHostWrite s a v true
  else if 2 ^ 21 ≤ a ∧ a < 2 ^ 21 + 16384 then { s with staging := s.staging.writeNat (a - 2 ^ 21) 4 v }
  else s

/-- Writes a list of words from word `i` of a frame on, in ascending order. -/
def serialPuts (s : State) (addr : Word) (i : Nat) : List Nat → State
  | [] => s
  | v :: r => serialPuts (serialPut s (serialAddr addr i) v) addr (i + 1) r

/-- A WRITE frame (R455 to R458) with the data and the CRC that the host drives: performed only where the CRC matches;
RESP and its complement follow. `cut`: CS# rises before the response clock, and nothing is written. -/
def execSerialWrite (addr : Word) (len : Byte) (data : List Byte) (crc : BitVec 16) (cut : Bool) (s : State) : Out :=
  let n := 4 * serialWords len
  if !s.hotSwap.good then .next s
  else if cut ∨ data.length < n then .next { s with wire := [] }
  else if crc16 (serialHeader 0x02 addr len ++ data.take n) = crc.toNat then
    .next { serialPuts s addr 0 (bytesWords (data.take n)) with wire := [0xA5#8, 0x5A#8] }
  else .next { bumpSat s (mbBase + 0x1008) 0 32 with wire := [0x5A#8, 0xA5#8] }

/-- PORT_RESET drops any partial state of the port (R456); every other frame is whole in this model. -/
def execSerialPortReset (s : State) : Out :=
  .next (if s.hotSwap.good then { s with wire := [] } else s)

/-- A frame whose CMD is unknown or does not match its complement is ignored and counted (R460). -/
def execSerialBadCommand (s : State) : Out :=
  .next (if s.hotSwap.good then { bumpSat s (mbBase + 0x1010) 0 32 with wire := [] } else s)

end Sys2Proof.Machine
end

