-- ==== Sys2Proof/Machine/Dispatch.lean ====
section
/-!
DEFINITION. One arm per command: a direct call of its meaning. A meaning acts on everything but the queue of
waiting commands.
-/
namespace Sys2Proof.Machine

def exec (i : Instr) (s : State) : Host.Outcome State Fault Refusal :=
  match i with
  | .lcNowLoRead t => Sys2Proof.Machine.execLcNowLoRead t s
  | .lcEdgeLoRead => Sys2Proof.Machine.execLcEdgeLoRead s
  | .lcSourceChange => Sys2Proof.Machine.execLcSourceChange s
  | .frameSyncPulse t len => Sys2Proof.Machine.execFrameSyncPulse t len s
  | .fsoPulseEnd => Sys2Proof.Machine.execFsoPulseEnd s
  | .internalFrameEdge => Sys2Proof.Machine.execInternalFrameEdge s
  | .timebaseLost => Sys2Proof.Machine.execTimebaseLost s
  | .freewheelFrameEdge => Sys2Proof.Machine.execFreewheelFrameEdge s
  | .lineTick => Sys2Proof.Machine.execLineTick s
  | .stepFrameBoundary e => Sys2Proof.Machine.execStepFrameBoundary e s
  | .stepStartPoint e ix c => Sys2Proof.Machine.execStepStartPoint e ix c s
  | .guardPollReply e c => Sys2Proof.Machine.execGuardPollReply e c s
  | .stepStart e c => Sys2Proof.Machine.execStepStart e c s
  | .stepOverrun e c => Sys2Proof.Machine.execStepOverrun e c s
  | .stepEnd e c => Sys2Proof.Machine.execStepEnd e c s
  | .scalarInstruction e w g v mask pc c => Sys2Proof.Machine.execScalarInstruction e w g v mask pc c s
  | .vectorInstruction e w op f d a b x c => Sys2Proof.Machine.execVectorInstruction e w op f d a b x c s
  | .vectorConvert e w sf tf rnd ieee scale amax d a c => Sys2Proof.Machine.execVectorConvert e w sf tf rnd ieee scale amax d a c s
  | .tload e w stage kg off stride f pos ecc c => Sys2Proof.Machine.execTload e w stage kg off stride f pos ecc c s
  | .tmma e w stage acc m kg off stride f accum pos ecc c => Sys2Proof.Machine.execTmma e w stage acc m kg off stride f accum pos ecc c s
  | .tdrain e w acc m off stride f rnd ieee scale amax pos ecc c => Sys2Proof.Machine.execTdrain e w acc m off stride f rnd ieee scale amax pos ecc c s
  | .tensorInterlockRelease e pos ecc c => Sys2Proof.Machine.execTensorInterlockRelease e pos ecc c s
  | .tileLoad e w l off len dst pos ecc c => Sys2Proof.Machine.execTileLoad e w l off len dst pos ecc c s
  | .tileStore e w l off data pos ecc c => Sys2Proof.Machine.execTileStore e w l off data pos ecc c s
  | .tmCorrectionWriteback e => Sys2Proof.Machine.execTmCorrectionWriteback e s
  | .tmScrub e c ecc => Sys2Proof.Machine.execTmScrub e c ecc s
  | .farLineLoad e w a n noalloc dst pos ecc c => Sys2Proof.Machine.execFarLineLoad e w a n noalloc dst pos ecc c s
  | .farLineStore e w a data noalloc pos ecc c => Sys2Proof.Machine.execFarLineStore e w a data noalloc pos ecc c s
  | .farLineFill e c => Sys2Proof.Machine.execFarLineFill e c s
  | .amaxClear e ix => Sys2Proof.Machine.execAmaxClear e ix s
  | .seedWrite e w v => Sys2Proof.Machine.execSeedWrite e w v s
  | .illegalInstruction e w c => Sys2Proof.Machine.execIllegalInstruction e w c s
  | .flcGroupsChange e n bad c => Sys2Proof.Machine.execFlcGroupsChange e n bad c s
  | .flcGroupPowerOff e c => Sys2Proof.Machine.execFlcGroupPowerOff e c s
  | .flcGroupReady e c => Sys2Proof.Machine.execFlcGroupReady e c s
  | .flcClean e bad c => Sys2Proof.Machine.execFlcClean e bad c s
  | .flcCleanDone e c => Sys2Proof.Machine.execFlcCleanDone e c s
  | .engineHeartbeat e c => Sys2Proof.Machine.execEngineHeartbeat e c s
  | .quadWatchdogExpiry e c => Sys2Proof.Machine.execQuadWatchdogExpiry e c s
  | .engineFailMask => Sys2Proof.Machine.execEngineFailMask s
  | .semWait e w lq ix n c => Sys2Proof.Machine.execSemWait e w lq ix n c s
  | .semAdd e w lq ix n c => Sys2Proof.Machine.execSemAdd e w lq ix n c s
  | .semSub e w lq ix n c => Sys2Proof.Machine.execSemSub e w lq ix n c s
  | .semArrive e w lq ix k p c => Sys2Proof.Machine.execSemArrive e w lq ix k p c s
  | .semBarWait e w lq ix k c => Sys2Proof.Machine.execSemBarWait e w lq ix k c s
  | .semPollReply u w c => Sys2Proof.Machine.execSemPollReply u w c s
  | .engineFenceSignal e w addr v => Sys2Proof.Machine.execEngineFenceSignal e w addr v s
  | .releaseComplete e => Sys2Proof.Machine.execReleaseComplete e s
  | .fenceSignalApply => Sys2Proof.Machine.execFenceSignalApply s
  | .transitSignal ecc => Sys2Proof.Machine.execTransitSignal ecc s
  | .fencePageIn n ecc => Sys2Proof.Machine.execFencePageIn n ecc s
  | .spinPrescaler e k => Sys2Proof.Machine.execSpinPrescaler e k s
  | .arbitrationRound a rise lower c => Sys2Proof.Machine.execArbitrationRound a rise lower c s
  | .meshForward r out join => Sys2Proof.Machine.execMeshForward r out join s
  | .memoryBurst m k pos ecc c => Sys2Proof.Machine.execMemoryBurst m k pos ecc c s
  | .mcCorrectionWriteback m => Sys2Proof.Machine.execMcCorrectionWriteback m s
  | .mcPatrolScrub m c ecc => Sys2Proof.Machine.execMcPatrolScrub m c ecc s
  | .rtWindowClose a c => Sys2Proof.Machine.execRtWindowClose a c s
  | .modelLoad m pos ecc c => Sys2Proof.Machine.execModelLoad m pos ecc c s
  | .modelLoadComplete pos ecc c => Sys2Proof.Machine.execModelLoadComplete pos ecc c s
  | .modelUnload m => Sys2Proof.Machine.execModelUnload m s
  | .modelQuery m => Sys2Proof.Machine.execModelQuery m s
  | .runModelCounted n => Sys2Proof.Machine.execRunModelCounted n s
  | .runModelContinuous n => Sys2Proof.Machine.execRunModelContinuous n s
  | .runModelStop n => Sys2Proof.Machine.execRunModelStop n s
  | .runArm => Sys2Proof.Machine.execRunArm s
  | .checkpointDeadline c => Sys2Proof.Machine.execCheckpointDeadline c s
  | .engineStopRequest e => Sys2Proof.Machine.execEngineStopRequest e s
  | .rerunStart => Sys2Proof.Machine.execRerunStart s
  | .outputRecordWrite => Sys2Proof.Machine.execOutputRecordWrite s
  | .monitorFrameBoundary => Sys2Proof.Machine.execMonitorFrameBoundary s
  | .streamJoin n => Sys2Proof.Machine.execStreamJoin n s
  | .streamLeave n => Sys2Proof.Machine.execStreamLeave n s
  | .modelEngineLossRebind => Sys2Proof.Machine.execModelEngineLossRebind s
  | .modelReloadComplete ecc => Sys2Proof.Machine.execModelReloadComplete ecc s
  | .renderPassBegin n ecc => Sys2Proof.Machine.execRenderPassBegin n ecc s
  | .renderPassEnd n => Sys2Proof.Machine.execRenderPassEnd n s
  | .draw n => Sys2Proof.Machine.execDraw n s
  | .geometryBatch p k outs => Sys2Proof.Machine.execGeometryBatch p k outs s
  | .growBins n => Sys2Proof.Machine.execGrowBins n s
  | .secPassGrowCntWrite fn p v => Sys2Proof.Machine.execSecPassGrowCntWrite fn p v s
  | .binWaitExpiry p => Sys2Proof.Machine.execBinWaitExpiry p s
  | .partialRenderDone p => Sys2Proof.Machine.execPartialRenderDone p s
  | .tileVisit e px => Sys2Proof.Machine.execTileVisit e px s
  | .passComplete p => Sys2Proof.Machine.execPassComplete p s
  | .dispatch n => Sys2Proof.Machine.execDispatch n s
  | .workgroupPlace p c => Sys2Proof.Machine.execWorkgroupPlace p c s
  | .waveStart e w c => Sys2Proof.Machine.execWaveStart e w c s
  | .waveEnd e w c => Sys2Proof.Machine.execWaveEnd e w c s
  | .dispatchComplete q => Sys2Proof.Machine.execDispatchComplete q s
  | .spillStart k c => Sys2Proof.Machine.execSpillStart k c s
  | .spillEnd k c pos ecc => Sys2Proof.Machine.execSpillEnd k c pos ecc s
  | .restoreStart k c => Sys2Proof.Machine.execRestoreStart k c s
  | .restoreEnd k c pos ecc => Sys2Proof.Machine.execRestoreEnd k c pos ecc s
  | .setPriority n => Sys2Proof.Machine.execSetPriority n s
  | .compress n => Sys2Proof.Machine.execCompress n s
  | .compressJobStart ecc => Sys2Proof.Machine.execCompressJobStart ecc s
  | .tsfBlockDone k c pos ecc => Sys2Proof.Machine.execTsfBlockDone k c pos ecc s
  | .fixedRatioRowDone k c pos ecc => Sys2Proof.Machine.execFixedRatioRowDone k c pos ecc s
  | .compressJobEnd k => Sys2Proof.Machine.execCompressJobEnd k s
  | .doorbell fn q v size => Sys2Proof.Machine.execDoorbell fn q v size s
  | .slotWake n => Sys2Proof.Machine.execSlotWake n s
  | .ringEntryFetch n ecc => Sys2Proof.Machine.execRingEntryFetch n ecc s
  | .ringEntryEnd n => Sys2Proof.Machine.execRingEntryEnd n s
  | .bufferPrefetch n ecc => Sys2Proof.Machine.execBufferPrefetch n ecc s
  | .bufferEnd n => Sys2Proof.Machine.execBufferEnd n s
  | .handleEntryFetch n ecc => Sys2Proof.Machine.execHandleEntryFetch n ecc s
  | .unknownOpcode n => Sys2Proof.Machine.execUnknownOpcode n s
  | .nop n => Sys2Proof.Machine.execNop n s
  | .jump n => Sys2Proof.Machine.execJump n s
  | .call n => Sys2Proof.Machine.execCall n s
  | .ret n => Sys2Proof.Machine.execRet n s
  | .loop n => Sys2Proof.Machine.execLoop n s
  | .endloop n => Sys2Proof.Machine.execEndloop n s
  | .cond n => Sys2Proof.Machine.execCond n s
  | .waitFence n => Sys2Proof.Machine.execWaitFence n s
  | .signalFence n => Sys2Proof.Machine.execSignalFence n s
  | .semOpWait n => Sys2Proof.Machine.execSemOpWait n s
  | .semOpAdd n => Sys2Proof.Machine.execSemOpAdd n s
  | .semOpSub n => Sys2Proof.Machine.execSemOpSub n s
  | .semOpArrive n => Sys2Proof.Machine.execSemOpArrive n s
  | .copy n => Sys2Proof.Machine.execCopy n s
  | .copyChannelStart => Sys2Proof.Machine.execCopyChannelStart s
  | .copyComplete k pos ecc => Sys2Proof.Machine.execCopyComplete k pos ecc s
  | .writeReg n => Sys2Proof.Machine.execWriteReg n s
  | .setContext n => Sys2Proof.Machine.execSetContext n s
  | .loadHandleTable n => Sys2Proof.Machine.execLoadHandleTable n s
  | .teardownQueue n => Sys2Proof.Machine.execTeardownQueue n s
  | .timestamp n => Sys2Proof.Machine.execTimestamp n s
  | .timestampEarly n => Sys2Proof.Machine.execTimestampEarly n s
  | .jobStart n ecc => Sys2Proof.Machine.execJobStart n ecc s
  | .feCompRead fn q size => Sys2Proof.Machine.execFeCompRead fn q size s
  | .feCerrRead fn q size => Sys2Proof.Machine.execFeCerrRead fn q size s
  | .feQslotSeqRead fn n => Sys2Proof.Machine.execFeQslotSeqRead fn n s
  | .feQslotBufRead fn n => Sys2Proof.Machine.execFeQslotBufRead fn n s
  | .synFslotValRead k => Sys2Proof.Machine.execSynFslotValRead k s
  | .jobTimeout q k t => Sys2Proof.Machine.execJobTimeout q k t s
  | .flowRunTimeout n t => Sys2Proof.Machine.execFlowRunTimeout n t s
  | .fenceWaitTimeout n t => Sys2Proof.Machine.execFenceWaitTimeout n t s
  | .timeoutGraceExpiry q k t => Sys2Proof.Machine.execTimeoutGraceExpiry q k t s
  | .teardownAck e q => Sys2Proof.Machine.execTeardownAck e q s
  | .teardownDrained q => Sys2Proof.Machine.execTeardownDrained q s
  | .promiseListRead q pos ecc => Sys2Proof.Machine.execPromiseListRead q pos ecc s
  | .teardownLimitExpiry q t => Sys2Proof.Machine.execTeardownLimitExpiry q t s
  | .eflanScan t => Sys2Proof.Machine.execEflanScan t s
  | .mw2Read fn x n pos ecc => Sys2Proof.Machine.execMw2Read fn x n pos ecc s
  | .mw2Write fn x data poisoned pos ecc => Sys2Proof.Machine.execMw2Write fn x data poisoned pos ecc s
  | .hostReadCompletion r a cpl data c => Sys2Proof.Machine.execHostReadCompletion r a cpl data c s
  | .hostReadTimeout r a c => Sys2Proof.Machine.execHostReadTimeout r a c s
  | .atomicOpReceived fn => Sys2Proof.Machine.execAtomicOpReceived fn s
  | .registerWrite fn off v size => Sys2Proof.Machine.execRegisterWrite fn off v size s
  | .vfFlr p c => Sys2Proof.Machine.execVfFlr p c s
  | .vfEnableChange en num c => Sys2Proof.Machine.execVfEnableChange en num c s
  | .partResetDrained p c => Sys2Proof.Machine.execPartResetDrained p c s
  | .partResetRelease p c => Sys2Proof.Machine.execPartResetRelease p c s
  | .pfFlr c => Sys2Proof.Machine.execPfFlr c s
  | .hotReset c => Sys2Proof.Machine.execHotReset c s
  | .perstAssert c => Sys2Proof.Machine.execPerstAssert c s
  | .perstRelease => Sys2Proof.Machine.execPerstRelease s
  | .linkDown c => Sys2Proof.Machine.execLinkDown c s
  | .msixSend fn v c => Sys2Proof.Machine.execMsixSend fn v c s
  | .msixUnmask fn v en fm => Sys2Proof.Machine.execMsixUnmask fn v en fm s
  | .serialRead addr len => Sys2Proof.Machine.execSerialRead addr len s
  | .serialWrite addr len data crc cut => Sys2Proof.Machine.execSerialWrite addr len data crc cut s
  | .serialPortReset => Sys2Proof.Machine.execSerialPortReset s
  | .serialBadCommand => Sys2Proof.Machine.execSerialBadCommand s
  | .mailboxGo m serial irq => Sys2Proof.Machine.execMailboxGo m serial irq s
  | .mailboxTake => Sys2Proof.Machine.execMailboxTake s
  | .mailboxDoneClear m serial => Sys2Proof.Machine.execMailboxDoneClear m serial s
  | .unknownMessage m => Sys2Proof.Machine.execUnknownMessage m s
  | .version m => Sys2Proof.Machine.execVersion m s
  | .partCreate m => Sys2Proof.Machine.execPartCreate m s
  | .partChange m => Sys2Proof.Machine.execPartChange m s
  | .partDestroy m c => Sys2Proof.Machine.execPartDestroy m c s
  | .partReset m c => Sys2Proof.Machine.execPartReset m c s
  | .partAperture m => Sys2Proof.Machine.execPartAperture m s
  | .contextCreate m => Sys2Proof.Machine.execContextCreate m s
  | .contextUpdate m => Sys2Proof.Machine.execContextUpdate m s
  | .contextDestroy m => Sys2Proof.Machine.execContextDestroy m s
  | .queueCreate m => Sys2Proof.Machine.execQueueCreate m s
  | .queueDestroy m c => Sys2Proof.Machine.execQueueDestroy m c s
  | .queueCounters m => Sys2Proof.Machine.execQueueCounters m s
  | .fenceRelease m => Sys2Proof.Machine.execFenceRelease m s
  | .fenceStatus m => Sys2Proof.Machine.execFenceStatus m s
  | .semSet m c => Sys2Proof.Machine.execSemSet m c s
  | .powerState m t => Sys2Proof.Machine.execPowerState m t s
  | .powerEntryStep t => Sys2Proof.Machine.execPowerEntryStep t s
  | .wakeStepReady t => Sys2Proof.Machine.execWakeStepReady t s
  | .wakeStepTimeout unit t => Sys2Proof.Machine.execWakeStepTimeout unit t s
  | .clockSwitchPll m t => Sys2Proof.Machine.execClockSwitchPll m t s
  | .clockSwitchWake m t => Sys2Proof.Machine.execClockSwitchWake m t s
  | .pllLock t => Sys2Proof.Machine.execPllLock t s
  | .telemetry m => Sys2Proof.Machine.execTelemetry m s
  | .regWrite m t => Sys2Proof.Machine.execRegWrite m t s
  | .regClear m => Sys2Proof.Machine.execRegClear m s
  | .displayConfig m pos ecc t => Sys2Proof.Machine.execDisplayConfig m pos ecc t s
  | .captureConfig m pos ecc => Sys2Proof.Machine.execCaptureConfig m pos ecc s
  | .foxgloveSetCommand m => Sys2Proof.Machine.execFoxgloveSetCommand m s
  | .foxgloveStageWrite m => Sys2Proof.Machine.execFoxgloveStageWrite m s
  | .foxgloveKeyInstall m => Sys2Proof.Machine.execFoxgloveKeyInstall m s
  | .foxgloveCheckDone => Sys2Proof.Machine.execFoxgloveCheckDone s
  | .foxgloveStatus m => Sys2Proof.Machine.execFoxgloveStatus m s
  | .errlogRead m => Sys2Proof.Machine.execErrlogRead m s
  | .errlogConfig m => Sys2Proof.Machine.execErrlogConfig m s
  | .idQuery m => Sys2Proof.Machine.execIdQuery m s
  | .attest m t => Sys2Proof.Machine.execAttest m t s
  | .fwUpdateBegin m => Sys2Proof.Machine.execFwUpdateBegin m s
  | .fwUpdateData m => Sys2Proof.Machine.execFwUpdateData m s
  | .fwUpdateCommit m => Sys2Proof.Machine.execFwUpdateCommit m s
  | .fwUpdateAbort m => Sys2Proof.Machine.execFwUpdateAbort m s
  | .configUpdateBegin m => Sys2Proof.Machine.execConfigUpdateBegin m s
  | .configUpdateData m => Sys2Proof.Machine.execConfigUpdateData m s
  | .configUpdateCommit m => Sys2Proof.Machine.execConfigUpdateCommit m s
  | .configUpdateAbort m => Sys2Proof.Machine.execConfigUpdateAbort m s
  | .bootRomStart t flashErr => Sys2Proof.Machine.execBootRomStart t flashErr s
  | .eflanStart puf t => Sys2Proof.Machine.execEflanStart puf t s
  | .eflanHeartbeat t => Sys2Proof.Machine.execEflanHeartbeat t s
  | .peonyWatchdogExpiry t => Sys2Proof.Machine.execPeonyWatchdogExpiry t s
  | .frameStartPacket u v t hdr => Sys2Proof.Machine.execFrameStartPacket u v t hdr s
  | .linePacket u v t dt hdr crc px chroma ecc => Sys2Proof.Machine.execLinePacket u v t dt hdr crc px chroma ecc s
  | .frameEndPacket u v t hdr => Sys2Proof.Machine.execFrameEndPacket u v t hdr s
  | .otherShortPacket u v t hdr => Sys2Proof.Machine.execOtherShortPacket u v t hdr s
  | .dphyError u v t => Sys2Proof.Machine.execDphyError u v t s
  | .captureSemAdd u v => Sys2Proof.Machine.execCaptureSemAdd u v s
  | .displayLine p t late bad fgBad => Sys2Proof.Machine.execDisplayLine p t late bad fgBad s
  | .displayFrameBoundary p => Sys2Proof.Machine.execDisplayFrameBoundary p s
  | .hpdChange p high => Sys2Proof.Machine.execHpdChange p high s
  | .linkTrainingDone p ok => Sys2Proof.Machine.execLinkTrainingDone p ok s
  | .auxTransaction p => Sys2Proof.Machine.execAuxTransaction p s
  | .auxReply p code data => Sys2Proof.Machine.execAuxReply p code data s
  | .powerSample t mw mv => Sys2Proof.Machine.execPowerSample t mw mv s
  | .tempSample t die hbm => Sys2Proof.Machine.execTempSample t die hbm s
  | .thermalTrip t die hbm => Sys2Proof.Machine.execThermalTrip t die hbm s
  | .engineResetEnd e c => Sys2Proof.Machine.execEngineResetEnd e c s
  | .cxResetEnd k c => Sys2Proof.Machine.execCxResetEnd k c s
  | .selfTestEnd e pass c => Sys2Proof.Machine.execSelfTestEnd e pass c s
  | .internalUncorrectable x c => Sys2Proof.Machine.execInternalUncorrectable x c s
  | .prsnt2Change low t => Sys2Proof.Machine.execPrsnt2Change low t s
  | .pwrdisChange high t => Sys2Proof.Machine.execPwrdisChange high t s
  | .inputVoltageChange mv t => Sys2Proof.Machine.execInputVoltageChange mv t s
  | .hotSwapClose t => Sys2Proof.Machine.execHotSwapClose t s
  | .powerGood t => Sys2Proof.Machine.execPowerGood t s
  | .overcurrent ma us mv t => Sys2Proof.Machine.execOvercurrent ma us mv t s
  | .faultLatchClear t cool => Sys2Proof.Machine.execFaultLatchClear t cool s
  | .receiverSyncChange u on => Sys2Proof.Machine.execReceiverSyncChange u on s
  | .pcieLinkUp speed lanes => Sys2Proof.Machine.execPcieLinkUp speed lanes s
  | .attestSigned m t => Sys2Proof.Machine.execAttestSigned m t s
  | .partDestroyDone p c => Sys2Proof.Machine.execPartDestroyDone p c s
  | .otherSlotCheck t => Sys2Proof.Machine.execOtherSlotCheck t s

end Sys2Proof.Machine
end

