-- ==== Sys2Proof/Safety.lean ====
section
/-!
DEFINITION. What a state has to satisfy to be one that the device can be in, in the terms the statements use, and what a
command may do to it.
-/
namespace Sys2Proof.Machine

/-- What holds of every state of a run: the memories and the register file have their canonical form, the error log is a
ring of 2,048 records (R565), and its next SEQ is a 32-bit number (R566). -/
structure Inv (s : State) : Prop where
  hbm : s.hbm.wf = true
  tile : s.tile.wf = true
  host : s.host.wf = true
  staging : s.staging.wf = true
  flash : s.flash.wf = true
  regs : tabWf resetWord s.regs = true
  recs : s.log.recs.length ≤ 2048
  seq : s.log.seq < 2 ^ 32

/-- `t` comes from `s` by a command: the queue is as it was, and `Inv` is kept. -/
structure Keeps (s t : State) : Prop where
  pending : t.pending = s.pending
  inv : Inv s → Inv t

/-- Every next state of an outcome comes from `s` by a command. -/
def KeepsOut (s : State) (o : Out) : Prop := ∀ t, o = .next t → Keeps s t

/-- The fields of `State` by name. -/
inductive Field
  | pending | now | pll | aclkBase | aclkFrom | fresh | regs | log | lc | msix | msixCtl | sent | rdata | rstat
  | pipeActive | hbm | tile | host | engines | semCycles | fslots | fclock | fwaiting | pageIns | fsigs
  | transits | arbs | replies | arrived | mcs | routers | meshOut | ctxs | queues | slots | reloc | jobs
  | jobKey | copies | compWaits | cx | disps | pres | xfers | placedIn | lastServed | passes | geoTurn
  | hostReads | model | loading | monFrame | failOrder | mbWait | mboxes | mbOrder | staging | caps | capStop
  | capFaults | pipes | foxKey | foxCount | foxChecked | foxCmd | power | hotSwap | resets | wide | perst
  | pcieOut | peony | flash | wire
  deriving DecidableEq, Repr

/-- The place of a field in `State`. -/
def Field.idx : Field → Nat
  | .pending => 0 | .now => 1 | .pll => 2 | .aclkBase => 3 | .aclkFrom => 4 | .fresh => 5 | .regs => 6
  | .log => 7 | .lc => 8 | .msix => 9 | .msixCtl => 10 | .sent => 11 | .rdata => 12 | .rstat => 13
  | .pipeActive => 14 | .hbm => 15 | .tile => 16 | .host => 17 | .engines => 18 | .semCycles => 19
  | .fslots => 20 | .fclock => 21 | .fwaiting => 22 | .pageIns => 23 | .fsigs => 24 | .transits => 25
  | .arbs => 26 | .replies => 27 | .arrived => 28 | .mcs => 29 | .routers => 30 | .meshOut => 31 | .ctxs => 32
  | .queues => 33 | .slots => 34 | .reloc => 35 | .jobs => 36 | .jobKey => 37 | .copies => 38
  | .compWaits => 39 | .cx => 40 | .disps => 41 | .pres => 42 | .xfers => 43 | .placedIn => 44
  | .lastServed => 45 | .passes => 46 | .geoTurn => 47 | .hostReads => 48 | .model => 49 | .loading => 50
  | .monFrame => 51 | .failOrder => 52 | .mbWait => 53 | .mboxes => 54 | .mbOrder => 55 | .staging => 56
  | .caps => 57 | .capStop => 58 | .capFaults => 59 | .pipes => 60 | .foxKey => 61 | .foxCount => 62
  | .foxChecked => 63 | .foxCmd => 64 | .power => 65 | .hotSwap => 66 | .resets => 67 | .wide => 68
  | .perst => 69 | .pcieOut => 70 | .peony => 71 | .flash => 72 | .wire => 73

/-- THE FRAME OF A COMMAND: every field of the state outside the list `l` is in `t` what it is in `s`. A list that leaves
out `hbm`, `tile`, `host`, `staging` and `flash` says that no byte of any memory changes, one that leaves out `regs` that
no plain register does. -/
structure Changes (l : List Field) (s t : State) : Prop where
  pending : Field.pending ∉ l → t.pending = s.pending
  now : Field.now ∉ l → t.now = s.now
  pll : Field.pll ∉ l → t.pll = s.pll
  aclkBase : Field.aclkBase ∉ l → t.aclkBase = s.aclkBase
  aclkFrom : Field.aclkFrom ∉ l → t.aclkFrom = s.aclkFrom
  fresh : Field.fresh ∉ l → t.fresh = s.fresh
  regs : Field.regs ∉ l → t.regs = s.regs
  log : Field.log ∉ l → t.log = s.log
  lc : Field.lc ∉ l → t.lc = s.lc
  msix : Field.msix ∉ l → t.msix = s.msix
  msixCtl : Field.msixCtl ∉ l → t.msixCtl = s.msixCtl
  sent : Field.sent ∉ l → t.sent = s.sent
  rdata : Field.rdata ∉ l → t.rdata = s.rdata
  rstat : Field.rstat ∉ l → t.rstat = s.rstat
  pipeActive : Field.pipeActive ∉ l → t.pipeActive = s.pipeActive
  hbm : Field.hbm ∉ l → t.hbm = s.hbm
  tile : Field.tile ∉ l → t.tile = s.tile
  host : Field.host ∉ l → t.host = s.host
  engines : Field.engines ∉ l → t.engines = s.engines
  semCycles : Field.semCycles ∉ l → t.semCycles = s.semCycles
  fslots : Field.fslots ∉ l → t.fslots = s.fslots
  fclock : Field.fclock ∉ l → t.fclock = s.fclock
  fwaiting : Field.fwaiting ∉ l → t.fwaiting = s.fwaiting
  pageIns : Field.pageIns ∉ l → t.pageIns = s.pageIns
  fsigs : Field.fsigs ∉ l → t.fsigs = s.fsigs
  transits : Field.transits ∉ l → t.transits = s.transits
  arbs : Field.arbs ∉ l → t.arbs = s.arbs
  replies : Field.replies ∉ l → t.replies = s.replies
  arrived : Field.arrived ∉ l → t.arrived = s.arrived
  mcs : Field.mcs ∉ l → t.mcs = s.mcs
  routers : Field.routers ∉ l → t.routers = s.routers
  meshOut : Field.meshOut ∉ l → t.meshOut = s.meshOut
  ctxs : Field.ctxs ∉ l → t.ctxs = s.ctxs
  queues : Field.queues ∉ l → t.queues = s.queues
  slots : Field.slots ∉ l → t.slots = s.slots
  reloc : Field.reloc ∉ l → t.reloc = s.reloc
  jobs : Field.jobs ∉ l → t.jobs = s.jobs
  jobKey : Field.jobKey ∉ l → t.jobKey = s.jobKey
  copies : Field.copies ∉ l → t.copies = s.copies
  compWaits : Field.compWaits ∉ l → t.compWaits = s.compWaits
  cx : Field.cx ∉ l → t.cx = s.cx
  disps : Field.disps ∉ l → t.disps = s.disps
  pres : Field.pres ∉ l → t.pres = s.pres
  xfers : Field.xfers ∉ l → t.xfers = s.xfers
  placedIn : Field.placedIn ∉ l → t.placedIn = s.placedIn
  lastServed : Field.lastServed ∉ l → t.lastServed = s.lastServed
  passes : Field.passes ∉ l → t.passes = s.passes
  geoTurn : Field.geoTurn ∉ l → t.geoTurn = s.geoTurn
  hostReads : Field.hostReads ∉ l → t.hostReads = s.hostReads
  model : Field.model ∉ l → t.model = s.model
  loading : Field.loading ∉ l → t.loading = s.loading
  monFrame : Field.monFrame ∉ l → t.monFrame = s.monFrame
  failOrder : Field.failOrder ∉ l → t.failOrder = s.failOrder
  mbWait : Field.mbWait ∉ l → t.mbWait = s.mbWait
  mboxes : Field.mboxes ∉ l → t.mboxes = s.mboxes
  mbOrder : Field.mbOrder ∉ l → t.mbOrder = s.mbOrder
  staging : Field.staging ∉ l → t.staging = s.staging
  caps : Field.caps ∉ l → t.caps = s.caps
  capStop : Field.capStop ∉ l → t.capStop = s.capStop
  capFaults : Field.capFaults ∉ l → t.capFaults = s.capFaults
  pipes : Field.pipes ∉ l → t.pipes = s.pipes
  foxKey : Field.foxKey ∉ l → t.foxKey = s.foxKey
  foxCount : Field.foxCount ∉ l → t.foxCount = s.foxCount
  foxChecked : Field.foxChecked ∉ l → t.foxChecked = s.foxChecked
  foxCmd : Field.foxCmd ∉ l → t.foxCmd = s.foxCmd
  power : Field.power ∉ l → t.power = s.power
  hotSwap : Field.hotSwap ∉ l → t.hotSwap = s.hotSwap
  resets : Field.resets ∉ l → t.resets = s.resets
  wide : Field.wide ∉ l → t.wide = s.wide
  perst : Field.perst ∉ l → t.perst = s.perst
  pcieOut : Field.pcieOut ∉ l → t.pcieOut = s.pcieOut
  peony : Field.peony ∉ l → t.peony = s.peony
  flash : Field.flash ∉ l → t.flash = s.flash
  wire : Field.wire ∉ l → t.wire = s.wire

/-- No register but those of the list `offs` (by their MW0 offsets) changes. -/
def RegsBut (offs : List Nat) (s t : State) : Prop := ∀ off, off ∉ offs → rd t off = rd s off

/-- COMPLETION: the command answers a next state, in which `P` holds and in which no field outside `l` has changed. -/
def Completes (c : Instr) (s : State) (l : List Field) (P : State → Prop) : Prop :=
  ∃ t, exec c s = .next t ∧ Changes l s t ∧ P t

/-! ### The front end's decoding of a command -/

/-- `s` with the start of slot `n`'s next command noted (FE_QSLOT's header place, R397). -/
def atHeader (s : State) (n : Nat) : State := setSlot s n { slotOf s n with hdr := (slotOf s n).buf.pos }

/-- Slot `n` decodes as its next command one of opcode `op`, its words are `w`, and every check of R396 passes: the
handles `needs` that the command uses relocate to `refs`. -/
structure Decodes (s : State) (n op : Nat) (w : List Nat) (needs : List (Nat × Need)) (refs : List Ref) : Prop where
  /-- The device is in P0 with no transition in progress, and the slot fetches inside an entry (R390, R550). -/
  runs : feRuns s = true
  ready : canDecode (slotOf s n) = true
  /-- The command's words are read without a violation (R310), and its header names the opcode and a length that fits
  (R396 checks 1 to 3). -/
  fetched : cmdFault s n 1 = none
  opcode : bits (nth (cmdWords s n 1) 0) 24 8 = op
  kernel : kernelOnly op = true → (que s (slotOf s n).queue).kernel = true
  length : bits (nth (cmdWords s n 1) 0) 12 12 ≠ 0
  fixed : (opLen op).getD (bits (nth (cmdWords s n 1) 0) 12 12) = bits (nth (cmdWords s n 1) 0) 12 12
  fits : (slotOf s n).buf.pos + bits (nth (cmdWords s n 1) 0) 12 12 ≤ (slotOf s n).buf.words
  whole : cmdFault s n (bits (nth (cmdWords s n 1) 0) 12 12) = none
  words : cmdWords s n (bits (nth (cmdWords s n 1) 0) 12 12) = w
  /-- COND skips nothing (R407), and flow structure and pass order are kept (R199, R396 checks 4 and 5). -/
  noSkip : (slotOf s n).skip = 0
  flow : flowBreak (slotOf (atHeader s n) n) op = none
  pass : passBreak (que s (slotOf s n).queue).inPass op w = false
  kept : op = 0x12 ∨ op = 0x30 → discarding s (slotOf s n).queue = false
  /-- Its handles relocate (R364, R396 check 6). -/
  reloc : relocAll (atHeader s n) (slotOf s n).ctx needs [] = .ok refs

/-- The state in which a command of slot `n` acts once its checks have passed: its handles are counted and marked as
used (R367, R430), and a run of flow-control commands has its timer (R427). -/
def decoded (s : State) (n op : Nat) (needs : List (Nat × Need)) : State :=
  let s1 := touchAll (bump (atHeader s n) (feOff 0x14) needs.length) ((slotOf s n).ctx.getD 0) needs
  if 0x01 ≤ op ∧ op ≤ 0x06 ∧ (slotOf s n).flowFrom = none then
    setSlot s1 n { slotOf s1 n with flowFrom := some s1.now, flowLimit := timeLimit s1 } else s1

/-- The state in which a command of slot `n` acts once its job order lets it begin: the slot has moved past its `k` words. -/
def began (s : State) (n op : Nat) (needs : List (Nat × Need)) (k : Nat) : State := beginAt (decoded s n op needs) n k

/-- Slot `n` of `t` is `x`, but for the place of the command's header (R397) and the timer of flow control (R427); no other
slot has changed. -/
structure SlotIs (s t : State) (n : Nat) (x : SlotSt) : Prop where
  slot : slotOf t n = { x with hdr := (slotOf t n).hdr, flowFrom := (slotOf t n).flowFrom,
                               flowLimit := (slotOf t n).flowLimit }
  others : ∀ k, k ≠ n → slotOf t k = slotOf s k

/-- The slot `x` fetches on, `k` words further in its buffer, with no command held. -/
def SlotSt.begun (x : SlotSt) (k : Nat) : SlotSt :=
  { x with mode := .fetching, hold := 0, held := none, buf := { x.buf with pos := x.buf.pos + k } }

/-- The slot `x` has moved `k` words on in its buffer. -/
def SlotSt.past (x : SlotSt) (k : Nat) : SlotSt := { x with buf := { x.buf with pos := x.buf.pos + k } }

/-! ### Loads -/

/-- A load has delivered the bytes `d` to wave `x`, which is wave `w` of engine `e` (R86, R93, R101): they are in the
scalar register it names, or, word by word, in the active elements of the vector register from the first one on, and
nothing else of the wave's registers has changed. -/
def Delivered (s t : State) (e w : Nat) (x : Wave) (d : List Byte) : LoadDst → Prop
  | .scalar g => (eng t e).vreg = (eng s e).vreg ∧ ∃ y, waveAt t e w = some y ∧ y.pc = x.pc ∧
      ∀ r : Fin 32, tabGet (fun _ => 0#32) r y.g =
        if r = g then BitVec.ofNat 32 (leNat (d.take 4)) else tabGet (fun _ => 0#32) r x.g
  | .vector v el => (eng t e).waves = (eng s e).waves ∧ ∀ r, physReg x v = some r →
      ∀ i, tabFind (r * 512 + i) (eng t e).vreg =
        if i < 512 ∧ bit x.mask i = true ∧ el.val ≤ i ∧ i - el < (bytesWords d).length then
          some (BitVec.ofNat 32 (nth (bytesWords d) (i - el)))
        else tabFind (r * 512 + i) (eng s e).vreg

/-! ### Tensor instructions -/

/-- What a tensor instruction that has run leaves (R95 to R98, R140, R151 to R153): its stage, accumulator half or rows
of tile memory, the cycles from which its resources are free, and what it does not touch. -/
def TensorDone (s t : State) (e : Nat) : TIns → Prop
  | .load k kg off st f =>
    (stageOf' (eng t e) k).kg = kg ∧ (stageOf' (eng t e) k).fmt = f ∧
    (stageOf' (eng t e) k).readyAt = aclk t + 8 * kg + 3 ∧ (eng t e).loadFree = aclk t + 8 * kg ∧
    (∀ r j, r < 16 * kg → j < 64 → tabFind (r * 64 + j) (stageOf' (eng t e) k).bytes =
      some (s.tile.read (e * 2 ^ 22 + (off + r * st + j) % 2 ^ 22))) ∧
    stageOf' (eng t e) (1 - k) = stageOf' (eng s e) (1 - k) ∧ (eng t e).acc0 = (eng s e).acc0 ∧
    (eng t e).acc1 = (eng s e).acc1 ∧ t.tile = s.tile
  | .mma k a m kg off st f accum =>
    let b := stageOf' (eng s e) k
    let h := accOf (eng s e) a
    let g := min kg (max 1 b.kg)
    let w := arrayWidth f b.fmt
    let m := if w = 128 then min m 128 else m
    let float := !(isIntFmt f && isIntFmt b.fmt)
    (accOf (eng t e) a).width = w ∧ (accOf (eng t e) a).float = float ∧
    (accOf (eng t e) a).readyAt = aclk t + m * g + 9 ∧ (eng t e).arrayFree = aclk t + m * g ∧
    stageOf' (eng t e) k = { b with freeAt := aclk t + m * g } ∧
    (∀ i j, i < m → j < w → (accum = false ∨ h.width = w ∧ h.float = float) →
      tabFind (i * w + j) (accOf (eng t e) a).words = some (BitVec.ofNat 32 (accGroups float f b.fmt
        (fun q => (List.range 16).map fun n =>
          (rowElem f (tRead s.tile e (off + i * st) (16 * g * fmtWidth f / 8)) (16 * q + n), bElem b (16 * q + n) j))
        (if accum then ((tabFind (i * w + j) h.words).getD 0#32).toNat else 0) 0 (List.range g)).1)) ∧
    accOf (eng t e) (1 - a) = accOf (eng s e) (1 - a) ∧ t.tile = s.tile
  | .drain a m off st f rnd ieee scale _ =>
    let h := accOf (eng s e) a
    let w := h.width
    let m := if w = 128 then min m 128 else m
    let len := w * fmtWidth f / 8
    let val (k : Nat) : Val := decodeVal (if h.float then .fp32 else .int32) ((tabFind k h.words).getD 0#32).toNat
    let out (k : Nat) : Nat := (roundInto f (scaled (val k) scale) rnd ieee
      (if rnd = .stochastic ∧ f ≠ .f19 then genDraw (genSkip (genOf (eng s e) (128 + k % 64)) (k / 64 + 1)) else 0)).1
    (eng t e).drainFree = aclk t + ceilDiv (m * w) (if fmtWidth f = 32 then 32 else 64) ∧
    accOf (eng t e) a = { h with freeAt := (eng t e).drainFree } ∧
    (eng t e).stage0 = (eng s e).stage0 ∧ (eng t e).stage1 = (eng s e).stage1 ∧
    (w ≤ 128 → ∀ x, (∀ i n, i < m → n < len → x ≠ e * 2 ^ 22 + (off + i * st + n) % 2 ^ 22) →
      t.tile.read x = s.tile.read x) ∧
    ∀ i n, w ≤ 128 → i < m → n < len →
      (∀ i' n', i < i' → i' < m → n' < len → (off + i' * st + n') % 2 ^ 22 ≠ (off + i * st + n) % 2 ^ 22) →
      some (t.tile.read (e * 2 ^ 22 + (off + i * st + n) % 2 ^ 22)) =
        (wordBytes ((packElems f ((List.range w).map fun j => out (i * w + j))).map (·.toNat)))[n]?

/-! ### External memory -/

/-- The bytes `d` are at address `a` of external memory, and no other byte of it has changed. -/
structure Stored (s t : State) (a : Nat) (d : List Byte) : Prop where
  bytes : ∀ i, i < d.length → some (t.hbm.read (a + i)) = d[i]?
  rest : ∀ x, (x < a ∨ a + d.length ≤ x) → t.hbm.read x = s.hbm.read x

/-- The bytes `d` are at a place in external or in tile memory (R349), and no other byte of either has changed. -/
structure Placed (s t : State) (p : Place) (d : List Byte) : Prop where
  obj : ∀ r, p = .obj r → Stored s t r.addr d ∧ t.tile = s.tile
  tile : ∀ e off, p = .tile e off → t.hbm = s.hbm ∧ t.tile = s.tile.writeBytes (e * 2 ^ 22 + off) d

/-- A write of `n` bytes at a place passes its checks, and lies in external or in tile memory (R310, R349). -/
structure PlaceOpen (s : State) (tag : Nat) (p : Place) (n : Nat) : Prop where
  inRange : placeWriteFault s tag p n = none
  device : ∀ r, p = .obj r → r.addr + n ≤ 2 ^ 47

/-! ### Jobs -/

/-- Job `j` of `s` has ended with code `err`, 0 for none: its queue counts it as R256 and R422 say, and no other job and no
other queue has changed. -/
structure JobEnded (s t : State) (j : Job) (err : Nat) : Prop where
  queue : que t j.queue = (que s j.queue).finish j.seq err
  gone : jobOf t j.key = none
  jobs : ∀ k, k ≠ j.key → jobOf t k = jobOf s k
  queues : ∀ q, q ≠ j.queue → que t q = que s q

/-- The queue has given the next sequence number to a job (R410, R256). -/
def Queue.took (x : Queue) : Queue := { x with seq := (x.seq + 1) % 2 ^ 48, submitted := x.submitted + 1 }

/-- A job of queue `q` has taken the next number and ended at once with code `err` (R256, R410, R422). -/
structure InstantJob (s t : State) (q err : Nat) : Prop where
  queue : que t q = (que s q).took.finish (que s q).took.seq err
  queues : ∀ k, k ≠ q → que t k = que s k
  jobs : t.jobs = s.jobs

/-- A job of a kind has begun in queue `q`: it has taken the next number, and its timer runs from now (R410, R426). -/
structure JobStarted (s t : State) (q : Nat) (kind : JobKind) : Prop where
  queue : que t q = (que s q).took
  queues : ∀ k, k ≠ q → que t k = que s k
  key : t.jobKey = s.jobKey + 1
  jobs : ∃ limit, t.jobs = s.jobs ++ [{ key := s.jobKey + 1, queue := q, seq := (que s q).took.seq, kind := kind,
                                        part := (que s q).part, since := s.now, limit := limit }]

/-- The queue of slot `n` has faulted with `err` (R397): the command that raised it counts as a job ended with `err`, QFAULT
reads 1, the slot is HALTED with its header place kept, FE_QFAULTS has risen by 1 and one record is appended. -/
structure QueueFaulted (s t : State) (n err : Nat) : Prop where
  slot : slotOf t n = { slotOf s n with
    mode := .halted
    hold := 0
    held := none
    flowFrom := none
    waitFrom := none
    spin := none
    miss := none
    hdr := (slotOf t n).hdr }
  slots : ∀ k, k ≠ n → slotOf t k = slotOf s k
  queue : que t (slotOf s n).queue =
    { (que s (slotOf s n).queue).took.finish (que s (slotOf s n).queue).took.seq err with qfault := true }
  queues : ∀ k, k ≠ (slotOf s n).queue → que t k = que s k
  jobs : t.jobs = s.jobs
  counted : rd t (feOff 0x08) = (rd s (feOff 0x08) + 1) % 2 ^ 32
  regs : RegsBut [feOff 0x08] s t
  logged : t.log.seq = (s.log.seq + 1) % 2 ^ 32

/-! ### Semaphores and releases -/

/-- No operation on semaphore `sem` has been accepted in the present ACLK cycle or in a later one (R274). -/
def SemQuiet (s : State) (sem : Nat) : Prop := ∀ y ∈ s.semCycles, y.sem = sem → y.cycle < aclk s

/-- A release of engine `e` takes effect as it is issued: no line is dirty, every earlier store is acknowledged and no
earlier release waits (R111, R296). -/
structure ReleasesAtOnce (s : State) (e : Nat) : Prop where
  clean : ∀ n l, tabFind n (eng s e).lines = some l → l.dirty = 0
  stores : (eng s e).outstanding = 0
  first : (eng s e).releases = []

/-! ### Mailbox messages -/

/-- Eflan acts next on the request `w` of mailbox `m`, whose CODE is `code`, and the checks common to all messages pass
(R448, R465, R469, R470). -/
structure Served (s : State) (m code : Nat) (w : List Nat) : Prop where
  next : mbNext s = some (m, w)
  served : serves s m = true
  coded : bits (nth w 0) 0 12 = code
  known : knownCode s mbCodes code = true
  version : bits (nth w 0) 12 4 = 1
  mb0 : mb0Only code = true → m = 0
  quiet : code ≠ 0x013 → ((mbPart w).map (partBusy s)).getD false = false

/-- The registers of mailbox `m` that a reply writes: the reply words and the control word (R467, R482). -/
def replyRegs (m : Nat) : List Nat := (List.range 16).map (fun i => mbOff m (0x40 + 4 * i)) ++ [mbOff m 0x80]

/-- Mailbox `m` shows the reply to the request `w` (R463, R467): CODE, VER and TAG echoed, STATUS `status`, the words
`words`, GO and TAKEN 0 and DONE 1, and the request is no longer held. -/
structure Replied (t : State) (m : Nat) (w : List Nat) (status : Nat) (words : List Nat) : Prop where
  head : rd t (mbOff m 0x40) = bits (nth w 0) 0 16 + status * 2 ^ 16 + bits (nth w 0) 24 8 * 2 ^ 24
  body : ∀ i, i < 15 → rd t (mbOff m (0x44 + 4 * i)) = nth words i % 2 ^ 32
  ctl : fld t (mbOff m 0x80) 0 3 = 4
  taken : tabFind m t.mboxes = none
  order : m ∉ t.mbOrder

/-! ### Partition resets -/

/-- The reset `r` of a partition has started, with none of it in progress before (R446, R447 orders 1 and 2): RESET reads 1
and STAGE 2, its engines are in reset without waves, and no unit holds its dispatches, transfers or raised requests. -/
structure ResetBegun (s t : State) (r : PReset) : Prop where
  shown : fld t (ptStatusOff r.part) 2 1 = 1
  stage : ptStage t r.part = 2
  listed : t.resets = s.resets ++ [{ r with failed := (partEngs s r.part).filter (engFailed s) }]
  engines : ∀ e ∈ partEngs s r.part, (eng t e).inReset = true ∧ (eng t e).waves = []
  dispatches : t.disps = s.disps.filter (·.part != r.part)
  raised : ∀ x ∈ t.arbs, ∀ b ∈ x.2.raised, b.tag ≠ r.part

/-- COMPLETION OF A MESSAGE: the command answers a next state in which mailbox `m` shows the reply to `w` with STATUS `status`
and `words`, no register but the mailbox's and those of `offs` has changed, and no field outside `l` but those a reply
writes. -/
def Answers (c : Instr) (s : State) (l : List Field) (offs : List Nat) (m : Nat) (w : List Nat) (status : Nat)
    (words : List Nat) (P : State → Prop) : Prop :=
  Completes c s ([.regs, .msix, .mboxes, .mbOrder] ++ l) fun t =>
    Replied t m w status words ∧ RegsBut (replyRegs m ++ offs) s t ∧ P t

end Sys2Proof.Machine
end

