-- ==== Sys2Proof/Certificates/Slice0/Obligations.lean ====
section
/-!
DEFINITION. The statements about the block: what each command does, what it leaves alone, and what every step keeps.
-/
open Sys2Proof Sys2Proof.Machine

/-- A step of a state whose queue has `c` at its front is `exec c` on that state with the queue's rest: commands act one at
a time and in the order in which they were given. -/
def Obligations.StepRunsTheFrontCommand : Prop :=
  ∀ (c : Instr) (rest : List Instr) (s : State), step { s with pending := c :: rest } = exec c { s with pending := rest }

/-- THE MODEL'S CHOICE (notes/assumptions/1.md): with an empty queue the block idles. -/
def Obligations.EmptyQueueIdles : Prop := ∀ s : State, s.pending = [] → step s = .next s

/-- No command of the table stops the machine: in every state each of them answers a next state, whose queue is the one it
was given. A run from any state therefore goes on as long as commands are given. -/
def Obligations.EveryCommandAnswersANextState : Prop :=
  (∀ (c : Instr) (s : State), ∃ t, exec c s = .next t ∧ t.pending = s.pending) ∧
  ∀ s : State, ∃ t, step s = .next t ∧ t.pending = s.pending.drop 1

/-- From every state that meets `Inv` (the five memories and the register file have their canonical form, the error log
holds at most 2,048 records and its next SEQ is a 32-bit number), whatever command is at the front of the queue, a step
gives a state that meets it. -/
def Obligations.StepKeepsInvariant : Prop := ∀ s t : State, Inv s → step s = .next t → Inv t

/-- The state right after reset meets `Inv`. -/
def Obligations.ResetMeetsInvariant : Prop := Inv State.reset

/-- R13, R56, R442, R565, R566: every register holds the word its table gives; the line clock's source is internal and
LOCKED; partition 0 exists with every enabled quad, the granules below the management range and weight 4, and partitions 1
to 8 do not exist; each ENG_ID_HI names its engine; the error log is empty and its next SEQ is 0; no command waits. The
numbers 764 (granules of partition 0) and the memory's empty lists are THE MODEL'S CHOICE (notes/assumptions/4.md and
notes/assumptions/6.md). -/
def Obligations.ResetValues : Prop :=
  (∀ off, rd State.reset off = (resetWord off).toNat) ∧
  State.reset.lc.mode = .locked ∧ fld State.reset (lcBase + 0x08) 0 2 = 3 ∧ lcKind State.reset = 3 ∧
  rd State.reset (lcBase + 0x24) = 8000000 ∧ fld State.reset (lcBase + 0x28) 8 24 = 7111 ∧
  rd State.reset (lcBase + 0x14) = 1125 ∧ rd State.reset (lcBase + 0x18) = 16667 ∧
  rd State.reset (ptBase + 0x00) = 3 ∧ rd State.reset (ptBase + 0x04) = 0xFFFF ∧
  fld State.reset (ptBase + 0x08) 16 16 = 764 ∧ fld State.reset (ptBase + 0x0C) 0 4 = 4 ∧
  (∀ p : Fin 9, p ≠ 0 → fld State.reset (ptBase + 0x20 * p) 0 1 = 0) ∧
  (∀ e : Eng, fld State.reset (engBase + 0x100 * e + 4) 16 8 = e) ∧
  State.reset.log.recs = [] ∧ State.reset.log.seq = 0 ∧ State.reset.pending = [] ∧
  (∀ a, State.reset.hbm.read a = 0) ∧ State.reset.model = none ∧ State.reset.mboxes = []

/-- R48, R52, R63, R64: a frame edge raises the frame number by 1 (it wraps), takes the line to 0 and the edge time to
the edge's own; the loss of the timebase sets FREEWHEEL and LOST in the same cycle. -/
def Obligations.LineClockFrameEdges : Prop :=
  (∀ s : State, s.lc.powered = true → lcKind s = 3 → s.lc.mode = .locked →
    Completes .internalFrameEdge s [.now, .regs, .log, .lc, .msix, .caps, .capFaults] fun t =>
      t.lc.frame = (s.lc.frame + 1) % 2 ^ 32 ∧ t.lc.line = 0 ∧ t.lc.edgeAt = s.lc.nextEdgeAt ∧ t.lc.mode = .locked ∧
        t.now = max s.now (25 * s.lc.nextEdgeAt)) ∧
  (∀ s : State, s.lc.powered = true → s.lc.mode ≠ .locked →
    Completes .freewheelFrameEdge s [.now, .regs, .log, .lc, .msix, .caps, .capFaults] fun t =>
      t.lc.frame = (s.lc.frame + 1) % 2 ^ 32 ∧ t.lc.line = 0 ∧ t.lc.edgeAt = s.lc.nextEdgeAt ∧ t.lc.mode = s.lc.mode ∧
        t.now = max s.now (25 * s.lc.nextEdgeAt)) ∧
  (∀ (s : State) (r : Nat), s.lc.powered = true → s.lc.mode = .locked → lcKind s ≠ 3 → s.lc.refAt = some r →
    Completes .timebaseLost s [.now, .regs, .log, .lc, .msix, .caps, .capFaults] fun t =>
      t.lc.frame = (s.lc.frame + 1) % 2 ^ 32 ∧ t.lc.line = 0 ∧ t.lc.edgeAt = r + lcFmax s ∧ t.lc.mode = .freewheel ∧
        t.now = max s.now (25 * (r + lcFmax s)))

/-- R51, R53, R55, R57, R60, R69, R85: reading LC_NOW_LO or LC_EDGE_LO latches the other half; a written LC_SRC is in
force in the next cycle; a tick raises the line number up to 65,535; an input pulse under 8 cycles is a glitch and no
edge; the output pulse ends after its ticks. -/
def Obligations.LineClockReadsAndTicks : Prop :=
  (∀ (s : State) (n : Nat), Completes (.lcNowLoRead n) s [.now, .regs, .rdata, .rstat] fun t =>
    t.now = max s.now (25 * n) ∧ t.rdata = [lcLp t (wake t)] ∧ t.rstat = 0 ∧
      rd t (lcBase + 0x04) = s.lc.frame % 2 ^ 32 ∧ RegsBut [lcBase + 0x04] s t) ∧
  (∀ s : State, Completes .lcEdgeLoRead s [.regs, .rdata, .rstat] fun t =>
    t.rdata = [s.lc.edgeAt % 2 ^ 32] ∧ t.rstat = 0 ∧ rd t (lcBase + 0x38) = s.lc.edgeAt / 2 ^ 32 % 2 ^ 32 ∧
      RegsBut [lcBase + 0x38] s t) ∧
  (∀ s : State, s.lc.powered = true → s.lc.srcDue = true → Completes .lcSourceChange s [.now, .lc] fun t =>
    t.now = max s.now (25 * (wake s + 1)) ∧ t.lc.src = rd s (lcBase + 0x08) ∧ t.lc.srcDue = false ∧
      t.lc.frame = s.lc.frame ∧ t.lc.line = s.lc.line ∧
      t.lc.mode = if sameSource s.lc.src (rd s (lcBase + 0x08)) then s.lc.mode
        else if fld s (lcBase + 0x08) 0 2 = 3 then .locked else .acquiring) ∧
  (∀ s : State, s.lc.powered = true → (lcKind s ≠ 1 ∨ s.lc.mode ≠ .locked) → Completes .lineTick s [.now, .lc] fun t =>
    t.lc = { s.lc with line := min 65535 (s.lc.line + 1), tickAt := s.lc.tickAt + s.lc.lperiod,
                       fsoLeft := s.lc.fsoLeft - 1 } ∧
      t.now = max s.now (25 * ceilDiv (s.lc.tickAt + s.lc.lperiod) 256)) ∧
  (∀ (s : State) (n len : Nat), s.lc.powered = true → lcKind s = 0 → len < 8 →
    Completes (.frameSyncPulse n len) s [.now, .regs, .lc] fun t =>
      t.now = max s.now (25 * n) ∧ t.lc.frame = s.lc.frame ∧ t.lc.refAt = s.lc.refAt ∧ t.lc.mode = s.lc.mode ∧
        t.lc.glitchInFrame = s.lc.glitchInFrame + 1 ∧ rd t lcGlitchOff = (rd s lcGlitchOff + 1) % 2 ^ 32 ∧
        RegsBut [lcGlitchOff] s t) ∧
  (∀ (s : State) (n len r : Nat), s.lc.powered = true → lcKind s = 0 → 8 ≤ len → s.lc.refAt = some r →
    s.lc.mode = .locked → n < r + lcFmax s → lcFmin s ≤ n - r →
    Completes (.frameSyncPulse n len) s [.now, .regs, .log, .lc, .msix, .caps, .capFaults] fun t =>
      t.now = max s.now (25 * n) ∧ t.lc.frame = (s.lc.frame + 1) % 2 ^ 32 ∧ t.lc.line = 0 ∧ t.lc.edgeAt = n ∧
        t.lc.mode = .locked) ∧
  (∀ s : State, s.lc.fsoActive = true → s.lc.fsoLeft = 0 → Completes .fsoPulseEnd s [.lc] fun t =>
    t.lc = { s.lc with fsoActive := false })

/-- R75 to R82: a first-seen start point is noted and, for the next step, polled for; the first reply that finds the guard
unmet counts one late step, and a reply that finds it met is noted; a step starts in a later cycle with its index and
cycle; a step past MAX_CYC counts once; a step that ends leaves the engine without one; at a frame boundary the unstarted
steps are counted and the pointer returns to entry 0. -/
def Obligations.StepTableSequencing : Prop :=
  (∀ (s : State) (e : Eng) (i : Fin 4096) (c : Nat), (eng s e).seq.armed = true → (eng s e).seq.frame.isSome = true →
    (eng s e).seq.ptr ≤ i → i < (eng s e).seq.plan.count → tabFind i.val (eng s e).seq.seen = none →
    startReached (atAclk s c) (stepWords s e (eng s e).seq.plan.table i) = true →
    Completes (.stepStartPoint e i c) s [.now, .engines] fun t =>
      t.now = (atAclk s c).now ∧ (eng t e).seq.seen = (i.val, aclk t) :: (eng s e).seq.seen ∧
        (eng t e).seq.ptr = (eng s e).seq.ptr ∧ (eng t e).waves = (eng s e).waves ∧
        ((eng s e).seq.ptr = i → (eng t e).seq.poll =
          if bit (nth (nextWords s e) 2) 0 then some (aclk t) else none) ∧
        ((eng s e).seq.ptr ≠ i → (eng t e).seq.poll = (eng s e).seq.poll) ∧
        ∀ k, k ≠ e.val → eng t k = eng s k) ∧
  (∀ (s : State) (e : Eng) (c p sem : Nat), (eng s e).seq.poll = some p →
    guardSem s e (nextWords s e) = some sem → p + semLat s e sem ≤ aclk (atAclk s c) →
    Completes (.guardPollReply e c) s [.now, .regs, .engines] fun t =>
      (nth (nextWords s e) 4 ≤ pollRead (atAclk s c) sem (semLat s e sem) →
        (eng t e).seq.met = some (aclk t) ∧ (eng t e).seq.poll = none ∧ RegsBut [] s t) ∧
      (¬ nth (nextWords s e) 4 ≤ pollRead (atAclk s c) sem (semLat s e sem) →
        (eng t e).seq.poll = some (aclk t) ∧ (eng t e).seq.met = (eng s e).seq.met ∧
          rd t (lcBase + 0x100 + 0x10 * e) = if (eng s e).seq.replied then rd s (lcBase + 0x100 + 0x10 * e)
            else (rd s (lcBase + 0x100 + 0x10 * e) + 1) % 2 ^ 32) ∧
      RegsBut [lcBase + 0x100 + 0x10 * e] s t ∧ ∀ k, k ≠ e.val → eng t k = eng s k) ∧
  (∀ (s : State) (e : Eng) (c m : Nat), (eng s e).seq.met = some m → (eng s e).seq.cur = none →
    (eng s e).seq.armed = true → (eng s e).seq.ptr < (eng s e).seq.plan.count → m < aclk (atAclk s c) →
    (eng s e).seq.lastEnd < aclk (atAclk s c) →
    Completes (.stepStart e c) s [.now, .engines] fun t =>
      (eng t e).seq.ptr = (eng s e).seq.ptr + 1 ∧
        ((eng t e).seq.cur.map fun r => (r.index, r.start, r.words)) =
          some ((eng s e).seq.ptr, aclk t, nextWords s e) ∧
        (eng t e).waves.length = (eng s e).waves.length + 1 ∧ ∀ k, k ≠ e.val → eng t k = eng s k) ∧
  (∀ (s : State) (e : Eng) (c : Nat) (r : RunStep), (eng s e).seq.cur = some r → r.overran = false →
    r.start + max 1 (bits (nth r.words 1) 0 24) ≤ aclk (atAclk s c) →
    Completes (.stepOverrun e c) s [.now, .regs, .engines] fun t =>
      (eng t e).seq.cur = some { r with overran := true } ∧ (eng t e).seq.overs = (eng s e).seq.overs + 1 ∧
        rd t (lcBase + 0x108 + 0x10 * e) = (rd s (lcBase + 0x108 + 0x10 * e) + 1) % 2 ^ 32 ∧
        RegsBut [lcBase + 0x108 + 0x10 * e] s t ∧ ∀ k, k ≠ e.val → eng t k = eng s k) ∧
  (∀ (s : State) (e : Eng) (c : Nat), (eng s e).seq.cur.isSome = true →
    Completes (.stepEnd e c) s [.now, .fresh, .log, .msix, .engines, .queues, .jobs, .model] fun t =>
      t.now = (atAclk s c).now ∧ (eng t e).seq.cur = none ∧ (eng t e).seq.lastEnd = aclk t) ∧
  (∀ (s : State) (e : Eng), s.monFrame = s.lc.frame → (eng s e).seq.frame ≠ some s.lc.frame →
    ((eng s e).seq.armed = true ∨ (eng s e).seq.next ≠ none) →
    Completes (.stepFrameBoundary e) s [.regs, .log, .msix, .engines] fun t =>
      (eng t e).seq.ptr = 0 ∧ (eng t e).seq.armed = (eng s e).seq.next.isSome ∧ (eng t e).seq.seen = [] ∧
        (eng t e).seq.poll = none ∧ (eng t e).seq.plan = (eng s e).seq.next.getD (eng s e).seq.plan ∧
        (eng t e).waves = (eng s e).waves ∧
        rd t (lcBase + 0x10C + 0x10 * e) = (rd s (lcBase + 0x10C + 0x10 * e) +
          if (eng s e).seq.armed ∧ (eng s e).seq.frame.isSome then (eng s e).seq.plan.count - (eng s e).seq.ptr else 0)
            % 2 ^ 32 ∧
        RegsBut [lcBase + 0x104 + 0x10 * e, lcBase + 0x10C + 0x10 * e] s t ∧ ∀ k, k ≠ e.val → eng t k = eng s k)

/-- R88, R92, R93, R117, R118, R131, R140. A scalar instruction sets the wave's program counter and mask and one scalar
register. A vector instruction gives each active work-item its result in the destination register; a conversion does the
same for every destination register that no later one overlays, each element rounded once, with its own draw in stochastic
mode; all other elements keep what they hold. The clear instruction zeroes an AMAX value and keeps its NaN flag; a write of
ENG_SEED sets both words. An instruction that cannot be decoded records an error and ends its step, or marks its job with
0x44 and loses its wave. -/
def Obligations.EngineInstructions : Prop :=
  (∀ (s : State) (e : Eng) (w : Fin 8) (g : Option (Fin 32)) (v : Word) (mask : Option (BitVec 512)) (pc c : Nat)
      (x : Wave), issuing (atAclk s c) e w = some x →
    Completes (.scalarInstruction e w g v mask pc c) s [.now, .engines] fun t =>
      t.now = (atAclk s c).now ∧ (eng t e).vreg = (eng s e).vreg ∧ (∀ k, k ≠ e.val → eng t k = eng s k) ∧
      ∃ y, waveAt t e w = some y ∧ y.pc = pc % 2 ^ 22 / 4 * 4 ∧ y.mask = (mask.map (·.toNat)).getD x.mask ∧
        y.blocks = x.blocks ∧ y.job = x.job ∧
        ∀ r : Fin 32, tabGet (fun _ => 0#32) r y.g = if g = some r then v else tabGet (fun _ => 0#32) r x.g) ∧
  (∀ (s : State) (e : Eng) (w : Fin 8) (op : VOp) (f : Fmt) (d a b z : Fin 128) (c : Nat) (x : Wave) (r : Nat),
      issuing (atAclk s c) e w = some x → physReg x d = some r →
    Completes (.vectorInstruction e w op f d a b z c) s [.now, .engines] fun t =>
      t.now = (atAclk s c).now ∧ (eng t e).waves = (eng s e).waves ∧ (∀ k, k ≠ e.val → eng t k = eng s k) ∧
      (∀ i, i < 512 → bit x.mask i = true → tabFind (r * 512 + i) (eng t e).vreg = some (BitVec.ofNat 32
        (vop f op (vget (eng s e) x a i).toNat (vget (eng s e) x b i).toNat (vget (eng s e) x z i).toNat))) ∧
      ∀ k, (∀ i, i < 512 → bit x.mask i = true → k ≠ r * 512 + i) →
        tabFind k (eng t e).vreg = tabFind k (eng s e).vreg) ∧
  (∀ (s : State) (e : Eng) (w : Fin 8) (sf tf : Fmt) (rnd : Rnd) (ieee : Bool) (scale : Word) (amax : Fin 4)
      (d a : Fin 128) (c : Nat) (x : Wave), issuing (atAclk s c) e w = some x →
    Completes (.vectorConvert e w sf tf rnd ieee scale amax d a c) s [.now, .regs, .engines] fun t =>
      t.now = (atAclk s c).now ∧ (eng t e).waves = (eng s e).waves ∧ (∀ k, k ≠ e.val → eng t k = eng s k) ∧
      RegsBut [engOff e (0x14 + 4 * amax), engOff e 0x24, engOff e 0x28] s t ∧
      (∀ i, i < 128 → rnd = .stochastic → tf ≠ .f19 →
        genOf (eng t e) i = genSkip (genOf (eng s e) i) (4 * max (perReg sf) (perReg tf))) ∧
      ∀ j r, j < max (perReg sf) (perReg tf) / perReg tf → physReg x (d + j) = some r →
        (∀ j', j < j' → j' < max (perReg sf) (perReg tf) / perReg tf → physReg x (d + j') ≠ some r) →
        ∀ i, i < 512 → bit x.mask i = true → tabFind (r * 512 + i) (eng t e).vreg = some
          (((packElems tf ((convSrc (eng s e) x sf a i (max (perReg sf) (perReg tf))).mapIdx fun n p =>
            (roundInto tf (scaled (decodeVal sf p) scale.toNat) rnd ieee
              (if decide (rnd = .stochastic ∧ tf ≠ .f19) then
                genDraw (genSkip (genOf (eng s e) (i % 128)) (i / 128 * max (perReg sf) (perReg tf) + n + 1))
               else 0)).1))[j]?).getD 0#32)) ∧
  (∀ (s : State) (e : Eng) (i : Fin 4), Completes (.amaxClear e i) s [.regs] fun t =>
    fld t (engOff e (0x14 + 4 * i)) 0 31 = 0 ∧
      fld t (engOff e (0x14 + 4 * i)) 31 1 = fld s (engOff e (0x14 + 4 * i)) 31 1 ∧
      RegsBut [engOff e (0x14 + 4 * i)] s t) ∧
  (∀ (s : State) (e : Eng) (w : Fin 8) (v : Dword), (issuing s e w).isSome = true →
    Completes (.seedWrite e w v) s [.regs] fun t =>
      rd t (engOff e 0x0C) = v.toNat % 2 ^ 32 ∧ rd t (engOff e 0x10) = v.toNat / 2 ^ 32 ∧
        RegsBut [engOff e 0x0C, engOff e 0x10] s t) ∧
  (∀ (s : State) (e : Eng) (w : Fin 8) (c : Nat) (x : Wave), issuing (atAclk s c) e w = some x →
    Completes (.illegalInstruction e w c) s [.now, .log, .msix, .engines, .jobs] fun t =>
      t.now = (atAclk s c).now ∧ t.log.seq = (s.log.seq + 1) % 2 ^ 32 ∧
      (x.work = .step → (eng t e).seq.cur = none ∧ t.jobs = s.jobs) ∧
      (x.work ≠ .step → waveAt t e w = none ∧
        jobOf t x.job = (jobOf s x.job).map fun j => { j with err := if j.err = 0 then 0x44 else j.err }))

/-- R88, R95 to R98, R104, R151 to R153. With the queue empty and its resources free, a tensor instruction of a wave that can
issue runs at once and leaves what `TensorDone` says, with its fields clamped as R97's table says, whether its words show
nothing or a corrected error; while it must wait it joins the queue of 4 and does nothing else. When the resources of the
oldest waiting instruction are free, that one runs and leaves the queue. -/
def Obligations.TensorInstructions : Prop :=
  (∀ (s : State) (e : Eng) (w : Fin 8) (stage : Fin 2) (kg off stride : Nat) (f : Fmt) (pos : Nat) (ecc : Ecc) (c : Nat),
    tensorFmt f = true → (issuing (atAclk s c) e w).isSome = true →
    let i := TIns.load stage (clampTo 1 16 kg) (tOff off) (tStride 64 stride) f
    ((eng s e).tq = [] → tReady (atAclk s c) e i = true → ecc ≠ .uncorrectable →
      Completes (.tload e w stage kg off stride f pos ecc c) s [.now, .fresh, .regs, .log, .msix, .tile, .engines] fun t =>
        t.now = (atAclk s c).now ∧ TensorDone s t e i ∧ (eng t e).tq = [] ∧ ∀ k, k ≠ e.val → eng t k = eng s k) ∧
    ((eng s e).tq ≠ [] ∨ tReady (atAclk s c) e i = false → (eng s e).tq.length < 4 →
      Completes (.tload e w stage kg off stride f pos ecc c) s [.now, .engines] fun t =>
        t.now = (atAclk s c).now ∧ eng t e = { eng s e with tq := (eng s e).tq ++ [(w.val, i)] } ∧
          ∀ k, k ≠ e.val → eng t k = eng s k)) ∧
  (∀ (s : State) (e : Eng) (w : Fin 8) (stage acc : Fin 2) (m kg off stride : Nat) (f : Fmt) (accum : Bool) (pos : Nat)
      (ecc : Ecc) (c : Nat), tensorFmt f = true → (issuing (atAclk s c) e w).isSome = true →
    let i := TIns.mma stage acc (clampTo 1 256 m) (clampTo 1 16 kg) (tOff off) (tStride 16 stride) f accum
    ((eng s e).tq = [] → tReady (atAclk s c) e i = true → ecc ≠ .uncorrectable →
      Completes (.tmma e w stage acc m kg off stride f accum pos ecc c) s
          [.now, .fresh, .regs, .log, .msix, .tile, .engines] fun t =>
        t.now = (atAclk s c).now ∧ TensorDone s t e i ∧ (eng t e).tq = [] ∧ ∀ k, k ≠ e.val → eng t k = eng s k) ∧
    ((eng s e).tq ≠ [] ∨ tReady (atAclk s c) e i = false → (eng s e).tq.length < 4 →
      Completes (.tmma e w stage acc m kg off stride f accum pos ecc c) s [.now, .engines] fun t =>
        t.now = (atAclk s c).now ∧ eng t e = { eng s e with tq := (eng s e).tq ++ [(w.val, i)] } ∧
          ∀ k, k ≠ e.val → eng t k = eng s k)) ∧
  (∀ (s : State) (e : Eng) (w : Fin 8) (acc : Fin 2) (m off stride : Nat) (f : Fmt) (rnd : Rnd) (ieee : Bool)
      (scale : Word) (amax : Fin 4) (pos : Nat) (ecc : Ecc) (c : Nat), (issuing (atAclk s c) e w).isSome = true →
    let i := TIns.drain acc (clampTo 1 256 m) (tOff off) (tStride 16 stride) f rnd ieee scale.toNat amax
    ((eng s e).tq = [] → tReady (atAclk s c) e i = true → ecc ≠ .uncorrectable →
      Completes (.tdrain e w acc m off stride f rnd ieee scale amax pos ecc c) s
          [.now, .fresh, .regs, .log, .msix, .tile, .engines] fun t =>
        t.now = (atAclk s c).now ∧ TensorDone s t e i ∧ (eng t e).tq = [] ∧ ∀ k, k ≠ e.val → eng t k = eng s k) ∧
    ((eng s e).tq ≠ [] ∨ tReady (atAclk s c) e i = false → (eng s e).tq.length < 4 →
      Completes (.tdrain e w acc m off stride f rnd ieee scale amax pos ecc c) s [.now, .engines] fun t =>
        t.now = (atAclk s c).now ∧ eng t e = { eng s e with tq := (eng s e).tq ++ [(w.val, i)] } ∧
          ∀ k, k ≠ e.val → eng t k = eng s k)) ∧
  (∀ (s : State) (e : Eng) (pos : Nat) (ecc : Ecc) (c w : Nat) (i : TIns) (r : List (Nat × TIns)),
    (eng s e).tq = (w, i) :: r → tReady (atAclk s c) e i = true → ecc ≠ .uncorrectable →
    Completes (.tensorInterlockRelease e pos ecc c) s [.now, .fresh, .regs, .log, .msix, .tile, .engines] fun t =>
      t.now = (atAclk s c).now ∧ TensorDone s t e i ∧ (eng t e).tq = r ∧ ∀ k, k ≠ e.val → eng t k = eng s k)

/-- R93, R100, R101, R103 to R106. A load inside its partition puts its bytes into the scalar register, or into the active
elements of the vector register from the first one on, and changes no byte; a store writes its bytes and no other; both
whether the word looked at shows nothing or a corrected error. A load whose word shows an uncorrectable error, and an access
that names no engine of the partition, change no byte of tile memory, and the second ends the work of its wave with 0x90.
The oldest waiting correction is written back. The scrubber, when its interval has passed, takes the next word. -/
def Obligations.TileMemoryAccesses : Prop :=
  (∀ (s : State) (e : Eng) (w : Fin 8) (l : Option Nat) (off len : Nat) (dst : LoadDst) (pos : Nat) (ecc : Ecc) (c : Nat)
      (x : Wave) (m : Nat), issuing (atAclk s c) e w = some x → tileTarget (atAclk s c) e l = some m →
      off + len ≤ 2 ^ 22 → 1 ≤ len → len ≤ 128 → (ecc ≠ .uncorrectable ∨ len ≤ pos) →
    Completes (.tileLoad e w l off len dst pos ecc c) s [.now, .regs, .log, .msix, .engines] fun t =>
      t.now = (atAclk s c).now ∧
      Delivered s t e w x (s.tile.readBytes (m * 2 ^ 22 + off) len) dst ∧ ∀ k, k ≠ e.val → k ≠ m → eng t k = eng s k) ∧
  (∀ (s : State) (e : Eng) (w : Fin 8) (l : Option Nat) (off : Nat) (data : List Byte) (pos : Nat) (ecc : Ecc) (c : Nat)
      (m : Nat), (issuing (atAclk s c) e w).isSome = true → tileTarget (atAclk s c) e l = some m →
      off < 2 ^ 22 → off + data.length ≤ 2 ^ 22 → data.length ≤ 128 → ecc ≠ .uncorrectable →
    Completes (.tileStore e w l off data pos ecc c) s [.now, .regs, .log, .msix, .tile, .engines] fun t =>
      t.now = (atAclk s c).now ∧
      (∀ i, i < data.length → some (t.tile.read (m * 2 ^ 22 + off + i)) = data[i]?) ∧
      ∀ a, (a < m * 2 ^ 22 + off ∨ m * 2 ^ 22 + off + data.length ≤ a) → t.tile.read a = s.tile.read a) ∧
  (∀ (s : State) (e : Eng) (w : Fin 8) (l : Option Nat) (off len : Nat) (dst : LoadDst) (pos : Nat) (c : Nat),
      (issuing (atAclk s c) e w).isSome = true → (tileTarget (atAclk s c) e l).isSome = true → pos < len → len ≤ 128 →
      off + len ≤ 2 ^ 22 →
    Completes (.tileLoad e w l off len dst pos .uncorrectable c) s [.now, .regs, .log, .msix, .engines, .queues, .jobs,
      .cx, .disps, .pres, .xfers, .passes, .model, .failOrder] fun t => t.now = (atAclk s c).now) ∧
  (∀ (s : State) (e : Eng) (w : Fin 8) (l : Option Nat) (off len : Nat) (dst : LoadDst) (data : List Byte) (pos : Nat)
      (ecc : Ecc) (c : Nat) (x : Wave), issuing (atAclk s c) e w = some x → x.work ≠ .step →
      tileTarget (atAclk s c) e l = none →
    (Completes (.tileLoad e w l off len dst pos ecc c) s [.now, .regs, .log, .msix, .engines, .jobs] fun t =>
      waveAt t e w = none ∧ jobOf t x.job = (jobOf s x.job).map fun j => { j with err := if j.err = 0 then 0x90 else j.err }) ∧
    (Completes (.tileStore e w l off data pos ecc c) s [.now, .regs, .log, .msix, .engines, .jobs] fun t =>
      waveAt t e w = none ∧ jobOf t x.job = (jobOf s x.job).map fun j => { j with err := if j.err = 0 then 0x90 else j.err })) ∧
  (∀ (s : State) (e : Eng), Completes (.tmCorrectionWriteback e) s [.engines] fun t =>
    eng t e = { eng s e with corrections := (eng s e).corrections.drop 1 } ∧ ∀ k, k ≠ e.val → eng t k = eng s k) ∧
  (∀ (s : State) (e : Eng) (c : Nat) (ecc : Ecc), fld s (engOff e 0x3C) 0 1 = 1 → engClocked s e = true →
      (eng s e).scrubAt + fld s (engOff e 0x3C) 8 8 * 256 ≤ aclk (atAclk s c) → ecc ≠ .uncorrectable →
    Completes (.tmScrub e c ecc) s [.now, .regs, .log, .msix, .engines] fun t =>
      t.now = (atAclk s c).now ∧ (eng t e).scrubAt = aclk (atAclk s c) ∧
      (eng t e).scrubWord = ((eng s e).scrubWord + 1) % 2 ^ 18 ∧
      (ecc = .ok → RegsBut [] s t ∧ (eng t e).corrections = (eng s e).corrections) ∧
      (ecc = .corrected → (eng t e).corrections = (eng s e).corrections.filter (· != (eng s e).scrubWord) ++ [(eng s e).scrubWord] ∧
        rd t (engOff e 0x34) = min (2 ^ 32 - 1) (rd s (engOff e 0x34) + 1) ∧
        RegsBut [engOff e 0x34, engOff e 0x38] s t) ∧
      ∀ k, k ≠ e.val → eng t k = eng s k)

/-- R108 to R111. A load whose sectors are valid in a line of a powered group delivers the line's bytes and raises no burst;
a store whose touched sectors are valid or covered writes its bytes into the line, makes those sectors valid and dirty, and
changes no byte of memory; a no-allocate load that misses raises a burst and waits past the cache; a fill that arrives, with
no access waiting, gives its line the sectors the line lacks and leaves the valid ones alone. -/
def Obligations.FarLineCacheAccesses : Prop :=
  (∀ (s : State) (e : Eng) (w : Fin 8) (a n : Nat) (noalloc : Bool) (dst : LoadDst) (pos : Nat) (ecc : Ecc) (c : Nat)
      (x : Wave) (k : Nat) (l : FarLine), issuing (atAclk s c) e w = some x → a < 2 ^ 48 → 1 ≤ n → a % 128 + n ≤ 128 →
      findLine (eng s e) a = some (k, l) → k / 8 < groupsOpen (eng s e) →
      (∀ i ∈ lineSectors a n, bit l.valid i = true) → ecc ≠ .uncorrectable →
    Completes (.farLineLoad e w a n noalloc dst pos ecc c) s [.now, .engines] fun t =>
      t.now = (atAclk s c).now ∧ Delivered s t e w x (l.get (a % 1024) n) dst ∧
      (eng t e).waits = (eng s e).waits ∧
      tabGet (fun _ => {}) k (eng t e).lines = { l with used := (eng s e).lineClock + 1 } ∧
      (∀ j, j ≠ k → tabFind j (eng t e).lines = tabFind j (eng s e).lines) ∧ ∀ j, j ≠ e.val → eng t j = eng s j) ∧
  (∀ (s : State) (e : Eng) (w : Fin 8) (a : Nat) (data : List Byte) (pos : Nat) (ecc : Ecc) (c k : Nat) (l : FarLine),
      (issuing (atAclk s c) e w).isSome = true → a < 2 ^ 48 → data ≠ [] → a % 128 + data.length ≤ 128 →
      findLine (eng s e) a = some (k, l) → k / 8 < groupsOpen (eng s e) →
      (∀ i ∈ lineSectors a data.length, bit l.valid i = true ∨ coversSector a data.length i = true) →
      ecc ≠ .uncorrectable →
    Completes (.farLineStore e w a data false pos ecc c) s [.now, .engines] fun t =>
      t.now = (atAclk s c).now ∧ (eng t e).waits = (eng s e).waits ∧ (eng t e).waves = (eng s e).waves ∧
      (tabGet (fun _ => {}) k (eng t e).lines).tag = l.tag ∧
      (∀ j, (tabGet (fun _ => {}) k (eng t e).lines).byte j = if a % 1024 ≤ j ∧ j < a % 1024 + data.length then
        data.getD (j - a % 1024) 0#8 else l.byte j) ∧
      (∀ i, bit (tabGet (fun _ => {}) k (eng t e).lines).valid i =
        if i ∈ lineSectors a data.length then true else bit l.valid i) ∧
      (∀ i, bit (tabGet (fun _ => {}) k (eng t e).lines).dirty i =
        if i ∈ lineSectors a data.length then true else bit l.dirty i) ∧
      (∀ j, j ≠ k → tabFind j (eng t e).lines = tabFind j (eng s e).lines) ∧ ∀ j, j ≠ e.val → eng t j = eng s j) ∧
  (∀ (s : State) (e : Eng) (w : Fin 8) (a n : Nat) (dst : LoadDst) (pos : Nat) (ecc : Ecc) (c : Nat),
      (issuing (atAclk s c) e w).isSome = true → a < 2 ^ 48 → 1 ≤ n → a % 128 + n ≤ 128 →
      findLine (eng s e) a = none →
    Completes (.farLineLoad e w a n true dst pos ecc c) s [.now, .engines, .arbs] fun t =>
      t.now = (atAclk s c).now ∧ (eng t e).lines = (eng s e).lines ∧ (eng t e).waves = (eng s e).waves ∧
      (eng t e).waits = (eng s e).waits ++ [{ wave := w, addr := a, len := n, dst := some dst, bypass := true }] ∧
      ∀ j, j ≠ e.val → eng t j = eng s j) ∧
  (∀ (s : State) (e : Eng) (c : Nat) (r : Reply) (rest : List Reply) (k : Nat) (l : FarLine),
      takeFill e s.arrived = some (r, rest) → r.err = 0 → r.burst.use = 4 + (eng s e).acq → (eng s e).waits = [] →
      findLine (eng s e) r.burst.addr = some (k, l) → tabFind k (eng s e).lines = some l →
    Completes (.farLineFill e c) s [.now, .engines, .arrived] fun t =>
      t.now = (atAclk s c).now ∧ t.arrived = rest ∧ (eng t e).waits = [] ∧ (eng t e).waves = (eng s e).waves ∧
      (∀ i, bit (tabGet (fun _ => {}) k (eng t e).lines).valid i = (bit l.valid i || decide
        (r.burst.addr % 1024 / 64 ≤ i ∧ i < r.burst.addr % 1024 / 64 + 4))) ∧
      (tabGet (fun _ => {}) k (eng t e).lines).dirty = l.dirty ∧
      (tabGet (fun _ => {}) k (eng t e).lines).tag = l.tag ∧
      (∀ j, j ≠ k → tabFind j (eng t e).lines = tabFind j (eng s e).lines) ∧ ∀ j, j ≠ e.val → eng t j = eng s j)

/-- R112 to R114, while the engine's sector is powered. A write of GROUPS_ON is clamped and kept for a return to P0, and with no
change in progress starts one, which leaves every line of a departing group clean; during a change it waits. The highest
departing group powers off, with its lines, once no write-back is outstanding; new groups serve 2,000 ACLK cycles after the
write. CLEAN leaves every line clean and reads 1 exactly while write-backs are outstanding, and 0 when the last is
acknowledged. -/
def Obligations.FarLineGroupsAndCleaning : Prop :=
  (∀ (s : State) (e : Eng) (n : Nat) (c : Nat), bit (fld s pwrDomainOff 8 4) (e / 16) = true →
    Completes (.flcGroupsChange e n none c) s [.now, .regs, .log, .msix, .engines, .arbs, .jobs] fun t =>
      t.now = (atAclk s c).now ∧ fld t (engOff e 0x2C) 0 3 = min 6 (n % 8) ∧ (eng t e).flcSaved = min 6 (n % 8) ∧
      RegsBut [engOff e 0x2C] s t ∧
      ((eng s e).flcTarget = none → (eng s e).flcOn ≠ min 6 (n % 8) → (eng t e).flcTarget = some (min 6 (n % 8)) ∧
        (eng t e).flcSince = aclk (atAclk s c) ∧ (eng t e).flcOn = (eng s e).flcOn ∧
        (∀ k l, min 6 (n % 8) ≤ k / 8 → k / 8 < (eng s e).flcOn → tabFind k (eng t e).lines = some l → l.dirty = 0) ∧
        ∀ k, (k / 8 < min 6 (n % 8) ∨ (eng s e).flcOn ≤ k / 8) → tabFind k (eng t e).lines = tabFind k (eng s e).lines) ∧
      ((eng s e).flcTarget.isSome = true → (eng t e).flcTarget = (eng s e).flcTarget ∧ (eng t e).lines = (eng s e).lines) ∧
      ∀ k, k ≠ e.val → eng t k = eng s k) ∧
  (∀ (s : State) (e : Eng) (c g : Nat), (eng s e).flcTarget = some g → g < (eng s e).flcOn → (eng s e).waits = [] →
    writeBacksOut s e = [] → fld s (engOff e 0x2C) 0 3 = g →
    Completes (.flcGroupPowerOff e c) s [.now, .engines, .arbs] fun t =>
      t.now = (atAclk s c).now ∧ (eng t e).flcOn = (eng s e).flcOn - 1 ∧
      (eng t e).flcTarget = (if (eng s e).flcOn - 1 = g then none else some g) ∧
      (eng t e).lines = (eng s e).lines.filter (fun k => k.1 / 8 != (eng s e).flcOn - 1) ∧
      ∀ k, k ≠ e.val → eng t k = eng s k) ∧
  (∀ (s : State) (e : Eng) (c g : Nat), (eng s e).flcTarget = some g → (eng s e).flcOn < g →
    (eng s e).flcSince + 2000 ≤ aclk (atAclk s c) → fld s (engOff e 0x2C) 0 3 = g →
    Completes (.flcGroupReady e c) s [.now, .engines, .arbs] fun t =>
      t.now = (atAclk s c).now ∧ eng t e = { eng s e with flcOn := g, flcTarget := none } ∧
      ∀ k, k ≠ e.val → eng t k = eng s k) ∧
  (∀ (s : State) (e : Eng) (c : Nat), bit (fld s pwrDomainOff 8 4) (e / 16) = true →
    Completes (.flcClean e none c) s [.now, .regs, .log, .msix, .engines, .arbs, .jobs] fun t =>
      t.now = (atAclk s c).now ∧ (∀ k l, k < 48 → tabFind k (eng t e).lines = some l → l.dirty = 0) ∧
      (eng t e).waits = (eng s e).waits ∧
      (writeBacksOut t e ≠ [] → fld t (engOff e 0x2C) 8 1 = 1) ∧ RegsBut [engOff e 0x2C] s t ∧
      ∀ k, k ≠ e.val → eng t k = eng s k) ∧
  (∀ (s : State) (e : Eng) (c : Nat), writeBacksOut s e = [] →
    Completes (.flcCleanDone e c) s [.now, .regs] fun t =>
      t.now = (atAclk s c).now ∧ fld t (engOff e 0x2C) 8 1 = 0 ∧
      fld t (engOff e 0x2C) 0 3 = fld s (engOff e 0x2C) 0 3 ∧ RegsBut [engOff e 0x2C] s t)

/-- R121, R122, R574, R575, R579, R582 to R584. A heartbeat is due every 1,024 cycles. When the quad's limit passes without one,
an engine not yet failed is counted and declared failed: it joins the engines that Eflan must handle, holds no waves and
keeps cause and cycle. Eflan takes the one declared first, holds it in reset and logs 0x45. The reset of an engine that has
not failed ends after 256 cycles, that of a compression engine after 4,096. A passed self-test clears FAILED, its end zeroes
the tile memory of that engine alone. An error in a quad's sync memory is logged as 0x03, and one in Peony's SRAM restarts
Peony. -/
def Obligations.EngineFailureAndReset : Prop :=
  (∀ (s : State) (e : Eng) (c : Nat), engClocked s e = true → (eng s e).beatAt + 1024 ≤ aclk (atAclk s c) →
    Completes (.engineHeartbeat e c) s [.now, .engines] fun t =>
      t.now = (atAclk s c).now ∧ eng t e = { eng s e with beatAt := aclk t } ∧ ∀ k, k ≠ e.val → eng t k = eng s k) ∧
  (∀ (s : State) (e : Eng) (c : Nat), fld s (qdOff (e / 4) 8) 31 1 = 1 → engClocked s e = true →
      (eng s e).beatAt + fld s (qdOff (e / 4) 8) 0 24 ≤ aclk (atAclk s c) → engFailed s e = false →
    Completes (.quadWatchdogExpiry e c) s [.now, .regs, .log, .msix, .engines, .queues, .jobs, .cx, .disps, .pres, .xfers,
        .passes, .model, .failOrder] fun t =>
      t.now = (atAclk s c).now ∧ t.failOrder = s.failOrder ++ [e.val] ∧ (eng t e).waves = [] ∧ (eng t e).tq = [] ∧
      (eng t e).cause = 0x43 ∧ (eng t e).failedAt = aclk (atAclk s c) ∧
      (passOn s e = none → engFailed t e = true ∧ fld t (qdOff (e / 4) 0) (4 + e % 4) 1 = 1 ∧
        fld t (qdOff (e / 4) 0) (8 + e % 4) 1 = 0 ∧
        rd t (qdOff (e / 4) 0x0C) = (rd s (qdOff (e / 4) 0x0C) + 1) % 2 ^ 32 ∧
        RegsBut [engOff e 8, qdOff (e / 4) 0, qdOff (e / 4) 0x0C] s t)) ∧
  (∀ (s : State) (e : Nat) (r : List Nat), s.failOrder = e :: r →
    Completes .engineFailMask s [.log, .msix, .engines, .failOrder] fun t =>
      t.failOrder = r ∧ (eng t e).inReset = true ∧ (eng t e).resetFrom = aclk s ∧ (eng t e).waves = [] ∧
      (eng t e).seq.armed = false ∧ t.log.seq = (s.log.seq + 1) % 2 ^ 32 ∧
      (s.log.recs.length < 2048 → (t.log.recs.getLast?.map fun x => (x.code, x.unitKind, x.unit)) = some (0x45, 1, e)) ∧
      ∀ k, k ≠ e → eng t k = eng s k) ∧
  (∀ (s : State) (e : Eng) (c : Nat), (eng s e).inReset = true → engFailed s e = false →
      (eng s e).resetFrom + 256 ≤ aclk (atAclk s c) → ptStage s (engPart s e) = 0 →
    Completes (.engineResetEnd e c) s [.now, .engines] fun t =>
      t.now = (atAclk s c).now ∧ eng t e = { eng s e with inReset := false } ∧ ∀ k, k ≠ e.val → eng t k = eng s k) ∧
  (∀ (s : State) (k : Sector) (c f : Nat), (cxOf s k).resetFrom = some f → f + 4096 ≤ aclk (atAclk s c) →
    Completes (.cxResetEnd k c) s [.now, .cx] fun t =>
      t.now = (atAclk s c).now ∧ cxOf t k = { cxOf s k with resetFrom := none } ∧
      ∀ j, j ≠ k.val → cxOf t j = cxOf s j) ∧
  (∀ (s : State) (e : Eng) (pass : Bool) (c f : Nat), (eng s e).testing = some f → f + 131072 ≤ aclk (atAclk s c) →
    Completes (.selfTestEnd e pass c) s [.now, .regs, .log, .msix, .tile, .engines] fun t =>
      t.now = (atAclk s c).now ∧ eng t e = { eng s e with testing := none } ∧ (∀ k, k ≠ e.val → eng t k = eng s k) ∧
      (∀ a, e.val * 2 ^ 22 ≤ a → a < (e.val + 1) * 2 ^ 22 → t.tile.read a = 0) ∧
      (∀ a, (a < e.val * 2 ^ 22 ∨ (e.val + 1) * 2 ^ 22 ≤ a) → t.tile.read a = s.tile.read a) ∧
      t.log.seq = (s.log.seq + 1) % 2 ^ 32 ∧ (pass = true → engFailed t e = false ∧
        RegsBut [engOff e 8, qdOff (e / 4) 0] s t) ∧ (pass = false → RegsBut [] s t)) ∧
  (∀ (s : State) (q : Quad) (c : Nat), ¬ (quadPart s q < 9 ∧ partExists s (quadPart s q) = true) →
    Completes (.internalUncorrectable (.quad q) c) s [.now, .log, .msix] fun t =>
      t.now = (atAclk s c).now ∧ t.log.seq = (s.log.seq + 1) % 2 ^ 32) ∧
  (∀ (s : State) (c : Nat), eflanRuns s = true →
    Completes (.internalUncorrectable .sram c) s [.now, .fresh, .regs, .foxCmd, .peony, .flash] fun t =>
      t.now = (atAclk s c).now ∧ t.foxCmd = none ∧ t.peony.romDue = true ∧ t.peony.eflanDue = false ∧
      t.peony.restarted = true ∧ t.peony.key = none ∧ t.peony.reports = [])

/-- R143, R145, R146. The largest finite patterns are those of R127's table. In saturate mode an element that overflows gives
the largest finite value of its sign (the end of the range for an integer target, which for UINT8 and a negative value is 0).
Infinities and NaNs convert, in both modes, to the infinity of the same sign (0x7F into FP8 E4M3) and to the canonical NaN
without an overflow; into an integer target, where a finite element out of range saturates in both modes too, they convert
to the end of the range, with an overflow, and to 0. -/
def Obligations.ConversionExtremes : Prop :=
  (∀ (f : Fmt) (big sign nan : Nat) (inf : Option Nat), (f, big, sign, inf, nan) ∈
      [(Fmt.e4m3, 0x7E, 0x80, none, 0x7F), (.e5m2, 0x7B, 0x80, some 0x7C, 0x7E),
       (.fp16, 0x7BFF, 0x8000, some 0x7C00, 0x7E00), (.bf16, 0x7F7F, 0x8000, some 0x7F80, 0x7FC0),
       (.f19, 0x3FBFF, 0x40000, some 0x3FC00, 0x3FE00),
       (.fp32, 0x7F7FFFFF, 0x80000000, some 0x7F800000, 0x7FC00000)] →
    ∀ (r : Rnd) (draw : Nat) (neg : Bool),
      (∀ (m : Nat) (q : Int), (roundInto f (.fin neg m q) r false draw).2 = true →
        (roundInto f (.fin neg m q) r false draw).1 = big + if neg then sign else 0) ∧
      ∀ ieee : Bool,
        roundInto f (.inf neg) r ieee draw =
          ((match inf with | some i => i + (if neg then sign else 0) | none => 0x7F), false) ∧
        roundInto f .nan r ieee draw = (nan, false)) ∧
  (∀ (f : Fmt) (lo hi : Nat), (f, lo, hi) ∈ [(Fmt.int4, 8, 7), (.int8, 0x80, 0x7F), (.uint8, 0, 0xFF),
      (.int32, 0x80000000, 0x7FFFFFFF)] →
    ∀ (r : Rnd) (draw : Nat) (neg ieee : Bool),
      (∀ (m : Nat) (q : Int), (roundInto f (.fin neg m q) r ieee draw).2 = true →
        (roundInto f (.fin neg m q) r ieee draw).1 = if neg then lo else hi) ∧
      roundInto f (.inf neg) r ieee draw = ((if neg then lo else hi), true) ∧
      roundInto f .nan r ieee draw = (0, false))

/-- R336. The register of a list of bytes is the CRC with its inversion undone: it starts at 0xFFFFFFFF, and each further
byte is added to its low bits and followed by eight shifts, each of which adds the reflected polynomial when the bit shifted
out is 1. The CRC of zero bytes is 0. -/
def Obligations.Crc32Register : Prop :=
  crc32 [] = 0 ∧ Nat.xor (crc32 []) 0xFFFFFFFF = 0xFFFFFFFF ∧
  ∀ (l : List Byte) (b : Byte), Nat.xor (crc32 (l ++ [b])) 0xFFFFFFFF =
    (fun c => if c % 2 = 1 then Nat.xor (c / 2) 0xEDB88320 else c / 2)^[8]
      (Nat.xor (Nat.xor (crc32 l) 0xFFFFFFFF) b.toNat)

/-- R460, while the hot-swap output that powers the serial port is good: nothing is driven, MB_PORT_CMD_CNT goes up by one,
saturating as its register table says, and nothing else changes. -/
def Obligations.SerialBadCommandIsCounted : Prop :=
  ∀ s : State, s.hotSwap.good = true → Completes .serialBadCommand s [.regs, .wire] fun t =>
    t.wire = [] ∧ rd t (mbBase + 0x1010) = min (2 ^ 32 - 1) (rd s (mbBase + 0x1010) + 1) ∧
      RegsBut [mbBase + 0x1010] s t

/-- R527: for all 12-bit a and b, mul12 is the number nearest to a × b / 4,095; mul12 by 0 is 0 and by 4,095 the identity.
A blend is the source plus mul12 of the result so far and 4,095 less the source's alpha, saturated at 4,095; it passes the
result so far through a transparent source and gives an opaque one. -/
def Obligations.Mul12RoundsToNearest : Prop :=
  (∀ a b, a ≤ 4095 → b ≤ 4095 → 2 * (a * b) ≤ 4095 * (2 * mul12 a b + 1) ∧ 4095 * (2 * mul12 a b) ≤ 2 * (a * b) + 4095) ∧
  (∀ a, a ≤ 4095 → mul12 a 0 = 0 ∧ mul12 a 4095 = a) ∧
  (∀ (dst px : List Nat) (alpha : Nat) (premult : Bool) (k : Nat), k < 3 →
    nth (blendPx dst px alpha premult) k ≤ 4095 ∧
    nth (blendPx dst px alpha premult) k = min 4095 ((if premult then mul12 (nth px k) alpha
      else mul12 (nth px k) (mul12 (nth px 3) alpha)) + mul12 (nth dst k) (4095 - mul12 (nth px 3) alpha)) ∧
    (premult = false → nth dst k ≤ 4095 → nth px 3 = 0 → nth (blendPx dst px alpha premult) k = nth dst k) ∧
    (nth px k ≤ 4095 → nth px 3 = 4095 → alpha = 4095 → nth (blendPx dst px alpha premult) k = nth px k))

/-- R30, R111, R269 to R271, R274, R275, R278, R279, R296. ADD saturates, which is counted and logged; SUB stops at 0; an
ARRIVE for the round being collected counts, and the last participant's releases the round; one for the next round is held
and polls; one for another round ends the work with 0x83. All three are releases: behind a store or another release they
wait. WAIT polls until the value reaches N, a WAIT for 0 is met at once and is an acquire; BAR_WAIT polls. In one cycle the
ADDs act before the SUBs, in whatever order they are issued. -/
def Obligations.SemaphoreOperations : Prop :=
  (∀ (s : State) (e : Eng) (w : Fin 8) (lq : Nat) (i : Fin 512) (n : Word) (c sem : Nat),
      (waveAt s e w).isSome = true → semOf s (engPart s e) lq i = some sem → ReleasesAtOnce s e →
      SemQuiet (atAclk s c) sem →
    (Completes (.semAdd e w lq i n c) s [.now, .regs, .log, .msix, .engines, .semCycles] fun t =>
      t.now = (atAclk s c).now ∧ semVal t sem = min (2 ^ 32 - 1) (semVal s sem + n.toNat) ∧
      (2 ^ 32 ≤ semVal s sem + n.toNat → rd t (synBase + 0x880C) = (rd s (synBase + 0x880C) + 1) % 2 ^ 32 ∧
        t.log.seq = (s.log.seq + 1) % 2 ^ 32 ∧ RegsBut [semOff sem, synBase + 0x880C] s t) ∧
      (semVal s sem + n.toNat < 2 ^ 32 → RegsBut [semOff sem] s t ∧ t.log = s.log) ∧ ∀ k, k ≠ e.val → eng t k = eng s k) ∧
    (Completes (.semSub e w lq i n c) s [.now, .regs, .log, .msix, .engines, .semCycles] fun t =>
      t.now = (atAclk s c).now ∧ semVal t sem = semVal s sem - n.toNat ∧ RegsBut [semOff sem] s t ∧ t.log = s.log ∧
      ∀ k, k ≠ e.val → eng t k = eng s k)) ∧
  (∀ (s : State) (e : Eng) (w : Fin 8) (lq : Nat) (i : Fin 512) (k p : BitVec 16) (c sem : Nat) (x : Wave),
      waveAt s e w = some x → semOf s (engPart s e) lq i = some sem → ReleasesAtOnce s e →
      SemQuiet (atAclk s c) sem →
    Completes (.semArrive e w lq i k p c) s [.now, .regs, .log, .msix, .engines, .semCycles, .jobs] fun t =>
      t.now = (atAclk s c).now ∧
      (fld s (semOff sem) 16 16 = k.toNat → RegsBut [semOff sem] s t ∧ t.log = s.log ∧
        (max 1 p.toNat ≤ fld s (semOff sem) 0 16 + 1 → semVal t sem = (k.toNat + 1) % 2 ^ 16 * 2 ^ 16) ∧
        (fld s (semOff sem) 0 16 + 1 < max 1 p.toNat → fld t (semOff sem) 16 16 = k.toNat ∧
          fld t (semOff sem) 0 16 = fld s (semOff sem) 0 16 + 1) ∧ (waveAt t e w).map (·.spin) = some none) ∧
      (k.toNat = (fld s (semOff sem) 16 16 + 1) % 2 ^ 16 → RegsBut [] s t ∧ t.log = s.log ∧ (waveAt t e w).map (·.spin) =
        some (some { sem := sem, want := .arrive k.toNat p.toNat, issued := aclk t })) ∧
      (k.toNat ≠ fld s (semOff sem) 16 16 → k.toNat ≠ (fld s (semOff sem) 16 16 + 1) % 2 ^ 16 →
        RegsBut [] s t ∧ t.log.seq = (s.log.seq + 1) % 2 ^ 32 ∧ (x.work ≠ .step → waveAt t e w = none ∧
          jobOf t x.job = (jobOf s x.job).map fun j => { j with err := if j.err = 0 then 0x83 else j.err })) ∧
      ∀ j, j ≠ e.val → eng t j = eng s j) ∧
  (∀ (s : State) (e : Eng) (w : Fin 8) (lq : Nat) (i : Fin 512) (n : Word) (k p : BitVec 16) (c sem : Nat),
      (waveAt s e w).isSome = true → semOf s (engPart s e) lq i = some sem →
      ((eng s e).outstanding ≠ 0 ∨ (eng s e).releases ≠ []) →
    (Completes (.semAdd e w lq i n c) s [.now, .engines, .arbs] fun t =>
      (eng t e).releases = (eng s e).releases ++ [.add sem n.toNat] ∧ ∀ k, k ≠ e.val → eng t k = eng s k) ∧
    (Completes (.semSub e w lq i n c) s [.now, .engines, .arbs] fun t =>
      (eng t e).releases = (eng s e).releases ++ [.sub sem n.toNat] ∧ ∀ k, k ≠ e.val → eng t k = eng s k) ∧
    Completes (.semArrive e w lq i k p c) s [.now, .engines, .arbs] fun t =>
      (eng t e).releases = (eng s e).releases ++ [.arrive w sem k.toNat p.toNat] ∧ ∀ k, k ≠ e.val → eng t k = eng s k) ∧
  (∀ (s : State) (e : Eng) (w : Fin 8) (lq : Nat) (i : Fin 512) (n : Word) (k : BitVec 16) (c sem : Nat) (x : Wave),
      waveAt s e w = some x → semOf s (engPart s e) lq i = some sem →
    (Completes (.semWait e w lq i n c) s [.now, .engines] fun t =>
      t.now = (atAclk s c).now ∧ (∀ k, k ≠ e.val → eng t k = eng s k) ∧
      (n ≠ 0 → waveAt t e w = some { x with spin := some { sem := sem, want := .atLeast n.toNat, issued := aclk t } }) ∧
      (n = 0 → waveAt t e w = some x ∧ (eng t e).acq = (eng s e).acq + 1)) ∧
    Completes (.semBarWait e w lq i k c) s [.now, .engines] fun t =>
      t.now = (atAclk s c).now ∧ (∀ k, k ≠ e.val → eng t k = eng s k) ∧
      waveAt t e w = some { x with spin := some { sem := sem, want := .barrier k.toNat, issued := aclk t } }) ∧
  (∀ (s : State) (e : Eng) (w : Fin 8) (lq : Nat) (i : Fin 512) (n : Word) (c : Nat) (x : Wave), waveAt s e w = some x →
      x.work ≠ .step → semOf s (engPart s e) lq i = none →
    Completes (.semAdd e w lq i n c) s [.now, .regs, .log, .msix, .engines, .jobs] fun t =>
      RegsBut [ptBase + 0x200C] s t ∧ t.log.seq = (s.log.seq + 1) % 2 ^ 32 ∧ waveAt t e w = none ∧
      jobOf t x.job = (jobOf s x.job).map fun j => { j with err := if j.err = 0 then 0x90 else j.err }) ∧
  (∀ (s : State) (sem a b : Nat), sem < 8192 → SemQuiet s sem →
    semVal (semSub (semAdd s sem a) sem b) sem = min (2 ^ 32 - 1) (semVal s sem + a) - b ∧
    semVal (semAdd (semSub s sem b) sem a) sem = min (2 ^ 32 - 1) (semVal s sem + a) - b)

/-- R111, R275, R279, R281, R283, R287, R289, R291, R296, R299. A reply that arrives a latency after its poll shows the
value of half a latency ago: an engine's wave that is met goes on after an acquire, one that is not met polls again in the
same cycle; a slot's wait that is met ends its job, one that is not polls again. Every 1,024 cycles of spinning count once.
A fence signal of an engine is a release: it goes to the fence unit or waits behind the engine's stores, and one into a
range that the partition may not write ends the work. The oldest waiting release takes effect once every store is
acknowledged, and not before. -/
def Obligations.PollsAndReleases : Prop :=
  (∀ (s : State) (u : Fin 128) (w : Fin 8) (c : Nat) (x : Wave) (sp : Spin) (n : Nat), u.val < 64 → waveAt s u w = some x →
      x.spin = some sp → sp.want = .atLeast n → sp.issued + semLat s u sp.sem ≤ aclk (atAclk s c) →
    Completes (.semPollReply u w c) s [.now, .engines] fun t =>
      t.now = (atAclk s c).now ∧ (∀ k, k ≠ u.val → eng t k = eng s k) ∧
      (n ≤ semAt s sp.sem (aclk t - (semLat s u sp.sem - semLat s u sp.sem / 2)) →
        waveAt t u w = some { x with spin := none } ∧ (eng t u).acq = (eng s u).acq + 1) ∧
      (semAt s sp.sem (aclk t - (semLat s u sp.sem - semLat s u sp.sem / 2)) < n →
        waveAt t u w = some { x with spin := some { sp with issued := aclk t } } ∧ (eng t u).acq = (eng s u).acq)) ∧
  (∀ (s : State) (u : Fin 128) (w : Fin 8) (c : Nat) (x : Wave) (sp : Spin) (k : Nat), u.val < 64 → waveAt s u w = some x →
      x.spin = some sp → sp.want = .barrier k → sp.issued + semLat s u sp.sem ≤ aclk (atAclk s c) →
    Completes (.semPollReply u w c) s [.now, .engines] fun t =>
      t.now = (atAclk s c).now ∧ (∀ k, k ≠ u.val → eng t k = eng s k) ∧
      (let r := semAt s sp.sem (aclk t - (semLat s u sp.sem - semLat s u sp.sem / 2)) / 2 ^ 16 % 2 ^ 16
       let d := (r + 2 ^ 16 - k % 2 ^ 16) % 2 ^ 16
       (1 ≤ d → d ≤ 32767 → waveAt t u w = some { x with spin := none } ∧ (eng t u).acq = (eng s u).acq + 1) ∧
       (d = 0 ∨ 32767 < d → waveAt t u w = some { x with spin := some { sp with issued := aclk t } }))) ∧
  (∀ (s : State) (u : Fin 128) (w : Fin 8) (c : Nat) (sp : Spin) (n : Nat), 64 ≤ u.val → feRuns s = true →
      (slotOf s (u - 64)).spin = some sp → sp.want = .atLeast n → sp.issued + semLatFe sp.sem ≤ aclk (atAclk s c) →
    Completes (.semPollReply u w c) s [.now, .queues, .slots, .jobs] fun t =>
      t.now = (atAclk s c).now ∧ (∀ k, k ≠ u.val - 64 → slotOf t k = slotOf s k) ∧
      (n ≤ semAt s sp.sem (aclk t - (semLatFe sp.sem - semLatFe sp.sem / 2)) →
        slotOf t (u - 64) = { slotOf s (u - 64) with mode := .fetching, hold := 0, waitFrom := none, spin := none } ∧
        ∀ j, waitJob s (u - 64) = some j → jobOf s j.key = some j → j.stop = none → JobEnded s t j j.err) ∧
      (semAt s sp.sem (aclk t - (semLatFe sp.sem - semLatFe sp.sem / 2)) < n →
        slotOf t (u - 64) = { slotOf s (u - 64) with spin := some { sp with issued := aclk t } } ∧
        t.jobs = s.jobs ∧ t.queues = s.queues)) ∧
  (∀ (s : State) (e : Eng) (k : Nat), ((eng s e).waves.any fun w => w.spin.isSome) = true →
    Completes (.spinPrescaler e k) s [.regs, .engines] fun t =>
      eng t e = { eng s e with spinCycles := ((eng s e).spinCycles + k) % 1024 } ∧
      rd t (synBase + 0x9000 + 4 * e) = (rd s (synBase + 0x9000 + 4 * e) + ((eng s e).spinCycles + k) / 1024) % 2 ^ 32 ∧
      RegsBut [synBase + 0x9000 + 4 * e] s t ∧ ∀ j, j ≠ e.val → eng t j = eng s j) ∧
  (∀ (s : State) (e : Eng) (w : Fin 8) (addr : Nat) (v : Dword) (f : FSig), (waveAt s e w).isSome = true →
      writeFault s (engPart s e) (addr % 2 ^ 48 / 8 * 8) 8 = none → 
      f = { addr := addr % 2 ^ 48 / 8 * 8, value := v.toNat, tag := engPart s e, req := e, queue := (whoWave s e w).queue } →
    (ReleasesAtOnce s e → Completes (.engineFenceSignal e w addr v) s [.engines, .fsigs, .transits] fun t =>
      ((fenceSlotOf s f.addr).isSome = true → t.fsigs = s.fsigs ++ [f] ∧ t.transits = s.transits) ∧
      (fenceSlotOf s f.addr = none → t.fsigs = s.fsigs ∧ t.transits = s.transits ++ [f]) ∧
      ∀ j, j ≠ e.val → eng t j = eng s j) ∧
    ((eng s e).outstanding ≠ 0 ∨ (eng s e).releases ≠ [] →
      Completes (.engineFenceSignal e w addr v) s [.engines, .arbs] fun t =>
        (eng t e).releases = (eng s e).releases ++ [.fence f.addr f.value f.tag f.queue] ∧
        ∀ j, j ≠ e.val → eng t j = eng s j)) ∧
  (∀ (s : State) (e : Eng) (w : Fin 8) (addr b : Nat) (v : Dword) (x : Wave), waveAt s e w = some x → x.work ≠ .step →
      writeFault s (engPart s e) (addr % 2 ^ 48 / 8 * 8) 8 = some b →
    Completes (.engineFenceSignal e w addr v) s [.regs, .log, .msix, .engines, .jobs] fun t =>
      rd t (ptBase + 0x2010) = b % 2 ^ 32 / 8 * 8 + 1 ∧ t.log.seq = (s.log.seq + 1) % 2 ^ 32 ∧
      RegsBut [ptBase + 0x200C, ptBase + 0x2010, ptBase + 0x2014] s t ∧ waveAt t e w = none ∧
      jobOf t x.job = (jobOf s x.job).map fun j => { j with err := if j.err = 0 then 0x90 else j.err }) ∧
  (∀ (s : State) (e : Eng) (r : Release) (rs : List Release), (eng s e).releases = r :: rs →
    ((eng s e).outstanding ≠ 0 → exec (.releaseComplete e) s = .next s) ∧
    (∀ sem n, (eng s e).outstanding = 0 → r = .add sem n → sem < 8192 → SemQuiet s sem →
      Completes (.releaseComplete e) s [.regs, .log, .msix, .engines, .semCycles] fun t =>
        eng t e = { eng s e with releases := rs } ∧ semVal t sem = min (2 ^ 32 - 1) (semVal s sem + n) ∧
        RegsBut [semOff sem, synBase + 0x880C] s t ∧ ∀ j, j ≠ e.val → eng t j = eng s j) ∧
    (∀ sem n, (eng s e).outstanding = 0 → r = .sub sem n → sem < 8192 → SemQuiet s sem →
      Completes (.releaseComplete e) s [.regs, .log, .msix, .engines, .semCycles] fun t =>
        eng t e = { eng s e with releases := rs } ∧ semVal t sem = semVal s sem - n ∧
        RegsBut [semOff sem] s t ∧ t.log = s.log ∧ ∀ j, j ≠ e.val → eng t j = eng s j) ∧
    (∀ a v tag q, (eng s e).outstanding = 0 → r = .fence a v tag q →
      Completes (.releaseComplete e) s [.engines, .fsigs, .transits] fun t =>
        eng t e = { eng s e with releases := rs } ∧
        t.fsigs ++ t.transits = (if (fenceSlotOf s a).isSome
          then s.fsigs ++ [{ addr := a, value := v, tag := tag, req := e, queue := q }] ++ s.transits
          else s.fsigs ++ (s.transits ++ [{ addr := a, value := v, tag := tag, req := e, queue := q }])) ∧
        ∀ j, j ≠ e.val → eng t j = eng s j))

/-- R282, R283, R286, R287, R289, R573. A signal to a fence in a slot that is greater than its value sets the value, writes
the fence word and no other byte, and resumes the waits it meets; a lower one sets REGRESS, is recorded and writes nothing;
an equal one does nothing. The transit unit does the same for a fence in no slot, judging the word in memory. A fence word
read for a wait meets it, takes a slot and is read again, or queues behind the pinned slots; read into its slot, it is the
slot's value, counted as a page-in, and resumes the waits it meets. -/
def Obligations.FenceUnit : Prop :=
  (∀ (s : State) (f : FSig) (r : List FSig) (k : Nat), s.fsigs = f :: r → fenceSlotOf s f.addr = some k →
      fslotReady s k = true → f.addr % 8 = 0 → isHost f.addr = false → writeFault s f.tag f.addr 8 = none →
    Completes .fenceSignalApply s [.log, .msix, .sent, .hbm, .host, .fslots, .fclock, .fwaiting, .pageIns, .fsigs, .queues,
        .slots, .jobs] fun t =>
      t.fsigs = r ∧
      ((fslot s k).value < f.value → Stored s t f.addr (leBytes 8 f.value) ∧ t.log = s.log ∧ (s.fwaiting = [] →
        (fslot t k).value = f.value ∧ (feRuns s = true → (∀ w ∈ (fslot t k).waiters, f.value < w.2) ∧
          ∀ w ∈ (fslot s k).waiters, w.2 ≤ f.value → (slotOf t w.1).mode = .fetching))) ∧
      (f.value < (fslot s k).value → t.hbm = s.hbm ∧ t.log.seq = (s.log.seq + 1) % 2 ^ 32 ∧ (s.log.recs.length < 2048 →
          (t.log.recs.getLast?.map (·.code)) = some (if (fslot s k).value = 2 ^ 64 - 1 then 0x81 else 0x80)) ∧
        (s.fwaiting = [] → (fslot t k).value = (fslot s k).value ∧ (fslot t k).regress = true)) ∧
      (f.value = (fslot s k).value → t.hbm = s.hbm ∧ t.log = s.log) ∧
      (s.fwaiting = [] → ∀ j, j ≠ k → fslot t j = fslot s j)) ∧
  (∀ (s : State) (f : FSig) (r : List FSig), s.transits = f :: r → f.tag < 16 → f.addr % 8 = 0 → isHost f.addr = false →
      writeFault s f.tag f.addr 8 = none →
    (Completes (.transitSignal .ok) s [.regs, .log, .msix, .sent, .hbm, .host, .transits] fun t =>
      t.transits = r ∧ rd t (synBase + 0x8808) = (rd s (synBase + 0x8808) + 1) % 2 ^ 32 ∧
      RegsBut [synBase + 0x8808] s t ∧
      (devNat s f.tag f.addr 8 < f.value → Stored s t f.addr (leBytes 8 f.value) ∧ t.log = s.log) ∧
      (f.value < devNat s f.tag f.addr 8 → t.hbm = s.hbm ∧ t.log.seq = (s.log.seq + 1) % 2 ^ 32) ∧
      (f.value = devNat s f.tag f.addr 8 → t.hbm = s.hbm ∧ t.log = s.log)) ∧
    Completes (.transitSignal .uncorrectable) s [.regs, .log, .msix, .mcs, .transits] fun t =>
      t.transits = r ∧ t.log.seq = (s.log.seq + 1) % 2 ^ 32 ∧ t.fslots = s.fslots) ∧
  (∀ (s : State) (n : Slot) (p : PageIn), (s.pageIns.find? fun p => p.slot == n.val) = some p → p.slot = n.val →
      feRuns s = true → (s.transits.any fun f => f.addr == p.addr) = false → p.into = none →
    Completes (.fencePageIn n .ok) s [.fslots, .fclock, .fwaiting, .pageIns, .queues, .slots, .jobs] fun t =>
      (p.value ≤ devNat s p.part p.addr 8 → (slotOf t n).mode = .fetching ∧ t.fslots = s.fslots ∧
        t.pageIns = s.pageIns.filter (· != p)) ∧
      (devNat s p.part p.addr 8 < p.value → fenceSlotOf s p.addr = none → ∀ s' : State,
          s' = { s with pageIns := s.pageIns.filter (· != p) } →
        t.slots = s.slots ∧ t.jobs = s.jobs ∧
        (∀ k, fslotTake s' = some k → (fslot t k).valid = true ∧ (fslot t k).addr = p.addr ∧
          (fslot t k).waiters = [(n.val, p.value)] ∧ t.pageIns = s'.pageIns ++ [{ p with into := some k }] ∧
          ∀ j, j ≠ k → fslot t j = fslot s j) ∧
        (fslotTake s' = none → t.fwaiting = s.fwaiting ++ [p] ∧ t.fslots = s.fslots))) ∧
  (∀ (s : State) (n : Slot) (p : PageIn) (k : Nat), (s.pageIns.find? fun p => p.slot == n.val) = some p →
      feRuns s = true → (s.transits.any fun f => f.addr == p.addr) = false → p.into = some k → s.fwaiting = [] →
    (Completes (.fencePageIn n .ok) s [.regs, .fslots, .fclock, .fwaiting, .pageIns, .queues, .slots, .jobs] fun t =>
      (fslot t k).value = devNat s p.part p.addr 8 ∧ t.pageIns = s.pageIns.filter (· != p) ∧
      rd t (synBase + 0x8804) = (rd s (synBase + 0x8804) + 1) % 2 ^ 32 ∧ RegsBut [synBase + 0x8804] s t ∧
      (∀ w ∈ (fslot t k).waiters, devNat s p.part p.addr 8 < w.2) ∧
      (∀ w ∈ (fslot s k).waiters, w.2 ≤ devNat s p.part p.addr 8 → (slotOf t w.1).mode = .fetching) ∧
      ∀ j, j ≠ k → fslot t j = fslot s j) ∧
    Completes (.fencePageIn n .uncorrectable) s [.regs, .log, .msix, .mcs, .fslots, .fclock, .fwaiting, .pageIns, .queues,
        .slots, .jobs] fun t =>
      fslot t k = {} ∧ ∀ j, j ≠ k → fslot t j = fslot s j)

/-- R315 to R317, R319, R321, R329. In a round of a port arbiter a real-time request wins over every bulk one: the first in
requester order from the real-time pointer. With no real-time request, a requester of the highest level wins, the first from
the bulk pointer. The pointer moves behind the winner, the other pointer stays; a bulk winner returns to its base level, and
every bulk requester that loses gains a level up to 7. A closing window keeps the largest share, starts the next window, and
an overrun is counted, flagged, and logged unless the flag is set. -/
def Obligations.ArbitrationRounds : Prop :=
  (∀ (s : State) (a : Arb) (rise : List Burst) (lower : List (Fin 88)) (c r : Nat), a.val < 16 → r < 88 →
      (arb s a).rtPtr < 88 → (∀ b ∈ (arb s a).raised, b.tag < 16) → raisedRt s (arb s a) r = true →
    Completes (.arbitrationRound a rise lower c) s [.now, .regs, .log, .msix, .engines, .jobs, .arbs, .replies, .arrived]
      fun t => t.now = (atAclk s c).now ∧ ∃ i b, i < 88 ∧ b.rt = true ∧
        (∀ j, j < i → raisedRt s (arb s a) (((arb s a).rtPtr + j) % 88) = false) ∧
        reqHead (arb s a) (((arb s a).rtPtr + i) % 88) = some b ∧ (arb t a).granted = (arb s a).granted ++ [b] ∧
        (arb t a).rtPtr = (((arb s a).rtPtr + i) % 88 + 1) % 88 ∧ (arb t a).bulkPtr = (arb s a).bulkPtr ∧
        (arb t a).beats = (arb s a).beats + beatsOf b ∧ ∀ k, k ≠ a.val → arb t k = arb s k) ∧
  (∀ (s : State) (a : Arb) (rise : List Burst) (lower : List (Fin 88)) (c r : Nat), a.val < 16 → r < 88 →
      (arb s a).bulkPtr < 88 → (∀ q, q < 88 → raisedRt s (arb s a) q = false) → raisedReq s (arb s a) r = true →
      (∀ b ∈ (arb s a).raised, b.tag < 16) →
    Completes (.arbitrationRound a rise lower c) s [.now, .regs, .log, .msix, .engines, .jobs, .arbs, .replies, .arrived]
      fun t => t.now = (atAclk s c).now ∧ ∃ w b, w < 88 ∧ raisedReq s (arb s a) w = true ∧
        (∀ q, q < 88 → raisedReq s (arb s a) q = true → levelOf s (arb s a) q ≤ levelOf s (arb s a) w) ∧
        (∀ j, j < 88 → (((arb s a).bulkPtr + j) % 88 = w) → ∀ k, k < j →
          raisedReq s (arb s a) (((arb s a).bulkPtr + k) % 88) = true →
          levelOf s (arb s a) (((arb s a).bulkPtr + k) % 88) < levelOf s (arb s a) w) ∧
        reqHead (arb s a) w = some b ∧ (arb t a).granted = (arb s a).granted ++ [b] ∧
        (arb t a).bulkPtr = (w + 1) % 88 ∧ (arb t a).rtPtr = (arb s a).rtPtr ∧
        (∀ q, q < 88 → q ≠ w → raisedReq s (arb s a) q = true →
          tabGet (fun _ => 0) q (arb t a).level = min 7 (levelOf s (arb s a) q + 1)) ∧
        tabGet (fun _ => 0) w (arb t a).level = 0 ∧ ∀ k, k ≠ a.val → arb t k = arb s k) ∧
  (∀ (s : State) (a : Mc) (c : Nat),
      (arb s a).winFrom + fld s (arbOff a 0) 16 8 * 1024 ≤ aclk (atAclk s c) →
    Completes (.rtWindowClose a c) s [.now, .regs, .log, .msix, .arbs] fun t =>
      t.now = (atAclk s c).now ∧ (arb t a).beats = 0 ∧
      (arb t a).winFrom = (arb s a).winFrom + fld s (arbOff a 0) 16 8 * 1024 ∧
      fld t (arbOff a 0x18) 0 10 = max (fld s (arbOff a 0x18) 0 10)
        (min 1000 ((arb s a).beats * 10000 / (fld s (arbOff a 0) 16 8 * 12288))) ∧
      ((arb s a).beats * 25 ≤ fld s (arbOff a 0) 16 8 * 18432 → RegsBut [arbOff a 0x18] s t ∧ t.log = s.log) ∧
      (fld s (arbOff a 0) 16 8 * 18432 < (arb s a).beats * 25 →
        RegsBut [arbOff a 0x18, arbOff a 0x14, arbOff a 0x04] s t ∧
        rd t (arbOff a 0x14) = (rd s (arbOff a 0x14) + 1) % 2 ^ 32 ∧ fld t (arbOff a 0x04) 1 1 = 1 ∧
        (fld s (arbOff a 0x04) 1 1 = 1 → t.log = s.log) ∧
        (fld s (arbOff a 0x04) 1 1 = 0 → t.log.seq = (s.log.seq + 1) % 2 ^ 32)) ∧
      ∀ k, k ≠ a.val → arb t k = arb s k)

/-- R307, R308, R310, R314, R326 to R329. A granted burst that shares no line with an earlier one is performed: a write
stores its bytes and no other, a read answers the bytes of its addresses, both raise their reply at the sector's crossbar
and count their beats; a burst outside the ranges of its tag moves nothing, is reported, and replies 0x90. The oldest
corrected word is written back. The patrol scrubber takes one line when its interval has passed. A router output takes a
real-time packet before any bulk one and moves its input's turn on; the packet goes to the next router or to the engine. -/
def Obligations.MemoryControllersAndMesh : Prop :=
  (∀ (s : State) (m : Fin 17) (k pos : Nat) (ecc : Ecc) (c : Nat) (b : Burst), m.val < 16 →
      (arb s m).granted[k]? = some b → mayPerform (arb s m).granted k = true → fld s (mcOff m 0) 0 2 = 1 →
      isHost b.addr = false → b.len ≤ pos →
    (b.write = true → writable s b.tag b.addr b.len = true →
      Completes (.memoryBurst m k pos ecc c) s [.now, .regs, .sent, .hbm, .host, .arbs, .replies] fun t =>
        t.now = (atAclk s c).now ∧ Stored s t b.addr b.data ∧
        t.replies = s.replies ++ [{ burst := b, data := [], err := 0 }] ∧
        (arb t m).granted = (arb s m).granted.eraseIdx k ∧
        (arb t (16 + m / 4)).raised = (arb s (16 + m / 4)).raised ++ [b] ∧
        rd t (mcOff m 8) = (rd s (mcOff m 8) + beatsOf b) % 2 ^ 32 ∧ RegsBut [mcOff m 8, mcOff m 0x0C] s t) ∧
    (b.write = false → inRange s b.tag b.addr b.len = true → b.addr + b.len ≤ 2 ^ 47 →
      Completes (.memoryBurst m k pos ecc c) s [.now, .regs, .arbs, .replies] fun t =>
        t.now = (atAclk s c).now ∧
        t.replies = s.replies ++ [{ burst := b, data := s.hbm.readBytes b.addr b.len, err := 0 }] ∧
        (arb t m).granted = (arb s m).granted.eraseIdx k ∧
        (arb t (16 + m / 4)).raised = (arb s (16 + m / 4)).raised ++ [b] ∧
        rd t (mcOff m 4) = (rd s (mcOff m 4) + beatsOf b) % 2 ^ 32 ∧ RegsBut [mcOff m 4, mcOff m 0x0C] s t) ∧
    ((if b.write then writable s b.tag b.addr b.len else inRange s b.tag b.addr b.len) = false →
      Completes (.memoryBurst m k pos ecc c) s [.now, .regs, .log, .msix, .arbs, .replies] fun t =>
        t.now = (atAclk s c).now ∧ t.replies = s.replies ++ [{ burst := b, data := [], err := 0x90 }] ∧
        (arb t m).granted = (arb s m).granted.eraseIdx k ∧ t.log.seq = (s.log.seq + 1) % 2 ^ 32 ∧
        RegsBut [ptBase + 0x200C, ptBase + 0x2010, ptBase + 0x2014] s t)) ∧
  (∀ (s : State) (m : Mc), Completes (.mcCorrectionWriteback m) s [.mcs] fun t =>
    mcOf t m = { mcOf s m with corrections := (mcOf s m).corrections.drop 1 } ∧ ∀ k, k ≠ m.val → mcOf t k = mcOf s k) ∧
  (∀ (s : State) (m : Mc) (c : Nat), fld s (mcOff m 0x1C) 0 1 = 1 → fld s (mcOff m 0) 0 2 = 1 →
      (mcOf s m).scrubAt + fld s (mcOff m 0x1C) 8 8 * 1024 ≤ aclk (atAclk s c) →
    Completes (.mcPatrolScrub m c .ok) s [.now, .regs, .log, .msix, .mcs] fun t =>
      t.now = (atAclk s c).now ∧ RegsBut [] s t ∧ t.log = s.log ∧ (mcOf t m).scrubAt = aclk (atAclk s c) ∧
      (mcOf t m).line = (if ((mcOf s m).line + 1) * 1024 < capacity s then (mcOf s m).line + 1 else 0) ∧
      (mcOf t m).corrections = (mcOf s m).corrections ∧ ∀ k, k ≠ m.val → mcOf t k = mcOf s k) ∧
  (∀ (s : State) (r : Eng) (out : Fin 5) (join : List MeshPkt) (u : State) (i : Nat) (p : MeshPkt),
      u = (join.filter fun p => p.src == r).foldl (fun s p => meshPush s r 4 p) s →
      (meshPick (router u r) r out true = some (i, p) ∨
        meshPick (router u r) r out true = none ∧ meshPick (router u r) r out false = some (i, p)) →
    Completes (.meshForward r out join) s [.routers, .meshOut] fun t =>
      tabGet (fun _ => 0) (out * 2 + b2n p.rt) (router t r).turn = (i + 1) % 5 ∧
      (out.val = 4 → t.meshOut = s.meshOut ++ [p] ∧
        tabGet (fun _ => []) i (router t r).inq = (tabGet (fun _ => []) i (router u r).inq).erase p) ∧
      (out.val < 4 → t.meshOut = s.meshOut ∧ ((meshNext r out).1 ≠ r.val →
        tabGet (fun _ => []) i (router t r).inq = (tabGet (fun _ => []) i (router u r).inq).erase p ∧
        tabGet (fun _ => []) (meshNext r out).2 (router t (meshNext r out).1).inq =
          tabGet (fun _ => []) (meshNext r out).2 (router u (meshNext r out).1).inq ++ [p])))

/-- R432, R433, R438, R440, R442. An MW2 read inside the window and the ranges answers the bytes at the window's place in
external memory, one beyond the window or with the function off answers Unsupported Request, one that shows an uncorrectable
error Completer Abort. A write stores its bytes there and no other; a poisoned one stores nothing and is logged. An AtomicOp
is refused. A read of host memory brings the engine its reply: with the data, which is what the host's memory then holds, or
with 0xC4 and a record; the end of a read that timed out is that of an error. -/
def Obligations.HostMemoryWindow : Prop :=
  (∀ (s : State) (fn : Part) (x n pos a : Nat) (ecc : Ecc), 1 ≤ n → n ≤ 4096 →
      a = hbmLo s fn + fld s (ptOff fn 0x10) 0 11 * granule + x →
    (mw2On s fn x n = true → readFault s fn a n = none → a + n ≤ 2 ^ 47 → n ≤ pos →
      Completes (.mw2Read fn x n pos ecc) s [.rdata, .rstat] fun t =>
        t.rdata = bytesWords (s.hbm.readBytes a n) ∧ t.rstat = 0) ∧
    (mw2On s fn x n = true → readFault s fn a n = none → pos < n →
      Completes (.mw2Read fn x n pos .uncorrectable) s [.regs, .log, .msix, .rdata, .rstat, .mcs] fun t =>
        t.rdata = [] ∧ t.rstat = 2 ∧ t.log.seq = (s.log.seq + 1) % 2 ^ 32) ∧
    (mw2On s fn x n = false → Completes (.mw2Read fn x n pos ecc) s [.rdata, .rstat] fun t =>
      t.rdata = [] ∧ t.rstat = 1) ∧
    (mw2On s fn x n = true → readFault s fn a n ≠ none →
      Completes (.mw2Read fn x n pos ecc) s [.regs, .log, .msix, .rdata, .rstat] fun t =>
        t.rdata = [] ∧ t.rstat = 1 ∧ RegsBut [ptBase + 0x200C, ptBase + 0x2010, ptBase + 0x2014] s t)) ∧
  (∀ (s : State) (fn : Part) (x pos a : Nat) (data : List Byte) (ecc : Ecc),
      a = hbmLo s fn + fld s (ptOff fn 0x10) 0 11 * granule + x →
    (mw2On s fn x data.length = true → writeFault s fn a data.length = none → a + data.length ≤ 2 ^ 47 →
        data.length ≤ pos →
      Completes (.mw2Write fn x data false pos ecc) s [.hbm] fun t => Stored s t a data) ∧
    (mw2On s fn x data.length = false →
      Completes (.mw2Write fn x data false pos ecc) s [] fun t => t = s) ∧
    Completes (.mw2Write fn x data true pos ecc) s [.log, .msix] fun t => t.log.seq = (s.log.seq + 1) % 2 ^ 32 ∧
      (s.log.recs.length < 2048 → (t.log.recs.getLast?.map fun r => (r.code, r.tag)) = some (0xC3, fn.val))) ∧
  (∀ (s : State) (fn : Part), Completes (.atomicOpReceived fn) s [.rdata, .rstat] fun t => t.rdata = [] ∧ t.rstat = 1) ∧
  (∀ (s : State) (e : Eng) (a h c : Nat) (cpl : HostCpl) (data : List Byte) (b : Burst) (rest : List Burst),
      hostReadOf e s.hostReads = some (b, rest) → masked s e = false → isHost b.addr = true →
      hostAddr s b.tag b.addr = some h →
    (cpl = .data → data.length ≤ 256 →
      Completes (.hostReadCompletion (.engine e) a cpl data c) s [.now, .host, .arrived, .hostReads] fun t =>
        t.now = (atAclk s c).now ∧ t.hostReads = rest ∧ t.host = s.host.writeBytes h data ∧
        ∃ d, t.arrived = s.arrived ++ [{ burst := b, data := d, err := 0 }]) ∧
    (cpl ≠ .data → Completes (.hostReadCompletion (.engine e) a cpl data c) s
        [.now, .log, .msix, .arrived, .hostReads] fun t =>
      t.now = (atAclk s c).now ∧ t.hostReads = rest ∧ t.log.seq = (s.log.seq + 1) % 2 ^ 32 ∧
      t.arrived = s.arrived ++ [{ burst := b, data := [], err := 0xC4 }]) ∧
    Completes (.hostReadTimeout (.engine e) a c) s [.now, .log, .msix, .arrived, .hostReads] fun t =>
      t.now = (atAclk s c).now ∧ t.hostReads = rest ∧ t.log.seq = (s.log.seq + 1) % 2 ^ 32 ∧
      t.arrived = s.arrived ++ [{ burst := b, data := [], err := 0xC4 }])

/-- R301, R410, R422, R424, R430, R436, R437, R444, R445, R462, R463. A read of 8 bytes returns both halves, one of 4 the
low half and latches the high one; a virtual function reads 0 for a queue or slot that is not its own. A write of another
size, misaligned or to a function that is off is ignored. A vector with events sends one message, 2,000 cycles after the
last at the earliest; a masked one keeps them pending, and sends when it is unmasked. -/
def Obligations.HostRegisterAccess : Prop :=
  (∀ (s : State) (fn : Part) (q : Qid) (size : Nat),
    (seesQueue s fn q = true → size = 8 →
      (Completes (.feCompRead fn q size) s [.rdata, .rstat] fun t =>
        t.rstat = 0 ∧ t.rdata = [compWord s q % 2 ^ 32, compWord s q / 2 ^ 32]) ∧
      Completes (.feCerrRead fn q size) s [.rdata, .rstat] fun t =>
        t.rstat = 0 ∧ t.rdata = [cerrWord s q % 2 ^ 32, cerrWord s q / 2 ^ 32]) ∧
    (seesQueue s fn q = true → size = 4 →
      (Completes (.feCompRead fn q size) s [.regs, .rdata, .rstat] fun t =>
        t.rstat = 0 ∧ t.rdata = [(que s q).compSeq % 2 ^ 32] ∧
        rd t (feOff (0x2004 + 0x10 * q)) = compWord s q / 2 ^ 32 % 2 ^ 32 ∧ RegsBut [feOff (0x2004 + 0x10 * q)] s t) ∧
      Completes (.feCerrRead fn q size) s [.regs, .rdata, .rstat] fun t =>
        t.rstat = 0 ∧ t.rdata = [(que s q).errSeq % 2 ^ 32] ∧
        rd t (feOff (0x200C + 0x10 * q)) = cerrWord s q / 2 ^ 32 % 2 ^ 32 ∧ RegsBut [feOff (0x200C + 0x10 * q)] s t) ∧
    (fn.val ≠ 0 → ((que s q).life = .free ∨ (que s q).part ≠ fn.val) → size = 4 →
      (Completes (.feCompRead fn q size) s [.rdata, .rstat] fun t => t.rdata = [0]) ∧
      Completes (.feCerrRead fn q size) s [.rdata, .rstat] fun t => t.rdata = [0])) ∧
  (∀ (s : State) (fn : Part) (n : Slot), seesSlot s fn n = true → (slotOf s n).valid = true →
    (Completes (.feQslotSeqRead fn n) s [.regs, .rdata, .rstat] fun t =>
      t.rdata = [(que s (slotOf s n).queue).seq % 2 ^ 32] ∧ rd t (feOff (0x1014 + 0x40 * n)) =
        (que s (slotOf s n).queue).seq % 2 ^ 48 / 2 ^ 32 ∧ RegsBut [feOff (0x1014 + 0x40 * n)] s t) ∧
    ((slotOf s n).inEntry = true → Completes (.feQslotBufRead fn n) s [.regs, .rdata, .rstat] fun t =>
      t.rdata = [((slotOf s n).buf.addr + 4 * (slotOf s n).buf.pos) % 2 ^ 32] ∧ rd t (feOff (0x102C + 0x40 * n)) =
        ((slotOf s n).buf.addr + 4 * (slotOf s n).buf.pos) % 2 ^ 48 / 2 ^ 32 ∧
      RegsBut [feOff (0x102C + 0x40 * n)] s t)) ∧
  (∀ (s : State) (k : Fin 48), (fslot s k).valid = true → Completes (.synFslotValRead k) s [.regs, .rdata, .rstat] fun t =>
    t.rdata = [(fslot s k).value % 2 ^ 32] ∧ rd t (synBase + 0x800C + 0x20 * k) = (fslot s k).value / 2 ^ 32 % 2 ^ 32 ∧
    RegsBut [synBase + 0x800C + 0x20 * k] s t) ∧
  (∀ (s : State) (fn : Part) (off : Fin 2097152) (v : Dword) (size : Nat),
    (mw0On s fn = false ∨ (size ≠ 4 ∧ size ≠ 8) ∨ off.val % size ≠ 0 →
      Completes (.registerWrite fn off v size) s [] fun t => t = s) ∧
    (∀ n : Fin 64, mw0On s fn = true → off.val = msixBase + 16 * n + 8 → size = 4 →
      Completes (.registerWrite fn off v size) s [.msix] fun t =>
        vec t fn n = { vec s fn n with data := v.toNat % 2 ^ 32 } ∧
        ∀ p w, 64 * p + w ≠ 64 * fn.val + n.val → vec t p w = vec s p w) ∧
    (∀ m i : Nat, mw0On s fn = true → fn.val = 0 → 1 ≤ m → m < 8 → i < 16 → off.val = mbOff m (4 * i) → size = 4 →
      fld s (mbOff m 0x80) 0 1 = 0 → Completes (.registerWrite fn off v size) s [.regs] fun t =>
        rd t (mbOff m (4 * i)) = v.toNat % 2 ^ 32 ∧ RegsBut [mbOff m (4 * i)] s t)) ∧
  (∀ (s : State) (fn : Part) (v : Fin 64) (c : Nat), (vec s fn v).due = true →
    (vecOpen s fn v = true → linkUp s = true → (∀ l, (vec s fn v).lastSent = some l → l + 2000 ≤ aclk (atAclk s c)) →
      Completes (.msixSend fn v c) s [.now, .msix, .sent] fun t =>
        t.now = (atAclk s c).now ∧ t.sent = .msix fn v (vec s fn v).addr (vec s fn v).data :: s.sent ∧
        vec t fn v = { vec s fn v with due := false, lastSent := some (aclk (atAclk s c)) } ∧
        ∀ p w, 64 * p + w ≠ 64 * fn.val + v.val → vec t p w = vec s p w) ∧
    (vecOpen s fn v = false → Completes (.msixSend fn v c) s [.now, .msix] fun t =>
      vec t fn v = { vec s fn v with due := false, pend := true } ∧
      ∀ p w, 64 * p + w ≠ 64 * fn.val + v.val → vec t p w = vec s p w)) ∧
  (∀ (s : State) (fn : Part) (v : Option (Fin 64)) (en fm : Bool), mw0On s fn = true →
    Completes (.msixUnmask fn v en fm) s [.msix, .msixCtl] fun t =>
      msixCtlOf t fn = { enable := en, fmask := fm } ∧ (∀ p, p ≠ fn.val → msixCtlOf t p = msixCtlOf s p) ∧
      (∀ n, n < 64 → vec t fn n = (let x := if v.map (·.val) = some n then { vec s fn n with masked := false } else vec s fn n
        if en = true ∧ fm = false ∧ x.masked = false ∧ x.pend = true then { x with pend := false, due := true } else x)) ∧
      ∀ p w, (w < 64 → p ≠ fn.val) → w < 64 → vec t p w = vec s p w)

/-- R385 to R397, R364, R367, R408: a doorbell write moves the write pointer and sets RUNG in the slot, or in the page while the
queue is unloaded; an IDLE slot that is rung fetches; the ring entry at RPTR begins its buffer when its handle relocates; the
next entry's buffer is read ahead and FE_PREFETCH counts; a buffer's end returns to its caller or ends the entry and advances
RPTR, with the slot's idle step; a handle-table entry that arrives is cached in first place; an unknown opcode faults the queue
with 0x20. -/
def Obligations.RingsAndBuffers : Prop :=
  (∀ (s : State) (fn : Part) (q : Qid) (v : Nat), (que s q).life ≠ .free → (que s q).part = fn → fnOn s fn = true →
    Completes (.doorbell fn q v 4) s [.queues, .slots] fun t =>
      (∀ n, (que s q).slot = some n → t.queues = s.queues ∧ (∀ k, k ≠ n → slotOf t k = slotOf s k) ∧
        slotOf t n = { slotOf s n with
          wptr := wptrAfter (slotOf s n).wptr (slotOf s n).rptr (que s q).entries (v % 2 ^ 32)
          rung := true }) ∧
      ((que s q).slot = none → t.slots = s.slots ∧ (∀ k, k ≠ q.val → que t k = que s k) ∧
        que t q = { que s q with
          pageWptr := wptrAfter (que s q).pageWptr (que s q).rptr (que s q).entries (v % 2 ^ 32)
          pageRung := true })) ∧
  (∀ (s : State) (n : Slot), feRuns s = true → (slotOf s n).valid = true → (slotOf s n).mode = .idle →
    (slotOf s n).rung = true →
    Completes (.slotWake n) s [.slots] fun t => (∀ k, k ≠ n.val → slotOf t k = slotOf s k) ∧
      slotOf t n = { slotOf s n with mode := .fetching, hold := 0, wptrSeen := (slotOf s n).wptr }) ∧
  (∀ (s : State) (n : Slot) (p : Nat) (w : List Nat) (r : Ref), (slotOf s n).valid = true → feRuns s = true →
    (slotOf s n).mode = .fetching → (slotOf s n).inEntry = false → (slotOf s n).miss = none →
    (slotOf s n).entryWords = none → (slotOf s n).rptr ≠ (slotOf s n).wptrSeen → p = (que s (slotOf s n).queue).part →
    readFault s p (entryAt (que s (slotOf s n).queue) (slotOf s n).rptr) 16 = none →
    w = bytesWords (devBytes s p (entryAt (que s (slotOf s n).queue) (slotOf s n).rptr) 16) →
    relocate s (some (que s (slotOf s n).queue).ctx) (nth w 0) { read := true } = .ok r → (entryBuf w r).words ≠ 0 →
    Completes (.ringEntryFetch n .ok) s [.regs, .slots, .reloc] fun t =>
      rd t (feOff 0x14) = (rd s (feOff 0x14) + 1) % 2 ^ 32 ∧ RegsBut [feOff 0x14] s t ∧
      (∀ k, k ≠ n.val → slotOf t k = slotOf s k) ∧
      slotOf t n = { slotOf s n with
        inEntry := true
        entryWords := none
        buf := entryBuf w r
        calls := []
        loops := []
        skip := 0
        fetchedAt := aclk s }) ∧
  (∀ (s : State) (n : Slot), feRuns s = true → (slotOf s n).valid = true → (slotOf s n).mode = .fetching →
    (slotOf s n).inEntry = false → (slotOf s n).entryWords = none → (slotOf s n).rptr = (slotOf s n).wptrSeen →
    Completes (.ringEntryEnd n) s [.slots] fun t => (∀ k, k ≠ n.val → slotOf t k = slotOf s k) ∧
      ((slotOf s n).wptr ≠ (slotOf s n).rptr →
        slotOf t n = { slotOf s n with wptrSeen := (slotOf s n).wptr, rung := false }) ∧
      ((slotOf s n).wptr = (slotOf s n).rptr →
        slotOf t n = { slotOf s n with wptrSeen := (slotOf s n).wptr, rung := false, mode := .idle, flowFrom := none })) ∧
  (∀ (s : State) (n : Slot), feRuns s = true → atBufEnd (slotOf s n) = true → (slotOf s n).calls = [] →
    ownLoops (slotOf s n) = [] → (slotOf s n).pf = none → ((slotOf s n).rptr + 1) % 2 ^ 32 ≠ (slotOf s n).wptrSeen →
    Completes (.ringEntryEnd n) s [.slots] fun t => (∀ k, k ≠ n.val → slotOf t k = slotOf s k) ∧
      (slotOf t n).rptr = ((slotOf s n).rptr + 1) % 2 ^ 32 ∧ (slotOf t n).inEntry = false ∧
      (slotOf t n).mode = .fetching ∧ (slotOf t n).wptr = (slotOf s n).wptr ∧ (slotOf t n).rung = (slotOf s n).rung) ∧
  (∀ (s : State) (n : Slot) (p : Prefetch) (b : Buf), (slotOf s n).pf = some p → p.buf = some b → feRuns s = true →
    (slotOf s n).valid = true → p.bytes = none → p.bad = false → bit (nth p.words 2) 8 = false → b.words ≠ 0 →
    readFault (bump s (feOff 0x1C)) (que s (slotOf s n).queue).part b.addr (min 65536 (4 * b.words)) = none →
    Completes (.bufferPrefetch n .ok) s [.regs, .slots] fun t =>
      rd t (feOff 0x1C) = (rd s (feOff 0x1C) + 1) % 2 ^ 32 ∧ RegsBut [feOff 0x1C] s t ∧
      (∀ k, k ≠ n.val → slotOf t k = slotOf s k) ∧
      ∃ d, d = devBytes (bump s (feOff 0x1C)) (que s (slotOf s n).queue).part b.addr (min 65536 (4 * b.words)) ∧
        slotOf t n = { slotOf s n with pf := some { p with bytes := some d } }) ∧
  (∀ (s : State) (n : Slot), feRuns s = true → atBufEnd (slotOf s n) = true → ownLoops (slotOf s n) = [] →
    (slotOf s n).pf = none →
    Completes (.bufferEnd n) s [.slots] fun t => (∀ k, k ≠ n.val → slotOf t k = slotOf s k) ∧
      (∀ b r, (slotOf s n).calls = b :: r → slotOf t n = { slotOf s n with buf := b, calls := r, skip := 0 }) ∧
      ((slotOf s n).calls = [] → (slotOf t n).rptr = ((slotOf s n).rptr + 1) % 2 ^ 32 ∧ (slotOf t n).inEntry = false)) ∧
  (∀ (s : State) (n : Slot) (c i : Nat) (w : List Nat), (slotOf s n).miss = some (c, i) → tablePending s c = false →
    readFault s (ctxOf s c).part ((ctxOf s c).table + 16 * i) 16 = none →
    w = bytesWords (devBytes s (ctxOf s c).part ((ctxOf s c).table + 16 * i) 16) → bits (nth w 1) 24 8 ≠ 0 →
    (slotOf s n).entryWords = none →
    Completes (.handleEntryFetch n .ok) s [.slots, .reloc] fun t => (∀ k, k ≠ n.val → slotOf t k = slotOf s k) ∧
      slotOf t n = { slotOf s n with miss := none } ∧ relocFind t c i = some w ∧
      t.reloc = ((c, i, w) :: s.reloc.filter fun y => !(y.1 == c && y.2.1 == i)).take 512) ∧
  ∀ (s : State) (n : Slot), feRuns s = true → canDecode (slotOf s n) = true → cmdFault s n 1 = none →
    bits (nth (cmdWords s n 1) 0) 24 8 ∉ opcodes →
    Completes (.unknownOpcode n) s [.regs, .log, .msix, .queues, .slots, .jobs] fun t => QueueFaulted s t n 0x20

/-- R399 to R406, for a command that decodes with its checks passed (`Decodes`, R396): NOP moves past itself; JUMP replaces the
current buffer with its target; CALL enters its target and pushes the word after itself, or goes on when the target has 0
words; RETURN pops the top return point; LOOP opens a loop of COUNT passes, 0 read as 1; ENDLOOP repeats the innermost loop's
body or closes it after the last pass; COND, unless it waits for the queue's jobs, compares the masked word (0 when it does not
lie inside the object) and on failure skips SKIP commands. The slot's header place and flow timer are noted (R397, R427), and
FE_REQ's count of relocated handles and the relocation cache's order change; no memory, job or queue does. -/
def Obligations.FlowControlCommands : Prop :=
  (∀ (s : State) (n : Slot) (w : List Nat), Decodes s n 0x00 w [] [] →
    Completes (.nop n) s [.regs, .slots, .reloc] fun t =>
      RegsBut [feOff 0x14] s t ∧ SlotIs s t n ((slotOf s n).past w.length)) ∧
  (∀ (s : State) (n : Slot) (w : List Nat) (r : Ref), Decodes s n 0x01 w (readNeed w) [r] →
    Completes (.jump n) s [.regs, .slots, .reloc] fun t =>
      RegsBut [feOff 0x14] s t ∧ SlotIs s t n { slotOf s n with
        buf := targetBuf w r, skip := 0
        ahead := if (slotOf s n).calls = [] then none else (slotOf s n).ahead }) ∧
  (∀ (s : State) (n : Slot) (w : List Nat) (r : Ref), Decodes s n 0x02 w (readNeed w) [r] →
    Completes (.call n) s [.regs, .slots, .reloc] fun t => RegsBut [feOff 0x14] s t ∧
      ((targetBuf w r).words = 0 → SlotIs s t n ((slotOf s n).past w.length)) ∧
      ((targetBuf w r).words ≠ 0 → SlotIs s t n { slotOf s n with
        buf := targetBuf w r
        calls := ((slotOf s n).past w.length).buf :: (slotOf s n).calls })) ∧
  (∀ (s : State) (n : Slot) (w : List Nat) (b : Buf) (r : List Buf), Decodes s n 0x03 w [] [] → (slotOf s n).calls = b :: r →
    Completes (.ret n) s [.regs, .slots, .reloc] fun t =>
      RegsBut [feOff 0x14] s t ∧ SlotIs s t n { slotOf s n with buf := b, calls := r, skip := 0 }) ∧
  (∀ (s : State) (n : Slot) (w : List Nat), Decodes s n 0x04 w [] [] →
    Completes (.loop n) s [.regs, .slots, .reloc] fun t => RegsBut [feOff 0x14] s t ∧
      SlotIs s t n { (slotOf s n).past w.length with
        loops := { left := max 1 (nth w 1), body := (slotOf s n).buf.pos + w.length, depth := (slotOf s n).calls.length } ::
          (slotOf s n).loops }) ∧
  (∀ (s : State) (n : Slot) (w : List Nat) (l : LoopSt) (r : List LoopSt), Decodes s n 0x05 w [] [] →
      (slotOf s n).loops = l :: r →
    Completes (.endloop n) s [.regs, .slots, .reloc] fun t => RegsBut [feOff 0x14] s t ∧
      (l.left = 1 → SlotIs s t n { (slotOf s n).past w.length with loops := r }) ∧
      (l.left ≠ 1 → SlotIs s t n { slotOf s n with
        loops := { l with left := l.left - 1 } :: r
        buf := { (slotOf s n).buf with pos := l.body } })) ∧
  ∀ (s : State) (n : Slot) (w : List Nat) (r : Ref) (p len a x y m : Nat), Decodes s n 0x06 w (readNeed w) [r] →
    (bit (nth w 0) 4 = false ∨ queueIdle s (slotOf s n).queue = true) →
    p = (que s (slotOf s n).queue).part → len = (if bit (nth w 0) 3 then 8 else 4) →
    a = r.addr + nth w 2 / len * len + hi32 (bits (nth w 3) 0 8) →
    (a + len ≤ r.bound → readFault (decoded s n 0x06 (readNeed w)) p a len = none) →
    x = (if a + len ≤ r.bound then devNat (decoded s n 0x06 (readNeed w)) p a len else 0) →
    y = (if bit (nth w 0) 3 then nth w 4 + hi32 (nth w 5) else nth w 4) →
    m = (if bit (nth w 0) 3 then nth w 6 + hi32 (nth w 7) else nth w 6) →
    Completes (.cond n) s [.regs, .slots, .reloc] fun t => RegsBut [feOff 0x14] s t ∧
      (compareFn (bits (nth w 0) 0 3) (Nat.land x m) y = true → SlotIs s t n ((slotOf s n).past w.length)) ∧
      (compareFn (bits (nth w 0) 0 3) (Nat.land x m) y = false →
        SlotIs s t n { (slotOf s n).past w.length with skip := bits (nth w 8) 0 12 })

/-- R292, R293, R411, R416, for a command that decodes with its checks passed: a WAIT_FENCE on a fence that is not resident
begins its wait job and asks for the fence's word; a SIGNAL_FENCE hands its signal to the fence unit and completes; SEM_OP WAIT
begins its wait and polls, and completes at once for 0; ADD, SUB and ARRIVE operate on the semaphore, which no operation of
this cycle or a later one has touched; a SEM_OP ADD with a job of its queue unfinished is held, and a held one that may start
acts; WRITE_REG writes its SEC_PASS register, 4 to 7 dropped. -/
def Obligations.FencesSemaphoresInQueues : Prop :=
  (∀ (s : State) (n : Slot) (w : List Nat) (r : Ref) (u : State) (a p q : Nat),
    Decodes s n 0x08 w [(nth w 1, { read := true, fence := true })] [r] → q = (slotOf s n).queue → prevDone s q = true →
    u = began s n 0x08 [(nth w 1, { read := true, fence := true })] w.length → fenceRef w 2 r = some a →
    p = (que s q).part → readFault u p a 8 = none → fenceSlotOf s a = none →
    Completes (.waitFence n) s [.regs, .pageIns, .queues, .slots, .reloc, .jobs, .jobKey] fun t =>
      RegsBut [feOff 0x14] s t ∧ JobStarted s t q .wait ∧
      t.pageIns = s.pageIns ++ [{ slot := n, addr := a, value := val64 w 4, part := p }] ∧
      SlotIs s t n { (slotOf s n).begun w.length with mode := .held, hold := 1, waitFrom := some s.now, spin := none }) ∧
  (∀ (s : State) (n : Slot) (w : List Nat) (r : Ref) (u : State) (a p q : Nat) (f : FSig),
    Decodes s n 0x09 w [(nth w 1, { write := true, fence := true })] [r] → q = (slotOf s n).queue → queueIdle s q = true →
    u = began s n 0x09 [(nth w 1, { write := true, fence := true })] w.length → fenceRef w 2 r = some a →
    p = (que s q).part → writeFault u p a 8 = none →
    f = { addr := a, value := val64 w 4, tag := p, req := 84, queue := some q } →
    Completes (.signalFence n) s [.regs, .fsigs, .transits, .queues, .slots, .reloc] fun t =>
      RegsBut [feOff 0x14] s t ∧ InstantJob s t q 0 ∧ SlotIs s t n ((slotOf s n).begun w.length) ∧
      ((fenceSlotOf s a).isSome = true → t.fsigs = s.fsigs ++ [f] ∧ t.transits = s.transits) ∧
      ((fenceSlotOf s a).isSome = false → t.transits = s.transits ++ [f] ∧ t.fsigs = s.fsigs)) ∧
  (∀ (s : State) (n : Slot) (w : List Nat) (u : State) (q sem : Nat),
    Decodes s n 0x0A w [] [] → q = (slotOf s n).queue → u = began s n 0x0A [] w.length → semOpTarget u n w = some sem →
    (bits (nth w 1) 0 2 = 0 → prevDone s q = true →
      Completes (.semOpWait n) s [.regs, .queues, .slots, .reloc, .jobs, .jobKey] fun t => RegsBut [feOff 0x14] s t ∧
        (nth w 2 = 0 → InstantJob s t q 0 ∧ SlotIs s t n ((slotOf s n).begun w.length)) ∧
        (nth w 2 ≠ 0 → JobStarted s t q .wait ∧
          SlotIs s t n { (slotOf s n).begun w.length with
            mode := .held
            hold := 2
            waitFrom := some s.now
            spin := some { sem := sem, want := .atLeast (nth w 2), issued := aclk s } })) ∧
    (bits (nth w 1) 0 2 = 1 → queueIdle s q = true → SemQuiet s sem →
      Completes (.semOpAdd n) s [.regs, .log, .msix, .semCycles, .queues, .slots, .reloc] fun t =>
        RegsBut [feOff 0x14, semOff sem, synBase + 0x880C] s t ∧ InstantJob s t q 0 ∧
        SlotIs s t n ((slotOf s n).begun w.length) ∧ semVal t sem = min (2 ^ 32 - 1) (semVal s sem + nth w 2)) ∧
    (bits (nth w 1) 0 2 = 2 → queueIdle s q = true → SemQuiet s sem →
      Completes (.semOpSub n) s [.regs, .log, .msix, .semCycles, .queues, .slots, .reloc] fun t =>
        RegsBut [feOff 0x14, semOff sem] s t ∧ InstantJob s t q 0 ∧ t.log = s.log ∧
        SlotIs s t n ((slotOf s n).begun w.length) ∧ semVal t sem = semVal s sem - nth w 2) ∧
    (bits (nth w 1) 0 2 = 3 → prevDone s q = true → SemQuiet s sem → barDist (bits (nth w 2) 0 16) (semVal s sem) = 0 →
      Completes (.semOpArrive n) s [.regs, .log, .msix, .semCycles, .queues, .slots, .reloc, .jobs, .jobKey] fun t =>
        RegsBut [feOff 0x14, semOff sem] s t ∧ JobStarted s t q .wait ∧ t.log = s.log ∧
        semVal t sem = barCount (semVal s sem) (bits (nth w 2) 0 16) (bits (nth w 2) 16 16) % 2 ^ 32 ∧
        SlotIs s t n { (slotOf s n).begun w.length with
          mode := .held
          hold := 2
          waitFrom := some s.now
          spin := some { sem := sem, want := .barrier (bits (nth w 2) 0 16), issued := aclk s } })) ∧
  (∀ (s : State) (n : Slot) (w : List Nat), Decodes s n 0x0A w [] [] → bits (nth w 1) 0 2 = 1 →
    queueIdle s (slotOf s n).queue = false →
    Completes (.semOpAdd n) s [.regs, .slots, .reloc] fun t => RegsBut [feOff 0x14] s t ∧
      SlotIs s t n { slotOf s n with
        mode := .held
        hold := 3
        held := some { op := 0x0A, words := w, refs := [] } }) ∧
  (∀ (s : State) (n : Slot) (ecc : Ecc) (w : List Nat) (refs : List Ref) (q sem : Nat),
    (slotOf s n).held = some { op := 0x0A, words := w, refs := refs } → feRuns s = true → (slotOf s n).valid = true →
    (slotOf s n).mode = .held → (slotOf s n).hold = 3 → bits (nth w 1) 0 2 = 1 → q = (slotOf s n).queue →
    queueIdle s q = true → semOpTarget s n w = some sem → SemQuiet s sem →
    Completes (.jobStart n ecc) s [.regs, .log, .msix, .semCycles, .queues, .slots] fun t =>
      RegsBut [semOff sem, synBase + 0x880C] s t ∧ InstantJob s t q 0 ∧
      SlotIs s t n ((slotOf s n).begun w.length) ∧ semVal t sem = min (2 ^ 32 - 1) (semVal s sem + nth w 2)) ∧
  ∀ (s : State) (n : Slot) (w : List Nat) (u : State) (p q i : Nat), Decodes s n 0x20 w [] [] →
    u = began s n 0x20 [] w.length → q = (slotOf s n).queue → p = (que s q).part → i = bits (nth w 1) 0 3 → i ≠ 2 →
    Completes (.writeReg n) s [.regs, .queues, .slots, .reloc] fun t =>
      InstantJob s t q 0 ∧ SlotIs s t n ((slotOf s n).begun w.length) ∧ (4 ≤ i → RegsBut [feOff 0x14] s t) ∧
      ∀ k, (i = 0 ∧ k = 0x0C ∨ i = 1 ∧ k = 0x10 ∨ i = 3 ∧ k = 0x18) → RegsBut [feOff 0x14, passReg p k] s t ∧
        rd t (passReg p k) = writeFlds (rd u (passReg p k)) (nth w 2) (fieldsAt (passReg p k)) % 2 ^ 32

/-- R330, R413 to R418, for a command that decodes with its checks passed and whose order lets it begin: SET_CONTEXT makes the
context current, or none when it is not VALID or of another partition, and completes; LOAD_HANDLE_TABLE begins a job, posts its
request and holds the slot; TIMESTAMP writes its 16 bytes, with EARLY at once; COPY and COMPRESS begin a job that waits for a
channel or an engine. The first COPY that waits takes the lowest free channel; one that ends without an error has moved every
byte and its job ends. -/
def Obligations.ContextsTimestampsAndCopies : Prop :=
  (∀ (s : State) (n : Slot) (w : List Nat) (q c : Nat), Decodes s n 0x21 w [] [] → q = (slotOf s n).queue →
    allStarted s q = true → c = bits (nth w 1) 0 10 →
    Completes (.setContext n) s [.regs, .queues, .slots, .reloc] fun t => RegsBut [feOff 0x14] s t ∧ InstantJob s t q 0 ∧
      SlotIs s t n { (slotOf s n).begun w.length with
        ctx := if (ctxOf s c).valid = true ∧ (ctxOf s c).part = (que s q).part then some c else none }) ∧
  (∀ (s : State) (n : Slot) (w : List Nat) (q c : Nat), Decodes s n 0x22 w [] [] → q = (slotOf s n).queue →
    allStarted s q = true → (slotOf s n).ctx = some c →
    Completes (.loadHandleTable n) s [.regs, .queues, .slots, .reloc, .jobs, .jobKey] fun t => RegsBut [feOff 0x14] s t ∧
      JobStarted s t q .wait ∧ SlotIs s t n { (slotOf s n).begun w.length with
        mode := .held
        hold := 5
        req := some (nth w 1 / 16 * 16 + hi32 (bits (nth w 2) 0 16), min 16777216 (bits (nth w 3) 0 25), c) }) ∧
  (∀ (s : State) (n : Slot) (w : List Nat) (r r' : Ref) (u : State) (q p : Nat), Decodes s n 0x30 w (stampNeeds w) [r] →
    u = began s n 0x30 (stampNeeds w) w.length → q = (slotOf s n).queue → p = (que s q).part →
    r' = r.plus (nth w 2 / 16 * 16 + hi32 (bits (nth w 3) 0 8)) → r'.addr + 16 ≤ r'.bound → r'.addr + 16 ≤ 2 ^ 47 →
    writeFault u p r'.addr 16 = none →
    (bit (nth w 0) 0 = false → queueIdle s q = true →
      Completes (.timestamp n) s [.regs, .hbm, .queues, .slots, .reloc] fun t => RegsBut [feOff 0x14] s t ∧
        InstantJob s t q 0 ∧ SlotIs s t n ((slotOf s n).begun w.length) ∧ Stored s t r'.addr (stampBytes s)) ∧
    (bit (nth w 0) 0 = true →
      Completes (.timestampEarly n) s [.regs, .hbm, .queues, .slots, .reloc] fun t => RegsBut [feOff 0x14] s t ∧
        InstantJob s t q 0 ∧ SlotIs s t n ((slotOf s n).begun w.length) ∧ Stored s t r'.addr (stampBytes s))) ∧
  (∀ (s : State) (n : Slot) (w : List Nat) (refs : List Ref) (u : State) (q : Nat) (a b : Place),
    Decodes s n 0x13 w (copyNeeds w) refs → u = began s n 0x13 (copyNeeds w) w.length → q = (slotOf s n).queue →
    prevDone s q = true → placeOf u (que s q).part w 1 (refAt refs 0) = some a →
    placeOf u (que s q).part w 4 (if bit (nth w 3) 8 then refAt refs 0 else refAt refs 1) = some b →
    Completes (.copy n) s [.regs, .queues, .slots, .reloc, .jobs, .jobKey, .copies] fun t => RegsBut [feOff 0x14] s t ∧
      JobStarted s t q .copy ∧ SlotIs s t n ((slotOf s n).begun w.length) ∧
      ∃ len, len = nth w 7 + hi32 (bits (nth w 8) 0 8) ∧ t.copies = s.copies ++
        [{ key := s.jobKey + 1, src := a, dst := b, len := min (a.cut len) (b.cut len) }]) ∧
  (∀ (s : State) (n : Slot) (w : List Nat) (q : Nat), Decodes s n 0x14 w [] [] → q = (slotOf s n).queue →
    prevDone s q = true →
    Completes (.compress n) s [.regs, .queues, .slots, .reloc, .jobs, .jobKey, .compWaits] fun t =>
      RegsBut [feOff 0x14] s t ∧ que t q = (que s q).took ∧ (∀ k, k ≠ q → que t k = que s k) ∧
      t.jobs.length = s.jobs.length + 1 ∧ t.jobKey = s.jobKey + 1 ∧ SlotIs s t n ((slotOf s n).begun w.length) ∧
      ∃ l, t.compWaits = s.compWaits ++
        [{ key := s.jobKey + 1, ctx := (slotOf s n).ctx, words := w, sectors := l }]) ∧
  (∀ (s : State) (k : Nat) (c : CopyJob), freeChannel s = some k → s.copies.find? (·.chan.isNone) = some c →
    Completes .copyChannelStart s [.copies] fun t =>
      t.copies = s.copies.map fun x => if x.key = c.key then { x with chan := some k } else x) ∧
  ∀ (s : State) (k : Fin 4) (pos : Nat) (c : CopyJob) (j : Job), s.copies.find? (·.chan == some k.val) = some c →
    jobOf s c.key = some j → j.stop = none → placeReadFault s j.part c.src c.len = none →
    placeWriteFault s j.part c.dst c.len = none → (∀ r, c.dst = .obj r → r.addr + c.len ≤ 2 ^ 47) →
    Completes (.copyComplete k pos .ok) s [.hbm, .tile, .queues, .jobs, .copies] fun t => JobEnded s t j j.err ∧
      t.copies = s.copies.filter (·.key != c.key) ∧
      (∀ r, c.dst = .obj r → Stored s t r.addr (placeBytes s j.part c.src c.len) ∧ t.tile = s.tile) ∧
      ∀ e off, c.dst = .tile e off → t.hbm = s.hbm ∧
        t.tile = s.tile.writeBytes (e * 2 ^ 22 + off) (placeBytes s j.part c.src c.len)

/-- R330, R338 to R341, R346, R351 to R357, for reads without an error: a waiting job starts on its lowest free engine with the
run its descriptor builds (a fixed-ratio job at its first row, a TSF job at its header); a TSF block that is due is encoded,
or decoded when its check code and its CRC agree, and put behind the output; an encoder short of a full block that is not the
last stops with STATUS 2; a row of a fixed-ratio job is coded or decoded as `frRow` says, and an encoded row stands at its
place; a job that has stopped writes its continuation record, counts, and ends. -/
def Obligations.CompressionJobs : Prop :=
  (∀ (s : State) (c : CompWait) (k : Nat) (j : Job) (r : Ref) (s1 s2 u : State) (a : Ref) (d : List Nat) (refs : List Ref)
      (run : CompRun), cxNext s s.compWaits = some (c, k) → jobOf s c.key = some j →
    relocNow { s with compWaits := s.compWaits.filter (·.key != c.key) } c.ctx (nth c.words 1) { read := true } .ok
      = .ok (r, s1) →
    a = r.plus (nth c.words 2 / 128 * 128 + hi32 (bits (nth c.words 3) 0 8)) → refReadFault s1 j.part a 128 = none →
    d = cdWords (refWords s1 j.part a 32) → relocMany s1 c.ctx .ok (cdHandles d) = .ok (refs, s2) →
    u = updJob s2 c.key (fun j => { j with relocated := true }) → cxBuild u c j.part d refs = some run → cdResume d = false →
    Completes (.compressJobStart .ok) s
      [.regs, .log, .msix, .sent, .hbm, .tile, .host, .mcs, .queues, .slots, .reloc, .jobs, .compWaits, .cx] fun t =>
      t.compWaits = s.compWaits.filter (·.key != c.key) ∧ (cxOf t k).run = some (cxHeader u k run).2 ∧
      (cxOf t k).mid = true ∧ (cxOf t k).since = aclk s ∧
      (2 ≤ cdMode run.desc → (cxOf t k).run = some run ∧ t.hbm = s.hbm ∧ t.tile = s.tile)) ∧
  (∀ (s : State) (k : Sector) (c pos n : Nat) (r : CompRun) (last : Bool) (d b : List Byte),
    (cxOf s k).run = some r → (cxOf s k).mid = true → r.status = none → cdMode r.desc = 0 →
    (cxOf s k).since + cxBlockTime (atAclk s c) r ≤ aclk (atAclk s c) → n = min (r.inLen - r.inDone) tsfBlock →
    (tsfBlock ≤ r.inLen - r.inDone ∨ cdFinal r.desc = true) → placeReadFault s r.part (r.inp.plus r.inDone) n = none →
    d = placeBytes s r.part (r.inp.plus r.inDone) n → last = (cdFinal r.desc && n == r.inLen - r.inDone) →
    b = tsfEncode r.hist d (cdLevel r.desc) last → r.outDone + b.length ≤ r.outLen →
    PlaceOpen s r.part (r.out.plus r.outDone) b.length →
    Completes (.tsfBlockDone k c pos .ok) s [.now, .hbm, .tile, .cx] fun t =>
      Placed s t (r.out.plus r.outDone) b ∧ (cxOf t k).since = aclk t ∧ (cxOf t k).run = some { r with
        inDone := r.inDone + n
        outDone := r.outDone + b.length
        raw := r.raw + n
        coded := r.coded + b.length
        blocks := r.blocks + 1
        hist := tsfWindow r.hist d
        last := last
        status := if last then some 0 else none }) ∧
  (∀ (s : State) (k : Sector) (c pos : Nat) (r : CompRun), (cxOf s k).run = some r → (cxOf s k).mid = true →
    r.status = none → cdMode r.desc = 0 → (cxOf s k).since + cxBlockTime (atAclk s c) r ≤ aclk (atAclk s c) →
    r.inLen - r.inDone < tsfBlock → cdFinal r.desc = false →
    Completes (.tsfBlockDone k c pos .ok) s [.now, .cx] fun t =>
      (cxOf t k).run = some { r with status := some 2 } ∧ (cxOf t k).mid = false) ∧
  (∀ (s : State) (k : Sector) (c pos n : Nat) (r : CompRun) (h : List Nat) (p o : List Byte),
    (cxOf s k).run = some r → (cxOf s k).mid = true → r.status = none → cdMode r.desc = 1 →
    (cxOf s k).since + cxBlockTime (atAclk s c) r ≤ aclk (atAclk s c) → 16 ≤ r.inLen - r.inDone →
    placeReadFault s r.part (r.inp.plus r.inDone) 16 = none →
    h = bytesWords (placeBytes s r.part (r.inp.plus r.inDone) 16) → tsfBlockOk h = true → n = bits (nth h 2) 0 17 →
    16 + n ≤ r.inLen - r.inDone → bits (nth h 1) 0 17 ≤ r.outLen - r.outDone →
    placeReadFault s r.part (r.inp.plus (r.inDone + 16)) n = none →
    p = placeBytes s r.part (r.inp.plus (r.inDone + 16)) n →
    (if bit (nth h 0) 0 then tsfDecode r.hist p (bits (nth h 1) 0 17) else some p) = some o → crc32 o = nth h 3 →
    PlaceOpen s r.part (r.out.plus r.outDone) o.length →
    Completes (.tsfBlockDone k c pos .ok) s [.now, .hbm, .tile, .cx] fun t =>
      Placed s t (r.out.plus r.outDone) o ∧ (cxOf t k).since = aclk t ∧ (cxOf t k).run = some { r with
        inDone := r.inDone + 16 + n
        outDone := r.outDone + bits (nth h 1) 0 17
        raw := r.raw + bits (nth h 1) 0 17
        coded := r.coded + 16 + n
        blocks := r.blocks + 1
        hist := tsfWindow r.hist o
        last := bit (nth h 0) 1
        status := if bit (nth h 0) 1 then some 0 else none }) ∧
  (∀ (s : State) (k : Sector) (c pos : Nat) (r : CompRun), (cxOf s k).run = some r → (cxOf s k).mid = true →
    r.status = none → 2 ≤ cdMode r.desc →
    (cxOf s k).since + ceilDiv (min 4 (cdHeight r.desc - 4 * r.nextRow) * 4 * cdWidth r.desc) 64 ≤ aclk (atAclk s c) →
    Completes (.fixedRatioRowDone k c pos .ok) s [.now, .regs, .log, .msix, .sent, .hbm, .tile, .host, .cx] fun t =>
      (cxOf t k).run = some (frRow (atAclk s c) k r).2 ∧ (cxOf t k).since = aclk t ∧
      t.hbm = (frRow (atAclk s c) k r).1.hbm ∧ t.tile = (frRow (atAclk s c) k r).1.tile) ∧
  (∀ (s : State) (k : Nat) (r : CompRun) (d : List Byte) (m : Nat), cdMode r.desc = 2 → r.nextRow < cdRows r.desc →
    r.status = none → (r.nextRow + 1) * cdRow r.desc ≤ r.outLen → m = min 4 (cdHeight r.desc - 4 * r.nextRow) →
    placeReadFault s r.part (r.inp.plus (cdPitch r.desc * (4 * r.nextRow)))
      ((r.inp.plus (cdPitch r.desc * (4 * r.nextRow))).cut (cdPitch r.desc * (m - 1) + 4 * cdWidth r.desc)) = none →
    d = frEncodeRow s r r.nextRow → PlaceOpen s r.part (r.out.plus (r.nextRow * cdRow r.desc)) d.length →
    Placed s (frRow s k r).1 (r.out.plus (r.nextRow * cdRow r.desc)) d ∧ (frRow s k r).2 = { r with
      nextRow := r.nextRow + 1
      inDone := r.inDone + m * (4 * cdWidth r.desc)
      outDone := r.outDone + cdRow r.desc
      status := if cdRows r.desc ≤ r.nextRow + 1 then some 0 else none }) ∧
  ∀ (s : State) (k : Sector) (r : CompRun) (j : Job) (st : Nat), (cxOf s k).run = some r → jobOf s r.key = some j →
    j.stop = none → r.status = some st → st ≠ 3 → r.err = 0 →
    PlaceOpen (bump s (cxBase + 0x40 * k + 0x0C)) r.part r.cont ((wordBytes (contRecord r st)).take (r.cont.cut 64)).length →
    Completes (.compressJobEnd k) s [.regs, .hbm, .tile, .queues, .jobs, .cx] fun t => JobEnded s t j j.err ∧
      Placed s t r.cont ((wordBytes (contRecord r st)).take (r.cont.cut 64)) ∧ (cxOf t k).run = none ∧
      (∀ i, i ≠ k.val → cxOf t i = cxOf s i) ∧ RegsBut [cxBase + 0x40 * k + 0x0C] s t ∧
      rd t (cxBase + 0x40 * k + 0x0C) = (rd s (cxBase + 0x40 * k + 0x0C) + 1) % 2 ^ 32

/-- R247 to R255, R117, R268, R421: a DISPATCH that may begin starts a job with the clamped grid, an empty one completes at once;
the next workgroup of the dispatch that is served goes, in its order, on the engines that its place names, each wave with its
mask and registers; a wave starts 32 cycles after its placement with its scalar registers and local indices, the first of its
job on an engine reseeding the generators; a wave that ends leaves its engine; a dispatch that has ended completes with the
error it met, else 0x70 with workgroups lost, else 0x71 with live data lost; SET_PRIORITY sets the override of a queue it may
name, else completes with 0x28. -/
def Obligations.DispatchAndWaves : Prop :=
  (∀ (s : State) (n : Slot) (w : List Nat) (r : Ref) (u : State) (q : Nat) (d : Disp),
    Decodes s n 0x10 w [(nth w 5, { read := true })] [r] → q = (slotOf s n).queue →
    (prevDone s q = true ∨ bit (nth w 1) 1 = true ∧ prevPlaced s q = true) →
    u = began s n 0x10 [(nth w 5, { read := true })] w.length → modelPart s (que s q).part = false →
    anyLive u (que s q).part = true → d = dispOf s q 0 w r →
    (d.total ≠ 0 →
      Completes (.dispatch n) s [.regs, .queues, .slots, .reloc, .jobs, .jobKey, .disps] fun t => RegsBut [feOff 0x14] s t ∧
        JobStarted s t q .dispatch ∧ SlotIs s t n ((slotOf s n).begun w.length) ∧
        t.disps = s.disps ++ [{ d with key := s.jobKey + 1 }]) ∧
    (d.total = 0 →
      Completes (.dispatch n) s [.regs, .queues, .slots, .reloc] fun t => RegsBut [feOff 0x14] s t ∧
        InstantJob s t q 0 ∧ SlotIs s t n ((slotOf s n).begun w.length))) ∧
  (∀ (s : State) (p : Part) (c : Nat) (d : Disp) (l : List Nat), nextDisp (atAclk s c) p = some d →
    placeAt (atAclk s c) d (quadFresh (atAclk s c)) = some l →
    Completes (.workgroupPlace p c) s [.now, .engines, .jobs, .disps, .pres, .xfers, .placedIn, .lastServed] fun t =>
      t.engines = (addWaves (atAclk s c) d d.next 0 l).engines ∧
      (t.disps = s.disps.map fun x => if x.key = d.key then
        { x with next := x.next + 1, used := (x.used ++ l).eraseDups } else x) ∧
      tabFind (l.headD 0 / 4) t.placedIn = some (aclk t) ∧
      ∀ e b, l = [e] → b = (freeBlocks s e).take d.vblk → (∀ k, k ≠ e → eng t k = eng s k) ∧
        (eng t e).waves = (eng s e).waves ++ [{
          work := .compute
          job := d.key
          group := d.next
          index := 0
          pc := d.entry
          vbase := 16 * b.headD 0
          blocks := b
          placedAt := aclk t
          mask := 2 ^ min 512 d.wgSize - 1 }]) ∧
  (∀ (s : State) (e : Eng) (w : Fin 8) (c : Nat) (x : Wave) (d : Disp), waveAt s e w = some x →
    s.disps.find? (·.key == x.job) = some d → x.work = .compute → x.started = false →
    x.placedAt + 32 ≤ aclk (atAclk s c) →
    Completes (.waveStart e w c) s [.now, .fresh, .engines] fun t => (∀ k, k ≠ e.val → eng t k = eng s k) ∧
      ((eng t e).waves = (eng s e).waves.map fun y => if y.vbase = 16 * w.val then
        { x with started := true, epoch := s.fresh, g := waveRegs s d x e s.fresh } else y) ∧
      ((eng t e).vreg = (eng s e).vreg.filter (fun v => !x.blocks.contains (v.1 / 512 / 16)) ++ waveV0 x) ∧
      ((eng s e).seeded.contains d.key = true → (eng t e).seeded = (eng s e).seeded ∧ (eng t e).gens = (eng s e).gens) ∧
      ((eng s e).seeded.contains d.key = false → (eng t e).seeded = d.key :: (eng s e).seeded ∧
        (eng t e).gens = (eng (reseed s e 0) e).gens ∧ (eng t e).lines = (eng (flcAcquire s e) e).lines)) ∧
  (∀ (s : State) (e : Eng) (w : Fin 8) (c : Nat) (x : Wave), waveAt s e w = some x → x.work = .compute →
    x.started = true → x.spin = none → waveOf (dropWave (atAclk s c) e w) x.job e = true →
    Completes (.waveEnd e w c) s [.now, .engines, .jobs, .pres, .xfers] fun t => (∀ k, k ≠ e.val → eng t k = eng s k) ∧
      (eng t e).waves = (eng s e).waves.filter (fun y => y.vbase != 16 * w.val) ∧ waveAt t e w = none) ∧
  (∀ (s : State) (e : Eng) (w : Fin 8) (c : Nat) (x : Wave), waveAt s e w = some x → x.work = .compute →
    x.started = true → x.spin = none → waveOf (dropWave (atAclk s c) e w) x.job e = false →
    Completes (.waveEnd e w c) s [.now, .engines, .arbs, .jobs, .pres, .xfers] fun t =>
      t.engines = (flcClean (dropWave (atAclk s c) e w) e).engines) ∧
  (∀ (s : State) (q : Qid) (d : Disp) (j : Job), s.disps.find? (fun d => d.queue == q.val && dispEnded s d) = some d →
    jobOf s d.key = some j → j.stop = none →
    Completes (.dispatchComplete q) s [.regs, .log, .msix, .queues, .jobs, .disps, .pres, .xfers] fun t =>
      t.disps = s.disps.filter (·.key != d.key) ∧ (∀ k, k ≠ j.queue → que t k = que s k) ∧
      que t j.queue = (que s j.queue).finish j.seq
        (if j.err ≠ 0 then j.err else if d.lost ≠ 0 then 0x70 else if d.lostData = true then 0x71 else 0) ∧
      t.log.seq = if j.err = 0 ∧ (d.lost ≠ 0 ∨ d.lostData = true) then (s.log.seq + 1) % 2 ^ 32 else s.log.seq) ∧
  ∀ (s : State) (n : Slot) (w : List Nat) (q k : Nat), Decodes s n 0x24 w [] [] → q = (slotOf s n).queue →
    k = bits (nth w 1) 0 12 →
    (mayTarget s (que s q).part k = true →
      Completes (.setPriority n) s [.regs, .queues, .slots, .reloc] fun t => RegsBut [feOff 0x14] s t ∧
        SlotIs s t n ((slotOf s n).begun w.length) ∧ (que t k).prioSet = some (bits (nth w 1) 16 3) ∧
        (∀ i, i ≠ k → i ≠ q → que t i = que s i) ∧
        (k ≠ q → que t k = { que s k with prioSet := some (bits (nth w 1) 16 3) } ∧
          que t q = (que s q).took.finish (que s q).took.seq 0)) ∧
    (mayTarget s (que s q).part k = false →
      Completes (.setPriority n) s [.regs, .log, .msix, .queues, .slots, .reloc] fun t => RegsBut [feOff 0x14] s t ∧
        SlotIs s t n ((slotOf s n).begun w.length) ∧ InstantJob s t q 0x28 ∧ t.log.seq = (s.log.seq + 1) % 2 ^ 32)

/-- R259 to R265, R331: engine k starts the first transfer that waits in its sector when it is of the kind asked and the engine is
free; a spill whose time has passed writes the progress record and the stream of the live range to its slot, counts the transfer
and its bytes, and frees the engine's live range; a restore whose time has passed writes the live range back to tile memory.
The contents of the progress record and the stream id are free bytes (R259 publishes neither). -/
def Obligations.SpillsAndRestores : Prop :=
  (∀ (s : State) (k : Sector) (c : Nat) (x : Xfer),
    (restoreScan (atAclk s c)).xfers.find? (fun t => t.eng / 16 == k.val) = some x → (cxOf s k).xfer = none →
    (cxOf s k).mid = false → (cxOf s k).resetFrom = none →
    (x.restore = false → Completes (.spillStart k c) s [.now, .jobs, .cx, .pres, .xfers] fun t =>
      cxOf t k = { cxOf s k with xfer := some x, xferAt := aclk t } ∧ (∀ i, i ≠ k.val → cxOf t i = cxOf s i) ∧
      t.xfers = (restoreScan (atAclk s c)).xfers.filter (· != x)) ∧
    (x.restore = true → Completes (.restoreStart k c) s [.now, .jobs, .cx, .pres, .xfers] fun t =>
      cxOf t k = { cxOf s k with xfer := some x, xferAt := aclk t } ∧ (∀ i, i ≠ k.val → cxOf t i = cxOf s i) ∧
      t.xfers = (restoreScan (atAclk s c)).xfers.filter (· != x))) ∧
  (∀ (s : State) (k : Sector) (c pos : Nat) (x : Xfer) (d : List Byte), (cxOf s k).xfer = some x → x.restore = false →
    xferStopped s x = false → (cxOf s k).xferAt + xferTime x ≤ aclk (atAclk s c) → d = spillData s x →
    writeFault s x.part (spillAddr s x) d.length = none → spillAddr s x + d.length ≤ 2 ^ 47 →
    Completes (.spillEnd k c pos .ok) s [.now, .fresh, .regs, .hbm, .jobs, .cx, .disps, .pres, .xfers] fun t =>
      Stored s t (spillAddr s x) d ∧ (cxOf t k).xfer = none ∧ (cxOf t k).inBytes = (cxOf s k).inBytes + x.size ∧
      (cxOf t k).outBytes = (cxOf s k).outBytes + d.length ∧ (∀ i, i ≠ k.val → cxOf t i = cxOf s i) ∧
      rd t (cxBase + 0x40 * k + 0x14) = (rd s (cxBase + 0x40 * k + 0x14) + 1) % 2 ^ 32 ∧
      RegsBut [cxBase + 0x40 * k + 0x14] s t ∧
      t.disps = s.disps.map fun y => if y.key = x.key then { y with used := y.used.filter (· != x.eng) } else y) ∧
  ∀ (s : State) (k : Sector) (c pos : Nat) (x : Xfer), (cxOf s k).xfer = some x → x.restore = true →
    xferStopped s x = false → (cxOf s k).xferAt + xferTime x ≤ aclk (atAclk s c) →
    readFault s x.part (spillAddr s x) (spillBytes x.size) = none →
    Completes (.restoreEnd k c pos .ok) s [.now, .fresh, .regs, .tile, .jobs, .cx, .disps, .pres, .xfers] fun t =>
      (t.tile = s.tile.writeBytes (x.eng * 2 ^ 22 + x.base) (if x.size = 0 then [] else
        restoreData s x (devBytes s x.part (spillAddr s x) (spillBytes x.size)))) ∧
      (cxOf t k).xfer = none ∧ (∀ i, i ≠ k.val → cxOf t i = cxOf s i) ∧
      rd t (cxBase + 0x40 * k + 0x14) = (rd s (cxBase + 0x40 * k + 0x14) + 1) % 2 ^ 32 ∧
      RegsBut [cxBase + 0x40 * k + 0x14] s t ∧
      t.disps = s.disps.map fun y => if y.key = x.key then { y with used := (x.eng :: y.used).eraseDups } else y

/-- R256, R301, R471, R472, R479, R505, R539, R569, R571: each message that only reports replies STATUS 0x00 with what it
reports, and writes no register but those of its mailbox; one that names no queue, partition or slot replies 0x06. FENCE_STATUS
clears the flags that it names after it has read them; ERRLOG_CONFIG sets SEVERITY; ERRLOG_READ takes the records that it
returns out of the log and starts LOST again. The two version words of VERSION, mailbox format 1 and contract version 1 as bit
sets, are the model's reading (notes/assumptions/67.md). -/
def Obligations.ReportingMessages : Prop :=
  (∀ (s : State) (m : Mb) (w : List Nat), Served s m 0x001 w →
    Answers (.version m) s [] [] m w 0x00 [2, 2, rd s (idBase + 0x14), fld s (idBase + 0x18) 0 16] fun _ => True) ∧
  (∀ (s : State) (m : Mb) (w : List Nat), Served s m 0x0B0 w →
    Answers (.idQuery m) s [] [] m w 0x00 ((List.range 13).map fun i => rd s (idBase + 4 * i)) fun _ => True) ∧
  (∀ (s : State) (m : Mb) (w : List Nat), Served s m 0x062 w →
    Answers (.telemetry m) s [] [] m w 0x00
      [s.power.milliwatts, fld s (pwrBase + 0x08) 16 16, ofSigned 32 (toSigned 16 (fld s (pwrBase + 0x0C) 0 16)),
       ofSigned 32 (toSigned 16 (fld s (pwrBase + 0x0C) 16 16)), pwrCur s + b2n s.pll * 8, aclkKhz s] fun _ => True) ∧
  (∀ (s : State) (m : Mb) (w : List Nat) (x : Queue), Served s m 0x032 w → x = que s (bits (nth w 1) 0 12) →
    (x.life ≠ .free → Answers (.queueCounters m) s [] [] m w 0x00
      (two (x.submitted % 2 ^ 64) ++ two (x.completed % 2 ^ 64) ++ two (x.faulted % 2 ^ 64)) fun _ => True) ∧
    (x.life = .free → Answers (.queueCounters m) s [] [] m w 0x06 [] fun _ => True)) ∧
  (∀ (s : State) (m : Mb) (w : List Nat) (p : Nat), Served s m 0x091 w → p = bits (nth w 1) 0 2 →
    Answers (.foxgloveStatus m) s [] [] m w 0x00
      ([rd s (cmpOff p 0x300), rd s (cmpOff p 0x304), rd s (cmpOff p 0x308)] ++ two (s.foxCount % 2 ^ 64)
        ++ [b2n s.foxKey.isSome] ++ two (s.foxChecked % 2 ^ 64)) fun _ => True) ∧
  (∀ (s : State) (m : Mb) (w : List Nat) (x : Model), Served s m 0x052 w →
    bits (nth w 1) 0 4 ≤ 8 → partExists s (bits (nth w 1) 0 4) = true → s.model = some x → x.part = bits (nth w 1) 0 4 →
    Answers (.modelQuery m) s [] [] m w 0x00
      [1 + b2n x.crocOnly * 2 + b2n (!x.unrunnable) * 4 + b2n x.run.isSome * 8 + x.variant * 16,
       (x.batch.map fun b => 2 ^ b.slot).foldl (· + ·) 0 + min 65535 x.streak * 2 ^ 16, x.capacity] fun _ => True) ∧
  (∀ (s : State) (m : Mb) (w : List Nat), Served s m 0x052 w → bits (nth w 1) 0 4 ≤ 8 →
    partExists s (bits (nth w 1) 0 4) = true → (∀ x, s.model = some x → x.part ≠ bits (nth w 1) 0 4) →
    Answers (.modelQuery m) s [] [] m w 0x00 [] fun _ => True) ∧
  (∀ (s : State) (m : Mb) (w : List Nat) (k : Nat), Served s m 0x041 w → k = bits (nth w 1) 0 6 →
    (48 ≤ k → Answers (.fenceStatus m) s [.fslots] [] m w 0x06 [] fun t => t.fslots = s.fslots) ∧
    (k < 48 → Answers (.fenceStatus m) s [.fslots] [synBase + 0x800C + 0x20 * k] m w 0x00
      [fslotWord s k 0, fslotWord s k 4, fslotWord s k 8,
       if (fslot s k).valid then (fslot s k).value / 2 ^ 32 else 0, fslotStatus s k] fun t =>
      fslot t k = { fslot s k with
        regress := (fslot s k).regress && !bit (nth w 1) 8
        abandoned := (fslot s k).abandoned && !bit (nth w 1) 9 } ∧
      ∀ j, j ≠ k → fslot t j = fslot s j)) ∧
  (∀ (s : State) (m : Mb) (w : List Nat), Served s m 0x0A1 w →
    Answers (.errlogConfig m) s [.log] [] m w 0x00 [] fun t =>
      t.log = { s.log with severity := bits (nth w 1) 0 2 }) ∧
  ∀ (s : State) (m : Mb) (w : List Nat) (n : Nat), Served s m 0x0A0 w → xbOk s m w = true → s.log.lost = 0 →
    n = min (min (bits (nth w 1) 0 16) (nth w 15 / 64)) s.log.recs.length →
    Answers (.errlogRead m) s [.log, .sent, .hbm, .host, .staging] [] m w 0x00
      [n, s.log.lostSinceRead, s.log.recs.length - n] fun t =>
      t.log = { s.log with recs := s.log.recs.drop n, lostSinceRead := 0 } ∧
      (m.val = 0 → t.hbm = s.hbm ∧ t.host = s.host ∧
        t.staging = s.staging.writeBytes (nth w 13) ((s.log.recs.take n).flatMap fun r => wordBytes r.words))

/-- R367, R369 to R373, R471, R474: CONTEXT_CREATE and QUEUE_CREATE take the lowest free number and fill its entry with the
request's fields; CONTEXT_UPDATE changes the handle table of a valid context, CONTEXT_DESTROY frees one that no queue names, and
both flush the relocation cache for it; QUEUE_DESTROY frees a DEAD queue and replies its last number, waits for the teardown of a
DRAINING one and starts the teardown of a CREATED one. Where no number is free the reply is 0x08, where an object does not
exist it is 0x06, where it is in use 0x07. That CONTEXT_CREATE takes the
lowest free number is the model's choice (notes/assumptions/66.md). -/
def Obligations.ContextAndQueueMessages : Prop :=
  (∀ (s : State) (m : Mb) (w : List Nat) (c : Nat), Served s m 0x020 w → bits (nth w 1) 0 4 ≤ 8 →
    partExists s (bits (nth w 1) 0 4) = true → c < 1024 → (ctxOf s c).valid = false →
    (∀ k, k < c → (ctxOf s k).valid = true) →
    Answers (.contextCreate m) s [.ctxs] [] m w 0x00 [c] fun t =>
      ctxOf t c = { valid := true, part := bits (nth w 1) 0 4,
                    table := nth w 2 / 16 * 16 + bits (nth w 3) 0 16 * 2 ^ 32,
                    count := min 16777216 (bits (nth w 4) 0 25) } ∧ ∀ k, k ≠ c → ctxOf t k = ctxOf s k) ∧
  (∀ (s : State) (m : Mb) (w : List Nat), Served s m 0x020 w →
    (partExists s (bits (nth w 1) 0 4) = false → Answers (.contextCreate m) s [] [] m w 0x06 [] fun _ => True) ∧
    (bits (nth w 1) 0 4 ≤ 8 → partExists s (bits (nth w 1) 0 4) = true → (∀ k, k < 1024 → (ctxOf s k).valid = true) →
      Answers (.contextCreate m) s [] [] m w 0x08 [] fun _ => True)) ∧
  (∀ (s : State) (m : Mb) (w : List Nat) (c : Nat), Served s m 0x021 w → c = bits (nth w 1) 0 10 →
    ((ctxOf s c).valid = false → Answers (.contextUpdate m) s [] [] m w 0x06 [] fun _ => True) ∧
    ((ctxOf s c).valid = true → Answers (.contextUpdate m) s [.ctxs, .reloc] [] m w 0x00 [] fun t =>
      ctxOf t c = { ctxOf s c with
        table := nth w 2 / 16 * 16 + bits (nth w 3) 0 16 * 2 ^ 32
        count := min 16777216 (bits (nth w 4) 0 25) } ∧
      (∀ k, k ≠ c → ctxOf t k = ctxOf s k) ∧ t.reloc = s.reloc.filter (·.1 != c))) ∧
  (∀ (s : State) (m : Mb) (w : List Nat) (c : Nat), Served s m 0x022 w → c = bits (nth w 1) 0 10 →
    (ctxOf s c).valid = true →
    ((∀ x ∈ s.queues, x.2.life = .free ∨ x.2.ctx ≠ c) → (∀ x ∈ s.slots, x.2.valid = false ∨ x.2.ctx ≠ some c) →
      Answers (.contextDestroy m) s [.ctxs, .reloc] [] m w 0x00 [] fun t =>
        ctxOf t c = {} ∧ (∀ k, k ≠ c → ctxOf t k = ctxOf s k) ∧ t.reloc = s.reloc.filter (·.1 != c)) ∧
    ((∃ x ∈ s.queues, x.2.life ≠ .free ∧ x.2.ctx = c) → Answers (.contextDestroy m) s [] [] m w 0x07 [] fun _ => True)) ∧
  (∀ (s : State) (m : Mb) (w : List Nat) (q : Nat), Served s m 0x030 w → q < 4096 → (que s q).life = .free →
    (∀ k, k < q → (que s k).life ≠ .free) → bits (nth w 1) 8 4 ≤ 8 → partExists s (bits (nth w 1) 8 4) = true →
    (ctxOf s (bits (nth w 1) 16 10)).valid = true → (ctxOf s (bits (nth w 1) 16 10)).part = bits (nth w 1) 8 4 →
    Answers (.queueCreate m) s [.queues] [] m w 0x00 [q] fun t =>
      que t q = { life := .created, kernel := bit (nth w 1) 0, prio := bits (nth w 1) 1 3, preempt := bit (nth w 1) 4,
                  part := bits (nth w 1) 8 4, ctx := bits (nth w 1) 16 10,
                  ring := nth w 2 / 64 * 64 + bits (nth w 3) 0 16 * 2 ^ 32, entries := ringEntries (bits (nth w 4) 0 17),
                  prom := nth w 5 / 16 * 16 + bits (nth w 6) 0 16 * 2 ^ 32, promCount := min 256 (bits (nth w 6) 16 9),
                  liveMax := min 4194304 (bits (nth w 7) 0 23 / 16 * 16),
                  spill := nth w 8 / 256 * 256 + bits (nth w 9) 0 16 * 2 ^ 32, owner := nth w 10 } ∧
      ∀ k, k ≠ q → que t k = que s k) ∧
  (∀ (s : State) (m : Mb) (w : List Nat) (c q : Nat), Served (atAclk s c) m 0x031 w → q = bits (nth w 1) 0 12 →
    ((que s q).life = .free → Answers (.queueDestroy m c) s [.now] [] m w 0x06 [] fun _ => True) ∧
    ((que s q).life = .dead →
      Answers (.queueDestroy m c) s [.now, .queues] [] m w 0x00 (two ((que s q).compSeq % 2 ^ 48)) fun t =>
        que t q = {} ∧ ∀ k, k ≠ q → que t k = que s k)) ∧
  (∀ (s : State) (m : Mb) (w : List Nat) (c q : Nat), Served (atAclk s c) m 0x031 w → q = bits (nth w 1) 0 12 →
    ((que s q).life = .draining →
      Completes (.queueDestroy m c) s [.now, .queues, .mboxes, .mbOrder] fun t =>
        que t q = { que s q with tdMbox := some m.val } ∧ (∀ k, k ≠ q → que t k = que s k) ∧
        tabFind m.val t.mboxes = some { words := w, acting := true }) ∧
    ((que s q).life = .created → (que s q).slot = none → jobsOf s q = [] →
      Completes (.queueDestroy m c) s [.now, .queues, .mboxes, .mbOrder] fun t =>
        (que t q).life = .draining ∧ (que t q).tdOrder = 2 ∧ (que t q).tdAt = t.now ∧ (que t q).tdFences = [] ∧
        (que t q).tdMbox = some m.val ∧ (que t q).tdEngines = [] ∧ (∀ k, k ≠ q → que t k = que s k) ∧
        tabFind m.val t.mboxes = some { words := w, acting := true }))
end

