-- ==== Sys2Proof/Laws/Log.lean ====
section
/-!
SUPPORT. The error log: what storing a record does (R565, R566, R570).
-/
namespace Sys2Proof.Machine

set_option Elab.async false

theorem dropMinor_length {l rest : List LogRec} {x : LogRec} (h : dropMinor l = some (x, rest)) :
    l.length = rest.length + 1 := by
  induction l generalizing rest x with
  | nil => cases h
  | cons r rs ih =>
    rw [dropMinor] at h
    split at h
    · cases h; rfl
    · cases hd : dropMinor rs with
      | none => rw [hd] at h; cases h
      | some y =>
        obtain ⟨y, m⟩ := y
        rw [hd] at h
        cases h
        simp [ih hd]

@[simp] theorem ErrLog.lose_recs (l : ErrLog) (n : Nat) : (l.lose n).recs = l.recs := rfl
@[simp] theorem ErrLog.lose_seq (l : ErrLog) (n : Nat) : (l.lose n).seq = l.seq := rfl
@[simp] theorem ErrLog.lose_severity (l : ErrLog) (n : Nat) : (l.lose n).severity = l.severity := rfl

/-- Every record, stored or dropped, takes the next sequence number (R566). -/
@[simp] theorem ErrLog.store_seq (l : ErrLog) (r : LogRec) : (l.store r).seq = (l.seq + 1) % 2 ^ 32 := by
  unfold ErrLog.store
  dsimp only
  split
  · rfl
  · split
    · split <;> rfl
    · rfl

@[simp] theorem ErrLog.store_severity (l : ErrLog) (r : LogRec) : (l.store r).severity = l.severity := by
  unfold ErrLog.store
  dsimp only
  split
  · rfl
  · split
    · split <;> rfl
    · rfl

/-- With room, a record goes to the end. -/
theorem ErrLog.store_room (l : ErrLog) (r : LogRec) (h : l.recs.length < 2048) : (l.store r).recs = l.recs ++ [r] := by
  unfold ErrLog.store
  rw [if_pos h]

/-- The ring never holds more than 2,048 records (R565). -/
theorem ErrLog.store_length (l : ErrLog) (r : LogRec) (h : l.recs.length ≤ 2048) : (l.store r).recs.length ≤ 2048 := by
  unfold ErrLog.store
  dsimp only
  split
  · simp only [List.length_append, List.length_singleton]; omega
  · split
    · split
      · rename_i x rest hd
        have := dropMinor_length hd
        simp only [ErrLog.lose_recs, List.length_append, List.length_singleton]
        omega
      · exact h
    · exact h

theorem ErrLog.store_seq_lt (l : ErrLog) (r : LogRec) : (l.store r).seq < 2 ^ 32 := by
  rw [ErrLog.store_seq]; exact Nat.mod_lt _ (by decide)

end Sys2Proof.Machine
end

