-- ==== Sys2Proof/Laws/Tab.lean ====
section
/-!
SUPPORT. Sparse tables: what is read after a write, and the canonical form.
-/
namespace Sys2Proof.Machine

set_option Elab.async false

variable {α : Type}

theorem nat_beq_false {j k : Nat} (h : j ≠ k) : Nat.beq j k = false := by
  cases hb : Nat.beq j k
  · rfl
  · exact absurd (Nat.eq_of_beq_eq_true hb) h

@[simp] theorem tabFind_nil (k : Nat) : tabFind k ([] : List (Nat × α)) = none := rfl

theorem tabFind_cons (k j : Nat) (v : α) (r : List (Nat × α)) :
    tabFind k ((j, v) :: r) = if j = k then some v else tabFind k r := by
  by_cases h : j = k
  · simp [tabFind, h]
  · simp [tabFind, h, nat_beq_false h]

theorem tabDrop_cons (k j : Nat) (v : α) (r : List (Nat × α)) :
    tabDrop k ((j, v) :: r) = if j = k then tabDrop k r else (j, v) :: tabDrop k r := by
  by_cases h : j = k
  · simp [tabDrop, h]
  · simp [tabDrop, h, nat_beq_false h]

theorem tabInsert_cons (k j : Nat) (v w : α) (r : List (Nat × α)) :
    tabInsert k v ((j, w) :: r) = if k < j then (k, v) :: (j, w) :: r else (j, w) :: tabInsert k v r := by
  by_cases h : k < j
  · simp [tabInsert, h, Nat.blt_eq.mpr h]
  · have h' : Nat.blt k j = false := by
      cases hb : Nat.blt k j
      · rfl
      · exact absurd (Nat.blt_eq.mp hb) h
    simp [tabInsert, h, h']

@[simp] theorem tabFind_drop_same (k : Nat) (l : List (Nat × α)) : tabFind k (tabDrop k l) = none := by
  induction l with
  | nil => rfl
  | cons x r ih =>
    obtain ⟨j, v⟩ := x
    rw [tabDrop_cons]
    split
    · exact ih
    · rename_i h; rw [tabFind_cons, if_neg h]; exact ih

theorem tabFind_drop_other {k j : Nat} (h : j ≠ k) (l : List (Nat × α)) : tabFind j (tabDrop k l) = tabFind j l := by
  induction l with
  | nil => rfl
  | cons x r ih =>
    obtain ⟨i, v⟩ := x
    rw [tabDrop_cons, tabFind_cons]
    split
    · rename_i hk
      rw [if_neg (by omega)]; exact ih
    · rw [tabFind_cons, ih]

theorem tabFind_insert_same (k : Nat) (v : α) (l : List (Nat × α)) (h : tabFind k l = none) :
    tabFind k (tabInsert k v l) = some v := by
  induction l with
  | nil => simp [tabInsert, tabFind]
  | cons x r ih =>
    obtain ⟨j, w⟩ := x
    rw [tabFind_cons] at h
    split at h
    · cases h
    · rename_i hj
      rw [tabInsert_cons]
      split
      · rw [tabFind_cons, if_pos rfl]
      · rw [tabFind_cons, if_neg hj]; exact ih h

theorem tabFind_insert_other {k j : Nat} (hj : j ≠ k) (v : α) (l : List (Nat × α)) :
    tabFind j (tabInsert k v l) = tabFind j l := by
  induction l with
  | nil => simp [tabInsert, tabFind_cons, Ne.symm hj]
  | cons x r ih =>
    obtain ⟨i, w⟩ := x
    rw [tabInsert_cons]
    split
    · rw [tabFind_cons, if_neg (Ne.symm hj)]
    · rw [tabFind_cons, tabFind_cons, ih]

/-- Read after write, same key. -/
@[simp] theorem tabGet_put_same [DecidableEq α] (d : Nat → α) (k : Nat) (v : α) (l : List (Nat × α)) :
    tabGet d k (tabPut d k v l) = v := by
  unfold tabGet tabPut
  split
  · rename_i h; simp [h]
  · rw [tabFind_insert_same k v _ (tabFind_drop_same k l)]; rfl

/-- A write leaves every other key alone. -/
theorem tabGet_put_other [DecidableEq α] (d : Nat → α) {k j : Nat} (h : j ≠ k) (v : α) (l : List (Nat × α)) :
    tabGet d j (tabPut d k v l) = tabGet d j l := by
  unfold tabGet tabPut
  split
  · rw [tabFind_drop_other h]
  · rw [tabFind_insert_other h, tabFind_drop_other h]

/-- Both at once. -/
theorem tabGet_put [DecidableEq α] (d : Nat → α) (k j : Nat) (v : α) (l : List (Nat × α)) :
    tabGet d j (tabPut d k v l) = if j = k then v else tabGet d j l := by
  split
  · rename_i h; subst h; simp
  · rename_i h; exact tabGet_put_other d h v l

/-- What `tabWf` says, element by element: keys strictly rising, and no listed default. -/
theorem tabWf_iff [DecidableEq α] (d : Nat → α) (l : List (Nat × α)) :
    tabWf d l = true ↔ l.Pairwise (fun x y => x.1 < y.1) ∧ ∀ x ∈ l, x.2 ≠ d x.1 := by
  induction l with
  | nil => simp [tabWf]
  | cons x r ih =>
    obtain ⟨k, v⟩ := x
    cases r with
    | nil => simp [tabWf]
    | cons y r =>
      obtain ⟨j, w⟩ := y
      rw [tabWf, Bool.and_eq_true, Bool.and_eq_true, ih]
      simp only [List.pairwise_cons, List.mem_cons, forall_eq_or_imp, Bool.not_eq_true', decide_eq_false_iff_not,
        Nat.blt_eq]
      constructor
      · rintro ⟨⟨h1, h2⟩, ⟨h3, h4⟩, h5⟩
        exact ⟨⟨⟨h1, fun z hz => Nat.lt_trans h1 (h3 z hz)⟩, h3, h4⟩, h2, h5⟩
      · rintro ⟨⟨⟨h1, _⟩, h3, h4⟩, h2, h5⟩
        exact ⟨⟨h1, h2⟩, ⟨h3, h4⟩, h5⟩

/-- A part of a canonical table is canonical. -/
theorem tabWf_sublist [DecidableEq α] (d : Nat → α) {l m : List (Nat × α)} (h : m.Sublist l) (hl : tabWf d l = true) :
    tabWf d m = true := by
  rw [tabWf_iff] at *
  exact ⟨hl.1.sublist h, fun x hx => hl.2 x (h.subset hx)⟩

theorem tabWf_filter [DecidableEq α] (d : Nat → α) (p : Nat × α → Bool) {l : List (Nat × α)} (hl : tabWf d l = true) :
    tabWf d (l.filter p) = true := tabWf_sublist d List.filter_sublist hl

theorem tabDrop_eq_filter (k : Nat) (l : List (Nat × α)) : tabDrop k l = l.filter fun x => !Nat.beq x.1 k := by
  induction l with
  | nil => rfl
  | cons x r ih =>
    obtain ⟨j, v⟩ := x
    rw [tabDrop_cons, List.filter_cons]
    by_cases h : j = k
    · simp [h, ih]
    · simp [h, ih, nat_beq_false h]

theorem tabWf_drop [DecidableEq α] (d : Nat → α) (k : Nat) {l : List (Nat × α)} (hl : tabWf d l = true) :
    tabWf d (tabDrop k l) = true := by
  rw [tabDrop_eq_filter]; exact tabWf_filter d _ hl

theorem mem_tabInsert {k : Nat} {v : α} {l : List (Nat × α)} {x : Nat × α} :
    x ∈ tabInsert k v l ↔ x = (k, v) ∨ x ∈ l := by
  induction l with
  | nil => simp [tabInsert]
  | cons y r ih =>
    obtain ⟨j, w⟩ := y
    rw [tabInsert_cons]
    split
    · simp
    · simp only [List.mem_cons, ih]; exact or_left_comm

theorem tabWf_insert [DecidableEq α] (d : Nat → α) (k : Nat) (v : α) (hv : v ≠ d k) {l : List (Nat × α)}
    (hk : ∀ x ∈ l, x.1 ≠ k) (hl : tabWf d l = true) : tabWf d (tabInsert k v l) = true := by
  rw [tabWf_iff] at *
  refine ⟨?_, ?_⟩
  · obtain ⟨hp, -⟩ := hl
    induction l with
    | nil => simp [tabInsert]
    | cons y r ih =>
      obtain ⟨j, w⟩ := y
      rw [tabInsert_cons]
      rw [List.pairwise_cons] at hp
      split
      · rename_i h
        refine List.pairwise_cons.mpr ⟨?_, List.pairwise_cons.mpr hp⟩
        intro z hz
        rcases List.mem_cons.mp hz with rfl | hz
        · exact h
        · exact Nat.lt_trans h (hp.1 z hz)
      · rename_i h
        refine List.pairwise_cons.mpr ⟨?_, ih (fun x hx => hk x (List.mem_cons_of_mem _ hx)) hp.2⟩
        intro z hz
        have hj : j ≠ k := hk (j, w) List.mem_cons_self
        rcases mem_tabInsert.mp hz with rfl | hz
        · simp only; omega
        · exact hp.1 z hz
  · intro x hx
    rcases mem_tabInsert.mp hx with rfl | hx
    · exact hv
    · exact hl.2 x hx

/-- Every write keeps the canonical form. -/
theorem tabWf_put [DecidableEq α] (d : Nat → α) (k : Nat) (v : α) {l : List (Nat × α)} (hl : tabWf d l = true) :
    tabWf d (tabPut d k v l) = true := by
  unfold tabPut
  split
  · exact tabWf_drop d k hl
  · rename_i h
    refine tabWf_insert d k v h ?_ (tabWf_drop d k hl)
    intro x hx
    rw [tabDrop_eq_filter, List.mem_filter] at hx
    rintro rfl
    simp at hx

end Sys2Proof.Machine
end

