-- ==== Sys2Proof/Laws/Mem.lean ====
section
/-!
SUPPORT. Byte memories: what is read after a store, and the canonical form that every operation keeps.
-/
namespace Sys2Proof.Machine

set_option Elab.async false

/-- Read after write: the byte written at its address, every other byte as it was. -/
theorem Mem.read_write (m : Mem) (a b : Nat) (v : Byte) : (m.write a v).read b = if b = a then v else m.read b := by
  unfold Mem.read Mem.write; exact tabGet_put _ a b v m.cells

@[simp] theorem Mem.read_write_same (m : Mem) (a : Nat) (v : Byte) : (m.write a v).read a = v := by
  rw [Mem.read_write, if_pos rfl]

theorem Mem.read_write_other (m : Mem) {a b : Nat} (h : b ≠ a) (v : Byte) : (m.write a v).read b = m.read b := by
  rw [Mem.read_write, if_neg h]

/-- A run of stores leaves every byte outside it alone. -/
theorem Mem.read_writeBytes_outside (d : List Byte) (m : Mem) (a b : Nat) (h : b < a ∨ a + d.length ≤ b) :
    (m.writeBytes a d).read b = m.read b := by
  induction d generalizing m a with
  | nil => rfl
  | cons x r ih =>
    simp only [List.length_cons] at h
    rw [Mem.writeBytes, ih _ _ (by omega), Mem.read_write_other _ (by omega)]

/-- A run of stores puts each byte at its place. -/
theorem Mem.read_writeBytes_inside (d : List Byte) (m : Mem) (a i : Nat) (h : i < d.length) :
    (m.writeBytes a d).read (a + i) = d[i] := by
  induction d generalizing m a i with
  | nil => cases h
  | cons x r ih =>
    rw [Mem.writeBytes]
    cases i with
    | zero => rw [Mem.read_writeBytes_outside _ _ _ _ (by omega)]; simp
    | succ i =>
      have := ih (m.write a x) (a + 1) i (by simpa using h)
      rw [show a + (i + 1) = a + 1 + i by omega, this]; rfl

theorem Mem.wf_write (m : Mem) (a : Nat) (v : Byte) (h : m.wf = true) : (m.write a v).wf = true :=
  tabWf_put _ a v h

theorem Mem.wf_writeBytes (d : List Byte) (m : Mem) (a : Nat) (h : m.wf = true) : (m.writeBytes a d).wf = true := by
  induction d generalizing m a with
  | nil => exact h
  | cons x r ih => exact ih _ _ (Mem.wf_write m a x h)

theorem Mem.wf_foldl_writeBytes {β : Type} (f : β → Nat) (g : β → List Byte) (l : List β) (m : Mem) (h : m.wf = true) :
    (l.foldl (fun t r => t.writeBytes (f r) (g r)) m).wf = true := by
  induction l generalizing m with
  | nil => exact h
  | cons x r ih => exact ih _ (Mem.wf_writeBytes _ m _ h)

theorem Mem.wf_writeNat (m : Mem) (a n v : Nat) (h : m.wf = true) : (m.writeNat a n v).wf = true :=
  Mem.wf_writeBytes _ m a h

theorem Mem.unlisted_cons (r : Region) (rs : List Region) (a : Nat) :
    Mem.unlisted (r :: rs) a =
      if r.lo ≤ a ∧ a < r.hi then (if r.epoch = 0 then 0#8 else Config.freeByte r.epoch a) else Mem.unlisted rs a := by
  rw [Mem.unlisted]
  by_cases h1 : r.lo ≤ a
  · by_cases h2 : a < r.hi
    · rw [if_pos ⟨h1, h2⟩, Nat.ble_eq.mpr h1, Nat.blt_eq.mpr h2]
      by_cases h3 : r.epoch = 0
      · simp [h3]
      · simp [h3, nat_beq_false h3]
    · have : Nat.blt a r.hi = false := by
        cases hb : Nat.blt a r.hi
        · rfl
        · exact absurd (Nat.blt_eq.mp hb) h2
      rw [if_neg (fun h => h2 h.2), this, Bool.and_false]; rfl
  · have : Nat.ble r.lo a = false := by
      cases hb : Nat.ble r.lo a
      · rfl
      · exact absurd (Nat.ble_eq.mp hb) h1
    rw [if_neg (fun h => h1 h.1), this, Bool.false_and]; rfl

/-- Regions inside a range say nothing about an address outside it. -/
theorem Mem.unlisted_filter (rs : List Region) (lo hi a : Nat) (h : a < lo ∨ hi ≤ a) :
    Mem.unlisted (rs.filter fun r => !(Nat.ble lo r.lo && Nat.ble r.hi hi)) a = Mem.unlisted rs a := by
  induction rs with
  | nil => rfl
  | cons r rs ih =>
    rw [List.filter_cons, Mem.unlisted_cons]
    split
    · rw [Mem.unlisted_cons, ih]
    · rename_i hr
      simp only [Bool.not_eq_true', Bool.not_eq_false, Bool.and_eq_true, Nat.ble_eq] at hr
      rw [ih, if_neg (by omega)]

theorem Mem.unlisted_blank (m : Mem) (lo hi e a : Nat) (h : a < lo ∨ hi ≤ a) :
    Mem.unlisted (m.blank lo hi e).regions a = Mem.unlisted m.regions a := by
  unfold Mem.blank
  rw [Mem.unlisted_cons, if_neg (by simp only; omega), Mem.unlisted_filter _ _ _ _ h]

/-- A blanking keeps the canonical form. -/
theorem Mem.wf_blank (m : Mem) (lo hi e : Nat) (h : m.wf = true) : (m.blank lo hi e).wf = true := by
  unfold Mem.wf at *
  rw [tabWf_iff] at *
  refine ⟨h.1.filter _, ?_⟩
  intro x hx
  have hx' : x ∈ m.cells ∧ _ := List.mem_filter.mp hx
  rw [Mem.unlisted_blank]
  · exact h.2 x hx'.1
  · have := hx'.2
    simp only [Bool.not_eq_true', Bool.and_eq_false_iff] at this
    rcases this with h1 | h1
    · left; exact Nat.lt_of_not_le fun h2 => by rw [Nat.ble_eq.mpr h2] at h1; cases h1
    · right; exact Nat.le_of_not_lt fun h2 => by rw [Nat.blt_eq.mpr h2] at h1; cases h1

/-- A blanking leaves every byte outside its range alone. -/
theorem Mem.read_blank_outside (m : Mem) (lo hi e a : Nat) (h : a < lo ∨ hi ≤ a) :
    (m.blank lo hi e).read a = m.read a := by
  unfold Mem.read tabGet
  rw [Mem.unlisted_blank _ _ _ _ _ h]
  congr 1
  unfold Mem.blank
  simp only
  induction m.cells with
  | nil => rfl
  | cons x r ih =>
    obtain ⟨j, v⟩ := x
    rw [List.filter_cons, tabFind_cons]
    split
    · rw [tabFind_cons, ih]
    · rename_i hj
      simp only [Bool.not_eq_true', Bool.not_eq_false, Bool.and_eq_true, Nat.ble_eq, Nat.blt_eq] at hj
      rw [if_neg (by omega), ih]

/-- A zeroed range reads as 0. -/
theorem Mem.read_blank_zero (m : Mem) (lo hi a : Nat) (h1 : lo ≤ a) (h2 : a < hi) : (m.blank lo hi 0).read a = 0#8 := by
  have hn : tabFind a (m.blank lo hi 0).cells = none := by
    unfold Mem.blank
    simp only
    induction m.cells with
    | nil => rfl
    | cons x r ih =>
      obtain ⟨j, v⟩ := x
      rw [List.filter_cons]
      split
      · rename_i hj
        simp only [Bool.not_eq_true', Bool.and_eq_false_iff] at hj
        have : j ≠ a := by
          rintro rfl
          rcases hj with hj | hj
          · rw [Nat.ble_eq.mpr h1] at hj; cases hj
          · rw [Nat.blt_eq.mpr h2] at hj; cases hj
        rw [tabFind_cons, if_neg this]; exact ih
      · exact ih
  unfold Mem.read tabGet
  rw [hn, Mem.blank, Mem.unlisted_cons, if_pos ⟨h1, h2⟩, if_pos rfl]; rfl

end Sys2Proof.Machine
end

