-- ==== Sys2Proof/Laws/Does/Base.lean ====
section
/-!
SUPPORT. `Does`: a command's effect as the lemmas of Laws/Does/ carry it, which passes through conditionals, folds and
record updates. A set of fields is a number, bit `i` standing for field `i` of `State`.
-/
namespace Sys2Proof.Machine

set_option Elab.async false

/-- Every bit of `a` is one of `m`. -/
def Sub (a m : Nat) : Prop := ∀ i, a.testBit i = true → m.testBit i = true

theorem Sub.refl (a : Nat) : Sub a a := fun _ h => h

theorem Sub.mono {a b m : Nat} (h : Sub b m) (e : a &&& b = a) : Sub a m := by
  intro i hi
  apply h
  rw [← e, Nat.testBit_and] at hi
  exact (Bool.and_eq_true_iff.1 hi).2

theorem Sub.of_eq {a b : Nat} (e : a &&& b = a) : Sub a b := (Sub.refl b).mono e

/-- No field outside the set `m` changes from `s` to `t`. -/
structure Only (m : Nat) (s t : State) : Prop where
  now : m.testBit 1 = false → t.now = s.now
  pll : m.testBit 2 = false → t.pll = s.pll
  aclkBase : m.testBit 3 = false → t.aclkBase = s.aclkBase
  aclkFrom : m.testBit 4 = false → t.aclkFrom = s.aclkFrom
  fresh : m.testBit 5 = false → t.fresh = s.fresh
  regs : m.testBit 6 = false → t.regs = s.regs
  log : m.testBit 7 = false → t.log = s.log
  lc : m.testBit 8 = false → t.lc = s.lc
  msix : m.testBit 9 = false → t.msix = s.msix
  msixCtl : m.testBit 10 = false → t.msixCtl = s.msixCtl
  sent : m.testBit 11 = false → t.sent = s.sent
  rdata : m.testBit 12 = false → t.rdata = s.rdata
  rstat : m.testBit 13 = false → t.rstat = s.rstat
  pipeActive : m.testBit 14 = false → t.pipeActive = s.pipeActive
  hbm : m.testBit 15 = false → t.hbm = s.hbm
  tile : m.testBit 16 = false → t.tile = s.tile
  host : m.testBit 17 = false → t.host = s.host
  engines : m.testBit 18 = false → t.engines = s.engines
  semCycles : m.testBit 19 = false → t.semCycles = s.semCycles
  fslots : m.testBit 20 = false → t.fslots = s.fslots
  fclock : m.testBit 21 = false → t.fclock = s.fclock
  fwaiting : m.testBit 22 = false → t.fwaiting = s.fwaiting
  pageIns : m.testBit 23 = false → t.pageIns = s.pageIns
  fsigs : m.testBit 24 = false → t.fsigs = s.fsigs
  transits : m.testBit 25 = false → t.transits = s.transits
  arbs : m.testBit 26 = false → t.arbs = s.arbs
  replies : m.testBit 27 = false → t.replies = s.replies
  arrived : m.testBit 28 = false → t.arrived = s.arrived
  mcs : m.testBit 29 = false → t.mcs = s.mcs
  routers : m.testBit 30 = false → t.routers = s.routers
  meshOut : m.testBit 31 = false → t.meshOut = s.meshOut
  ctxs : m.testBit 32 = false → t.ctxs = s.ctxs
  queues : m.testBit 33 = false → t.queues = s.queues
  slots : m.testBit 34 = false → t.slots = s.slots
  reloc : m.testBit 35 = false → t.reloc = s.reloc
  jobs : m.testBit 36 = false → t.jobs = s.jobs
  jobKey : m.testBit 37 = false → t.jobKey = s.jobKey
  copies : m.testBit 38 = false → t.copies = s.copies
  compWaits : m.testBit 39 = false → t.compWaits = s.compWaits
  cx : m.testBit 40 = false → t.cx = s.cx
  disps : m.testBit 41 = false → t.disps = s.disps
  pres : m.testBit 42 = false → t.pres = s.pres
  xfers : m.testBit 43 = false → t.xfers = s.xfers
  placedIn : m.testBit 44 = false → t.placedIn = s.placedIn
  lastServed : m.testBit 45 = false → t.lastServed = s.lastServed
  passes : m.testBit 46 = false → t.passes = s.passes
  geoTurn : m.testBit 47 = false → t.geoTurn = s.geoTurn
  hostReads : m.testBit 48 = false → t.hostReads = s.hostReads
  model : m.testBit 49 = false → t.model = s.model
  loading : m.testBit 50 = false → t.loading = s.loading
  monFrame : m.testBit 51 = false → t.monFrame = s.monFrame
  failOrder : m.testBit 52 = false → t.failOrder = s.failOrder
  mbWait : m.testBit 53 = false → t.mbWait = s.mbWait
  mboxes : m.testBit 54 = false → t.mboxes = s.mboxes
  mbOrder : m.testBit 55 = false → t.mbOrder = s.mbOrder
  staging : m.testBit 56 = false → t.staging = s.staging
  caps : m.testBit 57 = false → t.caps = s.caps
  capStop : m.testBit 58 = false → t.capStop = s.capStop
  capFaults : m.testBit 59 = false → t.capFaults = s.capFaults
  pipes : m.testBit 60 = false → t.pipes = s.pipes
  foxKey : m.testBit 61 = false → t.foxKey = s.foxKey
  foxCount : m.testBit 62 = false → t.foxCount = s.foxCount
  foxChecked : m.testBit 63 = false → t.foxChecked = s.foxChecked
  foxCmd : m.testBit 64 = false → t.foxCmd = s.foxCmd
  power : m.testBit 65 = false → t.power = s.power
  hotSwap : m.testBit 66 = false → t.hotSwap = s.hotSwap
  resets : m.testBit 67 = false → t.resets = s.resets
  wide : m.testBit 68 = false → t.wide = s.wide
  perst : m.testBit 69 = false → t.perst = s.perst
  pcieOut : m.testBit 70 = false → t.pcieOut = s.pcieOut
  peony : m.testBit 71 = false → t.peony = s.peony
  flash : m.testBit 72 = false → t.flash = s.flash
  wire : m.testBit 73 = false → t.wire = s.wire

/-- `t` comes from `s`: the queue and the invariant are kept, and no field outside the set `m` changes. -/
structure Does (m : Nat) (s t : State) : Prop where
  keeps : Keeps s t
  only : Only m s t

/-- Every next state of an outcome comes from `s`. -/
def DoesOut (m : Nat) (s : State) (o : Out) : Prop := ∀ t, o = .next t → Does m s t

theorem Does.refl (m : Nat) (s : State) : Does m s s := by
  refine ⟨⟨rfl, fun h => h⟩, ?_⟩
  constructor <;> exact fun _ => rfl

/-- A state on the way is kept, and so may stand for itself from here. -/
theorem does_cut {msk : Nat} {s0 x : State} {P : Prop} (h : Does msk s0 x) (k : Does msk s0 x → P) : P := k h

theorem Does.ifte {msk : Nat} {s0 a b : State} {p : Prop} {d : Decidable p} (ha : Does msk s0 a) (hb : Does msk s0 b) :
    Does msk s0 (@ite State p d a b) := by
  cases d
  · exact hb
  · exact ha

theorem Does.ifte_fst {α : Type} {msk : Nat} {s0 : State} {a b : State × α} {p : Prop} {d : Decidable p}
    (ha : Does msk s0 a.1) (hb : Does msk s0 b.1) : Does msk s0 (@ite (State × α) p d a b).1 := by
  cases d
  · exact hb
  · exact ha

theorem Does.ifte_snd {α : Type} {msk : Nat} {s0 : State} {a b : α × State} {p : Prop} {d : Decidable p}
    (ha : Does msk s0 a.2) (hb : Does msk s0 b.2) : Does msk s0 (@ite (α × State) p d a b).2 := by
  cases d
  · exact hb
  · exact ha

theorem DoesOut.next {msk : Nat} {s0 t : State} (h : Does msk s0 t) : DoesOut msk s0 (.next t) := by
  rintro _ ⟨⟩; exact h

theorem DoesOut.ifte {msk : Nat} {s0 : State} {a b : Out} {p : Prop} {d : Decidable p} (ha : DoesOut msk s0 a)
    (hb : DoesOut msk s0 b) : DoesOut msk s0 (@ite Out p d a b) := by
  cases d
  · exact hb
  · exact ha

theorem does_foldl {β : Type} {msk : Nat} (f : State → β → State) (l : List β) {s0 s : State} (h : Does msk s0 s)
    (hf : ∀ s b, Does msk s0 s → Does msk s0 (f s b)) : Does msk s0 (l.foldl f s) := by
  induction l generalizing s with
  | nil => exact h
  | cons x r ih => exact ih (hf s x h)

theorem Does.updNow {msk : Nat} {s0 s : State} (h : Does msk s0 s) {now' : Nat}
    (b1 : msk.testBit 1 = true)  :
    Does msk s0 { s with now := now' } :=
  ⟨⟨h.keeps.pending, fun i => let j := h.keeps.inv i; ⟨j.1, j.2, j.3, j.4, j.5, j.6, j.7, j.8⟩⟩, ⟨(fun e => nomatch b1.symm.trans e), h.only.pll, h.only.aclkBase, h.only.aclkFrom, h.only.fresh, h.only.regs, h.only.log, h.only.lc, h.only.msix, h.only.msixCtl, h.only.sent, h.only.rdata, h.only.rstat, h.only.pipeActive, h.only.hbm, h.only.tile, h.only.host, h.only.engines, h.only.semCycles, h.only.fslots, h.only.fclock, h.only.fwaiting, h.only.pageIns, h.only.fsigs, h.only.transits, h.only.arbs, h.only.replies, h.only.arrived, h.only.mcs, h.only.routers, h.only.meshOut, h.only.ctxs, h.only.queues, h.only.slots, h.only.reloc, h.only.jobs, h.only.jobKey, h.only.copies, h.only.compWaits, h.only.cx, h.only.disps, h.only.pres, h.only.xfers, h.only.placedIn, h.only.lastServed, h.only.passes, h.only.geoTurn, h.only.hostReads, h.only.model, h.only.loading, h.only.monFrame, h.only.failOrder, h.only.mbWait, h.only.mboxes, h.only.mbOrder, h.only.staging, h.only.caps, h.only.capStop, h.only.capFaults, h.only.pipes, h.only.foxKey, h.only.foxCount, h.only.foxChecked, h.only.foxCmd, h.only.power, h.only.hotSwap, h.only.resets, h.only.wide, h.only.perst, h.only.pcieOut, h.only.peony, h.only.flash, h.only.wire⟩⟩

theorem Does.updPllAclkBaseAclkFrom {msk : Nat} {s0 s : State} (h : Does msk s0 s) {pll' : Bool} {aclkBase' : Nat} {aclkFrom' : Nat}
    (b2 : msk.testBit 2 = true) (b3 : msk.testBit 3 = true) (b4 : msk.testBit 4 = true)  :
    Does msk s0 { s with pll := pll', aclkBase := aclkBase', aclkFrom := aclkFrom' } :=
  ⟨⟨h.keeps.pending, fun i => let j := h.keeps.inv i; ⟨j.1, j.2, j.3, j.4, j.5, j.6, j.7, j.8⟩⟩, ⟨h.only.now, (fun e => nomatch b2.symm.trans e), (fun e => nomatch b3.symm.trans e), (fun e => nomatch b4.symm.trans e), h.only.fresh, h.only.regs, h.only.log, h.only.lc, h.only.msix, h.only.msixCtl, h.only.sent, h.only.rdata, h.only.rstat, h.only.pipeActive, h.only.hbm, h.only.tile, h.only.host, h.only.engines, h.only.semCycles, h.only.fslots, h.only.fclock, h.only.fwaiting, h.only.pageIns, h.only.fsigs, h.only.transits, h.only.arbs, h.only.replies, h.only.arrived, h.only.mcs, h.only.routers, h.only.meshOut, h.only.ctxs, h.only.queues, h.only.slots, h.only.reloc, h.only.jobs, h.only.jobKey, h.only.copies, h.only.compWaits, h.only.cx, h.only.disps, h.only.pres, h.only.xfers, h.only.placedIn, h.only.lastServed, h.only.passes, h.only.geoTurn, h.only.hostReads, h.only.model, h.only.loading, h.only.monFrame, h.only.failOrder, h.only.mbWait, h.only.mboxes, h.only.mbOrder, h.only.staging, h.only.caps, h.only.capStop, h.only.capFaults, h.only.pipes, h.only.foxKey, h.only.foxCount, h.only.foxChecked, h.only.foxCmd, h.only.power, h.only.hotSwap, h.only.resets, h.only.wide, h.only.perst, h.only.pcieOut, h.only.peony, h.only.flash, h.only.wire⟩⟩

theorem Does.updFresh {msk : Nat} {s0 s : State} (h : Does msk s0 s) {fresh' : Nat}
    (b5 : msk.testBit 5 = true)  :
    Does msk s0 { s with fresh := fresh' } :=
  ⟨⟨h.keeps.pending, fun i => let j := h.keeps.inv i; ⟨j.1, j.2, j.3, j.4, j.5, j.6, j.7, j.8⟩⟩, ⟨h.only.now, h.only.pll, h.only.aclkBase, h.only.aclkFrom, (fun e => nomatch b5.symm.trans e), h.only.regs, h.only.log, h.only.lc, h.only.msix, h.only.msixCtl, h.only.sent, h.only.rdata, h.only.rstat, h.only.pipeActive, h.only.hbm, h.only.tile, h.only.host, h.only.engines, h.only.semCycles, h.only.fslots, h.only.fclock, h.only.fwaiting, h.only.pageIns, h.only.fsigs, h.only.transits, h.only.arbs, h.only.replies, h.only.arrived, h.only.mcs, h.only.routers, h.only.meshOut, h.only.ctxs, h.only.queues, h.only.slots, h.only.reloc, h.only.jobs, h.only.jobKey, h.only.copies, h.only.compWaits, h.only.cx, h.only.disps, h.only.pres, h.only.xfers, h.only.placedIn, h.only.lastServed, h.only.passes, h.only.geoTurn, h.only.hostReads, h.only.model, h.only.loading, h.only.monFrame, h.only.failOrder, h.only.mbWait, h.only.mboxes, h.only.mbOrder, h.only.staging, h.only.caps, h.only.capStop, h.only.capFaults, h.only.pipes, h.only.foxKey, h.only.foxCount, h.only.foxChecked, h.only.foxCmd, h.only.power, h.only.hotSwap, h.only.resets, h.only.wide, h.only.perst, h.only.pcieOut, h.only.peony, h.only.flash, h.only.wire⟩⟩

theorem Does.updFreshHbmPcieOut {msk : Nat} {s0 s : State} (h : Does msk s0 s) {fresh' : Nat} {hbm' : Mem} {pcieOut' : Bool}
    (b5 : msk.testBit 5 = true) (b15 : msk.testBit 15 = true) (b70 : msk.testBit 70 = true) (w15 : s.hbm.wf = true → hbm'.wf = true) :
    Does msk s0 { s with fresh := fresh', hbm := hbm', pcieOut := pcieOut' } :=
  ⟨⟨h.keeps.pending, fun i => let j := h.keeps.inv i; ⟨w15 j.1, j.2, j.3, j.4, j.5, j.6, j.7, j.8⟩⟩, ⟨h.only.now, h.only.pll, h.only.aclkBase, h.only.aclkFrom, (fun e => nomatch b5.symm.trans e), h.only.regs, h.only.log, h.only.lc, h.only.msix, h.only.msixCtl, h.only.sent, h.only.rdata, h.only.rstat, h.only.pipeActive, (fun e => nomatch b15.symm.trans e), h.only.tile, h.only.host, h.only.engines, h.only.semCycles, h.only.fslots, h.only.fclock, h.only.fwaiting, h.only.pageIns, h.only.fsigs, h.only.transits, h.only.arbs, h.only.replies, h.only.arrived, h.only.mcs, h.only.routers, h.only.meshOut, h.only.ctxs, h.only.queues, h.only.slots, h.only.reloc, h.only.jobs, h.only.jobKey, h.only.copies, h.only.compWaits, h.only.cx, h.only.disps, h.only.pres, h.only.xfers, h.only.placedIn, h.only.lastServed, h.only.passes, h.only.geoTurn, h.only.hostReads, h.only.model, h.only.loading, h.only.monFrame, h.only.failOrder, h.only.mbWait, h.only.mboxes, h.only.mbOrder, h.only.staging, h.only.caps, h.only.capStop, h.only.capFaults, h.only.pipes, h.only.foxKey, h.only.foxCount, h.only.foxChecked, h.only.foxCmd, h.only.power, h.only.hotSwap, h.only.resets, h.only.wide, h.only.perst, (fun e => nomatch b70.symm.trans e), h.only.peony, h.only.flash, h.only.wire⟩⟩

theorem Does.updFreshTile {msk : Nat} {s0 s : State} (h : Does msk s0 s) {fresh' : Nat} {tile' : Mem}
    (b5 : msk.testBit 5 = true) (b16 : msk.testBit 16 = true) (w16 : s.tile.wf = true → tile'.wf = true) :
    Does msk s0 { s with fresh := fresh', tile := tile' } :=
  ⟨⟨h.keeps.pending, fun i => let j := h.keeps.inv i; ⟨j.1, w16 j.2, j.3, j.4, j.5, j.6, j.7, j.8⟩⟩, ⟨h.only.now, h.only.pll, h.only.aclkBase, h.only.aclkFrom, (fun e => nomatch b5.symm.trans e), h.only.regs, h.only.log, h.only.lc, h.only.msix, h.only.msixCtl, h.only.sent, h.only.rdata, h.only.rstat, h.only.pipeActive, h.only.hbm, (fun e => nomatch b16.symm.trans e), h.only.host, h.only.engines, h.only.semCycles, h.only.fslots, h.only.fclock, h.only.fwaiting, h.only.pageIns, h.only.fsigs, h.only.transits, h.only.arbs, h.only.replies, h.only.arrived, h.only.mcs, h.only.routers, h.only.meshOut, h.only.ctxs, h.only.queues, h.only.slots, h.only.reloc, h.only.jobs, h.only.jobKey, h.only.copies, h.only.compWaits, h.only.cx, h.only.disps, h.only.pres, h.only.xfers, h.only.placedIn, h.only.lastServed, h.only.passes, h.only.geoTurn, h.only.hostReads, h.only.model, h.only.loading, h.only.monFrame, h.only.failOrder, h.only.mbWait, h.only.mboxes, h.only.mbOrder, h.only.staging, h.only.caps, h.only.capStop, h.only.capFaults, h.only.pipes, h.only.foxKey, h.only.foxCount, h.only.foxChecked, h.only.foxCmd, h.only.power, h.only.hotSwap, h.only.resets, h.only.wide, h.only.perst, h.only.pcieOut, h.only.peony, h.only.flash, h.only.wire⟩⟩

theorem Does.updFreshFlash {msk : Nat} {s0 s : State} (h : Does msk s0 s) {fresh' : Nat} {flash' : Mem}
    (b5 : msk.testBit 5 = true) (b72 : msk.testBit 72 = true) (w72 : s.flash.wf = true → flash'.wf = true) :
    Does msk s0 { s with fresh := fresh', flash := flash' } :=
  ⟨⟨h.keeps.pending, fun i => let j := h.keeps.inv i; ⟨j.1, j.2, j.3, j.4, w72 j.5, j.6, j.7, j.8⟩⟩, ⟨h.only.now, h.only.pll, h.only.aclkBase, h.only.aclkFrom, (fun e => nomatch b5.symm.trans e), h.only.regs, h.only.log, h.only.lc, h.only.msix, h.only.msixCtl, h.only.sent, h.only.rdata, h.only.rstat, h.only.pipeActive, h.only.hbm, h.only.tile, h.only.host, h.only.engines, h.only.semCycles, h.only.fslots, h.only.fclock, h.only.fwaiting, h.only.pageIns, h.only.fsigs, h.only.transits, h.only.arbs, h.only.replies, h.only.arrived, h.only.mcs, h.only.routers, h.only.meshOut, h.only.ctxs, h.only.queues, h.only.slots, h.only.reloc, h.only.jobs, h.only.jobKey, h.only.copies, h.only.compWaits, h.only.cx, h.only.disps, h.only.pres, h.only.xfers, h.only.placedIn, h.only.lastServed, h.only.passes, h.only.geoTurn, h.only.hostReads, h.only.model, h.only.loading, h.only.monFrame, h.only.failOrder, h.only.mbWait, h.only.mboxes, h.only.mbOrder, h.only.staging, h.only.caps, h.only.capStop, h.only.capFaults, h.only.pipes, h.only.foxKey, h.only.foxCount, h.only.foxChecked, h.only.foxCmd, h.only.power, h.only.hotSwap, h.only.resets, h.only.wide, h.only.perst, h.only.pcieOut, h.only.peony, (fun e => nomatch b72.symm.trans e), h.only.wire⟩⟩

theorem Does.updRegs {msk : Nat} {s0 s : State} (h : Does msk s0 s) {regs' : List (Nat × Word)}
    (b6 : msk.testBit 6 = true) (w6 : tabWf resetWord s.regs = true → tabWf resetWord regs' = true) :
    Does msk s0 { s with regs := regs' } :=
  ⟨⟨h.keeps.pending, fun i => let j := h.keeps.inv i; ⟨j.1, j.2, j.3, j.4, j.5, w6 j.6, j.7, j.8⟩⟩, ⟨h.only.now, h.only.pll, h.only.aclkBase, h.only.aclkFrom, h.only.fresh, (fun e => nomatch b6.symm.trans e), h.only.log, h.only.lc, h.only.msix, h.only.msixCtl, h.only.sent, h.only.rdata, h.only.rstat, h.only.pipeActive, h.only.hbm, h.only.tile, h.only.host, h.only.engines, h.only.semCycles, h.only.fslots, h.only.fclock, h.only.fwaiting, h.only.pageIns, h.only.fsigs, h.only.transits, h.only.arbs, h.only.replies, h.only.arrived, h.only.mcs, h.only.routers, h.only.meshOut, h.only.ctxs, h.only.queues, h.only.slots, h.only.reloc, h.only.jobs, h.only.jobKey, h.only.copies, h.only.compWaits, h.only.cx, h.only.disps, h.only.pres, h.only.xfers, h.only.placedIn, h.only.lastServed, h.only.passes, h.only.geoTurn, h.only.hostReads, h.only.model, h.only.loading, h.only.monFrame, h.only.failOrder, h.only.mbWait, h.only.mboxes, h.only.mbOrder, h.only.staging, h.only.caps, h.only.capStop, h.only.capFaults, h.only.pipes, h.only.foxKey, h.only.foxCount, h.only.foxChecked, h.only.foxCmd, h.only.power, h.only.hotSwap, h.only.resets, h.only.wide, h.only.perst, h.only.pcieOut, h.only.peony, h.only.flash, h.only.wire⟩⟩

theorem Does.updRegsSemCycles {msk : Nat} {s0 s : State} (h : Does msk s0 s) {regs' : List (Nat × Word)} {semCycles' : List SemCycle}
    (b6 : msk.testBit 6 = true) (b19 : msk.testBit 19 = true) (w6 : tabWf resetWord s.regs = true → tabWf resetWord regs' = true) :
    Does msk s0 { s with regs := regs', semCycles := semCycles' } :=
  ⟨⟨h.keeps.pending, fun i => let j := h.keeps.inv i; ⟨j.1, j.2, j.3, j.4, j.5, w6 j.6, j.7, j.8⟩⟩, ⟨h.only.now, h.only.pll, h.only.aclkBase, h.only.aclkFrom, h.only.fresh, (fun e => nomatch b6.symm.trans e), h.only.log, h.only.lc, h.only.msix, h.only.msixCtl, h.only.sent, h.only.rdata, h.only.rstat, h.only.pipeActive, h.only.hbm, h.only.tile, h.only.host, h.only.engines, (fun e => nomatch b19.symm.trans e), h.only.fslots, h.only.fclock, h.only.fwaiting, h.only.pageIns, h.only.fsigs, h.only.transits, h.only.arbs, h.only.replies, h.only.arrived, h.only.mcs, h.only.routers, h.only.meshOut, h.only.ctxs, h.only.queues, h.only.slots, h.only.reloc, h.only.jobs, h.only.jobKey, h.only.copies, h.only.compWaits, h.only.cx, h.only.disps, h.only.pres, h.only.xfers, h.only.placedIn, h.only.lastServed, h.only.passes, h.only.geoTurn, h.only.hostReads, h.only.model, h.only.loading, h.only.monFrame, h.only.failOrder, h.only.mbWait, h.only.mboxes, h.only.mbOrder, h.only.staging, h.only.caps, h.only.capStop, h.only.capFaults, h.only.pipes, h.only.foxKey, h.only.foxCount, h.only.foxChecked, h.only.foxCmd, h.only.power, h.only.hotSwap, h.only.resets, h.only.wide, h.only.perst, h.only.pcieOut, h.only.peony, h.only.flash, h.only.wire⟩⟩

theorem Does.updLog {msk : Nat} {s0 s : State} (h : Does msk s0 s) {log' : ErrLog}
    (b7 : msk.testBit 7 = true) (w7 : s.log.recs.length ≤ 2048 ∧ s.log.seq < 2 ^ 32 → log'.recs.length ≤ 2048 ∧ log'.seq < 2 ^ 32) :
    Does msk s0 { s with log := log' } :=
  ⟨⟨h.keeps.pending, fun i => let j := h.keeps.inv i; ⟨j.1, j.2, j.3, j.4, j.5, j.6, (w7 ⟨j.7, j.8⟩).1, (w7 ⟨j.7, j.8⟩).2⟩⟩, ⟨h.only.now, h.only.pll, h.only.aclkBase, h.only.aclkFrom, h.only.fresh, h.only.regs, (fun e => nomatch b7.symm.trans e), h.only.lc, h.only.msix, h.only.msixCtl, h.only.sent, h.only.rdata, h.only.rstat, h.only.pipeActive, h.only.hbm, h.only.tile, h.only.host, h.only.engines, h.only.semCycles, h.only.fslots, h.only.fclock, h.only.fwaiting, h.only.pageIns, h.only.fsigs, h.only.transits, h.only.arbs, h.only.replies, h.only.arrived, h.only.mcs, h.only.routers, h.only.meshOut, h.only.ctxs, h.only.queues, h.only.slots, h.only.reloc, h.only.jobs, h.only.jobKey, h.only.copies, h.only.compWaits, h.only.cx, h.only.disps, h.only.pres, h.only.xfers, h.only.placedIn, h.only.lastServed, h.only.passes, h.only.geoTurn, h.only.hostReads, h.only.model, h.only.loading, h.only.monFrame, h.only.failOrder, h.only.mbWait, h.only.mboxes, h.only.mbOrder, h.only.staging, h.only.caps, h.only.capStop, h.only.capFaults, h.only.pipes, h.only.foxKey, h.only.foxCount, h.only.foxChecked, h.only.foxCmd, h.only.power, h.only.hotSwap, h.only.resets, h.only.wide, h.only.perst, h.only.pcieOut, h.only.peony, h.only.flash, h.only.wire⟩⟩

theorem Does.updLc {msk : Nat} {s0 s : State} (h : Does msk s0 s) {lc' : LineClock}
    (b8 : msk.testBit 8 = true)  :
    Does msk s0 { s with lc := lc' } :=
  ⟨⟨h.keeps.pending, fun i => let j := h.keeps.inv i; ⟨j.1, j.2, j.3, j.4, j.5, j.6, j.7, j.8⟩⟩, ⟨h.only.now, h.only.pll, h.only.aclkBase, h.only.aclkFrom, h.only.fresh, h.only.regs, h.only.log, (fun e => nomatch b8.symm.trans e), h.only.msix, h.only.msixCtl, h.only.sent, h.only.rdata, h.only.rstat, h.only.pipeActive, h.only.hbm, h.only.tile, h.only.host, h.only.engines, h.only.semCycles, h.only.fslots, h.only.fclock, h.only.fwaiting, h.only.pageIns, h.only.fsigs, h.only.transits, h.only.arbs, h.only.replies, h.only.arrived, h.only.mcs, h.only.routers, h.only.meshOut, h.only.ctxs, h.only.queues, h.only.slots, h.only.reloc, h.only.jobs, h.only.jobKey, h.only.copies, h.only.compWaits, h.only.cx, h.only.disps, h.only.pres, h.only.xfers, h.only.placedIn, h.only.lastServed, h.only.passes, h.only.geoTurn, h.only.hostReads, h.only.model, h.only.loading, h.only.monFrame, h.only.failOrder, h.only.mbWait, h.only.mboxes, h.only.mbOrder, h.only.staging, h.only.caps, h.only.capStop, h.only.capFaults, h.only.pipes, h.only.foxKey, h.only.foxCount, h.only.foxChecked, h.only.foxCmd, h.only.power, h.only.hotSwap, h.only.resets, h.only.wide, h.only.perst, h.only.pcieOut, h.only.peony, h.only.flash, h.only.wire⟩⟩

theorem Does.updLcHbmTileHotSwapPeony {msk : Nat} {s0 s : State} (h : Does msk s0 s) {lc' : LineClock} {hbm' : Mem} {tile' : Mem} {hotSwap' : HotSwap} {peony' : Peony}
    (b8 : msk.testBit 8 = true) (b15 : msk.testBit 15 = true) (b16 : msk.testBit 16 = true) (b66 : msk.testBit 66 = true) (b71 : msk.testBit 71 = true) (w15 : s.hbm.wf = true → hbm'.wf = true) (w16 : s.tile.wf = true → tile'.wf = true) :
    Does msk s0 { s with lc := lc', hbm := hbm', tile := tile', hotSwap := hotSwap', peony := peony' } :=
  ⟨⟨h.keeps.pending, fun i => let j := h.keeps.inv i; ⟨w15 j.1, w16 j.2, j.3, j.4, j.5, j.6, j.7, j.8⟩⟩, ⟨h.only.now, h.only.pll, h.only.aclkBase, h.only.aclkFrom, h.only.fresh, h.only.regs, h.only.log, (fun e => nomatch b8.symm.trans e), h.only.msix, h.only.msixCtl, h.only.sent, h.only.rdata, h.only.rstat, h.only.pipeActive, (fun e => nomatch b15.symm.trans e), (fun e => nomatch b16.symm.trans e), h.only.host, h.only.engines, h.only.semCycles, h.only.fslots, h.only.fclock, h.only.fwaiting, h.only.pageIns, h.only.fsigs, h.only.transits, h.only.arbs, h.only.replies, h.only.arrived, h.only.mcs, h.only.routers, h.only.meshOut, h.only.ctxs, h.only.queues, h.only.slots, h.only.reloc, h.only.jobs, h.only.jobKey, h.only.copies, h.only.compWaits, h.only.cx, h.only.disps, h.only.pres, h.only.xfers, h.only.placedIn, h.only.lastServed, h.only.passes, h.only.geoTurn, h.only.hostReads, h.only.model, h.only.loading, h.only.monFrame, h.only.failOrder, h.only.mbWait, h.only.mboxes, h.only.mbOrder, h.only.staging, h.only.caps, h.only.capStop, h.only.capFaults, h.only.pipes, h.only.foxKey, h.only.foxCount, h.only.foxChecked, h.only.foxCmd, h.only.power, (fun e => nomatch b66.symm.trans e), h.only.resets, h.only.wide, h.only.perst, h.only.pcieOut, (fun e => nomatch b71.symm.trans e), h.only.flash, h.only.wire⟩⟩

theorem Does.updLcSlotsRelocCaps {msk : Nat} {s0 s : State} (h : Does msk s0 s) {lc' : LineClock} {slots' : List (Nat × SlotSt)} {reloc' : List (Nat × Nat × List Nat)} {caps' : List (Nat × CapVc)}
    (b8 : msk.testBit 8 = true) (b34 : msk.testBit 34 = true) (b35 : msk.testBit 35 = true) (b57 : msk.testBit 57 = true)  :
    Does msk s0 { s with lc := lc', slots := slots', reloc := reloc', caps := caps' } :=
  ⟨⟨h.keeps.pending, fun i => let j := h.keeps.inv i; ⟨j.1, j.2, j.3, j.4, j.5, j.6, j.7, j.8⟩⟩, ⟨h.only.now, h.only.pll, h.only.aclkBase, h.only.aclkFrom, h.only.fresh, h.only.regs, h.only.log, (fun e => nomatch b8.symm.trans e), h.only.msix, h.only.msixCtl, h.only.sent, h.only.rdata, h.only.rstat, h.only.pipeActive, h.only.hbm, h.only.tile, h.only.host, h.only.engines, h.only.semCycles, h.only.fslots, h.only.fclock, h.only.fwaiting, h.only.pageIns, h.only.fsigs, h.only.transits, h.only.arbs, h.only.replies, h.only.arrived, h.only.mcs, h.only.routers, h.only.meshOut, h.only.ctxs, h.only.queues, (fun e => nomatch b34.symm.trans e), (fun e => nomatch b35.symm.trans e), h.only.jobs, h.only.jobKey, h.only.copies, h.only.compWaits, h.only.cx, h.only.disps, h.only.pres, h.only.xfers, h.only.placedIn, h.only.lastServed, h.only.passes, h.only.geoTurn, h.only.hostReads, h.only.model, h.only.loading, h.only.monFrame, h.only.failOrder, h.only.mbWait, h.only.mboxes, h.only.mbOrder, h.only.staging, (fun e => nomatch b57.symm.trans e), h.only.capStop, h.only.capFaults, h.only.pipes, h.only.foxKey, h.only.foxCount, h.only.foxChecked, h.only.foxCmd, h.only.power, h.only.hotSwap, h.only.resets, h.only.wide, h.only.perst, h.only.pcieOut, h.only.peony, h.only.flash, h.only.wire⟩⟩

theorem Does.updMsix {msk : Nat} {s0 s : State} (h : Does msk s0 s) {msix' : List (Nat × Msix)}
    (b9 : msk.testBit 9 = true)  :
    Does msk s0 { s with msix := msix' } :=
  ⟨⟨h.keeps.pending, fun i => let j := h.keeps.inv i; ⟨j.1, j.2, j.3, j.4, j.5, j.6, j.7, j.8⟩⟩, ⟨h.only.now, h.only.pll, h.only.aclkBase, h.only.aclkFrom, h.only.fresh, h.only.regs, h.only.log, h.only.lc, (fun e => nomatch b9.symm.trans e), h.only.msixCtl, h.only.sent, h.only.rdata, h.only.rstat, h.only.pipeActive, h.only.hbm, h.only.tile, h.only.host, h.only.engines, h.only.semCycles, h.only.fslots, h.only.fclock, h.only.fwaiting, h.only.pageIns, h.only.fsigs, h.only.transits, h.only.arbs, h.only.replies, h.only.arrived, h.only.mcs, h.only.routers, h.only.meshOut, h.only.ctxs, h.only.queues, h.only.slots, h.only.reloc, h.only.jobs, h.only.jobKey, h.only.copies, h.only.compWaits, h.only.cx, h.only.disps, h.only.pres, h.only.xfers, h.only.placedIn, h.only.lastServed, h.only.passes, h.only.geoTurn, h.only.hostReads, h.only.model, h.only.loading, h.only.monFrame, h.only.failOrder, h.only.mbWait, h.only.mboxes, h.only.mbOrder, h.only.staging, h.only.caps, h.only.capStop, h.only.capFaults, h.only.pipes, h.only.foxKey, h.only.foxCount, h.only.foxChecked, h.only.foxCmd, h.only.power, h.only.hotSwap, h.only.resets, h.only.wide, h.only.perst, h.only.pcieOut, h.only.peony, h.only.flash, h.only.wire⟩⟩

theorem Does.updMsixMsixCtl {msk : Nat} {s0 s : State} (h : Does msk s0 s) {msix' : List (Nat × Msix)} {msixCtl' : List (Nat × MsixCtl)}
    (b9 : msk.testBit 9 = true) (b10 : msk.testBit 10 = true)  :
    Does msk s0 { s with msix := msix', msixCtl := msixCtl' } :=
  ⟨⟨h.keeps.pending, fun i => let j := h.keeps.inv i; ⟨j.1, j.2, j.3, j.4, j.5, j.6, j.7, j.8⟩⟩, ⟨h.only.now, h.only.pll, h.only.aclkBase, h.only.aclkFrom, h.only.fresh, h.only.regs, h.only.log, h.only.lc, (fun e => nomatch b9.symm.trans e), (fun e => nomatch b10.symm.trans e), h.only.sent, h.only.rdata, h.only.rstat, h.only.pipeActive, h.only.hbm, h.only.tile, h.only.host, h.only.engines, h.only.semCycles, h.only.fslots, h.only.fclock, h.only.fwaiting, h.only.pageIns, h.only.fsigs, h.only.transits, h.only.arbs, h.only.replies, h.only.arrived, h.only.mcs, h.only.routers, h.only.meshOut, h.only.ctxs, h.only.queues, h.only.slots, h.only.reloc, h.only.jobs, h.only.jobKey, h.only.copies, h.only.compWaits, h.only.cx, h.only.disps, h.only.pres, h.only.xfers, h.only.placedIn, h.only.lastServed, h.only.passes, h.only.geoTurn, h.only.hostReads, h.only.model, h.only.loading, h.only.monFrame, h.only.failOrder, h.only.mbWait, h.only.mboxes, h.only.mbOrder, h.only.staging, h.only.caps, h.only.capStop, h.only.capFaults, h.only.pipes, h.only.foxKey, h.only.foxCount, h.only.foxChecked, h.only.foxCmd, h.only.power, h.only.hotSwap, h.only.resets, h.only.wide, h.only.perst, h.only.pcieOut, h.only.peony, h.only.flash, h.only.wire⟩⟩

theorem Does.updMsixCtl {msk : Nat} {s0 s : State} (h : Does msk s0 s) {msixCtl' : List (Nat × MsixCtl)}
    (b10 : msk.testBit 10 = true)  :
    Does msk s0 { s with msixCtl := msixCtl' } :=
  ⟨⟨h.keeps.pending, fun i => let j := h.keeps.inv i; ⟨j.1, j.2, j.3, j.4, j.5, j.6, j.7, j.8⟩⟩, ⟨h.only.now, h.only.pll, h.only.aclkBase, h.only.aclkFrom, h.only.fresh, h.only.regs, h.only.log, h.only.lc, h.only.msix, (fun e => nomatch b10.symm.trans e), h.only.sent, h.only.rdata, h.only.rstat, h.only.pipeActive, h.only.hbm, h.only.tile, h.only.host, h.only.engines, h.only.semCycles, h.only.fslots, h.only.fclock, h.only.fwaiting, h.only.pageIns, h.only.fsigs, h.only.transits, h.only.arbs, h.only.replies, h.only.arrived, h.only.mcs, h.only.routers, h.only.meshOut, h.only.ctxs, h.only.queues, h.only.slots, h.only.reloc, h.only.jobs, h.only.jobKey, h.only.copies, h.only.compWaits, h.only.cx, h.only.disps, h.only.pres, h.only.xfers, h.only.placedIn, h.only.lastServed, h.only.passes, h.only.geoTurn, h.only.hostReads, h.only.model, h.only.loading, h.only.monFrame, h.only.failOrder, h.only.mbWait, h.only.mboxes, h.only.mbOrder, h.only.staging, h.only.caps, h.only.capStop, h.only.capFaults, h.only.pipes, h.only.foxKey, h.only.foxCount, h.only.foxChecked, h.only.foxCmd, h.only.power, h.only.hotSwap, h.only.resets, h.only.wide, h.only.perst, h.only.pcieOut, h.only.peony, h.only.flash, h.only.wire⟩⟩

theorem Does.updSent {msk : Nat} {s0 s : State} (h : Does msk s0 s) {sent' : List HostMsg}
    (b11 : msk.testBit 11 = true)  :
    Does msk s0 { s with sent := sent' } :=
  ⟨⟨h.keeps.pending, fun i => let j := h.keeps.inv i; ⟨j.1, j.2, j.3, j.4, j.5, j.6, j.7, j.8⟩⟩, ⟨h.only.now, h.only.pll, h.only.aclkBase, h.only.aclkFrom, h.only.fresh, h.only.regs, h.only.log, h.only.lc, h.only.msix, h.only.msixCtl, (fun e => nomatch b11.symm.trans e), h.only.rdata, h.only.rstat, h.only.pipeActive, h.only.hbm, h.only.tile, h.only.host, h.only.engines, h.only.semCycles, h.only.fslots, h.only.fclock, h.only.fwaiting, h.only.pageIns, h.only.fsigs, h.only.transits, h.only.arbs, h.only.replies, h.only.arrived, h.only.mcs, h.only.routers, h.only.meshOut, h.only.ctxs, h.only.queues, h.only.slots, h.only.reloc, h.only.jobs, h.only.jobKey, h.only.copies, h.only.compWaits, h.only.cx, h.only.disps, h.only.pres, h.only.xfers, h.only.placedIn, h.only.lastServed, h.only.passes, h.only.geoTurn, h.only.hostReads, h.only.model, h.only.loading, h.only.monFrame, h.only.failOrder, h.only.mbWait, h.only.mboxes, h.only.mbOrder, h.only.staging, h.only.caps, h.only.capStop, h.only.capFaults, h.only.pipes, h.only.foxKey, h.only.foxCount, h.only.foxChecked, h.only.foxCmd, h.only.power, h.only.hotSwap, h.only.resets, h.only.wide, h.only.perst, h.only.pcieOut, h.only.peony, h.only.flash, h.only.wire⟩⟩

theorem Does.updSentHost {msk : Nat} {s0 s : State} (h : Does msk s0 s) {sent' : List HostMsg} {host' : Mem}
    (b11 : msk.testBit 11 = true) (b17 : msk.testBit 17 = true) (w17 : s.host.wf = true → host'.wf = true) :
    Does msk s0 { s with sent := sent', host := host' } :=
  ⟨⟨h.keeps.pending, fun i => let j := h.keeps.inv i; ⟨j.1, j.2, w17 j.3, j.4, j.5, j.6, j.7, j.8⟩⟩, ⟨h.only.now, h.only.pll, h.only.aclkBase, h.only.aclkFrom, h.only.fresh, h.only.regs, h.only.log, h.only.lc, h.only.msix, h.only.msixCtl, (fun e => nomatch b11.symm.trans e), h.only.rdata, h.only.rstat, h.only.pipeActive, h.only.hbm, h.only.tile, (fun e => nomatch b17.symm.trans e), h.only.engines, h.only.semCycles, h.only.fslots, h.only.fclock, h.only.fwaiting, h.only.pageIns, h.only.fsigs, h.only.transits, h.only.arbs, h.only.replies, h.only.arrived, h.only.mcs, h.only.routers, h.only.meshOut, h.only.ctxs, h.only.queues, h.only.slots, h.only.reloc, h.only.jobs, h.only.jobKey, h.only.copies, h.only.compWaits, h.only.cx, h.only.disps, h.only.pres, h.only.xfers, h.only.placedIn, h.only.lastServed, h.only.passes, h.only.geoTurn, h.only.hostReads, h.only.model, h.only.loading, h.only.monFrame, h.only.failOrder, h.only.mbWait, h.only.mboxes, h.only.mbOrder, h.only.staging, h.only.caps, h.only.capStop, h.only.capFaults, h.only.pipes, h.only.foxKey, h.only.foxCount, h.only.foxChecked, h.only.foxCmd, h.only.power, h.only.hotSwap, h.only.resets, h.only.wide, h.only.perst, h.only.pcieOut, h.only.peony, h.only.flash, h.only.wire⟩⟩

theorem Does.updRdataRstat {msk : Nat} {s0 s : State} (h : Does msk s0 s) {rdata' : List Nat} {rstat' : Nat}
    (b12 : msk.testBit 12 = true) (b13 : msk.testBit 13 = true)  :
    Does msk s0 { s with rdata := rdata', rstat := rstat' } :=
  ⟨⟨h.keeps.pending, fun i => let j := h.keeps.inv i; ⟨j.1, j.2, j.3, j.4, j.5, j.6, j.7, j.8⟩⟩, ⟨h.only.now, h.only.pll, h.only.aclkBase, h.only.aclkFrom, h.only.fresh, h.only.regs, h.only.log, h.only.lc, h.only.msix, h.only.msixCtl, h.only.sent, (fun e => nomatch b12.symm.trans e), (fun e => nomatch b13.symm.trans e), h.only.pipeActive, h.only.hbm, h.only.tile, h.only.host, h.only.engines, h.only.semCycles, h.only.fslots, h.only.fclock, h.only.fwaiting, h.only.pageIns, h.only.fsigs, h.only.transits, h.only.arbs, h.only.replies, h.only.arrived, h.only.mcs, h.only.routers, h.only.meshOut, h.only.ctxs, h.only.queues, h.only.slots, h.only.reloc, h.only.jobs, h.only.jobKey, h.only.copies, h.only.compWaits, h.only.cx, h.only.disps, h.only.pres, h.only.xfers, h.only.placedIn, h.only.lastServed, h.only.passes, h.only.geoTurn, h.only.hostReads, h.only.model, h.only.loading, h.only.monFrame, h.only.failOrder, h.only.mbWait, h.only.mboxes, h.only.mbOrder, h.only.staging, h.only.caps, h.only.capStop, h.only.capFaults, h.only.pipes, h.only.foxKey, h.only.foxCount, h.only.foxChecked, h.only.foxCmd, h.only.power, h.only.hotSwap, h.only.resets, h.only.wide, h.only.perst, h.only.pcieOut, h.only.peony, h.only.flash, h.only.wire⟩⟩

theorem Does.updPipeActive {msk : Nat} {s0 s : State} (h : Does msk s0 s) {pipeActive' : List (Nat × Word)}
    (b14 : msk.testBit 14 = true)  :
    Does msk s0 { s with pipeActive := pipeActive' } :=
  ⟨⟨h.keeps.pending, fun i => let j := h.keeps.inv i; ⟨j.1, j.2, j.3, j.4, j.5, j.6, j.7, j.8⟩⟩, ⟨h.only.now, h.only.pll, h.only.aclkBase, h.only.aclkFrom, h.only.fresh, h.only.regs, h.only.log, h.only.lc, h.only.msix, h.only.msixCtl, h.only.sent, h.only.rdata, h.only.rstat, (fun e => nomatch b14.symm.trans e), h.only.hbm, h.only.tile, h.only.host, h.only.engines, h.only.semCycles, h.only.fslots, h.only.fclock, h.only.fwaiting, h.only.pageIns, h.only.fsigs, h.only.transits, h.only.arbs, h.only.replies, h.only.arrived, h.only.mcs, h.only.routers, h.only.meshOut, h.only.ctxs, h.only.queues, h.only.slots, h.only.reloc, h.only.jobs, h.only.jobKey, h.only.copies, h.only.compWaits, h.only.cx, h.only.disps, h.only.pres, h.only.xfers, h.only.placedIn, h.only.lastServed, h.only.passes, h.only.geoTurn, h.only.hostReads, h.only.model, h.only.loading, h.only.monFrame, h.only.failOrder, h.only.mbWait, h.only.mboxes, h.only.mbOrder, h.only.staging, h.only.caps, h.only.capStop, h.only.capFaults, h.only.pipes, h.only.foxKey, h.only.foxCount, h.only.foxChecked, h.only.foxCmd, h.only.power, h.only.hotSwap, h.only.resets, h.only.wide, h.only.perst, h.only.pcieOut, h.only.peony, h.only.flash, h.only.wire⟩⟩

theorem Does.updHbm {msk : Nat} {s0 s : State} (h : Does msk s0 s) {hbm' : Mem}
    (b15 : msk.testBit 15 = true) (w15 : s.hbm.wf = true → hbm'.wf = true) :
    Does msk s0 { s with hbm := hbm' } :=
  ⟨⟨h.keeps.pending, fun i => let j := h.keeps.inv i; ⟨w15 j.1, j.2, j.3, j.4, j.5, j.6, j.7, j.8⟩⟩, ⟨h.only.now, h.only.pll, h.only.aclkBase, h.only.aclkFrom, h.only.fresh, h.only.regs, h.only.log, h.only.lc, h.only.msix, h.only.msixCtl, h.only.sent, h.only.rdata, h.only.rstat, h.only.pipeActive, (fun e => nomatch b15.symm.trans e), h.only.tile, h.only.host, h.only.engines, h.only.semCycles, h.only.fslots, h.only.fclock, h.only.fwaiting, h.only.pageIns, h.only.fsigs, h.only.transits, h.only.arbs, h.only.replies, h.only.arrived, h.only.mcs, h.only.routers, h.only.meshOut, h.only.ctxs, h.only.queues, h.only.slots, h.only.reloc, h.only.jobs, h.only.jobKey, h.only.copies, h.only.compWaits, h.only.cx, h.only.disps, h.only.pres, h.only.xfers, h.only.placedIn, h.only.lastServed, h.only.passes, h.only.geoTurn, h.only.hostReads, h.only.model, h.only.loading, h.only.monFrame, h.only.failOrder, h.only.mbWait, h.only.mboxes, h.only.mbOrder, h.only.staging, h.only.caps, h.only.capStop, h.only.capFaults, h.only.pipes, h.only.foxKey, h.only.foxCount, h.only.foxChecked, h.only.foxCmd, h.only.power, h.only.hotSwap, h.only.resets, h.only.wide, h.only.perst, h.only.pcieOut, h.only.peony, h.only.flash, h.only.wire⟩⟩

theorem Does.updTile {msk : Nat} {s0 s : State} (h : Does msk s0 s) {tile' : Mem}
    (b16 : msk.testBit 16 = true) (w16 : s.tile.wf = true → tile'.wf = true) :
    Does msk s0 { s with tile := tile' } :=
  ⟨⟨h.keeps.pending, fun i => let j := h.keeps.inv i; ⟨j.1, w16 j.2, j.3, j.4, j.5, j.6, j.7, j.8⟩⟩, ⟨h.only.now, h.only.pll, h.only.aclkBase, h.only.aclkFrom, h.only.fresh, h.only.regs, h.only.log, h.only.lc, h.only.msix, h.only.msixCtl, h.only.sent, h.only.rdata, h.only.rstat, h.only.pipeActive, h.only.hbm, (fun e => nomatch b16.symm.trans e), h.only.host, h.only.engines, h.only.semCycles, h.only.fslots, h.only.fclock, h.only.fwaiting, h.only.pageIns, h.only.fsigs, h.only.transits, h.only.arbs, h.only.replies, h.only.arrived, h.only.mcs, h.only.routers, h.only.meshOut, h.only.ctxs, h.only.queues, h.only.slots, h.only.reloc, h.only.jobs, h.only.jobKey, h.only.copies, h.only.compWaits, h.only.cx, h.only.disps, h.only.pres, h.only.xfers, h.only.placedIn, h.only.lastServed, h.only.passes, h.only.geoTurn, h.only.hostReads, h.only.model, h.only.loading, h.only.monFrame, h.only.failOrder, h.only.mbWait, h.only.mboxes, h.only.mbOrder, h.only.staging, h.only.caps, h.only.capStop, h.only.capFaults, h.only.pipes, h.only.foxKey, h.only.foxCount, h.only.foxChecked, h.only.foxCmd, h.only.power, h.only.hotSwap, h.only.resets, h.only.wide, h.only.perst, h.only.pcieOut, h.only.peony, h.only.flash, h.only.wire⟩⟩

theorem Does.updHost {msk : Nat} {s0 s : State} (h : Does msk s0 s) {host' : Mem}
    (b17 : msk.testBit 17 = true) (w17 : s.host.wf = true → host'.wf = true) :
    Does msk s0 { s with host := host' } :=
  ⟨⟨h.keeps.pending, fun i => let j := h.keeps.inv i; ⟨j.1, j.2, w17 j.3, j.4, j.5, j.6, j.7, j.8⟩⟩, ⟨h.only.now, h.only.pll, h.only.aclkBase, h.only.aclkFrom, h.only.fresh, h.only.regs, h.only.log, h.only.lc, h.only.msix, h.only.msixCtl, h.only.sent, h.only.rdata, h.only.rstat, h.only.pipeActive, h.only.hbm, h.only.tile, (fun e => nomatch b17.symm.trans e), h.only.engines, h.only.semCycles, h.only.fslots, h.only.fclock, h.only.fwaiting, h.only.pageIns, h.only.fsigs, h.only.transits, h.only.arbs, h.only.replies, h.only.arrived, h.only.mcs, h.only.routers, h.only.meshOut, h.only.ctxs, h.only.queues, h.only.slots, h.only.reloc, h.only.jobs, h.only.jobKey, h.only.copies, h.only.compWaits, h.only.cx, h.only.disps, h.only.pres, h.only.xfers, h.only.placedIn, h.only.lastServed, h.only.passes, h.only.geoTurn, h.only.hostReads, h.only.model, h.only.loading, h.only.monFrame, h.only.failOrder, h.only.mbWait, h.only.mboxes, h.only.mbOrder, h.only.staging, h.only.caps, h.only.capStop, h.only.capFaults, h.only.pipes, h.only.foxKey, h.only.foxCount, h.only.foxChecked, h.only.foxCmd, h.only.power, h.only.hotSwap, h.only.resets, h.only.wide, h.only.perst, h.only.pcieOut, h.only.peony, h.only.flash, h.only.wire⟩⟩

theorem Does.updEngines {msk : Nat} {s0 s : State} (h : Does msk s0 s) {engines' : List (Nat × Engine)}
    (b18 : msk.testBit 18 = true)  :
    Does msk s0 { s with engines := engines' } :=
  ⟨⟨h.keeps.pending, fun i => let j := h.keeps.inv i; ⟨j.1, j.2, j.3, j.4, j.5, j.6, j.7, j.8⟩⟩, ⟨h.only.now, h.only.pll, h.only.aclkBase, h.only.aclkFrom, h.only.fresh, h.only.regs, h.only.log, h.only.lc, h.only.msix, h.only.msixCtl, h.only.sent, h.only.rdata, h.only.rstat, h.only.pipeActive, h.only.hbm, h.only.tile, h.only.host, (fun e => nomatch b18.symm.trans e), h.only.semCycles, h.only.fslots, h.only.fclock, h.only.fwaiting, h.only.pageIns, h.only.fsigs, h.only.transits, h.only.arbs, h.only.replies, h.only.arrived, h.only.mcs, h.only.routers, h.only.meshOut, h.only.ctxs, h.only.queues, h.only.slots, h.only.reloc, h.only.jobs, h.only.jobKey, h.only.copies, h.only.compWaits, h.only.cx, h.only.disps, h.only.pres, h.only.xfers, h.only.placedIn, h.only.lastServed, h.only.passes, h.only.geoTurn, h.only.hostReads, h.only.model, h.only.loading, h.only.monFrame, h.only.failOrder, h.only.mbWait, h.only.mboxes, h.only.mbOrder, h.only.staging, h.only.caps, h.only.capStop, h.only.capFaults, h.only.pipes, h.only.foxKey, h.only.foxCount, h.only.foxChecked, h.only.foxCmd, h.only.power, h.only.hotSwap, h.only.resets, h.only.wide, h.only.perst, h.only.pcieOut, h.only.peony, h.only.flash, h.only.wire⟩⟩

theorem Does.updSemCycles {msk : Nat} {s0 s : State} (h : Does msk s0 s) {semCycles' : List SemCycle}
    (b19 : msk.testBit 19 = true)  :
    Does msk s0 { s with semCycles := semCycles' } :=
  ⟨⟨h.keeps.pending, fun i => let j := h.keeps.inv i; ⟨j.1, j.2, j.3, j.4, j.5, j.6, j.7, j.8⟩⟩, ⟨h.only.now, h.only.pll, h.only.aclkBase, h.only.aclkFrom, h.only.fresh, h.only.regs, h.only.log, h.only.lc, h.only.msix, h.only.msixCtl, h.only.sent, h.only.rdata, h.only.rstat, h.only.pipeActive, h.only.hbm, h.only.tile, h.only.host, h.only.engines, (fun e => nomatch b19.symm.trans e), h.only.fslots, h.only.fclock, h.only.fwaiting, h.only.pageIns, h.only.fsigs, h.only.transits, h.only.arbs, h.only.replies, h.only.arrived, h.only.mcs, h.only.routers, h.only.meshOut, h.only.ctxs, h.only.queues, h.only.slots, h.only.reloc, h.only.jobs, h.only.jobKey, h.only.copies, h.only.compWaits, h.only.cx, h.only.disps, h.only.pres, h.only.xfers, h.only.placedIn, h.only.lastServed, h.only.passes, h.only.geoTurn, h.only.hostReads, h.only.model, h.only.loading, h.only.monFrame, h.only.failOrder, h.only.mbWait, h.only.mboxes, h.only.mbOrder, h.only.staging, h.only.caps, h.only.capStop, h.only.capFaults, h.only.pipes, h.only.foxKey, h.only.foxCount, h.only.foxChecked, h.only.foxCmd, h.only.power, h.only.hotSwap, h.only.resets, h.only.wide, h.only.perst, h.only.pcieOut, h.only.peony, h.only.flash, h.only.wire⟩⟩

theorem Does.updFslots {msk : Nat} {s0 s : State} (h : Does msk s0 s) {fslots' : List (Nat × FSlot)}
    (b20 : msk.testBit 20 = true)  :
    Does msk s0 { s with fslots := fslots' } :=
  ⟨⟨h.keeps.pending, fun i => let j := h.keeps.inv i; ⟨j.1, j.2, j.3, j.4, j.5, j.6, j.7, j.8⟩⟩, ⟨h.only.now, h.only.pll, h.only.aclkBase, h.only.aclkFrom, h.only.fresh, h.only.regs, h.only.log, h.only.lc, h.only.msix, h.only.msixCtl, h.only.sent, h.only.rdata, h.only.rstat, h.only.pipeActive, h.only.hbm, h.only.tile, h.only.host, h.only.engines, h.only.semCycles, (fun e => nomatch b20.symm.trans e), h.only.fclock, h.only.fwaiting, h.only.pageIns, h.only.fsigs, h.only.transits, h.only.arbs, h.only.replies, h.only.arrived, h.only.mcs, h.only.routers, h.only.meshOut, h.only.ctxs, h.only.queues, h.only.slots, h.only.reloc, h.only.jobs, h.only.jobKey, h.only.copies, h.only.compWaits, h.only.cx, h.only.disps, h.only.pres, h.only.xfers, h.only.placedIn, h.only.lastServed, h.only.passes, h.only.geoTurn, h.only.hostReads, h.only.model, h.only.loading, h.only.monFrame, h.only.failOrder, h.only.mbWait, h.only.mboxes, h.only.mbOrder, h.only.staging, h.only.caps, h.only.capStop, h.only.capFaults, h.only.pipes, h.only.foxKey, h.only.foxCount, h.only.foxChecked, h.only.foxCmd, h.only.power, h.only.hotSwap, h.only.resets, h.only.wide, h.only.perst, h.only.pcieOut, h.only.peony, h.only.flash, h.only.wire⟩⟩

theorem Does.updFslotsFwaitingPageIns {msk : Nat} {s0 s : State} (h : Does msk s0 s) {fslots' : List (Nat × FSlot)} {fwaiting' : List PageIn} {pageIns' : List PageIn}
    (b20 : msk.testBit 20 = true) (b22 : msk.testBit 22 = true) (b23 : msk.testBit 23 = true)  :
    Does msk s0 { s with fslots := fslots', fwaiting := fwaiting', pageIns := pageIns' } :=
  ⟨⟨h.keeps.pending, fun i => let j := h.keeps.inv i; ⟨j.1, j.2, j.3, j.4, j.5, j.6, j.7, j.8⟩⟩, ⟨h.only.now, h.only.pll, h.only.aclkBase, h.only.aclkFrom, h.only.fresh, h.only.regs, h.only.log, h.only.lc, h.only.msix, h.only.msixCtl, h.only.sent, h.only.rdata, h.only.rstat, h.only.pipeActive, h.only.hbm, h.only.tile, h.only.host, h.only.engines, h.only.semCycles, (fun e => nomatch b20.symm.trans e), h.only.fclock, (fun e => nomatch b22.symm.trans e), (fun e => nomatch b23.symm.trans e), h.only.fsigs, h.only.transits, h.only.arbs, h.only.replies, h.only.arrived, h.only.mcs, h.only.routers, h.only.meshOut, h.only.ctxs, h.only.queues, h.only.slots, h.only.reloc, h.only.jobs, h.only.jobKey, h.only.copies, h.only.compWaits, h.only.cx, h.only.disps, h.only.pres, h.only.xfers, h.only.placedIn, h.only.lastServed, h.only.passes, h.only.geoTurn, h.only.hostReads, h.only.model, h.only.loading, h.only.monFrame, h.only.failOrder, h.only.mbWait, h.only.mboxes, h.only.mbOrder, h.only.staging, h.only.caps, h.only.capStop, h.only.capFaults, h.only.pipes, h.only.foxKey, h.only.foxCount, h.only.foxChecked, h.only.foxCmd, h.only.power, h.only.hotSwap, h.only.resets, h.only.wide, h.only.perst, h.only.pcieOut, h.only.peony, h.only.flash, h.only.wire⟩⟩

theorem Does.updFclock {msk : Nat} {s0 s : State} (h : Does msk s0 s) {fclock' : Nat}
    (b21 : msk.testBit 21 = true)  :
    Does msk s0 { s with fclock := fclock' } :=
  ⟨⟨h.keeps.pending, fun i => let j := h.keeps.inv i; ⟨j.1, j.2, j.3, j.4, j.5, j.6, j.7, j.8⟩⟩, ⟨h.only.now, h.only.pll, h.only.aclkBase, h.only.aclkFrom, h.only.fresh, h.only.regs, h.only.log, h.only.lc, h.only.msix, h.only.msixCtl, h.only.sent, h.only.rdata, h.only.rstat, h.only.pipeActive, h.only.hbm, h.only.tile, h.only.host, h.only.engines, h.only.semCycles, h.only.fslots, (fun e => nomatch b21.symm.trans e), h.only.fwaiting, h.only.pageIns, h.only.fsigs, h.only.transits, h.only.arbs, h.only.replies, h.only.arrived, h.only.mcs, h.only.routers, h.only.meshOut, h.only.ctxs, h.only.queues, h.only.slots, h.only.reloc, h.only.jobs, h.only.jobKey, h.only.copies, h.only.compWaits, h.only.cx, h.only.disps, h.only.pres, h.only.xfers, h.only.placedIn, h.only.lastServed, h.only.passes, h.only.geoTurn, h.only.hostReads, h.only.model, h.only.loading, h.only.monFrame, h.only.failOrder, h.only.mbWait, h.only.mboxes, h.only.mbOrder, h.only.staging, h.only.caps, h.only.capStop, h.only.capFaults, h.only.pipes, h.only.foxKey, h.only.foxCount, h.only.foxChecked, h.only.foxCmd, h.only.power, h.only.hotSwap, h.only.resets, h.only.wide, h.only.perst, h.only.pcieOut, h.only.peony, h.only.flash, h.only.wire⟩⟩

theorem Does.updFwaiting {msk : Nat} {s0 s : State} (h : Does msk s0 s) {fwaiting' : List PageIn}
    (b22 : msk.testBit 22 = true)  :
    Does msk s0 { s with fwaiting := fwaiting' } :=
  ⟨⟨h.keeps.pending, fun i => let j := h.keeps.inv i; ⟨j.1, j.2, j.3, j.4, j.5, j.6, j.7, j.8⟩⟩, ⟨h.only.now, h.only.pll, h.only.aclkBase, h.only.aclkFrom, h.only.fresh, h.only.regs, h.only.log, h.only.lc, h.only.msix, h.only.msixCtl, h.only.sent, h.only.rdata, h.only.rstat, h.only.pipeActive, h.only.hbm, h.only.tile, h.only.host, h.only.engines, h.only.semCycles, h.only.fslots, h.only.fclock, (fun e => nomatch b22.symm.trans e), h.only.pageIns, h.only.fsigs, h.only.transits, h.only.arbs, h.only.replies, h.only.arrived, h.only.mcs, h.only.routers, h.only.meshOut, h.only.ctxs, h.only.queues, h.only.slots, h.only.reloc, h.only.jobs, h.only.jobKey, h.only.copies, h.only.compWaits, h.only.cx, h.only.disps, h.only.pres, h.only.xfers, h.only.placedIn, h.only.lastServed, h.only.passes, h.only.geoTurn, h.only.hostReads, h.only.model, h.only.loading, h.only.monFrame, h.only.failOrder, h.only.mbWait, h.only.mboxes, h.only.mbOrder, h.only.staging, h.only.caps, h.only.capStop, h.only.capFaults, h.only.pipes, h.only.foxKey, h.only.foxCount, h.only.foxChecked, h.only.foxCmd, h.only.power, h.only.hotSwap, h.only.resets, h.only.wide, h.only.perst, h.only.pcieOut, h.only.peony, h.only.flash, h.only.wire⟩⟩

theorem Does.updPageIns {msk : Nat} {s0 s : State} (h : Does msk s0 s) {pageIns' : List PageIn}
    (b23 : msk.testBit 23 = true)  :
    Does msk s0 { s with pageIns := pageIns' } :=
  ⟨⟨h.keeps.pending, fun i => let j := h.keeps.inv i; ⟨j.1, j.2, j.3, j.4, j.5, j.6, j.7, j.8⟩⟩, ⟨h.only.now, h.only.pll, h.only.aclkBase, h.only.aclkFrom, h.only.fresh, h.only.regs, h.only.log, h.only.lc, h.only.msix, h.only.msixCtl, h.only.sent, h.only.rdata, h.only.rstat, h.only.pipeActive, h.only.hbm, h.only.tile, h.only.host, h.only.engines, h.only.semCycles, h.only.fslots, h.only.fclock, h.only.fwaiting, (fun e => nomatch b23.symm.trans e), h.only.fsigs, h.only.transits, h.only.arbs, h.only.replies, h.only.arrived, h.only.mcs, h.only.routers, h.only.meshOut, h.only.ctxs, h.only.queues, h.only.slots, h.only.reloc, h.only.jobs, h.only.jobKey, h.only.copies, h.only.compWaits, h.only.cx, h.only.disps, h.only.pres, h.only.xfers, h.only.placedIn, h.only.lastServed, h.only.passes, h.only.geoTurn, h.only.hostReads, h.only.model, h.only.loading, h.only.monFrame, h.only.failOrder, h.only.mbWait, h.only.mboxes, h.only.mbOrder, h.only.staging, h.only.caps, h.only.capStop, h.only.capFaults, h.only.pipes, h.only.foxKey, h.only.foxCount, h.only.foxChecked, h.only.foxCmd, h.only.power, h.only.hotSwap, h.only.resets, h.only.wide, h.only.perst, h.only.pcieOut, h.only.peony, h.only.flash, h.only.wire⟩⟩

theorem Does.updFsigs {msk : Nat} {s0 s : State} (h : Does msk s0 s) {fsigs' : List FSig}
    (b24 : msk.testBit 24 = true)  :
    Does msk s0 { s with fsigs := fsigs' } :=
  ⟨⟨h.keeps.pending, fun i => let j := h.keeps.inv i; ⟨j.1, j.2, j.3, j.4, j.5, j.6, j.7, j.8⟩⟩, ⟨h.only.now, h.only.pll, h.only.aclkBase, h.only.aclkFrom, h.only.fresh, h.only.regs, h.only.log, h.only.lc, h.only.msix, h.only.msixCtl, h.only.sent, h.only.rdata, h.only.rstat, h.only.pipeActive, h.only.hbm, h.only.tile, h.only.host, h.only.engines, h.only.semCycles, h.only.fslots, h.only.fclock, h.only.fwaiting, h.only.pageIns, (fun e => nomatch b24.symm.trans e), h.only.transits, h.only.arbs, h.only.replies, h.only.arrived, h.only.mcs, h.only.routers, h.only.meshOut, h.only.ctxs, h.only.queues, h.only.slots, h.only.reloc, h.only.jobs, h.only.jobKey, h.only.copies, h.only.compWaits, h.only.cx, h.only.disps, h.only.pres, h.only.xfers, h.only.placedIn, h.only.lastServed, h.only.passes, h.only.geoTurn, h.only.hostReads, h.only.model, h.only.loading, h.only.monFrame, h.only.failOrder, h.only.mbWait, h.only.mboxes, h.only.mbOrder, h.only.staging, h.only.caps, h.only.capStop, h.only.capFaults, h.only.pipes, h.only.foxKey, h.only.foxCount, h.only.foxChecked, h.only.foxCmd, h.only.power, h.only.hotSwap, h.only.resets, h.only.wide, h.only.perst, h.only.pcieOut, h.only.peony, h.only.flash, h.only.wire⟩⟩

theorem Does.updTransits {msk : Nat} {s0 s : State} (h : Does msk s0 s) {transits' : List FSig}
    (b25 : msk.testBit 25 = true)  :
    Does msk s0 { s with transits := transits' } :=
  ⟨⟨h.keeps.pending, fun i => let j := h.keeps.inv i; ⟨j.1, j.2, j.3, j.4, j.5, j.6, j.7, j.8⟩⟩, ⟨h.only.now, h.only.pll, h.only.aclkBase, h.only.aclkFrom, h.only.fresh, h.only.regs, h.only.log, h.only.lc, h.only.msix, h.only.msixCtl, h.only.sent, h.only.rdata, h.only.rstat, h.only.pipeActive, h.only.hbm, h.only.tile, h.only.host, h.only.engines, h.only.semCycles, h.only.fslots, h.only.fclock, h.only.fwaiting, h.only.pageIns, h.only.fsigs, (fun e => nomatch b25.symm.trans e), h.only.arbs, h.only.replies, h.only.arrived, h.only.mcs, h.only.routers, h.only.meshOut, h.only.ctxs, h.only.queues, h.only.slots, h.only.reloc, h.only.jobs, h.only.jobKey, h.only.copies, h.only.compWaits, h.only.cx, h.only.disps, h.only.pres, h.only.xfers, h.only.placedIn, h.only.lastServed, h.only.passes, h.only.geoTurn, h.only.hostReads, h.only.model, h.only.loading, h.only.monFrame, h.only.failOrder, h.only.mbWait, h.only.mboxes, h.only.mbOrder, h.only.staging, h.only.caps, h.only.capStop, h.only.capFaults, h.only.pipes, h.only.foxKey, h.only.foxCount, h.only.foxChecked, h.only.foxCmd, h.only.power, h.only.hotSwap, h.only.resets, h.only.wide, h.only.perst, h.only.pcieOut, h.only.peony, h.only.flash, h.only.wire⟩⟩

theorem Does.updArbs {msk : Nat} {s0 s : State} (h : Does msk s0 s) {arbs' : List (Nat × ArbSt)}
    (b26 : msk.testBit 26 = true)  :
    Does msk s0 { s with arbs := arbs' } :=
  ⟨⟨h.keeps.pending, fun i => let j := h.keeps.inv i; ⟨j.1, j.2, j.3, j.4, j.5, j.6, j.7, j.8⟩⟩, ⟨h.only.now, h.only.pll, h.only.aclkBase, h.only.aclkFrom, h.only.fresh, h.only.regs, h.only.log, h.only.lc, h.only.msix, h.only.msixCtl, h.only.sent, h.only.rdata, h.only.rstat, h.only.pipeActive, h.only.hbm, h.only.tile, h.only.host, h.only.engines, h.only.semCycles, h.only.fslots, h.only.fclock, h.only.fwaiting, h.only.pageIns, h.only.fsigs, h.only.transits, (fun e => nomatch b26.symm.trans e), h.only.replies, h.only.arrived, h.only.mcs, h.only.routers, h.only.meshOut, h.only.ctxs, h.only.queues, h.only.slots, h.only.reloc, h.only.jobs, h.only.jobKey, h.only.copies, h.only.compWaits, h.only.cx, h.only.disps, h.only.pres, h.only.xfers, h.only.placedIn, h.only.lastServed, h.only.passes, h.only.geoTurn, h.only.hostReads, h.only.model, h.only.loading, h.only.monFrame, h.only.failOrder, h.only.mbWait, h.only.mboxes, h.only.mbOrder, h.only.staging, h.only.caps, h.only.capStop, h.only.capFaults, h.only.pipes, h.only.foxKey, h.only.foxCount, h.only.foxChecked, h.only.foxCmd, h.only.power, h.only.hotSwap, h.only.resets, h.only.wide, h.only.perst, h.only.pcieOut, h.only.peony, h.only.flash, h.only.wire⟩⟩

theorem Does.updReplies {msk : Nat} {s0 s : State} (h : Does msk s0 s) {replies' : List Reply}
    (b27 : msk.testBit 27 = true)  :
    Does msk s0 { s with replies := replies' } :=
  ⟨⟨h.keeps.pending, fun i => let j := h.keeps.inv i; ⟨j.1, j.2, j.3, j.4, j.5, j.6, j.7, j.8⟩⟩, ⟨h.only.now, h.only.pll, h.only.aclkBase, h.only.aclkFrom, h.only.fresh, h.only.regs, h.only.log, h.only.lc, h.only.msix, h.only.msixCtl, h.only.sent, h.only.rdata, h.only.rstat, h.only.pipeActive, h.only.hbm, h.only.tile, h.only.host, h.only.engines, h.only.semCycles, h.only.fslots, h.only.fclock, h.only.fwaiting, h.only.pageIns, h.only.fsigs, h.only.transits, h.only.arbs, (fun e => nomatch b27.symm.trans e), h.only.arrived, h.only.mcs, h.only.routers, h.only.meshOut, h.only.ctxs, h.only.queues, h.only.slots, h.only.reloc, h.only.jobs, h.only.jobKey, h.only.copies, h.only.compWaits, h.only.cx, h.only.disps, h.only.pres, h.only.xfers, h.only.placedIn, h.only.lastServed, h.only.passes, h.only.geoTurn, h.only.hostReads, h.only.model, h.only.loading, h.only.monFrame, h.only.failOrder, h.only.mbWait, h.only.mboxes, h.only.mbOrder, h.only.staging, h.only.caps, h.only.capStop, h.only.capFaults, h.only.pipes, h.only.foxKey, h.only.foxCount, h.only.foxChecked, h.only.foxCmd, h.only.power, h.only.hotSwap, h.only.resets, h.only.wide, h.only.perst, h.only.pcieOut, h.only.peony, h.only.flash, h.only.wire⟩⟩

theorem Does.updRepliesArrived {msk : Nat} {s0 s : State} (h : Does msk s0 s) {replies' : List Reply} {arrived' : List Reply}
    (b27 : msk.testBit 27 = true) (b28 : msk.testBit 28 = true)  :
    Does msk s0 { s with replies := replies', arrived := arrived' } :=
  ⟨⟨h.keeps.pending, fun i => let j := h.keeps.inv i; ⟨j.1, j.2, j.3, j.4, j.5, j.6, j.7, j.8⟩⟩, ⟨h.only.now, h.only.pll, h.only.aclkBase, h.only.aclkFrom, h.only.fresh, h.only.regs, h.only.log, h.only.lc, h.only.msix, h.only.msixCtl, h.only.sent, h.only.rdata, h.only.rstat, h.only.pipeActive, h.only.hbm, h.only.tile, h.only.host, h.only.engines, h.only.semCycles, h.only.fslots, h.only.fclock, h.only.fwaiting, h.only.pageIns, h.only.fsigs, h.only.transits, h.only.arbs, (fun e => nomatch b27.symm.trans e), (fun e => nomatch b28.symm.trans e), h.only.mcs, h.only.routers, h.only.meshOut, h.only.ctxs, h.only.queues, h.only.slots, h.only.reloc, h.only.jobs, h.only.jobKey, h.only.copies, h.only.compWaits, h.only.cx, h.only.disps, h.only.pres, h.only.xfers, h.only.placedIn, h.only.lastServed, h.only.passes, h.only.geoTurn, h.only.hostReads, h.only.model, h.only.loading, h.only.monFrame, h.only.failOrder, h.only.mbWait, h.only.mboxes, h.only.mbOrder, h.only.staging, h.only.caps, h.only.capStop, h.only.capFaults, h.only.pipes, h.only.foxKey, h.only.foxCount, h.only.foxChecked, h.only.foxCmd, h.only.power, h.only.hotSwap, h.only.resets, h.only.wide, h.only.perst, h.only.pcieOut, h.only.peony, h.only.flash, h.only.wire⟩⟩

theorem Does.updArrived {msk : Nat} {s0 s : State} (h : Does msk s0 s) {arrived' : List Reply}
    (b28 : msk.testBit 28 = true)  :
    Does msk s0 { s with arrived := arrived' } :=
  ⟨⟨h.keeps.pending, fun i => let j := h.keeps.inv i; ⟨j.1, j.2, j.3, j.4, j.5, j.6, j.7, j.8⟩⟩, ⟨h.only.now, h.only.pll, h.only.aclkBase, h.only.aclkFrom, h.only.fresh, h.only.regs, h.only.log, h.only.lc, h.only.msix, h.only.msixCtl, h.only.sent, h.only.rdata, h.only.rstat, h.only.pipeActive, h.only.hbm, h.only.tile, h.only.host, h.only.engines, h.only.semCycles, h.only.fslots, h.only.fclock, h.only.fwaiting, h.only.pageIns, h.only.fsigs, h.only.transits, h.only.arbs, h.only.replies, (fun e => nomatch b28.symm.trans e), h.only.mcs, h.only.routers, h.only.meshOut, h.only.ctxs, h.only.queues, h.only.slots, h.only.reloc, h.only.jobs, h.only.jobKey, h.only.copies, h.only.compWaits, h.only.cx, h.only.disps, h.only.pres, h.only.xfers, h.only.placedIn, h.only.lastServed, h.only.passes, h.only.geoTurn, h.only.hostReads, h.only.model, h.only.loading, h.only.monFrame, h.only.failOrder, h.only.mbWait, h.only.mboxes, h.only.mbOrder, h.only.staging, h.only.caps, h.only.capStop, h.only.capFaults, h.only.pipes, h.only.foxKey, h.only.foxCount, h.only.foxChecked, h.only.foxCmd, h.only.power, h.only.hotSwap, h.only.resets, h.only.wide, h.only.perst, h.only.pcieOut, h.only.peony, h.only.flash, h.only.wire⟩⟩

theorem Does.updMcs {msk : Nat} {s0 s : State} (h : Does msk s0 s) {mcs' : List (Nat × McSt)}
    (b29 : msk.testBit 29 = true)  :
    Does msk s0 { s with mcs := mcs' } :=
  ⟨⟨h.keeps.pending, fun i => let j := h.keeps.inv i; ⟨j.1, j.2, j.3, j.4, j.5, j.6, j.7, j.8⟩⟩, ⟨h.only.now, h.only.pll, h.only.aclkBase, h.only.aclkFrom, h.only.fresh, h.only.regs, h.only.log, h.only.lc, h.only.msix, h.only.msixCtl, h.only.sent, h.only.rdata, h.only.rstat, h.only.pipeActive, h.only.hbm, h.only.tile, h.only.host, h.only.engines, h.only.semCycles, h.only.fslots, h.only.fclock, h.only.fwaiting, h.only.pageIns, h.only.fsigs, h.only.transits, h.only.arbs, h.only.replies, h.only.arrived, (fun e => nomatch b29.symm.trans e), h.only.routers, h.only.meshOut, h.only.ctxs, h.only.queues, h.only.slots, h.only.reloc, h.only.jobs, h.only.jobKey, h.only.copies, h.only.compWaits, h.only.cx, h.only.disps, h.only.pres, h.only.xfers, h.only.placedIn, h.only.lastServed, h.only.passes, h.only.geoTurn, h.only.hostReads, h.only.model, h.only.loading, h.only.monFrame, h.only.failOrder, h.only.mbWait, h.only.mboxes, h.only.mbOrder, h.only.staging, h.only.caps, h.only.capStop, h.only.capFaults, h.only.pipes, h.only.foxKey, h.only.foxCount, h.only.foxChecked, h.only.foxCmd, h.only.power, h.only.hotSwap, h.only.resets, h.only.wide, h.only.perst, h.only.pcieOut, h.only.peony, h.only.flash, h.only.wire⟩⟩

theorem Does.updRouters {msk : Nat} {s0 s : State} (h : Does msk s0 s) {routers' : List (Nat × Router)}
    (b30 : msk.testBit 30 = true)  :
    Does msk s0 { s with routers := routers' } :=
  ⟨⟨h.keeps.pending, fun i => let j := h.keeps.inv i; ⟨j.1, j.2, j.3, j.4, j.5, j.6, j.7, j.8⟩⟩, ⟨h.only.now, h.only.pll, h.only.aclkBase, h.only.aclkFrom, h.only.fresh, h.only.regs, h.only.log, h.only.lc, h.only.msix, h.only.msixCtl, h.only.sent, h.only.rdata, h.only.rstat, h.only.pipeActive, h.only.hbm, h.only.tile, h.only.host, h.only.engines, h.only.semCycles, h.only.fslots, h.only.fclock, h.only.fwaiting, h.only.pageIns, h.only.fsigs, h.only.transits, h.only.arbs, h.only.replies, h.only.arrived, h.only.mcs, (fun e => nomatch b30.symm.trans e), h.only.meshOut, h.only.ctxs, h.only.queues, h.only.slots, h.only.reloc, h.only.jobs, h.only.jobKey, h.only.copies, h.only.compWaits, h.only.cx, h.only.disps, h.only.pres, h.only.xfers, h.only.placedIn, h.only.lastServed, h.only.passes, h.only.geoTurn, h.only.hostReads, h.only.model, h.only.loading, h.only.monFrame, h.only.failOrder, h.only.mbWait, h.only.mboxes, h.only.mbOrder, h.only.staging, h.only.caps, h.only.capStop, h.only.capFaults, h.only.pipes, h.only.foxKey, h.only.foxCount, h.only.foxChecked, h.only.foxCmd, h.only.power, h.only.hotSwap, h.only.resets, h.only.wide, h.only.perst, h.only.pcieOut, h.only.peony, h.only.flash, h.only.wire⟩⟩

theorem Does.updMeshOut {msk : Nat} {s0 s : State} (h : Does msk s0 s) {meshOut' : List MeshPkt}
    (b31 : msk.testBit 31 = true)  :
    Does msk s0 { s with meshOut := meshOut' } :=
  ⟨⟨h.keeps.pending, fun i => let j := h.keeps.inv i; ⟨j.1, j.2, j.3, j.4, j.5, j.6, j.7, j.8⟩⟩, ⟨h.only.now, h.only.pll, h.only.aclkBase, h.only.aclkFrom, h.only.fresh, h.only.regs, h.only.log, h.only.lc, h.only.msix, h.only.msixCtl, h.only.sent, h.only.rdata, h.only.rstat, h.only.pipeActive, h.only.hbm, h.only.tile, h.only.host, h.only.engines, h.only.semCycles, h.only.fslots, h.only.fclock, h.only.fwaiting, h.only.pageIns, h.only.fsigs, h.only.transits, h.only.arbs, h.only.replies, h.only.arrived, h.only.mcs, h.only.routers, (fun e => nomatch b31.symm.trans e), h.only.ctxs, h.only.queues, h.only.slots, h.only.reloc, h.only.jobs, h.only.jobKey, h.only.copies, h.only.compWaits, h.only.cx, h.only.disps, h.only.pres, h.only.xfers, h.only.placedIn, h.only.lastServed, h.only.passes, h.only.geoTurn, h.only.hostReads, h.only.model, h.only.loading, h.only.monFrame, h.only.failOrder, h.only.mbWait, h.only.mboxes, h.only.mbOrder, h.only.staging, h.only.caps, h.only.capStop, h.only.capFaults, h.only.pipes, h.only.foxKey, h.only.foxCount, h.only.foxChecked, h.only.foxCmd, h.only.power, h.only.hotSwap, h.only.resets, h.only.wide, h.only.perst, h.only.pcieOut, h.only.peony, h.only.flash, h.only.wire⟩⟩

theorem Does.updCtxs {msk : Nat} {s0 s : State} (h : Does msk s0 s) {ctxs' : List (Nat × Ctx)}
    (b32 : msk.testBit 32 = true)  :
    Does msk s0 { s with ctxs := ctxs' } :=
  ⟨⟨h.keeps.pending, fun i => let j := h.keeps.inv i; ⟨j.1, j.2, j.3, j.4, j.5, j.6, j.7, j.8⟩⟩, ⟨h.only.now, h.only.pll, h.only.aclkBase, h.only.aclkFrom, h.only.fresh, h.only.regs, h.only.log, h.only.lc, h.only.msix, h.only.msixCtl, h.only.sent, h.only.rdata, h.only.rstat, h.only.pipeActive, h.only.hbm, h.only.tile, h.only.host, h.only.engines, h.only.semCycles, h.only.fslots, h.only.fclock, h.only.fwaiting, h.only.pageIns, h.only.fsigs, h.only.transits, h.only.arbs, h.only.replies, h.only.arrived, h.only.mcs, h.only.routers, h.only.meshOut, (fun e => nomatch b32.symm.trans e), h.only.queues, h.only.slots, h.only.reloc, h.only.jobs, h.only.jobKey, h.only.copies, h.only.compWaits, h.only.cx, h.only.disps, h.only.pres, h.only.xfers, h.only.placedIn, h.only.lastServed, h.only.passes, h.only.geoTurn, h.only.hostReads, h.only.model, h.only.loading, h.only.monFrame, h.only.failOrder, h.only.mbWait, h.only.mboxes, h.only.mbOrder, h.only.staging, h.only.caps, h.only.capStop, h.only.capFaults, h.only.pipes, h.only.foxKey, h.only.foxCount, h.only.foxChecked, h.only.foxCmd, h.only.power, h.only.hotSwap, h.only.resets, h.only.wide, h.only.perst, h.only.pcieOut, h.only.peony, h.only.flash, h.only.wire⟩⟩

theorem Does.updCtxsReloc {msk : Nat} {s0 s : State} (h : Does msk s0 s) {ctxs' : List (Nat × Ctx)} {reloc' : List (Nat × Nat × List Nat)}
    (b32 : msk.testBit 32 = true) (b35 : msk.testBit 35 = true)  :
    Does msk s0 { s with ctxs := ctxs', reloc := reloc' } :=
  ⟨⟨h.keeps.pending, fun i => let j := h.keeps.inv i; ⟨j.1, j.2, j.3, j.4, j.5, j.6, j.7, j.8⟩⟩, ⟨h.only.now, h.only.pll, h.only.aclkBase, h.only.aclkFrom, h.only.fresh, h.only.regs, h.only.log, h.only.lc, h.only.msix, h.only.msixCtl, h.only.sent, h.only.rdata, h.only.rstat, h.only.pipeActive, h.only.hbm, h.only.tile, h.only.host, h.only.engines, h.only.semCycles, h.only.fslots, h.only.fclock, h.only.fwaiting, h.only.pageIns, h.only.fsigs, h.only.transits, h.only.arbs, h.only.replies, h.only.arrived, h.only.mcs, h.only.routers, h.only.meshOut, (fun e => nomatch b32.symm.trans e), h.only.queues, h.only.slots, (fun e => nomatch b35.symm.trans e), h.only.jobs, h.only.jobKey, h.only.copies, h.only.compWaits, h.only.cx, h.only.disps, h.only.pres, h.only.xfers, h.only.placedIn, h.only.lastServed, h.only.passes, h.only.geoTurn, h.only.hostReads, h.only.model, h.only.loading, h.only.monFrame, h.only.failOrder, h.only.mbWait, h.only.mboxes, h.only.mbOrder, h.only.staging, h.only.caps, h.only.capStop, h.only.capFaults, h.only.pipes, h.only.foxKey, h.only.foxCount, h.only.foxChecked, h.only.foxCmd, h.only.power, h.only.hotSwap, h.only.resets, h.only.wide, h.only.perst, h.only.pcieOut, h.only.peony, h.only.flash, h.only.wire⟩⟩

theorem Does.updQueues {msk : Nat} {s0 s : State} (h : Does msk s0 s) {queues' : List (Nat × Queue)}
    (b33 : msk.testBit 33 = true)  :
    Does msk s0 { s with queues := queues' } :=
  ⟨⟨h.keeps.pending, fun i => let j := h.keeps.inv i; ⟨j.1, j.2, j.3, j.4, j.5, j.6, j.7, j.8⟩⟩, ⟨h.only.now, h.only.pll, h.only.aclkBase, h.only.aclkFrom, h.only.fresh, h.only.regs, h.only.log, h.only.lc, h.only.msix, h.only.msixCtl, h.only.sent, h.only.rdata, h.only.rstat, h.only.pipeActive, h.only.hbm, h.only.tile, h.only.host, h.only.engines, h.only.semCycles, h.only.fslots, h.only.fclock, h.only.fwaiting, h.only.pageIns, h.only.fsigs, h.only.transits, h.only.arbs, h.only.replies, h.only.arrived, h.only.mcs, h.only.routers, h.only.meshOut, h.only.ctxs, (fun e => nomatch b33.symm.trans e), h.only.slots, h.only.reloc, h.only.jobs, h.only.jobKey, h.only.copies, h.only.compWaits, h.only.cx, h.only.disps, h.only.pres, h.only.xfers, h.only.placedIn, h.only.lastServed, h.only.passes, h.only.geoTurn, h.only.hostReads, h.only.model, h.only.loading, h.only.monFrame, h.only.failOrder, h.only.mbWait, h.only.mboxes, h.only.mbOrder, h.only.staging, h.only.caps, h.only.capStop, h.only.capFaults, h.only.pipes, h.only.foxKey, h.only.foxCount, h.only.foxChecked, h.only.foxCmd, h.only.power, h.only.hotSwap, h.only.resets, h.only.wide, h.only.perst, h.only.pcieOut, h.only.peony, h.only.flash, h.only.wire⟩⟩

theorem Does.updQueuesLoadingMbOrderPowerResets {msk : Nat} {s0 s : State} (h : Does msk s0 s) {queues' : List (Nat × Queue)} {loading' : Option (Nat × Model)} {mbOrder' : List Nat} {power' : Power} {resets' : List PReset}
    (b33 : msk.testBit 33 = true) (b50 : msk.testBit 50 = true) (b55 : msk.testBit 55 = true) (b65 : msk.testBit 65 = true) (b67 : msk.testBit 67 = true)  :
    Does msk s0 { s with queues := queues', loading := loading', mbOrder := mbOrder', power := power', resets := resets' } :=
  ⟨⟨h.keeps.pending, fun i => let j := h.keeps.inv i; ⟨j.1, j.2, j.3, j.4, j.5, j.6, j.7, j.8⟩⟩, ⟨h.only.now, h.only.pll, h.only.aclkBase, h.only.aclkFrom, h.only.fresh, h.only.regs, h.only.log, h.only.lc, h.only.msix, h.only.msixCtl, h.only.sent, h.only.rdata, h.only.rstat, h.only.pipeActive, h.only.hbm, h.only.tile, h.only.host, h.only.engines, h.only.semCycles, h.only.fslots, h.only.fclock, h.only.fwaiting, h.only.pageIns, h.only.fsigs, h.only.transits, h.only.arbs, h.only.replies, h.only.arrived, h.only.mcs, h.only.routers, h.only.meshOut, h.only.ctxs, (fun e => nomatch b33.symm.trans e), h.only.slots, h.only.reloc, h.only.jobs, h.only.jobKey, h.only.copies, h.only.compWaits, h.only.cx, h.only.disps, h.only.pres, h.only.xfers, h.only.placedIn, h.only.lastServed, h.only.passes, h.only.geoTurn, h.only.hostReads, h.only.model, (fun e => nomatch b50.symm.trans e), h.only.monFrame, h.only.failOrder, h.only.mbWait, h.only.mboxes, (fun e => nomatch b55.symm.trans e), h.only.staging, h.only.caps, h.only.capStop, h.only.capFaults, h.only.pipes, h.only.foxKey, h.only.foxCount, h.only.foxChecked, h.only.foxCmd, (fun e => nomatch b65.symm.trans e), h.only.hotSwap, (fun e => nomatch b67.symm.trans e), h.only.wide, h.only.perst, h.only.pcieOut, h.only.peony, h.only.flash, h.only.wire⟩⟩

theorem Does.updSlots {msk : Nat} {s0 s : State} (h : Does msk s0 s) {slots' : List (Nat × SlotSt)}
    (b34 : msk.testBit 34 = true)  :
    Does msk s0 { s with slots := slots' } :=
  ⟨⟨h.keeps.pending, fun i => let j := h.keeps.inv i; ⟨j.1, j.2, j.3, j.4, j.5, j.6, j.7, j.8⟩⟩, ⟨h.only.now, h.only.pll, h.only.aclkBase, h.only.aclkFrom, h.only.fresh, h.only.regs, h.only.log, h.only.lc, h.only.msix, h.only.msixCtl, h.only.sent, h.only.rdata, h.only.rstat, h.only.pipeActive, h.only.hbm, h.only.tile, h.only.host, h.only.engines, h.only.semCycles, h.only.fslots, h.only.fclock, h.only.fwaiting, h.only.pageIns, h.only.fsigs, h.only.transits, h.only.arbs, h.only.replies, h.only.arrived, h.only.mcs, h.only.routers, h.only.meshOut, h.only.ctxs, h.only.queues, (fun e => nomatch b34.symm.trans e), h.only.reloc, h.only.jobs, h.only.jobKey, h.only.copies, h.only.compWaits, h.only.cx, h.only.disps, h.only.pres, h.only.xfers, h.only.placedIn, h.only.lastServed, h.only.passes, h.only.geoTurn, h.only.hostReads, h.only.model, h.only.loading, h.only.monFrame, h.only.failOrder, h.only.mbWait, h.only.mboxes, h.only.mbOrder, h.only.staging, h.only.caps, h.only.capStop, h.only.capFaults, h.only.pipes, h.only.foxKey, h.only.foxCount, h.only.foxChecked, h.only.foxCmd, h.only.power, h.only.hotSwap, h.only.resets, h.only.wide, h.only.perst, h.only.pcieOut, h.only.peony, h.only.flash, h.only.wire⟩⟩

theorem Does.updSlotsJobs {msk : Nat} {s0 s : State} (h : Does msk s0 s) {slots' : List (Nat × SlotSt)} {jobs' : List Job}
    (b34 : msk.testBit 34 = true) (b36 : msk.testBit 36 = true)  :
    Does msk s0 { s with slots := slots', jobs := jobs' } :=
  ⟨⟨h.keeps.pending, fun i => let j := h.keeps.inv i; ⟨j.1, j.2, j.3, j.4, j.5, j.6, j.7, j.8⟩⟩, ⟨h.only.now, h.only.pll, h.only.aclkBase, h.only.aclkFrom, h.only.fresh, h.only.regs, h.only.log, h.only.lc, h.only.msix, h.only.msixCtl, h.only.sent, h.only.rdata, h.only.rstat, h.only.pipeActive, h.only.hbm, h.only.tile, h.only.host, h.only.engines, h.only.semCycles, h.only.fslots, h.only.fclock, h.only.fwaiting, h.only.pageIns, h.only.fsigs, h.only.transits, h.only.arbs, h.only.replies, h.only.arrived, h.only.mcs, h.only.routers, h.only.meshOut, h.only.ctxs, h.only.queues, (fun e => nomatch b34.symm.trans e), h.only.reloc, (fun e => nomatch b36.symm.trans e), h.only.jobKey, h.only.copies, h.only.compWaits, h.only.cx, h.only.disps, h.only.pres, h.only.xfers, h.only.placedIn, h.only.lastServed, h.only.passes, h.only.geoTurn, h.only.hostReads, h.only.model, h.only.loading, h.only.monFrame, h.only.failOrder, h.only.mbWait, h.only.mboxes, h.only.mbOrder, h.only.staging, h.only.caps, h.only.capStop, h.only.capFaults, h.only.pipes, h.only.foxKey, h.only.foxCount, h.only.foxChecked, h.only.foxCmd, h.only.power, h.only.hotSwap, h.only.resets, h.only.wide, h.only.perst, h.only.pcieOut, h.only.peony, h.only.flash, h.only.wire⟩⟩

theorem Does.updReloc {msk : Nat} {s0 s : State} (h : Does msk s0 s) {reloc' : List (Nat × Nat × List Nat)}
    (b35 : msk.testBit 35 = true)  :
    Does msk s0 { s with reloc := reloc' } :=
  ⟨⟨h.keeps.pending, fun i => let j := h.keeps.inv i; ⟨j.1, j.2, j.3, j.4, j.5, j.6, j.7, j.8⟩⟩, ⟨h.only.now, h.only.pll, h.only.aclkBase, h.only.aclkFrom, h.only.fresh, h.only.regs, h.only.log, h.only.lc, h.only.msix, h.only.msixCtl, h.only.sent, h.only.rdata, h.only.rstat, h.only.pipeActive, h.only.hbm, h.only.tile, h.only.host, h.only.engines, h.only.semCycles, h.only.fslots, h.only.fclock, h.only.fwaiting, h.only.pageIns, h.only.fsigs, h.only.transits, h.only.arbs, h.only.replies, h.only.arrived, h.only.mcs, h.only.routers, h.only.meshOut, h.only.ctxs, h.only.queues, h.only.slots, (fun e => nomatch b35.symm.trans e), h.only.jobs, h.only.jobKey, h.only.copies, h.only.compWaits, h.only.cx, h.only.disps, h.only.pres, h.only.xfers, h.only.placedIn, h.only.lastServed, h.only.passes, h.only.geoTurn, h.only.hostReads, h.only.model, h.only.loading, h.only.monFrame, h.only.failOrder, h.only.mbWait, h.only.mboxes, h.only.mbOrder, h.only.staging, h.only.caps, h.only.capStop, h.only.capFaults, h.only.pipes, h.only.foxKey, h.only.foxCount, h.only.foxChecked, h.only.foxCmd, h.only.power, h.only.hotSwap, h.only.resets, h.only.wide, h.only.perst, h.only.pcieOut, h.only.peony, h.only.flash, h.only.wire⟩⟩

theorem Does.updJobs {msk : Nat} {s0 s : State} (h : Does msk s0 s) {jobs' : List Job}
    (b36 : msk.testBit 36 = true)  :
    Does msk s0 { s with jobs := jobs' } :=
  ⟨⟨h.keeps.pending, fun i => let j := h.keeps.inv i; ⟨j.1, j.2, j.3, j.4, j.5, j.6, j.7, j.8⟩⟩, ⟨h.only.now, h.only.pll, h.only.aclkBase, h.only.aclkFrom, h.only.fresh, h.only.regs, h.only.log, h.only.lc, h.only.msix, h.only.msixCtl, h.only.sent, h.only.rdata, h.only.rstat, h.only.pipeActive, h.only.hbm, h.only.tile, h.only.host, h.only.engines, h.only.semCycles, h.only.fslots, h.only.fclock, h.only.fwaiting, h.only.pageIns, h.only.fsigs, h.only.transits, h.only.arbs, h.only.replies, h.only.arrived, h.only.mcs, h.only.routers, h.only.meshOut, h.only.ctxs, h.only.queues, h.only.slots, h.only.reloc, (fun e => nomatch b36.symm.trans e), h.only.jobKey, h.only.copies, h.only.compWaits, h.only.cx, h.only.disps, h.only.pres, h.only.xfers, h.only.placedIn, h.only.lastServed, h.only.passes, h.only.geoTurn, h.only.hostReads, h.only.model, h.only.loading, h.only.monFrame, h.only.failOrder, h.only.mbWait, h.only.mboxes, h.only.mbOrder, h.only.staging, h.only.caps, h.only.capStop, h.only.capFaults, h.only.pipes, h.only.foxKey, h.only.foxCount, h.only.foxChecked, h.only.foxCmd, h.only.power, h.only.hotSwap, h.only.resets, h.only.wide, h.only.perst, h.only.pcieOut, h.only.peony, h.only.flash, h.only.wire⟩⟩

theorem Does.updJobsJobKey {msk : Nat} {s0 s : State} (h : Does msk s0 s) {jobs' : List Job} {jobKey' : Nat}
    (b36 : msk.testBit 36 = true) (b37 : msk.testBit 37 = true)  :
    Does msk s0 { s with jobs := jobs', jobKey := jobKey' } :=
  ⟨⟨h.keeps.pending, fun i => let j := h.keeps.inv i; ⟨j.1, j.2, j.3, j.4, j.5, j.6, j.7, j.8⟩⟩, ⟨h.only.now, h.only.pll, h.only.aclkBase, h.only.aclkFrom, h.only.fresh, h.only.regs, h.only.log, h.only.lc, h.only.msix, h.only.msixCtl, h.only.sent, h.only.rdata, h.only.rstat, h.only.pipeActive, h.only.hbm, h.only.tile, h.only.host, h.only.engines, h.only.semCycles, h.only.fslots, h.only.fclock, h.only.fwaiting, h.only.pageIns, h.only.fsigs, h.only.transits, h.only.arbs, h.only.replies, h.only.arrived, h.only.mcs, h.only.routers, h.only.meshOut, h.only.ctxs, h.only.queues, h.only.slots, h.only.reloc, (fun e => nomatch b36.symm.trans e), (fun e => nomatch b37.symm.trans e), h.only.copies, h.only.compWaits, h.only.cx, h.only.disps, h.only.pres, h.only.xfers, h.only.placedIn, h.only.lastServed, h.only.passes, h.only.geoTurn, h.only.hostReads, h.only.model, h.only.loading, h.only.monFrame, h.only.failOrder, h.only.mbWait, h.only.mboxes, h.only.mbOrder, h.only.staging, h.only.caps, h.only.capStop, h.only.capFaults, h.only.pipes, h.only.foxKey, h.only.foxCount, h.only.foxChecked, h.only.foxCmd, h.only.power, h.only.hotSwap, h.only.resets, h.only.wide, h.only.perst, h.only.pcieOut, h.only.peony, h.only.flash, h.only.wire⟩⟩

theorem Does.updCopies {msk : Nat} {s0 s : State} (h : Does msk s0 s) {copies' : List CopyJob}
    (b38 : msk.testBit 38 = true)  :
    Does msk s0 { s with copies := copies' } :=
  ⟨⟨h.keeps.pending, fun i => let j := h.keeps.inv i; ⟨j.1, j.2, j.3, j.4, j.5, j.6, j.7, j.8⟩⟩, ⟨h.only.now, h.only.pll, h.only.aclkBase, h.only.aclkFrom, h.only.fresh, h.only.regs, h.only.log, h.only.lc, h.only.msix, h.only.msixCtl, h.only.sent, h.only.rdata, h.only.rstat, h.only.pipeActive, h.only.hbm, h.only.tile, h.only.host, h.only.engines, h.only.semCycles, h.only.fslots, h.only.fclock, h.only.fwaiting, h.only.pageIns, h.only.fsigs, h.only.transits, h.only.arbs, h.only.replies, h.only.arrived, h.only.mcs, h.only.routers, h.only.meshOut, h.only.ctxs, h.only.queues, h.only.slots, h.only.reloc, h.only.jobs, h.only.jobKey, (fun e => nomatch b38.symm.trans e), h.only.compWaits, h.only.cx, h.only.disps, h.only.pres, h.only.xfers, h.only.placedIn, h.only.lastServed, h.only.passes, h.only.geoTurn, h.only.hostReads, h.only.model, h.only.loading, h.only.monFrame, h.only.failOrder, h.only.mbWait, h.only.mboxes, h.only.mbOrder, h.only.staging, h.only.caps, h.only.capStop, h.only.capFaults, h.only.pipes, h.only.foxKey, h.only.foxCount, h.only.foxChecked, h.only.foxCmd, h.only.power, h.only.hotSwap, h.only.resets, h.only.wide, h.only.perst, h.only.pcieOut, h.only.peony, h.only.flash, h.only.wire⟩⟩

theorem Does.updCopiesCompWaitsDispsPresXfers {msk : Nat} {s0 s : State} (h : Does msk s0 s) {copies' : List CopyJob} {compWaits' : List CompWait} {disps' : List Disp} {pres' : List Pre} {xfers' : List Xfer}
    (b38 : msk.testBit 38 = true) (b39 : msk.testBit 39 = true) (b41 : msk.testBit 41 = true) (b42 : msk.testBit 42 = true) (b43 : msk.testBit 43 = true)  :
    Does msk s0 { s with copies := copies', compWaits := compWaits', disps := disps', pres := pres', xfers := xfers' } :=
  ⟨⟨h.keeps.pending, fun i => let j := h.keeps.inv i; ⟨j.1, j.2, j.3, j.4, j.5, j.6, j.7, j.8⟩⟩, ⟨h.only.now, h.only.pll, h.only.aclkBase, h.only.aclkFrom, h.only.fresh, h.only.regs, h.only.log, h.only.lc, h.only.msix, h.only.msixCtl, h.only.sent, h.only.rdata, h.only.rstat, h.only.pipeActive, h.only.hbm, h.only.tile, h.only.host, h.only.engines, h.only.semCycles, h.only.fslots, h.only.fclock, h.only.fwaiting, h.only.pageIns, h.only.fsigs, h.only.transits, h.only.arbs, h.only.replies, h.only.arrived, h.only.mcs, h.only.routers, h.only.meshOut, h.only.ctxs, h.only.queues, h.only.slots, h.only.reloc, h.only.jobs, h.only.jobKey, (fun e => nomatch b38.symm.trans e), (fun e => nomatch b39.symm.trans e), h.only.cx, (fun e => nomatch b41.symm.trans e), (fun e => nomatch b42.symm.trans e), (fun e => nomatch b43.symm.trans e), h.only.placedIn, h.only.lastServed, h.only.passes, h.only.geoTurn, h.only.hostReads, h.only.model, h.only.loading, h.only.monFrame, h.only.failOrder, h.only.mbWait, h.only.mboxes, h.only.mbOrder, h.only.staging, h.only.caps, h.only.capStop, h.only.capFaults, h.only.pipes, h.only.foxKey, h.only.foxCount, h.only.foxChecked, h.only.foxCmd, h.only.power, h.only.hotSwap, h.only.resets, h.only.wide, h.only.perst, h.only.pcieOut, h.only.peony, h.only.flash, h.only.wire⟩⟩

theorem Does.updCompWaits {msk : Nat} {s0 s : State} (h : Does msk s0 s) {compWaits' : List CompWait}
    (b39 : msk.testBit 39 = true)  :
    Does msk s0 { s with compWaits := compWaits' } :=
  ⟨⟨h.keeps.pending, fun i => let j := h.keeps.inv i; ⟨j.1, j.2, j.3, j.4, j.5, j.6, j.7, j.8⟩⟩, ⟨h.only.now, h.only.pll, h.only.aclkBase, h.only.aclkFrom, h.only.fresh, h.only.regs, h.only.log, h.only.lc, h.only.msix, h.only.msixCtl, h.only.sent, h.only.rdata, h.only.rstat, h.only.pipeActive, h.only.hbm, h.only.tile, h.only.host, h.only.engines, h.only.semCycles, h.only.fslots, h.only.fclock, h.only.fwaiting, h.only.pageIns, h.only.fsigs, h.only.transits, h.only.arbs, h.only.replies, h.only.arrived, h.only.mcs, h.only.routers, h.only.meshOut, h.only.ctxs, h.only.queues, h.only.slots, h.only.reloc, h.only.jobs, h.only.jobKey, h.only.copies, (fun e => nomatch b39.symm.trans e), h.only.cx, h.only.disps, h.only.pres, h.only.xfers, h.only.placedIn, h.only.lastServed, h.only.passes, h.only.geoTurn, h.only.hostReads, h.only.model, h.only.loading, h.only.monFrame, h.only.failOrder, h.only.mbWait, h.only.mboxes, h.only.mbOrder, h.only.staging, h.only.caps, h.only.capStop, h.only.capFaults, h.only.pipes, h.only.foxKey, h.only.foxCount, h.only.foxChecked, h.only.foxCmd, h.only.power, h.only.hotSwap, h.only.resets, h.only.wide, h.only.perst, h.only.pcieOut, h.only.peony, h.only.flash, h.only.wire⟩⟩

theorem Does.updCx {msk : Nat} {s0 s : State} (h : Does msk s0 s) {cx' : List (Nat × CxSt)}
    (b40 : msk.testBit 40 = true)  :
    Does msk s0 { s with cx := cx' } :=
  ⟨⟨h.keeps.pending, fun i => let j := h.keeps.inv i; ⟨j.1, j.2, j.3, j.4, j.5, j.6, j.7, j.8⟩⟩, ⟨h.only.now, h.only.pll, h.only.aclkBase, h.only.aclkFrom, h.only.fresh, h.only.regs, h.only.log, h.only.lc, h.only.msix, h.only.msixCtl, h.only.sent, h.only.rdata, h.only.rstat, h.only.pipeActive, h.only.hbm, h.only.tile, h.only.host, h.only.engines, h.only.semCycles, h.only.fslots, h.only.fclock, h.only.fwaiting, h.only.pageIns, h.only.fsigs, h.only.transits, h.only.arbs, h.only.replies, h.only.arrived, h.only.mcs, h.only.routers, h.only.meshOut, h.only.ctxs, h.only.queues, h.only.slots, h.only.reloc, h.only.jobs, h.only.jobKey, h.only.copies, h.only.compWaits, (fun e => nomatch b40.symm.trans e), h.only.disps, h.only.pres, h.only.xfers, h.only.placedIn, h.only.lastServed, h.only.passes, h.only.geoTurn, h.only.hostReads, h.only.model, h.only.loading, h.only.monFrame, h.only.failOrder, h.only.mbWait, h.only.mboxes, h.only.mbOrder, h.only.staging, h.only.caps, h.only.capStop, h.only.capFaults, h.only.pipes, h.only.foxKey, h.only.foxCount, h.only.foxChecked, h.only.foxCmd, h.only.power, h.only.hotSwap, h.only.resets, h.only.wide, h.only.perst, h.only.pcieOut, h.only.peony, h.only.flash, h.only.wire⟩⟩

theorem Does.updDisps {msk : Nat} {s0 s : State} (h : Does msk s0 s) {disps' : List Disp}
    (b41 : msk.testBit 41 = true)  :
    Does msk s0 { s with disps := disps' } :=
  ⟨⟨h.keeps.pending, fun i => let j := h.keeps.inv i; ⟨j.1, j.2, j.3, j.4, j.5, j.6, j.7, j.8⟩⟩, ⟨h.only.now, h.only.pll, h.only.aclkBase, h.only.aclkFrom, h.only.fresh, h.only.regs, h.only.log, h.only.lc, h.only.msix, h.only.msixCtl, h.only.sent, h.only.rdata, h.only.rstat, h.only.pipeActive, h.only.hbm, h.only.tile, h.only.host, h.only.engines, h.only.semCycles, h.only.fslots, h.only.fclock, h.only.fwaiting, h.only.pageIns, h.only.fsigs, h.only.transits, h.only.arbs, h.only.replies, h.only.arrived, h.only.mcs, h.only.routers, h.only.meshOut, h.only.ctxs, h.only.queues, h.only.slots, h.only.reloc, h.only.jobs, h.only.jobKey, h.only.copies, h.only.compWaits, h.only.cx, (fun e => nomatch b41.symm.trans e), h.only.pres, h.only.xfers, h.only.placedIn, h.only.lastServed, h.only.passes, h.only.geoTurn, h.only.hostReads, h.only.model, h.only.loading, h.only.monFrame, h.only.failOrder, h.only.mbWait, h.only.mboxes, h.only.mbOrder, h.only.staging, h.only.caps, h.only.capStop, h.only.capFaults, h.only.pipes, h.only.foxKey, h.only.foxCount, h.only.foxChecked, h.only.foxCmd, h.only.power, h.only.hotSwap, h.only.resets, h.only.wide, h.only.perst, h.only.pcieOut, h.only.peony, h.only.flash, h.only.wire⟩⟩

theorem Does.updDispsPresXfers {msk : Nat} {s0 s : State} (h : Does msk s0 s) {disps' : List Disp} {pres' : List Pre} {xfers' : List Xfer}
    (b41 : msk.testBit 41 = true) (b42 : msk.testBit 42 = true) (b43 : msk.testBit 43 = true)  :
    Does msk s0 { s with disps := disps', pres := pres', xfers := xfers' } :=
  ⟨⟨h.keeps.pending, fun i => let j := h.keeps.inv i; ⟨j.1, j.2, j.3, j.4, j.5, j.6, j.7, j.8⟩⟩, ⟨h.only.now, h.only.pll, h.only.aclkBase, h.only.aclkFrom, h.only.fresh, h.only.regs, h.only.log, h.only.lc, h.only.msix, h.only.msixCtl, h.only.sent, h.only.rdata, h.only.rstat, h.only.pipeActive, h.only.hbm, h.only.tile, h.only.host, h.only.engines, h.only.semCycles, h.only.fslots, h.only.fclock, h.only.fwaiting, h.only.pageIns, h.only.fsigs, h.only.transits, h.only.arbs, h.only.replies, h.only.arrived, h.only.mcs, h.only.routers, h.only.meshOut, h.only.ctxs, h.only.queues, h.only.slots, h.only.reloc, h.only.jobs, h.only.jobKey, h.only.copies, h.only.compWaits, h.only.cx, (fun e => nomatch b41.symm.trans e), (fun e => nomatch b42.symm.trans e), (fun e => nomatch b43.symm.trans e), h.only.placedIn, h.only.lastServed, h.only.passes, h.only.geoTurn, h.only.hostReads, h.only.model, h.only.loading, h.only.monFrame, h.only.failOrder, h.only.mbWait, h.only.mboxes, h.only.mbOrder, h.only.staging, h.only.caps, h.only.capStop, h.only.capFaults, h.only.pipes, h.only.foxKey, h.only.foxCount, h.only.foxChecked, h.only.foxCmd, h.only.power, h.only.hotSwap, h.only.resets, h.only.wide, h.only.perst, h.only.pcieOut, h.only.peony, h.only.flash, h.only.wire⟩⟩

theorem Does.updPres {msk : Nat} {s0 s : State} (h : Does msk s0 s) {pres' : List Pre}
    (b42 : msk.testBit 42 = true)  :
    Does msk s0 { s with pres := pres' } :=
  ⟨⟨h.keeps.pending, fun i => let j := h.keeps.inv i; ⟨j.1, j.2, j.3, j.4, j.5, j.6, j.7, j.8⟩⟩, ⟨h.only.now, h.only.pll, h.only.aclkBase, h.only.aclkFrom, h.only.fresh, h.only.regs, h.only.log, h.only.lc, h.only.msix, h.only.msixCtl, h.only.sent, h.only.rdata, h.only.rstat, h.only.pipeActive, h.only.hbm, h.only.tile, h.only.host, h.only.engines, h.only.semCycles, h.only.fslots, h.only.fclock, h.only.fwaiting, h.only.pageIns, h.only.fsigs, h.only.transits, h.only.arbs, h.only.replies, h.only.arrived, h.only.mcs, h.only.routers, h.only.meshOut, h.only.ctxs, h.only.queues, h.only.slots, h.only.reloc, h.only.jobs, h.only.jobKey, h.only.copies, h.only.compWaits, h.only.cx, h.only.disps, (fun e => nomatch b42.symm.trans e), h.only.xfers, h.only.placedIn, h.only.lastServed, h.only.passes, h.only.geoTurn, h.only.hostReads, h.only.model, h.only.loading, h.only.monFrame, h.only.failOrder, h.only.mbWait, h.only.mboxes, h.only.mbOrder, h.only.staging, h.only.caps, h.only.capStop, h.only.capFaults, h.only.pipes, h.only.foxKey, h.only.foxCount, h.only.foxChecked, h.only.foxCmd, h.only.power, h.only.hotSwap, h.only.resets, h.only.wide, h.only.perst, h.only.pcieOut, h.only.peony, h.only.flash, h.only.wire⟩⟩

theorem Does.updPresXfersPasses {msk : Nat} {s0 s : State} (h : Does msk s0 s) {pres' : List Pre} {xfers' : List Xfer} {passes' : List Pass}
    (b42 : msk.testBit 42 = true) (b43 : msk.testBit 43 = true) (b46 : msk.testBit 46 = true)  :
    Does msk s0 { s with pres := pres', xfers := xfers', passes := passes' } :=
  ⟨⟨h.keeps.pending, fun i => let j := h.keeps.inv i; ⟨j.1, j.2, j.3, j.4, j.5, j.6, j.7, j.8⟩⟩, ⟨h.only.now, h.only.pll, h.only.aclkBase, h.only.aclkFrom, h.only.fresh, h.only.regs, h.only.log, h.only.lc, h.only.msix, h.only.msixCtl, h.only.sent, h.only.rdata, h.only.rstat, h.only.pipeActive, h.only.hbm, h.only.tile, h.only.host, h.only.engines, h.only.semCycles, h.only.fslots, h.only.fclock, h.only.fwaiting, h.only.pageIns, h.only.fsigs, h.only.transits, h.only.arbs, h.only.replies, h.only.arrived, h.only.mcs, h.only.routers, h.only.meshOut, h.only.ctxs, h.only.queues, h.only.slots, h.only.reloc, h.only.jobs, h.only.jobKey, h.only.copies, h.only.compWaits, h.only.cx, h.only.disps, (fun e => nomatch b42.symm.trans e), (fun e => nomatch b43.symm.trans e), h.only.placedIn, h.only.lastServed, (fun e => nomatch b46.symm.trans e), h.only.geoTurn, h.only.hostReads, h.only.model, h.only.loading, h.only.monFrame, h.only.failOrder, h.only.mbWait, h.only.mboxes, h.only.mbOrder, h.only.staging, h.only.caps, h.only.capStop, h.only.capFaults, h.only.pipes, h.only.foxKey, h.only.foxCount, h.only.foxChecked, h.only.foxCmd, h.only.power, h.only.hotSwap, h.only.resets, h.only.wide, h.only.perst, h.only.pcieOut, h.only.peony, h.only.flash, h.only.wire⟩⟩

theorem Does.updXfers {msk : Nat} {s0 s : State} (h : Does msk s0 s) {xfers' : List Xfer}
    (b43 : msk.testBit 43 = true)  :
    Does msk s0 { s with xfers := xfers' } :=
  ⟨⟨h.keeps.pending, fun i => let j := h.keeps.inv i; ⟨j.1, j.2, j.3, j.4, j.5, j.6, j.7, j.8⟩⟩, ⟨h.only.now, h.only.pll, h.only.aclkBase, h.only.aclkFrom, h.only.fresh, h.only.regs, h.only.log, h.only.lc, h.only.msix, h.only.msixCtl, h.only.sent, h.only.rdata, h.only.rstat, h.only.pipeActive, h.only.hbm, h.only.tile, h.only.host, h.only.engines, h.only.semCycles, h.only.fslots, h.only.fclock, h.only.fwaiting, h.only.pageIns, h.only.fsigs, h.only.transits, h.only.arbs, h.only.replies, h.only.arrived, h.only.mcs, h.only.routers, h.only.meshOut, h.only.ctxs, h.only.queues, h.only.slots, h.only.reloc, h.only.jobs, h.only.jobKey, h.only.copies, h.only.compWaits, h.only.cx, h.only.disps, h.only.pres, (fun e => nomatch b43.symm.trans e), h.only.placedIn, h.only.lastServed, h.only.passes, h.only.geoTurn, h.only.hostReads, h.only.model, h.only.loading, h.only.monFrame, h.only.failOrder, h.only.mbWait, h.only.mboxes, h.only.mbOrder, h.only.staging, h.only.caps, h.only.capStop, h.only.capFaults, h.only.pipes, h.only.foxKey, h.only.foxCount, h.only.foxChecked, h.only.foxCmd, h.only.power, h.only.hotSwap, h.only.resets, h.only.wide, h.only.perst, h.only.pcieOut, h.only.peony, h.only.flash, h.only.wire⟩⟩

theorem Does.updPlacedInLastServed {msk : Nat} {s0 s : State} (h : Does msk s0 s) {placedIn' : List (Nat × Nat)} {lastServed' : List (Nat × Nat)}
    (b44 : msk.testBit 44 = true) (b45 : msk.testBit 45 = true)  :
    Does msk s0 { s with placedIn := placedIn', lastServed := lastServed' } :=
  ⟨⟨h.keeps.pending, fun i => let j := h.keeps.inv i; ⟨j.1, j.2, j.3, j.4, j.5, j.6, j.7, j.8⟩⟩, ⟨h.only.now, h.only.pll, h.only.aclkBase, h.only.aclkFrom, h.only.fresh, h.only.regs, h.only.log, h.only.lc, h.only.msix, h.only.msixCtl, h.only.sent, h.only.rdata, h.only.rstat, h.only.pipeActive, h.only.hbm, h.only.tile, h.only.host, h.only.engines, h.only.semCycles, h.only.fslots, h.only.fclock, h.only.fwaiting, h.only.pageIns, h.only.fsigs, h.only.transits, h.only.arbs, h.only.replies, h.only.arrived, h.only.mcs, h.only.routers, h.only.meshOut, h.only.ctxs, h.only.queues, h.only.slots, h.only.reloc, h.only.jobs, h.only.jobKey, h.only.copies, h.only.compWaits, h.only.cx, h.only.disps, h.only.pres, h.only.xfers, (fun e => nomatch b44.symm.trans e), (fun e => nomatch b45.symm.trans e), h.only.passes, h.only.geoTurn, h.only.hostReads, h.only.model, h.only.loading, h.only.monFrame, h.only.failOrder, h.only.mbWait, h.only.mboxes, h.only.mbOrder, h.only.staging, h.only.caps, h.only.capStop, h.only.capFaults, h.only.pipes, h.only.foxKey, h.only.foxCount, h.only.foxChecked, h.only.foxCmd, h.only.power, h.only.hotSwap, h.only.resets, h.only.wide, h.only.perst, h.only.pcieOut, h.only.peony, h.only.flash, h.only.wire⟩⟩

theorem Does.updPasses {msk : Nat} {s0 s : State} (h : Does msk s0 s) {passes' : List Pass}
    (b46 : msk.testBit 46 = true)  :
    Does msk s0 { s with passes := passes' } :=
  ⟨⟨h.keeps.pending, fun i => let j := h.keeps.inv i; ⟨j.1, j.2, j.3, j.4, j.5, j.6, j.7, j.8⟩⟩, ⟨h.only.now, h.only.pll, h.only.aclkBase, h.only.aclkFrom, h.only.fresh, h.only.regs, h.only.log, h.only.lc, h.only.msix, h.only.msixCtl, h.only.sent, h.only.rdata, h.only.rstat, h.only.pipeActive, h.only.hbm, h.only.tile, h.only.host, h.only.engines, h.only.semCycles, h.only.fslots, h.only.fclock, h.only.fwaiting, h.only.pageIns, h.only.fsigs, h.only.transits, h.only.arbs, h.only.replies, h.only.arrived, h.only.mcs, h.only.routers, h.only.meshOut, h.only.ctxs, h.only.queues, h.only.slots, h.only.reloc, h.only.jobs, h.only.jobKey, h.only.copies, h.only.compWaits, h.only.cx, h.only.disps, h.only.pres, h.only.xfers, h.only.placedIn, h.only.lastServed, (fun e => nomatch b46.symm.trans e), h.only.geoTurn, h.only.hostReads, h.only.model, h.only.loading, h.only.monFrame, h.only.failOrder, h.only.mbWait, h.only.mboxes, h.only.mbOrder, h.only.staging, h.only.caps, h.only.capStop, h.only.capFaults, h.only.pipes, h.only.foxKey, h.only.foxCount, h.only.foxChecked, h.only.foxCmd, h.only.power, h.only.hotSwap, h.only.resets, h.only.wide, h.only.perst, h.only.pcieOut, h.only.peony, h.only.flash, h.only.wire⟩⟩

theorem Does.updGeoTurn {msk : Nat} {s0 s : State} (h : Does msk s0 s) {geoTurn' : List (Nat × Nat)}
    (b47 : msk.testBit 47 = true)  :
    Does msk s0 { s with geoTurn := geoTurn' } :=
  ⟨⟨h.keeps.pending, fun i => let j := h.keeps.inv i; ⟨j.1, j.2, j.3, j.4, j.5, j.6, j.7, j.8⟩⟩, ⟨h.only.now, h.only.pll, h.only.aclkBase, h.only.aclkFrom, h.only.fresh, h.only.regs, h.only.log, h.only.lc, h.only.msix, h.only.msixCtl, h.only.sent, h.only.rdata, h.only.rstat, h.only.pipeActive, h.only.hbm, h.only.tile, h.only.host, h.only.engines, h.only.semCycles, h.only.fslots, h.only.fclock, h.only.fwaiting, h.only.pageIns, h.only.fsigs, h.only.transits, h.only.arbs, h.only.replies, h.only.arrived, h.only.mcs, h.only.routers, h.only.meshOut, h.only.ctxs, h.only.queues, h.only.slots, h.only.reloc, h.only.jobs, h.only.jobKey, h.only.copies, h.only.compWaits, h.only.cx, h.only.disps, h.only.pres, h.only.xfers, h.only.placedIn, h.only.lastServed, h.only.passes, (fun e => nomatch b47.symm.trans e), h.only.hostReads, h.only.model, h.only.loading, h.only.monFrame, h.only.failOrder, h.only.mbWait, h.only.mboxes, h.only.mbOrder, h.only.staging, h.only.caps, h.only.capStop, h.only.capFaults, h.only.pipes, h.only.foxKey, h.only.foxCount, h.only.foxChecked, h.only.foxCmd, h.only.power, h.only.hotSwap, h.only.resets, h.only.wide, h.only.perst, h.only.pcieOut, h.only.peony, h.only.flash, h.only.wire⟩⟩

theorem Does.updHostReads {msk : Nat} {s0 s : State} (h : Does msk s0 s) {hostReads' : List Burst}
    (b48 : msk.testBit 48 = true)  :
    Does msk s0 { s with hostReads := hostReads' } :=
  ⟨⟨h.keeps.pending, fun i => let j := h.keeps.inv i; ⟨j.1, j.2, j.3, j.4, j.5, j.6, j.7, j.8⟩⟩, ⟨h.only.now, h.only.pll, h.only.aclkBase, h.only.aclkFrom, h.only.fresh, h.only.regs, h.only.log, h.only.lc, h.only.msix, h.only.msixCtl, h.only.sent, h.only.rdata, h.only.rstat, h.only.pipeActive, h.only.hbm, h.only.tile, h.only.host, h.only.engines, h.only.semCycles, h.only.fslots, h.only.fclock, h.only.fwaiting, h.only.pageIns, h.only.fsigs, h.only.transits, h.only.arbs, h.only.replies, h.only.arrived, h.only.mcs, h.only.routers, h.only.meshOut, h.only.ctxs, h.only.queues, h.only.slots, h.only.reloc, h.only.jobs, h.only.jobKey, h.only.copies, h.only.compWaits, h.only.cx, h.only.disps, h.only.pres, h.only.xfers, h.only.placedIn, h.only.lastServed, h.only.passes, h.only.geoTurn, (fun e => nomatch b48.symm.trans e), h.only.model, h.only.loading, h.only.monFrame, h.only.failOrder, h.only.mbWait, h.only.mboxes, h.only.mbOrder, h.only.staging, h.only.caps, h.only.capStop, h.only.capFaults, h.only.pipes, h.only.foxKey, h.only.foxCount, h.only.foxChecked, h.only.foxCmd, h.only.power, h.only.hotSwap, h.only.resets, h.only.wide, h.only.perst, h.only.pcieOut, h.only.peony, h.only.flash, h.only.wire⟩⟩

theorem Does.updModel {msk : Nat} {s0 s : State} (h : Does msk s0 s) {model' : Option Model}
    (b49 : msk.testBit 49 = true)  :
    Does msk s0 { s with model := model' } :=
  ⟨⟨h.keeps.pending, fun i => let j := h.keeps.inv i; ⟨j.1, j.2, j.3, j.4, j.5, j.6, j.7, j.8⟩⟩, ⟨h.only.now, h.only.pll, h.only.aclkBase, h.only.aclkFrom, h.only.fresh, h.only.regs, h.only.log, h.only.lc, h.only.msix, h.only.msixCtl, h.only.sent, h.only.rdata, h.only.rstat, h.only.pipeActive, h.only.hbm, h.only.tile, h.only.host, h.only.engines, h.only.semCycles, h.only.fslots, h.only.fclock, h.only.fwaiting, h.only.pageIns, h.only.fsigs, h.only.transits, h.only.arbs, h.only.replies, h.only.arrived, h.only.mcs, h.only.routers, h.only.meshOut, h.only.ctxs, h.only.queues, h.only.slots, h.only.reloc, h.only.jobs, h.only.jobKey, h.only.copies, h.only.compWaits, h.only.cx, h.only.disps, h.only.pres, h.only.xfers, h.only.placedIn, h.only.lastServed, h.only.passes, h.only.geoTurn, h.only.hostReads, (fun e => nomatch b49.symm.trans e), h.only.loading, h.only.monFrame, h.only.failOrder, h.only.mbWait, h.only.mboxes, h.only.mbOrder, h.only.staging, h.only.caps, h.only.capStop, h.only.capFaults, h.only.pipes, h.only.foxKey, h.only.foxCount, h.only.foxChecked, h.only.foxCmd, h.only.power, h.only.hotSwap, h.only.resets, h.only.wide, h.only.perst, h.only.pcieOut, h.only.peony, h.only.flash, h.only.wire⟩⟩

theorem Does.updLoading {msk : Nat} {s0 s : State} (h : Does msk s0 s) {loading' : Option (Nat × Model)}
    (b50 : msk.testBit 50 = true)  :
    Does msk s0 { s with loading := loading' } :=
  ⟨⟨h.keeps.pending, fun i => let j := h.keeps.inv i; ⟨j.1, j.2, j.3, j.4, j.5, j.6, j.7, j.8⟩⟩, ⟨h.only.now, h.only.pll, h.only.aclkBase, h.only.aclkFrom, h.only.fresh, h.only.regs, h.only.log, h.only.lc, h.only.msix, h.only.msixCtl, h.only.sent, h.only.rdata, h.only.rstat, h.only.pipeActive, h.only.hbm, h.only.tile, h.only.host, h.only.engines, h.only.semCycles, h.only.fslots, h.only.fclock, h.only.fwaiting, h.only.pageIns, h.only.fsigs, h.only.transits, h.only.arbs, h.only.replies, h.only.arrived, h.only.mcs, h.only.routers, h.only.meshOut, h.only.ctxs, h.only.queues, h.only.slots, h.only.reloc, h.only.jobs, h.only.jobKey, h.only.copies, h.only.compWaits, h.only.cx, h.only.disps, h.only.pres, h.only.xfers, h.only.placedIn, h.only.lastServed, h.only.passes, h.only.geoTurn, h.only.hostReads, h.only.model, (fun e => nomatch b50.symm.trans e), h.only.monFrame, h.only.failOrder, h.only.mbWait, h.only.mboxes, h.only.mbOrder, h.only.staging, h.only.caps, h.only.capStop, h.only.capFaults, h.only.pipes, h.only.foxKey, h.only.foxCount, h.only.foxChecked, h.only.foxCmd, h.only.power, h.only.hotSwap, h.only.resets, h.only.wide, h.only.perst, h.only.pcieOut, h.only.peony, h.only.flash, h.only.wire⟩⟩

theorem Does.updMonFrame {msk : Nat} {s0 s : State} (h : Does msk s0 s) {monFrame' : Nat}
    (b51 : msk.testBit 51 = true)  :
    Does msk s0 { s with monFrame := monFrame' } :=
  ⟨⟨h.keeps.pending, fun i => let j := h.keeps.inv i; ⟨j.1, j.2, j.3, j.4, j.5, j.6, j.7, j.8⟩⟩, ⟨h.only.now, h.only.pll, h.only.aclkBase, h.only.aclkFrom, h.only.fresh, h.only.regs, h.only.log, h.only.lc, h.only.msix, h.only.msixCtl, h.only.sent, h.only.rdata, h.only.rstat, h.only.pipeActive, h.only.hbm, h.only.tile, h.only.host, h.only.engines, h.only.semCycles, h.only.fslots, h.only.fclock, h.only.fwaiting, h.only.pageIns, h.only.fsigs, h.only.transits, h.only.arbs, h.only.replies, h.only.arrived, h.only.mcs, h.only.routers, h.only.meshOut, h.only.ctxs, h.only.queues, h.only.slots, h.only.reloc, h.only.jobs, h.only.jobKey, h.only.copies, h.only.compWaits, h.only.cx, h.only.disps, h.only.pres, h.only.xfers, h.only.placedIn, h.only.lastServed, h.only.passes, h.only.geoTurn, h.only.hostReads, h.only.model, h.only.loading, (fun e => nomatch b51.symm.trans e), h.only.failOrder, h.only.mbWait, h.only.mboxes, h.only.mbOrder, h.only.staging, h.only.caps, h.only.capStop, h.only.capFaults, h.only.pipes, h.only.foxKey, h.only.foxCount, h.only.foxChecked, h.only.foxCmd, h.only.power, h.only.hotSwap, h.only.resets, h.only.wide, h.only.perst, h.only.pcieOut, h.only.peony, h.only.flash, h.only.wire⟩⟩

theorem Does.updFailOrder {msk : Nat} {s0 s : State} (h : Does msk s0 s) {failOrder' : List Nat}
    (b52 : msk.testBit 52 = true)  :
    Does msk s0 { s with failOrder := failOrder' } :=
  ⟨⟨h.keeps.pending, fun i => let j := h.keeps.inv i; ⟨j.1, j.2, j.3, j.4, j.5, j.6, j.7, j.8⟩⟩, ⟨h.only.now, h.only.pll, h.only.aclkBase, h.only.aclkFrom, h.only.fresh, h.only.regs, h.only.log, h.only.lc, h.only.msix, h.only.msixCtl, h.only.sent, h.only.rdata, h.only.rstat, h.only.pipeActive, h.only.hbm, h.only.tile, h.only.host, h.only.engines, h.only.semCycles, h.only.fslots, h.only.fclock, h.only.fwaiting, h.only.pageIns, h.only.fsigs, h.only.transits, h.only.arbs, h.only.replies, h.only.arrived, h.only.mcs, h.only.routers, h.only.meshOut, h.only.ctxs, h.only.queues, h.only.slots, h.only.reloc, h.only.jobs, h.only.jobKey, h.only.copies, h.only.compWaits, h.only.cx, h.only.disps, h.only.pres, h.only.xfers, h.only.placedIn, h.only.lastServed, h.only.passes, h.only.geoTurn, h.only.hostReads, h.only.model, h.only.loading, h.only.monFrame, (fun e => nomatch b52.symm.trans e), h.only.mbWait, h.only.mboxes, h.only.mbOrder, h.only.staging, h.only.caps, h.only.capStop, h.only.capFaults, h.only.pipes, h.only.foxKey, h.only.foxCount, h.only.foxChecked, h.only.foxCmd, h.only.power, h.only.hotSwap, h.only.resets, h.only.wide, h.only.perst, h.only.pcieOut, h.only.peony, h.only.flash, h.only.wire⟩⟩

theorem Does.updMbWait {msk : Nat} {s0 s : State} (h : Does msk s0 s) {mbWait' : List Nat}
    (b53 : msk.testBit 53 = true)  :
    Does msk s0 { s with mbWait := mbWait' } :=
  ⟨⟨h.keeps.pending, fun i => let j := h.keeps.inv i; ⟨j.1, j.2, j.3, j.4, j.5, j.6, j.7, j.8⟩⟩, ⟨h.only.now, h.only.pll, h.only.aclkBase, h.only.aclkFrom, h.only.fresh, h.only.regs, h.only.log, h.only.lc, h.only.msix, h.only.msixCtl, h.only.sent, h.only.rdata, h.only.rstat, h.only.pipeActive, h.only.hbm, h.only.tile, h.only.host, h.only.engines, h.only.semCycles, h.only.fslots, h.only.fclock, h.only.fwaiting, h.only.pageIns, h.only.fsigs, h.only.transits, h.only.arbs, h.only.replies, h.only.arrived, h.only.mcs, h.only.routers, h.only.meshOut, h.only.ctxs, h.only.queues, h.only.slots, h.only.reloc, h.only.jobs, h.only.jobKey, h.only.copies, h.only.compWaits, h.only.cx, h.only.disps, h.only.pres, h.only.xfers, h.only.placedIn, h.only.lastServed, h.only.passes, h.only.geoTurn, h.only.hostReads, h.only.model, h.only.loading, h.only.monFrame, h.only.failOrder, (fun e => nomatch b53.symm.trans e), h.only.mboxes, h.only.mbOrder, h.only.staging, h.only.caps, h.only.capStop, h.only.capFaults, h.only.pipes, h.only.foxKey, h.only.foxCount, h.only.foxChecked, h.only.foxCmd, h.only.power, h.only.hotSwap, h.only.resets, h.only.wide, h.only.perst, h.only.pcieOut, h.only.peony, h.only.flash, h.only.wire⟩⟩

theorem Does.updMbWaitMboxesMbOrder {msk : Nat} {s0 s : State} (h : Does msk s0 s) {mbWait' : List Nat} {mboxes' : List (Nat × Mbox)} {mbOrder' : List Nat}
    (b53 : msk.testBit 53 = true) (b54 : msk.testBit 54 = true) (b55 : msk.testBit 55 = true)  :
    Does msk s0 { s with mbWait := mbWait', mboxes := mboxes', mbOrder := mbOrder' } :=
  ⟨⟨h.keeps.pending, fun i => let j := h.keeps.inv i; ⟨j.1, j.2, j.3, j.4, j.5, j.6, j.7, j.8⟩⟩, ⟨h.only.now, h.only.pll, h.only.aclkBase, h.only.aclkFrom, h.only.fresh, h.only.regs, h.only.log, h.only.lc, h.only.msix, h.only.msixCtl, h.only.sent, h.only.rdata, h.only.rstat, h.only.pipeActive, h.only.hbm, h.only.tile, h.only.host, h.only.engines, h.only.semCycles, h.only.fslots, h.only.fclock, h.only.fwaiting, h.only.pageIns, h.only.fsigs, h.only.transits, h.only.arbs, h.only.replies, h.only.arrived, h.only.mcs, h.only.routers, h.only.meshOut, h.only.ctxs, h.only.queues, h.only.slots, h.only.reloc, h.only.jobs, h.only.jobKey, h.only.copies, h.only.compWaits, h.only.cx, h.only.disps, h.only.pres, h.only.xfers, h.only.placedIn, h.only.lastServed, h.only.passes, h.only.geoTurn, h.only.hostReads, h.only.model, h.only.loading, h.only.monFrame, h.only.failOrder, (fun e => nomatch b53.symm.trans e), (fun e => nomatch b54.symm.trans e), (fun e => nomatch b55.symm.trans e), h.only.staging, h.only.caps, h.only.capStop, h.only.capFaults, h.only.pipes, h.only.foxKey, h.only.foxCount, h.only.foxChecked, h.only.foxCmd, h.only.power, h.only.hotSwap, h.only.resets, h.only.wide, h.only.perst, h.only.pcieOut, h.only.peony, h.only.flash, h.only.wire⟩⟩

theorem Does.updMboxesMbOrder {msk : Nat} {s0 s : State} (h : Does msk s0 s) {mboxes' : List (Nat × Mbox)} {mbOrder' : List Nat}
    (b54 : msk.testBit 54 = true) (b55 : msk.testBit 55 = true)  :
    Does msk s0 { s with mboxes := mboxes', mbOrder := mbOrder' } :=
  ⟨⟨h.keeps.pending, fun i => let j := h.keeps.inv i; ⟨j.1, j.2, j.3, j.4, j.5, j.6, j.7, j.8⟩⟩, ⟨h.only.now, h.only.pll, h.only.aclkBase, h.only.aclkFrom, h.only.fresh, h.only.regs, h.only.log, h.only.lc, h.only.msix, h.only.msixCtl, h.only.sent, h.only.rdata, h.only.rstat, h.only.pipeActive, h.only.hbm, h.only.tile, h.only.host, h.only.engines, h.only.semCycles, h.only.fslots, h.only.fclock, h.only.fwaiting, h.only.pageIns, h.only.fsigs, h.only.transits, h.only.arbs, h.only.replies, h.only.arrived, h.only.mcs, h.only.routers, h.only.meshOut, h.only.ctxs, h.only.queues, h.only.slots, h.only.reloc, h.only.jobs, h.only.jobKey, h.only.copies, h.only.compWaits, h.only.cx, h.only.disps, h.only.pres, h.only.xfers, h.only.placedIn, h.only.lastServed, h.only.passes, h.only.geoTurn, h.only.hostReads, h.only.model, h.only.loading, h.only.monFrame, h.only.failOrder, h.only.mbWait, (fun e => nomatch b54.symm.trans e), (fun e => nomatch b55.symm.trans e), h.only.staging, h.only.caps, h.only.capStop, h.only.capFaults, h.only.pipes, h.only.foxKey, h.only.foxCount, h.only.foxChecked, h.only.foxCmd, h.only.power, h.only.hotSwap, h.only.resets, h.only.wide, h.only.perst, h.only.pcieOut, h.only.peony, h.only.flash, h.only.wire⟩⟩

theorem Does.updStaging {msk : Nat} {s0 s : State} (h : Does msk s0 s) {staging' : Mem}
    (b56 : msk.testBit 56 = true) (w56 : s.staging.wf = true → staging'.wf = true) :
    Does msk s0 { s with staging := staging' } :=
  ⟨⟨h.keeps.pending, fun i => let j := h.keeps.inv i; ⟨j.1, j.2, j.3, w56 j.4, j.5, j.6, j.7, j.8⟩⟩, ⟨h.only.now, h.only.pll, h.only.aclkBase, h.only.aclkFrom, h.only.fresh, h.only.regs, h.only.log, h.only.lc, h.only.msix, h.only.msixCtl, h.only.sent, h.only.rdata, h.only.rstat, h.only.pipeActive, h.only.hbm, h.only.tile, h.only.host, h.only.engines, h.only.semCycles, h.only.fslots, h.only.fclock, h.only.fwaiting, h.only.pageIns, h.only.fsigs, h.only.transits, h.only.arbs, h.only.replies, h.only.arrived, h.only.mcs, h.only.routers, h.only.meshOut, h.only.ctxs, h.only.queues, h.only.slots, h.only.reloc, h.only.jobs, h.only.jobKey, h.only.copies, h.only.compWaits, h.only.cx, h.only.disps, h.only.pres, h.only.xfers, h.only.placedIn, h.only.lastServed, h.only.passes, h.only.geoTurn, h.only.hostReads, h.only.model, h.only.loading, h.only.monFrame, h.only.failOrder, h.only.mbWait, h.only.mboxes, h.only.mbOrder, (fun e => nomatch b56.symm.trans e), h.only.caps, h.only.capStop, h.only.capFaults, h.only.pipes, h.only.foxKey, h.only.foxCount, h.only.foxChecked, h.only.foxCmd, h.only.power, h.only.hotSwap, h.only.resets, h.only.wide, h.only.perst, h.only.pcieOut, h.only.peony, h.only.flash, h.only.wire⟩⟩

theorem Does.updCaps {msk : Nat} {s0 s : State} (h : Does msk s0 s) {caps' : List (Nat × CapVc)}
    (b57 : msk.testBit 57 = true)  :
    Does msk s0 { s with caps := caps' } :=
  ⟨⟨h.keeps.pending, fun i => let j := h.keeps.inv i; ⟨j.1, j.2, j.3, j.4, j.5, j.6, j.7, j.8⟩⟩, ⟨h.only.now, h.only.pll, h.only.aclkBase, h.only.aclkFrom, h.only.fresh, h.only.regs, h.only.log, h.only.lc, h.only.msix, h.only.msixCtl, h.only.sent, h.only.rdata, h.only.rstat, h.only.pipeActive, h.only.hbm, h.only.tile, h.only.host, h.only.engines, h.only.semCycles, h.only.fslots, h.only.fclock, h.only.fwaiting, h.only.pageIns, h.only.fsigs, h.only.transits, h.only.arbs, h.only.replies, h.only.arrived, h.only.mcs, h.only.routers, h.only.meshOut, h.only.ctxs, h.only.queues, h.only.slots, h.only.reloc, h.only.jobs, h.only.jobKey, h.only.copies, h.only.compWaits, h.only.cx, h.only.disps, h.only.pres, h.only.xfers, h.only.placedIn, h.only.lastServed, h.only.passes, h.only.geoTurn, h.only.hostReads, h.only.model, h.only.loading, h.only.monFrame, h.only.failOrder, h.only.mbWait, h.only.mboxes, h.only.mbOrder, h.only.staging, (fun e => nomatch b57.symm.trans e), h.only.capStop, h.only.capFaults, h.only.pipes, h.only.foxKey, h.only.foxCount, h.only.foxChecked, h.only.foxCmd, h.only.power, h.only.hotSwap, h.only.resets, h.only.wide, h.only.perst, h.only.pcieOut, h.only.peony, h.only.flash, h.only.wire⟩⟩

theorem Does.updCapStop {msk : Nat} {s0 s : State} (h : Does msk s0 s) {capStop' : List Nat}
    (b58 : msk.testBit 58 = true)  :
    Does msk s0 { s with capStop := capStop' } :=
  ⟨⟨h.keeps.pending, fun i => let j := h.keeps.inv i; ⟨j.1, j.2, j.3, j.4, j.5, j.6, j.7, j.8⟩⟩, ⟨h.only.now, h.only.pll, h.only.aclkBase, h.only.aclkFrom, h.only.fresh, h.only.regs, h.only.log, h.only.lc, h.only.msix, h.only.msixCtl, h.only.sent, h.only.rdata, h.only.rstat, h.only.pipeActive, h.only.hbm, h.only.tile, h.only.host, h.only.engines, h.only.semCycles, h.only.fslots, h.only.fclock, h.only.fwaiting, h.only.pageIns, h.only.fsigs, h.only.transits, h.only.arbs, h.only.replies, h.only.arrived, h.only.mcs, h.only.routers, h.only.meshOut, h.only.ctxs, h.only.queues, h.only.slots, h.only.reloc, h.only.jobs, h.only.jobKey, h.only.copies, h.only.compWaits, h.only.cx, h.only.disps, h.only.pres, h.only.xfers, h.only.placedIn, h.only.lastServed, h.only.passes, h.only.geoTurn, h.only.hostReads, h.only.model, h.only.loading, h.only.monFrame, h.only.failOrder, h.only.mbWait, h.only.mboxes, h.only.mbOrder, h.only.staging, h.only.caps, (fun e => nomatch b58.symm.trans e), h.only.capFaults, h.only.pipes, h.only.foxKey, h.only.foxCount, h.only.foxChecked, h.only.foxCmd, h.only.power, h.only.hotSwap, h.only.resets, h.only.wide, h.only.perst, h.only.pcieOut, h.only.peony, h.only.flash, h.only.wire⟩⟩

theorem Does.updCapFaults {msk : Nat} {s0 s : State} (h : Does msk s0 s) {capFaults' : List CapFault}
    (b59 : msk.testBit 59 = true)  :
    Does msk s0 { s with capFaults := capFaults' } :=
  ⟨⟨h.keeps.pending, fun i => let j := h.keeps.inv i; ⟨j.1, j.2, j.3, j.4, j.5, j.6, j.7, j.8⟩⟩, ⟨h.only.now, h.only.pll, h.only.aclkBase, h.only.aclkFrom, h.only.fresh, h.only.regs, h.only.log, h.only.lc, h.only.msix, h.only.msixCtl, h.only.sent, h.only.rdata, h.only.rstat, h.only.pipeActive, h.only.hbm, h.only.tile, h.only.host, h.only.engines, h.only.semCycles, h.only.fslots, h.only.fclock, h.only.fwaiting, h.only.pageIns, h.only.fsigs, h.only.transits, h.only.arbs, h.only.replies, h.only.arrived, h.only.mcs, h.only.routers, h.only.meshOut, h.only.ctxs, h.only.queues, h.only.slots, h.only.reloc, h.only.jobs, h.only.jobKey, h.only.copies, h.only.compWaits, h.only.cx, h.only.disps, h.only.pres, h.only.xfers, h.only.placedIn, h.only.lastServed, h.only.passes, h.only.geoTurn, h.only.hostReads, h.only.model, h.only.loading, h.only.monFrame, h.only.failOrder, h.only.mbWait, h.only.mboxes, h.only.mbOrder, h.only.staging, h.only.caps, h.only.capStop, (fun e => nomatch b59.symm.trans e), h.only.pipes, h.only.foxKey, h.only.foxCount, h.only.foxChecked, h.only.foxCmd, h.only.power, h.only.hotSwap, h.only.resets, h.only.wide, h.only.perst, h.only.pcieOut, h.only.peony, h.only.flash, h.only.wire⟩⟩

theorem Does.updPipes {msk : Nat} {s0 s : State} (h : Does msk s0 s) {pipes' : List (Nat × PipeSt)}
    (b60 : msk.testBit 60 = true)  :
    Does msk s0 { s with pipes := pipes' } :=
  ⟨⟨h.keeps.pending, fun i => let j := h.keeps.inv i; ⟨j.1, j.2, j.3, j.4, j.5, j.6, j.7, j.8⟩⟩, ⟨h.only.now, h.only.pll, h.only.aclkBase, h.only.aclkFrom, h.only.fresh, h.only.regs, h.only.log, h.only.lc, h.only.msix, h.only.msixCtl, h.only.sent, h.only.rdata, h.only.rstat, h.only.pipeActive, h.only.hbm, h.only.tile, h.only.host, h.only.engines, h.only.semCycles, h.only.fslots, h.only.fclock, h.only.fwaiting, h.only.pageIns, h.only.fsigs, h.only.transits, h.only.arbs, h.only.replies, h.only.arrived, h.only.mcs, h.only.routers, h.only.meshOut, h.only.ctxs, h.only.queues, h.only.slots, h.only.reloc, h.only.jobs, h.only.jobKey, h.only.copies, h.only.compWaits, h.only.cx, h.only.disps, h.only.pres, h.only.xfers, h.only.placedIn, h.only.lastServed, h.only.passes, h.only.geoTurn, h.only.hostReads, h.only.model, h.only.loading, h.only.monFrame, h.only.failOrder, h.only.mbWait, h.only.mboxes, h.only.mbOrder, h.only.staging, h.only.caps, h.only.capStop, h.only.capFaults, (fun e => nomatch b60.symm.trans e), h.only.foxKey, h.only.foxCount, h.only.foxChecked, h.only.foxCmd, h.only.power, h.only.hotSwap, h.only.resets, h.only.wide, h.only.perst, h.only.pcieOut, h.only.peony, h.only.flash, h.only.wire⟩⟩

theorem Does.updPipesPcieOut {msk : Nat} {s0 s : State} (h : Does msk s0 s) {pipes' : List (Nat × PipeSt)} {pcieOut' : Bool}
    (b60 : msk.testBit 60 = true) (b70 : msk.testBit 70 = true)  :
    Does msk s0 { s with pipes := pipes', pcieOut := pcieOut' } :=
  ⟨⟨h.keeps.pending, fun i => let j := h.keeps.inv i; ⟨j.1, j.2, j.3, j.4, j.5, j.6, j.7, j.8⟩⟩, ⟨h.only.now, h.only.pll, h.only.aclkBase, h.only.aclkFrom, h.only.fresh, h.only.regs, h.only.log, h.only.lc, h.only.msix, h.only.msixCtl, h.only.sent, h.only.rdata, h.only.rstat, h.only.pipeActive, h.only.hbm, h.only.tile, h.only.host, h.only.engines, h.only.semCycles, h.only.fslots, h.only.fclock, h.only.fwaiting, h.only.pageIns, h.only.fsigs, h.only.transits, h.only.arbs, h.only.replies, h.only.arrived, h.only.mcs, h.only.routers, h.only.meshOut, h.only.ctxs, h.only.queues, h.only.slots, h.only.reloc, h.only.jobs, h.only.jobKey, h.only.copies, h.only.compWaits, h.only.cx, h.only.disps, h.only.pres, h.only.xfers, h.only.placedIn, h.only.lastServed, h.only.passes, h.only.geoTurn, h.only.hostReads, h.only.model, h.only.loading, h.only.monFrame, h.only.failOrder, h.only.mbWait, h.only.mboxes, h.only.mbOrder, h.only.staging, h.only.caps, h.only.capStop, h.only.capFaults, (fun e => nomatch b60.symm.trans e), h.only.foxKey, h.only.foxCount, h.only.foxChecked, h.only.foxCmd, h.only.power, h.only.hotSwap, h.only.resets, h.only.wide, h.only.perst, (fun e => nomatch b70.symm.trans e), h.only.peony, h.only.flash, h.only.wire⟩⟩

theorem Does.updFoxKey {msk : Nat} {s0 s : State} (h : Does msk s0 s) {foxKey' : Option (List Byte)}
    (b61 : msk.testBit 61 = true)  :
    Does msk s0 { s with foxKey := foxKey' } :=
  ⟨⟨h.keeps.pending, fun i => let j := h.keeps.inv i; ⟨j.1, j.2, j.3, j.4, j.5, j.6, j.7, j.8⟩⟩, ⟨h.only.now, h.only.pll, h.only.aclkBase, h.only.aclkFrom, h.only.fresh, h.only.regs, h.only.log, h.only.lc, h.only.msix, h.only.msixCtl, h.only.sent, h.only.rdata, h.only.rstat, h.only.pipeActive, h.only.hbm, h.only.tile, h.only.host, h.only.engines, h.only.semCycles, h.only.fslots, h.only.fclock, h.only.fwaiting, h.only.pageIns, h.only.fsigs, h.only.transits, h.only.arbs, h.only.replies, h.only.arrived, h.only.mcs, h.only.routers, h.only.meshOut, h.only.ctxs, h.only.queues, h.only.slots, h.only.reloc, h.only.jobs, h.only.jobKey, h.only.copies, h.only.compWaits, h.only.cx, h.only.disps, h.only.pres, h.only.xfers, h.only.placedIn, h.only.lastServed, h.only.passes, h.only.geoTurn, h.only.hostReads, h.only.model, h.only.loading, h.only.monFrame, h.only.failOrder, h.only.mbWait, h.only.mboxes, h.only.mbOrder, h.only.staging, h.only.caps, h.only.capStop, h.only.capFaults, h.only.pipes, (fun e => nomatch b61.symm.trans e), h.only.foxCount, h.only.foxChecked, h.only.foxCmd, h.only.power, h.only.hotSwap, h.only.resets, h.only.wide, h.only.perst, h.only.pcieOut, h.only.peony, h.only.flash, h.only.wire⟩⟩

theorem Does.updFoxCount {msk : Nat} {s0 s : State} (h : Does msk s0 s) {foxCount' : Nat}
    (b62 : msk.testBit 62 = true)  :
    Does msk s0 { s with foxCount := foxCount' } :=
  ⟨⟨h.keeps.pending, fun i => let j := h.keeps.inv i; ⟨j.1, j.2, j.3, j.4, j.5, j.6, j.7, j.8⟩⟩, ⟨h.only.now, h.only.pll, h.only.aclkBase, h.only.aclkFrom, h.only.fresh, h.only.regs, h.only.log, h.only.lc, h.only.msix, h.only.msixCtl, h.only.sent, h.only.rdata, h.only.rstat, h.only.pipeActive, h.only.hbm, h.only.tile, h.only.host, h.only.engines, h.only.semCycles, h.only.fslots, h.only.fclock, h.only.fwaiting, h.only.pageIns, h.only.fsigs, h.only.transits, h.only.arbs, h.only.replies, h.only.arrived, h.only.mcs, h.only.routers, h.only.meshOut, h.only.ctxs, h.only.queues, h.only.slots, h.only.reloc, h.only.jobs, h.only.jobKey, h.only.copies, h.only.compWaits, h.only.cx, h.only.disps, h.only.pres, h.only.xfers, h.only.placedIn, h.only.lastServed, h.only.passes, h.only.geoTurn, h.only.hostReads, h.only.model, h.only.loading, h.only.monFrame, h.only.failOrder, h.only.mbWait, h.only.mboxes, h.only.mbOrder, h.only.staging, h.only.caps, h.only.capStop, h.only.capFaults, h.only.pipes, h.only.foxKey, (fun e => nomatch b62.symm.trans e), h.only.foxChecked, h.only.foxCmd, h.only.power, h.only.hotSwap, h.only.resets, h.only.wide, h.only.perst, h.only.pcieOut, h.only.peony, h.only.flash, h.only.wire⟩⟩

theorem Does.updFoxCheckedFoxCmd {msk : Nat} {s0 s : State} (h : Does msk s0 s) {foxChecked' : Nat} {foxCmd' : Option (Nat × List Byte)}
    (b63 : msk.testBit 63 = true) (b64 : msk.testBit 64 = true)  :
    Does msk s0 { s with foxChecked := foxChecked', foxCmd := foxCmd' } :=
  ⟨⟨h.keeps.pending, fun i => let j := h.keeps.inv i; ⟨j.1, j.2, j.3, j.4, j.5, j.6, j.7, j.8⟩⟩, ⟨h.only.now, h.only.pll, h.only.aclkBase, h.only.aclkFrom, h.only.fresh, h.only.regs, h.only.log, h.only.lc, h.only.msix, h.only.msixCtl, h.only.sent, h.only.rdata, h.only.rstat, h.only.pipeActive, h.only.hbm, h.only.tile, h.only.host, h.only.engines, h.only.semCycles, h.only.fslots, h.only.fclock, h.only.fwaiting, h.only.pageIns, h.only.fsigs, h.only.transits, h.only.arbs, h.only.replies, h.only.arrived, h.only.mcs, h.only.routers, h.only.meshOut, h.only.ctxs, h.only.queues, h.only.slots, h.only.reloc, h.only.jobs, h.only.jobKey, h.only.copies, h.only.compWaits, h.only.cx, h.only.disps, h.only.pres, h.only.xfers, h.only.placedIn, h.only.lastServed, h.only.passes, h.only.geoTurn, h.only.hostReads, h.only.model, h.only.loading, h.only.monFrame, h.only.failOrder, h.only.mbWait, h.only.mboxes, h.only.mbOrder, h.only.staging, h.only.caps, h.only.capStop, h.only.capFaults, h.only.pipes, h.only.foxKey, h.only.foxCount, (fun e => nomatch b63.symm.trans e), (fun e => nomatch b64.symm.trans e), h.only.power, h.only.hotSwap, h.only.resets, h.only.wide, h.only.perst, h.only.pcieOut, h.only.peony, h.only.flash, h.only.wire⟩⟩

theorem Does.updFoxCmd {msk : Nat} {s0 s : State} (h : Does msk s0 s) {foxCmd' : Option (Nat × List Byte)}
    (b64 : msk.testBit 64 = true)  :
    Does msk s0 { s with foxCmd := foxCmd' } :=
  ⟨⟨h.keeps.pending, fun i => let j := h.keeps.inv i; ⟨j.1, j.2, j.3, j.4, j.5, j.6, j.7, j.8⟩⟩, ⟨h.only.now, h.only.pll, h.only.aclkBase, h.only.aclkFrom, h.only.fresh, h.only.regs, h.only.log, h.only.lc, h.only.msix, h.only.msixCtl, h.only.sent, h.only.rdata, h.only.rstat, h.only.pipeActive, h.only.hbm, h.only.tile, h.only.host, h.only.engines, h.only.semCycles, h.only.fslots, h.only.fclock, h.only.fwaiting, h.only.pageIns, h.only.fsigs, h.only.transits, h.only.arbs, h.only.replies, h.only.arrived, h.only.mcs, h.only.routers, h.only.meshOut, h.only.ctxs, h.only.queues, h.only.slots, h.only.reloc, h.only.jobs, h.only.jobKey, h.only.copies, h.only.compWaits, h.only.cx, h.only.disps, h.only.pres, h.only.xfers, h.only.placedIn, h.only.lastServed, h.only.passes, h.only.geoTurn, h.only.hostReads, h.only.model, h.only.loading, h.only.monFrame, h.only.failOrder, h.only.mbWait, h.only.mboxes, h.only.mbOrder, h.only.staging, h.only.caps, h.only.capStop, h.only.capFaults, h.only.pipes, h.only.foxKey, h.only.foxCount, h.only.foxChecked, (fun e => nomatch b64.symm.trans e), h.only.power, h.only.hotSwap, h.only.resets, h.only.wide, h.only.perst, h.only.pcieOut, h.only.peony, h.only.flash, h.only.wire⟩⟩

theorem Does.updFoxCmdPeony {msk : Nat} {s0 s : State} (h : Does msk s0 s) {foxCmd' : Option (Nat × List Byte)} {peony' : Peony}
    (b64 : msk.testBit 64 = true) (b71 : msk.testBit 71 = true)  :
    Does msk s0 { s with foxCmd := foxCmd', peony := peony' } :=
  ⟨⟨h.keeps.pending, fun i => let j := h.keeps.inv i; ⟨j.1, j.2, j.3, j.4, j.5, j.6, j.7, j.8⟩⟩, ⟨h.only.now, h.only.pll, h.only.aclkBase, h.only.aclkFrom, h.only.fresh, h.only.regs, h.only.log, h.only.lc, h.only.msix, h.only.msixCtl, h.only.sent, h.only.rdata, h.only.rstat, h.only.pipeActive, h.only.hbm, h.only.tile, h.only.host, h.only.engines, h.only.semCycles, h.only.fslots, h.only.fclock, h.only.fwaiting, h.only.pageIns, h.only.fsigs, h.only.transits, h.only.arbs, h.only.replies, h.only.arrived, h.only.mcs, h.only.routers, h.only.meshOut, h.only.ctxs, h.only.queues, h.only.slots, h.only.reloc, h.only.jobs, h.only.jobKey, h.only.copies, h.only.compWaits, h.only.cx, h.only.disps, h.only.pres, h.only.xfers, h.only.placedIn, h.only.lastServed, h.only.passes, h.only.geoTurn, h.only.hostReads, h.only.model, h.only.loading, h.only.monFrame, h.only.failOrder, h.only.mbWait, h.only.mboxes, h.only.mbOrder, h.only.staging, h.only.caps, h.only.capStop, h.only.capFaults, h.only.pipes, h.only.foxKey, h.only.foxCount, h.only.foxChecked, (fun e => nomatch b64.symm.trans e), h.only.power, h.only.hotSwap, h.only.resets, h.only.wide, h.only.perst, h.only.pcieOut, (fun e => nomatch b71.symm.trans e), h.only.flash, h.only.wire⟩⟩

theorem Does.updPower {msk : Nat} {s0 s : State} (h : Does msk s0 s) {power' : Power}
    (b65 : msk.testBit 65 = true)  :
    Does msk s0 { s with power := power' } :=
  ⟨⟨h.keeps.pending, fun i => let j := h.keeps.inv i; ⟨j.1, j.2, j.3, j.4, j.5, j.6, j.7, j.8⟩⟩, ⟨h.only.now, h.only.pll, h.only.aclkBase, h.only.aclkFrom, h.only.fresh, h.only.regs, h.only.log, h.only.lc, h.only.msix, h.only.msixCtl, h.only.sent, h.only.rdata, h.only.rstat, h.only.pipeActive, h.only.hbm, h.only.tile, h.only.host, h.only.engines, h.only.semCycles, h.only.fslots, h.only.fclock, h.only.fwaiting, h.only.pageIns, h.only.fsigs, h.only.transits, h.only.arbs, h.only.replies, h.only.arrived, h.only.mcs, h.only.routers, h.only.meshOut, h.only.ctxs, h.only.queues, h.only.slots, h.only.reloc, h.only.jobs, h.only.jobKey, h.only.copies, h.only.compWaits, h.only.cx, h.only.disps, h.only.pres, h.only.xfers, h.only.placedIn, h.only.lastServed, h.only.passes, h.only.geoTurn, h.only.hostReads, h.only.model, h.only.loading, h.only.monFrame, h.only.failOrder, h.only.mbWait, h.only.mboxes, h.only.mbOrder, h.only.staging, h.only.caps, h.only.capStop, h.only.capFaults, h.only.pipes, h.only.foxKey, h.only.foxCount, h.only.foxChecked, h.only.foxCmd, (fun e => nomatch b65.symm.trans e), h.only.hotSwap, h.only.resets, h.only.wide, h.only.perst, h.only.pcieOut, h.only.peony, h.only.flash, h.only.wire⟩⟩

theorem Does.updHotSwap {msk : Nat} {s0 s : State} (h : Does msk s0 s) {hotSwap' : HotSwap}
    (b66 : msk.testBit 66 = true)  :
    Does msk s0 { s with hotSwap := hotSwap' } :=
  ⟨⟨h.keeps.pending, fun i => let j := h.keeps.inv i; ⟨j.1, j.2, j.3, j.4, j.5, j.6, j.7, j.8⟩⟩, ⟨h.only.now, h.only.pll, h.only.aclkBase, h.only.aclkFrom, h.only.fresh, h.only.regs, h.only.log, h.only.lc, h.only.msix, h.only.msixCtl, h.only.sent, h.only.rdata, h.only.rstat, h.only.pipeActive, h.only.hbm, h.only.tile, h.only.host, h.only.engines, h.only.semCycles, h.only.fslots, h.only.fclock, h.only.fwaiting, h.only.pageIns, h.only.fsigs, h.only.transits, h.only.arbs, h.only.replies, h.only.arrived, h.only.mcs, h.only.routers, h.only.meshOut, h.only.ctxs, h.only.queues, h.only.slots, h.only.reloc, h.only.jobs, h.only.jobKey, h.only.copies, h.only.compWaits, h.only.cx, h.only.disps, h.only.pres, h.only.xfers, h.only.placedIn, h.only.lastServed, h.only.passes, h.only.geoTurn, h.only.hostReads, h.only.model, h.only.loading, h.only.monFrame, h.only.failOrder, h.only.mbWait, h.only.mboxes, h.only.mbOrder, h.only.staging, h.only.caps, h.only.capStop, h.only.capFaults, h.only.pipes, h.only.foxKey, h.only.foxCount, h.only.foxChecked, h.only.foxCmd, h.only.power, (fun e => nomatch b66.symm.trans e), h.only.resets, h.only.wide, h.only.perst, h.only.pcieOut, h.only.peony, h.only.flash, h.only.wire⟩⟩

theorem Does.updResets {msk : Nat} {s0 s : State} (h : Does msk s0 s) {resets' : List PReset}
    (b67 : msk.testBit 67 = true)  :
    Does msk s0 { s with resets := resets' } :=
  ⟨⟨h.keeps.pending, fun i => let j := h.keeps.inv i; ⟨j.1, j.2, j.3, j.4, j.5, j.6, j.7, j.8⟩⟩, ⟨h.only.now, h.only.pll, h.only.aclkBase, h.only.aclkFrom, h.only.fresh, h.only.regs, h.only.log, h.only.lc, h.only.msix, h.only.msixCtl, h.only.sent, h.only.rdata, h.only.rstat, h.only.pipeActive, h.only.hbm, h.only.tile, h.only.host, h.only.engines, h.only.semCycles, h.only.fslots, h.only.fclock, h.only.fwaiting, h.only.pageIns, h.only.fsigs, h.only.transits, h.only.arbs, h.only.replies, h.only.arrived, h.only.mcs, h.only.routers, h.only.meshOut, h.only.ctxs, h.only.queues, h.only.slots, h.only.reloc, h.only.jobs, h.only.jobKey, h.only.copies, h.only.compWaits, h.only.cx, h.only.disps, h.only.pres, h.only.xfers, h.only.placedIn, h.only.lastServed, h.only.passes, h.only.geoTurn, h.only.hostReads, h.only.model, h.only.loading, h.only.monFrame, h.only.failOrder, h.only.mbWait, h.only.mboxes, h.only.mbOrder, h.only.staging, h.only.caps, h.only.capStop, h.only.capFaults, h.only.pipes, h.only.foxKey, h.only.foxCount, h.only.foxChecked, h.only.foxCmd, h.only.power, h.only.hotSwap, (fun e => nomatch b67.symm.trans e), h.only.wide, h.only.perst, h.only.pcieOut, h.only.peony, h.only.flash, h.only.wire⟩⟩

theorem Does.updWide {msk : Nat} {s0 s : State} (h : Does msk s0 s) {wide' : Option Nat}
    (b68 : msk.testBit 68 = true)  :
    Does msk s0 { s with wide := wide' } :=
  ⟨⟨h.keeps.pending, fun i => let j := h.keeps.inv i; ⟨j.1, j.2, j.3, j.4, j.5, j.6, j.7, j.8⟩⟩, ⟨h.only.now, h.only.pll, h.only.aclkBase, h.only.aclkFrom, h.only.fresh, h.only.regs, h.only.log, h.only.lc, h.only.msix, h.only.msixCtl, h.only.sent, h.only.rdata, h.only.rstat, h.only.pipeActive, h.only.hbm, h.only.tile, h.only.host, h.only.engines, h.only.semCycles, h.only.fslots, h.only.fclock, h.only.fwaiting, h.only.pageIns, h.only.fsigs, h.only.transits, h.only.arbs, h.only.replies, h.only.arrived, h.only.mcs, h.only.routers, h.only.meshOut, h.only.ctxs, h.only.queues, h.only.slots, h.only.reloc, h.only.jobs, h.only.jobKey, h.only.copies, h.only.compWaits, h.only.cx, h.only.disps, h.only.pres, h.only.xfers, h.only.placedIn, h.only.lastServed, h.only.passes, h.only.geoTurn, h.only.hostReads, h.only.model, h.only.loading, h.only.monFrame, h.only.failOrder, h.only.mbWait, h.only.mboxes, h.only.mbOrder, h.only.staging, h.only.caps, h.only.capStop, h.only.capFaults, h.only.pipes, h.only.foxKey, h.only.foxCount, h.only.foxChecked, h.only.foxCmd, h.only.power, h.only.hotSwap, h.only.resets, (fun e => nomatch b68.symm.trans e), h.only.perst, h.only.pcieOut, h.only.peony, h.only.flash, h.only.wire⟩⟩

theorem Does.updPerst {msk : Nat} {s0 s : State} (h : Does msk s0 s) {perst' : Bool}
    (b69 : msk.testBit 69 = true)  :
    Does msk s0 { s with perst := perst' } :=
  ⟨⟨h.keeps.pending, fun i => let j := h.keeps.inv i; ⟨j.1, j.2, j.3, j.4, j.5, j.6, j.7, j.8⟩⟩, ⟨h.only.now, h.only.pll, h.only.aclkBase, h.only.aclkFrom, h.only.fresh, h.only.regs, h.only.log, h.only.lc, h.only.msix, h.only.msixCtl, h.only.sent, h.only.rdata, h.only.rstat, h.only.pipeActive, h.only.hbm, h.only.tile, h.only.host, h.only.engines, h.only.semCycles, h.only.fslots, h.only.fclock, h.only.fwaiting, h.only.pageIns, h.only.fsigs, h.only.transits, h.only.arbs, h.only.replies, h.only.arrived, h.only.mcs, h.only.routers, h.only.meshOut, h.only.ctxs, h.only.queues, h.only.slots, h.only.reloc, h.only.jobs, h.only.jobKey, h.only.copies, h.only.compWaits, h.only.cx, h.only.disps, h.only.pres, h.only.xfers, h.only.placedIn, h.only.lastServed, h.only.passes, h.only.geoTurn, h.only.hostReads, h.only.model, h.only.loading, h.only.monFrame, h.only.failOrder, h.only.mbWait, h.only.mboxes, h.only.mbOrder, h.only.staging, h.only.caps, h.only.capStop, h.only.capFaults, h.only.pipes, h.only.foxKey, h.only.foxCount, h.only.foxChecked, h.only.foxCmd, h.only.power, h.only.hotSwap, h.only.resets, h.only.wide, (fun e => nomatch b69.symm.trans e), h.only.pcieOut, h.only.peony, h.only.flash, h.only.wire⟩⟩

theorem Does.updPcieOutPeony {msk : Nat} {s0 s : State} (h : Does msk s0 s) {pcieOut' : Bool} {peony' : Peony}
    (b70 : msk.testBit 70 = true) (b71 : msk.testBit 71 = true)  :
    Does msk s0 { s with pcieOut := pcieOut', peony := peony' } :=
  ⟨⟨h.keeps.pending, fun i => let j := h.keeps.inv i; ⟨j.1, j.2, j.3, j.4, j.5, j.6, j.7, j.8⟩⟩, ⟨h.only.now, h.only.pll, h.only.aclkBase, h.only.aclkFrom, h.only.fresh, h.only.regs, h.only.log, h.only.lc, h.only.msix, h.only.msixCtl, h.only.sent, h.only.rdata, h.only.rstat, h.only.pipeActive, h.only.hbm, h.only.tile, h.only.host, h.only.engines, h.only.semCycles, h.only.fslots, h.only.fclock, h.only.fwaiting, h.only.pageIns, h.only.fsigs, h.only.transits, h.only.arbs, h.only.replies, h.only.arrived, h.only.mcs, h.only.routers, h.only.meshOut, h.only.ctxs, h.only.queues, h.only.slots, h.only.reloc, h.only.jobs, h.only.jobKey, h.only.copies, h.only.compWaits, h.only.cx, h.only.disps, h.only.pres, h.only.xfers, h.only.placedIn, h.only.lastServed, h.only.passes, h.only.geoTurn, h.only.hostReads, h.only.model, h.only.loading, h.only.monFrame, h.only.failOrder, h.only.mbWait, h.only.mboxes, h.only.mbOrder, h.only.staging, h.only.caps, h.only.capStop, h.only.capFaults, h.only.pipes, h.only.foxKey, h.only.foxCount, h.only.foxChecked, h.only.foxCmd, h.only.power, h.only.hotSwap, h.only.resets, h.only.wide, h.only.perst, (fun e => nomatch b70.symm.trans e), (fun e => nomatch b71.symm.trans e), h.only.flash, h.only.wire⟩⟩

theorem Does.updPeony {msk : Nat} {s0 s : State} (h : Does msk s0 s) {peony' : Peony}
    (b71 : msk.testBit 71 = true)  :
    Does msk s0 { s with peony := peony' } :=
  ⟨⟨h.keeps.pending, fun i => let j := h.keeps.inv i; ⟨j.1, j.2, j.3, j.4, j.5, j.6, j.7, j.8⟩⟩, ⟨h.only.now, h.only.pll, h.only.aclkBase, h.only.aclkFrom, h.only.fresh, h.only.regs, h.only.log, h.only.lc, h.only.msix, h.only.msixCtl, h.only.sent, h.only.rdata, h.only.rstat, h.only.pipeActive, h.only.hbm, h.only.tile, h.only.host, h.only.engines, h.only.semCycles, h.only.fslots, h.only.fclock, h.only.fwaiting, h.only.pageIns, h.only.fsigs, h.only.transits, h.only.arbs, h.only.replies, h.only.arrived, h.only.mcs, h.only.routers, h.only.meshOut, h.only.ctxs, h.only.queues, h.only.slots, h.only.reloc, h.only.jobs, h.only.jobKey, h.only.copies, h.only.compWaits, h.only.cx, h.only.disps, h.only.pres, h.only.xfers, h.only.placedIn, h.only.lastServed, h.only.passes, h.only.geoTurn, h.only.hostReads, h.only.model, h.only.loading, h.only.monFrame, h.only.failOrder, h.only.mbWait, h.only.mboxes, h.only.mbOrder, h.only.staging, h.only.caps, h.only.capStop, h.only.capFaults, h.only.pipes, h.only.foxKey, h.only.foxCount, h.only.foxChecked, h.only.foxCmd, h.only.power, h.only.hotSwap, h.only.resets, h.only.wide, h.only.perst, h.only.pcieOut, (fun e => nomatch b71.symm.trans e), h.only.flash, h.only.wire⟩⟩

theorem Does.updFlash {msk : Nat} {s0 s : State} (h : Does msk s0 s) {flash' : Mem}
    (b72 : msk.testBit 72 = true) (w72 : s.flash.wf = true → flash'.wf = true) :
    Does msk s0 { s with flash := flash' } :=
  ⟨⟨h.keeps.pending, fun i => let j := h.keeps.inv i; ⟨j.1, j.2, j.3, j.4, w72 j.5, j.6, j.7, j.8⟩⟩, ⟨h.only.now, h.only.pll, h.only.aclkBase, h.only.aclkFrom, h.only.fresh, h.only.regs, h.only.log, h.only.lc, h.only.msix, h.only.msixCtl, h.only.sent, h.only.rdata, h.only.rstat, h.only.pipeActive, h.only.hbm, h.only.tile, h.only.host, h.only.engines, h.only.semCycles, h.only.fslots, h.only.fclock, h.only.fwaiting, h.only.pageIns, h.only.fsigs, h.only.transits, h.only.arbs, h.only.replies, h.only.arrived, h.only.mcs, h.only.routers, h.only.meshOut, h.only.ctxs, h.only.queues, h.only.slots, h.only.reloc, h.only.jobs, h.only.jobKey, h.only.copies, h.only.compWaits, h.only.cx, h.only.disps, h.only.pres, h.only.xfers, h.only.placedIn, h.only.lastServed, h.only.passes, h.only.geoTurn, h.only.hostReads, h.only.model, h.only.loading, h.only.monFrame, h.only.failOrder, h.only.mbWait, h.only.mboxes, h.only.mbOrder, h.only.staging, h.only.caps, h.only.capStop, h.only.capFaults, h.only.pipes, h.only.foxKey, h.only.foxCount, h.only.foxChecked, h.only.foxCmd, h.only.power, h.only.hotSwap, h.only.resets, h.only.wide, h.only.perst, h.only.pcieOut, h.only.peony, (fun e => nomatch b72.symm.trans e), h.only.wire⟩⟩

theorem Does.updWire {msk : Nat} {s0 s : State} (h : Does msk s0 s) {wire' : List Byte}
    (b73 : msk.testBit 73 = true)  :
    Does msk s0 { s with wire := wire' } :=
  ⟨⟨h.keeps.pending, fun i => let j := h.keeps.inv i; ⟨j.1, j.2, j.3, j.4, j.5, j.6, j.7, j.8⟩⟩, ⟨h.only.now, h.only.pll, h.only.aclkBase, h.only.aclkFrom, h.only.fresh, h.only.regs, h.only.log, h.only.lc, h.only.msix, h.only.msixCtl, h.only.sent, h.only.rdata, h.only.rstat, h.only.pipeActive, h.only.hbm, h.only.tile, h.only.host, h.only.engines, h.only.semCycles, h.only.fslots, h.only.fclock, h.only.fwaiting, h.only.pageIns, h.only.fsigs, h.only.transits, h.only.arbs, h.only.replies, h.only.arrived, h.only.mcs, h.only.routers, h.only.meshOut, h.only.ctxs, h.only.queues, h.only.slots, h.only.reloc, h.only.jobs, h.only.jobKey, h.only.copies, h.only.compWaits, h.only.cx, h.only.disps, h.only.pres, h.only.xfers, h.only.placedIn, h.only.lastServed, h.only.passes, h.only.geoTurn, h.only.hostReads, h.only.model, h.only.loading, h.only.monFrame, h.only.failOrder, h.only.mbWait, h.only.mboxes, h.only.mbOrder, h.only.staging, h.only.caps, h.only.capStop, h.only.capFaults, h.only.pipes, h.only.foxKey, h.only.foxCount, h.only.foxChecked, h.only.foxCmd, h.only.power, h.only.hotSwap, h.only.resets, h.only.wide, h.only.perst, h.only.pcieOut, h.only.peony, h.only.flash, (fun e => nomatch b73.symm.trans e)⟩⟩

end Sys2Proof.Machine
end

