-- ==== Sys2Proof/Laws/Does/Regs.lean ====
section
/-!
SUPPORT. What every function of Machine/Regs.lean does: it keeps the queue and the invariant, and changes
no field of the state outside the set its lemma names.
-/
set_option linter.unreachableTactic false
set_option linter.unusedTactic false

namespace Sys2Proof.Machine

set_option Elab.async false

theorem does_wr (s : State) (off : Nat) (v : Nat) {s0 : State} {msk : Nat} (hk : Does msk s0 s)
    (hT : Sub 0x40 msk := by first | exact Sub.of_eq rfl | exact Sub.mono (by assumption) rfl) : Does msk s0 (wr s off v) := by
  delta wr
  repeat' first
    | with_reducible assumption
    | with_reducible apply Does.ifte
    | split
    | with_reducible apply Does.updRegs
    | exact fun x => x
    | exact Mem.wf_writeBytes _ _ _
    | exact Mem.wf_writeNat _ _ _ _
    | exact Mem.wf_blank _ _ _ _
    | exact Mem.wf_write _ _ _
    | exact tabWf_filter _ _
    | exact tabWf_put _ _ _
    | exact tabWf_drop _ _
    | exact Sub.mono hT rfl
    | exact hT _ rfl
    | intro _

theorem does_setFld (s : State) (off : Nat) (lo : Nat) (n : Nat) (v : Nat) {s0 : State} {msk : Nat} (hk : Does msk s0 s)
    (hT : Sub 0x40 msk := by first | exact Sub.of_eq rfl | exact Sub.mono (by assumption) rfl) : Does msk s0 (setFld s off lo n v) := by
  delta setFld
  repeat' first
    | with_reducible assumption
    | with_reducible apply does_wr
    | with_reducible apply Does.ifte
    | split
    | exact Sub.mono hT rfl
    | exact hT _ rfl
    | intro _

theorem does_bump (s : State) (off : Nat) (k : Nat) {s0 : State} {msk : Nat} (hk : Does msk s0 s)
    (hT : Sub 0x40 msk := by first | exact Sub.of_eq rfl | exact Sub.mono (by assumption) rfl) : Does msk s0 (bump s off k) := by
  delta bump
  repeat' first
    | with_reducible assumption
    | with_reducible apply does_wr
    | with_reducible apply Does.ifte
    | split
    | exact Sub.mono hT rfl
    | exact hT _ rfl
    | intro _

theorem does_bumpSat (s : State) (off : Nat) (lo : Nat) (n : Nat) (k : Nat) {s0 : State} {msk : Nat} (hk : Does msk s0 s)
    (hT : Sub 0x40 msk := by first | exact Sub.of_eq rfl | exact Sub.mono (by assumption) rfl) : Does msk s0 (bumpSat s off lo n k) := by
  delta bumpSat
  repeat' first
    | with_reducible assumption
    | with_reducible apply does_setFld
    | with_reducible apply Does.ifte
    | split
    | exact Sub.mono hT rfl
    | exact hT _ rfl
    | intro _

end Sys2Proof.Machine
end

