-- ==== Sys2Proof/Laws/Does/Common.lean ====
section
/-!
SUPPORT. What every function of Machine/Common.lean does: it keeps the queue and the invariant, and changes
no field of the state outside the set its lemma names.
-/
set_option linter.unreachableTactic false
set_option linter.unusedTactic false

namespace Sys2Proof.Machine

set_option Elab.async false

theorem does_atTime (s : State) (u : Nat) {s0 : State} {msk : Nat} (hk : Does msk s0 s)
    (hT : Sub 0x2 msk := by first | exact Sub.of_eq rfl | exact Sub.mono (by assumption) rfl) : Does msk s0 (atTime s u) := by
  delta atTime
  repeat' first
    | with_reducible assumption
    | with_reducible apply Does.ifte
    | split
    | with_reducible apply Does.updNow
    | exact Sub.mono hT rfl
    | exact hT _ rfl
    | intro _

theorem does_atWake (s : State) (t : Nat) {s0 : State} {msk : Nat} (hk : Does msk s0 s)
    (hT : Sub 0x2 msk := by first | exact Sub.of_eq rfl | exact Sub.mono (by assumption) rfl) : Does msk s0 (atWake s t) := by
  delta atWake
  repeat' first
    | with_reducible assumption
    | with_reducible apply does_atTime
    | with_reducible apply Does.ifte
    | split
    | exact Sub.mono hT rfl
    | exact hT _ rfl
    | intro _

theorem does_atAclk (s : State) (c : Nat) {s0 : State} {msk : Nat} (hk : Does msk s0 s)
    (hT : Sub 0x2 msk := by first | exact Sub.of_eq rfl | exact Sub.mono (by assumption) rfl) : Does msk s0 (atAclk s c) := by
  delta atAclk
  repeat' first
    | with_reducible assumption
    | with_reducible apply does_atTime
    | with_reducible apply Does.ifte
    | split
    | exact Sub.mono hT rfl
    | exact hT _ rfl
    | intro _

theorem does_free (s : State) {s0 : State} {msk : Nat} (hk : Does msk s0 s)
    (hT : Sub 0x20 msk := by first | exact Sub.of_eq rfl | exact Sub.mono (by assumption) rfl) : Does msk s0 (free s).2 := by
  delta free
  repeat' first
    | with_reducible assumption
    | with_reducible apply Does.ifte
    | with_reducible apply Does.ifte_fst
    | with_reducible apply Does.ifte_snd
    | split
    | with_reducible apply Does.updFresh
    | exact Sub.mono hT rfl
    | exact hT _ rfl
    | intro _

theorem does_setVec (s : State) (p : Nat) (v : Nat) (x : Msix) {s0 : State} {msk : Nat} (hk : Does msk s0 s)
    (hT : Sub 0x200 msk := by first | exact Sub.of_eq rfl | exact Sub.mono (by assumption) rfl) : Does msk s0 (setVec s p v x) := by
  delta setVec
  repeat' first
    | with_reducible assumption
    | with_reducible apply Does.ifte
    | split
    | with_reducible apply Does.updMsix
    | exact Sub.mono hT rfl
    | exact hT _ rfl
    | intro _

theorem does_raise (s : State) (p : Nat) (v : Nat) {s0 : State} {msk : Nat} (hk : Does msk s0 s)
    (hT : Sub 0x200 msk := by first | exact Sub.of_eq rfl | exact Sub.mono (by assumption) rfl) : Does msk s0 (raise s p v) := by
  delta raise
  repeat' first
    | with_reducible assumption
    | with_reducible apply does_setVec
    | with_reducible apply does_message
    | with_reducible apply Does.ifte
    | split
    | exact Sub.mono hT rfl
    | exact hT _ rfl
    | intro _

theorem does_appendAt (s : State) (r : Rep) (st : Stamp) {s0 : State} {msk : Nat} (hk : Does msk s0 s)
    (hT : Sub 0x280 msk := by first | exact Sub.of_eq rfl | exact Sub.mono (by assumption) rfl) : Does msk s0 (appendAt s r st) := by
  delta appendAt
  repeat' first
    | with_reducible assumption
    | (extract_lets -underBinder +onlyGivenNames x; refine does_cut (msk := msk) (s0 := s0) (x := x) ?_ fun _ => ?_; rotate_left; clear_value x; revert x; intro _ _; rotate_left; subst x)
    | (extract_lets -underBinder +onlyGivenNames x; clear_value x; revert x; intro _)
    | with_reducible apply does_raise
    | exact fun h => ⟨ErrLog.store_length _ _ h.1, ErrLog.store_seq_lt _ _⟩
    | with_reducible apply Does.ifte
    | split
    | with_reducible apply Does.updLog
    | exact fun x => x
    | exact Mem.wf_writeBytes _ _ _
    | exact Mem.wf_writeNat _ _ _ _
    | exact Mem.wf_blank _ _ _ _
    | exact Mem.wf_write _ _ _
    | exact tabWf_filter _ _
    | exact tabWf_put _ _ _
    | exact tabWf_drop _ _
    | exact Sub.mono hT rfl
    | exact hT _ rfl
    | intro _

theorem does_append (s : State) (r : Rep) {s0 : State} {msk : Nat} (hk : Does msk s0 s)
    (hT : Sub 0x280 msk := by first | exact Sub.of_eq rfl | exact Sub.mono (by assumption) rfl) : Does msk s0 (append s r) := by
  delta append
  repeat' first
    | with_reducible assumption
    | with_reducible apply does_appendAt
    | with_reducible apply Does.ifte
    | split
    | exact Sub.mono hT rfl
    | exact hT _ rfl
    | intro _

end Sys2Proof.Machine
end

