-- ==== Sys2Proof/Laws/Does/CapBase.lean ====
section
/-!
SUPPORT. What every function of Machine/CapBase.lean does: it keeps the queue and the invariant, and changes
no field of the state outside the set its lemma names.
-/
set_option linter.unreachableTactic false
set_option linter.unusedTactic false

namespace Sys2Proof.Machine

set_option Elab.async false

theorem does_setCapVc (s : State) (u : Nat) (v : Nat) (x : CapVc) {s0 : State} {msk : Nat} (hk : Does msk s0 s)
    (hT : Sub 0x200000000000000 msk := by first | exact Sub.of_eq rfl | exact Sub.mono (by assumption) rfl) : Does msk s0 (setCapVc s u v x) := by
  delta setCapVc
  repeat' first
    | with_reducible assumption
    | with_reducible apply Does.ifte
    | split
    | with_reducible apply Does.updCaps
    | exact Sub.mono hT rfl
    | exact hT _ rfl
    | intro _

theorem does_capSetFlags (s : State) (u : Nat) (v : Nat) (m : Nat) {s0 : State} {msk : Nat} (hk : Does msk s0 s)
    (hT : Sub 0x200000000000000 msk := by first | exact Sub.of_eq rfl | exact Sub.mono (by assumption) rfl) : Does msk s0 (capSetFlags s u v m) := by
  delta capSetFlags
  repeat' first
    | with_reducible assumption
    | (extract_lets -underBinder +onlyGivenNames x; refine does_cut (msk := msk) (s0 := s0) (x := x) ?_ fun _ => ?_; rotate_left; clear_value x; revert x; intro _ _; rotate_left; subst x)
    | (extract_lets -underBinder +onlyGivenNames x; clear_value x; revert x; intro _)
    | with_reducible apply does_setCapVc
    | with_reducible apply Does.ifte
    | split
    | exact Sub.mono hT rfl
    | exact hT _ rfl
    | intro _

theorem does_capFault (s : State) (u : Nat) (v : Nat) (code : Nat) {s0 : State} {msk : Nat} (hk : Does msk s0 s)
    (hT : Sub 0xa00000000000040 msk := by first | exact Sub.of_eq rfl | exact Sub.mono (by assumption) rfl) : Does msk s0 (capFault s u v code) := by
  delta capFault
  repeat' first
    | with_reducible assumption
    | (extract_lets -underBinder +onlyGivenNames x; refine does_cut (msk := msk) (s0 := s0) (x := x) ?_ fun _ => ?_; rotate_left; clear_value x; revert x; intro _ _; rotate_left; subst x)
    | (extract_lets -underBinder +onlyGivenNames x; clear_value x; revert x; intro _)
    | with_reducible apply does_bump
    | with_reducible apply does_capSetFlags
    | with_reducible apply Does.ifte
    | split
    | with_reducible apply Does.updCapFaults
    | exact Sub.mono hT rfl
    | exact hT _ rfl
    | intro _

theorem does_capClose (s : State) (u : Nat) (v : Nat) {s0 : State} {msk : Nat} (hk : Does msk s0 s)
    (hT : Sub 0xa00000000000040 msk := by first | exact Sub.of_eq rfl | exact Sub.mono (by assumption) rfl) : Does msk s0 (capClose s u v) := by
  delta capClose
  repeat' first
    | with_reducible assumption
    | (extract_lets -underBinder +onlyGivenNames x; refine does_cut (msk := msk) (s0 := s0) (x := x) ?_ fun _ => ?_; rotate_left; clear_value x; revert x; intro _ _; rotate_left; subst x)
    | (extract_lets -underBinder +onlyGivenNames x; clear_value x; revert x; intro _)
    | with_reducible apply does_setFld
    | with_reducible apply does_bump
    | with_reducible apply does_setCapVc
    | with_reducible apply does_capFault
    | with_reducible apply Does.ifte
    | split
    | exact Sub.mono hT rfl
    | exact hT _ rfl
    | intro _

theorem does_capRecords (s : State) (a : List CapFault) {s0 : State} {msk : Nat} (hk : Does msk s0 s)
    (hT : Sub 0x280 msk := by first | exact Sub.of_eq rfl | exact Sub.mono (by assumption) rfl) : Does msk s0 (capRecords s a) := by
  induction a generalizing s with
  | nil => unfold capRecords; with_reducible assumption
  | cons x r ih =>
    unfold capRecords
    repeat' first
    | with_reducible apply ih
    | with_reducible assumption
    | (extract_lets -underBinder +onlyGivenNames x; refine does_cut (msk := msk) (s0 := s0) (x := x) ?_ fun _ => ?_; rotate_left; clear_value x; revert x; intro _ _; rotate_left; subst x)
    | (extract_lets -underBinder +onlyGivenNames x; clear_value x; revert x; intro _)
    | with_reducible apply does_raise
    | with_reducible apply does_appendAt
    | with_reducible apply Does.ifte
    | split
    | exact Sub.mono hT rfl
    | exact hT _ rfl
    | intro _

theorem does_capEdges (s : State) (a : List Nat) {s0 : State} {msk : Nat} (hk : Does msk s0 s)
    (hT : Sub 0xa00000000000040 msk := by first | exact Sub.of_eq rfl | exact Sub.mono (by assumption) rfl) : Does msk s0 (capEdges s a) := by
  induction a generalizing s with
  | nil => unfold capEdges; with_reducible assumption
  | cons x r ih =>
    unfold capEdges
    repeat' first
    | with_reducible apply ih
    | with_reducible assumption
    | (extract_lets -underBinder +onlyGivenNames x; refine does_cut (msk := msk) (s0 := s0) (x := x) ?_ fun _ => ?_; rotate_left; clear_value x; revert x; intro _ _; rotate_left; subst x)
    | (extract_lets -underBinder +onlyGivenNames x; clear_value x; revert x; intro _)
    | with_reducible apply does_setCapVc
    | with_reducible apply does_capClose
    | with_reducible apply Does.ifte
    | split
    | exact Sub.mono hT rfl
    | exact hT _ rfl
    | intro _

theorem does_capBoundary (s : State) {s0 : State} {msk : Nat} (hk : Does msk s0 s)
    (hT : Sub 0xa000000000002c0 msk := by first | exact Sub.of_eq rfl | exact Sub.mono (by assumption) rfl) : Does msk s0 (capBoundary s) := by
  delta capBoundary
  repeat' first
    | with_reducible assumption
    | (extract_lets -underBinder +onlyGivenNames x; refine does_cut (msk := msk) (s0 := s0) (x := x) ?_ fun _ => ?_; rotate_left; clear_value x; revert x; intro _ _; rotate_left; subst x)
    | (extract_lets -underBinder +onlyGivenNames x; refine does_cut (msk := msk) (s0 := s0) (x := x.1) ?_ fun _ => ?_; rotate_left; clear_value x; revert x; intro _ _; rotate_left; subst x)
    | (extract_lets -underBinder +onlyGivenNames x; clear_value x; revert x; intro _)
    | with_reducible apply does_capRecords
    | with_reducible apply does_capEdges
    | with_reducible apply Does.ifte
    | with_reducible apply Does.ifte_fst
    | with_reducible apply Does.ifte_snd
    | split
    | with_reducible apply Does.updCapFaults
    | exact Sub.mono hT rfl
    | exact hT _ rfl
    | intro _

theorem does_capNewFrame (s : State) (u : Nat) (v : Nat) {s0 : State} {msk : Nat} (hk : Does msk s0 s)
    (hT : Sub 0x200000000000000 msk := by first | exact Sub.of_eq rfl | exact Sub.mono (by assumption) rfl) : Does msk s0 (capNewFrame s u v) := by
  delta capNewFrame
  repeat' first
    | with_reducible assumption
    | (extract_lets -underBinder +onlyGivenNames x; refine does_cut (msk := msk) (s0 := s0) (x := x) ?_ fun _ => ?_; rotate_left; clear_value x; revert x; intro _ _; rotate_left; subst x)
    | (extract_lets -underBinder +onlyGivenNames x; clear_value x; revert x; intro _)
    | with_reducible apply does_setCapVc
    | with_reducible apply Does.ifte
    | split
    | exact Sub.mono hT rfl
    | exact hT _ rfl
    | intro _

theorem does_capRebind (s : State) (u : Nat) (v : Nat) {s0 : State} {msk : Nat} (hk : Does msk s0 s)
    (hT : Sub 0x200000000000000 msk := by first | exact Sub.of_eq rfl | exact Sub.mono (by assumption) rfl) : Does msk s0 (capRebind s u v) := by
  delta capRebind
  repeat' first
    | with_reducible assumption
    | (extract_lets -underBinder +onlyGivenNames x; refine does_cut (msk := msk) (s0 := s0) (x := x) ?_ fun _ => ?_; rotate_left; clear_value x; revert x; intro _ _; rotate_left; subst x)
    | (extract_lets -underBinder +onlyGivenNames x; clear_value x; revert x; intro _)
    | with_reducible apply does_setCapVc
    | with_reducible apply does_capNewFrame
    | with_reducible apply Does.ifte
    | split
    | exact Sub.mono hT rfl
    | exact hT _ rfl
    | intro _

theorem does_capRebinds (s : State) (a : List (Nat × Nat)) {s0 : State} {msk : Nat} (hk : Does msk s0 s)
    (hT : Sub 0x200000000000000 msk := by first | exact Sub.of_eq rfl | exact Sub.mono (by assumption) rfl) : Does msk s0 (capRebinds s a) := by
  induction a generalizing s with
  | nil => unfold capRebinds; with_reducible assumption
  | cons x r ih =>
    unfold capRebinds
    repeat' first
    | with_reducible apply ih
    | with_reducible assumption
    | with_reducible apply does_capRebind
    | with_reducible apply Does.ifte
    | split
    | exact Sub.mono hT rfl
    | exact hT _ rfl
    | intro _

theorem does_capHalt (s : State) (u : Nat) {s0 : State} {msk : Nat} (hk : Does msk s0 s)
    (hT : Sub 0x600000000000000 msk := by first | exact Sub.of_eq rfl | exact Sub.mono (by assumption) rfl) : Does msk s0 (capHalt s u) := by
  delta capHalt
  repeat' first
    | with_reducible assumption
    | (extract_lets -underBinder +onlyGivenNames x; refine does_cut (msk := msk) (s0 := s0) (x := x) ?_ fun _ => ?_; rotate_left; clear_value x; revert x; intro _ _; rotate_left; subst x)
    | (extract_lets -underBinder +onlyGivenNames x; clear_value x; revert x; intro _)
    | with_reducible apply Does.ifte
    | split
    | with_reducible apply Does.updCaps
    | with_reducible apply Does.updCapStop
    | exact Sub.mono hT rfl
    | exact hT _ rfl
    | intro _

end Sys2Proof.Machine
end

