-- ==== Sys2Proof/Laws/Does/LineClock.lean ====
section
/-!
SUPPORT. What every function of Machine/LineClock.lean does: it keeps the queue and the invariant, and changes
no field of the state outside the set its lemma names.
-/
set_option linter.unreachableTactic false
set_option linter.unusedTactic false

namespace Sys2Proof.Machine

set_option Elab.async false

theorem does_lcFrameRecords (s : State) {s0 : State} {msk : Nat} (hk : Does msk s0 s)
    (hT : Sub 0x280 msk := by first | exact Sub.of_eq rfl | exact Sub.mono (by assumption) rfl) : Does msk s0 (lcFrameRecords s) := by
  delta lcFrameRecords
  repeat' first
    | with_reducible assumption
    | (extract_lets -underBinder +onlyGivenNames x; refine does_cut (msk := msk) (s0 := s0) (x := x) ?_ fun _ => ?_; rotate_left; clear_value x; revert x; intro _ _; rotate_left; subst x)
    | (extract_lets -underBinder +onlyGivenNames x; clear_value x; revert x; intro _)
    | with_reducible apply does_appendAt
    | with_reducible apply Does.ifte
    | split
    | exact Sub.mono hT rfl
    | exact hT _ rfl
    | intro _

theorem does_lcFrameEdge (s : State) (t : Nat) (first : Bool) {s0 : State} {msk : Nat} (hk : Does msk s0 s)
    (hT : Sub 0xa000000000003c0 msk := by first | exact Sub.of_eq rfl | exact Sub.mono (by assumption) rfl) : Does msk s0 (lcFrameEdge s t first) := by
  delta lcFrameEdge
  repeat' first
    | with_reducible assumption
    | (extract_lets -underBinder +onlyGivenNames x; refine does_cut (msk := msk) (s0 := s0) (x := x) ?_ fun _ => ?_; rotate_left; clear_value x; revert x; intro _ _; rotate_left; subst x)
    | (extract_lets -underBinder +onlyGivenNames x; clear_value x; revert x; intro _)
    | with_reducible apply does_setFld
    | with_reducible apply does_capBoundary
    | with_reducible apply does_lcFrameRecords
    | with_reducible apply Does.ifte
    | split
    | with_reducible apply Does.updLc
    | exact Sub.mono hT rfl
    | exact hT _ rfl
    | intro _

theorem does_lcLose (s : State) (t : Nat) {s0 : State} {msk : Nat} (hk : Does msk s0 s)
    (hT : Sub 0xa000000000003c2 msk := by first | exact Sub.of_eq rfl | exact Sub.mono (by assumption) rfl) : Does msk s0 (lcLose s t) := by
  delta lcLose
  repeat' first
    | with_reducible assumption
    | (extract_lets -underBinder +onlyGivenNames x; refine does_cut (msk := msk) (s0 := s0) (x := x) ?_ fun _ => ?_; rotate_left; clear_value x; revert x; intro _ _; rotate_left; subst x)
    | (extract_lets -underBinder +onlyGivenNames x; clear_value x; revert x; intro _)
    | with_reducible apply does_setFld
    | with_reducible apply does_atWake
    | with_reducible apply does_raise
    | with_reducible apply does_append
    | with_reducible apply does_lcFrameEdge
    | with_reducible apply Does.ifte
    | split
    | with_reducible apply Does.updLc
    | exact Sub.mono hT rfl
    | exact hT _ rfl
    | intro _

theorem does_lcAccept (s : State) (t : Nat) {s0 : State} {msk : Nat} (hk : Does msk s0 s)
    (hT : Sub 0xa000000000003c0 msk := by first | exact Sub.of_eq rfl | exact Sub.mono (by assumption) rfl) : Does msk s0 (lcAccept s t) := by
  delta lcAccept
  repeat' first
    | with_reducible assumption
    | (extract_lets -underBinder +onlyGivenNames x; refine does_cut (msk := msk) (s0 := s0) (x := x) ?_ fun _ => ?_; rotate_left; clear_value x; revert x; intro _ _; rotate_left; subst x)
    | (extract_lets -underBinder +onlyGivenNames x; clear_value x; revert x; intro _)
    | with_reducible apply does_lcFrameEdge
    | with_reducible apply Does.ifte
    | split
    | with_reducible apply Does.updLc
    | exact Sub.mono hT rfl
    | exact hT _ rfl
    | intro _

theorem does_lcRegain (s : State) (t : Nat) {s0 : State} {msk : Nat} (hk : Does msk s0 s)
    (hT : Sub 0xa000000000003c0 msk := by first | exact Sub.of_eq rfl | exact Sub.mono (by assumption) rfl) : Does msk s0 (lcRegain s t) := by
  delta lcRegain
  repeat' first
    | with_reducible assumption
    | (extract_lets -underBinder +onlyGivenNames x; refine does_cut (msk := msk) (s0 := s0) (x := x) ?_ fun _ => ?_; rotate_left; clear_value x; revert x; intro _ _; rotate_left; subst x)
    | (extract_lets -underBinder +onlyGivenNames x; clear_value x; revert x; intro _)
    | with_reducible apply does_setFld
    | with_reducible apply does_raise
    | with_reducible apply does_append
    | with_reducible apply does_lcFrameEdge
    | with_reducible apply Does.ifte
    | split
    | with_reducible apply Does.updLc
    | exact Sub.mono hT rfl
    | exact hT _ rfl
    | intro _

theorem does_lcTooSoon (s : State) (t : Nat) {s0 : State} {msk : Nat} (hk : Does msk s0 s)
    (hT : Sub 0x140 msk := by first | exact Sub.of_eq rfl | exact Sub.mono (by assumption) rfl) : Does msk s0 (lcTooSoon s t) := by
  delta lcTooSoon
  repeat' first
    | with_reducible assumption
    | (extract_lets -underBinder +onlyGivenNames x; refine does_cut (msk := msk) (s0 := s0) (x := x) ?_ fun _ => ?_; rotate_left; clear_value x; revert x; intro _ _; rotate_left; subst x)
    | (extract_lets -underBinder +onlyGivenNames x; clear_value x; revert x; intro _)
    | with_reducible apply does_bump
    | with_reducible apply Does.ifte
    | split
    | with_reducible apply Does.updLc
    | exact Sub.mono hT rfl
    | exact hT _ rfl
    | intro _

theorem does_lcJudge (s : State) (t : Nat) {s0 : State} {msk : Nat} (hk : Does msk s0 s)
    (hT : Sub 0xa000000000003c2 msk := by first | exact Sub.of_eq rfl | exact Sub.mono (by assumption) rfl) : Does msk s0 (lcJudge s t) := by
  delta lcJudge
  repeat' first
    | with_reducible assumption
    | (extract_lets -underBinder +onlyGivenNames x; refine does_cut (msk := msk) (s0 := s0) (x := x) ?_ fun _ => ?_; rotate_left; clear_value x; revert x; intro _ _; rotate_left; subst x)
    | (extract_lets -underBinder +onlyGivenNames x; clear_value x; revert x; intro _)
    | with_reducible apply does_atWake
    | with_reducible apply does_lcLose
    | with_reducible apply does_lcAccept
    | with_reducible apply does_lcRegain
    | with_reducible apply does_lcTooSoon
    | with_reducible apply Does.ifte
    | split
    | with_reducible apply Does.updLc
    | exact Sub.mono hT rfl
    | exact hT _ rfl
    | intro _

theorem does_lcTick (s : State) (t256 : Nat) {s0 : State} {msk : Nat} (hk : Does msk s0 s)
    (hT : Sub 0x102 msk := by first | exact Sub.of_eq rfl | exact Sub.mono (by assumption) rfl) : Does msk s0 (lcTick s t256) := by
  delta lcTick
  repeat' first
    | with_reducible assumption
    | (extract_lets -underBinder +onlyGivenNames x; refine does_cut (msk := msk) (s0 := s0) (x := x) ?_ fun _ => ?_; rotate_left; clear_value x; revert x; intro _ _; rotate_left; subst x)
    | (extract_lets -underBinder +onlyGivenNames x; clear_value x; revert x; intro _)
    | with_reducible apply does_atWake
    | with_reducible apply Does.ifte
    | split
    | with_reducible apply Does.updLc
    | exact Sub.mono hT rfl
    | exact hT _ rfl
    | intro _

theorem does_lcChange (s : State) {s0 : State} {msk : Nat} (hk : Does msk s0 s)
    (hT : Sub 0x100 msk := by first | exact Sub.of_eq rfl | exact Sub.mono (by assumption) rfl) : Does msk s0 (lcChange s) := by
  delta lcChange
  repeat' first
    | with_reducible assumption
    | (extract_lets -underBinder +onlyGivenNames x; refine does_cut (msk := msk) (s0 := s0) (x := x) ?_ fun _ => ?_; rotate_left; clear_value x; revert x; intro _ _; rotate_left; subst x)
    | (extract_lets -underBinder +onlyGivenNames x; clear_value x; revert x; intro _)
    | with_reducible apply Does.ifte
    | split
    | with_reducible apply Does.updLc
    | exact Sub.mono hT rfl
    | exact hT _ rfl
    | intro _

theorem does_execLcNowLoRead (t : Nat) (s : State) {s0 : State} {msk : Nat} (hk : Does msk s0 s)
    (hT : Sub 0x3042 msk := by first | exact Sub.of_eq rfl | exact Sub.mono (by assumption) rfl) : DoesOut msk s0 (execLcNowLoRead t s) := by
  delta execLcNowLoRead
  repeat' first
    | with_reducible assumption
    | (extract_lets -underBinder +onlyGivenNames x; refine does_cut (msk := msk) (s0 := s0) (x := x) ?_ fun _ => ?_; rotate_left; clear_value x; revert x; intro _ _; rotate_left; subst x)
    | (extract_lets -underBinder +onlyGivenNames x; clear_value x; revert x; intro _)
    | with_reducible apply does_wr
    | with_reducible apply does_atWake
    | with_reducible apply DoesOut.next
    | with_reducible apply DoesOut.ifte
    | with_reducible apply Does.ifte
    | with_reducible apply Does.ifte_fst
    | with_reducible apply Does.ifte_snd
    | split
    | with_reducible apply Does.updRdataRstat
    | exact Sub.mono hT rfl
    | exact hT _ rfl
    | intro _

theorem does_execLcEdgeLoRead (s : State) {s0 : State} {msk : Nat} (hk : Does msk s0 s)
    (hT : Sub 0x3040 msk := by first | exact Sub.of_eq rfl | exact Sub.mono (by assumption) rfl) : DoesOut msk s0 (execLcEdgeLoRead s) := by
  delta execLcEdgeLoRead
  repeat' first
    | with_reducible assumption
    | with_reducible apply does_wr
    | with_reducible apply DoesOut.next
    | with_reducible apply DoesOut.ifte
    | with_reducible apply Does.ifte
    | with_reducible apply Does.ifte_fst
    | with_reducible apply Does.ifte_snd
    | split
    | with_reducible apply Does.updRdataRstat
    | exact Sub.mono hT rfl
    | exact hT _ rfl
    | intro _

theorem does_execLcSourceChange (s : State) {s0 : State} {msk : Nat} (hk : Does msk s0 s)
    (hT : Sub 0x102 msk := by first | exact Sub.of_eq rfl | exact Sub.mono (by assumption) rfl) : DoesOut msk s0 (execLcSourceChange s) := by
  delta execLcSourceChange
  repeat' first
    | with_reducible assumption
    | with_reducible apply does_atWake
    | with_reducible apply does_lcChange
    | with_reducible apply DoesOut.next
    | with_reducible apply DoesOut.ifte
    | with_reducible apply Does.ifte
    | with_reducible apply Does.ifte_fst
    | with_reducible apply Does.ifte_snd
    | split
    | exact Sub.mono hT rfl
    | exact hT _ rfl
    | intro _

theorem does_execFrameSyncPulse (t : Nat) (len : Nat) (s : State) {s0 : State} {msk : Nat} (hk : Does msk s0 s)
    (hT : Sub 0xa000000000003c2 msk := by first | exact Sub.of_eq rfl | exact Sub.mono (by assumption) rfl) : DoesOut msk s0 (execFrameSyncPulse t len s) := by
  delta execFrameSyncPulse
  repeat' first
    | with_reducible assumption
    | (extract_lets -underBinder +onlyGivenNames x; refine does_cut (msk := msk) (s0 := s0) (x := x) ?_ fun _ => ?_; rotate_left; clear_value x; revert x; intro _ _; rotate_left; subst x)
    | (extract_lets -underBinder +onlyGivenNames x; clear_value x; revert x; intro _)
    | with_reducible apply does_bump
    | with_reducible apply does_atWake
    | with_reducible apply does_lcJudge
    | with_reducible apply DoesOut.next
    | with_reducible apply DoesOut.ifte
    | with_reducible apply Does.ifte
    | with_reducible apply Does.ifte_fst
    | with_reducible apply Does.ifte_snd
    | split
    | with_reducible apply Does.updLc
    | exact Sub.mono hT rfl
    | exact hT _ rfl
    | intro _

theorem does_execFsoPulseEnd (s : State) {s0 : State} {msk : Nat} (hk : Does msk s0 s)
    (hT : Sub 0x100 msk := by first | exact Sub.of_eq rfl | exact Sub.mono (by assumption) rfl) : DoesOut msk s0 (execFsoPulseEnd s) := by
  delta execFsoPulseEnd
  repeat' first
    | with_reducible assumption
    | with_reducible apply DoesOut.next
    | with_reducible apply DoesOut.ifte
    | with_reducible apply Does.ifte
    | with_reducible apply Does.ifte_fst
    | with_reducible apply Does.ifte_snd
    | split
    | with_reducible apply Does.updLc
    | exact Sub.mono hT rfl
    | exact hT _ rfl
    | intro _

theorem does_execInternalFrameEdge (s : State) {s0 : State} {msk : Nat} (hk : Does msk s0 s)
    (hT : Sub 0xa000000000003c2 msk := by first | exact Sub.of_eq rfl | exact Sub.mono (by assumption) rfl) : DoesOut msk s0 (execInternalFrameEdge s) := by
  delta execInternalFrameEdge
  repeat' first
    | with_reducible assumption
    | with_reducible apply does_atWake
    | with_reducible apply does_lcAccept
    | with_reducible apply DoesOut.next
    | with_reducible apply DoesOut.ifte
    | with_reducible apply Does.ifte
    | with_reducible apply Does.ifte_fst
    | with_reducible apply Does.ifte_snd
    | split
    | exact Sub.mono hT rfl
    | exact hT _ rfl
    | intro _

theorem does_execTimebaseLost (s : State) {s0 : State} {msk : Nat} (hk : Does msk s0 s)
    (hT : Sub 0xa000000000003c2 msk := by first | exact Sub.of_eq rfl | exact Sub.mono (by assumption) rfl) : DoesOut msk s0 (execTimebaseLost s) := by
  delta execTimebaseLost
  repeat' first
    | with_reducible assumption
    | with_reducible apply does_lcLose
    | with_reducible apply DoesOut.next
    | with_reducible apply DoesOut.ifte
    | with_reducible apply Does.ifte
    | with_reducible apply Does.ifte_fst
    | with_reducible apply Does.ifte_snd
    | split
    | exact Sub.mono hT rfl
    | exact hT _ rfl
    | intro _

theorem does_execFreewheelFrameEdge (s : State) {s0 : State} {msk : Nat} (hk : Does msk s0 s)
    (hT : Sub 0xa000000000003c2 msk := by first | exact Sub.of_eq rfl | exact Sub.mono (by assumption) rfl) : DoesOut msk s0 (execFreewheelFrameEdge s) := by
  delta execFreewheelFrameEdge
  repeat' first
    | with_reducible assumption
    | with_reducible apply does_atWake
    | with_reducible apply does_lcFrameEdge
    | with_reducible apply DoesOut.next
    | with_reducible apply DoesOut.ifte
    | with_reducible apply Does.ifte
    | with_reducible apply Does.ifte_fst
    | with_reducible apply Does.ifte_snd
    | split
    | exact Sub.mono hT rfl
    | exact hT _ rfl
    | intro _

theorem does_execLineTick (s : State) {s0 : State} {msk : Nat} (hk : Does msk s0 s)
    (hT : Sub 0x102 msk := by first | exact Sub.of_eq rfl | exact Sub.mono (by assumption) rfl) : DoesOut msk s0 (execLineTick s) := by
  delta execLineTick
  repeat' first
    | with_reducible assumption
    | with_reducible apply does_lcTick
    | with_reducible apply DoesOut.next
    | with_reducible apply DoesOut.ifte
    | with_reducible apply Does.ifte
    | with_reducible apply Does.ifte_fst
    | with_reducible apply Does.ifte_snd
    | split
    | exact Sub.mono hT rfl
    | exact hT _ rfl
    | intro _

end Sys2Proof.Machine
end

