-- ==== Sys2Proof/Laws/Does/Fabric.lean ====
section
/-!
SUPPORT. What every function of Machine/Fabric.lean does: it keeps the queue and the invariant, and changes
no field of the state outside the set its lemma names.
-/
set_option linter.unreachableTactic false
set_option linter.unusedTactic false

namespace Sys2Proof.Machine

set_option Elab.async false

theorem does_putBurst (s : State) (tag : Nat) (a : Nat) (data : List Byte) {s0 : State} {msk : Nat} (hk : Does msk s0 s)
    (hT : Sub 0x28800 msk := by first | exact Sub.of_eq rfl | exact Sub.mono (by assumption) rfl) : Does msk s0 (putBurst s tag a data) := by
  delta putBurst
  repeat' first
    | with_reducible assumption
    | with_reducible apply Does.ifte
    | split
    | with_reducible apply Does.updSentHost
    | with_reducible apply Does.updHbm
    | exact fun x => x
    | exact Mem.wf_writeBytes _ _ _
    | exact Mem.wf_writeNat _ _ _ _
    | exact Mem.wf_blank _ _ _ _
    | exact Mem.wf_write _ _ _
    | exact tabWf_filter _ _
    | exact tabWf_put _ _ _
    | exact tabWf_drop _ _
    | exact Sub.mono hT rfl
    | exact hT _ rfl
    | intro _

theorem does_putBursts (s : State) (tag : Nat) (base : Nat) (data : List Byte) (a : List (Nat × Nat)) {s0 : State} {msk : Nat} (hk : Does msk s0 s)
    (hT : Sub 0x28800 msk := by first | exact Sub.of_eq rfl | exact Sub.mono (by assumption) rfl) : Does msk s0 (putBursts s tag base data a) := by
  induction a generalizing s tag base data with
  | nil => unfold putBursts; with_reducible assumption
  | cons x r ih =>
    unfold putBursts
    repeat' first
    | with_reducible apply ih
    | with_reducible assumption
    | with_reducible apply does_putBurst
    | with_reducible apply Does.ifte
    | split
    | exact Sub.mono hT rfl
    | exact hT _ rfl
    | intro _

theorem does_devWrite (s : State) (tag : Nat) (a : Nat) (data : List Byte) {s0 : State} {msk : Nat} (hk : Does msk s0 s)
    (hT : Sub 0x28800 msk := by first | exact Sub.of_eq rfl | exact Sub.mono (by assumption) rfl) : Does msk s0 (devWrite s tag a data) := by
  delta devWrite
  repeat' first
    | with_reducible assumption
    | with_reducible apply does_putBursts
    | with_reducible apply Does.ifte
    | split
    | exact Sub.mono hT rfl
    | exact hT _ rfl
    | intro _

theorem does_violationAs (s : State) (tag : Nat) (req : Nat) (a : Nat) (kind : Nat) (unit : Nat) (w : Who) {s0 : State} {msk : Nat} (hk : Does msk s0 s)
    (hT : Sub 0x2c0 msk := by first | exact Sub.of_eq rfl | exact Sub.mono (by assumption) rfl) : Does msk s0 (violationAs s tag req a kind unit w) := by
  delta violationAs
  repeat' first
    | with_reducible assumption
    | (extract_lets -underBinder +onlyGivenNames x; refine does_cut (msk := msk) (s0 := s0) (x := x) ?_ fun _ => ?_; rotate_left; clear_value x; revert x; intro _ _; rotate_left; subst x)
    | (extract_lets -underBinder +onlyGivenNames x; clear_value x; revert x; intro _)
    | with_reducible apply does_wr
    | with_reducible apply does_bumpSat
    | with_reducible apply does_append
    | with_reducible apply Does.ifte
    | split
    | exact Sub.mono hT rfl
    | exact hT _ rfl
    | intro _

theorem does_violation (s : State) (tag : Nat) (req : Nat) (a : Nat) (w : Who) {s0 : State} {msk : Nat} (hk : Does msk s0 s)
    (hT : Sub 0x2c0 msk := by first | exact Sub.of_eq rfl | exact Sub.mono (by assumption) rfl) : Does msk s0 (violation s tag req a w) := by
  delta violation
  repeat' first
    | with_reducible assumption
    | with_reducible apply does_violationAs
    | with_reducible apply Does.ifte
    | with_reducible apply Does.ifte_fst
    | with_reducible apply Does.ifte_snd
    | split
    | exact Sub.mono hT rfl
    | exact hT _ rfl
    | intro _

theorem does_localViolation (s : State) (tag : Nat) (req : Nat) (low : Nat) (sem : Bool) (logical : Nat) (w : Who) {s0 : State} {msk : Nat} (hk : Does msk s0 s)
    (hT : Sub 0x2c0 msk := by first | exact Sub.of_eq rfl | exact Sub.mono (by assumption) rfl) : Does msk s0 (localViolation s tag req low sem logical w) := by
  delta localViolation
  repeat' first
    | with_reducible assumption
    | (extract_lets -underBinder +onlyGivenNames x; refine does_cut (msk := msk) (s0 := s0) (x := x) ?_ fun _ => ?_; rotate_left; clear_value x; revert x; intro _ _; rotate_left; subst x)
    | (extract_lets -underBinder +onlyGivenNames x; refine does_cut (msk := msk) (s0 := s0) (x := x.1) ?_ fun _ => ?_; rotate_left; clear_value x; revert x; intro _ _; rotate_left; subst x)
    | (extract_lets -underBinder +onlyGivenNames x; refine does_cut (msk := msk) (s0 := s0) (x := x.2) ?_ fun _ => ?_; rotate_left; clear_value x; revert x; intro _ _; rotate_left; subst x)
    | (extract_lets -underBinder +onlyGivenNames x; clear_value x; revert x; intro _)
    | with_reducible apply does_bumpSat
    | with_reducible apply does_append
    | with_reducible apply Does.ifte
    | with_reducible apply Does.ifte_fst
    | with_reducible apply Does.ifte_snd
    | split
    | exact Sub.mono hT rfl
    | exact hT _ rfl
    | intro _

theorem does_setMc (s : State) (c : Nat) (x : McSt) {s0 : State} {msk : Nat} (hk : Does msk s0 s)
    (hT : Sub 0x20000000 msk := by first | exact Sub.of_eq rfl | exact Sub.mono (by assumption) rfl) : Does msk s0 (setMc s c x) := by
  delta setMc
  repeat' first
    | with_reducible assumption
    | with_reducible apply Does.ifte
    | split
    | with_reducible apply Does.updMcs
    | exact Sub.mono hT rfl
    | exact hT _ rfl
    | intro _

theorem does_mcErrReg (s : State) (a : Nat) (ue : Bool) {s0 : State} {msk : Nat} (hk : Does msk s0 s)
    (hT : Sub 0x40 msk := by first | exact Sub.of_eq rfl | exact Sub.mono (by assumption) rfl) : Does msk s0 (mcErrReg s a ue) := by
  delta mcErrReg
  repeat' first
    | with_reducible assumption
    | (extract_lets -underBinder +onlyGivenNames x; refine does_cut (msk := msk) (s0 := s0) (x := x) ?_ fun _ => ?_; rotate_left; clear_value x; revert x; intro _ _; rotate_left; subst x)
    | (extract_lets -underBinder +onlyGivenNames x; refine does_cut (msk := msk) (s0 := s0) (x := x.1) ?_ fun _ => ?_; rotate_left; clear_value x; revert x; intro _ _; rotate_left; subst x)
    | (extract_lets -underBinder +onlyGivenNames x; clear_value x; revert x; intro _)
    | with_reducible apply does_wr
    | with_reducible apply Does.ifte
    | with_reducible apply Does.ifte_fst
    | with_reducible apply Does.ifte_snd
    | split
    | exact Sub.mono hT rfl
    | exact hT _ rfl
    | intro _

theorem does_mcEcc (s : State) (a : Nat) (ecc : Ecc) {s0 : State} {msk : Nat} (hk : Does msk s0 s)
    (hT : Sub 0x200002c0 msk := by first | exact Sub.of_eq rfl | exact Sub.mono (by assumption) rfl) : Does msk s0 (mcEcc s a ecc) := by
  delta mcEcc
  repeat' first
    | with_reducible assumption
    | (extract_lets -underBinder +onlyGivenNames x; refine does_cut (msk := msk) (s0 := s0) (x := x) ?_ fun _ => ?_; rotate_left; clear_value x; revert x; intro _ _; rotate_left; subst x)
    | (extract_lets -underBinder +onlyGivenNames x; refine does_cut (msk := msk) (s0 := s0) (x := x.1) ?_ fun _ => ?_; rotate_left; clear_value x; revert x; intro _ _; rotate_left; subst x)
    | (extract_lets -underBinder +onlyGivenNames x; clear_value x; revert x; intro _)
    | with_reducible apply does_bumpSat
    | with_reducible apply does_append
    | with_reducible apply does_setMc
    | with_reducible apply does_mcErrReg
    | with_reducible apply Does.ifte
    | with_reducible apply Does.ifte_fst
    | with_reducible apply Does.ifte_snd
    | split
    | exact Sub.mono hT rfl
    | exact hT _ rfl
    | intro _

theorem does_setEng (s : State) (e : Nat) (x : Engine) {s0 : State} {msk : Nat} (hk : Does msk s0 s)
    (hT : Sub 0x40000 msk := by first | exact Sub.of_eq rfl | exact Sub.mono (by assumption) rfl) : Does msk s0 (setEng s e x) := by
  delta setEng
  repeat' first
    | with_reducible assumption
    | with_reducible apply Does.ifte
    | split
    | with_reducible apply Does.updEngines
    | exact Sub.mono hT rfl
    | exact hT _ rfl
    | intro _

theorem does_setArb (s : State) (a : Nat) (x : ArbSt) {s0 : State} {msk : Nat} (hk : Does msk s0 s)
    (hT : Sub 0x4000000 msk := by first | exact Sub.of_eq rfl | exact Sub.mono (by assumption) rfl) : Does msk s0 (setArb s a x) := by
  delta setArb
  repeat' first
    | with_reducible assumption
    | with_reducible apply Does.ifte
    | split
    | with_reducible apply Does.updArbs
    | exact Sub.mono hT rfl
    | exact hT _ rfl
    | intro _

theorem does_loseRound (s : State) (a : Nat) (r : Nat) {s0 : State} {msk : Nat} (hk : Does msk s0 s)
    (hT : Sub 0x40002c0 msk := by first | exact Sub.of_eq rfl | exact Sub.mono (by assumption) rfl) : Does msk s0 (loseRound s a r) := by
  delta loseRound
  repeat' first
    | with_reducible assumption
    | (extract_lets -underBinder +onlyGivenNames x; refine does_cut (msk := msk) (s0 := s0) (x := x) ?_ fun _ => ?_; rotate_left; clear_value x; revert x; intro _ _; rotate_left; subst x)
    | (extract_lets -underBinder +onlyGivenNames x; clear_value x; revert x; intro _)
    | with_reducible apply does_wr
    | with_reducible apply does_setFld
    | with_reducible apply does_raise
    | with_reducible apply does_append
    | with_reducible apply does_setArb
    | with_reducible apply Does.ifte
    | split
    | exact Sub.mono hT rfl
    | exact hT _ rfl
    | intro _

theorem does_loseRounds (s : State) (a : Nat) (a1 : List Nat) {s0 : State} {msk : Nat} (hk : Does msk s0 s)
    (hT : Sub 0x40002c0 msk := by first | exact Sub.of_eq rfl | exact Sub.mono (by assumption) rfl) : Does msk s0 (loseRounds s a a1) := by
  induction a1 generalizing s a with
  | nil => unfold loseRounds; with_reducible assumption
  | cons x r ih =>
    unfold loseRounds
    repeat' first
    | with_reducible apply ih
    | with_reducible assumption
    | with_reducible apply does_loseRound
    | with_reducible apply Does.ifte
    | split
    | exact Sub.mono hT rfl
    | exact hT _ rfl
    | intro _

theorem does_maskArb (s : State) (a : Nat) {s0 : State} {msk : Nat} (hk : Does msk s0 s)
    (hT : Sub 0x4000000 msk := by first | exact Sub.of_eq rfl | exact Sub.mono (by assumption) rfl) : Does msk s0 (maskArb s a) := by
  delta maskArb
  repeat' first
    | with_reducible assumption
    | (extract_lets -underBinder +onlyGivenNames x; refine does_cut (msk := msk) (s0 := s0) (x := x) ?_ fun _ => ?_; rotate_left; clear_value x; revert x; intro _ _; rotate_left; subst x)
    | (extract_lets -underBinder +onlyGivenNames x; refine does_cut (msk := msk) (s0 := s0) (x := x.1) ?_ fun _ => ?_; rotate_left; clear_value x; revert x; intro _ _; rotate_left; subst x)
    | (extract_lets -underBinder +onlyGivenNames x; clear_value x; revert x; intro _)
    | with_reducible apply does_setArb
    | with_reducible apply Does.ifte
    | with_reducible apply Does.ifte_fst
    | with_reducible apply Does.ifte_snd
    | split
    | exact Sub.mono hT rfl
    | exact hT _ rfl
    | intro _

theorem does_arbRound (s : State) (a : Nat) {s0 : State} {msk : Nat} (hk : Does msk s0 s)
    (hT : Sub 0x40002c0 msk := by first | exact Sub.of_eq rfl | exact Sub.mono (by assumption) rfl) : Does msk s0 (arbRound s a) := by
  delta arbRound
  repeat' first
    | with_reducible assumption
    | (extract_lets -underBinder +onlyGivenNames x; refine does_cut (msk := msk) (s0 := s0) (x := x) ?_ fun _ => ?_; rotate_left; clear_value x; revert x; intro _ _; rotate_left; subst x)
    | (extract_lets -underBinder +onlyGivenNames x; clear_value x; revert x; intro _)
    | with_reducible apply does_setArb
    | with_reducible apply does_loseRounds
    | with_reducible apply does_maskArb
    | with_reducible apply Does.ifte
    | split
    | exact Sub.mono hT rfl
    | exact hT _ rfl
    | intro _

theorem does_arbJoin (s : State) (a : Nat) (rise : List Burst) (lower : List Nat) {s0 : State} {msk : Nat} (hk : Does msk s0 s)
    (hT : Sub 0x4000000 msk := by first | exact Sub.of_eq rfl | exact Sub.mono (by assumption) rfl) : Does msk s0 (arbJoin s a rise lower) := by
  delta arbJoin
  repeat' first
    | with_reducible assumption
    | (extract_lets -underBinder +onlyGivenNames x; refine does_cut (msk := msk) (s0 := s0) (x := x) ?_ fun _ => ?_; rotate_left; clear_value x; revert x; intro _ _; rotate_left; subst x)
    | (extract_lets -underBinder +onlyGivenNames x; refine does_cut (msk := msk) (s0 := s0) (x := x.1) ?_ fun _ => ?_; rotate_left; clear_value x; revert x; intro _ _; rotate_left; subst x)
    | (extract_lets -underBinder +onlyGivenNames x; clear_value x; revert x; intro _)
    | with_reducible apply does_setArb
    | with_reducible apply Does.ifte
    | with_reducible apply Does.ifte_fst
    | with_reducible apply Does.ifte_snd
    | split
    | exact Sub.mono hT rfl
    | exact hT _ rfl
    | intro _

theorem does_raiseBurst (s : State) (b : Burst) {s0 : State} {msk : Nat} (hk : Does msk s0 s)
    (hT : Sub 0x4000000 msk := by first | exact Sub.of_eq rfl | exact Sub.mono (by assumption) rfl) : Does msk s0 (raiseBurst s b) := by
  delta raiseBurst
  repeat' first
    | with_reducible assumption
    | (extract_lets -underBinder +onlyGivenNames x; refine does_cut (msk := msk) (s0 := s0) (x := x) ?_ fun _ => ?_; rotate_left; clear_value x; revert x; intro _ _; rotate_left; subst x)
    | (extract_lets -underBinder +onlyGivenNames x; refine does_cut (msk := msk) (s0 := s0) (x := x.1) ?_ fun _ => ?_; rotate_left; clear_value x; revert x; intro _ _; rotate_left; subst x)
    | (extract_lets -underBinder +onlyGivenNames x; clear_value x; revert x; intro _)
    | with_reducible apply does_setArb
    | with_reducible apply Does.ifte
    | with_reducible apply Does.ifte_fst
    | with_reducible apply Does.ifte_snd
    | split
    | exact Sub.mono hT rfl
    | exact hT _ rfl
    | intro _

end Sys2Proof.Machine
end

