-- ==== Sys2Proof/Laws/Does/Jobs.lean ====
section
/-!
SUPPORT. What every function of Machine/Jobs.lean does: it keeps the queue and the invariant, and changes
no field of the state outside the set its lemma names.
-/
set_option linter.unreachableTactic false
set_option linter.unusedTactic false

namespace Sys2Proof.Machine

set_option Elab.async false

theorem does_setQue (s : State) (q : Nat) (x : Queue) {s0 : State} {msk : Nat} (hk : Does msk s0 s)
    (hT : Sub 0x200000000 msk := by first | exact Sub.of_eq rfl | exact Sub.mono (by assumption) rfl) : Does msk s0 (setQue s q x) := by
  delta setQue
  repeat' first
    | with_reducible assumption
    | with_reducible apply Does.ifte
    | split
    | with_reducible apply Does.updQueues
    | exact Sub.mono hT rfl
    | exact hT _ rfl
    | intro _

theorem does_setSlot (s : State) (n : Nat) (x : SlotSt) {s0 : State} {msk : Nat} (hk : Does msk s0 s)
    (hT : Sub 0x400000000 msk := by first | exact Sub.of_eq rfl | exact Sub.mono (by assumption) rfl) : Does msk s0 (setSlot s n x) := by
  delta setSlot
  repeat' first
    | with_reducible assumption
    | with_reducible apply Does.ifte
    | split
    | with_reducible apply Does.updSlots
    | exact Sub.mono hT rfl
    | exact hT _ rfl
    | intro _

theorem does_setCtx (s : State) (i : Nat) (x : Ctx) {s0 : State} {msk : Nat} (hk : Does msk s0 s)
    (hT : Sub 0x100000000 msk := by first | exact Sub.of_eq rfl | exact Sub.mono (by assumption) rfl) : Does msk s0 (setCtx s i x) := by
  delta setCtx
  repeat' first
    | with_reducible assumption
    | with_reducible apply Does.ifte
    | split
    | with_reducible apply Does.updCtxs
    | exact Sub.mono hT rfl
    | exact hT _ rfl
    | intro _

theorem does_takeSeq (s : State) (q : Nat) {s0 : State} {msk : Nat} (hk : Does msk s0 s)
    (hT : Sub 0x200000000 msk := by first | exact Sub.of_eq rfl | exact Sub.mono (by assumption) rfl) : Does msk s0 (takeSeq s q) := by
  delta takeSeq
  repeat' first
    | with_reducible assumption
    | (extract_lets -underBinder +onlyGivenNames x; refine does_cut (msk := msk) (s0 := s0) (x := x) ?_ fun _ => ?_; rotate_left; clear_value x; revert x; intro _ _; rotate_left; subst x)
    | (extract_lets -underBinder +onlyGivenNames x; clear_value x; revert x; intro _)
    | with_reducible apply does_setQue
    | with_reducible apply Does.ifte
    | split
    | exact Sub.mono hT rfl
    | exact hT _ rfl
    | intro _

theorem does_instantJob (s : State) (q : Nat) (err : Nat) {s0 : State} {msk : Nat} (hk : Does msk s0 s)
    (hT : Sub 0x200000000 msk := by first | exact Sub.of_eq rfl | exact Sub.mono (by assumption) rfl) : Does msk s0 (instantJob s q err) := by
  delta instantJob
  repeat' first
    | with_reducible assumption
    | (extract_lets -underBinder +onlyGivenNames x; refine does_cut (msk := msk) (s0 := s0) (x := x) ?_ fun _ => ?_; rotate_left; clear_value x; revert x; intro _ _; rotate_left; subst x)
    | (extract_lets -underBinder +onlyGivenNames x; clear_value x; revert x; intro _)
    | with_reducible apply does_setQue
    | with_reducible apply does_takeSeq
    | with_reducible apply Does.ifte
    | split
    | exact Sub.mono hT rfl
    | exact hT _ rfl
    | intro _

theorem does_startJob (s : State) (q : Nat) (k : JobKind) {s0 : State} {msk : Nat} (hk : Does msk s0 s)
    (hT : Sub 0x3200000000 msk := by first | exact Sub.of_eq rfl | exact Sub.mono (by assumption) rfl) : Does msk s0 (startJob s q k) := by
  delta startJob
  repeat' first
    | with_reducible assumption
    | (extract_lets -underBinder +onlyGivenNames x; refine does_cut (msk := msk) (s0 := s0) (x := x) ?_ fun _ => ?_; rotate_left; clear_value x; revert x; intro _ _; rotate_left; subst x)
    | (extract_lets -underBinder +onlyGivenNames x; clear_value x; revert x; intro _)
    | with_reducible apply does_takeSeq
    | with_reducible apply Does.ifte
    | split
    | with_reducible apply Does.updJobsJobKey
    | exact Sub.mono hT rfl
    | exact hT _ rfl
    | intro _

theorem does_updJob (s : State) (key : Nat) (f : Job → Job) {s0 : State} {msk : Nat} (hk : Does msk s0 s)
    (hT : Sub 0x1000000000 msk := by first | exact Sub.of_eq rfl | exact Sub.mono (by assumption) rfl) : Does msk s0 (updJob s key f) := by
  delta updJob
  repeat' first
    | with_reducible assumption
    | with_reducible apply Does.ifte
    | split
    | with_reducible apply Does.updJobs
    | exact Sub.mono hT rfl
    | exact hT _ rfl
    | intro _

theorem does_endJob (s : State) (key : Nat) (err : Nat) {s0 : State} {msk : Nat} (hk : Does msk s0 s)
    (hT : Sub 0x1200000000 msk := by first | exact Sub.of_eq rfl | exact Sub.mono (by assumption) rfl) : Does msk s0 (endJob s key err) := by
  delta endJob
  repeat' first
    | with_reducible assumption
    | (extract_lets -underBinder +onlyGivenNames x; refine does_cut (msk := msk) (s0 := s0) (x := x) ?_ fun _ => ?_; rotate_left; clear_value x; revert x; intro _ _; rotate_left; subst x)
    | (extract_lets -underBinder +onlyGivenNames x; clear_value x; revert x; intro _)
    | with_reducible apply does_setQue
    | with_reducible apply Does.ifte
    | split
    | with_reducible apply Does.updJobs
    | exact Sub.mono hT rfl
    | exact hT _ rfl
    | intro _

theorem does_jobRecord (s : State) (q : Nat) (code : Nat) (kind : Nat) (unit : Nat) (detail : List Nat) {s0 : State} {msk : Nat} (hk : Does msk s0 s)
    (hT : Sub 0x280 msk := by first | exact Sub.of_eq rfl | exact Sub.mono (by assumption) rfl) : Does msk s0 (jobRecord s q code kind unit detail) := by
  delta jobRecord
  repeat' first
    | with_reducible assumption
    | with_reducible apply does_append
    | with_reducible apply Does.ifte
    | split
    | exact Sub.mono hT rfl
    | exact hT _ rfl
    | intro _

theorem does_failJob (s : State) (key : Nat) (code : Nat) {s0 : State} {msk : Nat} (hk : Does msk s0 s)
    (hT : Sub 0x1200000280 msk := by first | exact Sub.of_eq rfl | exact Sub.mono (by assumption) rfl) : Does msk s0 (failJob s key code) := by
  delta failJob
  repeat' first
    | with_reducible assumption
    | with_reducible apply does_endJob
    | with_reducible apply does_jobRecord
    | with_reducible apply Does.ifte
    | split
    | exact Sub.mono hT rfl
    | exact hT _ rfl
    | intro _

theorem does_stopJob (s : State) (key : Nat) {s0 : State} {msk : Nat} (hk : Does msk s0 s)
    (hT : Sub 0x1200000280 msk := by first | exact Sub.of_eq rfl | exact Sub.mono (by assumption) rfl) : Does msk s0 (stopJob s key) := by
  delta stopJob
  repeat' first
    | with_reducible assumption
    | with_reducible apply does_failJob
    | with_reducible apply Does.ifte
    | split
    | exact Sub.mono hT rfl
    | exact hT _ rfl
    | intro _

theorem does_failInstant (s : State) (q : Nat) (code : Nat) {s0 : State} {msk : Nat} (hk : Does msk s0 s)
    (hT : Sub 0x200000280 msk := by first | exact Sub.of_eq rfl | exact Sub.mono (by assumption) rfl) : Does msk s0 (failInstant s q code) := by
  delta failInstant
  repeat' first
    | with_reducible assumption
    | with_reducible apply does_instantJob
    | with_reducible apply does_jobRecord
    | with_reducible apply Does.ifte
    | split
    | exact Sub.mono hT rfl
    | exact hT _ rfl
    | intro _

theorem does_markJob (s : State) (key : Nat) (err : Nat) {s0 : State} {msk : Nat} (hk : Does msk s0 s)
    (hT : Sub 0x1000000000 msk := by first | exact Sub.of_eq rfl | exact Sub.mono (by assumption) rfl) : Does msk s0 (markJob s key err) := by
  delta markJob
  repeat' first
    | with_reducible assumption
    | with_reducible apply does_updJob
    | with_reducible apply Does.ifte
    | split
    | exact Sub.mono hT rfl
    | exact hT _ rfl
    | intro _

theorem does_queueFault (s : State) (n : Nat) (err : Nat) (op : Nat) (begun : Option Nat) {s0 : State} {msk : Nat} (hk : Does msk s0 s)
    (hT : Sub 0x16000002c0 msk := by first | exact Sub.of_eq rfl | exact Sub.mono (by assumption) rfl) : Does msk s0 (queueFault s n err op begun) := by
  delta queueFault
  repeat' first
    | with_reducible assumption
    | (extract_lets -underBinder +onlyGivenNames x; refine does_cut (msk := msk) (s0 := s0) (x := x) ?_ fun _ => ?_; rotate_left; clear_value x; revert x; intro _ _; rotate_left; subst x)
    | (extract_lets -underBinder +onlyGivenNames x; clear_value x; revert x; intro _)
    | with_reducible apply does_bump
    | with_reducible apply does_raise
    | with_reducible apply does_append
    | with_reducible apply does_setQue
    | with_reducible apply does_setSlot
    | with_reducible apply does_instantJob
    | with_reducible apply does_endJob
    | with_reducible apply Does.ifte
    | split
    | exact Sub.mono hT rfl
    | exact hT _ rfl
    | intro _

theorem does_relocTouch (s : State) (c : Nat) (i : Nat) {s0 : State} {msk : Nat} (hk : Does msk s0 s)
    (hT : Sub 0x800000000 msk := by first | exact Sub.of_eq rfl | exact Sub.mono (by assumption) rfl) : Does msk s0 (relocTouch s c i) := by
  delta relocTouch
  repeat' first
    | with_reducible assumption
    | with_reducible apply Does.ifte
    | with_reducible apply Does.ifte_fst
    | with_reducible apply Does.ifte_snd
    | split
    | with_reducible apply Does.updReloc
    | exact Sub.mono hT rfl
    | exact hT _ rfl
    | intro _

theorem does_relocInsert (s : State) (c : Nat) (i : Nat) (w : List Nat) {s0 : State} {msk : Nat} (hk : Does msk s0 s)
    (hT : Sub 0x800000000 msk := by first | exact Sub.of_eq rfl | exact Sub.mono (by assumption) rfl) : Does msk s0 (relocInsert s c i w) := by
  delta relocInsert
  repeat' first
    | with_reducible assumption
    | with_reducible apply Does.ifte
    | with_reducible apply Does.ifte_fst
    | with_reducible apply Does.ifte_snd
    | split
    | with_reducible apply Does.updReloc
    | exact Sub.mono hT rfl
    | exact hT _ rfl
    | intro _

theorem does_relocFlush (s : State) (c : Nat) {s0 : State} {msk : Nat} (hk : Does msk s0 s)
    (hT : Sub 0x800000000 msk := by first | exact Sub.of_eq rfl | exact Sub.mono (by assumption) rfl) : Does msk s0 (relocFlush s c) := by
  delta relocFlush
  repeat' first
    | with_reducible assumption
    | with_reducible apply Does.ifte
    | with_reducible apply Does.ifte_fst
    | with_reducible apply Does.ifte_snd
    | split
    | with_reducible apply Does.updReloc
    | exact Sub.mono hT rfl
    | exact hT _ rfl
    | intro _

theorem does_refWrite (s : State) (tag : Nat) (r : Ref) (data : List Byte) {s0 : State} {msk : Nat} (hk : Does msk s0 s)
    (hT : Sub 0x28800 msk := by first | exact Sub.of_eq rfl | exact Sub.mono (by assumption) rfl) : Does msk s0 (refWrite s tag r data) := by
  delta refWrite
  repeat' first
    | with_reducible assumption
    | with_reducible apply does_devWrite
    | with_reducible apply Does.ifte
    | split
    | exact Sub.mono hT rfl
    | exact hT _ rfl
    | intro _

end Sys2Proof.Machine
end

