-- ==== Sys2Proof/Laws/Does/EngineOps.lean ====
section
/-!
SUPPORT. What every function of Machine/EngineOps.lean does: it keeps the queue and the invariant, and changes
no field of the state outside the set its lemma names.
-/
set_option linter.unreachableTactic false
set_option linter.unusedTactic false

namespace Sys2Proof.Machine

set_option Elab.async false

theorem does_semApplyAt (s : State) (sem : Nat) (x : Nat) (f : SemCycle → SemCycle) {s0 : State} {msk : Nat} (hk : Does msk s0 s)
    (hT : Sub 0x802c0 msk := by first | exact Sub.of_eq rfl | exact Sub.mono (by assumption) rfl) : Does msk s0 (semApplyAt s sem x f) := by
  delta semApplyAt
  repeat' first
    | with_reducible assumption
    | (extract_lets -underBinder +onlyGivenNames x; refine does_cut (msk := msk) (s0 := s0) (x := x) ?_ fun _ => ?_; rotate_left; clear_value x; revert x; intro _ _; rotate_left; subst x)
    | (extract_lets -underBinder +onlyGivenNames x; refine does_cut (msk := msk) (s0 := s0) (x := x.1) ?_ fun _ => ?_; rotate_left; clear_value x; revert x; intro _ _; rotate_left; subst x)
    | (extract_lets -underBinder +onlyGivenNames x; refine does_cut (msk := msk) (s0 := s0) (x := x.2) ?_ fun _ => ?_; rotate_left; clear_value x; revert x; intro _ _; rotate_left; subst x)
    | (extract_lets -underBinder +onlyGivenNames x; clear_value x; revert x; intro _)
    | with_reducible apply does_wr
    | with_reducible apply does_bump
    | with_reducible apply does_append
    | with_reducible apply Does.ifte
    | with_reducible apply Does.ifte_fst
    | with_reducible apply Does.ifte_snd
    | split
    | with_reducible apply Does.updSemCycles
    | exact Sub.mono hT rfl
    | exact hT _ rfl
    | intro _

theorem does_semApply (s : State) (sem : Nat) (f : SemCycle → SemCycle) {s0 : State} {msk : Nat} (hk : Does msk s0 s)
    (hT : Sub 0x802c0 msk := by first | exact Sub.of_eq rfl | exact Sub.mono (by assumption) rfl) : Does msk s0 (semApply s sem f) := by
  delta semApply
  repeat' first
    | with_reducible assumption
    | with_reducible apply does_semApplyAt
    | with_reducible apply Does.ifte
    | split
    | exact Sub.mono hT rfl
    | exact hT _ rfl
    | intro _

theorem does_semAdd (s : State) (sem : Nat) (n : Nat) {s0 : State} {msk : Nat} (hk : Does msk s0 s)
    (hT : Sub 0x802c0 msk := by first | exact Sub.of_eq rfl | exact Sub.mono (by assumption) rfl) : Does msk s0 (semAdd s sem n) := by
  delta semAdd
  repeat' first
    | with_reducible assumption
    | with_reducible apply does_semApply
    | with_reducible apply Does.ifte
    | split
    | exact Sub.mono hT rfl
    | exact hT _ rfl
    | intro _

theorem does_semSub (s : State) (sem : Nat) (n : Nat) {s0 : State} {msk : Nat} (hk : Does msk s0 s)
    (hT : Sub 0x802c0 msk := by first | exact Sub.of_eq rfl | exact Sub.mono (by assumption) rfl) : Does msk s0 (semSub s sem n) := by
  delta semSub
  repeat' first
    | with_reducible assumption
    | with_reducible apply does_semApply
    | with_reducible apply Does.ifte
    | split
    | exact Sub.mono hT rfl
    | exact hT _ rfl
    | intro _

theorem does_semSet (s : State) (sem : Nat) (v : Nat) {s0 : State} {msk : Nat} (hk : Does msk s0 s)
    (hT : Sub 0x802c0 msk := by first | exact Sub.of_eq rfl | exact Sub.mono (by assumption) rfl) : Does msk s0 (semSet s sem v) := by
  delta semSet
  repeat' first
    | with_reducible assumption
    | with_reducible apply does_semApply
    | with_reducible apply Does.ifte
    | split
    | exact Sub.mono hT rfl
    | exact hT _ rfl
    | intro _

theorem does_semArriveAt (s : State) (sem : Nat) (x : Nat) (port : Nat) (k : Nat) (p : Nat) {s0 : State} {msk : Nat} (hk : Does msk s0 s)
    (hT : Sub 0x802c0 msk := by first | exact Sub.of_eq rfl | exact Sub.mono (by assumption) rfl) : Does msk s0 (semArriveAt s sem x port k p) := by
  delta semArriveAt
  repeat' first
    | with_reducible assumption
    | with_reducible apply does_semApplyAt
    | with_reducible apply Does.ifte
    | split
    | exact Sub.mono hT rfl
    | exact hT _ rfl
    | intro _

theorem does_seqEnd (s : State) (e : Nat) (failed : Bool) {s0 : State} {msk : Nat} (hk : Does msk s0 s)
    (hT : Sub 0x40000 msk := by first | exact Sub.of_eq rfl | exact Sub.mono (by assumption) rfl) : Does msk s0 (seqEnd s e failed) := by
  delta seqEnd
  repeat' first
    | with_reducible assumption
    | (extract_lets -underBinder +onlyGivenNames x; refine does_cut (msk := msk) (s0 := s0) (x := x) ?_ fun _ => ?_; rotate_left; clear_value x; revert x; intro _ _; rotate_left; subst x)
    | (extract_lets -underBinder +onlyGivenNames x; clear_value x; revert x; intro _)
    | with_reducible apply does_setEng
    | with_reducible apply Does.ifte
    | split
    | exact Sub.mono hT rfl
    | exact hT _ rfl
    | intro _

theorem does_setWave (s : State) (e : Nat) (w : Nat) (x : Wave) {s0 : State} {msk : Nat} (hk : Does msk s0 s)
    (hT : Sub 0x40000 msk := by first | exact Sub.of_eq rfl | exact Sub.mono (by assumption) rfl) : Does msk s0 (setWave s e w x) := by
  delta setWave
  repeat' first
    | with_reducible assumption
    | with_reducible apply does_setEng
    | with_reducible apply Does.ifte
    | split
    | exact Sub.mono hT rfl
    | exact hT _ rfl
    | intro _

theorem does_dropWave (s : State) (e : Nat) (w : Nat) {s0 : State} {msk : Nat} (hk : Does msk s0 s)
    (hT : Sub 0x40000 msk := by first | exact Sub.of_eq rfl | exact Sub.mono (by assumption) rfl) : Does msk s0 (dropWave s e w) := by
  delta dropWave
  repeat' first
    | with_reducible assumption
    | with_reducible apply does_setEng
    | with_reducible apply Does.ifte
    | split
    | exact Sub.mono hT rfl
    | exact hT _ rfl
    | intro _

theorem does_endWork (s : State) (e : Nat) (w : Nat) (code : Nat) {s0 : State} {msk : Nat} (hk : Does msk s0 s)
    (hT : Sub 0x1000040000 msk := by first | exact Sub.of_eq rfl | exact Sub.mono (by assumption) rfl) : Does msk s0 (endWork s e w code) := by
  delta endWork
  repeat' first
    | with_reducible assumption
    | with_reducible apply does_markJob
    | with_reducible apply does_seqEnd
    | with_reducible apply does_dropWave
    | with_reducible apply Does.ifte
    | split
    | exact Sub.mono hT rfl
    | exact hT _ rfl
    | intro _

theorem does_engRecord (s : State) (e : Nat) (w : Nat) (code : Nat) (detail : List Nat) {s0 : State} {msk : Nat} (hk : Does msk s0 s)
    (hT : Sub 0x280 msk := by first | exact Sub.of_eq rfl | exact Sub.mono (by assumption) rfl) : Does msk s0 (engRecord s e w code detail) := by
  delta engRecord
  repeat' first
    | with_reducible assumption
    | with_reducible apply does_append
    | with_reducible apply Does.ifte
    | split
    | exact Sub.mono hT rfl
    | exact hT _ rfl
    | intro _

theorem does_engBurst (s : State) (e : Nat) (write : Bool) (addr : Nat) (len : Nat) (data : List Byte) (use : Nat) {s0 : State} {msk : Nat} (hk : Does msk s0 s)
    (hT : Sub 0x4040000 msk := by first | exact Sub.of_eq rfl | exact Sub.mono (by assumption) rfl) : Does msk s0 (engBurst s e write addr len data use) := by
  delta engBurst
  repeat' first
    | with_reducible assumption
    | (extract_lets -underBinder +onlyGivenNames x; refine does_cut (msk := msk) (s0 := s0) (x := x) ?_ fun _ => ?_; rotate_left; clear_value x; revert x; intro _ _; rotate_left; subst x)
    | (extract_lets -underBinder +onlyGivenNames x; clear_value x; revert x; intro _)
    | with_reducible apply does_setEng
    | with_reducible apply does_raiseBurst
    | with_reducible apply Does.ifte
    | split
    | exact Sub.mono hT rfl
    | exact hT _ rfl
    | intro _

theorem does_writeBackSectors (s : State) (e : Nat) (l : FarLine) (a : List Nat) {s0 : State} {msk : Nat} (hk : Does msk s0 s)
    (hT : Sub 0x4040000 msk := by first | exact Sub.of_eq rfl | exact Sub.mono (by assumption) rfl) : Does msk s0 (writeBackSectors s e l a) := by
  induction a generalizing s e l with
  | nil => unfold writeBackSectors; with_reducible assumption
  | cons x r ih =>
    unfold writeBackSectors
    repeat' first
    | with_reducible apply ih
    | with_reducible assumption
    | with_reducible apply does_engBurst
    | with_reducible apply Does.ifte
    | split
    | exact Sub.mono hT rfl
    | exact hT _ rfl
    | intro _

theorem does_flcCleanLine (s : State) (e : Nat) (n : Nat) {s0 : State} {msk : Nat} (hk : Does msk s0 s)
    (hT : Sub 0x4040000 msk := by first | exact Sub.of_eq rfl | exact Sub.mono (by assumption) rfl) : Does msk s0 (flcCleanLine s e n) := by
  delta flcCleanLine
  repeat' first
    | with_reducible assumption
    | (extract_lets -underBinder +onlyGivenNames x; refine does_cut (msk := msk) (s0 := s0) (x := x) ?_ fun _ => ?_; rotate_left; clear_value x; revert x; intro _ _; rotate_left; subst x)
    | (extract_lets -underBinder +onlyGivenNames x; clear_value x; revert x; intro _)
    | with_reducible apply does_setEng
    | with_reducible apply does_writeBackSectors
    | with_reducible apply Does.ifte
    | split
    | exact Sub.mono hT rfl
    | exact hT _ rfl
    | intro _

theorem does_flcCleanLines (s : State) (e : Nat) (a : List Nat) {s0 : State} {msk : Nat} (hk : Does msk s0 s)
    (hT : Sub 0x4040000 msk := by first | exact Sub.of_eq rfl | exact Sub.mono (by assumption) rfl) : Does msk s0 (flcCleanLines s e a) := by
  induction a generalizing s e with
  | nil => unfold flcCleanLines; with_reducible assumption
  | cons x r ih =>
    unfold flcCleanLines
    repeat' first
    | with_reducible apply ih
    | with_reducible assumption
    | with_reducible apply does_flcCleanLine
    | with_reducible apply Does.ifte
    | split
    | exact Sub.mono hT rfl
    | exact hT _ rfl
    | intro _

theorem does_flcClean (s : State) (e : Nat) {s0 : State} {msk : Nat} (hk : Does msk s0 s)
    (hT : Sub 0x4040000 msk := by first | exact Sub.of_eq rfl | exact Sub.mono (by assumption) rfl) : Does msk s0 (flcClean s e) := by
  delta flcClean
  repeat' first
    | with_reducible assumption
    | with_reducible apply does_flcCleanLines
    | with_reducible apply Does.ifte
    | split
    | exact Sub.mono hT rfl
    | exact hT _ rfl
    | intro _

theorem does_flcAcquire (s : State) (e : Nat) {s0 : State} {msk : Nat} (hk : Does msk s0 s)
    (hT : Sub 0x40000 msk := by first | exact Sub.of_eq rfl | exact Sub.mono (by assumption) rfl) : Does msk s0 (flcAcquire s e) := by
  delta flcAcquire
  repeat' first
    | with_reducible assumption
    | with_reducible apply does_setEng
    | with_reducible apply Does.ifte
    | split
    | exact Sub.mono hT rfl
    | exact hT _ rfl
    | intro _

theorem does_setFslot (s : State) (n : Nat) (x : FSlot) {s0 : State} {msk : Nat} (hk : Does msk s0 s)
    (hT : Sub 0x100000 msk := by first | exact Sub.of_eq rfl | exact Sub.mono (by assumption) rfl) : Does msk s0 (setFslot s n x) := by
  delta setFslot
  repeat' first
    | with_reducible assumption
    | with_reducible apply Does.ifte
    | split
    | with_reducible apply Does.updFslots
    | exact Sub.mono hT rfl
    | exact hT _ rfl
    | intro _

theorem does_sendSignal (s : State) (f : FSig) {s0 : State} {msk : Nat} (hk : Does msk s0 s)
    (hT : Sub 0x3000000 msk := by first | exact Sub.of_eq rfl | exact Sub.mono (by assumption) rfl) : Does msk s0 (sendSignal s f) := by
  delta sendSignal
  repeat' first
    | with_reducible assumption
    | with_reducible apply Does.ifte
    | split
    | with_reducible apply Does.updFsigs
    | with_reducible apply Does.updTransits
    | exact Sub.mono hT rfl
    | exact hT _ rfl
    | intro _

theorem does_setSpin (s : State) (e : Nat) (w : Nat) (sp : Option Spin) {s0 : State} {msk : Nat} (hk : Does msk s0 s)
    (hT : Sub 0x40000 msk := by first | exact Sub.of_eq rfl | exact Sub.mono (by assumption) rfl) : Does msk s0 (setSpin s e w sp) := by
  delta setSpin
  repeat' first
    | with_reducible assumption
    | with_reducible apply does_setWave
    | with_reducible apply Does.ifte
    | split
    | exact Sub.mono hT rfl
    | exact hT _ rfl
    | intro _

theorem does_engArrive (s : State) (e : Nat) (w : Nat) (sem : Nat) (x : Nat) (k : Nat) (parts : Nat) {s0 : State} {msk : Nat} (hk : Does msk s0 s)
    (hT : Sub 0x10000c02c0 msk := by first | exact Sub.of_eq rfl | exact Sub.mono (by assumption) rfl) : Does msk s0 (engArrive s e w sem x k parts) := by
  delta engArrive
  repeat' first
    | with_reducible assumption
    | (extract_lets -underBinder +onlyGivenNames x; refine does_cut (msk := msk) (s0 := s0) (x := x) ?_ fun _ => ?_; rotate_left; clear_value x; revert x; intro _ _; rotate_left; subst x)
    | (extract_lets -underBinder +onlyGivenNames x; clear_value x; revert x; intro _)
    | with_reducible apply does_semArriveAt
    | with_reducible apply does_endWork
    | with_reducible apply does_engRecord
    | with_reducible apply does_setSpin
    | with_reducible apply Does.ifte
    | split
    | exact Sub.mono hT rfl
    | exact hT _ rfl
    | intro _

theorem does_releaseApply (s : State) (e : Nat) (a : Release) {s0 : State} {msk : Nat} (hk : Does msk s0 s)
    (hT : Sub 0x10030c02c0 msk := by first | exact Sub.of_eq rfl | exact Sub.mono (by assumption) rfl) : Does msk s0 (releaseApply s e a) := by
  delta releaseApply
  repeat' first
    | with_reducible assumption
    | with_reducible apply does_semAdd
    | with_reducible apply does_semSub
    | with_reducible apply does_sendSignal
    | with_reducible apply does_engArrive
    | with_reducible apply Does.ifte
    | split
    | exact Sub.mono hT rfl
    | exact hT _ rfl
    | intro _

theorem does_releaseIssue (s : State) (e : Nat) (r : Release) {s0 : State} {msk : Nat} (hk : Does msk s0 s)
    (hT : Sub 0x10070c02c0 msk := by first | exact Sub.of_eq rfl | exact Sub.mono (by assumption) rfl) : Does msk s0 (releaseIssue s e r) := by
  delta releaseIssue
  repeat' first
    | with_reducible assumption
    | (extract_lets -underBinder +onlyGivenNames x; refine does_cut (msk := msk) (s0 := s0) (x := x) ?_ fun _ => ?_; rotate_left; clear_value x; revert x; intro _ _; rotate_left; subst x)
    | (extract_lets -underBinder +onlyGivenNames x; clear_value x; revert x; intro _)
    | with_reducible apply does_setEng
    | with_reducible apply does_flcClean
    | with_reducible apply does_releaseApply
    | with_reducible apply Does.ifte
    | split
    | exact Sub.mono hT rfl
    | exact hT _ rfl
    | intro _

end Sys2Proof.Machine
end

