-- ==== Sys2Proof/Laws/Does/Front.lean ====
section
/-!
SUPPORT. What every function of Machine/Front.lean does: it keeps the queue and the invariant, and changes
no field of the state outside the set its lemma names.
-/
set_option linter.unreachableTactic false
set_option linter.unusedTactic false

namespace Sys2Proof.Machine

set_option Elab.async false

theorem does_execDoorbell (fn : Part) (q : Qid) (v : Nat) (size : Nat) (s : State) {s0 : State} {msk : Nat} (hk : Does msk s0 s)
    (hT : Sub 0x600000000 msk := by first | exact Sub.of_eq rfl | exact Sub.mono (by assumption) rfl) : DoesOut msk s0 (execDoorbell fn q v size s) := by
  delta execDoorbell
  repeat' first
    | with_reducible assumption
    | (extract_lets -underBinder +onlyGivenNames x; refine does_cut (msk := msk) (s0 := s0) (x := x) ?_ fun _ => ?_; rotate_left; clear_value x; revert x; intro _ _; rotate_left; subst x)
    | (extract_lets -underBinder +onlyGivenNames x; clear_value x; revert x; intro _)
    | with_reducible apply does_free
    | with_reducible apply does_setQue
    | with_reducible apply does_setSlot
    | with_reducible apply DoesOut.next
    | with_reducible apply DoesOut.ifte
    | with_reducible apply Does.ifte
    | with_reducible apply Does.ifte_fst
    | with_reducible apply Does.ifte_snd
    | split
    | exact Sub.mono hT rfl
    | exact hT _ rfl
    | intro _

theorem does_execSlotWake (n : Slot) (s : State) {s0 : State} {msk : Nat} (hk : Does msk s0 s)
    (hT : Sub 0x400000000 msk := by first | exact Sub.of_eq rfl | exact Sub.mono (by assumption) rfl) : DoesOut msk s0 (execSlotWake n s) := by
  delta execSlotWake
  repeat' first
    | with_reducible assumption
    | (extract_lets -underBinder +onlyGivenNames x; refine does_cut (msk := msk) (s0 := s0) (x := x) ?_ fun _ => ?_; rotate_left; clear_value x; revert x; intro _ _; rotate_left; subst x)
    | (extract_lets -underBinder +onlyGivenNames x; clear_value x; revert x; intro _)
    | with_reducible apply does_setSlot
    | with_reducible apply DoesOut.next
    | with_reducible apply DoesOut.ifte
    | with_reducible apply Does.ifte
    | with_reducible apply Does.ifte_fst
    | with_reducible apply Does.ifte_snd
    | split
    | exact Sub.mono hT rfl
    | exact hT _ rfl
    | intro _

theorem does_slotAdvance (s : State) (n : Nat) {s0 : State} {msk : Nat} (hk : Does msk s0 s)
    (hT : Sub 0x16000002c0 msk := by first | exact Sub.of_eq rfl | exact Sub.mono (by assumption) rfl) : Does msk s0 (slotAdvance s n) := by
  delta slotAdvance
  repeat' first
    | with_reducible assumption
    | (extract_lets -underBinder +onlyGivenNames x; refine does_cut (msk := msk) (s0 := s0) (x := x) ?_ fun _ => ?_; rotate_left; clear_value x; revert x; intro _ _; rotate_left; subst x)
    | (extract_lets -underBinder +onlyGivenNames x; clear_value x; revert x; intro _)
    | with_reducible apply does_setSlot
    | with_reducible apply does_queueFault
    | with_reducible apply Does.ifte
    | split
    | exact Sub.mono hT rfl
    | exact hT _ rfl
    | intro _

theorem does_entryBegin (s : State) (n : Nat) (w : List Nat) (r : Ref) {s0 : State} {msk : Nat} (hk : Does msk s0 s)
    (hT : Sub 0x16000002c0 msk := by first | exact Sub.of_eq rfl | exact Sub.mono (by assumption) rfl) : Does msk s0 (entryBegin s n w r) := by
  delta entryBegin
  repeat' first
    | with_reducible assumption
    | (extract_lets -underBinder +onlyGivenNames x; refine does_cut (msk := msk) (s0 := s0) (x := x) ?_ fun _ => ?_; rotate_left; clear_value x; revert x; intro _ _; rotate_left; subst x)
    | (extract_lets -underBinder +onlyGivenNames x; clear_value x; revert x; intro _)
    | with_reducible apply does_bump
    | with_reducible apply does_setSlot
    | with_reducible apply does_slotAdvance
    | with_reducible apply Does.ifte
    | split
    | exact Sub.mono hT rfl
    | exact hT _ rfl
    | intro _

theorem does_entryRelocate (s : State) (n : Nat) (w : List Nat) {s0 : State} {msk : Nat} (hk : Does msk s0 s)
    (hT : Sub 0x1e000002c0 msk := by first | exact Sub.of_eq rfl | exact Sub.mono (by assumption) rfl) : Does msk s0 (entryRelocate s n w) := by
  delta entryRelocate
  repeat' first
    | with_reducible assumption
    | (extract_lets -underBinder +onlyGivenNames x; refine does_cut (msk := msk) (s0 := s0) (x := x) ?_ fun _ => ?_; rotate_left; clear_value x; revert x; intro _ _; rotate_left; subst x)
    | (extract_lets -underBinder +onlyGivenNames x; clear_value x; revert x; intro _)
    | with_reducible apply does_bump
    | with_reducible apply does_setSlot
    | with_reducible apply does_queueFault
    | with_reducible apply does_relocTouch
    | with_reducible apply does_entryBegin
    | with_reducible apply Does.ifte
    | split
    | exact Sub.mono hT rfl
    | exact hT _ rfl
    | intro _

theorem does_prefetchRelocate (s : State) (n : Nat) (p : Prefetch) {s0 : State} {msk : Nat} (hk : Does msk s0 s)
    (hT : Sub 0xc00000040 msk := by first | exact Sub.of_eq rfl | exact Sub.mono (by assumption) rfl) : Does msk s0 (prefetchRelocate s n p) := by
  delta prefetchRelocate
  repeat' first
    | with_reducible assumption
    | (extract_lets -underBinder +onlyGivenNames x; refine does_cut (msk := msk) (s0 := s0) (x := x) ?_ fun _ => ?_; rotate_left; clear_value x; revert x; intro _ _; rotate_left; subst x)
    | (extract_lets -underBinder +onlyGivenNames x; clear_value x; revert x; intro _)
    | with_reducible apply does_bump
    | with_reducible apply does_setSlot
    | with_reducible apply does_relocTouch
    | with_reducible apply Does.ifte
    | split
    | exact Sub.mono hT rfl
    | exact hT _ rfl
    | intro _

theorem does_execRingEntryFetch (n : Slot) (ecc : Ecc) (s : State) {s0 : State} {msk : Nat} (hk : Does msk s0 s)
    (hT : Sub 0x1e200002c0 msk := by first | exact Sub.of_eq rfl | exact Sub.mono (by assumption) rfl) : DoesOut msk s0 (execRingEntryFetch n ecc s) := by
  delta execRingEntryFetch
  repeat' first
    | with_reducible assumption
    | (extract_lets -underBinder +onlyGivenNames x; refine does_cut (msk := msk) (s0 := s0) (x := x) ?_ fun _ => ?_; rotate_left; clear_value x; revert x; intro _ _; rotate_left; subst x)
    | (extract_lets -underBinder +onlyGivenNames x; clear_value x; revert x; intro _)
    | with_reducible apply does_violation
    | with_reducible apply does_mcEcc
    | with_reducible apply does_setSlot
    | with_reducible apply does_queueFault
    | with_reducible apply does_entryRelocate
    | with_reducible apply does_prefetchRelocate
    | with_reducible apply DoesOut.next
    | with_reducible apply DoesOut.ifte
    | with_reducible apply Does.ifte
    | with_reducible apply Does.ifte_fst
    | with_reducible apply Does.ifte_snd
    | split
    | exact Sub.mono hT rfl
    | exact hT _ rfl
    | intro _

theorem does_idleStep (s : State) (n : Nat) {s0 : State} {msk : Nat} (hk : Does msk s0 s)
    (hT : Sub 0x400000000 msk := by first | exact Sub.of_eq rfl | exact Sub.mono (by assumption) rfl) : Does msk s0 (idleStep s n) := by
  delta idleStep
  repeat' first
    | with_reducible assumption
    | (extract_lets -underBinder +onlyGivenNames x; refine does_cut (msk := msk) (s0 := s0) (x := x) ?_ fun _ => ?_; rotate_left; clear_value x; revert x; intro _ _; rotate_left; subst x)
    | (extract_lets -underBinder +onlyGivenNames x; clear_value x; revert x; intro _)
    | with_reducible apply does_setSlot
    | with_reducible apply Does.ifte
    | split
    | exact Sub.mono hT rfl
    | exact hT _ rfl
    | intro _

theorem does_bufferEnd (s : State) (n : Nat) {s0 : State} {msk : Nat} (hk : Does msk s0 s)
    (hT : Sub 0x16000002c0 msk := by first | exact Sub.of_eq rfl | exact Sub.mono (by assumption) rfl) : Does msk s0 (bufferEnd s n) := by
  delta bufferEnd
  repeat' first
    | with_reducible assumption
    | (extract_lets -underBinder +onlyGivenNames x; refine does_cut (msk := msk) (s0 := s0) (x := x) ?_ fun _ => ?_; rotate_left; clear_value x; revert x; intro _ _; rotate_left; subst x)
    | (extract_lets -underBinder +onlyGivenNames x; clear_value x; revert x; intro _)
    | with_reducible apply does_setSlot
    | with_reducible apply does_queueFault
    | with_reducible apply does_slotAdvance
    | with_reducible apply Does.ifte
    | split
    | exact Sub.mono hT rfl
    | exact hT _ rfl
    | intro _

theorem does_execBufferEnd (n : Slot) (s : State) {s0 : State} {msk : Nat} (hk : Does msk s0 s)
    (hT : Sub 0x16000002c0 msk := by first | exact Sub.of_eq rfl | exact Sub.mono (by assumption) rfl) : DoesOut msk s0 (execBufferEnd n s) := by
  delta execBufferEnd
  repeat' first
    | with_reducible assumption
    | with_reducible apply does_bufferEnd
    | with_reducible apply DoesOut.next
    | with_reducible apply DoesOut.ifte
    | with_reducible apply Does.ifte
    | with_reducible apply Does.ifte_fst
    | with_reducible apply Does.ifte_snd
    | split
    | exact Sub.mono hT rfl
    | exact hT _ rfl
    | intro _

theorem does_execRingEntryEnd (n : Slot) (s : State) {s0 : State} {msk : Nat} (hk : Does msk s0 s)
    (hT : Sub 0x16000002c0 msk := by first | exact Sub.of_eq rfl | exact Sub.mono (by assumption) rfl) : DoesOut msk s0 (execRingEntryEnd n s) := by
  delta execRingEntryEnd
  repeat' first
    | with_reducible assumption
    | (extract_lets -underBinder +onlyGivenNames x; refine does_cut (msk := msk) (s0 := s0) (x := x) ?_ fun _ => ?_; rotate_left; clear_value x; revert x; intro _ _; rotate_left; subst x)
    | (extract_lets -underBinder +onlyGivenNames x; clear_value x; revert x; intro _)
    | with_reducible apply does_idleStep
    | with_reducible apply does_bufferEnd
    | with_reducible apply DoesOut.next
    | with_reducible apply DoesOut.ifte
    | with_reducible apply Does.ifte
    | with_reducible apply Does.ifte_fst
    | with_reducible apply Does.ifte_snd
    | split
    | exact Sub.mono hT rfl
    | exact hT _ rfl
    | intro _

theorem does_execBufferPrefetch (n : Slot) (ecc : Ecc) (s : State) {s0 : State} {msk : Nat} (hk : Does msk s0 s)
    (hT : Sub 0x4200002c0 msk := by first | exact Sub.of_eq rfl | exact Sub.mono (by assumption) rfl) : DoesOut msk s0 (execBufferPrefetch n ecc s) := by
  delta execBufferPrefetch
  repeat' first
    | with_reducible assumption
    | (extract_lets -underBinder +onlyGivenNames x; refine does_cut (msk := msk) (s0 := s0) (x := x) ?_ fun _ => ?_; rotate_left; clear_value x; revert x; intro _ _; rotate_left; subst x)
    | (extract_lets -underBinder +onlyGivenNames x; clear_value x; revert x; intro _)
    | with_reducible apply does_bump
    | with_reducible apply does_mcEcc
    | with_reducible apply does_setSlot
    | with_reducible apply DoesOut.next
    | with_reducible apply DoesOut.ifte
    | with_reducible apply Does.ifte
    | with_reducible apply Does.ifte_fst
    | with_reducible apply Does.ifte_snd
    | split
    | exact Sub.mono hT rfl
    | exact hT _ rfl
    | intro _

theorem does_touchAll (s : State) (c : Nat) (a : List (Nat × Need)) {s0 : State} {msk : Nat} (hk : Does msk s0 s)
    (hT : Sub 0x800000000 msk := by first | exact Sub.of_eq rfl | exact Sub.mono (by assumption) rfl) : Does msk s0 (touchAll s c a) := by
  induction a generalizing s c with
  | nil => unfold touchAll; with_reducible assumption
  | cons x r ih =>
    unfold touchAll
    repeat' first
    | with_reducible apply ih
    | with_reducible assumption
    | with_reducible apply does_relocTouch
    | with_reducible apply Does.ifte
    | split
    | exact Sub.mono hT rfl
    | exact hT _ rfl
    | intro _

theorem does_pastCmd (s : State) (n : Nat) (k : Nat) {s0 : State} {msk : Nat} (hk : Does msk s0 s)
    (hT : Sub 0x400000000 msk := by first | exact Sub.of_eq rfl | exact Sub.mono (by assumption) rfl) : Does msk s0 (pastCmd s n k) := by
  delta pastCmd
  repeat' first
    | with_reducible assumption
    | (extract_lets -underBinder +onlyGivenNames x; refine does_cut (msk := msk) (s0 := s0) (x := x) ?_ fun _ => ?_; rotate_left; clear_value x; revert x; intro _ _; rotate_left; subst x)
    | (extract_lets -underBinder +onlyGivenNames x; clear_value x; revert x; intro _)
    | with_reducible apply does_setSlot
    | with_reducible apply Does.ifte
    | split
    | exact Sub.mono hT rfl
    | exact hT _ rfl
    | intro _

theorem does_skipCmd (s : State) (n : Nat) (op : Nat) (w : List Nat) {s0 : State} {msk : Nat} (hk : Does msk s0 s)
    (hT : Sub 0x600000000 msk := by first | exact Sub.of_eq rfl | exact Sub.mono (by assumption) rfl) : Does msk s0 (skipCmd s n op w) := by
  delta skipCmd
  repeat' first
    | with_reducible assumption
    | (extract_lets -underBinder +onlyGivenNames x; refine does_cut (msk := msk) (s0 := s0) (x := x) ?_ fun _ => ?_; rotate_left; clear_value x; revert x; intro _ _; rotate_left; subst x)
    | (extract_lets -underBinder +onlyGivenNames x; clear_value x; revert x; intro _)
    | with_reducible apply does_setSlot
    | with_reducible apply does_instantJob
    | with_reducible apply does_pastCmd
    | with_reducible apply Does.ifte
    | split
    | exact Sub.mono hT rfl
    | exact hT _ rfl
    | intro _

theorem does_runCmd {msk : Nat} (s : State) (n : Nat) (row : CmdRow) (w : List Nat) {s0 : State} (h : Does msk s0 s)
    (ha : ∀ t n w r, Does msk s0 t → Does msk s0 (row.act t n w r))
    (hT : Sub 0x1e000002c0 msk := by first | exact Sub.of_eq rfl | exact Sub.mono (by assumption) rfl) : Does msk s0 (runCmd s n row w) := by
  delta runCmd
  extract_lets -underBinder sl
  clear_value sl
  split
  · exact does_queueFault _ _ _ _ _ h
  · with_reducible apply Does.ifte
    · exact does_queueFault _ _ _ _ _ h
    · with_reducible apply Does.ifte
      · exact does_pastCmd _ _ _ h
      · extract_lets -underBinder needs
        split
        · exact does_queueFault _ _ _ _ _ h
        · exact does_bump _ _ _ (does_setSlot _ _ _ h)
        · exact does_setSlot _ _ _ h
        · apply ha
          with_reducible apply Does.ifte
          · exact does_setSlot _ _ _ (does_touchAll _ _ _ (does_bump _ _ _ h))
          · exact does_touchAll _ _ _ (does_bump _ _ _ h)

theorem does_decodeCmd {msk : Nat} (s : State) (n : Nat) (row : CmdRow) {s0 : State} (h : Does msk s0 s)
    (ha : ∀ t n w r, Does msk s0 t → Does msk s0 (row.act t n w r))
    (hT : Sub 0x1e000002c0 msk := by first | exact Sub.of_eq rfl | exact Sub.mono (by assumption) rfl) : Does msk s0 (decodeCmd s n row) := by
  delta decodeCmd
  extract_lets -underBinder sl
  clear_value sl
  with_reducible apply Does.ifte
  · exact h
  · split
    · exact does_queueFault _ _ _ _ _ (does_violation _ _ _ _ _ h)
    · extract_lets -underBinder hdr len s1
      have h1 : Does msk s0 s1 := does_setSlot _ _ _ h
      clear_value hdr len s1
      repeat' with_reducible apply Does.ifte
      · exact h
      · exact does_queueFault _ _ _ _ _ h1
      · exact does_queueFault _ _ _ _ _ h1
      · split
        · exact does_queueFault _ _ _ _ _ (does_violation _ _ _ _ _ h1)
        · repeat' with_reducible apply Does.ifte
          · exact h
          · exact does_skipCmd _ _ _ _ h1
          · exact does_runCmd _ _ _ _ h1 ha

theorem does_execUnknownOpcode (n : Slot) (s : State) {s0 : State} {msk : Nat} (hk : Does msk s0 s)
    (hT : Sub 0x16000002c0 msk := by first | exact Sub.of_eq rfl | exact Sub.mono (by assumption) rfl) : DoesOut msk s0 (execUnknownOpcode n s) := by
  delta execUnknownOpcode
  repeat' first
    | with_reducible assumption
    | (extract_lets -underBinder +onlyGivenNames x; refine does_cut (msk := msk) (s0 := s0) (x := x) ?_ fun _ => ?_; rotate_left; clear_value x; revert x; intro _ _; rotate_left; subst x)
    | (extract_lets -underBinder +onlyGivenNames x; clear_value x; revert x; intro _)
    | with_reducible apply does_violation
    | with_reducible apply does_setSlot
    | with_reducible apply does_queueFault
    | with_reducible apply DoesOut.next
    | with_reducible apply DoesOut.ifte
    | with_reducible apply Does.ifte
    | with_reducible apply Does.ifte_fst
    | with_reducible apply Does.ifte_snd
    | split
    | exact Sub.mono hT rfl
    | exact hT _ rfl
    | intro _

theorem does_handleReadReport (s : State) (c : Nat) (i : Nat) (e : Nat) (w : Who) {s0 : State} {msk : Nat} (hk : Does msk s0 s)
    (hT : Sub 0x2c0 msk := by first | exact Sub.of_eq rfl | exact Sub.mono (by assumption) rfl) : Does msk s0 (handleReadReport s c i e w) := by
  delta handleReadReport
  repeat' first
    | with_reducible assumption
    | with_reducible apply does_violation
    | with_reducible apply Does.ifte
    | split
    | exact Sub.mono hT rfl
    | exact hT _ rfl
    | intro _

theorem does_execHandleEntryFetch (n : Slot) (ecc : Ecc) (s : State) {s0 : State} {msk : Nat} (hk : Does msk s0 s)
    (hT : Sub 0x1e200002c0 msk := by first | exact Sub.of_eq rfl | exact Sub.mono (by assumption) rfl) : DoesOut msk s0 (execHandleEntryFetch n ecc s) := by
  delta execHandleEntryFetch
  repeat' first
    | with_reducible assumption
    | (extract_lets -underBinder +onlyGivenNames x; refine does_cut (msk := msk) (s0 := s0) (x := x) ?_ fun _ => ?_; rotate_left; clear_value x; revert x; intro _ _; rotate_left; subst x)
    | (extract_lets -underBinder +onlyGivenNames x; clear_value x; revert x; intro _)
    | with_reducible apply does_mcEcc
    | with_reducible apply does_setSlot
    | with_reducible apply does_instantJob
    | with_reducible apply does_failInstant
    | with_reducible apply does_markJob
    | with_reducible apply does_queueFault
    | with_reducible apply does_relocInsert
    | with_reducible apply does_entryBegin
    | with_reducible apply does_prefetchRelocate
    | with_reducible apply does_pastCmd
    | with_reducible apply does_handleReadReport
    | with_reducible apply DoesOut.next
    | with_reducible apply DoesOut.ifte
    | with_reducible apply Does.ifte
    | with_reducible apply Does.ifte_fst
    | with_reducible apply Does.ifte_snd
    | split
    | exact Sub.mono hT rfl
    | exact hT _ rfl
    | intro _

theorem does_resumeTableWaits (s : State) {s0 : State} {msk : Nat} (hk : Does msk s0 s)
    (hT : Sub 0x400000000 msk := by first | exact Sub.of_eq rfl | exact Sub.mono (by assumption) rfl) : Does msk s0 (resumeTableWaits s) := by
  delta resumeTableWaits
  repeat' first
    | with_reducible assumption
    | with_reducible apply Does.ifte
    | split
    | with_reducible apply Does.updSlots
    | exact Sub.mono hT rfl
    | exact hT _ rfl
    | intro _

theorem does_execNop (n : Slot) (s : State) {s0 : State} {msk : Nat} (hk : Does msk s0 s)
    (hT : Sub 0x1e000002c0 msk := by first | exact Sub.of_eq rfl | exact Sub.mono (by assumption) rfl) : DoesOut msk s0 (execNop n s) := by
  delta execNop
  repeat' first
    | with_reducible assumption
    | with_reducible apply does_pastCmd
    | with_reducible apply does_decodeCmd
    | with_reducible apply DoesOut.next
    | with_reducible apply DoesOut.ifte
    | with_reducible apply Does.ifte
    | with_reducible apply Does.ifte_fst
    | with_reducible apply Does.ifte_snd
    | split
    | exact Sub.mono hT rfl
    | exact hT _ rfl
    | intro _

theorem does_actJump (s : State) (n : Nat) (w : List Nat) (refs : List Ref) {s0 : State} {msk : Nat} (hk : Does msk s0 s)
    (hT : Sub 0x400000000 msk := by first | exact Sub.of_eq rfl | exact Sub.mono (by assumption) rfl) : Does msk s0 (actJump s n w refs) := by
  delta actJump
  repeat' first
    | with_reducible assumption
    | (extract_lets -underBinder +onlyGivenNames x; refine does_cut (msk := msk) (s0 := s0) (x := x) ?_ fun _ => ?_; rotate_left; clear_value x; revert x; intro _ _; rotate_left; subst x)
    | (extract_lets -underBinder +onlyGivenNames x; clear_value x; revert x; intro _)
    | with_reducible apply does_setSlot
    | with_reducible apply Does.ifte
    | split
    | exact Sub.mono hT rfl
    | exact hT _ rfl
    | intro _

theorem does_execJump (n : Slot) (s : State) {s0 : State} {msk : Nat} (hk : Does msk s0 s)
    (hT : Sub 0x1e000002c0 msk := by first | exact Sub.of_eq rfl | exact Sub.mono (by assumption) rfl) : DoesOut msk s0 (execJump n s) := by
  delta execJump
  repeat' first
    | with_reducible assumption
    | with_reducible apply does_decodeCmd
    | with_reducible apply does_actJump
    | with_reducible apply DoesOut.next
    | with_reducible apply DoesOut.ifte
    | with_reducible apply Does.ifte
    | with_reducible apply Does.ifte_fst
    | with_reducible apply Does.ifte_snd
    | split
    | exact Sub.mono hT rfl
    | exact hT _ rfl
    | intro _

theorem does_actCall (s : State) (n : Nat) (w : List Nat) (refs : List Ref) {s0 : State} {msk : Nat} (hk : Does msk s0 s)
    (hT : Sub 0x400000000 msk := by first | exact Sub.of_eq rfl | exact Sub.mono (by assumption) rfl) : Does msk s0 (actCall s n w refs) := by
  delta actCall
  repeat' first
    | with_reducible assumption
    | (extract_lets -underBinder +onlyGivenNames x; refine does_cut (msk := msk) (s0 := s0) (x := x) ?_ fun _ => ?_; rotate_left; clear_value x; revert x; intro _ _; rotate_left; subst x)
    | (extract_lets -underBinder +onlyGivenNames x; clear_value x; revert x; intro _)
    | with_reducible apply does_setSlot
    | with_reducible apply does_pastCmd
    | with_reducible apply Does.ifte
    | split
    | exact Sub.mono hT rfl
    | exact hT _ rfl
    | intro _

theorem does_execCall (n : Slot) (s : State) {s0 : State} {msk : Nat} (hk : Does msk s0 s)
    (hT : Sub 0x1e000002c0 msk := by first | exact Sub.of_eq rfl | exact Sub.mono (by assumption) rfl) : DoesOut msk s0 (execCall n s) := by
  delta execCall
  repeat' first
    | with_reducible assumption
    | with_reducible apply does_decodeCmd
    | with_reducible apply does_actCall
    | with_reducible apply DoesOut.next
    | with_reducible apply DoesOut.ifte
    | with_reducible apply Does.ifte
    | with_reducible apply Does.ifte_fst
    | with_reducible apply Does.ifte_snd
    | split
    | exact Sub.mono hT rfl
    | exact hT _ rfl
    | intro _

theorem does_actRet (s : State) (n : Nat) (_w : List Nat) (_refs : List Ref) {s0 : State} {msk : Nat} (hk : Does msk s0 s)
    (hT : Sub 0x400000000 msk := by first | exact Sub.of_eq rfl | exact Sub.mono (by assumption) rfl) : Does msk s0 (actRet s n _w _refs) := by
  delta actRet
  repeat' first
    | with_reducible assumption
    | (extract_lets -underBinder +onlyGivenNames x; refine does_cut (msk := msk) (s0 := s0) (x := x) ?_ fun _ => ?_; rotate_left; clear_value x; revert x; intro _ _; rotate_left; subst x)
    | (extract_lets -underBinder +onlyGivenNames x; clear_value x; revert x; intro _)
    | with_reducible apply does_setSlot
    | with_reducible apply Does.ifte
    | split
    | exact Sub.mono hT rfl
    | exact hT _ rfl
    | intro _

theorem does_execRet (n : Slot) (s : State) {s0 : State} {msk : Nat} (hk : Does msk s0 s)
    (hT : Sub 0x1e000002c0 msk := by first | exact Sub.of_eq rfl | exact Sub.mono (by assumption) rfl) : DoesOut msk s0 (execRet n s) := by
  delta execRet
  repeat' first
    | with_reducible assumption
    | with_reducible apply does_decodeCmd
    | with_reducible apply does_actRet
    | with_reducible apply DoesOut.next
    | with_reducible apply DoesOut.ifte
    | with_reducible apply Does.ifte
    | with_reducible apply Does.ifte_fst
    | with_reducible apply Does.ifte_snd
    | split
    | exact Sub.mono hT rfl
    | exact hT _ rfl
    | intro _

theorem does_actLoop (s : State) (n : Nat) (w : List Nat) (_refs : List Ref) {s0 : State} {msk : Nat} (hk : Does msk s0 s)
    (hT : Sub 0x400000000 msk := by first | exact Sub.of_eq rfl | exact Sub.mono (by assumption) rfl) : Does msk s0 (actLoop s n w _refs) := by
  delta actLoop
  repeat' first
    | with_reducible assumption
    | (extract_lets -underBinder +onlyGivenNames x; refine does_cut (msk := msk) (s0 := s0) (x := x) ?_ fun _ => ?_; rotate_left; clear_value x; revert x; intro _ _; rotate_left; subst x)
    | (extract_lets -underBinder +onlyGivenNames x; clear_value x; revert x; intro _)
    | with_reducible apply does_setSlot
    | with_reducible apply does_pastCmd
    | with_reducible apply Does.ifte
    | split
    | exact Sub.mono hT rfl
    | exact hT _ rfl
    | intro _

theorem does_execLoop (n : Slot) (s : State) {s0 : State} {msk : Nat} (hk : Does msk s0 s)
    (hT : Sub 0x1e000002c0 msk := by first | exact Sub.of_eq rfl | exact Sub.mono (by assumption) rfl) : DoesOut msk s0 (execLoop n s) := by
  delta execLoop
  repeat' first
    | with_reducible assumption
    | with_reducible apply does_decodeCmd
    | with_reducible apply does_actLoop
    | with_reducible apply DoesOut.next
    | with_reducible apply DoesOut.ifte
    | with_reducible apply Does.ifte
    | with_reducible apply Does.ifte_fst
    | with_reducible apply Does.ifte_snd
    | split
    | exact Sub.mono hT rfl
    | exact hT _ rfl
    | intro _

theorem does_actEndloop (s : State) (n : Nat) (w : List Nat) (_refs : List Ref) {s0 : State} {msk : Nat} (hk : Does msk s0 s)
    (hT : Sub 0x400000000 msk := by first | exact Sub.of_eq rfl | exact Sub.mono (by assumption) rfl) : Does msk s0 (actEndloop s n w _refs) := by
  delta actEndloop
  repeat' first
    | with_reducible assumption
    | (extract_lets -underBinder +onlyGivenNames x; refine does_cut (msk := msk) (s0 := s0) (x := x) ?_ fun _ => ?_; rotate_left; clear_value x; revert x; intro _ _; rotate_left; subst x)
    | (extract_lets -underBinder +onlyGivenNames x; clear_value x; revert x; intro _)
    | with_reducible apply does_setSlot
    | with_reducible apply does_pastCmd
    | with_reducible apply Does.ifte
    | split
    | exact Sub.mono hT rfl
    | exact hT _ rfl
    | intro _

theorem does_execEndloop (n : Slot) (s : State) {s0 : State} {msk : Nat} (hk : Does msk s0 s)
    (hT : Sub 0x1e000002c0 msk := by first | exact Sub.of_eq rfl | exact Sub.mono (by assumption) rfl) : DoesOut msk s0 (execEndloop n s) := by
  delta execEndloop
  repeat' first
    | with_reducible assumption
    | with_reducible apply does_decodeCmd
    | with_reducible apply does_actEndloop
    | with_reducible apply DoesOut.next
    | with_reducible apply DoesOut.ifte
    | with_reducible apply Does.ifte
    | with_reducible apply Does.ifte_fst
    | with_reducible apply Does.ifte_snd
    | split
    | exact Sub.mono hT rfl
    | exact hT _ rfl
    | intro _

theorem does_condAct (s : State) (n : Nat) (w : List Nat) (part : Nat) (a : Nat) (inside : Bool) (fault : Option Nat) {s0 : State} {msk : Nat} (hk : Does msk s0 s)
    (hT : Sub 0x16000002c0 msk := by first | exact Sub.of_eq rfl | exact Sub.mono (by assumption) rfl) : Does msk s0 (condAct s n w part a inside fault) := by
  delta condAct
  repeat' first
    | with_reducible assumption
    | (extract_lets -underBinder +onlyGivenNames x; refine does_cut (msk := msk) (s0 := s0) (x := x) ?_ fun _ => ?_; rotate_left; clear_value x; revert x; intro _ _; rotate_left; subst x)
    | (extract_lets -underBinder +onlyGivenNames x; clear_value x; revert x; intro _)
    | with_reducible apply does_violation
    | with_reducible apply does_setSlot
    | with_reducible apply does_queueFault
    | with_reducible apply does_pastCmd
    | with_reducible apply Does.ifte
    | split
    | exact Sub.mono hT rfl
    | exact hT _ rfl
    | intro _

theorem does_condTest (s : State) (n : Nat) (w : List Nat) (r : Ref) {s0 : State} {msk : Nat} (hk : Does msk s0 s)
    (hT : Sub 0x16000002c0 msk := by first | exact Sub.of_eq rfl | exact Sub.mono (by assumption) rfl) : Does msk s0 (condTest s n w r) := by
  delta condTest
  repeat' first
    | with_reducible assumption
    | (extract_lets -underBinder +onlyGivenNames x; refine does_cut (msk := msk) (s0 := s0) (x := x) ?_ fun _ => ?_; rotate_left; clear_value x; revert x; intro _ _; rotate_left; subst x)
    | (extract_lets -underBinder +onlyGivenNames x; clear_value x; revert x; intro _)
    | with_reducible apply does_condAct
    | with_reducible apply Does.ifte
    | split
    | exact Sub.mono hT rfl
    | exact hT _ rfl
    | intro _

theorem does_holdCmd (s : State) (n : Nat) (hold : Nat) (op : Nat) (w : List Nat) (refs : List Ref) {s0 : State} {msk : Nat} (hk : Does msk s0 s)
    (hT : Sub 0x400000000 msk := by first | exact Sub.of_eq rfl | exact Sub.mono (by assumption) rfl) : Does msk s0 (holdCmd s n hold op w refs) := by
  delta holdCmd
  repeat' first
    | with_reducible assumption
    | with_reducible apply does_setSlot
    | with_reducible apply Does.ifte
    | split
    | exact Sub.mono hT rfl
    | exact hT _ rfl
    | intro _

theorem does_actCond (s : State) (n : Nat) (w : List Nat) (refs : List Ref) {s0 : State} {msk : Nat} (hk : Does msk s0 s)
    (hT : Sub 0x16000002c0 msk := by first | exact Sub.of_eq rfl | exact Sub.mono (by assumption) rfl) : Does msk s0 (actCond s n w refs) := by
  delta actCond
  repeat' first
    | with_reducible assumption
    | with_reducible apply does_condTest
    | with_reducible apply does_holdCmd
    | with_reducible apply Does.ifte
    | split
    | exact Sub.mono hT rfl
    | exact hT _ rfl
    | intro _

theorem does_execCond (n : Slot) (s : State) {s0 : State} {msk : Nat} (hk : Does msk s0 s)
    (hT : Sub 0x1e000002c0 msk := by first | exact Sub.of_eq rfl | exact Sub.mono (by assumption) rfl) : DoesOut msk s0 (execCond n s) := by
  delta execCond
  repeat' first
    | with_reducible assumption
    | with_reducible apply does_decodeCmd
    | with_reducible apply does_actCond
    | with_reducible apply DoesOut.next
    | with_reducible apply DoesOut.ifte
    | with_reducible apply Does.ifte
    | with_reducible apply Does.ifte_fst
    | with_reducible apply Does.ifte_snd
    | split
    | exact Sub.mono hT rfl
    | exact hT _ rfl
    | intro _

theorem does_beginAt (s : State) (n : Nat) (k : Nat) {s0 : State} {msk : Nat} (hk : Does msk s0 s)
    (hT : Sub 0x400000000 msk := by first | exact Sub.of_eq rfl | exact Sub.mono (by assumption) rfl) : Does msk s0 (beginAt s n k) := by
  delta beginAt
  repeat' first
    | with_reducible assumption
    | (extract_lets -underBinder +onlyGivenNames x; refine does_cut (msk := msk) (s0 := s0) (x := x) ?_ fun _ => ?_; rotate_left; clear_value x; revert x; intro _ _; rotate_left; subst x)
    | (extract_lets -underBinder +onlyGivenNames x; clear_value x; revert x; intro _)
    | with_reducible apply does_setSlot
    | with_reducible apply Does.ifte
    | split
    | exact Sub.mono hT rfl
    | exact hT _ rfl
    | intro _

theorem does_startOr {msk : Nat} (ok : Bool) (op : Nat) (act : State → Nat → List Nat → List Ref → State) (s : State) (n : Nat)
    (w : List Nat) (refs : List Ref) {s0 : State} (h : Does msk s0 s)
    (ha : ∀ t n w r, Does msk s0 t → Does msk s0 (act t n w r))
    (hT : Sub 0x400000000 msk := by first | exact Sub.of_eq rfl | exact Sub.mono (by assumption) rfl) : Does msk s0 (startOr ok op act s n w refs) := by
  unfold startOr
  with_reducible apply Does.ifte
  · exact ha _ _ _ _ (does_beginAt _ _ _ h)
  · exact does_holdCmd _ _ _ _ _ _ h

end Sys2Proof.Machine
end

