-- ==== Sys2Proof/Laws/Does/PassOps.lean ====
section
/-!
SUPPORT. What every function of Machine/PassOps.lean does: it keeps the queue and the invariant, and changes
no field of the state outside the set its lemma names.
-/
set_option linter.unreachableTactic false
set_option linter.unusedTactic false

namespace Sys2Proof.Machine

set_option Elab.async false

theorem does_updPass (s : State) (p : Nat) (f : Pass → Pass) {s0 : State} {msk : Nat} (hk : Does msk s0 s)
    (hT : Sub 0x400000000000 msk := by first | exact Sub.of_eq rfl | exact Sub.mono (by assumption) rfl) : Does msk s0 (updPass s p f) := by
  delta updPass
  repeat' first
    | with_reducible assumption
    | with_reducible apply Does.ifte
    | split
    | with_reducible apply Does.updPasses
    | exact Sub.mono hT rfl
    | exact hT _ rfl
    | intro _

end Sys2Proof.Machine
end

