-- ==== Sys2Proof/Laws/Does/Sync.lean ====
section
/-!
SUPPORT. What every function of Machine/Sync.lean does: it keeps the queue and the invariant, and changes
no field of the state outside the set its lemma names.
-/
set_option linter.unreachableTactic false
set_option linter.unusedTactic false

namespace Sys2Proof.Machine

set_option Elab.async false

theorem does_holdWait (s : State) (n : Nat) (hold : Nat) (sp : Option Spin) {s0 : State} {msk : Nat} (hk : Does msk s0 s)
    (hT : Sub 0x400000000 msk := by first | exact Sub.of_eq rfl | exact Sub.mono (by assumption) rfl) : Does msk s0 (holdWait s n hold sp) := by
  delta holdWait
  repeat' first
    | with_reducible assumption
    | with_reducible apply does_setSlot
    | with_reducible apply Does.ifte
    | split
    | exact Sub.mono hT rfl
    | exact hT _ rfl
    | intro _

theorem does_waitMet (s : State) (n : Nat) {s0 : State} {msk : Nat} (hk : Does msk s0 s)
    (hT : Sub 0x1600000000 msk := by first | exact Sub.of_eq rfl | exact Sub.mono (by assumption) rfl) : Does msk s0 (waitMet s n) := by
  delta waitMet
  repeat' first
    | with_reducible assumption
    | (extract_lets -underBinder +onlyGivenNames x; refine does_cut (msk := msk) (s0 := s0) (x := x) ?_ fun _ => ?_; rotate_left; clear_value x; revert x; intro _ _; rotate_left; subst x)
    | (extract_lets -underBinder +onlyGivenNames x; clear_value x; revert x; intro _)
    | with_reducible apply does_setSlot
    | with_reducible apply does_endJob
    | with_reducible apply Does.ifte
    | split
    | exact Sub.mono hT rfl
    | exact hT _ rfl
    | intro _

theorem does_waitsMet (s : State) (a : List Nat) {s0 : State} {msk : Nat} (hk : Does msk s0 s)
    (hT : Sub 0x1600000000 msk := by first | exact Sub.of_eq rfl | exact Sub.mono (by assumption) rfl) : Does msk s0 (waitsMet s a) := by
  induction a generalizing s with
  | nil => unfold waitsMet; with_reducible assumption
  | cons x r ih =>
    unfold waitsMet
    repeat' first
    | with_reducible apply ih
    | with_reducible assumption
    | with_reducible apply does_waitMet
    | with_reducible apply Does.ifte
    | split
    | exact Sub.mono hT rfl
    | exact hT _ rfl
    | intro _

theorem does_waitFault (s : State) (n : Nat) (err : Nat) (op : Nat) {s0 : State} {msk : Nat} (hk : Does msk s0 s)
    (hT : Sub 0x16000002c0 msk := by first | exact Sub.of_eq rfl | exact Sub.mono (by assumption) rfl) : Does msk s0 (waitFault s n err op) := by
  delta waitFault
  repeat' first
    | with_reducible assumption
    | with_reducible apply does_queueFault
    | with_reducible apply Does.ifte
    | split
    | exact Sub.mono hT rfl
    | exact hT _ rfl
    | intro _

theorem does_fslotUse (s : State) (n : Nat) {s0 : State} {msk : Nat} (hk : Does msk s0 s)
    (hT : Sub 0x300000 msk := by first | exact Sub.of_eq rfl | exact Sub.mono (by assumption) rfl) : Does msk s0 (fslotUse s n) := by
  delta fslotUse
  repeat' first
    | with_reducible assumption
    | (extract_lets -underBinder +onlyGivenNames x; refine does_cut (msk := msk) (s0 := s0) (x := x) ?_ fun _ => ?_; rotate_left; clear_value x; revert x; intro _ _; rotate_left; subst x)
    | (extract_lets -underBinder +onlyGivenNames x; clear_value x; revert x; intro _)
    | with_reducible apply does_setFslot
    | with_reducible apply Does.ifte
    | split
    | with_reducible apply Does.updFclock
    | exact Sub.mono hT rfl
    | exact hT _ rfl
    | intro _

theorem does_pageInto (s : State) (p : PageIn) (k : Nat) {s0 : State} {msk : Nat} (hk : Does msk s0 s)
    (hT : Sub 0xb00000 msk := by first | exact Sub.of_eq rfl | exact Sub.mono (by assumption) rfl) : Does msk s0 (pageInto s p k) := by
  delta pageInto
  repeat' first
    | with_reducible assumption
    | (extract_lets -underBinder +onlyGivenNames x; refine does_cut (msk := msk) (s0 := s0) (x := x) ?_ fun _ => ?_; rotate_left; clear_value x; revert x; intro _ _; rotate_left; subst x)
    | (extract_lets -underBinder +onlyGivenNames x; clear_value x; revert x; intro _)
    | with_reducible apply does_setFslot
    | with_reducible apply does_fslotUse
    | with_reducible apply Does.ifte
    | split
    | with_reducible apply Does.updPageIns
    | exact Sub.mono hT rfl
    | exact hT _ rfl
    | intro _

theorem does_waitResident (s : State) (k : Nat) (slot : Nat) (value : Nat) {s0 : State} {msk : Nat} (hk : Does msk s0 s)
    (hT : Sub 0x1600300000 msk := by first | exact Sub.of_eq rfl | exact Sub.mono (by assumption) rfl) : Does msk s0 (waitResident s k slot value) := by
  delta waitResident
  repeat' first
    | with_reducible assumption
    | (extract_lets -underBinder +onlyGivenNames x; refine does_cut (msk := msk) (s0 := s0) (x := x) ?_ fun _ => ?_; rotate_left; clear_value x; revert x; intro _ _; rotate_left; subst x)
    | (extract_lets -underBinder +onlyGivenNames x; clear_value x; revert x; intro _)
    | with_reducible apply does_setFslot
    | with_reducible apply does_waitMet
    | with_reducible apply does_fslotUse
    | with_reducible apply Does.ifte
    | split
    | exact Sub.mono hT rfl
    | exact hT _ rfl
    | intro _

theorem does_waitSlot (s : State) (p : PageIn) {s0 : State} {msk : Nat} (hk : Does msk s0 s)
    (hT : Sub 0x1600f00000 msk := by first | exact Sub.of_eq rfl | exact Sub.mono (by assumption) rfl) : Does msk s0 (waitSlot s p) := by
  delta waitSlot
  repeat' first
    | with_reducible assumption
    | with_reducible apply does_pageInto
    | with_reducible apply does_waitResident
    | with_reducible apply Does.ifte
    | split
    | with_reducible apply Does.updFwaiting
    | exact Sub.mono hT rfl
    | exact hT _ rfl
    | intro _

theorem does_fenceSettle (s : State) (a : Nat) {s0 : State} {msk : Nat} (hk : Does msk s0 s)
    (hT : Sub 0x1600f00000 msk := by first | exact Sub.of_eq rfl | exact Sub.mono (by assumption) rfl) : Does msk s0 (fenceSettle s a) := by
  induction a generalizing s with
  | zero => unfold fenceSettle; with_reducible assumption
  | succ n ih =>
    unfold fenceSettle
    repeat' first
    | with_reducible apply ih
    | with_reducible assumption
    | with_reducible apply does_waitSlot
    | with_reducible apply Does.ifte
    | split
    | with_reducible apply Does.updFwaiting
    | exact Sub.mono hT rfl
    | exact hT _ rfl
    | intro _

theorem does_fenceWake (s : State) (k : Nat) {s0 : State} {msk : Nat} (hk : Does msk s0 s)
    (hT : Sub 0x1600100000 msk := by first | exact Sub.of_eq rfl | exact Sub.mono (by assumption) rfl) : Does msk s0 (fenceWake s k) := by
  delta fenceWake
  repeat' first
    | with_reducible assumption
    | (extract_lets -underBinder +onlyGivenNames x; refine does_cut (msk := msk) (s0 := s0) (x := x) ?_ fun _ => ?_; rotate_left; clear_value x; revert x; intro _ _; rotate_left; subst x)
    | (extract_lets -underBinder +onlyGivenNames x; refine does_cut (msk := msk) (s0 := s0) (x := x.2) ?_ fun _ => ?_; rotate_left; clear_value x; revert x; intro _ _; rotate_left; subst x)
    | (extract_lets -underBinder +onlyGivenNames x; clear_value x; revert x; intro _)
    | with_reducible apply does_setFslot
    | with_reducible apply does_waitsMet
    | with_reducible apply Does.ifte
    | with_reducible apply Does.ifte_fst
    | with_reducible apply Does.ifte_snd
    | split
    | exact Sub.mono hT rfl
    | exact hT _ rfl
    | intro _

theorem does_fenceForget (s : State) (n : Nat) {s0 : State} {msk : Nat} (hk : Does msk s0 s)
    (hT : Sub 0x1600f00000 msk := by first | exact Sub.of_eq rfl | exact Sub.mono (by assumption) rfl) : Does msk s0 (fenceForget s n) := by
  delta fenceForget
  repeat' first
    | with_reducible assumption
    | (extract_lets -underBinder +onlyGivenNames x; refine does_cut (msk := msk) (s0 := s0) (x := x) ?_ fun _ => ?_; rotate_left; clear_value x; revert x; intro _ _; rotate_left; subst x)
    | (extract_lets -underBinder +onlyGivenNames x; refine does_cut (msk := msk) (s0 := s0) (x := x.1) ?_ fun _ => ?_; rotate_left; clear_value x; revert x; intro _ _; rotate_left; subst x)
    | (extract_lets -underBinder +onlyGivenNames x; clear_value x; revert x; intro _)
    | with_reducible apply does_fenceSettle
    | with_reducible apply Does.ifte
    | with_reducible apply Does.ifte_fst
    | with_reducible apply Does.ifte_snd
    | split
    | with_reducible apply Does.updFslotsFwaitingPageIns
    | exact Sub.mono hT rfl
    | exact hT _ rfl
    | intro _

theorem does_beginWaitFence (s : State) (n : Nat) (w : List Nat) (refs : List Ref) {s0 : State} {msk : Nat} (hk : Does msk s0 s)
    (hT : Sub 0x3600b002c0 msk := by first | exact Sub.of_eq rfl | exact Sub.mono (by assumption) rfl) : Does msk s0 (beginWaitFence s n w refs) := by
  delta beginWaitFence
  repeat' first
    | with_reducible assumption
    | (extract_lets -underBinder +onlyGivenNames x; refine does_cut (msk := msk) (s0 := s0) (x := x) ?_ fun _ => ?_; rotate_left; clear_value x; revert x; intro _ _; rotate_left; subst x)
    | (extract_lets -underBinder +onlyGivenNames x; clear_value x; revert x; intro _)
    | with_reducible apply does_violation
    | with_reducible apply does_setSlot
    | with_reducible apply does_startJob
    | with_reducible apply does_endJob
    | with_reducible apply does_holdWait
    | with_reducible apply does_waitMet
    | with_reducible apply does_waitResident
    | with_reducible apply Does.ifte
    | split
    | with_reducible apply Does.updPageIns
    | exact Sub.mono hT rfl
    | exact hT _ rfl
    | intro _

theorem does_actWaitFence (s : State) (n : Nat) (w : List Nat) (refs : List Ref) {s0 : State} {msk : Nat} (hk : Does msk s0 s)
    (hT : Sub 0x3600b002c0 msk := by first | exact Sub.of_eq rfl | exact Sub.mono (by assumption) rfl) : Does msk s0 (actWaitFence s n w refs) := by
  delta actWaitFence
  repeat' first
    | with_reducible assumption
    | with_reducible apply does_startOr
    | with_reducible apply does_beginWaitFence
    | with_reducible apply Does.ifte
    | split
    | exact Sub.mono hT rfl
    | exact hT _ rfl
    | intro _

theorem does_execWaitFence (n : Slot) (s : State) {s0 : State} {msk : Nat} (hk : Does msk s0 s)
    (hT : Sub 0x3e00b002c0 msk := by first | exact Sub.of_eq rfl | exact Sub.mono (by assumption) rfl) : DoesOut msk s0 (execWaitFence n s) := by
  delta execWaitFence
  repeat' first
    | with_reducible assumption
    | with_reducible apply does_decodeCmd
    | with_reducible apply does_actWaitFence
    | with_reducible apply DoesOut.next
    | with_reducible apply DoesOut.ifte
    | with_reducible apply Does.ifte
    | with_reducible apply Does.ifte_fst
    | with_reducible apply Does.ifte_snd
    | split
    | exact Sub.mono hT rfl
    | exact hT _ rfl
    | intro _

theorem does_beginSignalFence (s : State) (n : Nat) (w : List Nat) (refs : List Ref) {s0 : State} {msk : Nat} (hk : Does msk s0 s)
    (hT : Sub 0x2030002c0 msk := by first | exact Sub.of_eq rfl | exact Sub.mono (by assumption) rfl) : Does msk s0 (beginSignalFence s n w refs) := by
  delta beginSignalFence
  repeat' first
    | with_reducible assumption
    | (extract_lets -underBinder +onlyGivenNames x; refine does_cut (msk := msk) (s0 := s0) (x := x) ?_ fun _ => ?_; rotate_left; clear_value x; revert x; intro _ _; rotate_left; subst x)
    | (extract_lets -underBinder +onlyGivenNames x; clear_value x; revert x; intro _)
    | with_reducible apply does_violation
    | with_reducible apply does_instantJob
    | with_reducible apply does_sendSignal
    | with_reducible apply Does.ifte
    | split
    | exact Sub.mono hT rfl
    | exact hT _ rfl
    | intro _

theorem does_actSignalFence (s : State) (n : Nat) (w : List Nat) (refs : List Ref) {s0 : State} {msk : Nat} (hk : Does msk s0 s)
    (hT : Sub 0x6030002c0 msk := by first | exact Sub.of_eq rfl | exact Sub.mono (by assumption) rfl) : Does msk s0 (actSignalFence s n w refs) := by
  delta actSignalFence
  repeat' first
    | with_reducible assumption
    | with_reducible apply does_startOr
    | with_reducible apply does_beginSignalFence
    | with_reducible apply Does.ifte
    | split
    | exact Sub.mono hT rfl
    | exact hT _ rfl
    | intro _

theorem does_execSignalFence (n : Slot) (s : State) {s0 : State} {msk : Nat} (hk : Does msk s0 s)
    (hT : Sub 0x1e030002c0 msk := by first | exact Sub.of_eq rfl | exact Sub.mono (by assumption) rfl) : DoesOut msk s0 (execSignalFence n s) := by
  delta execSignalFence
  repeat' first
    | with_reducible assumption
    | with_reducible apply does_decodeCmd
    | with_reducible apply does_actSignalFence
    | with_reducible apply DoesOut.next
    | with_reducible apply DoesOut.ifte
    | with_reducible apply Does.ifte
    | with_reducible apply Does.ifte_fst
    | with_reducible apply Does.ifte_snd
    | split
    | exact Sub.mono hT rfl
    | exact hT _ rfl
    | intro _

theorem does_regressRecord (s : State) (f : FSig) (u : Nat) {s0 : State} {msk : Nat} (hk : Does msk s0 s)
    (hT : Sub 0x280 msk := by first | exact Sub.of_eq rfl | exact Sub.mono (by assumption) rfl) : Does msk s0 (regressRecord s f u) := by
  delta regressRecord
  repeat' first
    | with_reducible assumption
    | with_reducible apply does_append
    | with_reducible apply Does.ifte
    | split
    | exact Sub.mono hT rfl
    | exact hT _ rfl
    | intro _

theorem does_signalSlot (s : State) (k : Nat) (f : FSig) {s0 : State} {msk : Nat} (hk : Does msk s0 s)
    (hT : Sub 0x1600328a80 msk := by first | exact Sub.of_eq rfl | exact Sub.mono (by assumption) rfl) : Does msk s0 (signalSlot s k f) := by
  delta signalSlot
  repeat' first
    | with_reducible assumption
    | (extract_lets -underBinder +onlyGivenNames x; refine does_cut (msk := msk) (s0 := s0) (x := x) ?_ fun _ => ?_; rotate_left; clear_value x; revert x; intro _ _; rotate_left; subst x)
    | (extract_lets -underBinder +onlyGivenNames x; clear_value x; revert x; intro _)
    | with_reducible apply does_devWrite
    | with_reducible apply does_setFslot
    | with_reducible apply does_fslotUse
    | with_reducible apply does_fenceWake
    | with_reducible apply does_regressRecord
    | with_reducible apply Does.ifte
    | split
    | exact Sub.mono hT rfl
    | exact hT _ rfl
    | intro _

theorem does_execFenceSignalApply (s : State) {s0 : State} {msk : Nat} (hk : Does msk s0 s)
    (hT : Sub 0x1601f28a80 msk := by first | exact Sub.of_eq rfl | exact Sub.mono (by assumption) rfl) : DoesOut msk s0 (execFenceSignalApply s) := by
  delta execFenceSignalApply
  repeat' first
    | with_reducible assumption
    | (extract_lets -underBinder +onlyGivenNames x; refine does_cut (msk := msk) (s0 := s0) (x := x) ?_ fun _ => ?_; rotate_left; clear_value x; revert x; intro _ _; rotate_left; subst x)
    | (extract_lets -underBinder +onlyGivenNames x; clear_value x; revert x; intro _)
    | with_reducible apply does_fenceSettle
    | with_reducible apply does_signalSlot
    | with_reducible apply DoesOut.next
    | with_reducible apply DoesOut.ifte
    | with_reducible apply Does.ifte
    | with_reducible apply Does.ifte_fst
    | with_reducible apply Does.ifte_snd
    | split
    | with_reducible apply Does.updFsigs
    | exact Sub.mono hT rfl
    | exact hT _ rfl
    | intro _

theorem does_execTransitSignal (ecc : Ecc) (s : State) {s0 : State} {msk : Nat} (hk : Does msk s0 s)
    (hT : Sub 0x22028ac0 msk := by first | exact Sub.of_eq rfl | exact Sub.mono (by assumption) rfl) : DoesOut msk s0 (execTransitSignal ecc s) := by
  delta execTransitSignal
  repeat' first
    | with_reducible assumption
    | (extract_lets -underBinder +onlyGivenNames x; refine does_cut (msk := msk) (s0 := s0) (x := x) ?_ fun _ => ?_; rotate_left; clear_value x; revert x; intro _ _; rotate_left; subst x)
    | (extract_lets -underBinder +onlyGivenNames x; clear_value x; revert x; intro _)
    | with_reducible apply does_bump
    | with_reducible apply does_append
    | with_reducible apply does_devWrite
    | with_reducible apply does_mcEcc
    | with_reducible apply does_regressRecord
    | with_reducible apply DoesOut.next
    | with_reducible apply DoesOut.ifte
    | with_reducible apply Does.ifte
    | with_reducible apply Does.ifte_fst
    | with_reducible apply Does.ifte_snd
    | split
    | with_reducible apply Does.updTransits
    | exact Sub.mono hT rfl
    | exact hT _ rfl
    | intro _

theorem does_execFencePageIn (n : Slot) (ecc : Ecc) (s : State) {s0 : State} {msk : Nat} (hk : Does msk s0 s)
    (hT : Sub 0x1620f002c0 msk := by first | exact Sub.of_eq rfl | exact Sub.mono (by assumption) rfl) : DoesOut msk s0 (execFencePageIn n ecc s) := by
  delta execFencePageIn
  repeat' first
    | with_reducible assumption
    | (extract_lets -underBinder +onlyGivenNames x; refine does_cut (msk := msk) (s0 := s0) (x := x) ?_ fun _ => ?_; rotate_left; clear_value x; revert x; intro _ _; rotate_left; subst x)
    | (extract_lets -underBinder +onlyGivenNames x; refine does_cut (msk := msk) (s0 := s0) (x := x.1) ?_ fun _ => ?_; rotate_left; clear_value x; revert x; intro _ _; rotate_left; subst x)
    | (extract_lets -underBinder +onlyGivenNames x; clear_value x; revert x; intro _)
    | with_reducible apply does_bump
    | with_reducible apply does_mcEcc
    | with_reducible apply does_setFslot
    | with_reducible apply does_waitMet
    | with_reducible apply does_waitFault
    | with_reducible apply does_waitSlot
    | with_reducible apply does_fenceSettle
    | with_reducible apply does_fenceWake
    | with_reducible apply does_foldl
    | with_reducible apply DoesOut.next
    | with_reducible apply DoesOut.ifte
    | with_reducible apply Does.ifte
    | with_reducible apply Does.ifte_fst
    | with_reducible apply Does.ifte_snd
    | split
    | with_reducible apply Does.updPageIns
    | exact Sub.mono hT rfl
    | exact hT _ rfl
    | intro _

theorem does_execEngineFenceSignal (e : Eng) (w : Fin 8) (addr : Nat) (v : Dword) (s : State) {s0 : State} {msk : Nat} (hk : Does msk s0 s)
    (hT : Sub 0x10070c02c0 msk := by first | exact Sub.of_eq rfl | exact Sub.mono (by assumption) rfl) : DoesOut msk s0 (execEngineFenceSignal e w addr v s) := by
  delta execEngineFenceSignal
  repeat' first
    | with_reducible assumption
    | (extract_lets -underBinder +onlyGivenNames x; refine does_cut (msk := msk) (s0 := s0) (x := x) ?_ fun _ => ?_; rotate_left; clear_value x; revert x; intro _ _; rotate_left; subst x)
    | (extract_lets -underBinder +onlyGivenNames x; clear_value x; revert x; intro _)
    | with_reducible apply does_violation
    | with_reducible apply does_endWork
    | with_reducible apply does_releaseIssue
    | with_reducible apply DoesOut.next
    | with_reducible apply DoesOut.ifte
    | with_reducible apply Does.ifte
    | with_reducible apply Does.ifte_fst
    | with_reducible apply Does.ifte_snd
    | split
    | exact Sub.mono hT rfl
    | exact hT _ rfl
    | intro _

theorem does_execReleaseComplete (e : Eng) (s : State) {s0 : State} {msk : Nat} (hk : Does msk s0 s)
    (hT : Sub 0x10030c02c0 msk := by first | exact Sub.of_eq rfl | exact Sub.mono (by assumption) rfl) : DoesOut msk s0 (execReleaseComplete e s) := by
  delta execReleaseComplete
  repeat' first
    | with_reducible assumption
    | (extract_lets -underBinder +onlyGivenNames x; refine does_cut (msk := msk) (s0 := s0) (x := x) ?_ fun _ => ?_; rotate_left; clear_value x; revert x; intro _ _; rotate_left; subst x)
    | (extract_lets -underBinder +onlyGivenNames x; clear_value x; revert x; intro _)
    | with_reducible apply does_setEng
    | with_reducible apply does_releaseApply
    | with_reducible apply DoesOut.next
    | with_reducible apply DoesOut.ifte
    | with_reducible apply Does.ifte
    | with_reducible apply Does.ifte_fst
    | with_reducible apply Does.ifte_snd
    | split
    | exact Sub.mono hT rfl
    | exact hT _ rfl
    | intro _

theorem does_engSem {msk : Nat} (s : State) (e w lq i c : Nat) (f : State → Nat → State) {s0 : State} (h : Does msk s0 s)
    (hf : ∀ t n, Does msk s0 t → Does msk s0 (f t n))
    (hT : Sub 0x10000402c2 msk := by first | exact Sub.of_eq rfl | exact Sub.mono (by assumption) rfl) : Does msk s0 (engSem s e w lq i c f) := by
  unfold engSem
  extract_lets x
  have hx : Does msk s0 x := does_atAclk _ _ h
  clear_value x
  split
  · exact hx
  · split
    · exact hf _ _ hx
    · exact does_endWork _ _ _ _ (does_localViolation _ _ _ _ _ _ _ hx)

theorem does_execSemWait (e : Eng) (w : Fin 8) (lq : Nat) (i : Fin 512) (n : Word) (c : Nat) (s : State) {s0 : State} {msk : Nat} (hk : Does msk s0 s)
    (hT : Sub 0x10000402c2 msk := by first | exact Sub.of_eq rfl | exact Sub.mono (by assumption) rfl) : DoesOut msk s0 (execSemWait e w lq i n c s) := by
  delta execSemWait
  repeat' first
    | with_reducible assumption
    | with_reducible apply does_flcAcquire
    | with_reducible apply does_setSpin
    | with_reducible apply does_engSem
    | with_reducible apply DoesOut.next
    | with_reducible apply DoesOut.ifte
    | with_reducible apply Does.ifte
    | with_reducible apply Does.ifte_fst
    | with_reducible apply Does.ifte_snd
    | split
    | exact Sub.mono hT rfl
    | exact hT _ rfl
    | intro _

theorem does_execSemAdd (e : Eng) (w : Fin 8) (lq : Nat) (i : Fin 512) (n : Word) (c : Nat) (s : State) {s0 : State} {msk : Nat} (hk : Does msk s0 s)
    (hT : Sub 0x10070c02c2 msk := by first | exact Sub.of_eq rfl | exact Sub.mono (by assumption) rfl) : DoesOut msk s0 (execSemAdd e w lq i n c s) := by
  delta execSemAdd
  repeat' first
    | with_reducible assumption
    | with_reducible apply does_releaseIssue
    | with_reducible apply does_engSem
    | with_reducible apply DoesOut.next
    | with_reducible apply DoesOut.ifte
    | with_reducible apply Does.ifte
    | with_reducible apply Does.ifte_fst
    | with_reducible apply Does.ifte_snd
    | split
    | exact Sub.mono hT rfl
    | exact hT _ rfl
    | intro _

theorem does_execSemSub (e : Eng) (w : Fin 8) (lq : Nat) (i : Fin 512) (n : Word) (c : Nat) (s : State) {s0 : State} {msk : Nat} (hk : Does msk s0 s)
    (hT : Sub 0x10070c02c2 msk := by first | exact Sub.of_eq rfl | exact Sub.mono (by assumption) rfl) : DoesOut msk s0 (execSemSub e w lq i n c s) := by
  delta execSemSub
  repeat' first
    | with_reducible assumption
    | with_reducible apply does_releaseIssue
    | with_reducible apply does_engSem
    | with_reducible apply DoesOut.next
    | with_reducible apply DoesOut.ifte
    | with_reducible apply Does.ifte
    | with_reducible apply Does.ifte_fst
    | with_reducible apply Does.ifte_snd
    | split
    | exact Sub.mono hT rfl
    | exact hT _ rfl
    | intro _

theorem does_execSemArrive (e : Eng) (w : Fin 8) (lq : Nat) (i : Fin 512) (k : BitVec 16) (p : BitVec 16) (c : Nat) (s : State) {s0 : State} {msk : Nat} (hk : Does msk s0 s)
    (hT : Sub 0x10070c02c2 msk := by first | exact Sub.of_eq rfl | exact Sub.mono (by assumption) rfl) : DoesOut msk s0 (execSemArrive e w lq i k p c s) := by
  delta execSemArrive
  repeat' first
    | with_reducible assumption
    | with_reducible apply does_releaseIssue
    | with_reducible apply does_engSem
    | with_reducible apply DoesOut.next
    | with_reducible apply DoesOut.ifte
    | with_reducible apply Does.ifte
    | with_reducible apply Does.ifte_fst
    | with_reducible apply Does.ifte_snd
    | split
    | exact Sub.mono hT rfl
    | exact hT _ rfl
    | intro _

theorem does_execSemBarWait (e : Eng) (w : Fin 8) (lq : Nat) (i : Fin 512) (k : BitVec 16) (c : Nat) (s : State) {s0 : State} {msk : Nat} (hk : Does msk s0 s)
    (hT : Sub 0x10000402c2 msk := by first | exact Sub.of_eq rfl | exact Sub.mono (by assumption) rfl) : DoesOut msk s0 (execSemBarWait e w lq i k c s) := by
  delta execSemBarWait
  repeat' first
    | with_reducible assumption
    | with_reducible apply does_setSpin
    | with_reducible apply does_engSem
    | with_reducible apply DoesOut.next
    | with_reducible apply DoesOut.ifte
    | with_reducible apply Does.ifte
    | with_reducible apply Does.ifte_fst
    | with_reducible apply Does.ifte_snd
    | split
    | exact Sub.mono hT rfl
    | exact hT _ rfl
    | intro _

theorem does_engPollReply (s : State) (e : Nat) (w : Nat) {s0 : State} {msk : Nat} (hk : Does msk s0 s)
    (hT : Sub 0x10000c02c0 msk := by first | exact Sub.of_eq rfl | exact Sub.mono (by assumption) rfl) : Does msk s0 (engPollReply s e w) := by
  delta engPollReply
  repeat' first
    | with_reducible assumption
    | (extract_lets -underBinder +onlyGivenNames x; refine does_cut (msk := msk) (s0 := s0) (x := x) ?_ fun _ => ?_; rotate_left; clear_value x; revert x; intro _ _; rotate_left; subst x)
    | (extract_lets -underBinder +onlyGivenNames x; clear_value x; revert x; intro _)
    | with_reducible apply does_flcAcquire
    | with_reducible apply does_setSpin
    | with_reducible apply does_engArrive
    | with_reducible apply does_reply
    | with_reducible apply Does.ifte
    | split
    | exact Sub.mono hT rfl
    | exact hT _ rfl
    | intro _

theorem does_slotPollReply (s : State) (n : Nat) {s0 : State} {msk : Nat} (hk : Does msk s0 s)
    (hT : Sub 0x16000802c0 msk := by first | exact Sub.of_eq rfl | exact Sub.mono (by assumption) rfl) : Does msk s0 (slotPollReply s n) := by
  delta slotPollReply
  repeat' first
    | with_reducible assumption
    | (extract_lets -underBinder +onlyGivenNames x; refine does_cut (msk := msk) (s0 := s0) (x := x) ?_ fun _ => ?_; rotate_left; clear_value x; revert x; intro _ _; rotate_left; subst x)
    | (extract_lets -underBinder +onlyGivenNames x; clear_value x; revert x; intro _)
    | with_reducible apply does_setSlot
    | with_reducible apply does_failJob
    | with_reducible apply does_semArriveAt
    | with_reducible apply does_waitMet
    | with_reducible apply does_reply
    | with_reducible apply Does.ifte
    | split
    | exact Sub.mono hT rfl
    | exact hT _ rfl
    | intro _

theorem does_execSemPollReply (u : Fin 128) (w : Fin 8) (c : Nat) (s : State) {s0 : State} {msk : Nat} (hk : Does msk s0 s)
    (hT : Sub 0x16000c02c2 msk := by first | exact Sub.of_eq rfl | exact Sub.mono (by assumption) rfl) : DoesOut msk s0 (execSemPollReply u w c s) := by
  delta execSemPollReply
  repeat' first
    | with_reducible assumption
    | (extract_lets -underBinder +onlyGivenNames x; refine does_cut (msk := msk) (s0 := s0) (x := x) ?_ fun _ => ?_; rotate_left; clear_value x; revert x; intro _ _; rotate_left; subst x)
    | (extract_lets -underBinder +onlyGivenNames x; clear_value x; revert x; intro _)
    | with_reducible apply does_atAclk
    | with_reducible apply does_engPollReply
    | with_reducible apply does_slotPollReply
    | with_reducible apply does_reply
    | with_reducible apply DoesOut.next
    | with_reducible apply DoesOut.ifte
    | with_reducible apply Does.ifte
    | with_reducible apply Does.ifte_fst
    | with_reducible apply Does.ifte_snd
    | split
    | exact Sub.mono hT rfl
    | exact hT _ rfl
    | intro _

theorem does_execSpinPrescaler (e : Eng) (k : Nat) (s : State) {s0 : State} {msk : Nat} (hk : Does msk s0 s)
    (hT : Sub 0x40040 msk := by first | exact Sub.of_eq rfl | exact Sub.mono (by assumption) rfl) : DoesOut msk s0 (execSpinPrescaler e k s) := by
  delta execSpinPrescaler
  repeat' first
    | with_reducible assumption
    | (extract_lets -underBinder +onlyGivenNames x; refine does_cut (msk := msk) (s0 := s0) (x := x) ?_ fun _ => ?_; rotate_left; clear_value x; revert x; intro _ _; rotate_left; subst x)
    | (extract_lets -underBinder +onlyGivenNames x; clear_value x; revert x; intro _)
    | with_reducible apply does_bump
    | with_reducible apply does_setEng
    | with_reducible apply DoesOut.next
    | with_reducible apply DoesOut.ifte
    | with_reducible apply Does.ifte
    | with_reducible apply Does.ifte_fst
    | with_reducible apply Does.ifte_snd
    | split
    | exact Sub.mono hT rfl
    | exact hT _ rfl
    | intro _

theorem does_semOpRefused (s : State) (n : Nat) (w : List Nat) {s0 : State} {msk : Nat} (hk : Does msk s0 s)
    (hT : Sub 0x2000002c0 msk := by first | exact Sub.of_eq rfl | exact Sub.mono (by assumption) rfl) : Does msk s0 (semOpRefused s n w) := by
  delta semOpRefused
  repeat' first
    | with_reducible assumption
    | (extract_lets -underBinder +onlyGivenNames x; refine does_cut (msk := msk) (s0 := s0) (x := x) ?_ fun _ => ?_; rotate_left; clear_value x; revert x; intro _ _; rotate_left; subst x)
    | (extract_lets -underBinder +onlyGivenNames x; clear_value x; revert x; intro _)
    | with_reducible apply does_localViolation
    | with_reducible apply does_instantJob
    | with_reducible apply Does.ifte
    | split
    | exact Sub.mono hT rfl
    | exact hT _ rfl
    | intro _

theorem does_beginSemWait (s : State) (n : Nat) (w : List Nat) (_refs : List Ref) {s0 : State} {msk : Nat} (hk : Does msk s0 s)
    (hT : Sub 0x36000002c0 msk := by first | exact Sub.of_eq rfl | exact Sub.mono (by assumption) rfl) : Does msk s0 (beginSemWait s n w _refs) := by
  delta beginSemWait
  repeat' first
    | with_reducible assumption
    | with_reducible apply does_instantJob
    | with_reducible apply does_startJob
    | with_reducible apply does_holdWait
    | with_reducible apply does_semOpRefused
    | with_reducible apply Does.ifte
    | split
    | exact Sub.mono hT rfl
    | exact hT _ rfl
    | intro _

theorem does_beginSemAdd (s : State) (n : Nat) (w : List Nat) (_refs : List Ref) {s0 : State} {msk : Nat} (hk : Does msk s0 s)
    (hT : Sub 0x2000802c0 msk := by first | exact Sub.of_eq rfl | exact Sub.mono (by assumption) rfl) : Does msk s0 (beginSemAdd s n w _refs) := by
  delta beginSemAdd
  repeat' first
    | with_reducible assumption
    | with_reducible apply does_instantJob
    | with_reducible apply does_semAdd
    | with_reducible apply does_semOpRefused
    | with_reducible apply Does.ifte
    | split
    | exact Sub.mono hT rfl
    | exact hT _ rfl
    | intro _

theorem does_beginSemSub (s : State) (n : Nat) (w : List Nat) (_refs : List Ref) {s0 : State} {msk : Nat} (hk : Does msk s0 s)
    (hT : Sub 0x2000802c0 msk := by first | exact Sub.of_eq rfl | exact Sub.mono (by assumption) rfl) : Does msk s0 (beginSemSub s n w _refs) := by
  delta beginSemSub
  repeat' first
    | with_reducible assumption
    | with_reducible apply does_instantJob
    | with_reducible apply does_semSub
    | with_reducible apply does_semOpRefused
    | with_reducible apply Does.ifte
    | split
    | exact Sub.mono hT rfl
    | exact hT _ rfl
    | intro _

theorem does_beginSemArrive (s : State) (n : Nat) (w : List Nat) (_refs : List Ref) {s0 : State} {msk : Nat} (hk : Does msk s0 s)
    (hT : Sub 0x36000802c0 msk := by first | exact Sub.of_eq rfl | exact Sub.mono (by assumption) rfl) : Does msk s0 (beginSemArrive s n w _refs) := by
  delta beginSemArrive
  repeat' first
    | with_reducible assumption
    | (extract_lets -underBinder +onlyGivenNames x; refine does_cut (msk := msk) (s0 := s0) (x := x) ?_ fun _ => ?_; rotate_left; clear_value x; revert x; intro _ _; rotate_left; subst x)
    | (extract_lets -underBinder +onlyGivenNames x; clear_value x; revert x; intro _)
    | with_reducible apply does_startJob
    | with_reducible apply does_failInstant
    | with_reducible apply does_semArriveAt
    | with_reducible apply does_holdWait
    | with_reducible apply does_semOpRefused
    | with_reducible apply Does.ifte
    | split
    | exact Sub.mono hT rfl
    | exact hT _ rfl
    | intro _

theorem does_actSemOpWait (s : State) (n : Nat) (w : List Nat) (refs : List Ref) {s0 : State} {msk : Nat} (hk : Does msk s0 s)
    (hT : Sub 0x36000002c0 msk := by first | exact Sub.of_eq rfl | exact Sub.mono (by assumption) rfl) : Does msk s0 (actSemOpWait s n w refs) := by
  delta actSemOpWait
  repeat' first
    | with_reducible assumption
    | with_reducible apply does_startOr
    | with_reducible apply does_beginSemWait
    | with_reducible apply Does.ifte
    | split
    | exact Sub.mono hT rfl
    | exact hT _ rfl
    | intro _

theorem does_actSemOpAdd (s : State) (n : Nat) (w : List Nat) (refs : List Ref) {s0 : State} {msk : Nat} (hk : Does msk s0 s)
    (hT : Sub 0x6000802c0 msk := by first | exact Sub.of_eq rfl | exact Sub.mono (by assumption) rfl) : Does msk s0 (actSemOpAdd s n w refs) := by
  delta actSemOpAdd
  repeat' first
    | with_reducible assumption
    | with_reducible apply does_startOr
    | with_reducible apply does_beginSemAdd
    | with_reducible apply Does.ifte
    | split
    | exact Sub.mono hT rfl
    | exact hT _ rfl
    | intro _

theorem does_actSemOpSub (s : State) (n : Nat) (w : List Nat) (refs : List Ref) {s0 : State} {msk : Nat} (hk : Does msk s0 s)
    (hT : Sub 0x6000802c0 msk := by first | exact Sub.of_eq rfl | exact Sub.mono (by assumption) rfl) : Does msk s0 (actSemOpSub s n w refs) := by
  delta actSemOpSub
  repeat' first
    | with_reducible assumption
    | with_reducible apply does_startOr
    | with_reducible apply does_beginSemSub
    | with_reducible apply Does.ifte
    | split
    | exact Sub.mono hT rfl
    | exact hT _ rfl
    | intro _

theorem does_actSemOpArrive (s : State) (n : Nat) (w : List Nat) (refs : List Ref) {s0 : State} {msk : Nat} (hk : Does msk s0 s)
    (hT : Sub 0x36000802c0 msk := by first | exact Sub.of_eq rfl | exact Sub.mono (by assumption) rfl) : Does msk s0 (actSemOpArrive s n w refs) := by
  delta actSemOpArrive
  repeat' first
    | with_reducible assumption
    | with_reducible apply does_startOr
    | with_reducible apply does_beginSemArrive
    | with_reducible apply Does.ifte
    | split
    | exact Sub.mono hT rfl
    | exact hT _ rfl
    | intro _

theorem does_execSemOpWait (n : Slot) (s : State) {s0 : State} {msk : Nat} (hk : Does msk s0 s)
    (hT : Sub 0x3e000002c0 msk := by first | exact Sub.of_eq rfl | exact Sub.mono (by assumption) rfl) : DoesOut msk s0 (execSemOpWait n s) := by
  delta execSemOpWait
  repeat' first
    | with_reducible assumption
    | with_reducible apply does_decodeCmd
    | with_reducible apply does_actSemOpWait
    | with_reducible apply DoesOut.next
    | with_reducible apply DoesOut.ifte
    | with_reducible apply Does.ifte
    | with_reducible apply Does.ifte_fst
    | with_reducible apply Does.ifte_snd
    | split
    | exact Sub.mono hT rfl
    | exact hT _ rfl
    | intro _

theorem does_execSemOpAdd (n : Slot) (s : State) {s0 : State} {msk : Nat} (hk : Does msk s0 s)
    (hT : Sub 0x1e000802c0 msk := by first | exact Sub.of_eq rfl | exact Sub.mono (by assumption) rfl) : DoesOut msk s0 (execSemOpAdd n s) := by
  delta execSemOpAdd
  repeat' first
    | with_reducible assumption
    | with_reducible apply does_decodeCmd
    | with_reducible apply does_actSemOpAdd
    | with_reducible apply DoesOut.next
    | with_reducible apply DoesOut.ifte
    | with_reducible apply Does.ifte
    | with_reducible apply Does.ifte_fst
    | with_reducible apply Does.ifte_snd
    | split
    | exact Sub.mono hT rfl
    | exact hT _ rfl
    | intro _

theorem does_execSemOpSub (n : Slot) (s : State) {s0 : State} {msk : Nat} (hk : Does msk s0 s)
    (hT : Sub 0x1e000802c0 msk := by first | exact Sub.of_eq rfl | exact Sub.mono (by assumption) rfl) : DoesOut msk s0 (execSemOpSub n s) := by
  delta execSemOpSub
  repeat' first
    | with_reducible assumption
    | with_reducible apply does_decodeCmd
    | with_reducible apply does_actSemOpSub
    | with_reducible apply DoesOut.next
    | with_reducible apply DoesOut.ifte
    | with_reducible apply Does.ifte
    | with_reducible apply Does.ifte_fst
    | with_reducible apply Does.ifte_snd
    | split
    | exact Sub.mono hT rfl
    | exact hT _ rfl
    | intro _

theorem does_execSemOpArrive (n : Slot) (s : State) {s0 : State} {msk : Nat} (hk : Does msk s0 s)
    (hT : Sub 0x3e000802c0 msk := by first | exact Sub.of_eq rfl | exact Sub.mono (by assumption) rfl) : DoesOut msk s0 (execSemOpArrive n s) := by
  delta execSemOpArrive
  repeat' first
    | with_reducible assumption
    | with_reducible apply does_decodeCmd
    | with_reducible apply does_actSemOpArrive
    | with_reducible apply DoesOut.next
    | with_reducible apply DoesOut.ifte
    | with_reducible apply Does.ifte
    | with_reducible apply Does.ifte_fst
    | with_reducible apply Does.ifte_snd
    | split
    | exact Sub.mono hT rfl
    | exact hT _ rfl
    | intro _

end Sys2Proof.Machine
end

