-- ==== Sys2Proof/Laws/Does/Steps.lean ====
section
/-!
SUPPORT. What every function of Machine/Steps.lean does: it keeps the queue and the invariant, and changes
no field of the state outside the set its lemma names.
-/
set_option linter.unreachableTactic false
set_option linter.unusedTactic false

namespace Sys2Proof.Machine

set_option Elab.async false

theorem does_updSeq (s : State) (e : Nat) (f : Seq → Seq) {s0 : State} {msk : Nat} (hk : Does msk s0 s)
    (hT : Sub 0x40000 msk := by first | exact Sub.of_eq rfl | exact Sub.mono (by assumption) rfl) : Does msk s0 (updSeq s e f) := by
  delta updSeq
  repeat' first
    | with_reducible assumption
    | with_reducible apply does_setEng
    | with_reducible apply Does.ifte
    | split
    | exact Sub.mono hT rfl
    | exact hT _ rfl
    | intro _

theorem does_firstPoll (s : State) (e : Nat) {s0 : State} {msk : Nat} (hk : Does msk s0 s)
    (hT : Sub 0x40000 msk := by first | exact Sub.of_eq rfl | exact Sub.mono (by assumption) rfl) : Does msk s0 (firstPoll s e) := by
  delta firstPoll
  repeat' first
    | with_reducible assumption
    | (extract_lets -underBinder +onlyGivenNames x; refine does_cut (msk := msk) (s0 := s0) (x := x) ?_ fun _ => ?_; rotate_left; clear_value x; revert x; intro _ _; rotate_left; subst x)
    | (extract_lets -underBinder +onlyGivenNames x; clear_value x; revert x; intro _)
    | with_reducible apply does_updSeq
    | with_reducible apply Does.ifte
    | split
    | exact Sub.mono hT rfl
    | exact hT _ rfl
    | intro _

theorem does_execStepStartPoint (e : Eng) (i : Fin 4096) (c : Nat) (s : State) {s0 : State} {msk : Nat} (hk : Does msk s0 s)
    (hT : Sub 0x40002 msk := by first | exact Sub.of_eq rfl | exact Sub.mono (by assumption) rfl) : DoesOut msk s0 (execStepStartPoint e i c s) := by
  delta execStepStartPoint
  repeat' first
    | with_reducible assumption
    | (extract_lets -underBinder +onlyGivenNames x; refine does_cut (msk := msk) (s0 := s0) (x := x) ?_ fun _ => ?_; rotate_left; clear_value x; revert x; intro _ _; rotate_left; subst x)
    | (extract_lets -underBinder +onlyGivenNames x; clear_value x; revert x; intro _)
    | with_reducible apply does_atAclk
    | with_reducible apply does_updSeq
    | with_reducible apply does_firstPoll
    | with_reducible apply DoesOut.next
    | with_reducible apply DoesOut.ifte
    | with_reducible apply Does.ifte
    | with_reducible apply Does.ifte_fst
    | with_reducible apply Does.ifte_snd
    | split
    | exact Sub.mono hT rfl
    | exact hT _ rfl
    | intro _

theorem does_execGuardPollReply (e : Eng) (c : Nat) (s : State) {s0 : State} {msk : Nat} (hk : Does msk s0 s)
    (hT : Sub 0x40042 msk := by first | exact Sub.of_eq rfl | exact Sub.mono (by assumption) rfl) : DoesOut msk s0 (execGuardPollReply e c s) := by
  delta execGuardPollReply
  repeat' first
    | with_reducible assumption
    | (extract_lets -underBinder +onlyGivenNames x; refine does_cut (msk := msk) (s0 := s0) (x := x) ?_ fun _ => ?_; rotate_left; clear_value x; revert x; intro _ _; rotate_left; subst x)
    | (extract_lets -underBinder +onlyGivenNames x; clear_value x; revert x; intro _)
    | with_reducible apply does_bump
    | with_reducible apply does_atAclk
    | with_reducible apply does_updSeq
    | with_reducible apply does_reply
    | with_reducible apply DoesOut.next
    | with_reducible apply DoesOut.ifte
    | with_reducible apply Does.ifte
    | with_reducible apply Does.ifte_fst
    | with_reducible apply Does.ifte_snd
    | split
    | exact Sub.mono hT rfl
    | exact hT _ rfl
    | intro _

theorem does_reseed (s : State) (e : Nat) (step : Nat) {s0 : State} {msk : Nat} (hk : Does msk s0 s)
    (hT : Sub 0x40000 msk := by first | exact Sub.of_eq rfl | exact Sub.mono (by assumption) rfl) : Does msk s0 (reseed s e step) := by
  delta reseed
  repeat' first
    | with_reducible assumption
    | (extract_lets -underBinder +onlyGivenNames x; refine does_cut (msk := msk) (s0 := s0) (x := x) ?_ fun _ => ?_; rotate_left; clear_value x; revert x; intro _ _; rotate_left; subst x)
    | (extract_lets -underBinder +onlyGivenNames x; clear_value x; revert x; intro _)
    | with_reducible apply does_setEng
    | with_reducible apply Does.ifte
    | split
    | exact Sub.mono hT rfl
    | exact hT _ rfl
    | intro _

theorem does_startStep (s : State) (e : Nat) {s0 : State} {msk : Nat} (hk : Does msk s0 s)
    (hT : Sub 0x40000 msk := by first | exact Sub.of_eq rfl | exact Sub.mono (by assumption) rfl) : Does msk s0 (startStep s e) := by
  delta startStep
  repeat' first
    | with_reducible assumption
    | (extract_lets -underBinder +onlyGivenNames x; refine does_cut (msk := msk) (s0 := s0) (x := x) ?_ fun _ => ?_; rotate_left; clear_value x; revert x; intro _ _; rotate_left; subst x)
    | (extract_lets -underBinder +onlyGivenNames x; clear_value x; revert x; intro _)
    | with_reducible apply does_setEng
    | with_reducible apply does_flcAcquire
    | with_reducible apply does_firstPoll
    | with_reducible apply does_reseed
    | with_reducible apply Does.ifte
    | split
    | exact Sub.mono hT rfl
    | exact hT _ rfl
    | intro _

theorem does_execStepStart (e : Eng) (c : Nat) (s : State) {s0 : State} {msk : Nat} (hk : Does msk s0 s)
    (hT : Sub 0x40002 msk := by first | exact Sub.of_eq rfl | exact Sub.mono (by assumption) rfl) : DoesOut msk s0 (execStepStart e c s) := by
  delta execStepStart
  repeat' first
    | with_reducible assumption
    | (extract_lets -underBinder +onlyGivenNames x; refine does_cut (msk := msk) (s0 := s0) (x := x) ?_ fun _ => ?_; rotate_left; clear_value x; revert x; intro _ _; rotate_left; subst x)
    | (extract_lets -underBinder +onlyGivenNames x; clear_value x; revert x; intro _)
    | with_reducible apply does_atAclk
    | with_reducible apply does_startStep
    | with_reducible apply DoesOut.next
    | with_reducible apply DoesOut.ifte
    | with_reducible apply Does.ifte
    | with_reducible apply Does.ifte_fst
    | with_reducible apply Does.ifte_snd
    | split
    | exact Sub.mono hT rfl
    | exact hT _ rfl
    | intro _

theorem does_execStepOverrun (e : Eng) (c : Nat) (s : State) {s0 : State} {msk : Nat} (hk : Does msk s0 s)
    (hT : Sub 0x40042 msk := by first | exact Sub.of_eq rfl | exact Sub.mono (by assumption) rfl) : DoesOut msk s0 (execStepOverrun e c s) := by
  delta execStepOverrun
  repeat' first
    | with_reducible assumption
    | (extract_lets -underBinder +onlyGivenNames x; refine does_cut (msk := msk) (s0 := s0) (x := x) ?_ fun _ => ?_; rotate_left; clear_value x; revert x; intro _ _; rotate_left; subst x)
    | (extract_lets -underBinder +onlyGivenNames x; clear_value x; revert x; intro _)
    | with_reducible apply does_bump
    | with_reducible apply does_atAclk
    | with_reducible apply does_updSeq
    | with_reducible apply DoesOut.next
    | with_reducible apply DoesOut.ifte
    | with_reducible apply Does.ifte
    | with_reducible apply Does.ifte_fst
    | with_reducible apply Does.ifte_snd
    | split
    | exact Sub.mono hT rfl
    | exact hT _ rfl
    | intro _

theorem does_seqRecords (s : State) (e : Nat) (f : Nat) (skipped : Nat) {s0 : State} {msk : Nat} (hk : Does msk s0 s)
    (hT : Sub 0x280 msk := by first | exact Sub.of_eq rfl | exact Sub.mono (by assumption) rfl) : Does msk s0 (seqRecords s e f skipped) := by
  delta seqRecords
  repeat' first
    | with_reducible assumption
    | (extract_lets -underBinder +onlyGivenNames x; refine does_cut (msk := msk) (s0 := s0) (x := x) ?_ fun _ => ?_; rotate_left; clear_value x; revert x; intro _ _; rotate_left; subst x)
    | (extract_lets -underBinder +onlyGivenNames x; clear_value x; revert x; intro _)
    | with_reducible apply does_appendAt
    | with_reducible apply does_append
    | with_reducible apply Does.ifte
    | split
    | exact Sub.mono hT rfl
    | exact hT _ rfl
    | intro _

theorem does_execStepFrameBoundary (e : Eng) (s : State) {s0 : State} {msk : Nat} (hk : Does msk s0 s)
    (hT : Sub 0x402c0 msk := by first | exact Sub.of_eq rfl | exact Sub.mono (by assumption) rfl) : DoesOut msk s0 (execStepFrameBoundary e s) := by
  delta execStepFrameBoundary
  repeat' first
    | with_reducible assumption
    | (extract_lets -underBinder +onlyGivenNames x; refine does_cut (msk := msk) (s0 := s0) (x := x) ?_ fun _ => ?_; rotate_left; clear_value x; revert x; intro _ _; rotate_left; subst x)
    | (extract_lets -underBinder +onlyGivenNames x; refine does_cut (msk := msk) (s0 := s0) (x := x.1) ?_ fun _ => ?_; rotate_left; clear_value x; revert x; intro _ _; rotate_left; subst x)
    | (extract_lets -underBinder +onlyGivenNames x; clear_value x; revert x; intro _)
    | with_reducible apply does_wr
    | with_reducible apply does_bump
    | with_reducible apply does_updSeq
    | with_reducible apply does_seqRecords
    | with_reducible apply DoesOut.next
    | with_reducible apply DoesOut.ifte
    | with_reducible apply Does.ifte
    | with_reducible apply Does.ifte_fst
    | with_reducible apply Does.ifte_snd
    | split
    | exact Sub.mono hT rfl
    | exact hT _ rfl
    | intro _

theorem does_sendStops (s : State) (sw : Bool) (a : List Nat) {s0 : State} {msk : Nat} (hk : Does msk s0 s)
    (hT : Sub 0x40000 msk := by first | exact Sub.of_eq rfl | exact Sub.mono (by assumption) rfl) : Does msk s0 (sendStops s sw a) := by
  induction a generalizing s sw with
  | nil => unfold sendStops; with_reducible assumption
  | cons x r ih =>
    unfold sendStops
    repeat' first
    | with_reducible apply ih
    | with_reducible assumption
    | with_reducible apply does_updSeq
    | with_reducible apply Does.ifte
    | split
    | exact Sub.mono hT rfl
    | exact hT _ rfl
    | intro _

end Sys2Proof.Machine
end

