-- ==== Sys2Proof/Laws/Does/Monitor.lean ====
section
/-!
SUPPORT. What every function of Machine/Monitor.lean does: it keeps the queue and the invariant, and changes
no field of the state outside the set its lemma names.
-/
set_option linter.unreachableTactic false
set_option linter.unusedTactic false

namespace Sys2Proof.Machine

set_option Elab.async false

theorem does_updModel (s : State) (f : Model → Model) {s0 : State} {msk : Nat} (hk : Does msk s0 s)
    (hT : Sub 0x2000000000000 msk := by first | exact Sub.of_eq rfl | exact Sub.mono (by assumption) rfl) : Does msk s0 (updModel s f) := by
  delta updModel
  repeat' first
    | with_reducible assumption
    | with_reducible apply Does.ifte
    | split
    | with_reducible apply Does.updModel
    | exact Sub.mono hT rfl
    | exact hT _ rfl
    | intro _

theorem does_updRun (s : State) (f : Run → Run) {s0 : State} {msk : Nat} (hk : Does msk s0 s)
    (hT : Sub 0x2000000000000 msk := by first | exact Sub.of_eq rfl | exact Sub.mono (by assumption) rfl) : Does msk s0 (updRun s f) := by
  delta updRun
  repeat' first
    | with_reducible assumption
    | with_reducible apply does_updModel
    | with_reducible apply Does.ifte
    | split
    | exact Sub.mono hT rfl
    | exact hT _ rfl
    | intro _

theorem does_updFrame (s : State) (f : RunFrame → RunFrame) {s0 : State} {msk : Nat} (hk : Does msk s0 s)
    (hT : Sub 0x2000000000000 msk := by first | exact Sub.of_eq rfl | exact Sub.mono (by assumption) rfl) : Does msk s0 (updFrame s f) := by
  delta updFrame
  repeat' first
    | with_reducible assumption
    | with_reducible apply does_updRun
    | with_reducible apply Does.ifte
    | split
    | exact Sub.mono hT rfl
    | exact hT _ rfl
    | intro _

theorem does_rebindQuad (s : State) (q : Nat) {s0 : State} {msk : Nat} (hk : Does msk s0 s)
    (hT : Sub 0x40 msk := by first | exact Sub.of_eq rfl | exact Sub.mono (by assumption) rfl) : Does msk s0 (rebindQuad s q) := by
  delta rebindQuad
  repeat' first
    | with_reducible assumption
    | (extract_lets -underBinder +onlyGivenNames x; refine does_cut (msk := msk) (s0 := s0) (x := x) ?_ fun _ => ?_; rotate_left; clear_value x; revert x; intro _ _; rotate_left; subst x)
    | (extract_lets -underBinder +onlyGivenNames x; clear_value x; revert x; intro _)
    | with_reducible apply does_wr
    | with_reducible apply does_setFld
    | with_reducible apply Does.ifte
    | split
    | exact Sub.mono hT rfl
    | exact hT _ rfl
    | intro _

theorem does_rebindQuads (s : State) (a : List Nat) {s0 : State} {msk : Nat} (hk : Does msk s0 s)
    (hT : Sub 0x40 msk := by first | exact Sub.of_eq rfl | exact Sub.mono (by assumption) rfl) : Does msk s0 (rebindQuads s a) := by
  induction a generalizing s with
  | nil => unfold rebindQuads; with_reducible assumption
  | cons x r ih =>
    unfold rebindQuads
    repeat' first
    | with_reducible apply ih
    | with_reducible assumption
    | with_reducible apply does_rebindQuad
    | with_reducible apply Does.ifte
    | split
    | exact Sub.mono hT rfl
    | exact hT _ rfl
    | intro _

theorem does_seedVariant (s : State) (a : List (DirEnt × Nat)) {s0 : State} {msk : Nat} (hk : Does msk s0 s)
    (hT : Sub 0x40 msk := by first | exact Sub.of_eq rfl | exact Sub.mono (by assumption) rfl) : Does msk s0 (seedVariant s a) := by
  induction a generalizing s with
  | nil => unfold seedVariant; with_reducible assumption
  | cons x r ih =>
    unfold seedVariant
    repeat' first
    | with_reducible apply ih
    | with_reducible assumption
    | with_reducible apply does_wr
    | with_reducible apply Does.ifte
    | split
    | exact Sub.mono hT rfl
    | exact hT _ rfl
    | intro _

theorem does_resetSems (s : State) (part : Nat) (kinds : List Nat) (a : List SemEnt) {s0 : State} {msk : Nat} (hk : Does msk s0 s)
    (hT : Sub 0x802c0 msk := by first | exact Sub.of_eq rfl | exact Sub.mono (by assumption) rfl) : Does msk s0 (resetSems s part kinds a) := by
  induction a generalizing s part kinds with
  | nil => unfold resetSems; with_reducible assumption
  | cons x r ih =>
    unfold resetSems
    repeat' first
    | with_reducible apply ih
    | with_reducible assumption
    | (extract_lets -underBinder +onlyGivenNames x; refine does_cut (msk := msk) (s0 := s0) (x := x) ?_ fun _ => ?_; rotate_left; clear_value x; revert x; intro _ _; rotate_left; subst x)
    | (extract_lets -underBinder +onlyGivenNames x; clear_value x; revert x; intro _)
    | with_reducible apply does_semSet
    | with_reducible apply Does.ifte
    | split
    | exact Sub.mono hT rfl
    | exact hT _ rfl
    | intro _

theorem does_setVariant (s : State) (v : Nat) {s0 : State} {msk : Nat} (hk : Does msk s0 s)
    (hT : Sub 0x2000000000000 msk := by first | exact Sub.of_eq rfl | exact Sub.mono (by assumption) rfl) : Does msk s0 (setVariant s v) := by
  delta setVariant
  repeat' first
    | with_reducible assumption
    | with_reducible apply does_updModel
    | with_reducible apply Does.ifte
    | split
    | exact Sub.mono hT rfl
    | exact hT _ rfl
    | intro _

theorem does_seedActive (s : State) {s0 : State} {msk : Nat} (hk : Does msk s0 s)
    (hT : Sub 0x2000000000040 msk := by first | exact Sub.of_eq rfl | exact Sub.mono (by assumption) rfl) : Does msk s0 (seedActive s) := by
  delta seedActive
  repeat' first
    | with_reducible assumption
    | with_reducible apply does_updModel
    | with_reducible apply does_seedVariant
    | with_reducible apply Does.ifte
    | split
    | exact Sub.mono hT rfl
    | exact hT _ rfl
    | intro _

theorem does_endJobs (s : State) (a : List Nat) {s0 : State} {msk : Nat} (hk : Does msk s0 s)
    (hT : Sub 0x1200000000 msk := by first | exact Sub.of_eq rfl | exact Sub.mono (by assumption) rfl) : Does msk s0 (endJobs s a) := by
  induction a generalizing s with
  | nil => unfold endJobs; with_reducible assumption
  | cons x r ih =>
    unfold endJobs
    repeat' first
    | with_reducible apply ih
    | with_reducible assumption
    | with_reducible apply does_endJob
    | with_reducible apply Does.ifte
    | split
    | exact Sub.mono hT rfl
    | exact hT _ rfl
    | intro _

theorem does_planNone (s : State) (a : List Nat) {s0 : State} {msk : Nat} (hk : Does msk s0 s)
    (hT : Sub 0x40000 msk := by first | exact Sub.of_eq rfl | exact Sub.mono (by assumption) rfl) : Does msk s0 (planNone s a) := by
  induction a generalizing s with
  | nil => unfold planNone; with_reducible assumption
  | cons x r ih =>
    unfold planNone
    repeat' first
    | with_reducible apply ih
    | with_reducible assumption
    | with_reducible apply does_updSeq
    | with_reducible apply Does.ifte
    | split
    | exact Sub.mono hT rfl
    | exact hT _ rfl
    | intro _

theorem does_endRun (s : State) (code : Nat) {s0 : State} {msk : Nat} (hk : Does msk s0 s)
    (hT : Sub 0x2001200040000 msk := by first | exact Sub.of_eq rfl | exact Sub.mono (by assumption) rfl) : Does msk s0 (endRun s code) := by
  delta endRun
  repeat' first
    | with_reducible assumption
    | (extract_lets -underBinder +onlyGivenNames x; refine does_cut (msk := msk) (s0 := s0) (x := x) ?_ fun _ => ?_; rotate_left; clear_value x; revert x; intro _ _; rotate_left; subst x)
    | (extract_lets -underBinder +onlyGivenNames x; clear_value x; revert x; intro _)
    | with_reducible apply does_endJob
    | with_reducible apply does_updModel
    | with_reducible apply does_endJobs
    | with_reducible apply does_planNone
    | with_reducible apply Does.ifte
    | split
    | exact Sub.mono hT rfl
    | exact hT _ rfl
    | intro _

theorem does_settleRun (s : State) {s0 : State} {msk : Nat} (hk : Does msk s0 s)
    (hT : Sub 0x2001200040280 msk := by first | exact Sub.of_eq rfl | exact Sub.mono (by assumption) rfl) : Does msk s0 (settleRun s) := by
  delta settleRun
  repeat' first
    | with_reducible assumption
    | with_reducible apply does_jobRecord
    | with_reducible apply does_endRun
    | with_reducible apply Does.ifte
    | split
    | exact Sub.mono hT rfl
    | exact hT _ rfl
    | intro _

theorem does_execEngineStopRequest (e : Eng) (s : State) {s0 : State} {msk : Nat} (hk : Does msk s0 s)
    (hT : Sub 0x2001200040280 msk := by first | exact Sub.of_eq rfl | exact Sub.mono (by assumption) rfl) : DoesOut msk s0 (execEngineStopRequest e s) := by
  delta execEngineStopRequest
  repeat' first
    | with_reducible assumption
    | (extract_lets -underBinder +onlyGivenNames x; refine does_cut (msk := msk) (s0 := s0) (x := x) ?_ fun _ => ?_; rotate_left; clear_value x; revert x; intro _ _; rotate_left; subst x)
    | (extract_lets -underBinder +onlyGivenNames x; clear_value x; revert x; intro _)
    | with_reducible apply does_updSeq
    | with_reducible apply does_settleRun
    | with_reducible apply DoesOut.next
    | with_reducible apply DoesOut.ifte
    | with_reducible apply Does.ifte
    | with_reducible apply Does.ifte_fst
    | with_reducible apply Does.ifte_snd
    | split
    | exact Sub.mono hT rfl
    | exact hT _ rfl
    | intro _

theorem does_beginRun (counted : Bool) (s : State) (n : Nat) (w : List Nat) (refs : List Ref) {s0 : State} {msk : Nat} (hk : Does msk s0 s)
    (hT : Sub 0x2003200000280 msk := by first | exact Sub.of_eq rfl | exact Sub.mono (by assumption) rfl) : Does msk s0 (beginRun counted s n w refs) := by
  delta beginRun
  repeat' first
    | with_reducible assumption
    | (extract_lets -underBinder +onlyGivenNames x; refine does_cut (msk := msk) (s0 := s0) (x := x) ?_ fun _ => ?_; rotate_left; clear_value x; revert x; intro _ _; rotate_left; subst x)
    | (extract_lets -underBinder +onlyGivenNames x; clear_value x; revert x; intro _)
    | with_reducible apply does_instantJob
    | with_reducible apply does_startJob
    | with_reducible apply does_jobRecord
    | with_reducible apply does_updModel
    | with_reducible apply Does.ifte
    | split
    | exact Sub.mono hT rfl
    | exact hT _ rfl
    | intro _

theorem does_beginRunStop (s : State) (n : Nat) (_w : List Nat) (_refs : List Ref) {s0 : State} {msk : Nat} (hk : Does msk s0 s)
    (hT : Sub 0x2003200000000 msk := by first | exact Sub.of_eq rfl | exact Sub.mono (by assumption) rfl) : Does msk s0 (beginRunStop s n _w _refs) := by
  delta beginRunStop
  repeat' first
    | with_reducible assumption
    | (extract_lets -underBinder +onlyGivenNames x; refine does_cut (msk := msk) (s0 := s0) (x := x) ?_ fun _ => ?_; rotate_left; clear_value x; revert x; intro _ _; rotate_left; subst x)
    | (extract_lets -underBinder +onlyGivenNames x; clear_value x; revert x; intro _)
    | with_reducible apply does_instantJob
    | with_reducible apply does_startJob
    | with_reducible apply does_updRun
    | with_reducible apply Does.ifte
    | split
    | exact Sub.mono hT rfl
    | exact hT _ rfl
    | intro _

theorem does_actRunCounted (s : State) (n : Nat) (w : List Nat) (refs : List Ref) {s0 : State} {msk : Nat} (hk : Does msk s0 s)
    (hT : Sub 0x2003600000280 msk := by first | exact Sub.of_eq rfl | exact Sub.mono (by assumption) rfl) : Does msk s0 (actRunCounted s n w refs) := by
  delta actRunCounted
  repeat' first
    | with_reducible assumption
    | with_reducible apply does_startOr
    | with_reducible apply does_beginRun
    | with_reducible apply Does.ifte
    | split
    | exact Sub.mono hT rfl
    | exact hT _ rfl
    | intro _

theorem does_actRunContinuous (s : State) (n : Nat) (w : List Nat) (refs : List Ref) {s0 : State} {msk : Nat} (hk : Does msk s0 s)
    (hT : Sub 0x2003600000280 msk := by first | exact Sub.of_eq rfl | exact Sub.mono (by assumption) rfl) : Does msk s0 (actRunContinuous s n w refs) := by
  delta actRunContinuous
  repeat' first
    | with_reducible assumption
    | with_reducible apply does_startOr
    | with_reducible apply does_beginRun
    | with_reducible apply Does.ifte
    | split
    | exact Sub.mono hT rfl
    | exact hT _ rfl
    | intro _

theorem does_actRunStop (s : State) (n : Nat) (w : List Nat) (refs : List Ref) {s0 : State} {msk : Nat} (hk : Does msk s0 s)
    (hT : Sub 0x2003600000000 msk := by first | exact Sub.of_eq rfl | exact Sub.mono (by assumption) rfl) : Does msk s0 (actRunStop s n w refs) := by
  delta actRunStop
  repeat' first
    | with_reducible assumption
    | with_reducible apply does_startOr
    | with_reducible apply does_beginRunStop
    | with_reducible apply Does.ifte
    | split
    | exact Sub.mono hT rfl
    | exact hT _ rfl
    | intro _

theorem does_execRunModelCounted (n : Slot) (s : State) {s0 : State} {msk : Nat} (hk : Does msk s0 s)
    (hT : Sub 0x2003e000002c0 msk := by first | exact Sub.of_eq rfl | exact Sub.mono (by assumption) rfl) : DoesOut msk s0 (execRunModelCounted n s) := by
  delta execRunModelCounted
  repeat' first
    | with_reducible assumption
    | with_reducible apply does_decodeCmd
    | with_reducible apply does_actRunCounted
    | with_reducible apply DoesOut.next
    | with_reducible apply DoesOut.ifte
    | with_reducible apply Does.ifte
    | with_reducible apply Does.ifte_fst
    | with_reducible apply Does.ifte_snd
    | split
    | exact Sub.mono hT rfl
    | exact hT _ rfl
    | intro _

theorem does_execRunModelContinuous (n : Slot) (s : State) {s0 : State} {msk : Nat} (hk : Does msk s0 s)
    (hT : Sub 0x2003e000002c0 msk := by first | exact Sub.of_eq rfl | exact Sub.mono (by assumption) rfl) : DoesOut msk s0 (execRunModelContinuous n s) := by
  delta execRunModelContinuous
  repeat' first
    | with_reducible assumption
    | with_reducible apply does_decodeCmd
    | with_reducible apply does_actRunContinuous
    | with_reducible apply DoesOut.next
    | with_reducible apply DoesOut.ifte
    | with_reducible apply Does.ifte
    | with_reducible apply Does.ifte_fst
    | with_reducible apply Does.ifte_snd
    | split
    | exact Sub.mono hT rfl
    | exact hT _ rfl
    | intro _

theorem does_execRunModelStop (n : Slot) (s : State) {s0 : State} {msk : Nat} (hk : Does msk s0 s)
    (hT : Sub 0x2003e000002c0 msk := by first | exact Sub.of_eq rfl | exact Sub.mono (by assumption) rfl) : DoesOut msk s0 (execRunModelStop n s) := by
  delta execRunModelStop
  repeat' first
    | with_reducible assumption
    | with_reducible apply does_decodeCmd
    | with_reducible apply does_actRunStop
    | with_reducible apply DoesOut.next
    | with_reducible apply DoesOut.ifte
    | with_reducible apply Does.ifte
    | with_reducible apply Does.ifte_fst
    | with_reducible apply Does.ifte_snd
    | split
    | exact Sub.mono hT rfl
    | exact hT _ rfl
    | intro _

theorem does_execRunArm (s : State) {s0 : State} {msk : Nat} (hk : Does msk s0 s)
    (hT : Sub 0x2000000000000 msk := by first | exact Sub.of_eq rfl | exact Sub.mono (by assumption) rfl) : DoesOut msk s0 (execRunArm s) := by
  delta execRunArm
  repeat' first
    | with_reducible assumption
    | with_reducible apply does_updRun
    | with_reducible apply does_setVariant
    | with_reducible apply DoesOut.next
    | with_reducible apply DoesOut.ifte
    | with_reducible apply Does.ifte
    | with_reducible apply Does.ifte_fst
    | with_reducible apply Does.ifte_snd
    | split
    | exact Sub.mono hT rfl
    | exact hT _ rfl
    | intro _

theorem does_ckptSlack (s : State) (c : Ckpt) (t : Nat) {s0 : State} {msk : Nat} (hk : Does msk s0 s)
    (hT : Sub 0x20 msk := by first | exact Sub.of_eq rfl | exact Sub.mono (by assumption) rfl) : Does msk s0 (ckptSlack s c t).2 := by
  delta ckptSlack
  repeat' first
    | with_reducible assumption
    | (extract_lets -underBinder +onlyGivenNames x; refine does_cut (msk := msk) (s0 := s0) (x := x) ?_ fun _ => ?_; rotate_left; clear_value x; revert x; intro _ _; rotate_left; subst x)
    | (extract_lets -underBinder +onlyGivenNames x; refine does_cut (msk := msk) (s0 := s0) (x := x.1) ?_ fun _ => ?_; rotate_left; clear_value x; revert x; intro _ _; rotate_left; subst x)
    | (extract_lets -underBinder +onlyGivenNames x; refine does_cut (msk := msk) (s0 := s0) (x := x.2) ?_ fun _ => ?_; rotate_left; clear_value x; revert x; intro _ _; rotate_left; subst x)
    | (extract_lets -underBinder +onlyGivenNames x; clear_value x; revert x; intro _)
    | with_reducible apply does_free
    | with_reducible apply Does.ifte
    | with_reducible apply Does.ifte_fst
    | with_reducible apply Does.ifte_snd
    | split
    | exact Sub.mono hT rfl
    | exact hT _ rfl
    | intro _

theorem does_logMissed (s : State) {s0 : State} {msk : Nat} (hk : Does msk s0 s)
    (hT : Sub 0x2000000000280 msk := by first | exact Sub.of_eq rfl | exact Sub.mono (by assumption) rfl) : Does msk s0 (logMissed s) := by
  delta logMissed
  repeat' first
    | with_reducible assumption
    | (extract_lets -underBinder +onlyGivenNames x; refine does_cut (msk := msk) (s0 := s0) (x := x) ?_ fun _ => ?_; rotate_left; clear_value x; revert x; intro _ _; rotate_left; subst x)
    | (extract_lets -underBinder +onlyGivenNames x; clear_value x; revert x; intro _)
    | with_reducible apply does_append
    | with_reducible apply does_updFrame
    | with_reducible apply Does.ifte
    | split
    | exact Sub.mono hT rfl
    | exact hT _ rfl
    | intro _

theorem does_logFullMissed (s : State) {s0 : State} {msk : Nat} (hk : Does msk s0 s)
    (hT : Sub 0x2000000000280 msk := by first | exact Sub.of_eq rfl | exact Sub.mono (by assumption) rfl) : Does msk s0 (logFullMissed s) := by
  delta logFullMissed
  repeat' first
    | with_reducible assumption
    | (extract_lets -underBinder +onlyGivenNames x; refine does_cut (msk := msk) (s0 := s0) (x := x) ?_ fun _ => ?_; rotate_left; clear_value x; revert x; intro _ _; rotate_left; subst x)
    | (extract_lets -underBinder +onlyGivenNames x; clear_value x; revert x; intro _)
    | with_reducible apply does_append
    | with_reducible apply does_updFrame
    | with_reducible apply Does.ifte
    | split
    | exact Sub.mono hT rfl
    | exact hT _ rfl
    | intro _

theorem does_missFull (s : State) (m : Model) (id : Nat) {s0 : State} {msk : Nat} (hk : Does msk s0 s)
    (hT : Sub 0x2000000040280 msk := by first | exact Sub.of_eq rfl | exact Sub.mono (by assumption) rfl) : Does msk s0 (missFull s m id) := by
  delta missFull
  repeat' first
    | with_reducible assumption
    | (extract_lets -underBinder +onlyGivenNames x; refine does_cut (msk := msk) (s0 := s0) (x := x) ?_ fun _ => ?_; rotate_left; clear_value x; revert x; intro _ _; rotate_left; subst x)
    | (extract_lets -underBinder +onlyGivenNames x; clear_value x; revert x; intro _)
    | with_reducible apply does_sendStops
    | with_reducible apply does_updFrame
    | with_reducible apply does_setVariant
    | with_reducible apply does_logMissed
    | with_reducible apply does_logFullMissed
    | with_reducible apply Does.ifte
    | split
    | exact Sub.mono hT rfl
    | exact hT _ rfl
    | intro _

theorem does_judgeOne (s : State) (m : Model) (c : Ckpt) {s0 : State} {msk : Nat} (hk : Does msk s0 s)
    (hT : Sub 0x20000000402a0 msk := by first | exact Sub.of_eq rfl | exact Sub.mono (by assumption) rfl) : Does msk s0 (judgeOne s m c) := by
  delta judgeOne
  repeat' first
    | with_reducible assumption
    | (extract_lets -underBinder +onlyGivenNames x; refine does_cut (msk := msk) (s0 := s0) (x := x) ?_ fun _ => ?_; rotate_left; clear_value x; revert x; intro _ _; rotate_left; subst x)
    | (extract_lets -underBinder +onlyGivenNames x; refine does_cut (msk := msk) (s0 := s0) (x := x.1) ?_ fun _ => ?_; rotate_left; clear_value x; revert x; intro _ _; rotate_left; subst x)
    | (extract_lets -underBinder +onlyGivenNames x; refine does_cut (msk := msk) (s0 := s0) (x := x.2) ?_ fun _ => ?_; rotate_left; clear_value x; revert x; intro _ _; rotate_left; subst x)
    | (extract_lets -underBinder +onlyGivenNames x; clear_value x; revert x; intro _)
    | with_reducible apply does_updFrame
    | with_reducible apply does_ckptSlack
    | with_reducible apply does_logMissed
    | with_reducible apply does_missFull
    | with_reducible apply Does.ifte
    | with_reducible apply Does.ifte_fst
    | with_reducible apply Does.ifte_snd
    | split
    | exact Sub.mono hT rfl
    | exact hT _ rfl
    | intro _

theorem does_judgeAll (s : State) (m : Model) (a : List Ckpt) {s0 : State} {msk : Nat} (hk : Does msk s0 s)
    (hT : Sub 0x20000000402a0 msk := by first | exact Sub.of_eq rfl | exact Sub.mono (by assumption) rfl) : Does msk s0 (judgeAll s m a) := by
  induction a generalizing s m with
  | nil => unfold judgeAll; with_reducible assumption
  | cons x r ih =>
    unfold judgeAll
    repeat' first
    | with_reducible apply ih
    | with_reducible assumption
    | with_reducible apply does_judgeOne
    | with_reducible apply Does.ifte
    | split
    | exact Sub.mono hT rfl
    | exact hT _ rfl
    | intro _

theorem does_recordIfJudged (s : State) {s0 : State} {msk : Nat} (hk : Does msk s0 s)
    (hT : Sub 0x2000000000000 msk := by first | exact Sub.of_eq rfl | exact Sub.mono (by assumption) rfl) : Does msk s0 (recordIfJudged s) := by
  delta recordIfJudged
  repeat' first
    | with_reducible assumption
    | (extract_lets -underBinder +onlyGivenNames x; refine does_cut (msk := msk) (s0 := s0) (x := x) ?_ fun _ => ?_; rotate_left; clear_value x; revert x; intro _ _; rotate_left; subst x)
    | (extract_lets -underBinder +onlyGivenNames x; refine does_cut (msk := msk) (s0 := s0) (x := x.1) ?_ fun _ => ?_; rotate_left; clear_value x; revert x; intro _ _; rotate_left; subst x)
    | (extract_lets -underBinder +onlyGivenNames x; clear_value x; revert x; intro _)
    | with_reducible apply does_updRun
    | with_reducible apply Does.ifte
    | with_reducible apply Does.ifte_fst
    | with_reducible apply Does.ifte_snd
    | split
    | exact Sub.mono hT rfl
    | exact hT _ rfl
    | intro _

theorem does_judgeNow (s : State) {s0 : State} {msk : Nat} (hk : Does msk s0 s)
    (hT : Sub 0x20000000402a0 msk := by first | exact Sub.of_eq rfl | exact Sub.mono (by assumption) rfl) : Does msk s0 (judgeNow s) := by
  delta judgeNow
  repeat' first
    | with_reducible assumption
    | with_reducible apply does_judgeAll
    | with_reducible apply does_recordIfJudged
    | with_reducible apply Does.ifte
    | split
    | exact Sub.mono hT rfl
    | exact hT _ rfl
    | intro _

theorem does_execStepEnd (e : Eng) (c : Nat) (s : State) {s0 : State} {msk : Nat} (hk : Does msk s0 s)
    (hT : Sub 0x20012000402a2 msk := by first | exact Sub.of_eq rfl | exact Sub.mono (by assumption) rfl) : DoesOut msk s0 (execStepEnd e c s) := by
  delta execStepEnd
  repeat' first
    | with_reducible assumption
    | (extract_lets -underBinder +onlyGivenNames x; refine does_cut (msk := msk) (s0 := s0) (x := x) ?_ fun _ => ?_; rotate_left; clear_value x; revert x; intro _ _; rotate_left; subst x)
    | (extract_lets -underBinder +onlyGivenNames x; clear_value x; revert x; intro _)
    | with_reducible apply does_atAclk
    | with_reducible apply does_seqEnd
    | with_reducible apply does_settleRun
    | with_reducible apply does_judgeNow
    | with_reducible apply DoesOut.next
    | with_reducible apply DoesOut.ifte
    | with_reducible apply Does.ifte
    | with_reducible apply Does.ifte_fst
    | with_reducible apply Does.ifte_snd
    | split
    | exact Sub.mono hT rfl
    | exact hT _ rfl
    | intro _

theorem does_execCheckpointDeadline (c : Nat) (s : State) {s0 : State} {msk : Nat} (hk : Does msk s0 s)
    (hT : Sub 0x20000000402a2 msk := by first | exact Sub.of_eq rfl | exact Sub.mono (by assumption) rfl) : DoesOut msk s0 (execCheckpointDeadline c s) := by
  delta execCheckpointDeadline
  repeat' first
    | with_reducible assumption
    | with_reducible apply does_atAclk
    | with_reducible apply does_judgeNow
    | with_reducible apply DoesOut.next
    | with_reducible apply DoesOut.ifte
    | with_reducible apply Does.ifte
    | with_reducible apply Does.ifte_fst
    | with_reducible apply Does.ifte_snd
    | split
    | exact Sub.mono hT rfl
    | exact hT _ rfl
    | intro _

theorem does_writeRecord (s : State) (m : Model) (r : Run) (w : List Nat) {s0 : State} {msk : Nat} (hk : Does msk s0 s)
    (hT : Sub 0x2001203068ac0 msk := by first | exact Sub.of_eq rfl | exact Sub.mono (by assumption) rfl) : Does msk s0 (writeRecord s m r w) := by
  delta writeRecord
  repeat' first
    | with_reducible assumption
    | (extract_lets -underBinder +onlyGivenNames x; refine does_cut (msk := msk) (s0 := s0) (x := x) ?_ fun _ => ?_; rotate_left; clear_value x; revert x; intro _ _; rotate_left; subst x)
    | (extract_lets -underBinder +onlyGivenNames x; clear_value x; revert x; intro _)
    | with_reducible apply does_violation
    | with_reducible apply does_refWrite
    | with_reducible apply does_sendSignal
    | with_reducible apply does_updRun
    | with_reducible apply does_endRun
    | with_reducible apply Does.ifte
    | split
    | exact Sub.mono hT rfl
    | exact hT _ rfl
    | intro _

theorem does_execOutputRecordWrite (s : State) {s0 : State} {msk : Nat} (hk : Does msk s0 s)
    (hT : Sub 0x2001203068ac0 msk := by first | exact Sub.of_eq rfl | exact Sub.mono (by assumption) rfl) : DoesOut msk s0 (execOutputRecordWrite s) := by
  delta execOutputRecordWrite
  repeat' first
    | with_reducible assumption
    | with_reducible apply does_writeRecord
    | with_reducible apply DoesOut.next
    | with_reducible apply DoesOut.ifte
    | with_reducible apply Does.ifte
    | with_reducible apply Does.ifte_fst
    | with_reducible apply Does.ifte_snd
    | split
    | exact Sub.mono hT rfl
    | exact hT _ rfl
    | intro _

theorem does_rerunSeqs (s : State) (m : Model) (q : Nat) (a : List (DirEnt × Nat)) {s0 : State} {msk : Nat} (hk : Does msk s0 s)
    (hT : Sub 0x40000 msk := by first | exact Sub.of_eq rfl | exact Sub.mono (by assumption) rfl) : Does msk s0 (rerunSeqs s m q a) := by
  induction a generalizing s m q with
  | nil => unfold rerunSeqs; with_reducible assumption
  | cons x r ih =>
    unfold rerunSeqs
    repeat' first
    | with_reducible apply ih
    | with_reducible assumption
    | with_reducible apply does_updSeq
    | with_reducible apply Does.ifte
    | split
    | exact Sub.mono hT rfl
    | exact hT _ rfl
    | intro _

theorem does_execRerunStart (s : State) {s0 : State} {msk : Nat} (hk : Does msk s0 s)
    (hT : Sub 0x20000000c02c0 msk := by first | exact Sub.of_eq rfl | exact Sub.mono (by assumption) rfl) : DoesOut msk s0 (execRerunStart s) := by
  delta execRerunStart
  repeat' first
    | with_reducible assumption
    | (extract_lets -underBinder +onlyGivenNames x; refine does_cut (msk := msk) (s0 := s0) (x := x) ?_ fun _ => ?_; rotate_left; clear_value x; revert x; intro _ _; rotate_left; subst x)
    | (extract_lets -underBinder +onlyGivenNames x; clear_value x; revert x; intro _)
    | with_reducible apply does_updFrame
    | with_reducible apply does_resetSems
    | with_reducible apply does_seedActive
    | with_reducible apply does_rerunSeqs
    | with_reducible apply DoesOut.next
    | with_reducible apply DoesOut.ifte
    | with_reducible apply Does.ifte
    | with_reducible apply Does.ifte_fst
    | with_reducible apply Does.ifte_snd
    | split
    | exact Sub.mono hT rfl
    | exact hT _ rfl
    | intro _

theorem does_writeStatus (s : State) (j : JoinReq) (code : Nat) (frame : Nat) {s0 : State} {msk : Nat} (hk : Does msk s0 s)
    (hT : Sub 0x28ac0 msk := by first | exact Sub.of_eq rfl | exact Sub.mono (by assumption) rfl) : Does msk s0 (writeStatus s j code frame) := by
  delta writeStatus
  repeat' first
    | with_reducible assumption
    | with_reducible apply does_violation
    | with_reducible apply does_refWrite
    | with_reducible apply Does.ifte
    | split
    | exact Sub.mono hT rfl
    | exact hT _ rfl
    | intro _

theorem does_beginJoin (s : State) (n : Nat) (w : List Nat) (refs : List Ref) {s0 : State} {msk : Nat} (hk : Does msk s0 s)
    (hT : Sub 0x2000200028ac0 msk := by first | exact Sub.of_eq rfl | exact Sub.mono (by assumption) rfl) : Does msk s0 (beginJoin s n w refs) := by
  delta beginJoin
  repeat' first
    | with_reducible assumption
    | (extract_lets -underBinder +onlyGivenNames x; refine does_cut (msk := msk) (s0 := s0) (x := x) ?_ fun _ => ?_; rotate_left; clear_value x; revert x; intro _ _; rotate_left; subst x)
    | (extract_lets -underBinder +onlyGivenNames x; clear_value x; revert x; intro _)
    | with_reducible apply does_instantJob
    | with_reducible apply does_updModel
    | with_reducible apply does_writeStatus
    | with_reducible apply Does.ifte
    | split
    | exact Sub.mono hT rfl
    | exact hT _ rfl
    | intro _

theorem does_beginLeave (s : State) (n : Nat) (w : List Nat) (refs : List Ref) {s0 : State} {msk : Nat} (hk : Does msk s0 s)
    (hT : Sub 0x2000200028ac0 msk := by first | exact Sub.of_eq rfl | exact Sub.mono (by assumption) rfl) : Does msk s0 (beginLeave s n w refs) := by
  delta beginLeave
  repeat' first
    | with_reducible assumption
    | (extract_lets -underBinder +onlyGivenNames x; refine does_cut (msk := msk) (s0 := s0) (x := x) ?_ fun _ => ?_; rotate_left; clear_value x; revert x; intro _ _; rotate_left; subst x)
    | (extract_lets -underBinder +onlyGivenNames x; clear_value x; revert x; intro _)
    | with_reducible apply does_instantJob
    | with_reducible apply does_updModel
    | with_reducible apply does_writeStatus
    | with_reducible apply Does.ifte
    | split
    | exact Sub.mono hT rfl
    | exact hT _ rfl
    | intro _

theorem does_actStreamJoin (s : State) (n : Nat) (w : List Nat) (refs : List Ref) {s0 : State} {msk : Nat} (hk : Does msk s0 s)
    (hT : Sub 0x2000600028ac0 msk := by first | exact Sub.of_eq rfl | exact Sub.mono (by assumption) rfl) : Does msk s0 (actStreamJoin s n w refs) := by
  delta actStreamJoin
  repeat' first
    | with_reducible assumption
    | with_reducible apply does_startOr
    | with_reducible apply does_beginJoin
    | with_reducible apply Does.ifte
    | split
    | exact Sub.mono hT rfl
    | exact hT _ rfl
    | intro _

theorem does_actStreamLeave (s : State) (n : Nat) (w : List Nat) (refs : List Ref) {s0 : State} {msk : Nat} (hk : Does msk s0 s)
    (hT : Sub 0x2000600028ac0 msk := by first | exact Sub.of_eq rfl | exact Sub.mono (by assumption) rfl) : Does msk s0 (actStreamLeave s n w refs) := by
  delta actStreamLeave
  repeat' first
    | with_reducible assumption
    | with_reducible apply does_startOr
    | with_reducible apply does_beginLeave
    | with_reducible apply Does.ifte
    | split
    | exact Sub.mono hT rfl
    | exact hT _ rfl
    | intro _

theorem does_execStreamJoin (n : Slot) (s : State) {s0 : State} {msk : Nat} (hk : Does msk s0 s)
    (hT : Sub 0x2001e00028ac0 msk := by first | exact Sub.of_eq rfl | exact Sub.mono (by assumption) rfl) : DoesOut msk s0 (execStreamJoin n s) := by
  delta execStreamJoin
  repeat' first
    | with_reducible assumption
    | with_reducible apply does_decodeCmd
    | with_reducible apply does_actStreamJoin
    | with_reducible apply DoesOut.next
    | with_reducible apply DoesOut.ifte
    | with_reducible apply Does.ifte
    | with_reducible apply Does.ifte_fst
    | with_reducible apply Does.ifte_snd
    | split
    | exact Sub.mono hT rfl
    | exact hT _ rfl
    | intro _

theorem does_execStreamLeave (n : Slot) (s : State) {s0 : State} {msk : Nat} (hk : Does msk s0 s)
    (hT : Sub 0x2001e00028ac0 msk := by first | exact Sub.of_eq rfl | exact Sub.mono (by assumption) rfl) : DoesOut msk s0 (execStreamLeave n s) := by
  delta execStreamLeave
  repeat' first
    | with_reducible assumption
    | with_reducible apply does_decodeCmd
    | with_reducible apply does_actStreamLeave
    | with_reducible apply DoesOut.next
    | with_reducible apply DoesOut.ifte
    | with_reducible apply Does.ifte
    | with_reducible apply Does.ifte_fst
    | with_reducible apply Does.ifte_snd
    | split
    | exact Sub.mono hT rfl
    | exact hT _ rfl
    | intro _

theorem does_applyLeaves (s : State) (a : List JoinReq) {s0 : State} {msk : Nat} (hk : Does msk s0 s)
    (hT : Sub 0x2000000028ac0 msk := by first | exact Sub.of_eq rfl | exact Sub.mono (by assumption) rfl) : Does msk s0 (applyLeaves s a) := by
  induction a generalizing s with
  | nil => unfold applyLeaves; with_reducible assumption
  | cons x r ih =>
    unfold applyLeaves
    repeat' first
    | with_reducible apply ih
    | with_reducible assumption
    | (extract_lets -underBinder +onlyGivenNames x; refine does_cut (msk := msk) (s0 := s0) (x := x) ?_ fun _ => ?_; rotate_left; clear_value x; revert x; intro _ _; rotate_left; subst x)
    | (extract_lets -underBinder +onlyGivenNames x; clear_value x; revert x; intro _)
    | with_reducible apply does_free
    | with_reducible apply does_updModel
    | with_reducible apply does_writeStatus
    | with_reducible apply Does.ifte
    | split
    | exact Sub.mono hT rfl
    | exact hT _ rfl
    | intro _

theorem does_applyJoins (s : State) (a : List JoinReq) {s0 : State} {msk : Nat} (hk : Does msk s0 s)
    (hT : Sub 0x2000000028ac0 msk := by first | exact Sub.of_eq rfl | exact Sub.mono (by assumption) rfl) : Does msk s0 (applyJoins s a) := by
  induction a generalizing s with
  | nil => unfold applyJoins; with_reducible assumption
  | cons x r ih =>
    unfold applyJoins
    repeat' first
    | with_reducible apply ih
    | with_reducible assumption
    | (extract_lets -underBinder +onlyGivenNames x; refine does_cut (msk := msk) (s0 := s0) (x := x) ?_ fun _ => ?_; rotate_left; clear_value x; revert x; intro _ _; rotate_left; subst x)
    | (extract_lets -underBinder +onlyGivenNames x; clear_value x; revert x; intro _)
    | with_reducible apply does_free
    | with_reducible apply does_updModel
    | with_reducible apply does_writeStatus
    | with_reducible apply Does.ifte
    | split
    | exact Sub.mono hT rfl
    | exact hT _ rfl
    | intro _

theorem does_closeFrame (s : State) (m : Model) (r : Run) (f : RunFrame) {s0 : State} {msk : Nat} (hk : Does msk s0 s)
    (hT : Sub 0x2000000000280 msk := by first | exact Sub.of_eq rfl | exact Sub.mono (by assumption) rfl) : Does msk s0 (closeFrame s m r f) := by
  delta closeFrame
  repeat' first
    | with_reducible assumption
    | (extract_lets -underBinder +onlyGivenNames x; refine does_cut (msk := msk) (s0 := s0) (x := x) ?_ fun _ => ?_; rotate_left; clear_value x; revert x; intro _ _; rotate_left; subst x)
    | (extract_lets -underBinder +onlyGivenNames x; refine does_cut (msk := msk) (s0 := s0) (x := x.1) ?_ fun _ => ?_; rotate_left; clear_value x; revert x; intro _ _; rotate_left; subst x)
    | (extract_lets -underBinder +onlyGivenNames x; clear_value x; revert x; intro _)
    | with_reducible apply does_append
    | with_reducible apply does_updModel
    | with_reducible apply does_updRun
    | with_reducible apply does_updFrame
    | with_reducible apply does_setVariant
    | with_reducible apply does_logMissed
    | with_reducible apply does_logFullMissed
    | with_reducible apply does_foldl
    | with_reducible apply Does.ifte
    | with_reducible apply Does.ifte_fst
    | with_reducible apply Does.ifte_snd
    | split
    | exact Sub.mono hT rfl
    | exact hT _ rfl
    | intro _

theorem does_writeBatch (s : State) (m : Model) (a : List (DirEnt × Nat)) {s0 : State} {msk : Nat} (hk : Does msk s0 s)
    (hT : Sub 0x10000 msk := by first | exact Sub.of_eq rfl | exact Sub.mono (by assumption) rfl) : Does msk s0 (writeBatch s m a) := by
  induction a generalizing s m with
  | nil => unfold writeBatch; with_reducible assumption
  | cons x r ih =>
    unfold writeBatch
    repeat' first
    | with_reducible apply ih
    | with_reducible assumption
    | (extract_lets -underBinder +onlyGivenNames x; refine does_cut (msk := msk) (s0 := s0) (x := x) ?_ fun _ => ?_; rotate_left; clear_value x; revert x; intro _ _; rotate_left; subst x)
    | (extract_lets -underBinder +onlyGivenNames x; clear_value x; revert x; intro _)
    | with_reducible apply does_foldl
    | with_reducible apply Does.ifte
    | split
    | with_reducible apply Does.updTile
    | exact fun x => x
    | exact Mem.wf_writeBytes _ _ _
    | exact Mem.wf_writeNat _ _ _ _
    | exact Mem.wf_blank _ _ _ _
    | exact Mem.wf_write _ _ _
    | exact tabWf_filter _ _
    | exact tabWf_put _ _ _
    | exact tabWf_drop _ _
    | exact Sub.mono hT rfl
    | exact hT _ rfl
    | intro _

theorem does_planSeqs (s : State) (m : Model) (q : Nat) (a : List (DirEnt × Nat)) {s0 : State} {msk : Nat} (hk : Does msk s0 s)
    (hT : Sub 0x40000 msk := by first | exact Sub.of_eq rfl | exact Sub.mono (by assumption) rfl) : Does msk s0 (planSeqs s m q a) := by
  induction a generalizing s m q with
  | nil => unfold planSeqs; with_reducible assumption
  | cons x r ih =>
    unfold planSeqs
    repeat' first
    | with_reducible apply ih
    | with_reducible assumption
    | with_reducible apply does_updSeq
    | with_reducible apply Does.ifte
    | split
    | exact Sub.mono hT rfl
    | exact hT _ rfl
    | intro _

theorem does_openFrame (s : State) {s0 : State} {msk : Nat} (hk : Does msk s0 s)
    (hT : Sub 0x2001200040040 msk := by first | exact Sub.of_eq rfl | exact Sub.mono (by assumption) rfl) : Does msk s0 (openFrame s) := by
  delta openFrame
  repeat' first
    | with_reducible assumption
    | (extract_lets -underBinder +onlyGivenNames x; refine does_cut (msk := msk) (s0 := s0) (x := x) ?_ fun _ => ?_; rotate_left; clear_value x; revert x; intro _ _; rotate_left; subst x)
    | (extract_lets -underBinder +onlyGivenNames x; clear_value x; revert x; intro _)
    | with_reducible apply does_updJob
    | with_reducible apply does_updRun
    | with_reducible apply does_seedActive
    | with_reducible apply does_planNone
    | with_reducible apply does_endRun
    | with_reducible apply does_planSeqs
    | with_reducible apply Does.ifte
    | split
    | exact Sub.mono hT rfl
    | exact hT _ rfl
    | intro _

theorem does_execMonitorFrameBoundary (s : State) {s0 : State} {msk : Nat} (hk : Does msk s0 s)
    (hT : Sub 0x20a0012000f8ac0 msk := by first | exact Sub.of_eq rfl | exact Sub.mono (by assumption) rfl) : DoesOut msk s0 (execMonitorFrameBoundary s) := by
  delta execMonitorFrameBoundary
  repeat' first
    | with_reducible assumption
    | (extract_lets -underBinder +onlyGivenNames x; refine does_cut (msk := msk) (s0 := s0) (x := x) ?_ fun _ => ?_; rotate_left; clear_value x; revert x; intro _ _; rotate_left; subst x)
    | (extract_lets -underBinder +onlyGivenNames x; clear_value x; revert x; intro _)
    | with_reducible apply does_capRebinds
    | with_reducible apply does_resetSems
    | with_reducible apply does_applyLeaves
    | with_reducible apply does_applyJoins
    | with_reducible apply does_closeFrame
    | with_reducible apply does_writeBatch
    | with_reducible apply does_openFrame
    | with_reducible apply DoesOut.next
    | with_reducible apply DoesOut.ifte
    | with_reducible apply Does.ifte
    | with_reducible apply Does.ifte_fst
    | with_reducible apply Does.ifte_snd
    | split
    | with_reducible apply Does.updMonFrame
    | exact Sub.mono hT rfl
    | exact hT _ rfl
    | intro _

theorem does_modelEngineLost (s : State) (e : Nat) {s0 : State} {msk : Nat} (hk : Does msk s0 s)
    (hT : Sub 0x2000000040000 msk := by first | exact Sub.of_eq rfl | exact Sub.mono (by assumption) rfl) : Does msk s0 (modelEngineLost s e) := by
  delta modelEngineLost
  repeat' first
    | with_reducible assumption
    | (extract_lets -underBinder +onlyGivenNames x; refine does_cut (msk := msk) (s0 := s0) (x := x) ?_ fun _ => ?_; rotate_left; clear_value x; revert x; intro _ _; rotate_left; subst x)
    | (extract_lets -underBinder +onlyGivenNames x; clear_value x; revert x; intro _)
    | with_reducible apply does_updSeq
    | with_reducible apply does_sendStops
    | with_reducible apply does_updModel
    | with_reducible apply does_updFrame
    | with_reducible apply does_setVariant
    | with_reducible apply Does.ifte
    | split
    | exact Sub.mono hT rfl
    | exact hT _ rfl
    | intro _

theorem does_lossRecords (s : State) (part : Nat) (a : List Nat) {s0 : State} {msk : Nat} (hk : Does msk s0 s)
    (hT : Sub 0x280 msk := by first | exact Sub.of_eq rfl | exact Sub.mono (by assumption) rfl) : Does msk s0 (lossRecords s part a) := by
  induction a generalizing s part with
  | nil => unfold lossRecords; with_reducible assumption
  | cons x r ih =>
    unfold lossRecords
    repeat' first
    | with_reducible apply ih
    | with_reducible assumption
    | with_reducible apply does_append
    | with_reducible apply Does.ifte
    | split
    | exact Sub.mono hT rfl
    | exact hT _ rfl
    | intro _

theorem does_execModelEngineLossRebind (s : State) {s0 : State} {msk : Nat} (hk : Does msk s0 s)
    (hT : Sub 0x20012000402c0 msk := by first | exact Sub.of_eq rfl | exact Sub.mono (by assumption) rfl) : DoesOut msk s0 (execModelEngineLossRebind s) := by
  delta execModelEngineLossRebind
  repeat' first
    | with_reducible assumption
    | (extract_lets -underBinder +onlyGivenNames x; refine does_cut (msk := msk) (s0 := s0) (x := x) ?_ fun _ => ?_; rotate_left; clear_value x; revert x; intro _ _; rotate_left; subst x)
    | (extract_lets -underBinder +onlyGivenNames x; refine does_cut (msk := msk) (s0 := s0) (x := x.1) ?_ fun _ => ?_; rotate_left; clear_value x; revert x; intro _ _; rotate_left; subst x)
    | (extract_lets -underBinder +onlyGivenNames x; clear_value x; revert x; intro _)
    | with_reducible apply does_updModel
    | with_reducible apply does_rebindQuads
    | with_reducible apply does_endRun
    | with_reducible apply does_lossRecords
    | with_reducible apply DoesOut.next
    | with_reducible apply DoesOut.ifte
    | with_reducible apply Does.ifte
    | with_reducible apply Does.ifte_fst
    | with_reducible apply Does.ifte_snd
    | split
    | exact Sub.mono hT rfl
    | exact hT _ rfl
    | intro _

theorem does_copyImages (s : State) (addr : Nat) (a : List (DirEnt × Nat)) {s0 : State} {msk : Nat} (hk : Does msk s0 s)
    (hT : Sub 0x10000 msk := by first | exact Sub.of_eq rfl | exact Sub.mono (by assumption) rfl) : Does msk s0 (copyImages s addr a) := by
  induction a generalizing s addr with
  | nil => unfold copyImages; with_reducible assumption
  | cons x r ih =>
    unfold copyImages
    repeat' first
    | with_reducible apply ih
    | with_reducible assumption
    | with_reducible apply Does.ifte
    | split
    | with_reducible apply Does.updTile
    | exact fun x => x
    | exact Mem.wf_writeBytes _ _ _
    | exact Mem.wf_writeNat _ _ _ _
    | exact Mem.wf_blank _ _ _ _
    | exact Mem.wf_write _ _ _
    | exact tabWf_filter _ _
    | exact tabWf_put _ _ _
    | exact tabWf_drop _ _
    | exact Sub.mono hT rfl
    | exact hT _ rfl
    | intro _

theorem does_execModelReloadComplete (ecc : Ecc) (s : State) {s0 : State} {msk : Nat} (hk : Does msk s0 s)
    (hT : Sub 0x20012200d02c0 msk := by first | exact Sub.of_eq rfl | exact Sub.mono (by assumption) rfl) : DoesOut msk s0 (execModelReloadComplete ecc s) := by
  delta execModelReloadComplete
  repeat' first
    | with_reducible assumption
    | (extract_lets -underBinder +onlyGivenNames x; refine does_cut (msk := msk) (s0 := s0) (x := x) ?_ fun _ => ?_; rotate_left; clear_value x; revert x; intro _ _; rotate_left; subst x)
    | (extract_lets -underBinder +onlyGivenNames x; refine does_cut (msk := msk) (s0 := s0) (x := x.1) ?_ fun _ => ?_; rotate_left; clear_value x; revert x; intro _ _; rotate_left; subst x)
    | (extract_lets -underBinder +onlyGivenNames x; clear_value x; revert x; intro _)
    | with_reducible apply does_append
    | with_reducible apply does_mcEcc
    | with_reducible apply does_updModel
    | with_reducible apply does_resetSems
    | with_reducible apply does_endRun
    | with_reducible apply does_copyImages
    | with_reducible apply DoesOut.next
    | with_reducible apply DoesOut.ifte
    | with_reducible apply Does.ifte
    | with_reducible apply Does.ifte_fst
    | with_reducible apply Does.ifte_snd
    | split
    | exact Sub.mono hT rfl
    | exact hT _ rfl
    | intro _

end Sys2Proof.Machine
end

