-- ==== Sys2Proof/Laws/Does/Compute.lean ====
section
/-!
SUPPORT. What every function of Machine/Compute.lean does: it keeps the queue and the invariant, and changes
no field of the state outside the set its lemma names.
-/
set_option linter.unreachableTactic false
set_option linter.unusedTactic false

namespace Sys2Proof.Machine

set_option Elab.async false

theorem does_updDisp (s : State) (key : Nat) (f : Disp → Disp) {s0 : State} {msk : Nat} (hk : Does msk s0 s)
    (hT : Sub 0x20000000000 msk := by first | exact Sub.of_eq rfl | exact Sub.mono (by assumption) rfl) : Does msk s0 (updDisp s key f) := by
  delta updDisp
  repeat' first
    | with_reducible assumption
    | with_reducible apply Does.ifte
    | split
    | with_reducible apply Does.updDisps
    | exact Sub.mono hT rfl
    | exact hT _ rfl
    | intro _

theorem does_updPre (s : State) (key : Nat) (f : Pre → Pre) {s0 : State} {msk : Nat} (hk : Does msk s0 s)
    (hT : Sub 0x40000000000 msk := by first | exact Sub.of_eq rfl | exact Sub.mono (by assumption) rfl) : Does msk s0 (updPre s key f) := by
  delta updPre
  repeat' first
    | with_reducible assumption
    | with_reducible apply Does.ifte
    | split
    | with_reducible apply Does.updPres
    | exact Sub.mono hT rfl
    | exact hT _ rfl
    | intro _

theorem does_setCx (s : State) (k : Nat) (x : CxSt) {s0 : State} {msk : Nat} (hk : Does msk s0 s)
    (hT : Sub 0x10000000000 msk := by first | exact Sub.of_eq rfl | exact Sub.mono (by assumption) rfl) : Does msk s0 (setCx s k x) := by
  delta setCx
  repeat' first
    | with_reducible assumption
    | with_reducible apply Does.ifte
    | split
    | with_reducible apply Does.updCx
    | exact Sub.mono hT rfl
    | exact hT _ rfl
    | intro _

theorem does_addWave (s : State) (d : Disp) (g : Nat) (j : Nat) (e : Nat) {s0 : State} {msk : Nat} (hk : Does msk s0 s)
    (hT : Sub 0x40000 msk := by first | exact Sub.of_eq rfl | exact Sub.mono (by assumption) rfl) : Does msk s0 (addWave s d g j e) := by
  delta addWave
  repeat' first
    | with_reducible assumption
    | (extract_lets -underBinder +onlyGivenNames x; refine does_cut (msk := msk) (s0 := s0) (x := x) ?_ fun _ => ?_; rotate_left; clear_value x; revert x; intro _ _; rotate_left; subst x)
    | (extract_lets -underBinder +onlyGivenNames x; clear_value x; revert x; intro _)
    | with_reducible apply does_setEng
    | with_reducible apply Does.ifte
    | split
    | exact Sub.mono hT rfl
    | exact hT _ rfl
    | intro _

theorem does_addWaves (s : State) (d : Disp) (g : Nat) (j : Nat) (a : List Nat) {s0 : State} {msk : Nat} (hk : Does msk s0 s)
    (hT : Sub 0x40000 msk := by first | exact Sub.of_eq rfl | exact Sub.mono (by assumption) rfl) : Does msk s0 (addWaves s d g j a) := by
  induction a generalizing s d g j with
  | nil => unfold addWaves; with_reducible assumption
  | cons x r ih =>
    unfold addWaves
    repeat' first
    | with_reducible apply ih
    | with_reducible assumption
    | with_reducible apply does_addWave
    | with_reducible apply Does.ifte
    | split
    | exact Sub.mono hT rfl
    | exact hT _ rfl
    | intro _

theorem does_resumeTimer (s : State) (key : Nat) {s0 : State} {msk : Nat} (hk : Does msk s0 s)
    (hT : Sub 0x1000000000 msk := by first | exact Sub.of_eq rfl | exact Sub.mono (by assumption) rfl) : Does msk s0 (resumeTimer s key) := by
  delta resumeTimer
  repeat' first
    | with_reducible assumption
    | with_reducible apply does_updJob
    | with_reducible apply Does.ifte
    | split
    | exact Sub.mono hT rfl
    | exact hT _ rfl
    | intro _

theorem does_placeGroup (s : State) (d : Disp) (l : List Nat) {s0 : State} {msk : Nat} (hk : Does msk s0 s)
    (hT : Sub 0x321000040000 msk := by first | exact Sub.of_eq rfl | exact Sub.mono (by assumption) rfl) : Does msk s0 (placeGroup s d l) := by
  delta placeGroup
  repeat' first
    | with_reducible assumption
    | (extract_lets -underBinder +onlyGivenNames x; refine does_cut (msk := msk) (s0 := s0) (x := x) ?_ fun _ => ?_; rotate_left; clear_value x; revert x; intro _ _; rotate_left; subst x)
    | (extract_lets -underBinder +onlyGivenNames x; clear_value x; revert x; intro _)
    | with_reducible apply does_updDisp
    | with_reducible apply does_addWaves
    | with_reducible apply does_resumeTimer
    | with_reducible apply Does.ifte
    | split
    | with_reducible apply Does.updPlacedInLastServed
    | exact Sub.mono hT rfl
    | exact hT _ rfl
    | intro _

theorem does_drainEng (s : State) (key : Nat) (e : Nat) {s0 : State} {msk : Nat} (hk : Does msk s0 s)
    (hT : Sub 0xc0000000000 msk := by first | exact Sub.of_eq rfl | exact Sub.mono (by assumption) rfl) : Does msk s0 (drainEng s key e) := by
  delta drainEng
  repeat' first
    | with_reducible assumption
    | (extract_lets -underBinder +onlyGivenNames x; refine does_cut (msk := msk) (s0 := s0) (x := x) ?_ fun _ => ?_; rotate_left; clear_value x; revert x; intro _ _; rotate_left; subst x)
    | (extract_lets -underBinder +onlyGivenNames x; refine does_cut (msk := msk) (s0 := s0) (x := x.1) ?_ fun _ => ?_; rotate_left; clear_value x; revert x; intro _ _; rotate_left; subst x)
    | (extract_lets -underBinder +onlyGivenNames x; refine does_cut (msk := msk) (s0 := s0) (x := x.2) ?_ fun _ => ?_; rotate_left; clear_value x; revert x; intro _ _; rotate_left; subst x)
    | (extract_lets -underBinder +onlyGivenNames x; refine does_cut (msk := msk) (s0 := s0) (x := x.2.2) ?_ fun _ => ?_; rotate_left; clear_value x; revert x; intro _ _; rotate_left; subst x)
    | (extract_lets -underBinder +onlyGivenNames x; clear_value x; revert x; intro _)
    | with_reducible apply does_updPre
    | with_reducible apply Does.ifte
    | with_reducible apply Does.ifte_fst
    | with_reducible apply Does.ifte_snd
    | split
    | with_reducible apply Does.updXfers
    | exact Sub.mono hT rfl
    | exact hT _ rfl
    | intro _

theorem does_drainList (s : State) (key : Nat) (a : List Nat) {s0 : State} {msk : Nat} (hk : Does msk s0 s)
    (hT : Sub 0xc0000000000 msk := by first | exact Sub.of_eq rfl | exact Sub.mono (by assumption) rfl) : Does msk s0 (drainList s key a) := by
  induction a generalizing s key with
  | nil => unfold drainList; with_reducible assumption
  | cons x r ih =>
    unfold drainList
    repeat' first
    | with_reducible apply ih
    | with_reducible assumption
    | with_reducible apply does_drainEng
    | with_reducible apply Does.ifte
    | split
    | exact Sub.mono hT rfl
    | exact hT _ rfl
    | intro _

theorem does_drainAll (s : State) (a : List Pre) {s0 : State} {msk : Nat} (hk : Does msk s0 s)
    (hT : Sub 0xc0000000000 msk := by first | exact Sub.of_eq rfl | exact Sub.mono (by assumption) rfl) : Does msk s0 (drainAll s a) := by
  induction a generalizing s with
  | nil => unfold drainAll; with_reducible assumption
  | cons x r ih =>
    unfold drainAll
    repeat' first
    | with_reducible apply ih
    | with_reducible assumption
    | with_reducible apply does_drainList
    | with_reducible apply Does.ifte
    | split
    | exact Sub.mono hT rfl
    | exact hT _ rfl
    | intro _

theorem does_restoreReady (s : State) (x : Pre) (a : List Nat) {s0 : State} {msk : Nat} (hk : Does msk s0 s)
    (hT : Sub 0x80000000000 msk := by first | exact Sub.of_eq rfl | exact Sub.mono (by assumption) rfl) : Does msk s0 (restoreReady s x a) := by
  induction a generalizing s x with
  | nil => unfold restoreReady; with_reducible assumption
  | cons x r ih =>
    unfold restoreReady
    repeat' first
    | with_reducible apply ih
    | with_reducible assumption
    | (extract_lets -underBinder +onlyGivenNames x; refine does_cut (msk := msk) (s0 := s0) (x := x) ?_ fun _ => ?_; rotate_left; clear_value x; revert x; intro _ _; rotate_left; subst x)
    | (extract_lets -underBinder +onlyGivenNames x; refine does_cut (msk := msk) (s0 := s0) (x := x.1) ?_ fun _ => ?_; rotate_left; clear_value x; revert x; intro _ _; rotate_left; subst x)
    | (extract_lets -underBinder +onlyGivenNames x; refine does_cut (msk := msk) (s0 := s0) (x := x.2) ?_ fun _ => ?_; rotate_left; clear_value x; revert x; intro _ _; rotate_left; subst x)
    | (extract_lets -underBinder +onlyGivenNames x; refine does_cut (msk := msk) (s0 := s0) (x := x.2.2) ?_ fun _ => ?_; rotate_left; clear_value x; revert x; intro _ _; rotate_left; subst x)
    | (extract_lets -underBinder +onlyGivenNames x; clear_value x; revert x; intro _)
    | with_reducible apply does_transfers
    | with_reducible apply Does.ifte
    | with_reducible apply Does.ifte_fst
    | with_reducible apply Does.ifte_snd
    | split
    | with_reducible apply Does.updXfers
    | exact Sub.mono hT rfl
    | exact hT _ rfl
    | intro _

theorem does_restoreList (s : State) (a : List Pre) {s0 : State} {msk : Nat} (hk : Does msk s0 s)
    (hT : Sub 0xc1000000000 msk := by first | exact Sub.of_eq rfl | exact Sub.mono (by assumption) rfl) : Does msk s0 (restoreList s a) := by
  induction a generalizing s with
  | nil => unfold restoreList; with_reducible assumption
  | cons x r ih =>
    unfold restoreList
    repeat' first
    | with_reducible apply ih
    | with_reducible assumption
    | (extract_lets -underBinder +onlyGivenNames x; refine does_cut (msk := msk) (s0 := s0) (x := x) ?_ fun _ => ?_; rotate_left; clear_value x; revert x; intro _ _; rotate_left; subst x)
    | (extract_lets -underBinder +onlyGivenNames x; refine does_cut (msk := msk) (s0 := s0) (x := x.1) ?_ fun _ => ?_; rotate_left; clear_value x; revert x; intro _ _; rotate_left; subst x)
    | (extract_lets -underBinder +onlyGivenNames x; clear_value x; revert x; intro _)
    | with_reducible apply does_updPre
    | with_reducible apply does_resumeTimer
    | with_reducible apply does_restoreReady
    | with_reducible apply Does.ifte
    | with_reducible apply Does.ifte_fst
    | with_reducible apply Does.ifte_snd
    | split
    | with_reducible apply Does.updPres
    | exact Sub.mono hT rfl
    | exact hT _ rfl
    | intro _

theorem does_restoreScan (s : State) {s0 : State} {msk : Nat} (hk : Does msk s0 s)
    (hT : Sub 0xc1000000000 msk := by first | exact Sub.of_eq rfl | exact Sub.mono (by assumption) rfl) : Does msk s0 (restoreScan s) := by
  delta restoreScan
  repeat' first
    | with_reducible assumption
    | with_reducible apply does_restoreList
    | with_reducible apply Does.ifte
    | split
    | exact Sub.mono hT rfl
    | exact hT _ rfl
    | intro _

theorem does_preempt (s : State) (p : Nat) (prio : Nat) {s0 : State} {msk : Nat} (hk : Does msk s0 s)
    (hT : Sub 0xc1000000000 msk := by first | exact Sub.of_eq rfl | exact Sub.mono (by assumption) rfl) : Does msk s0 (preempt s p prio) := by
  delta preempt
  repeat' first
    | with_reducible assumption
    | (extract_lets -underBinder +onlyGivenNames x; refine does_cut (msk := msk) (s0 := s0) (x := x) ?_ fun _ => ?_; rotate_left; clear_value x; revert x; intro _ _; rotate_left; subst x)
    | (extract_lets -underBinder +onlyGivenNames x; refine does_cut (msk := msk) (s0 := s0) (x := x.1) ?_ fun _ => ?_; rotate_left; clear_value x; revert x; intro _ _; rotate_left; subst x)
    | (extract_lets -underBinder +onlyGivenNames x; clear_value x; revert x; intro _)
    | with_reducible apply does_updJob
    | with_reducible apply does_drainList
    | with_reducible apply Does.ifte
    | with_reducible apply Does.ifte_fst
    | with_reducible apply Does.ifte_snd
    | split
    | with_reducible apply Does.updPres
    | exact Sub.mono hT rfl
    | exact hT _ rfl
    | intro _

theorem does_dispatchStep (s : State) (p : Nat) {s0 : State} {msk : Nat} (hk : Does msk s0 s)
    (hT : Sub 0x3e1000040000 msk := by first | exact Sub.of_eq rfl | exact Sub.mono (by assumption) rfl) : Does msk s0 (dispatchStep s p) := by
  delta dispatchStep
  repeat' first
    | with_reducible assumption
    | with_reducible apply does_placeGroup
    | with_reducible apply does_preempt
    | with_reducible apply Does.ifte
    | split
    | exact Sub.mono hT rfl
    | exact hT _ rfl
    | intro _

theorem does_execWorkgroupPlace (p : Part) (c : Nat) (s : State) {s0 : State} {msk : Nat} (hk : Does msk s0 s)
    (hT : Sub 0x3e1000040002 msk := by first | exact Sub.of_eq rfl | exact Sub.mono (by assumption) rfl) : DoesOut msk s0 (execWorkgroupPlace p c s) := by
  delta execWorkgroupPlace
  repeat' first
    | with_reducible assumption
    | (extract_lets -underBinder +onlyGivenNames x; refine does_cut (msk := msk) (s0 := s0) (x := x) ?_ fun _ => ?_; rotate_left; clear_value x; revert x; intro _ _; rotate_left; subst x)
    | (extract_lets -underBinder +onlyGivenNames x; clear_value x; revert x; intro _)
    | with_reducible apply does_atAclk
    | with_reducible apply does_free
    | with_reducible apply does_drainAll
    | with_reducible apply does_restoreScan
    | with_reducible apply does_dispatchStep
    | with_reducible apply DoesOut.next
    | with_reducible apply DoesOut.ifte
    | with_reducible apply Does.ifte
    | with_reducible apply Does.ifte_fst
    | with_reducible apply Does.ifte_snd
    | split
    | exact Sub.mono hT rfl
    | exact hT _ rfl
    | intro _

theorem does_beginDispatch (s : State) (n : Nat) (w : List Nat) (refs : List Ref) {s0 : State} {msk : Nat} (hk : Does msk s0 s)
    (hT : Sub 0x23200000280 msk := by first | exact Sub.of_eq rfl | exact Sub.mono (by assumption) rfl) : Does msk s0 (beginDispatch s n w refs) := by
  delta beginDispatch
  repeat' first
    | with_reducible assumption
    | (extract_lets -underBinder +onlyGivenNames x; refine does_cut (msk := msk) (s0 := s0) (x := x) ?_ fun _ => ?_; rotate_left; clear_value x; revert x; intro _ _; rotate_left; subst x)
    | (extract_lets -underBinder +onlyGivenNames x; clear_value x; revert x; intro _)
    | with_reducible apply does_instantJob
    | with_reducible apply does_startJob
    | with_reducible apply does_failInstant
    | with_reducible apply Does.ifte
    | split
    | with_reducible apply Does.updDisps
    | exact Sub.mono hT rfl
    | exact hT _ rfl
    | intro _

theorem does_actDispatch (s : State) (n : Nat) (w : List Nat) (refs : List Ref) {s0 : State} {msk : Nat} (hk : Does msk s0 s)
    (hT : Sub 0x23600000280 msk := by first | exact Sub.of_eq rfl | exact Sub.mono (by assumption) rfl) : Does msk s0 (actDispatch s n w refs) := by
  delta actDispatch
  repeat' first
    | with_reducible assumption
    | (extract_lets -underBinder +onlyGivenNames x; refine does_cut (msk := msk) (s0 := s0) (x := x) ?_ fun _ => ?_; rotate_left; clear_value x; revert x; intro _ _; rotate_left; subst x)
    | (extract_lets -underBinder +onlyGivenNames x; clear_value x; revert x; intro _)
    | with_reducible apply does_startOr
    | with_reducible apply does_beginDispatch
    | with_reducible apply Does.ifte
    | split
    | exact Sub.mono hT rfl
    | exact hT _ rfl
    | intro _

theorem does_execDispatch (n : Slot) (s : State) {s0 : State} {msk : Nat} (hk : Does msk s0 s)
    (hT : Sub 0x23e000002c0 msk := by first | exact Sub.of_eq rfl | exact Sub.mono (by assumption) rfl) : DoesOut msk s0 (execDispatch n s) := by
  delta execDispatch
  repeat' first
    | with_reducible assumption
    | with_reducible apply does_decodeCmd
    | with_reducible apply does_actDispatch
    | with_reducible apply DoesOut.next
    | with_reducible apply DoesOut.ifte
    | with_reducible apply Does.ifte
    | with_reducible apply Does.ifte_fst
    | with_reducible apply Does.ifte_snd
    | split
    | exact Sub.mono hT rfl
    | exact hT _ rfl
    | intro _

theorem does_execWaveStart (e : Eng) (w : Fin 8) (c : Nat) (s : State) {s0 : State} {msk : Nat} (hk : Does msk s0 s)
    (hT : Sub 0x40022 msk := by first | exact Sub.of_eq rfl | exact Sub.mono (by assumption) rfl) : DoesOut msk s0 (execWaveStart e w c s) := by
  delta execWaveStart
  repeat' first
    | with_reducible assumption
    | (extract_lets -underBinder +onlyGivenNames x; refine does_cut (msk := msk) (s0 := s0) (x := x) ?_ fun _ => ?_; rotate_left; clear_value x; revert x; intro _ _; rotate_left; subst x)
    | (extract_lets -underBinder +onlyGivenNames x; refine does_cut (msk := msk) (s0 := s0) (x := x.1) ?_ fun _ => ?_; rotate_left; clear_value x; revert x; intro _ _; rotate_left; subst x)
    | (extract_lets -underBinder +onlyGivenNames x; clear_value x; revert x; intro _)
    | with_reducible apply does_atAclk
    | with_reducible apply does_setEng
    | with_reducible apply does_setWave
    | with_reducible apply does_flcAcquire
    | with_reducible apply does_reseed
    | with_reducible apply DoesOut.next
    | with_reducible apply DoesOut.ifte
    | with_reducible apply Does.ifte
    | with_reducible apply Does.ifte_fst
    | with_reducible apply Does.ifte_snd
    | split
    | with_reducible apply Does.updFresh
    | exact Sub.mono hT rfl
    | exact hT _ rfl
    | intro _

theorem does_execWaveEnd (e : Eng) (w : Fin 8) (c : Nat) (s : State) {s0 : State} {msk : Nat} (hk : Does msk s0 s)
    (hT : Sub 0xc1004040002 msk := by first | exact Sub.of_eq rfl | exact Sub.mono (by assumption) rfl) : DoesOut msk s0 (execWaveEnd e w c s) := by
  delta execWaveEnd
  repeat' first
    | with_reducible assumption
    | (extract_lets -underBinder +onlyGivenNames x; refine does_cut (msk := msk) (s0 := s0) (x := x) ?_ fun _ => ?_; rotate_left; clear_value x; revert x; intro _ _; rotate_left; subst x)
    | (extract_lets -underBinder +onlyGivenNames x; clear_value x; revert x; intro _)
    | with_reducible apply does_atAclk
    | with_reducible apply does_dropWave
    | with_reducible apply does_flcClean
    | with_reducible apply does_drainAll
    | with_reducible apply does_restoreScan
    | with_reducible apply DoesOut.next
    | with_reducible apply DoesOut.ifte
    | with_reducible apply Does.ifte
    | with_reducible apply Does.ifte_fst
    | with_reducible apply Does.ifte_snd
    | split
    | exact Sub.mono hT rfl
    | exact hT _ rfl
    | intro _

theorem does_dropDisp (s : State) (key : Nat) {s0 : State} {msk : Nat} (hk : Does msk s0 s)
    (hT : Sub 0xe0000000000 msk := by first | exact Sub.of_eq rfl | exact Sub.mono (by assumption) rfl) : Does msk s0 (dropDisp s key) := by
  delta dropDisp
  repeat' first
    | with_reducible assumption
    | with_reducible apply does_transfers
    | with_reducible apply Does.ifte
    | split
    | with_reducible apply Does.updDispsPresXfers
    | exact Sub.mono hT rfl
    | exact hT _ rfl
    | intro _

theorem does_endDisp (s : State) (d : Disp) {s0 : State} {msk : Nat} (hk : Does msk s0 s)
    (hT : Sub 0xe1200000280 msk := by first | exact Sub.of_eq rfl | exact Sub.mono (by assumption) rfl) : Does msk s0 (endDisp s d) := by
  delta endDisp
  repeat' first
    | with_reducible assumption
    | (extract_lets -underBinder +onlyGivenNames x; refine does_cut (msk := msk) (s0 := s0) (x := x) ?_ fun _ => ?_; rotate_left; clear_value x; revert x; intro _ _; rotate_left; subst x)
    | (extract_lets -underBinder +onlyGivenNames x; clear_value x; revert x; intro _)
    | with_reducible apply does_append
    | with_reducible apply does_endJob
    | with_reducible apply does_stopJob
    | with_reducible apply does_dropDisp
    | with_reducible apply Does.ifte
    | split
    | exact Sub.mono hT rfl
    | exact hT _ rfl
    | intro _

theorem does_rebindIdle (s : State) (p : Nat) {s0 : State} {msk : Nat} (hk : Does msk s0 s)
    (hT : Sub 0x40 msk := by first | exact Sub.of_eq rfl | exact Sub.mono (by assumption) rfl) : Does msk s0 (rebindIdle s p) := by
  delta rebindIdle
  repeat' first
    | with_reducible assumption
    | with_reducible apply does_rebindQuads
    | with_reducible apply Does.ifte
    | split
    | exact Sub.mono hT rfl
    | exact hT _ rfl
    | intro _

theorem does_execDispatchComplete (q : Qid) (s : State) {s0 : State} {msk : Nat} (hk : Does msk s0 s)
    (hT : Sub 0xe12000002c0 msk := by first | exact Sub.of_eq rfl | exact Sub.mono (by assumption) rfl) : DoesOut msk s0 (execDispatchComplete q s) := by
  delta execDispatchComplete
  repeat' first
    | with_reducible assumption
    | with_reducible apply does_restoreScan
    | with_reducible apply does_endDisp
    | with_reducible apply does_rebindIdle
    | with_reducible apply DoesOut.next
    | with_reducible apply DoesOut.ifte
    | with_reducible apply Does.ifte
    | with_reducible apply Does.ifte_fst
    | with_reducible apply Does.ifte_snd
    | split
    | exact Sub.mono hT rfl
    | exact hT _ rfl
    | intro _

theorem does_dropGroups (s : State) (key : Nat) (gs : List Nat) {s0 : State} {msk : Nat} (hk : Does msk s0 s)
    (hT : Sub 0x40000 msk := by first | exact Sub.of_eq rfl | exact Sub.mono (by assumption) rfl) : Does msk s0 (dropGroups s key gs) := by
  delta dropGroups
  repeat' first
    | with_reducible assumption
    | with_reducible apply Does.ifte
    | split
    | with_reducible apply Does.updEngines
    | exact Sub.mono hT rfl
    | exact hT _ rfl
    | intro _

theorem does_dispLoses (s : State) (d : Disp) (e : Nat) (data : Bool) {s0 : State} {msk : Nat} (hk : Does msk s0 s)
    (hT : Sub 0x20000040000 msk := by first | exact Sub.of_eq rfl | exact Sub.mono (by assumption) rfl) : Does msk s0 (dispLoses s d e data) := by
  delta dispLoses
  repeat' first
    | with_reducible assumption
    | (extract_lets -underBinder +onlyGivenNames x; refine does_cut (msk := msk) (s0 := s0) (x := x) ?_ fun _ => ?_; rotate_left; clear_value x; revert x; intro _ _; rotate_left; subst x)
    | (extract_lets -underBinder +onlyGivenNames x; clear_value x; revert x; intro _)
    | with_reducible apply does_updDisp
    | with_reducible apply does_dropGroups
    | with_reducible apply does_foldl
    | with_reducible apply Does.ifte
    | split
    | exact Sub.mono hT rfl
    | exact hT _ rfl
    | intro _

theorem does_dispsLose (s : State) (e : Nat) (data : Bool) (a : List Disp) {s0 : State} {msk : Nat} (hk : Does msk s0 s)
    (hT : Sub 0x20000040000 msk := by first | exact Sub.of_eq rfl | exact Sub.mono (by assumption) rfl) : Does msk s0 (dispsLose s e data a) := by
  induction a generalizing s e data with
  | nil => unfold dispsLose; with_reducible assumption
  | cons x r ih =>
    unfold dispsLose
    repeat' first
    | with_reducible apply ih
    | with_reducible assumption
    | with_reducible apply does_dispLoses
    | with_reducible apply Does.ifte
    | split
    | exact Sub.mono hT rfl
    | exact hT _ rfl
    | intro _

theorem does_preLoses (s : State) (e : Nat) (x : Pre) {s0 : State} {msk : Nat} (hk : Does msk s0 s)
    (hT : Sub 0xf0000000000 msk := by first | exact Sub.of_eq rfl | exact Sub.mono (by assumption) rfl) : Does msk s0 (preLoses s e x) := by
  delta preLoses
  repeat' first
    | with_reducible assumption
    | (extract_lets -underBinder +onlyGivenNames x; refine does_cut (msk := msk) (s0 := s0) (x := x) ?_ fun _ => ?_; rotate_left; clear_value x; revert x; intro _ _; rotate_left; subst x)
    | (extract_lets -underBinder +onlyGivenNames x; refine does_cut (msk := msk) (s0 := s0) (x := x.1) ?_ fun _ => ?_; rotate_left; clear_value x; revert x; intro _ _; rotate_left; subst x)
    | (extract_lets -underBinder +onlyGivenNames x; clear_value x; revert x; intro _)
    | with_reducible apply does_updDisp
    | with_reducible apply does_updPre
    | with_reducible apply does_setCx
    | with_reducible apply Does.ifte
    | with_reducible apply Does.ifte_fst
    | with_reducible apply Does.ifte_snd
    | split
    | with_reducible apply Does.updXfers
    | exact Sub.mono hT rfl
    | exact hT _ rfl
    | intro _

theorem does_presLose (s : State) (e : Nat) (a : List Pre) {s0 : State} {msk : Nat} (hk : Does msk s0 s)
    (hT : Sub 0xf0000000000 msk := by first | exact Sub.of_eq rfl | exact Sub.mono (by assumption) rfl) : Does msk s0 (presLose s e a) := by
  induction a generalizing s e with
  | nil => unfold presLose; with_reducible assumption
  | cons x r ih =>
    unfold presLose
    repeat' first
    | with_reducible apply ih
    | with_reducible assumption
    | with_reducible apply does_preLoses
    | with_reducible apply Does.ifte
    | split
    | exact Sub.mono hT rfl
    | exact hT _ rfl
    | intro _

theorem does_dispsEnd (s : State) (a : List Disp) {s0 : State} {msk : Nat} (hk : Does msk s0 s)
    (hT : Sub 0xe1200000280 msk := by first | exact Sub.of_eq rfl | exact Sub.mono (by assumption) rfl) : Does msk s0 (dispsEnd s a) := by
  induction a generalizing s with
  | nil => unfold dispsEnd; with_reducible assumption
  | cons x r ih =>
    unfold dispsEnd
    repeat' first
    | with_reducible apply ih
    | with_reducible assumption
    | (extract_lets -underBinder +onlyGivenNames x; refine does_cut (msk := msk) (s0 := s0) (x := x) ?_ fun _ => ?_; rotate_left; clear_value x; revert x; intro _ _; rotate_left; subst x)
    | (extract_lets -underBinder +onlyGivenNames x; clear_value x; revert x; intro _)
    | with_reducible apply does_endDisp
    | with_reducible apply Does.ifte
    | split
    | exact Sub.mono hT rfl
    | exact hT _ rfl
    | intro _

theorem does_computeEngineLost (s : State) (e : Nat) {s0 : State} {msk : Nat} (hk : Does msk s0 s)
    (hT : Sub 0xf1200040280 msk := by first | exact Sub.of_eq rfl | exact Sub.mono (by assumption) rfl) : Does msk s0 (computeEngineLost s e) := by
  delta computeEngineLost
  repeat' first
    | with_reducible assumption
    | (extract_lets -underBinder +onlyGivenNames x; refine does_cut (msk := msk) (s0 := s0) (x := x) ?_ fun _ => ?_; rotate_left; clear_value x; revert x; intro _ _; rotate_left; subst x)
    | (extract_lets -underBinder +onlyGivenNames x; clear_value x; revert x; intro _)
    | with_reducible apply does_dispsLose
    | with_reducible apply does_presLose
    | with_reducible apply does_dispsEnd
    | with_reducible apply Does.ifte
    | split
    | exact Sub.mono hT rfl
    | exact hT _ rfl
    | intro _

theorem does_actSetPriority (s : State) (n : Nat) (w : List Nat) (_refs : List Ref) {s0 : State} {msk : Nat} (hk : Does msk s0 s)
    (hT : Sub 0x600000280 msk := by first | exact Sub.of_eq rfl | exact Sub.mono (by assumption) rfl) : Does msk s0 (actSetPriority s n w _refs) := by
  delta actSetPriority
  repeat' first
    | with_reducible assumption
    | (extract_lets -underBinder +onlyGivenNames x; refine does_cut (msk := msk) (s0 := s0) (x := x) ?_ fun _ => ?_; rotate_left; clear_value x; revert x; intro _ _; rotate_left; subst x)
    | (extract_lets -underBinder +onlyGivenNames x; clear_value x; revert x; intro _)
    | with_reducible apply does_setQue
    | with_reducible apply does_instantJob
    | with_reducible apply does_failInstant
    | with_reducible apply does_beginAt
    | with_reducible apply Does.ifte
    | split
    | exact Sub.mono hT rfl
    | exact hT _ rfl
    | intro _

theorem does_execSetPriority (n : Slot) (s : State) {s0 : State} {msk : Nat} (hk : Does msk s0 s)
    (hT : Sub 0x1e000002c0 msk := by first | exact Sub.of_eq rfl | exact Sub.mono (by assumption) rfl) : DoesOut msk s0 (execSetPriority n s) := by
  delta execSetPriority
  repeat' first
    | with_reducible assumption
    | with_reducible apply does_decodeCmd
    | with_reducible apply does_actSetPriority
    | with_reducible apply DoesOut.next
    | with_reducible apply DoesOut.ifte
    | with_reducible apply Does.ifte
    | with_reducible apply Does.ifte_fst
    | with_reducible apply Does.ifte_snd
    | split
    | exact Sub.mono hT rfl
    | exact hT _ rfl
    | intro _

end Sys2Proof.Machine
end

