-- ==== Sys2Proof/Laws/Does/Raster.lean ====
section
/-!
SUPPORT. What every function of Machine/Raster.lean does: it keeps the queue and the invariant, and changes
no field of the state outside the set its lemma names.
-/
set_option linter.unreachableTactic false
set_option linter.unusedTactic false

namespace Sys2Proof.Machine

set_option Elab.async false

theorem does_relocNow {msk : Nat} {s : State} {ctx : Option Nat} {n : Nat} {need : Need} {ecc : Ecc} {r : Ref} {t s0 : State}
    (h : Does msk s0 s) (e : relocNow s ctx n need ecc = .ok (r, t))
    (hT : Sub 0x8200002c0 msk := by first | exact Sub.of_eq rfl | exact Sub.mono (by assumption) rfl) : Does msk s0 t := by
  unfold relocNow at e
  split at e
  · cases e; exact does_bump _ _ _ (does_relocTouch _ _ _ h)
  · cases e
  · cases e
  · split at e
    · cases e
    · split at e
      · cases e; exact does_bump _ _ _ (does_bump _ _ _ (does_relocInsert _ _ _ _ (does_mcEcc _ _ _ h)))
      · cases e
      · cases e

theorem does_relocMany {msk : Nat} {s : State} {ctx : Option Nat} {ecc : Ecc} {l : List (Option (Nat × Need))} {r : List Ref}
    {t s0 : State} (h : Does msk s0 s) (e : relocMany s ctx ecc l = .ok (r, t))
    (hT : Sub 0x8200002c0 msk := by first | exact Sub.of_eq rfl | exact Sub.mono (by assumption) rfl) : Does msk s0 t := by
  induction l generalizing s r t with
  | nil => unfold relocMany at e; cases e; exact h
  | cons x l ih =>
    cases x with
    | none =>
      unfold relocMany at e
      split at e
      · rename_i he; cases e; exact ih h he
      · cases e
    | some x =>
      unfold relocMany at e
      split at e
      · cases e
      · rename_i he1
        split at e
        · rename_i he2; cases e; exact ih (does_relocNow h he1) he2
        · cases e

theorem does_passRegs (s : State) (p : Nat) {s0 : State} {msk : Nat} (hk : Does msk s0 s)
    (hT : Sub 0x40 msk := by first | exact Sub.of_eq rfl | exact Sub.mono (by assumption) rfl) : Does msk s0 (passRegs s p) := by
  delta passRegs
  repeat' first
    | with_reducible assumption
    | (extract_lets -underBinder +onlyGivenNames x; refine does_cut (msk := msk) (s0 := s0) (x := x) ?_ fun _ => ?_; rotate_left; clear_value x; revert x; intro _ _; rotate_left; subst x)
    | (extract_lets -underBinder +onlyGivenNames x; clear_value x; revert x; intro _)
    | with_reducible apply does_setFld
    | with_reducible apply Does.ifte
    | split
    | exact Sub.mono hT rfl
    | exact hT _ rfl
    | intro _

theorem does_passBegun (s : State) (q : Nat) {s0 : State} {msk : Nat} (hk : Does msk s0 s)
    (hT : Sub 0x200000040 msk := by first | exact Sub.of_eq rfl | exact Sub.mono (by assumption) rfl) : Does msk s0 (passBegun s q) := by
  delta passBegun
  repeat' first
    | with_reducible assumption
    | (extract_lets -underBinder +onlyGivenNames x; refine does_cut (msk := msk) (s0 := s0) (x := x) ?_ fun _ => ?_; rotate_left; clear_value x; revert x; intro _ _; rotate_left; subst x)
    | (extract_lets -underBinder +onlyGivenNames x; clear_value x; revert x; intro _)
    | with_reducible apply does_wr
    | with_reducible apply does_setFld
    | with_reducible apply does_setQue
    | with_reducible apply Does.ifte
    | split
    | exact Sub.mono hT rfl
    | exact hT _ rfl
    | intro _

theorem does_openPass (s : State) (q : Nat) (d : List Nat) (refs : List Ref) {s0 : State} {msk : Nat} (hk : Does msk s0 s)
    (hT : Sub 0x403200000040 msk := by first | exact Sub.of_eq rfl | exact Sub.mono (by assumption) rfl) : Does msk s0 (openPass s q d refs) := by
  delta openPass
  repeat' first
    | with_reducible assumption
    | (extract_lets -underBinder +onlyGivenNames x; refine does_cut (msk := msk) (s0 := s0) (x := x) ?_ fun _ => ?_; rotate_left; clear_value x; revert x; intro _ _; rotate_left; subst x)
    | (extract_lets -underBinder +onlyGivenNames x; clear_value x; revert x; intro _)
    | with_reducible apply does_startJob
    | with_reducible apply does_markJob
    | with_reducible apply does_passRegs
    | with_reducible apply does_passBegun
    | with_reducible apply Does.ifte
    | split
    | with_reducible apply Does.updPasses
    | exact Sub.mono hT rfl
    | exact hT _ rfl
    | intro _

theorem does_relocFail (s : State) (n : Nat) (op : Nat) (e : Nat × Nat) {s0 : State} {msk : Nat} (hk : Does msk s0 s)
    (hT : Sub 0x16200002c0 msk := by first | exact Sub.of_eq rfl | exact Sub.mono (by assumption) rfl) : Does msk s0 (relocFail s n op e) := by
  delta relocFail
  repeat' first
    | with_reducible assumption
    | (extract_lets -underBinder +onlyGivenNames x; refine does_cut (msk := msk) (s0 := s0) (x := x) ?_ fun _ => ?_; rotate_left; clear_value x; revert x; intro _ _; rotate_left; subst x)
    | (extract_lets -underBinder +onlyGivenNames x; refine does_cut (msk := msk) (s0 := s0) (x := x.1) ?_ fun _ => ?_; rotate_left; clear_value x; revert x; intro _ _; rotate_left; subst x)
    | (extract_lets -underBinder +onlyGivenNames x; refine does_cut (msk := msk) (s0 := s0) (x := x.2) ?_ fun _ => ?_; rotate_left; clear_value x; revert x; intro _ _; rotate_left; subst x)
    | (extract_lets -underBinder +onlyGivenNames x; clear_value x; revert x; intro _)
    | with_reducible apply does_violation
    | with_reducible apply does_mcEcc
    | with_reducible apply does_instantJob
    | with_reducible apply does_failInstant
    | with_reducible apply does_queueFault
    | with_reducible apply Does.ifte
    | with_reducible apply Does.ifte_fst
    | with_reducible apply Does.ifte_snd
    | split
    | exact Sub.mono hT rfl
    | exact hT _ rfl
    | intro _

theorem does_passWrite (s : State) (p : Pass) (req : Nat) (a : Nat) (data : List Byte) {s0 : State} {msk : Nat} (hk : Does msk s0 s)
    (hT : Sub 0x1000028ac0 msk := by first | exact Sub.of_eq rfl | exact Sub.mono (by assumption) rfl) : Does msk s0 (passWrite s p req a data) := by
  delta passWrite
  repeat' first
    | with_reducible assumption
    | with_reducible apply does_devWrite
    | with_reducible apply does_violation
    | with_reducible apply does_markJob
    | with_reducible apply Does.ifte
    | split
    | exact Sub.mono hT rfl
    | exact hT _ rfl
    | intro _

theorem does_updSorter (s : State) (p : Nat) (k : Nat) (f : Sorter → Sorter) {s0 : State} {msk : Nat} (hk : Does msk s0 s)
    (hT : Sub 0x400000000000 msk := by first | exact Sub.of_eq rfl | exact Sub.mono (by assumption) rfl) : Does msk s0 (updSorter s p k f) := by
  delta updSorter
  repeat' first
    | with_reducible assumption
    | with_reducible apply does_updPass
    | with_reducible apply Does.ifte
    | split
    | exact Sub.mono hT rfl
    | exact hT _ rfl
    | intro _

theorem does_takeChunk {msk : Nat} {s : State} {p : Nat} {x : Pass} {n : Nat} {t s0 : State} (h : Does msk s0 s)
    (e : takeChunk s p x = some (n, t))
    (hT : Sub 0x400000000040 msk := by first | exact Sub.of_eq rfl | exact Sub.mono (by assumption) rfl) : Does msk s0 t := by
  unfold takeChunk at e
  split at e
  · cases e; exact does_passRegs _ _ (does_updPass _ _ _ h)
  · cases e

theorem does_binFault (s : State) (p : Nat) (k : Nat) {s0 : State} {msk : Nat} (hk : Does msk s0 s)
    (hT : Sub 0x4000000002c0 msk := by first | exact Sub.of_eq rfl | exact Sub.mono (by assumption) rfl) : Does msk s0 (binFault s p k) := by
  delta binFault
  repeat' first
    | with_reducible assumption
    | (extract_lets -underBinder +onlyGivenNames x; refine does_cut (msk := msk) (s0 := s0) (x := x) ?_ fun _ => ?_; rotate_left; clear_value x; revert x; intro _ _; rotate_left; subst x)
    | (extract_lets -underBinder +onlyGivenNames x; clear_value x; revert x; intro _)
    | with_reducible apply does_setFld
    | with_reducible apply does_bumpSat
    | with_reducible apply does_raise
    | with_reducible apply does_append
    | with_reducible apply does_updPass
    | with_reducible apply does_passRegs
    | with_reducible apply does_updSorter
    | with_reducible apply Does.ifte
    | split
    | exact Sub.mono hT rfl
    | exact hT _ rfl
    | intro _

theorem does_stepHead (s : State) (p : Nat) (x : Pass) (t : Sorter) {s0 : State} {msk : Nat} (hk : Does msk s0 s)
    (hT : Sub 0x401000028ac0 msk := by first | exact Sub.of_eq rfl | exact Sub.mono (by assumption) rfl) : Does msk s0 (stepHead s p x t).1 := by
  delta stepHead
  repeat' first
    | with_reducible assumption
    | (extract_lets -underBinder +onlyGivenNames x; refine does_cut (msk := msk) (s0 := s0) (x := x) ?_ fun _ => ?_; rotate_left; clear_value x; revert x; intro _ _; rotate_left; subst x)
    | (extract_lets -underBinder +onlyGivenNames x; clear_value x; revert x; intro _)
    | with_reducible apply does_passWrite
    | with_reducible apply does_updSorter
    | with_reducible refine does_takeChunk ?_ (by with_reducible assumption)
    | with_reducible apply does_binFault
    | with_reducible apply Does.ifte
    | with_reducible apply Does.ifte_fst
    | with_reducible apply Does.ifte_snd
    | split
    | exact Sub.mono hT rfl
    | exact hT _ rfl
    | intro _

theorem does_stepRecord (s : State) (p : Nat) (x : Pass) (t : Sorter) (tri : Tri) {s0 : State} {msk : Nat} (hk : Does msk s0 s)
    (hT : Sub 0x401000028ac0 msk := by first | exact Sub.of_eq rfl | exact Sub.mono (by assumption) rfl) : Does msk s0 (stepRecord s p x t tri).1 := by
  delta stepRecord
  repeat' first
    | with_reducible assumption
    | (extract_lets -underBinder +onlyGivenNames x; refine does_cut (msk := msk) (s0 := s0) (x := x) ?_ fun _ => ?_; rotate_left; clear_value x; revert x; intro _ _; rotate_left; subst x)
    | (extract_lets -underBinder +onlyGivenNames x; clear_value x; revert x; intro _)
    | with_reducible apply does_passWrite
    | with_reducible apply does_updSorter
    | with_reducible refine does_takeChunk ?_ (by with_reducible assumption)
    | with_reducible apply does_binFault
    | with_reducible apply Does.ifte
    | with_reducible apply Does.ifte_fst
    | with_reducible apply Does.ifte_snd
    | split
    | exact Sub.mono hT rfl
    | exact hT _ rfl
    | intro _

theorem does_noteEntry (s : State) (p : Nat) (t : Sorter) (tri : Tri) (l : Nat) (full : Bool) {s0 : State} {msk : Nat} (hk : Does msk s0 s)
    (hT : Sub 0x400000000040 msk := by first | exact Sub.of_eq rfl | exact Sub.mono (by assumption) rfl) : Does msk s0 (noteEntry s p t tri l full) := by
  delta noteEntry
  repeat' first
    | with_reducible assumption
    | (extract_lets -underBinder +onlyGivenNames x; refine does_cut (msk := msk) (s0 := s0) (x := x) ?_ fun _ => ?_; rotate_left; clear_value x; revert x; intro _ _; rotate_left; subst x)
    | (extract_lets -underBinder +onlyGivenNames x; clear_value x; revert x; intro _)
    | with_reducible apply does_bump
    | with_reducible apply does_updPass
    | with_reducible apply does_updSorter
    | with_reducible apply Does.ifte
    | split
    | exact Sub.mono hT rfl
    | exact hT _ rfl
    | intro _

theorem does_stepEntry_newBlock (s : State) (p : Nat) (x : Pass) (t : Sorter) (tri : Tri) (ref : Nat) (l : Nat) (req : Nat) (full : Bool) (old : Option (Nat × Nat)) {s0 : State} {msk : Nat} (hk : Does msk s0 s)
    (hT : Sub 0x401000028ac0 msk := by first | exact Sub.of_eq rfl | exact Sub.mono (by assumption) rfl) : Does msk s0 (stepEntry.newBlock s p x t tri ref l req full old).1 := by
  delta stepEntry.newBlock
  repeat' first
    | with_reducible assumption
    | (extract_lets -underBinder +onlyGivenNames x; refine does_cut (msk := msk) (s0 := s0) (x := x) ?_ fun _ => ?_; rotate_left; clear_value x; revert x; intro _ _; rotate_left; subst x)
    | (extract_lets -underBinder +onlyGivenNames x; refine does_cut (msk := msk) (s0 := s0) (x := x.1) ?_ fun _ => ?_; rotate_left; clear_value x; revert x; intro _ _; rotate_left; subst x)
    | (extract_lets -underBinder +onlyGivenNames x; clear_value x; revert x; intro _)
    | with_reducible apply does_updPass
    | with_reducible apply does_passWrite
    | with_reducible apply does_updSorter
    | with_reducible refine does_takeChunk ?_ (by with_reducible assumption)
    | with_reducible apply does_binFault
    | with_reducible apply does_stepHead
    | with_reducible apply does_stepRecord
    | with_reducible apply does_noteEntry
    | with_reducible apply does_stepEntry
    | with_reducible apply does_sorterStep
    | with_reducible apply Does.ifte
    | with_reducible apply Does.ifte_fst
    | with_reducible apply Does.ifte_snd
    | split
    | exact Sub.mono hT rfl
    | exact hT _ rfl
    | intro _

theorem does_stepEntry {msk : Nat} (s : State) (p : Nat) (x : Pass) (t : Sorter) (tri : Tri) (ref l : Nat) {s0 : State}
    (h : Does msk s0 s)
    (hT : Sub 0x401000028ac0 msk := by first | exact Sub.of_eq rfl | exact Sub.mono (by assumption) rfl) : Does msk s0 (stepEntry s p x t tri ref l).1 := by
  unfold stepEntry
  dsimp only
  split
  · with_reducible apply Does.ifte_fst
    · exact does_noteEntry _ _ _ _ _ _ (does_updSorter _ _ _ _ (does_passWrite _ _ _ _ _ (does_passWrite _ _ _ _ _ h)))
    · exact does_stepEntry_newBlock _ _ _ _ _ _ _ _ _ _ h
  · exact does_stepEntry_newBlock _ _ _ _ _ _ _ _ _ _ h

theorem does_sorterStep (s : State) (p : Nat) (k : Nat) {s0 : State} {msk : Nat} (hk : Does msk s0 s)
    (hT : Sub 0x401000028ac0 msk := by first | exact Sub.of_eq rfl | exact Sub.mono (by assumption) rfl) : Does msk s0 (sorterStep s p k).1 := by
  delta sorterStep
  repeat' first
    | with_reducible assumption
    | with_reducible apply does_updPass
    | with_reducible apply does_updSorter
    | with_reducible apply does_stepHead
    | with_reducible apply does_stepRecord
    | with_reducible apply does_stepEntry
    | with_reducible apply Does.ifte
    | with_reducible apply Does.ifte_fst
    | with_reducible apply Does.ifte_snd
    | split
    | exact Sub.mono hT rfl
    | exact hT _ rfl
    | intro _

theorem does_sorterRun {msk : Nat} (s : State) (p k n : Nat) {s0 : State} (h : Does msk s0 s)
    (hT : Sub 0x401000028ac0 msk := by first | exact Sub.of_eq rfl | exact Sub.mono (by assumption) rfl) : Does msk s0 (sorterRun s p k n) := by
  induction n generalizing s with
  | zero => unfold sorterRun; exact h
  | succ n ih =>
    unfold sorterRun
    have hs := does_sorterStep s p k h
    split
    · rename_i he; rw [he] at hs; exact ih _ hs
    · rename_i he; rw [he] at hs; exact hs

theorem does_sortersRun (s : State) (p : Nat) (a : List Nat) {s0 : State} {msk : Nat} (hk : Does msk s0 s)
    (hT : Sub 0x401000028ac0 msk := by first | exact Sub.of_eq rfl | exact Sub.mono (by assumption) rfl) : Does msk s0 (sortersRun s p a) := by
  induction a generalizing s p with
  | nil => unfold sortersRun; with_reducible assumption
  | cons x r ih =>
    unfold sortersRun
    repeat' first
    | with_reducible apply ih
    | with_reducible assumption
    | with_reducible apply does_sorterRun
    | with_reducible apply Does.ifte
    | split
    | exact Sub.mono hT rfl
    | exact hT _ rfl
    | intro _

theorem does_resumeSorters (s : State) (p : Nat) {s0 : State} {msk : Nat} (hk : Does msk s0 s)
    (hT : Sub 0x401000028ac0 msk := by first | exact Sub.of_eq rfl | exact Sub.mono (by assumption) rfl) : Does msk s0 (resumeSorters s p) := by
  delta resumeSorters
  repeat' first
    | with_reducible assumption
    | with_reducible apply does_sortersRun
    | with_reducible apply Does.ifte
    | split
    | exact Sub.mono hT rfl
    | exact hT _ rfl
    | intro _

theorem does_beginPass (ecc : Ecc) (s : State) (n : Nat) (w : List Nat) (_refs : List Ref) {s0 : State} {msk : Nat} (hk : Does msk s0 s)
    (hT : Sub 0x403e20028ac0 msk := by first | exact Sub.of_eq rfl | exact Sub.mono (by assumption) rfl) : Does msk s0 (beginPass ecc s n w _refs) := by
  delta beginPass
  repeat' first
    | with_reducible assumption
    | (extract_lets -underBinder +onlyGivenNames x; refine does_cut (msk := msk) (s0 := s0) (x := x) ?_ fun _ => ?_; rotate_left; clear_value x; revert x; intro _ _; rotate_left; subst x)
    | (extract_lets -underBinder +onlyGivenNames x; clear_value x; revert x; intro _)
    | with_reducible apply does_violation
    | with_reducible apply does_instantJob
    | with_reducible apply does_failInstant
    | with_reducible refine does_relocNow ?_ (by with_reducible assumption)
    | with_reducible refine does_relocMany ?_ (by with_reducible assumption)
    | with_reducible apply does_passBegun
    | with_reducible apply does_openPass
    | with_reducible apply does_relocFail
    | with_reducible apply does_resumeSorters
    | with_reducible apply Does.ifte
    | split
    | exact Sub.mono hT rfl
    | exact hT _ rfl
    | intro _

theorem does_actPassBegin (ecc : Ecc) (s : State) (n : Nat) (w : List Nat) (refs : List Ref) {s0 : State} {msk : Nat} (hk : Does msk s0 s)
    (hT : Sub 0x403e20028ac0 msk := by first | exact Sub.of_eq rfl | exact Sub.mono (by assumption) rfl) : Does msk s0 (actPassBegin ecc s n w refs) := by
  delta actPassBegin
  repeat' first
    | with_reducible assumption
    | (extract_lets -underBinder +onlyGivenNames x; refine does_cut (msk := msk) (s0 := s0) (x := x) ?_ fun _ => ?_; rotate_left; clear_value x; revert x; intro _ _; rotate_left; subst x)
    | (extract_lets -underBinder +onlyGivenNames x; clear_value x; revert x; intro _)
    | with_reducible apply does_setSlot
    | with_reducible apply does_holdCmd
    | with_reducible apply does_beginAt
    | with_reducible apply does_beginPass
    | with_reducible apply Does.ifte
    | split
    | exact Sub.mono hT rfl
    | exact hT _ rfl
    | intro _

theorem does_execRenderPassBegin (n : Slot) (ecc : Ecc) (s : State) {s0 : State} {msk : Nat} (hk : Does msk s0 s)
    (hT : Sub 0x403e20028ac0 msk := by first | exact Sub.of_eq rfl | exact Sub.mono (by assumption) rfl) : DoesOut msk s0 (execRenderPassBegin n ecc s) := by
  delta execRenderPassBegin
  repeat' first
    | with_reducible assumption
    | with_reducible apply does_decodeCmd
    | with_reducible apply does_actPassBegin
    | with_reducible apply DoesOut.next
    | with_reducible apply DoesOut.ifte
    | with_reducible apply Does.ifte
    | with_reducible apply Does.ifte_fst
    | with_reducible apply Does.ifte_snd
    | split
    | exact Sub.mono hT rfl
    | exact hT _ rfl
    | intro _

theorem does_actPassEnd (s : State) (n : Nat) (w : List Nat) (_refs : List Ref) {s0 : State} {msk : Nat} (hk : Does msk s0 s)
    (hT : Sub 0x401600000280 msk := by first | exact Sub.of_eq rfl | exact Sub.mono (by assumption) rfl) : Does msk s0 (actPassEnd s n w _refs) := by
  delta actPassEnd
  repeat' first
    | with_reducible assumption
    | (extract_lets -underBinder +onlyGivenNames x; refine does_cut (msk := msk) (s0 := s0) (x := x) ?_ fun _ => ?_; rotate_left; clear_value x; revert x; intro _ _; rotate_left; subst x)
    | (extract_lets -underBinder +onlyGivenNames x; clear_value x; revert x; intro _)
    | with_reducible apply does_setQue
    | with_reducible apply does_failJob
    | with_reducible apply does_beginAt
    | with_reducible apply does_updPass
    | with_reducible apply Does.ifte
    | split
    | exact Sub.mono hT rfl
    | exact hT _ rfl
    | intro _

theorem does_execRenderPassEnd (n : Slot) (s : State) {s0 : State} {msk : Nat} (hk : Does msk s0 s)
    (hT : Sub 0x401e000002c0 msk := by first | exact Sub.of_eq rfl | exact Sub.mono (by assumption) rfl) : DoesOut msk s0 (execRenderPassEnd n s) := by
  delta execRenderPassEnd
  repeat' first
    | with_reducible assumption
    | with_reducible apply does_decodeCmd
    | with_reducible apply does_actPassEnd
    | with_reducible apply DoesOut.next
    | with_reducible apply DoesOut.ifte
    | with_reducible apply Does.ifte
    | with_reducible apply Does.ifte_fst
    | with_reducible apply Does.ifte_snd
    | split
    | exact Sub.mono hT rfl
    | exact hT _ rfl
    | intro _

theorem does_actDraw (s : State) (n : Nat) (w : List Nat) (refs : List Ref) {s0 : State} {msk : Nat} (hk : Does msk s0 s)
    (hT : Sub 0x4014000002c0 msk := by first | exact Sub.of_eq rfl | exact Sub.mono (by assumption) rfl) : Does msk s0 (actDraw s n w refs) := by
  delta actDraw
  repeat' first
    | with_reducible assumption
    | (extract_lets -underBinder +onlyGivenNames x; refine does_cut (msk := msk) (s0 := s0) (x := x) ?_ fun _ => ?_; rotate_left; clear_value x; revert x; intro _ _; rotate_left; subst x)
    | (extract_lets -underBinder +onlyGivenNames x; clear_value x; revert x; intro _)
    | with_reducible apply does_violation
    | with_reducible apply does_markJob
    | with_reducible apply does_pastCmd
    | with_reducible apply does_updPass
    | with_reducible apply Does.ifte
    | split
    | exact Sub.mono hT rfl
    | exact hT _ rfl
    | intro _

theorem does_execDraw (n : Slot) (s : State) {s0 : State} {msk : Nat} (hk : Does msk s0 s)
    (hT : Sub 0x401e000002c0 msk := by first | exact Sub.of_eq rfl | exact Sub.mono (by assumption) rfl) : DoesOut msk s0 (execDraw n s) := by
  delta execDraw
  repeat' first
    | with_reducible assumption
    | with_reducible apply does_decodeCmd
    | with_reducible apply does_actDraw
    | with_reducible apply DoesOut.next
    | with_reducible apply DoesOut.ifte
    | with_reducible apply Does.ifte
    | with_reducible apply Does.ifte_fst
    | with_reducible apply Does.ifte_snd
    | split
    | exact Sub.mono hT rfl
    | exact hT _ rfl
    | intro _

theorem does_binBatch (s : State) (p : Nat) (k : Nat) (a : Nat) (x : Pass) (outs : List (Nat × List Word)) {s0 : State} {msk : Nat} (hk : Does msk s0 s)
    (hT : Sub 0xc01000028ac0 msk := by first | exact Sub.of_eq rfl | exact Sub.mono (by assumption) rfl) : Does msk s0 (binBatch s p k a x outs) := by
  delta binBatch
  repeat' first
    | with_reducible assumption
    | (extract_lets -underBinder +onlyGivenNames x; refine does_cut (msk := msk) (s0 := s0) (x := x) ?_ fun _ => ?_; rotate_left; clear_value x; revert x; intro _ _; rotate_left; subst x)
    | (extract_lets -underBinder +onlyGivenNames x; clear_value x; revert x; intro _)
    | with_reducible apply does_bump
    | with_reducible apply does_violation
    | with_reducible apply does_markJob
    | with_reducible apply does_resumeTimer
    | with_reducible apply does_updSorter
    | with_reducible apply does_resumeSorters
    | with_reducible apply Does.ifte
    | split
    | with_reducible apply Does.updGeoTurn
    | exact Sub.mono hT rfl
    | exact hT _ rfl
    | intro _

theorem does_startPartial (s : State) (p : Nat) (round : Bool) {s0 : State} {msk : Nat} (hk : Does msk s0 s)
    (hT : Sub 0x4010000002c0 msk := by first | exact Sub.of_eq rfl | exact Sub.mono (by assumption) rfl) : Does msk s0 (startPartial s p round) := by
  delta startPartial
  repeat' first
    | with_reducible assumption
    | (extract_lets -underBinder +onlyGivenNames x; refine does_cut (msk := msk) (s0 := s0) (x := x) ?_ fun _ => ?_; rotate_left; clear_value x; revert x; intro _ _; rotate_left; subst x)
    | (extract_lets -underBinder +onlyGivenNames x; clear_value x; revert x; intro _)
    | with_reducible apply does_append
    | with_reducible apply does_markJob
    | with_reducible apply does_updPass
    | with_reducible apply does_passRegs
    | with_reducible apply Does.ifte
    | split
    | exact Sub.mono hT rfl
    | exact hT _ rfl
    | intro _

theorem does_execGeometryBatch (p : Part) (k : Sector) (outs : List (Nat × List Word)) (s : State) {s0 : State} {msk : Nat} (hk : Does msk s0 s)
    (hT : Sub 0xc01000028ac0 msk := by first | exact Sub.of_eq rfl | exact Sub.mono (by assumption) rfl) : DoesOut msk s0 (execGeometryBatch p k outs s) := by
  delta execGeometryBatch
  repeat' first
    | with_reducible assumption
    | with_reducible apply does_binBatch
    | with_reducible apply does_startPartial
    | with_reducible apply DoesOut.next
    | with_reducible apply DoesOut.ifte
    | with_reducible apply Does.ifte
    | with_reducible apply Does.ifte_fst
    | with_reducible apply Does.ifte_snd
    | split
    | exact Sub.mono hT rfl
    | exact hT _ rfl
    | intro _

theorem does_declineBins (s : State) (p : Nat) {s0 : State} {msk : Nat} (hk : Does msk s0 s)
    (hT : Sub 0x4010000002c0 msk := by first | exact Sub.of_eq rfl | exact Sub.mono (by assumption) rfl) : Does msk s0 (declineBins s p) := by
  delta declineBins
  repeat' first
    | with_reducible assumption
    | with_reducible apply does_markJob
    | with_reducible apply does_startPartial
    | with_reducible apply Does.ifte
    | split
    | exact Sub.mono hT rfl
    | exact hT _ rfl
    | intro _

theorem does_answerBins (s : State) (p : Nat) (passId : Nat) (count : Nat) (r : List PoolRange) {s0 : State} {msk : Nat} (hk : Does msk s0 s)
    (hT : Sub 0x401000028ac0 msk := by first | exact Sub.of_eq rfl | exact Sub.mono (by assumption) rfl) : Does msk s0 (answerBins s p passId count r) := by
  delta answerBins
  repeat' first
    | with_reducible assumption
    | (extract_lets -underBinder +onlyGivenNames x; refine does_cut (msk := msk) (s0 := s0) (x := x) ?_ fun _ => ?_; rotate_left; clear_value x; revert x; intro _ _; rotate_left; subst x)
    | (extract_lets -underBinder +onlyGivenNames x; clear_value x; revert x; intro _)
    | with_reducible apply does_updPass
    | with_reducible apply does_passRegs
    | with_reducible apply does_resumeSorters
    | with_reducible apply does_declineBins
    | with_reducible apply Does.ifte
    | split
    | exact Sub.mono hT rfl
    | exact hT _ rfl
    | intro _

theorem does_actGrowBins (s : State) (n : Nat) (w : List Nat) (refs : List Ref) {s0 : State} {msk : Nat} (hk : Does msk s0 s)
    (hT : Sub 0x401600028ac0 msk := by first | exact Sub.of_eq rfl | exact Sub.mono (by assumption) rfl) : Does msk s0 (actGrowBins s n w refs) := by
  delta actGrowBins
  repeat' first
    | with_reducible assumption
    | (extract_lets -underBinder +onlyGivenNames x; refine does_cut (msk := msk) (s0 := s0) (x := x) ?_ fun _ => ?_; rotate_left; clear_value x; revert x; intro _ _; rotate_left; subst x)
    | (extract_lets -underBinder +onlyGivenNames x; clear_value x; revert x; intro _)
    | with_reducible apply does_instantJob
    | with_reducible apply does_beginAt
    | with_reducible apply does_answerBins
    | with_reducible apply Does.ifte
    | split
    | exact Sub.mono hT rfl
    | exact hT _ rfl
    | intro _

theorem does_execGrowBins (n : Slot) (s : State) {s0 : State} {msk : Nat} (hk : Does msk s0 s)
    (hT : Sub 0x401e00028ac0 msk := by first | exact Sub.of_eq rfl | exact Sub.mono (by assumption) rfl) : DoesOut msk s0 (execGrowBins n s) := by
  delta execGrowBins
  repeat' first
    | with_reducible assumption
    | with_reducible apply does_decodeCmd
    | with_reducible apply does_actGrowBins
    | with_reducible apply DoesOut.next
    | with_reducible apply DoesOut.ifte
    | with_reducible apply Does.ifte
    | with_reducible apply Does.ifte_fst
    | with_reducible apply Does.ifte_snd
    | split
    | exact Sub.mono hT rfl
    | exact hT _ rfl
    | intro _

theorem does_growCntWrite (s : State) (p : Nat) (v : Nat) {s0 : State} {msk : Nat} (hk : Does msk s0 s)
    (hT : Sub 0x401000028ac0 msk := by first | exact Sub.of_eq rfl | exact Sub.mono (by assumption) rfl) : Does msk s0 (growCntWrite s p v) := by
  delta growCntWrite
  repeat' first
    | with_reducible assumption
    | (extract_lets -underBinder +onlyGivenNames x; refine does_cut (msk := msk) (s0 := s0) (x := x) ?_ fun _ => ?_; rotate_left; clear_value x; revert x; intro _ _; rotate_left; subst x)
    | (extract_lets -underBinder +onlyGivenNames x; clear_value x; revert x; intro _)
    | with_reducible apply does_answerBins
    | with_reducible apply Does.ifte
    | split
    | exact Sub.mono hT rfl
    | exact hT _ rfl
    | intro _

theorem does_execSecPassGrowCntWrite (fn : Part) (p : Part) (v : Word) (s : State) {s0 : State} {msk : Nat} (hk : Does msk s0 s)
    (hT : Sub 0x401000028ac0 msk := by first | exact Sub.of_eq rfl | exact Sub.mono (by assumption) rfl) : DoesOut msk s0 (execSecPassGrowCntWrite fn p v s) := by
  delta execSecPassGrowCntWrite
  repeat' first
    | with_reducible assumption
    | with_reducible apply does_growCntWrite
    | with_reducible apply DoesOut.next
    | with_reducible apply DoesOut.ifte
    | with_reducible apply Does.ifte
    | with_reducible apply Does.ifte_fst
    | with_reducible apply Does.ifte_snd
    | split
    | exact Sub.mono hT rfl
    | exact hT _ rfl
    | intro _

theorem does_execBinWaitExpiry (p : Part) (s : State) {s0 : State} {msk : Nat} (hk : Does msk s0 s)
    (hT : Sub 0x4010000002c0 msk := by first | exact Sub.of_eq rfl | exact Sub.mono (by assumption) rfl) : DoesOut msk s0 (execBinWaitExpiry p s) := by
  delta execBinWaitExpiry
  repeat' first
    | with_reducible assumption
    | (extract_lets -underBinder +onlyGivenNames x; refine does_cut (msk := msk) (s0 := s0) (x := x) ?_ fun _ => ?_; rotate_left; clear_value x; revert x; intro _ _; rotate_left; subst x)
    | (extract_lets -underBinder +onlyGivenNames x; clear_value x; revert x; intro _)
    | with_reducible apply does_declineBins
    | with_reducible apply DoesOut.next
    | with_reducible apply DoesOut.ifte
    | with_reducible apply Does.ifte
    | with_reducible apply Does.ifte_fst
    | with_reducible apply Does.ifte_snd
    | split
    | exact Sub.mono hT rfl
    | exact hT _ rfl
    | intro _

theorem does_surfWrite (p : Pass) (e : Nat) (r : Ref) (s : State) (x : Nat × List Byte) {s0 : State} {msk : Nat} (hk : Does msk s0 s)
    (hT : Sub 0x1000028ac0 msk := by first | exact Sub.of_eq rfl | exact Sub.mono (by assumption) rfl) : Does msk s0 (surfWrite p e r s x) := by
  delta surfWrite
  repeat' first
    | with_reducible assumption
    | with_reducible apply does_passWrite
    | with_reducible apply Does.ifte
    | with_reducible apply Does.ifte_fst
    | with_reducible apply Does.ifte_snd
    | split
    | exact Sub.mono hT rfl
    | exact hT _ rfl
    | intro _

theorem does_storePlane (s : State) (p : Pass) (e : Nat) (l : Nat) (a : Nat) (f : Nat → Nat) {s0 : State} {msk : Nat} (hk : Does msk s0 s)
    (hT : Sub 0x1000028ac0 msk := by first | exact Sub.of_eq rfl | exact Sub.mono (by assumption) rfl) : Does msk s0 (storePlane s p e l a f) := by
  delta storePlane
  repeat' first
    | with_reducible assumption
    | (extract_lets -underBinder +onlyGivenNames x; refine does_cut (msk := msk) (s0 := s0) (x := x) ?_ fun _ => ?_; rotate_left; clear_value x; revert x; intro _ _; rotate_left; subst x)
    | (extract_lets -underBinder +onlyGivenNames x; clear_value x; revert x; intro _)
    | with_reducible apply does_surfWrite
    | with_reducible apply does_foldl
    | with_reducible apply Does.ifte
    | split
    | exact Sub.mono hT rfl
    | exact hT _ rfl
    | intro _

theorem does_resolvePlane (s : State) (p : Pass) (e : Nat) (l : Nat) (a : Nat) (f : Nat → Nat) {s0 : State} {msk : Nat} (hk : Does msk s0 s)
    (hT : Sub 0x1000028ac0 msk := by first | exact Sub.of_eq rfl | exact Sub.mono (by assumption) rfl) : Does msk s0 (resolvePlane s p e l a f) := by
  delta resolvePlane
  repeat' first
    | with_reducible assumption
    | (extract_lets -underBinder +onlyGivenNames x; refine does_cut (msk := msk) (s0 := s0) (x := x) ?_ fun _ => ?_; rotate_left; clear_value x; revert x; intro _ _; rotate_left; subst x)
    | (extract_lets -underBinder +onlyGivenNames x; clear_value x; revert x; intro _)
    | with_reducible apply does_surfWrite
    | with_reducible apply does_foldl
    | with_reducible apply Does.ifte
    | split
    | exact Sub.mono hT rfl
    | exact hT _ rfl
    | intro _

theorem does_storeLast (p : Pass) (e : Nat) (l : Nat) (b : Bin) (s : State) (a : Nat) {s0 : State} {msk : Nat} (hk : Does msk s0 s)
    (hT : Sub 0x1000028ac0 msk := by first | exact Sub.of_eq rfl | exact Sub.mono (by assumption) rfl) : Does msk s0 (storeLast p e l b s a) := by
  delta storeLast
  repeat' first
    | with_reducible assumption
    | (extract_lets -underBinder +onlyGivenNames x; refine does_cut (msk := msk) (s0 := s0) (x := x) ?_ fun _ => ?_; rotate_left; clear_value x; revert x; intro _ _; rotate_left; subst x)
    | (extract_lets -underBinder +onlyGivenNames x; clear_value x; revert x; intro _)
    | with_reducible apply does_storePlane
    | with_reducible apply does_resolvePlane
    | with_reducible apply does_visit
    | with_reducible apply Does.ifte
    | split
    | exact Sub.mono hT rfl
    | exact hT _ rfl
    | intro _

theorem does_storeMore (p : Pass) (e : Nat) (l : Nat) (b : Bin) (s : State) (a : Nat) {s0 : State} {msk : Nat} (hk : Does msk s0 s)
    (hT : Sub 0x401000038ae0 msk := by first | exact Sub.of_eq rfl | exact Sub.mono (by assumption) rfl) : Does msk s0 (storeMore p e l b s a) := by
  delta storeMore
  repeat' first
    | with_reducible assumption
    | (extract_lets -underBinder +onlyGivenNames x; refine does_cut (msk := msk) (s0 := s0) (x := x) ?_ fun _ => ?_; rotate_left; clear_value x; revert x; intro _ _; rotate_left; subst x)
    | (extract_lets -underBinder +onlyGivenNames x; clear_value x; revert x; intro _)
    | with_reducible apply does_updPass
    | with_reducible apply does_storePlane
    | with_reducible apply does_visit
    | with_reducible apply Does.ifte
    | split
    | with_reducible apply Does.updFreshTile
    | exact fun x => x
    | exact Mem.wf_writeBytes _ _ _
    | exact Mem.wf_writeNat _ _ _ _
    | exact Mem.wf_blank _ _ _ _
    | exact Mem.wf_write _ _ _
    | exact tabWf_filter _ _
    | exact tabWf_put _ _ _
    | exact tabWf_drop _ _
    | exact Sub.mono hT rfl
    | exact hT _ rfl
    | intro _

theorem does_visit (s : State) (p : Pass) (e : Nat) (l : Nat) (px : List PxOut) {s0 : State} {msk : Nat} (hk : Does msk s0 s)
    (hT : Sub 0x401000038ae0 msk := by first | exact Sub.of_eq rfl | exact Sub.mono (by assumption) rfl) : Does msk s0 (visit s p e l px) := by
  delta visit
  repeat' first
    | with_reducible assumption
    | (extract_lets -underBinder +onlyGivenNames x; refine does_cut (msk := msk) (s0 := s0) (x := x) ?_ fun _ => ?_; rotate_left; clear_value x; revert x; intro _ _; rotate_left; subst x)
    | (extract_lets -underBinder +onlyGivenNames x; clear_value x; revert x; intro _)
    | with_reducible apply does_updPass
    | with_reducible apply does_resumeTimer
    | with_reducible apply does_storeLast
    | with_reducible apply does_storeMore
    | with_reducible apply does_foldl
    | with_reducible apply Does.ifte
    | split
    | with_reducible apply Does.updFresh
    | exact Sub.mono hT rfl
    | exact hT _ rfl
    | intro _

theorem does_enterFinal (s : State) (p : Nat) {s0 : State} {msk : Nat} (hk : Does msk s0 s)
    (hT : Sub 0x400000000000 msk := by first | exact Sub.of_eq rfl | exact Sub.mono (by assumption) rfl) : Does msk s0 (enterFinal s p) := by
  delta enterFinal
  repeat' first
    | with_reducible assumption
    | with_reducible apply does_updPass
    | with_reducible apply Does.ifte
    | split
    | exact Sub.mono hT rfl
    | exact hT _ rfl
    | intro _

theorem does_execTileVisit (e : Eng) (px : List PxOut) (s : State) {s0 : State} {msk : Nat} (hk : Does msk s0 s)
    (hT : Sub 0x4c1000038ae0 msk := by first | exact Sub.of_eq rfl | exact Sub.mono (by assumption) rfl) : DoesOut msk s0 (execTileVisit e px s) := by
  delta execTileVisit
  repeat' first
    | with_reducible assumption
    | (extract_lets -underBinder +onlyGivenNames x; refine does_cut (msk := msk) (s0 := s0) (x := x) ?_ fun _ => ?_; rotate_left; clear_value x; revert x; intro _ _; rotate_left; subst x)
    | (extract_lets -underBinder +onlyGivenNames x; clear_value x; revert x; intro _)
    | with_reducible apply does_preempt
    | with_reducible apply does_visit
    | with_reducible apply does_enterFinal
    | with_reducible apply DoesOut.next
    | with_reducible apply DoesOut.ifte
    | with_reducible apply Does.ifte
    | with_reducible apply Does.ifte_fst
    | with_reducible apply Does.ifte_snd
    | split
    | exact Sub.mono hT rfl
    | exact hT _ rfl
    | intro _

theorem does_execPartialRenderDone (p : Part) (s : State) {s0 : State} {msk : Nat} (hk : Does msk s0 s)
    (hT : Sub 0x401000028ac0 msk := by first | exact Sub.of_eq rfl | exact Sub.mono (by assumption) rfl) : DoesOut msk s0 (execPartialRenderDone p s) := by
  delta execPartialRenderDone
  repeat' first
    | with_reducible assumption
    | (extract_lets -underBinder +onlyGivenNames x; refine does_cut (msk := msk) (s0 := s0) (x := x) ?_ fun _ => ?_; rotate_left; clear_value x; revert x; intro _ _; rotate_left; subst x)
    | (extract_lets -underBinder +onlyGivenNames x; clear_value x; revert x; intro _)
    | with_reducible apply does_bumpSat
    | with_reducible apply does_updPass
    | with_reducible apply does_passRegs
    | with_reducible apply does_resumeSorters
    | with_reducible apply DoesOut.next
    | with_reducible apply DoesOut.ifte
    | with_reducible apply Does.ifte
    | with_reducible apply Does.ifte_fst
    | with_reducible apply Does.ifte_snd
    | split
    | exact Sub.mono hT rfl
    | exact hT _ rfl
    | intro _

theorem does_closePass (s : State) (x : Pass) {s0 : State} {msk : Nat} (hk : Does msk s0 s)
    (hT : Sub 0x4c0000000040 msk := by first | exact Sub.of_eq rfl | exact Sub.mono (by assumption) rfl) : Does msk s0 (closePass s x) := by
  delta closePass
  repeat' first
    | with_reducible assumption
    | (extract_lets -underBinder +onlyGivenNames x; refine does_cut (msk := msk) (s0 := s0) (x := x) ?_ fun _ => ?_; rotate_left; clear_value x; revert x; intro _ _; rotate_left; subst x)
    | (extract_lets -underBinder +onlyGivenNames x; clear_value x; revert x; intro _)
    | with_reducible apply does_passRegs
    | with_reducible apply Does.ifte
    | split
    | with_reducible apply Does.updPresXfersPasses
    | exact Sub.mono hT rfl
    | exact hT _ rfl
    | intro _

theorem does_endStoppedPass (s : State) (x : Pass) {s0 : State} {msk : Nat} (hk : Does msk s0 s)
    (hT : Sub 0x4c12000002c0 msk := by first | exact Sub.of_eq rfl | exact Sub.mono (by assumption) rfl) : Does msk s0 (endStoppedPass s x) := by
  delta endStoppedPass
  repeat' first
    | with_reducible assumption
    | (extract_lets -underBinder +onlyGivenNames x; refine does_cut (msk := msk) (s0 := s0) (x := x) ?_ fun _ => ?_; rotate_left; clear_value x; revert x; intro _ _; rotate_left; subst x)
    | (extract_lets -underBinder +onlyGivenNames x; clear_value x; revert x; intro _)
    | with_reducible apply does_endJob
    | with_reducible apply does_failJob
    | with_reducible apply does_stopJob
    | with_reducible apply does_closePass
    | with_reducible apply Does.ifte
    | split
    | exact Sub.mono hT rfl
    | exact hT _ rfl
    | intro _

theorem does_execPassComplete (p : Part) (s : State) {s0 : State} {msk : Nat} (hk : Does msk s0 s)
    (hT : Sub 0x4c12000002c0 msk := by first | exact Sub.of_eq rfl | exact Sub.mono (by assumption) rfl) : DoesOut msk s0 (execPassComplete p s) := by
  delta execPassComplete
  repeat' first
    | with_reducible assumption
    | (extract_lets -underBinder +onlyGivenNames x; refine does_cut (msk := msk) (s0 := s0) (x := x) ?_ fun _ => ?_; rotate_left; clear_value x; revert x; intro _ _; rotate_left; subst x)
    | (extract_lets -underBinder +onlyGivenNames x; clear_value x; revert x; intro _)
    | with_reducible apply does_append
    | with_reducible apply does_endJob
    | with_reducible apply does_restoreScan
    | with_reducible apply does_rebindIdle
    | with_reducible apply does_visit
    | with_reducible apply does_enterFinal
    | with_reducible apply does_closePass
    | with_reducible apply does_endStoppedPass
    | with_reducible apply DoesOut.next
    | with_reducible apply DoesOut.ifte
    | with_reducible apply Does.ifte
    | with_reducible apply Does.ifte_fst
    | with_reducible apply Does.ifte_snd
    | split
    | exact Sub.mono hT rfl
    | exact hT _ rfl
    | intro _

theorem does_passEngineLost (s : State) (e : Nat) {s0 : State} {msk : Nat} (hk : Does msk s0 s)
    (hT : Sub 0x401000000040 msk := by first | exact Sub.of_eq rfl | exact Sub.mono (by assumption) rfl) : Does msk s0 (passEngineLost s e) := by
  delta passEngineLost
  repeat' first
    | with_reducible assumption
    | (extract_lets -underBinder +onlyGivenNames x; refine does_cut (msk := msk) (s0 := s0) (x := x) ?_ fun _ => ?_; rotate_left; clear_value x; revert x; intro _ _; rotate_left; subst x)
    | (extract_lets -underBinder +onlyGivenNames x; clear_value x; revert x; intro _)
    | with_reducible apply does_markJob
    | with_reducible apply does_updPass
    | with_reducible apply does_passRegs
    | with_reducible apply Does.ifte
    | split
    | exact Sub.mono hT rfl
    | exact hT _ rfl
    | intro _

end Sys2Proof.Machine
end

