-- ==== Sys2Proof/Laws/Does/Copy.lean ====
section
/-!
SUPPORT. What every function of Machine/Copy.lean does: it keeps the queue and the invariant, and changes
no field of the state outside the set its lemma names.
-/
set_option linter.unreachableTactic false
set_option linter.unusedTactic false

namespace Sys2Proof.Machine

set_option Elab.async false

theorem does_placeWrite (s : State) (tag : Nat) (p : Place) (data : List Byte) {s0 : State} {msk : Nat} (hk : Does msk s0 s)
    (hT : Sub 0x38800 msk := by first | exact Sub.of_eq rfl | exact Sub.mono (by assumption) rfl) : Does msk s0 (placeWrite s tag p data) := by
  delta placeWrite
  repeat' first
    | with_reducible assumption
    | with_reducible apply does_devWrite
    | with_reducible apply Does.ifte
    | split
    | with_reducible apply Does.updTile
    | exact fun x => x
    | exact Mem.wf_writeBytes _ _ _
    | exact Mem.wf_writeNat _ _ _ _
    | exact Mem.wf_blank _ _ _ _
    | exact Mem.wf_write _ _ _
    | exact tabWf_filter _ _
    | exact tabWf_put _ _ _
    | exact tabWf_drop _ _
    | exact Sub.mono hT rfl
    | exact hT _ rfl
    | intro _

theorem does_placeEcc (s : State) (p : Place) (k : Nat) (w : Who) (ecc : Ecc) {s0 : State} {msk : Nat} (hk : Does msk s0 s)
    (hT : Sub 0x124f12200402c0 msk := by first | exact Sub.of_eq rfl | exact Sub.mono (by assumption) rfl) : Does msk s0 (placeEcc s p k w ecc) := by
  delta placeEcc
  repeat' first
    | with_reducible assumption
    | with_reducible apply does_mcEcc
    | with_reducible apply does_tmEcc
    | with_reducible apply Does.ifte
    | split
    | exact Sub.mono hT rfl
    | exact hT _ rfl
    | intro _

theorem does_beginCopy (s : State) (n : Nat) (w : List Nat) (refs : List Ref) {s0 : State} {msk : Nat} (hk : Does msk s0 s)
    (hT : Sub 0x72000002c0 msk := by first | exact Sub.of_eq rfl | exact Sub.mono (by assumption) rfl) : Does msk s0 (beginCopy s n w refs) := by
  delta beginCopy
  repeat' first
    | with_reducible assumption
    | (extract_lets -underBinder +onlyGivenNames x; refine does_cut (msk := msk) (s0 := s0) (x := x) ?_ fun _ => ?_; rotate_left; clear_value x; revert x; intro _ _; rotate_left; subst x)
    | (extract_lets -underBinder +onlyGivenNames x; clear_value x; revert x; intro _)
    | with_reducible apply does_localViolation
    | with_reducible apply does_instantJob
    | with_reducible apply does_startJob
    | with_reducible apply Does.ifte
    | split
    | with_reducible apply Does.updCopies
    | exact Sub.mono hT rfl
    | exact hT _ rfl
    | intro _

theorem does_actCopy (s : State) (n : Nat) (w : List Nat) (refs : List Ref) {s0 : State} {msk : Nat} (hk : Does msk s0 s)
    (hT : Sub 0x76000002c0 msk := by first | exact Sub.of_eq rfl | exact Sub.mono (by assumption) rfl) : Does msk s0 (actCopy s n w refs) := by
  delta actCopy
  repeat' first
    | with_reducible assumption
    | with_reducible apply does_startOr
    | with_reducible apply does_beginCopy
    | with_reducible apply Does.ifte
    | split
    | exact Sub.mono hT rfl
    | exact hT _ rfl
    | intro _

theorem does_execCopy (n : Slot) (s : State) {s0 : State} {msk : Nat} (hk : Does msk s0 s)
    (hT : Sub 0x7e000002c0 msk := by first | exact Sub.of_eq rfl | exact Sub.mono (by assumption) rfl) : DoesOut msk s0 (execCopy n s) := by
  delta execCopy
  repeat' first
    | with_reducible assumption
    | with_reducible apply does_decodeCmd
    | with_reducible apply does_actCopy
    | with_reducible apply DoesOut.next
    | with_reducible apply DoesOut.ifte
    | with_reducible apply Does.ifte
    | with_reducible apply Does.ifte_fst
    | with_reducible apply Does.ifte_snd
    | split
    | exact Sub.mono hT rfl
    | exact hT _ rfl
    | intro _

theorem does_execCopyChannelStart (s : State) {s0 : State} {msk : Nat} (hk : Does msk s0 s)
    (hT : Sub 0x4000000000 msk := by first | exact Sub.of_eq rfl | exact Sub.mono (by assumption) rfl) : DoesOut msk s0 (execCopyChannelStart s) := by
  delta execCopyChannelStart
  repeat' first
    | with_reducible assumption
    | with_reducible apply does_free
    | with_reducible apply DoesOut.next
    | with_reducible apply DoesOut.ifte
    | with_reducible apply Does.ifte
    | with_reducible apply Does.ifte_fst
    | with_reducible apply Does.ifte_snd
    | split
    | with_reducible apply Does.updCopies
    | exact Sub.mono hT rfl
    | exact hT _ rfl
    | intro _

theorem does_copyLen (s : State) (c : CopyJob) {s0 : State} {msk : Nat} (hk : Does msk s0 s)
    (hT : Sub 0x20 msk := by first | exact Sub.of_eq rfl | exact Sub.mono (by assumption) rfl) : Does msk s0 (copyLen s c).2 := by
  delta copyLen
  repeat' first
    | with_reducible assumption
    | (extract_lets -underBinder +onlyGivenNames x; refine does_cut (msk := msk) (s0 := s0) (x := x) ?_ fun _ => ?_; rotate_left; clear_value x; revert x; intro _ _; rotate_left; subst x)
    | (extract_lets -underBinder +onlyGivenNames x; refine does_cut (msk := msk) (s0 := s0) (x := x.1) ?_ fun _ => ?_; rotate_left; clear_value x; revert x; intro _ _; rotate_left; subst x)
    | (extract_lets -underBinder +onlyGivenNames x; refine does_cut (msk := msk) (s0 := s0) (x := x.2) ?_ fun _ => ?_; rotate_left; clear_value x; revert x; intro _ _; rotate_left; subst x)
    | (extract_lets -underBinder +onlyGivenNames x; clear_value x; revert x; intro _)
    | with_reducible apply does_free
    | with_reducible apply Does.ifte
    | with_reducible apply Does.ifte_fst
    | with_reducible apply Does.ifte_snd
    | split
    | exact Sub.mono hT rfl
    | exact hT _ rfl
    | intro _

theorem does_copyEnd (s : State) (c : CopyJob) (k : Nat) (pos : Nat) (ecc : Ecc) {s0 : State} {msk : Nat} (hk : Does msk s0 s)
    (hT : Sub 0x124f5220078ae0 msk := by first | exact Sub.of_eq rfl | exact Sub.mono (by assumption) rfl) : Does msk s0 (copyEnd s c k pos ecc) := by
  delta copyEnd
  repeat' first
    | with_reducible assumption
    | (extract_lets -underBinder +onlyGivenNames x; refine does_cut (msk := msk) (s0 := s0) (x := x) ?_ fun _ => ?_; rotate_left; clear_value x; revert x; intro _ _; rotate_left; subst x)
    | (extract_lets -underBinder +onlyGivenNames x; refine does_cut (msk := msk) (s0 := s0) (x := x.1) ?_ fun _ => ?_; rotate_left; clear_value x; revert x; intro _ _; rotate_left; subst x)
    | (extract_lets -underBinder +onlyGivenNames x; refine does_cut (msk := msk) (s0 := s0) (x := x.2) ?_ fun _ => ?_; rotate_left; clear_value x; revert x; intro _ _; rotate_left; subst x)
    | (extract_lets -underBinder +onlyGivenNames x; clear_value x; revert x; intro _)
    | with_reducible apply does_violation
    | with_reducible apply does_endJob
    | with_reducible apply does_jobRecord
    | with_reducible apply does_stopJob
    | with_reducible apply does_placeWrite
    | with_reducible apply does_placeEcc
    | with_reducible apply does_copyLen
    | with_reducible apply Does.ifte
    | with_reducible apply Does.ifte_fst
    | with_reducible apply Does.ifte_snd
    | split
    | with_reducible apply Does.updCopies
    | exact Sub.mono hT rfl
    | exact hT _ rfl
    | intro _

theorem does_execCopyComplete (k : Fin 4) (pos : Nat) (ecc : Ecc) (s : State) {s0 : State} {msk : Nat} (hk : Does msk s0 s)
    (hT : Sub 0x124f5220078ae0 msk := by first | exact Sub.of_eq rfl | exact Sub.mono (by assumption) rfl) : DoesOut msk s0 (execCopyComplete k pos ecc s) := by
  delta execCopyComplete
  repeat' first
    | with_reducible assumption
    | with_reducible apply does_copyEnd
    | with_reducible apply DoesOut.next
    | with_reducible apply DoesOut.ifte
    | with_reducible apply Does.ifte
    | with_reducible apply Does.ifte_fst
    | with_reducible apply Does.ifte_snd
    | split
    | exact Sub.mono hT rfl
    | exact hT _ rfl
    | intro _

end Sys2Proof.Machine
end

