-- ==== Sys2Proof/Laws/Does/Cmds.lean ====
section
/-!
SUPPORT. What every function of Machine/Cmds.lean does: it keeps the queue and the invariant, and changes
no field of the state outside the set its lemma names.
-/
set_option linter.unreachableTactic false
set_option linter.unusedTactic false

namespace Sys2Proof.Machine

set_option Elab.async false

theorem does_actWriteReg {msk : Nat} (s : State) (n : Nat) (w : List Nat) (refs : List Ref) {s0 : State} (h : Does msk s0 s)
    (hT : Sub 0x401600028ac0 msk := by first | exact Sub.of_eq rfl | exact Sub.mono (by assumption) rfl) :
    Does msk s0 (actWriteReg s n w refs) := by
  unfold actWriteReg
  extract_lets -underBinder s1
  have h1 : Does msk s0 s1 := does_beginAt _ _ _ h
  clear_value s1
  refine does_instantJob _ _ _ ?_
  rename_i q p v put s2
  unfold s2 put
  split
  · exact does_wr _ _ _ h1
  · exact does_wr _ _ _ h1
  · exact does_growCntWrite _ _ _ h1
  · exact does_wr _ _ _ h1
  · exact h1

theorem does_execWriteReg (n : Slot) (s : State) {s0 : State} {msk : Nat} (hk : Does msk s0 s)
    (hT : Sub 0x401e00028ac0 msk := by first | exact Sub.of_eq rfl | exact Sub.mono (by assumption) rfl) : DoesOut msk s0 (execWriteReg n s) := by
  delta execWriteReg
  repeat' first
    | with_reducible assumption
    | with_reducible apply does_decodeCmd
    | with_reducible apply does_actWriteReg
    | with_reducible apply DoesOut.next
    | with_reducible apply DoesOut.ifte
    | with_reducible apply Does.ifte
    | with_reducible apply Does.ifte_fst
    | with_reducible apply Does.ifte_snd
    | split
    | exact Sub.mono hT rfl
    | exact hT _ rfl
    | intro _

theorem does_beginSetContext (s : State) (n : Nat) (w : List Nat) (_refs : List Ref) {s0 : State} {msk : Nat} (hk : Does msk s0 s)
    (hT : Sub 0x600000000 msk := by first | exact Sub.of_eq rfl | exact Sub.mono (by assumption) rfl) : Does msk s0 (beginSetContext s n w _refs) := by
  delta beginSetContext
  repeat' first
    | with_reducible assumption
    | (extract_lets -underBinder +onlyGivenNames x; refine does_cut (msk := msk) (s0 := s0) (x := x) ?_ fun _ => ?_; rotate_left; clear_value x; revert x; intro _ _; rotate_left; subst x)
    | (extract_lets -underBinder +onlyGivenNames x; clear_value x; revert x; intro _)
    | with_reducible apply does_setSlot
    | with_reducible apply does_instantJob
    | with_reducible apply Does.ifte
    | split
    | exact Sub.mono hT rfl
    | exact hT _ rfl
    | intro _

theorem does_actSetContext (s : State) (n : Nat) (w : List Nat) (refs : List Ref) {s0 : State} {msk : Nat} (hk : Does msk s0 s)
    (hT : Sub 0x600000000 msk := by first | exact Sub.of_eq rfl | exact Sub.mono (by assumption) rfl) : Does msk s0 (actSetContext s n w refs) := by
  delta actSetContext
  repeat' first
    | with_reducible assumption
    | with_reducible apply does_startOr
    | with_reducible apply does_beginSetContext
    | with_reducible apply Does.ifte
    | split
    | exact Sub.mono hT rfl
    | exact hT _ rfl
    | intro _

theorem does_execSetContext (n : Slot) (s : State) {s0 : State} {msk : Nat} (hk : Does msk s0 s)
    (hT : Sub 0x1e000002c0 msk := by first | exact Sub.of_eq rfl | exact Sub.mono (by assumption) rfl) : DoesOut msk s0 (execSetContext n s) := by
  delta execSetContext
  repeat' first
    | with_reducible assumption
    | with_reducible apply does_decodeCmd
    | with_reducible apply does_actSetContext
    | with_reducible apply DoesOut.next
    | with_reducible apply DoesOut.ifte
    | with_reducible apply Does.ifte
    | with_reducible apply Does.ifte_fst
    | with_reducible apply Does.ifte_snd
    | split
    | exact Sub.mono hT rfl
    | exact hT _ rfl
    | intro _

theorem does_beginLoadTable (s : State) (n : Nat) (w : List Nat) (_refs : List Ref) {s0 : State} {msk : Nat} (hk : Does msk s0 s)
    (hT : Sub 0x3600000280 msk := by first | exact Sub.of_eq rfl | exact Sub.mono (by assumption) rfl) : Does msk s0 (beginLoadTable s n w _refs) := by
  delta beginLoadTable
  repeat' first
    | with_reducible assumption
    | (extract_lets -underBinder +onlyGivenNames x; refine does_cut (msk := msk) (s0 := s0) (x := x) ?_ fun _ => ?_; rotate_left; clear_value x; revert x; intro _ _; rotate_left; subst x)
    | (extract_lets -underBinder +onlyGivenNames x; clear_value x; revert x; intro _)
    | with_reducible apply does_setSlot
    | with_reducible apply does_startJob
    | with_reducible apply does_failInstant
    | with_reducible apply Does.ifte
    | split
    | exact Sub.mono hT rfl
    | exact hT _ rfl
    | intro _

theorem does_actLoadTable (s : State) (n : Nat) (w : List Nat) (refs : List Ref) {s0 : State} {msk : Nat} (hk : Does msk s0 s)
    (hT : Sub 0x3600000280 msk := by first | exact Sub.of_eq rfl | exact Sub.mono (by assumption) rfl) : Does msk s0 (actLoadTable s n w refs) := by
  delta actLoadTable
  repeat' first
    | with_reducible assumption
    | with_reducible apply does_startOr
    | with_reducible apply does_beginLoadTable
    | with_reducible apply Does.ifte
    | split
    | exact Sub.mono hT rfl
    | exact hT _ rfl
    | intro _

theorem does_execLoadHandleTable (n : Slot) (s : State) {s0 : State} {msk : Nat} (hk : Does msk s0 s)
    (hT : Sub 0x3e000002c0 msk := by first | exact Sub.of_eq rfl | exact Sub.mono (by assumption) rfl) : DoesOut msk s0 (execLoadHandleTable n s) := by
  delta execLoadHandleTable
  repeat' first
    | with_reducible assumption
    | with_reducible apply does_decodeCmd
    | with_reducible apply does_actLoadTable
    | with_reducible apply DoesOut.next
    | with_reducible apply DoesOut.ifte
    | with_reducible apply Does.ifte
    | with_reducible apply Does.ifte_fst
    | with_reducible apply Does.ifte_snd
    | split
    | exact Sub.mono hT rfl
    | exact hT _ rfl
    | intro _

theorem does_serveRequest (s : State) (n : Nat) {s0 : State} {msk : Nat} (hk : Does msk s0 s)
    (hT : Sub 0x1f00000000 msk := by first | exact Sub.of_eq rfl | exact Sub.mono (by assumption) rfl) : Does msk s0 (serveRequest s n) := by
  delta serveRequest
  repeat' first
    | with_reducible assumption
    | (extract_lets -underBinder +onlyGivenNames x; refine does_cut (msk := msk) (s0 := s0) (x := x) ?_ fun _ => ?_; rotate_left; clear_value x; revert x; intro _ _; rotate_left; subst x)
    | (extract_lets -underBinder +onlyGivenNames x; clear_value x; revert x; intro _)
    | with_reducible apply does_setSlot
    | with_reducible apply does_setCtx
    | with_reducible apply does_relocFlush
    | with_reducible apply does_waitMet
    | with_reducible apply Does.ifte
    | split
    | exact Sub.mono hT rfl
    | exact hT _ rfl
    | intro _

theorem does_beginTimestamp (s : State) (n : Nat) (w : List Nat) (refs : List Ref) {s0 : State} {msk : Nat} (hk : Does msk s0 s)
    (hT : Sub 0x200028ac0 msk := by first | exact Sub.of_eq rfl | exact Sub.mono (by assumption) rfl) : Does msk s0 (beginTimestamp s n w refs) := by
  delta beginTimestamp
  repeat' first
    | with_reducible assumption
    | (extract_lets -underBinder +onlyGivenNames x; refine does_cut (msk := msk) (s0 := s0) (x := x) ?_ fun _ => ?_; rotate_left; clear_value x; revert x; intro _ _; rotate_left; subst x)
    | (extract_lets -underBinder +onlyGivenNames x; clear_value x; revert x; intro _)
    | with_reducible apply does_violation
    | with_reducible apply does_instantJob
    | with_reducible apply does_refWrite
    | with_reducible apply Does.ifte
    | split
    | exact Sub.mono hT rfl
    | exact hT _ rfl
    | intro _

theorem does_actTimestamp (s : State) (n : Nat) (w : List Nat) (refs : List Ref) {s0 : State} {msk : Nat} (hk : Does msk s0 s)
    (hT : Sub 0x600028ac0 msk := by first | exact Sub.of_eq rfl | exact Sub.mono (by assumption) rfl) : Does msk s0 (actTimestamp s n w refs) := by
  delta actTimestamp
  repeat' first
    | with_reducible assumption
    | with_reducible apply does_startOr
    | with_reducible apply does_beginTimestamp
    | with_reducible apply Does.ifte
    | split
    | exact Sub.mono hT rfl
    | exact hT _ rfl
    | intro _

theorem does_actTimestampEarly (s : State) (n : Nat) (w : List Nat) (refs : List Ref) {s0 : State} {msk : Nat} (hk : Does msk s0 s)
    (hT : Sub 0x600028ac0 msk := by first | exact Sub.of_eq rfl | exact Sub.mono (by assumption) rfl) : Does msk s0 (actTimestampEarly s n w refs) := by
  delta actTimestampEarly
  repeat' first
    | with_reducible assumption
    | with_reducible apply does_beginAt
    | with_reducible apply does_beginTimestamp
    | with_reducible apply Does.ifte
    | split
    | exact Sub.mono hT rfl
    | exact hT _ rfl
    | intro _

theorem does_execTimestamp (n : Slot) (s : State) {s0 : State} {msk : Nat} (hk : Does msk s0 s)
    (hT : Sub 0x1e00028ac0 msk := by first | exact Sub.of_eq rfl | exact Sub.mono (by assumption) rfl) : DoesOut msk s0 (execTimestamp n s) := by
  delta execTimestamp
  repeat' first
    | with_reducible assumption
    | with_reducible apply does_decodeCmd
    | with_reducible apply does_actTimestamp
    | with_reducible apply DoesOut.next
    | with_reducible apply DoesOut.ifte
    | with_reducible apply Does.ifte
    | with_reducible apply Does.ifte_fst
    | with_reducible apply Does.ifte_snd
    | split
    | exact Sub.mono hT rfl
    | exact hT _ rfl
    | intro _

theorem does_execTimestampEarly (n : Slot) (s : State) {s0 : State} {msk : Nat} (hk : Does msk s0 s)
    (hT : Sub 0x1e00028ac0 msk := by first | exact Sub.of_eq rfl | exact Sub.mono (by assumption) rfl) : DoesOut msk s0 (execTimestampEarly n s) := by
  delta execTimestampEarly
  repeat' first
    | with_reducible assumption
    | with_reducible apply does_decodeCmd
    | with_reducible apply does_actTimestampEarly
    | with_reducible apply DoesOut.next
    | with_reducible apply DoesOut.ifte
    | with_reducible apply Does.ifte
    | with_reducible apply Does.ifte_fst
    | with_reducible apply Does.ifte_snd
    | split
    | exact Sub.mono hT rfl
    | exact hT _ rfl
    | intro _

theorem does_heldAct {msk : Nat} (ecc : Ecc) (op : Nat) (w : List Nat) (s : State) (n : Nat) (ws : List Nat) (refs : List Ref)
    {s0 : State} (h : Does msk s0 s)
    (hT : Sub 0x242fe23ba8ac0 msk := by first | exact Sub.of_eq rfl | exact Sub.mono (by assumption) rfl) : Does msk s0 (heldAct ecc op w s n ws refs) := by
  unfold heldAct
  repeat' split
  all_goals first
    | exact h
    | with_reducible exact does_actCond _ _ _ _ h
    | with_reducible exact does_actWaitFence _ _ _ _ h
    | with_reducible exact does_actSignalFence _ _ _ _ h
    | with_reducible exact does_actSemOpWait _ _ _ _ h
    | with_reducible exact does_actSemOpAdd _ _ _ _ h
    | with_reducible exact does_actSemOpSub _ _ _ _ h
    | with_reducible exact does_actSemOpArrive _ _ _ _ h
    | with_reducible exact does_actDispatch _ _ _ _ h
    | with_reducible exact does_actPassBegin _ _ _ _ _ h
    | with_reducible exact does_actCopy _ _ _ _ h
    | with_reducible exact does_actCompress _ _ _ _ h
    | with_reducible exact does_actRunCounted _ _ _ _ h
    | with_reducible exact does_actRunContinuous _ _ _ _ h
    | with_reducible exact does_actRunStop _ _ _ _ h
    | with_reducible exact does_actStreamJoin _ _ _ _ h
    | with_reducible exact does_actStreamLeave _ _ _ _ h
    | with_reducible exact does_actSetContext _ _ _ _ h
    | with_reducible exact does_actLoadTable _ _ _ _ h
    | with_reducible exact does_actTimestamp _ _ _ _ h
    | skip
  · generalize bits (nth w 1) 0 2 = k
    rcases k with _ | _ | _ | k
    · exact does_actSemOpWait _ _ _ _ h
    · exact does_actSemOpAdd _ _ _ _ h
    · exact does_actSemOpSub _ _ _ _ h
    · exact does_actSemOpArrive _ _ _ _ h
  · generalize runMode w = k
    rcases k with _ | _ | k
    · exact does_actRunCounted _ _ _ _ h
    · exact does_actRunContinuous _ _ _ _ h
    · exact does_actRunStop _ _ _ _ h

theorem does_execJobStart (n : Slot) (ecc : Ecc) (s : State) {s0 : State} {msk : Nat} (hk : Does msk s0 s)
    (hT : Sub 0x242fe23ba8ac0 msk := by first | exact Sub.of_eq rfl | exact Sub.mono (by assumption) rfl) : DoesOut msk s0 (execJobStart n ecc s) := by
  delta execJobStart
  repeat' first
    | with_reducible assumption
    | (extract_lets -underBinder +onlyGivenNames x; refine does_cut (msk := msk) (s0 := s0) (x := x) ?_ fun _ => ?_; rotate_left; clear_value x; revert x; intro _ _; rotate_left; subst x)
    | (extract_lets -underBinder +onlyGivenNames x; clear_value x; revert x; intro _)
    | with_reducible apply does_heldAct
    | with_reducible apply DoesOut.next
    | with_reducible apply DoesOut.ifte
    | with_reducible apply Does.ifte
    | with_reducible apply Does.ifte_fst
    | with_reducible apply Does.ifte_snd
    | split
    | exact Sub.mono hT rfl
    | exact hT _ rfl
    | intro _

theorem does_reply (s : State) (ws : List Nat) {s0 : State} {msk : Nat} (hk : Does msk s0 s)
    (hT : Sub 0x3000 msk := by first | exact Sub.of_eq rfl | exact Sub.mono (by assumption) rfl) : Does msk s0 (reply s ws) := by
  delta reply
  repeat' first
    | with_reducible assumption
    | with_reducible apply Does.ifte
    | split
    | with_reducible apply Does.updRdataRstat
    | exact Sub.mono hT rfl
    | exact hT _ rfl
    | intro _

theorem does_pairRead (s : State) (off : Nat) (v : Nat) (size : Nat) {s0 : State} {msk : Nat} (hk : Does msk s0 s)
    (hT : Sub 0x3040 msk := by first | exact Sub.of_eq rfl | exact Sub.mono (by assumption) rfl) : Does msk s0 (pairRead s off v size) := by
  delta pairRead
  repeat' first
    | with_reducible assumption
    | with_reducible apply does_wr
    | with_reducible apply does_reply
    | with_reducible apply Does.ifte
    | split
    | exact Sub.mono hT rfl
    | exact hT _ rfl
    | intro _

theorem does_execFeCompRead (fn : Part) (q : Qid) (size : Nat) (s : State) {s0 : State} {msk : Nat} (hk : Does msk s0 s)
    (hT : Sub 0x3040 msk := by first | exact Sub.of_eq rfl | exact Sub.mono (by assumption) rfl) : DoesOut msk s0 (execFeCompRead fn q size s) := by
  delta execFeCompRead
  repeat' first
    | with_reducible assumption
    | with_reducible apply does_reply
    | with_reducible apply does_pairRead
    | with_reducible apply DoesOut.next
    | with_reducible apply DoesOut.ifte
    | with_reducible apply Does.ifte
    | with_reducible apply Does.ifte_fst
    | with_reducible apply Does.ifte_snd
    | split
    | exact Sub.mono hT rfl
    | exact hT _ rfl
    | intro _

theorem does_execFeCerrRead (fn : Part) (q : Qid) (size : Nat) (s : State) {s0 : State} {msk : Nat} (hk : Does msk s0 s)
    (hT : Sub 0x3040 msk := by first | exact Sub.of_eq rfl | exact Sub.mono (by assumption) rfl) : DoesOut msk s0 (execFeCerrRead fn q size s) := by
  delta execFeCerrRead
  repeat' first
    | with_reducible assumption
    | with_reducible apply does_reply
    | with_reducible apply does_pairRead
    | with_reducible apply DoesOut.next
    | with_reducible apply DoesOut.ifte
    | with_reducible apply Does.ifte
    | with_reducible apply Does.ifte_fst
    | with_reducible apply Does.ifte_snd
    | split
    | exact Sub.mono hT rfl
    | exact hT _ rfl
    | intro _

theorem does_execFeQslotSeqRead (fn : Part) (n : Slot) (s : State) {s0 : State} {msk : Nat} (hk : Does msk s0 s)
    (hT : Sub 0x3040 msk := by first | exact Sub.of_eq rfl | exact Sub.mono (by assumption) rfl) : DoesOut msk s0 (execFeQslotSeqRead fn n s) := by
  delta execFeQslotSeqRead
  repeat' first
    | with_reducible assumption
    | (extract_lets -underBinder +onlyGivenNames x; refine does_cut (msk := msk) (s0 := s0) (x := x) ?_ fun _ => ?_; rotate_left; clear_value x; revert x; intro _ _; rotate_left; subst x)
    | (extract_lets -underBinder +onlyGivenNames x; clear_value x; revert x; intro _)
    | with_reducible apply does_reply
    | with_reducible apply does_pairRead
    | with_reducible apply DoesOut.next
    | with_reducible apply DoesOut.ifte
    | with_reducible apply Does.ifte
    | with_reducible apply Does.ifte_fst
    | with_reducible apply Does.ifte_snd
    | split
    | exact Sub.mono hT rfl
    | exact hT _ rfl
    | intro _

theorem does_execFeQslotBufRead (fn : Part) (n : Slot) (s : State) {s0 : State} {msk : Nat} (hk : Does msk s0 s)
    (hT : Sub 0x3040 msk := by first | exact Sub.of_eq rfl | exact Sub.mono (by assumption) rfl) : DoesOut msk s0 (execFeQslotBufRead fn n s) := by
  delta execFeQslotBufRead
  repeat' first
    | with_reducible assumption
    | (extract_lets -underBinder +onlyGivenNames x; refine does_cut (msk := msk) (s0 := s0) (x := x) ?_ fun _ => ?_; rotate_left; clear_value x; revert x; intro _ _; rotate_left; subst x)
    | (extract_lets -underBinder +onlyGivenNames x; clear_value x; revert x; intro _)
    | with_reducible apply does_reply
    | with_reducible apply does_pairRead
    | with_reducible apply DoesOut.next
    | with_reducible apply DoesOut.ifte
    | with_reducible apply Does.ifte
    | with_reducible apply Does.ifte_fst
    | with_reducible apply Does.ifte_snd
    | split
    | exact Sub.mono hT rfl
    | exact hT _ rfl
    | intro _

theorem does_execSynFslotValRead (k : Fin 48) (s : State) {s0 : State} {msk : Nat} (hk : Does msk s0 s)
    (hT : Sub 0x3040 msk := by first | exact Sub.of_eq rfl | exact Sub.mono (by assumption) rfl) : DoesOut msk s0 (execSynFslotValRead k s) := by
  delta execSynFslotValRead
  repeat' first
    | with_reducible assumption
    | with_reducible apply does_pairRead
    | with_reducible apply DoesOut.next
    | with_reducible apply DoesOut.ifte
    | with_reducible apply Does.ifte
    | with_reducible apply Does.ifte_fst
    | with_reducible apply Does.ifte_snd
    | split
    | exact Sub.mono hT rfl
    | exact hT _ rfl
    | intro _

end Sys2Proof.Machine
end

