-- ==== Sys2Proof/Laws/Does/MailOps.lean ====
section
/-!
SUPPORT. What every function of Machine/MailOps.lean does: it keeps the queue and the invariant, and changes
no field of the state outside the set its lemma names.
-/
set_option linter.unreachableTactic false
set_option linter.unusedTactic false

namespace Sys2Proof.Machine

set_option Elab.async false

theorem does_wrList (s : State) (off : Nat) (a : List Nat) {s0 : State} {msk : Nat} (hk : Does msk s0 s)
    (hT : Sub 0x40 msk := by first | exact Sub.of_eq rfl | exact Sub.mono (by assumption) rfl) : Does msk s0 (wrList s off a) := by
  induction a generalizing s off with
  | nil => unfold wrList; with_reducible assumption
  | cons x r ih =>
    unfold wrList
    repeat' first
    | with_reducible apply ih
    | with_reducible assumption
    | with_reducible apply does_wr
    | with_reducible apply Does.ifte
    | split
    | exact Sub.mono hT rfl
    | exact hT _ rfl
    | intro _

theorem does_mbReply (s : State) (m : Nat) (w : List Nat) (status : Nat) (words : List Nat) {s0 : State} {msk : Nat} (hk : Does msk s0 s)
    (hT : Sub 0xc0000000000240 msk := by first | exact Sub.of_eq rfl | exact Sub.mono (by assumption) rfl) : Does msk s0 (mbReply s m w status words) := by
  delta mbReply
  repeat' first
    | with_reducible assumption
    | (extract_lets -underBinder +onlyGivenNames x; refine does_cut (msk := msk) (s0 := s0) (x := x) ?_ fun _ => ?_; rotate_left; clear_value x; revert x; intro _ _; rotate_left; subst x)
    | (extract_lets -underBinder +onlyGivenNames x; clear_value x; revert x; intro _)
    | with_reducible apply does_wr
    | with_reducible apply does_raise
    | with_reducible apply does_reply
    | with_reducible apply does_wrList
    | with_reducible apply Does.ifte
    | split
    | with_reducible apply Does.updMboxesMbOrder
    | exact Sub.mono hT rfl
    | exact hT _ rfl
    | intro _

theorem does_mbBegin (s : State) (m : Nat) (w : List Nat) {s0 : State} {msk : Nat} (hk : Does msk s0 s)
    (hT : Sub 0xc0000000000000 msk := by first | exact Sub.of_eq rfl | exact Sub.mono (by assumption) rfl) : Does msk s0 (mbBegin s m w) := by
  delta mbBegin
  repeat' first
    | with_reducible assumption
    | with_reducible apply does_reply
    | with_reducible apply does_message
    | with_reducible apply Does.ifte
    | split
    | with_reducible apply Does.updMboxesMbOrder
    | exact Sub.mono hT rfl
    | exact hT _ rfl
    | intro _

theorem does_message {msk : Nat} (s : State) (m code : Nat) (sel : List Nat → Bool) (act : State → Nat → List Nat → State)
    {s0 : State} (h : Does msk s0 s) (ha : ∀ t m w, Does msk s0 t → Does msk s0 (act t m w))
    (hT : Sub 0xc0000000000240 msk := by first | exact Sub.of_eq rfl | exact Sub.mono (by assumption) rfl) :
    Does msk s0 (message s m code sel act) := by
  unfold message
  split
  · exact h
  · repeat' with_reducible apply Does.ifte
    · exact h
    · exact does_mbReply _ _ _ _ _ h
    · exact does_mbReply _ _ _ _ _ h
    · exact does_mbReply _ _ _ _ _ h
    · exact ha _ _ _ h

theorem does_execMailboxGo (m : Mb) (serial : Bool) (irq : Bool) (s : State) {s0 : State} {msk : Nat} (hk : Does msk s0 s)
    (hT : Sub 0x20000000000040 msk := by first | exact Sub.of_eq rfl | exact Sub.mono (by assumption) rfl) : DoesOut msk s0 (execMailboxGo m serial irq s) := by
  delta execMailboxGo
  repeat' first
    | with_reducible assumption
    | with_reducible apply does_wr
    | with_reducible apply does_bumpSat
    | with_reducible apply DoesOut.next
    | with_reducible apply DoesOut.ifte
    | with_reducible apply Does.ifte
    | with_reducible apply Does.ifte_fst
    | with_reducible apply Does.ifte_snd
    | split
    | with_reducible apply Does.updMbWait
    | exact Sub.mono hT rfl
    | exact hT _ rfl
    | intro _

theorem does_execMailboxTake (s : State) {s0 : State} {msk : Nat} (hk : Does msk s0 s)
    (hT : Sub 0xe0000000000040 msk := by first | exact Sub.of_eq rfl | exact Sub.mono (by assumption) rfl) : DoesOut msk s0 (execMailboxTake s) := by
  delta execMailboxTake
  repeat' first
    | with_reducible assumption
    | (extract_lets -underBinder +onlyGivenNames x; refine does_cut (msk := msk) (s0 := s0) (x := x) ?_ fun _ => ?_; rotate_left; clear_value x; revert x; intro _ _; rotate_left; subst x)
    | (extract_lets -underBinder +onlyGivenNames x; clear_value x; revert x; intro _)
    | with_reducible apply does_setFld
    | with_reducible apply DoesOut.next
    | with_reducible apply DoesOut.ifte
    | with_reducible apply Does.ifte
    | with_reducible apply Does.ifte_fst
    | with_reducible apply Does.ifte_snd
    | split
    | with_reducible apply Does.updMbWaitMboxesMbOrder
    | exact Sub.mono hT rfl
    | exact hT _ rfl
    | intro _

theorem does_execMailboxDoneClear (m : Mb) (serial : Bool) (s : State) {s0 : State} {msk : Nat} (hk : Does msk s0 s)
    (hT : Sub 0x40 msk := by first | exact Sub.of_eq rfl | exact Sub.mono (by assumption) rfl) : DoesOut msk s0 (execMailboxDoneClear m serial s) := by
  delta execMailboxDoneClear
  repeat' first
    | with_reducible assumption
    | with_reducible apply does_setFld
    | with_reducible apply does_reply
    | with_reducible apply DoesOut.next
    | with_reducible apply DoesOut.ifte
    | with_reducible apply Does.ifte
    | with_reducible apply Does.ifte_fst
    | with_reducible apply Does.ifte_snd
    | split
    | exact Sub.mono hT rfl
    | exact hT _ rfl
    | intro _

theorem does_execUnknownMessage (m : Mb) (s : State) {s0 : State} {msk : Nat} (hk : Does msk s0 s)
    (hT : Sub 0xc0000000000240 msk := by first | exact Sub.of_eq rfl | exact Sub.mono (by assumption) rfl) : DoesOut msk s0 (execUnknownMessage m s) := by
  delta execUnknownMessage
  repeat' first
    | with_reducible assumption
    | with_reducible apply does_mbReply
    | with_reducible apply does_message
    | with_reducible apply DoesOut.next
    | with_reducible apply DoesOut.ifte
    | with_reducible apply Does.ifte
    | with_reducible apply Does.ifte_fst
    | with_reducible apply Does.ifte_snd
    | split
    | exact Sub.mono hT rfl
    | exact hT _ rfl
    | intro _

theorem does_xbWrite (s : State) (m : Nat) (w : List Nat) (data : List Byte) {s0 : State} {msk : Nat} (hk : Does msk s0 s)
    (hT : Sub 0x100000000028800 msk := by first | exact Sub.of_eq rfl | exact Sub.mono (by assumption) rfl) : Does msk s0 (xbWrite s m w data) := by
  delta xbWrite
  repeat' first
    | with_reducible assumption
    | with_reducible apply does_devWrite
    | with_reducible apply Does.ifte
    | split
    | with_reducible apply Does.updStaging
    | exact fun x => x
    | exact Mem.wf_writeBytes _ _ _
    | exact Mem.wf_writeNat _ _ _ _
    | exact Mem.wf_blank _ _ _ _
    | exact Mem.wf_write _ _ _
    | exact tabWf_filter _ _
    | exact tabWf_put _ _ _
    | exact tabWf_drop _ _
    | exact Sub.mono hT rfl
    | exact hT _ rfl
    | intro _

end Sys2Proof.Machine
end

