-- ==== Sys2Proof/Laws/Does/Reset.lean ====
section
/-!
SUPPORT. What every function of Machine/Reset.lean does: it keeps the queue and the invariant, and changes
no field of the state outside the set its lemma names.
-/
set_option linter.unreachableTactic false
set_option linter.unusedTactic false

namespace Sys2Proof.Machine

set_option Elab.async false

theorem does_blankTiles (s : State) (a : List Nat) {s0 : State} {msk : Nat} (hk : Does msk s0 s)
    (hT : Sub 0x10020 msk := by first | exact Sub.of_eq rfl | exact Sub.mono (by assumption) rfl) : Does msk s0 (blankTiles s a) := by
  induction a generalizing s with
  | nil => unfold blankTiles; with_reducible assumption
  | cons x r ih =>
    unfold blankTiles
    repeat' first
    | with_reducible apply ih
    | with_reducible assumption
    | with_reducible apply Does.ifte
    | split
    | with_reducible apply Does.updFreshTile
    | exact fun x => x
    | exact Mem.wf_writeBytes _ _ _
    | exact Mem.wf_writeNat _ _ _ _
    | exact Mem.wf_blank _ _ _ _
    | exact Mem.wf_write _ _ _
    | exact tabWf_filter _ _
    | exact tabWf_put _ _ _
    | exact tabWf_drop _ _
    | exact Sub.mono hT rfl
    | exact hT _ rfl
    | intro _

theorem does_cancelRequests (s : State) (a : List JoinReq) {s0 : State} {msk : Nat} (hk : Does msk s0 s)
    (hT : Sub 0x28ac0 msk := by first | exact Sub.of_eq rfl | exact Sub.mono (by assumption) rfl) : Does msk s0 (cancelRequests s a) := by
  induction a generalizing s with
  | nil => unfold cancelRequests; with_reducible assumption
  | cons x r ih =>
    unfold cancelRequests
    repeat' first
    | with_reducible apply ih
    | with_reducible assumption
    | with_reducible apply does_writeStatus
    | with_reducible apply Does.ifte
    | split
    | exact Sub.mono hT rfl
    | exact hT _ rfl
    | intro _

theorem does_unloadModel (s : State) {s0 : State} {msk : Nat} (hk : Does msk s0 s)
    (hT : Sub 0x202000000078ae0 msk := by first | exact Sub.of_eq rfl | exact Sub.mono (by assumption) rfl) : Does msk s0 (unloadModel s) := by
  delta unloadModel
  repeat' first
    | with_reducible assumption
    | (extract_lets -underBinder +onlyGivenNames x; refine does_cut (msk := msk) (s0 := s0) (x := x) ?_ fun _ => ?_; rotate_left; clear_value x; revert x; intro _ _; rotate_left; subst x)
    | (extract_lets -underBinder +onlyGivenNames x; clear_value x; revert x; intro _)
    | with_reducible apply does_setFld
    | with_reducible apply does_free
    | with_reducible apply does_capRebinds
    | with_reducible apply does_planNone
    | with_reducible apply does_blankTiles
    | with_reducible apply does_cancelRequests
    | with_reducible apply Does.ifte
    | split
    | with_reducible apply Does.updModel
    | exact Sub.mono hT rfl
    | exact hT _ rfl
    | intro _

theorem does_updReset (s : State) (p : Nat) (f : PReset → PReset) {s0 : State} {msk : Nat} (hk : Does msk s0 s)
    (hT : Sub 0x80000000000000000 msk := by first | exact Sub.of_eq rfl | exact Sub.mono (by assumption) rfl) : Does msk s0 (updReset s p f) := by
  delta updReset
  repeat' first
    | with_reducible assumption
    | with_reducible apply Does.ifte
    | split
    | with_reducible apply Does.updResets
    | exact Sub.mono hT rfl
    | exact hT _ rfl
    | intro _

theorem does_resetQueue (s : State) (q : Nat) {s0 : State} {msk : Nat} (hk : Does msk s0 s)
    (hT : Sub 0x1600f00000 msk := by first | exact Sub.of_eq rfl | exact Sub.mono (by assumption) rfl) : Does msk s0 (resetQueue s q) := by
  delta resetQueue
  repeat' first
    | with_reducible assumption
    | (extract_lets -underBinder +onlyGivenNames x; refine does_cut (msk := msk) (s0 := s0) (x := x) ?_ fun _ => ?_; rotate_left; clear_value x; revert x; intro _ _; rotate_left; subst x)
    | (extract_lets -underBinder +onlyGivenNames x; clear_value x; revert x; intro _)
    | with_reducible apply does_setQue
    | with_reducible apply does_drainSlot
    | with_reducible apply Does.ifte
    | split
    | exact Sub.mono hT rfl
    | exact hT _ rfl
    | intro _

theorem does_resetQueues (s : State) (a : List Nat) {s0 : State} {msk : Nat} (hk : Does msk s0 s)
    (hT : Sub 0x1600f00000 msk := by first | exact Sub.of_eq rfl | exact Sub.mono (by assumption) rfl) : Does msk s0 (resetQueues s a) := by
  induction a generalizing s with
  | nil => unfold resetQueues; with_reducible assumption
  | cons x r ih =>
    unfold resetQueues
    repeat' first
    | with_reducible apply ih
    | with_reducible assumption
    | with_reducible apply does_resetQueue
    | with_reducible apply Does.ifte
    | split
    | exact Sub.mono hT rfl
    | exact hT _ rfl
    | intro _

theorem does_resetEngines (s : State) (a : List Nat) {s0 : State} {msk : Nat} (hk : Does msk s0 s)
    (hT : Sub 0x40000 msk := by first | exact Sub.of_eq rfl | exact Sub.mono (by assumption) rfl) : Does msk s0 (resetEngines s a) := by
  induction a generalizing s with
  | nil => unfold resetEngines; with_reducible assumption
  | cons x r ih =>
    unfold resetEngines
    repeat' first
    | with_reducible apply ih
    | with_reducible assumption
    | with_reducible apply does_resetEngine
    | with_reducible apply Does.ifte
    | split
    | exact Sub.mono hT rfl
    | exact hT _ rfl
    | intro _

theorem does_resetCx (s : State) (p : Nat) (a : List Nat) {s0 : State} {msk : Nat} (hk : Does msk s0 s)
    (hT : Sub 0x11000000000 msk := by first | exact Sub.of_eq rfl | exact Sub.mono (by assumption) rfl) : Does msk s0 (resetCx s p a) := by
  induction a generalizing s p with
  | nil => unfold resetCx; with_reducible assumption
  | cons x r ih =>
    unfold resetCx
    repeat' first
    | with_reducible apply ih
    | with_reducible assumption
    | (extract_lets -underBinder +onlyGivenNames x; refine does_cut (msk := msk) (s0 := s0) (x := x) ?_ fun _ => ?_; rotate_left; clear_value x; revert x; intro _ _; rotate_left; subst x)
    | (extract_lets -underBinder +onlyGivenNames x; clear_value x; revert x; intro _)
    | with_reducible apply does_updJob
    | with_reducible apply does_setCx
    | with_reducible apply does_transfers
    | with_reducible apply Does.ifte
    | split
    | exact Sub.mono hT rfl
    | exact hT _ rfl
    | intro _

theorem does_resetPasses (s : State) (a : List Pass) {s0 : State} {msk : Nat} (hk : Does msk s0 s)
    (hT : Sub 0x4c0000000040 msk := by first | exact Sub.of_eq rfl | exact Sub.mono (by assumption) rfl) : Does msk s0 (resetPasses s a) := by
  induction a generalizing s with
  | nil => unfold resetPasses; with_reducible assumption
  | cons x r ih =>
    unfold resetPasses
    repeat' first
    | with_reducible apply ih
    | with_reducible assumption
    | with_reducible apply does_closePass
    | with_reducible apply Does.ifte
    | split
    | exact Sub.mono hT rfl
    | exact hT _ rfl
    | intro _

theorem does_resetRun (s : State) (p : Nat) {s0 : State} {msk : Nat} (hk : Does msk s0 s)
    (hT : Sub 0x2000000040000 msk := by first | exact Sub.of_eq rfl | exact Sub.mono (by assumption) rfl) : Does msk s0 (resetRun s p) := by
  delta resetRun
  repeat' first
    | with_reducible assumption
    | with_reducible apply does_updModel
    | with_reducible apply does_planNone
    | with_reducible apply Does.ifte
    | split
    | exact Sub.mono hT rfl
    | exact hT _ rfl
    | intro _

theorem does_resetUnits (s : State) (p : Nat) {s0 : State} {msk : Nat} (hk : Does msk s0 s)
    (hT : Sub 0x1600000000000040 msk := by first | exact Sub.of_eq rfl | exact Sub.mono (by assumption) rfl) : Does msk s0 (resetUnits s p) := by
  delta resetUnits
  repeat' first
    | with_reducible assumption
    | (extract_lets -underBinder +onlyGivenNames x; refine does_cut (msk := msk) (s0 := s0) (x := x) ?_ fun _ => ?_; rotate_left; clear_value x; revert x; intro _ _; rotate_left; subst x)
    | (extract_lets -underBinder +onlyGivenNames x; clear_value x; revert x; intro _)
    | with_reducible apply does_capHalt
    | with_reducible apply does_pipeHalt
    | with_reducible apply does_foldl
    | with_reducible apply Does.ifte
    | split
    | exact Sub.mono hT rfl
    | exact hT _ rfl
    | intro _

theorem does_resetRaised (s : State) (p : Nat) {s0 : State} {msk : Nat} (hk : Does msk s0 s)
    (hT : Sub 0x4000000 msk := by first | exact Sub.of_eq rfl | exact Sub.mono (by assumption) rfl) : Does msk s0 (resetRaised s p) := by
  delta resetRaised
  repeat' first
    | with_reducible assumption
    | with_reducible apply Does.ifte
    | split
    | with_reducible apply Does.updArbs
    | exact Sub.mono hT rfl
    | exact hT _ rfl
    | intro _

theorem does_resetStop (s : State) (p : Nat) {s0 : State} {msk : Nat} (hk : Does msk s0 s)
    (hT : Sub 0x16024fd604f40040 msk := by first | exact Sub.of_eq rfl | exact Sub.mono (by assumption) rfl) : Does msk s0 (resetStop s p) := by
  delta resetStop
  repeat' first
    | with_reducible assumption
    | (extract_lets -underBinder +onlyGivenNames x; refine does_cut (msk := msk) (s0 := s0) (x := x) ?_ fun _ => ?_; rotate_left; clear_value x; revert x; intro _ _; rotate_left; subst x)
    | (extract_lets -underBinder +onlyGivenNames x; clear_value x; revert x; intro _)
    | with_reducible apply does_resetQueues
    | with_reducible apply does_resetEngines
    | with_reducible apply does_resetCx
    | with_reducible apply does_resetPasses
    | with_reducible apply does_resetRun
    | with_reducible apply does_resetUnits
    | with_reducible apply does_resetRaised
    | with_reducible apply Does.ifte
    | split
    | with_reducible apply Does.updCopiesCompWaitsDispsPresXfers
    | exact Sub.mono hT rfl
    | exact hT _ rfl
    | intro _

theorem does_resetStart (s : State) (r : PReset) {s0 : State} {msk : Nat} (hk : Does msk s0 s)
    (hT : Sub 0x816024fd604f40040 msk := by first | exact Sub.of_eq rfl | exact Sub.mono (by assumption) rfl) : Does msk s0 (resetStart s r) := by
  delta resetStart
  repeat' first
    | with_reducible assumption
    | (extract_lets -underBinder +onlyGivenNames x; refine does_cut (msk := msk) (s0 := s0) (x := x) ?_ fun _ => ?_; rotate_left; clear_value x; revert x; intro _ _; rotate_left; subst x)
    | (extract_lets -underBinder +onlyGivenNames x; clear_value x; revert x; intro _)
    | with_reducible apply does_setFld
    | with_reducible apply does_updReset
    | with_reducible apply does_resetStop
    | with_reducible apply Does.ifte
    | split
    | with_reducible apply Does.updResets
    | exact Sub.mono hT rfl
    | exact hT _ rfl
    | intro _

theorem does_resetVectors (s : State) (p : Nat) {s0 : State} {msk : Nat} (hk : Does msk s0 s)
    (hT : Sub 0x200 msk := by first | exact Sub.of_eq rfl | exact Sub.mono (by assumption) rfl) : Does msk s0 (resetVectors s p) := by
  delta resetVectors
  repeat' first
    | with_reducible assumption
    | with_reducible apply Does.ifte
    | split
    | with_reducible apply Does.updMsix
    | exact Sub.mono hT rfl
    | exact hT _ rfl
    | intro _

theorem does_clearStarve (s : State) (a : Nat) (a1 : List Nat) {s0 : State} {msk : Nat} (hk : Does msk s0 s)
    (hT : Sub 0x40 msk := by first | exact Sub.of_eq rfl | exact Sub.mono (by assumption) rfl) : Does msk s0 (clearStarve s a a1) := by
  induction a1 generalizing s a with
  | nil => unfold clearStarve; with_reducible assumption
  | cons x r ih =>
    unfold clearStarve
    repeat' first
    | with_reducible apply ih
    | with_reducible assumption
    | with_reducible apply does_setFld
    | with_reducible apply Does.ifte
    | split
    | exact Sub.mono hT rfl
    | exact hT _ rfl
    | intro _

theorem does_resetArbs (s : State) (es : List Nat) (a : List Nat) {s0 : State} {msk : Nat} (hk : Does msk s0 s)
    (hT : Sub 0x4000040 msk := by first | exact Sub.of_eq rfl | exact Sub.mono (by assumption) rfl) : Does msk s0 (resetArbs s es a) := by
  induction a generalizing s es with
  | nil => unfold resetArbs; with_reducible assumption
  | cons x r ih =>
    unfold resetArbs
    repeat' first
    | with_reducible apply ih
    | with_reducible assumption
    | (extract_lets -underBinder +onlyGivenNames x; refine does_cut (msk := msk) (s0 := s0) (x := x) ?_ fun _ => ?_; rotate_left; clear_value x; revert x; intro _ _; rotate_left; subst x)
    | (extract_lets -underBinder +onlyGivenNames x; refine does_cut (msk := msk) (s0 := s0) (x := x.1) ?_ fun _ => ?_; rotate_left; clear_value x; revert x; intro _ _; rotate_left; subst x)
    | (extract_lets -underBinder +onlyGivenNames x; clear_value x; revert x; intro _)
    | with_reducible apply does_setArb
    | with_reducible apply does_clearStarve
    | with_reducible apply Does.ifte
    | with_reducible apply Does.ifte_fst
    | with_reducible apply Does.ifte_snd
    | split
    | exact Sub.mono hT rfl
    | exact hT _ rfl
    | intro _

theorem does_zeroSems (s : State) (qs : List Nat) {s0 : State} {msk : Nat} (hk : Does msk s0 s)
    (hT : Sub 0x80040 msk := by first | exact Sub.of_eq rfl | exact Sub.mono (by assumption) rfl) : Does msk s0 (zeroSems s qs) := by
  delta zeroSems
  repeat' first
    | with_reducible assumption
    | with_reducible apply Does.ifte
    | with_reducible apply Does.ifte_fst
    | with_reducible apply Does.ifte_snd
    | split
    | with_reducible apply Does.updRegsSemCycles
    | exact fun x => x
    | exact Mem.wf_writeBytes _ _ _
    | exact Mem.wf_writeNat _ _ _ _
    | exact Mem.wf_blank _ _ _ _
    | exact Mem.wf_write _ _ _
    | exact tabWf_filter _ _
    | exact tabWf_put _ _ _
    | exact tabWf_drop _ _
    | exact Sub.mono hT rfl
    | exact hT _ rfl
    | intro _

theorem does_abandonJobs (s : State) (a : List Job) {s0 : State} {msk : Nat} (hk : Does msk s0 s)
    (hT : Sub 0x1200000280 msk := by first | exact Sub.of_eq rfl | exact Sub.mono (by assumption) rfl) : Does msk s0 (abandonJobs s a) := by
  induction a generalizing s with
  | nil => unfold abandonJobs; with_reducible assumption
  | cons x r ih =>
    unfold abandonJobs
    repeat' first
    | with_reducible apply ih
    | with_reducible assumption
    | with_reducible apply does_failJob
    | with_reducible apply Does.ifte
    | split
    | exact Sub.mono hT rfl
    | exact hT _ rfl
    | intro _

theorem does_resetEndQueue (s : State) (q : Nat) {s0 : State} {msk : Nat} (hk : Does msk s0 s)
    (hT : Sub 0xc2001603328ac0 msk := by first | exact Sub.of_eq rfl | exact Sub.mono (by assumption) rfl) : Does msk s0 (resetEndQueue s q) := by
  delta resetEndQueue
  repeat' first
    | with_reducible assumption
    | (extract_lets -underBinder +onlyGivenNames x; refine does_cut (msk := msk) (s0 := s0) (x := x) ?_ fun _ => ?_; rotate_left; clear_value x; revert x; intro _ _; rotate_left; subst x)
    | (extract_lets -underBinder +onlyGivenNames x; clear_value x; revert x; intro _)
    | with_reducible apply does_setQue
    | with_reducible apply does_teardown
    | with_reducible apply does_cancelJoins
    | with_reducible apply does_advance
    | with_reducible apply does_advanceList
    | with_reducible apply does_teardownEnd
    | with_reducible apply Does.ifte
    | split
    | exact Sub.mono hT rfl
    | exact hT _ rfl
    | intro _

theorem does_resetEndQueues (s : State) (a : List Nat) {s0 : State} {msk : Nat} (hk : Does msk s0 s)
    (hT : Sub 0xc2001603328ac0 msk := by first | exact Sub.of_eq rfl | exact Sub.mono (by assumption) rfl) : Does msk s0 (resetEndQueues s a) := by
  induction a generalizing s with
  | nil => unfold resetEndQueues; with_reducible assumption
  | cons x r ih =>
    unfold resetEndQueues
    repeat' first
    | with_reducible apply ih
    | with_reducible assumption
    | with_reducible apply does_resetEndQueue
    | with_reducible apply Does.ifte
    | split
    | exact Sub.mono hT rfl
    | exact hT _ rfl
    | intro _

theorem does_dropCtxs (s : State) (p : Nat) {s0 : State} {msk : Nat} (hk : Does msk s0 s)
    (hT : Sub 0x900000000 msk := by first | exact Sub.of_eq rfl | exact Sub.mono (by assumption) rfl) : Does msk s0 (dropCtxs s p) := by
  delta dropCtxs
  repeat' first
    | with_reducible assumption
    | (extract_lets -underBinder +onlyGivenNames x; refine does_cut (msk := msk) (s0 := s0) (x := x) ?_ fun _ => ?_; rotate_left; clear_value x; revert x; intro _ _; rotate_left; subst x)
    | (extract_lets -underBinder +onlyGivenNames x; refine does_cut (msk := msk) (s0 := s0) (x := x.1) ?_ fun _ => ?_; rotate_left; clear_value x; revert x; intro _ _; rotate_left; subst x)
    | (extract_lets -underBinder +onlyGivenNames x; refine does_cut (msk := msk) (s0 := s0) (x := x.2) ?_ fun _ => ?_; rotate_left; clear_value x; revert x; intro _ _; rotate_left; subst x)
    | (extract_lets -underBinder +onlyGivenNames x; clear_value x; revert x; intro _)
    | with_reducible apply Does.ifte
    | with_reducible apply Does.ifte_fst
    | with_reducible apply Does.ifte_snd
    | split
    | with_reducible apply Does.updCtxsReloc
    | exact Sub.mono hT rfl
    | exact hT _ rfl
    | intro _

theorem does_zeroTiles (s : State) (a : List Nat) {s0 : State} {msk : Nat} (hk : Does msk s0 s)
    (hT : Sub 0x10000 msk := by first | exact Sub.of_eq rfl | exact Sub.mono (by assumption) rfl) : Does msk s0 (zeroTiles s a) := by
  induction a generalizing s with
  | nil => unfold zeroTiles; with_reducible assumption
  | cons x r ih =>
    unfold zeroTiles
    repeat' first
    | with_reducible apply ih
    | with_reducible assumption
    | with_reducible apply Does.ifte
    | split
    | with_reducible apply Does.updTile
    | exact fun x => x
    | exact Mem.wf_writeBytes _ _ _
    | exact Mem.wf_writeNat _ _ _ _
    | exact Mem.wf_blank _ _ _ _
    | exact Mem.wf_write _ _ _
    | exact tabWf_filter _ _
    | exact tabWf_put _ _ _
    | exact tabWf_drop _ _
    | exact Sub.mono hT rfl
    | exact hT _ rfl
    | intro _

theorem does_dropLoading (s : State) (p : Nat) {s0 : State} {msk : Nat} (hk : Does msk s0 s)
    (hT : Sub 0xc4000000000240 msk := by first | exact Sub.of_eq rfl | exact Sub.mono (by assumption) rfl) : Does msk s0 (dropLoading s p) := by
  delta dropLoading
  repeat' first
    | with_reducible assumption
    | with_reducible apply does_mbReply
    | with_reducible apply does_message
    | with_reducible apply Does.ifte
    | split
    | with_reducible apply Does.updLoading
    | exact Sub.mono hT rfl
    | exact hT _ rfl
    | intro _

theorem does_resetQuads (s : State) (p : Nat) (failed : List Nat) {s0 : State} {msk : Nat} (hk : Does msk s0 s)
    (hT : Sub 0xd0040 msk := by first | exact Sub.of_eq rfl | exact Sub.mono (by assumption) rfl) : Does msk s0 (resetQuads s p failed) := by
  delta resetQuads
  repeat' first
    | with_reducible assumption
    | (extract_lets -underBinder +onlyGivenNames x; refine does_cut (msk := msk) (s0 := s0) (x := x) ?_ fun _ => ?_; rotate_left; clear_value x; revert x; intro _ _; rotate_left; subst x)
    | (extract_lets -underBinder +onlyGivenNames x; clear_value x; revert x; intro _)
    | with_reducible apply does_startTests
    | with_reducible apply does_zeroSems
    | with_reducible apply does_zeroTiles
    | with_reducible apply Does.ifte
    | split
    | exact Sub.mono hT rfl
    | exact hT _ rfl
    | intro _

theorem does_resetMid (s : State) (r : PReset) {s0 : State} {msk : Nat} (hk : Does msk s0 s)
    (hT : Sub 0x802c6001f1fff8ae0 msk := by first | exact Sub.of_eq rfl | exact Sub.mono (by assumption) rfl) : Does msk s0 (resetMid s r) := by
  delta resetMid
  repeat' first
    | with_reducible assumption
    | (extract_lets -underBinder +onlyGivenNames x; refine does_cut (msk := msk) (s0 := s0) (x := x) ?_ fun _ => ?_; rotate_left; clear_value x; revert x; intro _ _; rotate_left; subst x)
    | (extract_lets -underBinder +onlyGivenNames x; clear_value x; revert x; intro _)
    | with_reducible apply does_setFld
    | with_reducible apply does_fenceSettle
    | with_reducible apply does_unloadModel
    | with_reducible apply does_updReset
    | with_reducible apply does_resetVectors
    | with_reducible apply does_resetArbs
    | with_reducible apply does_abandonJobs
    | with_reducible apply does_resetEndQueues
    | with_reducible apply does_dropCtxs
    | with_reducible apply does_dropLoading
    | with_reducible apply does_resetQuads
    | with_reducible apply Does.ifte
    | split
    | with_reducible apply Does.updHbm
    | with_reducible apply Does.updRepliesArrived
    | exact fun x => x
    | exact Mem.wf_writeBytes _ _ _
    | exact Mem.wf_writeNat _ _ _ _
    | exact Mem.wf_blank _ _ _ _
    | exact Mem.wf_write _ _ _
    | exact tabWf_filter _ _
    | exact tabWf_put _ _ _
    | exact tabWf_drop _ _
    | exact Sub.mono hT rfl
    | exact hT _ rfl
    | intro _

theorem does_resetMids (s : State) (a : List PReset) {s0 : State} {msk : Nat} (hk : Does msk s0 s)
    (hT : Sub 0x802c6001f1fff8ae0 msk := by first | exact Sub.of_eq rfl | exact Sub.mono (by assumption) rfl) : Does msk s0 (resetMids s a) := by
  induction a generalizing s with
  | nil => unfold resetMids; with_reducible assumption
  | cons x r ih =>
    unfold resetMids
    repeat' first
    | with_reducible apply ih
    | with_reducible assumption
    | with_reducible apply does_resetMid
    | with_reducible apply Does.ifte
    | split
    | exact Sub.mono hT rfl
    | exact hT _ rfl
    | intro _

theorem does_execPartResetDrained (p : Part) (c : Nat) (s : State) {s0 : State} {msk : Nat} (hk : Does msk s0 s)
    (hT : Sub 0x802c6001f1fff8ae2 msk := by first | exact Sub.of_eq rfl | exact Sub.mono (by assumption) rfl) : DoesOut msk s0 (execPartResetDrained p c s) := by
  delta execPartResetDrained
  repeat' first
    | with_reducible assumption
    | (extract_lets -underBinder +onlyGivenNames x; refine does_cut (msk := msk) (s0 := s0) (x := x) ?_ fun _ => ?_; rotate_left; clear_value x; revert x; intro _ _; rotate_left; subst x)
    | (extract_lets -underBinder +onlyGivenNames x; clear_value x; revert x; intro _)
    | with_reducible apply does_atAclk
    | with_reducible apply does_advance
    | with_reducible apply does_resetMids
    | with_reducible apply DoesOut.next
    | with_reducible apply DoesOut.ifte
    | with_reducible apply Does.ifte
    | with_reducible apply Does.ifte_fst
    | with_reducible apply Does.ifte_snd
    | split
    | exact Sub.mono hT rfl
    | exact hT _ rfl
    | intro _

theorem does_releaseEngines (s : State) (a : List Nat) {s0 : State} {msk : Nat} (hk : Does msk s0 s)
    (hT : Sub 0x40000 msk := by first | exact Sub.of_eq rfl | exact Sub.mono (by assumption) rfl) : Does msk s0 (releaseEngines s a) := by
  induction a generalizing s with
  | nil => unfold releaseEngines; with_reducible assumption
  | cons x r ih =>
    unfold releaseEngines
    repeat' first
    | with_reducible apply ih
    | with_reducible assumption
    | with_reducible apply does_setEng
    | with_reducible apply Does.ifte
    | split
    | exact Sub.mono hT rfl
    | exact hT _ rfl
    | intro _

theorem does_resetRelease (s : State) (r : PReset) {s0 : State} {msk : Nat} (hk : Does msk s0 s)
    (hT : Sub 0x800c00000000406c0 msk := by first | exact Sub.of_eq rfl | exact Sub.mono (by assumption) rfl) : Does msk s0 (resetRelease s r) := by
  delta resetRelease
  repeat' first
    | with_reducible assumption
    | (extract_lets -underBinder +onlyGivenNames x; refine does_cut (msk := msk) (s0 := s0) (x := x) ?_ fun _ => ?_; rotate_left; clear_value x; revert x; intro _ _; rotate_left; subst x)
    | (extract_lets -underBinder +onlyGivenNames x; refine does_cut (msk := msk) (s0 := s0) (x := x.1) ?_ fun _ => ?_; rotate_left; clear_value x; revert x; intro _ _; rotate_left; subst x)
    | (extract_lets -underBinder +onlyGivenNames x; clear_value x; revert x; intro _)
    | with_reducible apply does_setFld
    | with_reducible apply does_bumpSat
    | with_reducible apply does_append
    | with_reducible apply does_rebindIdle
    | with_reducible apply does_mbReply
    | with_reducible apply does_releaseEngines
    | with_reducible apply does_foldl
    | with_reducible apply Does.ifte
    | with_reducible apply Does.ifte_fst
    | with_reducible apply Does.ifte_snd
    | split
    | with_reducible apply Does.updMsixMsixCtl
    | with_reducible apply Does.updResets
    | exact Sub.mono hT rfl
    | exact hT _ rfl
    | intro _

theorem does_resetReleases (s : State) (a : List PReset) {s0 : State} {msk : Nat} (hk : Does msk s0 s)
    (hT : Sub 0x800c00000000406c0 msk := by first | exact Sub.of_eq rfl | exact Sub.mono (by assumption) rfl) : Does msk s0 (resetReleases s a) := by
  induction a generalizing s with
  | nil => unfold resetReleases; with_reducible assumption
  | cons x r ih =>
    unfold resetReleases
    repeat' first
    | with_reducible apply ih
    | with_reducible assumption
    | with_reducible apply does_resetRelease
    | with_reducible apply Does.ifte
    | split
    | exact Sub.mono hT rfl
    | exact hT _ rfl
    | intro _

theorem does_execPartResetRelease (p : Part) (c : Nat) (s : State) {s0 : State} {msk : Nat} (hk : Does msk s0 s)
    (hT : Sub 0x1800c00000000406c2 msk := by first | exact Sub.of_eq rfl | exact Sub.mono (by assumption) rfl) : DoesOut msk s0 (execPartResetRelease p c s) := by
  delta execPartResetRelease
  repeat' first
    | with_reducible assumption
    | (extract_lets -underBinder +onlyGivenNames x; refine does_cut (msk := msk) (s0 := s0) (x := x) ?_ fun _ => ?_; rotate_left; clear_value x; revert x; intro _ _; rotate_left; subst x)
    | (extract_lets -underBinder +onlyGivenNames x; clear_value x; revert x; intro _)
    | with_reducible apply does_atAclk
    | with_reducible apply does_raise
    | with_reducible apply does_append
    | with_reducible apply does_message
    | with_reducible apply does_resetRelease
    | with_reducible apply does_resetReleases
    | with_reducible apply DoesOut.next
    | with_reducible apply DoesOut.ifte
    | with_reducible apply Does.ifte
    | with_reducible apply Does.ifte_fst
    | with_reducible apply Does.ifte_snd
    | split
    | with_reducible apply Does.updWide
    | exact Sub.mono hT rfl
    | exact hT _ rfl
    | intro _

theorem does_resetAll (s : State) (a : List Nat) {s0 : State} {msk : Nat} (hk : Does msk s0 s)
    (hT : Sub 0x816024fd604f40040 msk := by first | exact Sub.of_eq rfl | exact Sub.mono (by assumption) rfl) : Does msk s0 (resetAll s a) := by
  induction a generalizing s with
  | nil => unfold resetAll; with_reducible assumption
  | cons x r ih =>
    unfold resetAll
    repeat' first
    | with_reducible apply ih
    | with_reducible assumption
    | with_reducible apply does_resetStart
    | with_reducible apply Does.ifte
    | split
    | exact Sub.mono hT rfl
    | exact hT _ rfl
    | intro _

theorem does_disableVfs (s : State) {s0 : State} {msk : Nat} (hk : Does msk s0 s)
    (hT : Sub 0x40 msk := by first | exact Sub.of_eq rfl | exact Sub.mono (by assumption) rfl) : Does msk s0 (disableVfs s) := by
  delta disableVfs
  repeat' first
    | with_reducible assumption
    | with_reducible apply does_setFld
    | with_reducible apply does_foldl
    | with_reducible apply Does.ifte
    | split
    | exact Sub.mono hT rfl
    | exact hT _ rfl
    | intro _

theorem does_resetConfig (s : State) (all : Bool) {s0 : State} {msk : Nat} (hk : Does msk s0 s)
    (hT : Sub 0x640 msk := by first | exact Sub.of_eq rfl | exact Sub.mono (by assumption) rfl) : Does msk s0 (resetConfig s all) := by
  delta resetConfig
  repeat' first
    | with_reducible assumption
    | (extract_lets -underBinder +onlyGivenNames x; refine does_cut (msk := msk) (s0 := s0) (x := x) ?_ fun _ => ?_; rotate_left; clear_value x; revert x; intro _ _; rotate_left; subst x)
    | (extract_lets -underBinder +onlyGivenNames x; refine does_cut (msk := msk) (s0 := s0) (x := x.1) ?_ fun _ => ?_; rotate_left; clear_value x; revert x; intro _ _; rotate_left; subst x)
    | (extract_lets -underBinder +onlyGivenNames x; clear_value x; revert x; intro _)
    | with_reducible apply does_wr
    | with_reducible apply does_setFld
    | with_reducible apply does_disableVfs
    | with_reducible apply Does.ifte
    | with_reducible apply Does.ifte_fst
    | with_reducible apply Does.ifte_snd
    | split
    | with_reducible apply Does.updMsixMsixCtl
    | exact Sub.mono hT rfl
    | exact hT _ rfl
    | intro _

theorem does_wideBegin (s : State) (cause : Nat) {s0 : State} {msk : Nat} (hk : Does msk s0 s)
    (hT : Sub 0x1816024fd604f40640 msk := by first | exact Sub.of_eq rfl | exact Sub.mono (by assumption) rfl) : Does msk s0 (wideBegin s cause) := by
  delta wideBegin
  repeat' first
    | with_reducible assumption
    | (extract_lets -underBinder +onlyGivenNames x; refine does_cut (msk := msk) (s0 := s0) (x := x) ?_ fun _ => ?_; rotate_left; clear_value x; revert x; intro _ _; rotate_left; subst x)
    | (extract_lets -underBinder +onlyGivenNames x; clear_value x; revert x; intro _)
    | with_reducible apply does_setArb
    | with_reducible apply does_resetAll
    | with_reducible apply does_resetConfig
    | with_reducible apply Does.ifte
    | split
    | with_reducible apply Does.updWide
    | exact Sub.mono hT rfl
    | exact hT _ rfl
    | intro _

theorem does_wideStart (s : State) (cause : Nat) {s0 : State} {msk : Nat} (hk : Does msk s0 s)
    (hT : Sub 0x1a16024fd604f40640 msk := by first | exact Sub.of_eq rfl | exact Sub.mono (by assumption) rfl) : Does msk s0 (wideStart s cause).1 := by
  delta wideStart
  repeat' first
    | with_reducible assumption
    | (extract_lets -underBinder +onlyGivenNames x; refine does_cut (msk := msk) (s0 := s0) (x := x) ?_ fun _ => ?_; rotate_left; clear_value x; revert x; intro _ _; rotate_left; subst x)
    | (extract_lets -underBinder +onlyGivenNames x; clear_value x; revert x; intro _)
    | with_reducible apply does_wideBegin
    | with_reducible apply Does.ifte
    | with_reducible apply Does.ifte_fst
    | with_reducible apply Does.ifte_snd
    | split
    | with_reducible apply Does.updPower
    | exact Sub.mono hT rfl
    | exact hT _ rfl
    | intro _

theorem does_execVfFlr (p : Part) (c : Nat) (s : State) {s0 : State} {msk : Nat} (hk : Does msk s0 s)
    (hT : Sub 0x816024fd604f40642 msk := by first | exact Sub.of_eq rfl | exact Sub.mono (by assumption) rfl) : DoesOut msk s0 (execVfFlr p c s) := by
  delta execVfFlr
  repeat' first
    | with_reducible assumption
    | (extract_lets -underBinder +onlyGivenNames x; refine does_cut (msk := msk) (s0 := s0) (x := x) ?_ fun _ => ?_; rotate_left; clear_value x; revert x; intro _ _; rotate_left; subst x)
    | (extract_lets -underBinder +onlyGivenNames x; refine does_cut (msk := msk) (s0 := s0) (x := x.1) ?_ fun _ => ?_; rotate_left; clear_value x; revert x; intro _ _; rotate_left; subst x)
    | (extract_lets -underBinder +onlyGivenNames x; clear_value x; revert x; intro _)
    | with_reducible apply does_atAclk
    | with_reducible apply does_resetStart
    | with_reducible apply DoesOut.next
    | with_reducible apply DoesOut.ifte
    | with_reducible apply Does.ifte
    | with_reducible apply Does.ifte_fst
    | with_reducible apply Does.ifte_snd
    | split
    | with_reducible apply Does.updMsixMsixCtl
    | exact Sub.mono hT rfl
    | exact hT _ rfl
    | intro _

theorem does_resetLost (s : State) (a : List Nat) {s0 : State} {msk : Nat} (hk : Does msk s0 s)
    (hT : Sub 0x816024fd604f40640 msk := by first | exact Sub.of_eq rfl | exact Sub.mono (by assumption) rfl) : Does msk s0 (resetLost s a) := by
  induction a generalizing s with
  | nil => unfold resetLost; with_reducible assumption
  | cons x r ih =>
    unfold resetLost
    repeat' first
    | with_reducible apply ih
    | with_reducible assumption
    | with_reducible apply does_resetStart
    | with_reducible apply Does.ifte
    | with_reducible apply Does.ifte_fst
    | with_reducible apply Does.ifte_snd
    | split
    | with_reducible apply Does.updMsixMsixCtl
    | exact Sub.mono hT rfl
    | exact hT _ rfl
    | intro _

theorem does_execVfEnableChange (en : Bool) (num : Fin 9) (c : Nat) (s : State) {s0 : State} {msk : Nat} (hk : Does msk s0 s)
    (hT : Sub 0x816024fd604f40642 msk := by first | exact Sub.of_eq rfl | exact Sub.mono (by assumption) rfl) : DoesOut msk s0 (execVfEnableChange en num c s) := by
  delta execVfEnableChange
  repeat' first
    | with_reducible assumption
    | (extract_lets -underBinder +onlyGivenNames x; refine does_cut (msk := msk) (s0 := s0) (x := x) ?_ fun _ => ?_; rotate_left; clear_value x; revert x; intro _ _; rotate_left; subst x)
    | (extract_lets -underBinder +onlyGivenNames x; clear_value x; revert x; intro _)
    | with_reducible apply does_setFld
    | with_reducible apply does_atAclk
    | with_reducible apply does_resetLost
    | with_reducible apply does_foldl
    | with_reducible apply DoesOut.next
    | with_reducible apply DoesOut.ifte
    | with_reducible apply Does.ifte
    | with_reducible apply Does.ifte_fst
    | with_reducible apply Does.ifte_snd
    | split
    | exact Sub.mono hT rfl
    | exact hT _ rfl
    | intro _

theorem does_execPartReset (m : Mb) (c : Nat) (s : State) {s0 : State} {msk : Nat} (hk : Does msk s0 s)
    (hT : Sub 0x816c24fd604f40242 msk := by first | exact Sub.of_eq rfl | exact Sub.mono (by assumption) rfl) : DoesOut msk s0 (execPartReset m c s) := by
  delta execPartReset
  repeat' first
    | with_reducible assumption
    | (extract_lets -underBinder +onlyGivenNames x; refine does_cut (msk := msk) (s0 := s0) (x := x) ?_ fun _ => ?_; rotate_left; clear_value x; revert x; intro _ _; rotate_left; subst x)
    | (extract_lets -underBinder +onlyGivenNames x; clear_value x; revert x; intro _)
    | with_reducible apply does_atAclk
    | with_reducible apply does_mbReply
    | with_reducible apply does_mbBegin
    | with_reducible apply does_message
    | with_reducible apply does_resetStart
    | with_reducible apply DoesOut.next
    | with_reducible apply DoesOut.ifte
    | with_reducible apply Does.ifte
    | with_reducible apply Does.ifte_fst
    | with_reducible apply Does.ifte_snd
    | split
    | exact Sub.mono hT rfl
    | exact hT _ rfl
    | intro _

theorem does_execPartDestroy (m : Mb) (c : Nat) (s : State) {s0 : State} {msk : Nat} (hk : Does msk s0 s)
    (hT : Sub 0x800c00000000d0242 msk := by first | exact Sub.of_eq rfl | exact Sub.mono (by assumption) rfl) : DoesOut msk s0 (execPartDestroy m c s) := by
  delta execPartDestroy
  repeat' first
    | with_reducible assumption
    | (extract_lets -underBinder +onlyGivenNames x; refine does_cut (msk := msk) (s0 := s0) (x := x) ?_ fun _ => ?_; rotate_left; clear_value x; revert x; intro _ _; rotate_left; subst x)
    | (extract_lets -underBinder +onlyGivenNames x; refine does_cut (msk := msk) (s0 := s0) (x := x.2) ?_ fun _ => ?_; rotate_left; clear_value x; revert x; intro _ _; rotate_left; subst x)
    | (extract_lets -underBinder +onlyGivenNames x; clear_value x; revert x; intro _)
    | with_reducible apply does_atAclk
    | with_reducible apply does_mbReply
    | with_reducible apply does_mbBegin
    | with_reducible apply does_message
    | with_reducible apply does_resetEngines
    | with_reducible apply does_resetQuads
    | with_reducible apply DoesOut.next
    | with_reducible apply DoesOut.ifte
    | with_reducible apply Does.ifte
    | with_reducible apply Does.ifte_fst
    | with_reducible apply Does.ifte_snd
    | split
    | with_reducible apply Does.updResets
    | exact Sub.mono hT rfl
    | exact hT _ rfl
    | intro _

theorem does_regrow (s : State) {s0 : State} {msk : Nat} (hk : Does msk s0 s)
    (hT : Sub 0x40 msk := by first | exact Sub.of_eq rfl | exact Sub.mono (by assumption) rfl) : Does msk s0 (regrow s) := by
  delta regrow
  repeat' first
    | with_reducible assumption
    | (extract_lets -underBinder +onlyGivenNames x; refine does_cut (msk := msk) (s0 := s0) (x := x) ?_ fun _ => ?_; rotate_left; clear_value x; revert x; intro _ _; rotate_left; subst x)
    | (extract_lets -underBinder +onlyGivenNames x; clear_value x; revert x; intro _)
    | with_reducible apply does_setFld
    | with_reducible apply does_foldl
    | with_reducible apply Does.ifte
    | split
    | exact Sub.mono hT rfl
    | exact hT _ rfl
    | intro _

theorem does_destroyPart (s : State) (p : Nat) {s0 : State} {msk : Nat} (hk : Does msk s0 s)
    (hT : Sub 0x1600000000000040 msk := by first | exact Sub.of_eq rfl | exact Sub.mono (by assumption) rfl) : Does msk s0 (destroyPart s p) := by
  delta destroyPart
  repeat' first
    | with_reducible assumption
    | (extract_lets -underBinder +onlyGivenNames x; refine does_cut (msk := msk) (s0 := s0) (x := x) ?_ fun _ => ?_; rotate_left; clear_value x; revert x; intro _ _; rotate_left; subst x)
    | (extract_lets -underBinder +onlyGivenNames x; clear_value x; revert x; intro _)
    | with_reducible apply does_wr
    | with_reducible apply does_setFld
    | with_reducible apply does_resetUnits
    | with_reducible apply does_regrow
    | with_reducible apply does_foldl
    | with_reducible apply Does.ifte
    | split
    | exact Sub.mono hT rfl
    | exact hT _ rfl
    | intro _

theorem does_execPartDestroyDone (p : Part) (c : Nat) (s : State) {s0 : State} {msk : Nat} (hk : Does msk s0 s)
    (hT : Sub 0x816c0000000040242 msk := by first | exact Sub.of_eq rfl | exact Sub.mono (by assumption) rfl) : DoesOut msk s0 (execPartDestroyDone p c s) := by
  delta execPartDestroyDone
  repeat' first
    | with_reducible assumption
    | (extract_lets -underBinder +onlyGivenNames x; refine does_cut (msk := msk) (s0 := s0) (x := x) ?_ fun _ => ?_; rotate_left; clear_value x; revert x; intro _ _; rotate_left; subst x)
    | (extract_lets -underBinder +onlyGivenNames x; clear_value x; revert x; intro _)
    | with_reducible apply does_atAclk
    | with_reducible apply does_rebindIdle
    | with_reducible apply does_mbReply
    | with_reducible apply does_releaseEngines
    | with_reducible apply does_destroyPart
    | with_reducible apply does_foldl
    | with_reducible apply DoesOut.next
    | with_reducible apply DoesOut.ifte
    | with_reducible apply Does.ifte
    | with_reducible apply Does.ifte_fst
    | with_reducible apply Does.ifte_snd
    | split
    | with_reducible apply Does.updResets
    | exact Sub.mono hT rfl
    | exact hT _ rfl
    | intro _

end Sys2Proof.Machine
end

