-- ==== Sys2Proof/Laws/Does/Power.lean ====
section
/-!
SUPPORT. What every function of Machine/Power.lean does: it keeps the queue and the invariant, and changes
no field of the state outside the set its lemma names.
-/
set_option linter.unreachableTactic false
set_option linter.unusedTactic false

namespace Sys2Proof.Machine

set_option Elab.async false

theorem does_setPwr (s : State) (cur : Nat) (target : Nat) (busy : Bool) (step : Nat) {s0 : State} {msk : Nat} (hk : Does msk s0 s)
    (hT : Sub 0x40 msk := by first | exact Sub.of_eq rfl | exact Sub.mono (by assumption) rfl) : Does msk s0 (setPwr s cur target busy step) := by
  delta setPwr
  repeat' first
    | with_reducible assumption
    | with_reducible apply does_setFld
    | with_reducible apply Does.ifte
    | split
    | exact Sub.mono hT rfl
    | exact hT _ rfl
    | intro _

theorem does_setPll (s : State) (b : Bool) {s0 : State} {msk : Nat} (hk : Does msk s0 s)
    (hT : Sub 0x4005c msk := by first | exact Sub.of_eq rfl | exact Sub.mono (by assumption) rfl) : Does msk s0 (setPll s b) := by
  delta setPll
  repeat' first
    | with_reducible assumption
    | (extract_lets -underBinder +onlyGivenNames x; refine does_cut (msk := msk) (s0 := s0) (x := x) ?_ fun _ => ?_; rotate_left; clear_value x; revert x; intro _ _; rotate_left; subst x)
    | (extract_lets -underBinder +onlyGivenNames x; clear_value x; revert x; intro _)
    | with_reducible apply does_setFld
    | with_reducible apply Does.ifte
    | split
    | with_reducible apply Does.updPllAclkBaseAclkFrom
    | with_reducible apply Does.updEngines
    | exact Sub.mono hT rfl
    | exact hT _ rfl
    | intro _

theorem does_setClks {msk : Nat} (s : State) (b : Bool) {s0 : State} (h : Does msk s0 s)
    (hT : Sub 0x40000 msk := by first | exact Sub.of_eq rfl | exact Sub.mono (by assumption) rfl) : Does msk s0 (setClks s b) := by
  unfold setClks
  refine does_foldl _ _ h fun s e h => ?_
  with_reducible apply Does.ifte
  · exact does_setEng _ _ _ h
  · exact h

theorem does_pwrReply (s : State) (status : Nat) (words : List Nat) {s0 : State} {msk : Nat} (hk : Does msk s0 s)
    (hT : Sub 0x200c0000000000240 msk := by first | exact Sub.of_eq rfl | exact Sub.mono (by assumption) rfl) : Does msk s0 (pwrReply s status words) := by
  delta pwrReply
  repeat' first
    | with_reducible assumption
    | (extract_lets -underBinder +onlyGivenNames x; refine does_cut (msk := msk) (s0 := s0) (x := x) ?_ fun _ => ?_; rotate_left; clear_value x; revert x; intro _ _; rotate_left; subst x)
    | (extract_lets -underBinder +onlyGivenNames x; clear_value x; revert x; intro _)
    | with_reducible apply does_reply
    | with_reducible apply does_mbReply
    | with_reducible apply does_message
    | with_reducible apply Does.ifte
    | split
    | with_reducible apply Does.updPower
    | exact Sub.mono hT rfl
    | exact hT _ rfl
    | intro _

theorem does_pwrDone (s : State) {s0 : State} {msk : Nat} (hk : Does msk s0 s)
    (hT : Sub 0x40 msk := by first | exact Sub.of_eq rfl | exact Sub.mono (by assumption) rfl) : Does msk s0 (pwrDone s) := by
  delta pwrDone
  repeat' first
    | with_reducible assumption
    | with_reducible apply does_bump
    | with_reducible apply Does.ifte
    | split
    | exact Sub.mono hT rfl
    | exact hT _ rfl
    | intro _

theorem does_shiftTimers (s : State) {s0 : State} {msk : Nat} (hk : Does msk s0 s)
    (hT : Sub 0x1400000000 msk := by first | exact Sub.of_eq rfl | exact Sub.mono (by assumption) rfl) : Does msk s0 (shiftTimers s) := by
  delta shiftTimers
  repeat' first
    | with_reducible assumption
    | (extract_lets -underBinder +onlyGivenNames x; refine does_cut (msk := msk) (s0 := s0) (x := x) ?_ fun _ => ?_; rotate_left; clear_value x; revert x; intro _ _; rotate_left; subst x)
    | (extract_lets -underBinder +onlyGivenNames x; clear_value x; revert x; intro _)
    | with_reducible apply Does.ifte
    | split
    | with_reducible apply Does.updSlotsJobs
    | exact Sub.mono hT rfl
    | exact hT _ rfl
    | intro _

theorem does_rejudge (s : State) {s0 : State} {msk : Nat} (hk : Does msk s0 s)
    (hT : Sub 0x1600100000 msk := by first | exact Sub.of_eq rfl | exact Sub.mono (by assumption) rfl) : Does msk s0 (rejudge s) := by
  delta rejudge
  repeat' first
    | with_reducible assumption
    | with_reducible apply does_fenceWake
    | with_reducible apply does_foldl
    | with_reducible apply Does.ifte
    | split
    | exact Sub.mono hT rfl
    | exact hT _ rfl
    | intro _

theorem does_wakeBegin (s : State) (target : Nat) (mbox : Option Nat) {s0 : State} {msk : Nat} (hk : Does msk s0 s)
    (hT : Sub 0x2000000000004005c msk := by first | exact Sub.of_eq rfl | exact Sub.mono (by assumption) rfl) : Does msk s0 (wakeBegin s target mbox) := by
  delta wakeBegin
  repeat' first
    | with_reducible assumption
    | (extract_lets -underBinder +onlyGivenNames x; refine does_cut (msk := msk) (s0 := s0) (x := x) ?_ fun _ => ?_; rotate_left; clear_value x; revert x; intro _ _; rotate_left; subst x)
    | (extract_lets -underBinder +onlyGivenNames x; clear_value x; revert x; intro _)
    | with_reducible apply does_setFld
    | with_reducible apply does_setPwr
    | with_reducible apply does_setPll
    | with_reducible apply Does.ifte
    | split
    | with_reducible apply Does.updEngines
    | with_reducible apply Does.updPower
    | exact Sub.mono hT rfl
    | exact hT _ rfl
    | intro _

theorem does_wakeLc (s : State) {s0 : State} {msk : Nat} (hk : Does msk s0 s)
    (hT : Sub 0xa000000000003c0 msk := by first | exact Sub.of_eq rfl | exact Sub.mono (by assumption) rfl) : Does msk s0 (wakeLc s) := by
  delta wakeLc
  repeat' first
    | with_reducible assumption
    | (extract_lets -underBinder +onlyGivenNames x; refine does_cut (msk := msk) (s0 := s0) (x := x) ?_ fun _ => ?_; rotate_left; clear_value x; revert x; intro _ _; rotate_left; subst x)
    | (extract_lets -underBinder +onlyGivenNames x; clear_value x; revert x; intro _)
    | with_reducible apply does_lcFrameEdge
    | with_reducible apply Does.ifte
    | split
    | with_reducible apply Does.updLc
    | exact Sub.mono hT rfl
    | exact hT _ rfl
    | intro _

theorem does_restoreFlc (s : State) {s0 : State} {msk : Nat} (hk : Does msk s0 s)
    (hT : Sub 0x40000 msk := by first | exact Sub.of_eq rfl | exact Sub.mono (by assumption) rfl) : Does msk s0 (restoreFlc s) := by
  delta restoreFlc
  repeat' first
    | with_reducible assumption
    | with_reducible apply Does.ifte
    | split
    | with_reducible apply Does.updEngines
    | exact Sub.mono hT rfl
    | exact hT _ rfl
    | intro _

theorem does_restoreGroups (s : State) (a : List Nat) {s0 : State} {msk : Nat} (hk : Does msk s0 s)
    (hT : Sub 0x40 msk := by first | exact Sub.of_eq rfl | exact Sub.mono (by assumption) rfl) : Does msk s0 (restoreGroups s a) := by
  induction a generalizing s with
  | nil => unfold restoreGroups; with_reducible assumption
  | cons x r ih =>
    unfold restoreGroups
    repeat' first
    | with_reducible apply ih
    | with_reducible assumption
    | (extract_lets -underBinder +onlyGivenNames x; refine does_cut (msk := msk) (s0 := s0) (x := x) ?_ fun _ => ?_; rotate_left; clear_value x; revert x; intro _ _; rotate_left; subst x)
    | (extract_lets -underBinder +onlyGivenNames x; clear_value x; revert x; intro _)
    | with_reducible apply does_setFld
    | with_reducible apply Does.ifte
    | split
    | exact Sub.mono hT rfl
    | exact hT _ rfl
    | intro _

theorem does_wakeDomains (s : State) (t : Nat) {s0 : State} {msk : Nat} (hk : Does msk s0 s)
    (hT : Sub 0x40 msk := by first | exact Sub.of_eq rfl | exact Sub.mono (by assumption) rfl) : Does msk s0 (wakeDomains s t) := by
  delta wakeDomains
  repeat' first
    | with_reducible assumption
    | (extract_lets -underBinder +onlyGivenNames x; refine does_cut (msk := msk) (s0 := s0) (x := x) ?_ fun _ => ?_; rotate_left; clear_value x; revert x; intro _ _; rotate_left; subst x)
    | (extract_lets -underBinder +onlyGivenNames x; clear_value x; revert x; intro _)
    | with_reducible apply does_setFld
    | with_reducible apply does_foldl
    | with_reducible apply Does.ifte
    | split
    | exact Sub.mono hT rfl
    | exact hT _ rfl
    | intro _

theorem does_wakeEnd (s : State) {s0 : State} {msk : Nat} (hk : Does msk s0 s)
    (hT : Sub 0x5a1ec24fd604f407c0 msk := by first | exact Sub.of_eq rfl | exact Sub.mono (by assumption) rfl) : Does msk s0 (wakeEnd s) := by
  delta wakeEnd
  repeat' first
    | with_reducible assumption
    | (extract_lets -underBinder +onlyGivenNames x; refine does_cut (msk := msk) (s0 := s0) (x := x) ?_ fun _ => ?_; rotate_left; clear_value x; revert x; intro _ _; rotate_left; subst x)
    | (extract_lets -underBinder +onlyGivenNames x; clear_value x; revert x; intro _)
    | with_reducible apply does_wr
    | with_reducible apply does_setFld
    | with_reducible apply does_reply
    | with_reducible apply does_wideBegin
    | with_reducible apply does_setPwr
    | with_reducible apply does_pwrReply
    | with_reducible apply does_pwrDone
    | with_reducible apply does_shiftTimers
    | with_reducible apply does_rejudge
    | with_reducible apply does_wakeLc
    | with_reducible apply does_restoreFlc
    | with_reducible apply does_restoreGroups
    | with_reducible apply does_wakeDomains
    | with_reducible apply does_foldl
    | with_reducible apply Does.ifte
    | split
    | with_reducible apply Does.updPipes
    | with_reducible apply Does.updPipesPcieOut
    | with_reducible apply Does.updPower
    | exact Sub.mono hT rfl
    | exact hT _ rfl
    | intro _

theorem does_memoryReady (s : State) {s0 : State} {msk : Nat} (hk : Does msk s0 s)
    (hT : Sub 0x40 msk := by first | exact Sub.of_eq rfl | exact Sub.mono (by assumption) rfl) : Does msk s0 (memoryReady s) := by
  delta memoryReady
  repeat' first
    | with_reducible assumption
    | with_reducible apply does_setFld
    | with_reducible apply does_foldl
    | with_reducible apply Does.ifte
    | split
    | exact Sub.mono hT rfl
    | exact hT _ rfl
    | intro _

theorem does_execWakeStepReady (t : Nat) (s : State) {s0 : State} {msk : Nat} (hk : Does msk s0 s)
    (hT : Sub 0x5a1ec24fd604f407c2 msk := by first | exact Sub.of_eq rfl | exact Sub.mono (by assumption) rfl) : DoesOut msk s0 (execWakeStepReady t s) := by
  delta execWakeStepReady
  repeat' first
    | with_reducible assumption
    | (extract_lets -underBinder +onlyGivenNames x; refine does_cut (msk := msk) (s0 := s0) (x := x) ?_ fun _ => ?_; rotate_left; clear_value x; revert x; intro _ _; rotate_left; subst x)
    | (extract_lets -underBinder +onlyGivenNames x; clear_value x; revert x; intro _)
    | with_reducible apply does_setFld
    | with_reducible apply does_atWake
    | with_reducible apply does_wakeEnd
    | with_reducible apply does_memoryReady
    | with_reducible apply DoesOut.next
    | with_reducible apply DoesOut.ifte
    | with_reducible apply Does.ifte
    | with_reducible apply Does.ifte_fst
    | with_reducible apply Does.ifte_snd
    | split
    | with_reducible apply Does.updPower
    | exact Sub.mono hT rfl
    | exact hT _ rfl
    | intro _

theorem does_execWakeStepTimeout (unit : Nat) (t : Nat) (s : State) {s0 : State} {msk : Nat} (hk : Does msk s0 s)
    (hT : Sub 0x200c00000000002c2 msk := by first | exact Sub.of_eq rfl | exact Sub.mono (by assumption) rfl) : DoesOut msk s0 (execWakeStepTimeout unit t s) := by
  delta execWakeStepTimeout
  repeat' first
    | with_reducible assumption
    | (extract_lets -underBinder +onlyGivenNames x; refine does_cut (msk := msk) (s0 := s0) (x := x) ?_ fun _ => ?_; rotate_left; clear_value x; revert x; intro _ _; rotate_left; subst x)
    | (extract_lets -underBinder +onlyGivenNames x; clear_value x; revert x; intro _)
    | with_reducible apply does_setFld
    | with_reducible apply does_atWake
    | with_reducible apply does_append
    | with_reducible apply does_setPwr
    | with_reducible apply does_pwrReply
    | with_reducible apply DoesOut.next
    | with_reducible apply DoesOut.ifte
    | with_reducible apply Does.ifte
    | with_reducible apply Does.ifte_fst
    | with_reducible apply Does.ifte_snd
    | split
    | with_reducible apply Does.updPower
    | exact Sub.mono hT rfl
    | exact hT _ rfl
    | intro _

theorem does_execPowerState (m : Mb) (t : Nat) (s : State) {s0 : State} {msk : Nat} (hk : Does msk s0 s)
    (hT : Sub 0x200c000000004025e msk := by first | exact Sub.of_eq rfl | exact Sub.mono (by assumption) rfl) : DoesOut msk s0 (execPowerState m t s) := by
  delta execPowerState
  repeat' first
    | with_reducible assumption
    | (extract_lets -underBinder +onlyGivenNames x; refine does_cut (msk := msk) (s0 := s0) (x := x) ?_ fun _ => ?_; rotate_left; clear_value x; revert x; intro _ _; rotate_left; subst x)
    | (extract_lets -underBinder +onlyGivenNames x; clear_value x; revert x; intro _)
    | with_reducible apply does_atWake
    | with_reducible apply does_mbReply
    | with_reducible apply does_mbBegin
    | with_reducible apply does_message
    | with_reducible apply does_setPwr
    | with_reducible apply does_wakeBegin
    | with_reducible apply DoesOut.next
    | with_reducible apply DoesOut.ifte
    | with_reducible apply Does.ifte
    | with_reducible apply Does.ifte_fst
    | with_reducible apply Does.ifte_snd
    | split
    | with_reducible apply Does.updPower
    | exact Sub.mono hT rfl
    | exact hT _ rfl
    | intro _

theorem does_flushSectors (s : State) (e : Nat) (l : FarLine) (a : List Nat) {s0 : State} {msk : Nat} (hk : Does msk s0 s)
    (hT : Sub 0x28ac0 msk := by first | exact Sub.of_eq rfl | exact Sub.mono (by assumption) rfl) : Does msk s0 (flushSectors s e l a) := by
  induction a generalizing s e l with
  | nil => unfold flushSectors; with_reducible assumption
  | cons x r ih =>
    unfold flushSectors
    repeat' first
    | with_reducible apply ih
    | with_reducible assumption
    | (extract_lets -underBinder +onlyGivenNames x; refine does_cut (msk := msk) (s0 := s0) (x := x) ?_ fun _ => ?_; rotate_left; clear_value x; revert x; intro _ _; rotate_left; subst x)
    | (extract_lets -underBinder +onlyGivenNames x; clear_value x; revert x; intro _)
    | with_reducible apply does_devWrite
    | with_reducible apply does_violation
    | with_reducible apply Does.ifte
    | split
    | exact Sub.mono hT rfl
    | exact hT _ rfl
    | intro _

theorem does_flushEngines (s : State) (a : List Nat) {s0 : State} {msk : Nat} (hk : Does msk s0 s)
    (hT : Sub 0x68ac0 msk := by first | exact Sub.of_eq rfl | exact Sub.mono (by assumption) rfl) : Does msk s0 (flushEngines s a) := by
  induction a generalizing s with
  | nil => unfold flushEngines; with_reducible assumption
  | cons x r ih =>
    unfold flushEngines
    repeat' first
    | with_reducible apply ih
    | with_reducible assumption
    | (extract_lets -underBinder +onlyGivenNames x; refine does_cut (msk := msk) (s0 := s0) (x := x) ?_ fun _ => ?_; rotate_left; clear_value x; revert x; intro _ _; rotate_left; subst x)
    | (extract_lets -underBinder +onlyGivenNames x; refine does_cut (msk := msk) (s0 := s0) (x := x.2) ?_ fun _ => ?_; rotate_left; clear_value x; revert x; intro _ _; rotate_left; subst x)
    | (extract_lets -underBinder +onlyGivenNames x; clear_value x; revert x; intro _)
    | with_reducible apply does_setFld
    | with_reducible apply does_setEng
    | with_reducible apply does_flushSectors
    | with_reducible apply does_foldl
    | with_reducible apply Does.ifte
    | with_reducible apply Does.ifte_fst
    | with_reducible apply Does.ifte_snd
    | split
    | exact Sub.mono hT rfl
    | exact hT _ rfl
    | intro _

theorem does_enterP1 (s : State) {s0 : State} {msk : Nat} (hk : Does msk s0 s)
    (hT : Sub 0x40 msk := by first | exact Sub.of_eq rfl | exact Sub.mono (by assumption) rfl) : Does msk s0 (enterP1 s) := by
  delta enterP1
  repeat' first
    | with_reducible assumption
    | with_reducible apply does_setFld
    | with_reducible apply Does.ifte
    | split
    | exact Sub.mono hT rfl
    | exact hT _ rfl
    | intro _

theorem does_enterP2 (s : State) {s0 : State} {msk : Nat} (hk : Does msk s0 s)
    (hT : Sub 0x68adc msk := by first | exact Sub.of_eq rfl | exact Sub.mono (by assumption) rfl) : Does msk s0 (enterP2 s) := by
  delta enterP2
  repeat' first
    | with_reducible assumption
    | (extract_lets -underBinder +onlyGivenNames x; refine does_cut (msk := msk) (s0 := s0) (x := x) ?_ fun _ => ?_; rotate_left; clear_value x; revert x; intro _ _; rotate_left; subst x)
    | (extract_lets -underBinder +onlyGivenNames x; clear_value x; revert x; intro _)
    | with_reducible apply does_setFld
    | with_reducible apply does_setPll
    | with_reducible apply does_flushEngines
    | with_reducible apply Does.ifte
    | split
    | exact Sub.mono hT rfl
    | exact hT _ rfl
    | intro _

theorem does_enterP3 (s : State) {s0 : State} {msk : Nat} (hk : Does msk s0 s)
    (hT : Sub 0x200000c00090160 msk := by first | exact Sub.of_eq rfl | exact Sub.mono (by assumption) rfl) : Does msk s0 (enterP3 s) := by
  delta enterP3
  repeat' first
    | with_reducible assumption
    | (extract_lets -underBinder +onlyGivenNames x; refine does_cut (msk := msk) (s0 := s0) (x := x) ?_ fun _ => ?_; rotate_left; clear_value x; revert x; intro _ _; rotate_left; subst x)
    | (extract_lets -underBinder +onlyGivenNames x; clear_value x; revert x; intro _)
    | with_reducible apply does_setFld
    | with_reducible apply does_blankTiles
    | with_reducible apply does_zeroSems
    | with_reducible apply does_foldl
    | with_reducible apply Does.ifte
    | split
    | with_reducible apply Does.updLcSlotsRelocCaps
    | exact Sub.mono hT rfl
    | exact hT _ rfl
    | intro _

theorem does_linkLost (s : State) {s0 : State} {msk : Nat} (hk : Does msk s0 s)
    (hT : Sub 0x2c0 msk := by first | exact Sub.of_eq rfl | exact Sub.mono (by assumption) rfl) : Does msk s0 (linkLost s) := by
  delta linkLost
  repeat' first
    | with_reducible assumption
    | with_reducible apply does_bumpSat
    | with_reducible apply does_append
    | with_reducible apply Does.ifte
    | split
    | exact Sub.mono hT rfl
    | exact hT _ rfl
    | intro _

theorem does_enterP4 (s : State) {s0 : State} {msk : Nat} (hk : Does msk s0 s)
    (hT : Sub 0x4200c00000000086e0 msk := by first | exact Sub.of_eq rfl | exact Sub.mono (by assumption) rfl) : Does msk s0 (enterP4 s) := by
  delta enterP4
  repeat' first
    | with_reducible assumption
    | (extract_lets -underBinder +onlyGivenNames x; refine does_cut (msk := msk) (s0 := s0) (x := x) ?_ fun _ => ?_; rotate_left; clear_value x; revert x; intro _ _; rotate_left; subst x)
    | (extract_lets -underBinder +onlyGivenNames x; clear_value x; revert x; intro _)
    | with_reducible apply does_setFld
    | with_reducible apply does_reply
    | with_reducible apply does_resetConfig
    | with_reducible apply does_pwrReply
    | with_reducible apply does_linkLost
    | with_reducible apply does_foldl
    | with_reducible apply Does.ifte
    | split
    | with_reducible apply Does.updFreshHbmPcieOut
    | exact fun x => x
    | exact Mem.wf_writeBytes _ _ _
    | exact Mem.wf_writeNat _ _ _ _
    | exact Mem.wf_blank _ _ _ _
    | exact Mem.wf_write _ _ _
    | exact tabWf_filter _ _
    | exact tabWf_put _ _ _
    | exact tabWf_drop _ _
    | exact Sub.mono hT rfl
    | exact hT _ rfl
    | intro _

theorem does_execPowerEntryStep (t : Nat) (s : State) {s0 : State} {msk : Nat} (hk : Does msk s0 s)
    (hT : Sub 0x4202c0000c000f8ffe msk := by first | exact Sub.of_eq rfl | exact Sub.mono (by assumption) rfl) : DoesOut msk s0 (execPowerEntryStep t s) := by
  delta execPowerEntryStep
  repeat' first
    | with_reducible assumption
    | (extract_lets -underBinder +onlyGivenNames x; refine does_cut (msk := msk) (s0 := s0) (x := x) ?_ fun _ => ?_; rotate_left; clear_value x; revert x; intro _ _; rotate_left; subst x)
    | (extract_lets -underBinder +onlyGivenNames x; refine does_cut (msk := msk) (s0 := s0) (x := x.2) ?_ fun _ => ?_; rotate_left; clear_value x; revert x; intro _ _; rotate_left; subst x)
    | (extract_lets -underBinder +onlyGivenNames x; clear_value x; revert x; intro _)
    | with_reducible apply does_atWake
    | with_reducible apply does_setPwr
    | with_reducible apply does_pwrReply
    | with_reducible apply does_pwrDone
    | with_reducible apply does_wakeBegin
    | with_reducible apply does_enterP1
    | with_reducible apply does_enterP2
    | with_reducible apply does_enterP3
    | with_reducible apply does_enterP4
    | with_reducible apply DoesOut.next
    | with_reducible apply DoesOut.ifte
    | with_reducible apply Does.ifte
    | with_reducible apply Does.ifte_fst
    | with_reducible apply Does.ifte_snd
    | split
    | with_reducible apply Does.updPower
    | exact Sub.mono hT rfl
    | exact hT _ rfl
    | intro _

theorem does_execClockSwitchPll (m : Mb) (t : Nat) (s : State) {s0 : State} {msk : Nat} (hk : Does msk s0 s)
    (hT : Sub 0x200c0000000000242 msk := by first | exact Sub.of_eq rfl | exact Sub.mono (by assumption) rfl) : DoesOut msk s0 (execClockSwitchPll m t s) := by
  delta execClockSwitchPll
  repeat' first
    | with_reducible assumption
    | with_reducible apply does_atWake
    | with_reducible apply does_mbReply
    | with_reducible apply does_mbBegin
    | with_reducible apply does_message
    | with_reducible apply DoesOut.next
    | with_reducible apply DoesOut.ifte
    | with_reducible apply Does.ifte
    | with_reducible apply Does.ifte_fst
    | with_reducible apply Does.ifte_snd
    | split
    | with_reducible apply Does.updPower
    | exact Sub.mono hT rfl
    | exact hT _ rfl
    | intro _

theorem does_execPllLock (t : Nat) (s : State) {s0 : State} {msk : Nat} (hk : Does msk s0 s)
    (hT : Sub 0x200c000000004025e msk := by first | exact Sub.of_eq rfl | exact Sub.mono (by assumption) rfl) : DoesOut msk s0 (execPllLock t s) := by
  delta execPllLock
  repeat' first
    | with_reducible assumption
    | (extract_lets -underBinder +onlyGivenNames x; refine does_cut (msk := msk) (s0 := s0) (x := x) ?_ fun _ => ?_; rotate_left; clear_value x; revert x; intro _ _; rotate_left; subst x)
    | (extract_lets -underBinder +onlyGivenNames x; clear_value x; revert x; intro _)
    | with_reducible apply does_atWake
    | with_reducible apply does_mbReply
    | with_reducible apply does_message
    | with_reducible apply does_setPll
    | with_reducible apply does_setClks
    | with_reducible apply DoesOut.next
    | with_reducible apply DoesOut.ifte
    | with_reducible apply Does.ifte
    | with_reducible apply Does.ifte_fst
    | with_reducible apply Does.ifte_snd
    | split
    | with_reducible apply Does.updPower
    | exact Sub.mono hT rfl
    | exact hT _ rfl
    | intro _

theorem does_execClockSwitchWake (m : Mb) (t : Nat) (s : State) {s0 : State} {msk : Nat} (hk : Does msk s0 s)
    (hT : Sub 0xc000000004025e msk := by first | exact Sub.of_eq rfl | exact Sub.mono (by assumption) rfl) : DoesOut msk s0 (execClockSwitchWake m t s) := by
  delta execClockSwitchWake
  repeat' first
    | with_reducible assumption
    | with_reducible apply does_atWake
    | with_reducible apply does_mbReply
    | with_reducible apply does_message
    | with_reducible apply does_setPll
    | with_reducible apply DoesOut.next
    | with_reducible apply DoesOut.ifte
    | with_reducible apply Does.ifte
    | with_reducible apply Does.ifte_fst
    | with_reducible apply Does.ifte_snd
    | split
    | exact Sub.mono hT rfl
    | exact hT _ rfl
    | intro _

theorem does_pwrReport (s : State) (code : Nat) (evt : Nat) {s0 : State} {msk : Nat} (hk : Does msk s0 s)
    (hT : Sub 0x2c0 msk := by first | exact Sub.of_eq rfl | exact Sub.mono (by assumption) rfl) : Does msk s0 (pwrReport s code evt) := by
  delta pwrReport
  repeat' first
    | with_reducible assumption
    | with_reducible apply does_setFld
    | with_reducible apply does_raise
    | with_reducible apply does_append
    | with_reducible apply Does.ifte
    | split
    | exact Sub.mono hT rfl
    | exact hT _ rfl
    | intro _

theorem does_judgePower (s : State) (mw : Nat) {s0 : State} {msk : Nat} (hk : Does msk s0 s)
    (hT : Sub 0x200000000000002c0 msk := by first | exact Sub.of_eq rfl | exact Sub.mono (by assumption) rfl) : Does msk s0 (judgePower s mw) := by
  delta judgePower
  repeat' first
    | with_reducible assumption
    | (extract_lets -underBinder +onlyGivenNames x; refine does_cut (msk := msk) (s0 := s0) (x := x) ?_ fun _ => ?_; rotate_left; clear_value x; revert x; intro _ _; rotate_left; subst x)
    | (extract_lets -underBinder +onlyGivenNames x; clear_value x; revert x; intro _)
    | with_reducible apply does_pwrReport
    | with_reducible apply Does.ifte
    | split
    | with_reducible apply Does.updPower
    | exact Sub.mono hT rfl
    | exact hT _ rfl
    | intro _

theorem does_execPowerSample (t : Nat) (mw : Nat) (mv : Nat) (s : State) {s0 : State} {msk : Nat} (hk : Does msk s0 s)
    (hT : Sub 0x200000000000002c2 msk := by first | exact Sub.of_eq rfl | exact Sub.mono (by assumption) rfl) : DoesOut msk s0 (execPowerSample t mw mv s) := by
  delta execPowerSample
  repeat' first
    | with_reducible assumption
    | (extract_lets -underBinder +onlyGivenNames x; refine does_cut (msk := msk) (s0 := s0) (x := x) ?_ fun _ => ?_; rotate_left; clear_value x; revert x; intro _ _; rotate_left; subst x)
    | (extract_lets -underBinder +onlyGivenNames x; clear_value x; revert x; intro _)
    | with_reducible apply does_wr
    | with_reducible apply does_setFld
    | with_reducible apply does_atWake
    | with_reducible apply does_judgePower
    | with_reducible apply DoesOut.next
    | with_reducible apply DoesOut.ifte
    | with_reducible apply Does.ifte
    | with_reducible apply Does.ifte_fst
    | with_reducible apply Does.ifte_snd
    | split
    | with_reducible apply Does.updPower
    | exact Sub.mono hT rfl
    | exact hT _ rfl
    | intro _

theorem does_execTempSample (t : Nat) (die : Int) (hbm : Int) (s : State) {s0 : State} {msk : Nat} (hk : Does msk s0 s)
    (hT : Sub 0x200000000000002c2 msk := by first | exact Sub.of_eq rfl | exact Sub.mono (by assumption) rfl) : DoesOut msk s0 (execTempSample t die hbm s) := by
  delta execTempSample
  repeat' first
    | with_reducible assumption
    | (extract_lets -underBinder +onlyGivenNames x; refine does_cut (msk := msk) (s0 := s0) (x := x) ?_ fun _ => ?_; rotate_left; clear_value x; revert x; intro _ _; rotate_left; subst x)
    | (extract_lets -underBinder +onlyGivenNames x; clear_value x; revert x; intro _)
    | with_reducible apply does_wr
    | with_reducible apply does_atWake
    | with_reducible apply does_pwrReport
    | with_reducible apply DoesOut.next
    | with_reducible apply DoesOut.ifte
    | with_reducible apply Does.ifte
    | with_reducible apply Does.ifte_fst
    | with_reducible apply Does.ifte_snd
    | split
    | with_reducible apply Does.updPower
    | exact Sub.mono hT rfl
    | exact hT _ rfl
    | intro _

theorem does_powerOff {msk : Nat} (s : State) {s0 : State} (h : Does msk s0 s)
    (hT : Sub 0xdf9ffffffffffdc7fc msk := by first | exact Sub.of_eq rfl | exact Sub.mono (by assumption) rfl) : Does msk s0 (powerOff s) := by
  unfold powerOff
  refine does_wr _ _ _ ?_
  exact ⟨⟨h.keeps.pending, fun i => let j := h.keeps.inv i
    ⟨Mem.wf_blank _ _ _ _ j.hbm, Mem.wf_blank _ _ _ _ j.tile, j.host, rfl, j.flash, rfl, Nat.zero_le _, Nat.two_pow_pos 32⟩⟩, ⟨h.only.now, (fun e => nomatch (hT 2 rfl).symm.trans e), (fun e => nomatch (hT 3 rfl).symm.trans e), (fun e => nomatch (hT 4 rfl).symm.trans e), (fun e => nomatch (hT 5 rfl).symm.trans e), (fun e => nomatch (hT 6 rfl).symm.trans e), (fun e => nomatch (hT 7 rfl).symm.trans e), (fun e => nomatch (hT 8 rfl).symm.trans e), (fun e => nomatch (hT 9 rfl).symm.trans e), (fun e => nomatch (hT 10 rfl).symm.trans e), h.only.sent, h.only.rdata, h.only.rstat, (fun e => nomatch (hT 14 rfl).symm.trans e), (fun e => nomatch (hT 15 rfl).symm.trans e), (fun e => nomatch (hT 16 rfl).symm.trans e), h.only.host, (fun e => nomatch (hT 18 rfl).symm.trans e), (fun e => nomatch (hT 19 rfl).symm.trans e), (fun e => nomatch (hT 20 rfl).symm.trans e), (fun e => nomatch (hT 21 rfl).symm.trans e), (fun e => nomatch (hT 22 rfl).symm.trans e), (fun e => nomatch (hT 23 rfl).symm.trans e), (fun e => nomatch (hT 24 rfl).symm.trans e), (fun e => nomatch (hT 25 rfl).symm.trans e), (fun e => nomatch (hT 26 rfl).symm.trans e), (fun e => nomatch (hT 27 rfl).symm.trans e), (fun e => nomatch (hT 28 rfl).symm.trans e), (fun e => nomatch (hT 29 rfl).symm.trans e), (fun e => nomatch (hT 30 rfl).symm.trans e), (fun e => nomatch (hT 31 rfl).symm.trans e), (fun e => nomatch (hT 32 rfl).symm.trans e), (fun e => nomatch (hT 33 rfl).symm.trans e), (fun e => nomatch (hT 34 rfl).symm.trans e), (fun e => nomatch (hT 35 rfl).symm.trans e), (fun e => nomatch (hT 36 rfl).symm.trans e), (fun e => nomatch (hT 37 rfl).symm.trans e), (fun e => nomatch (hT 38 rfl).symm.trans e), (fun e => nomatch (hT 39 rfl).symm.trans e), (fun e => nomatch (hT 40 rfl).symm.trans e), (fun e => nomatch (hT 41 rfl).symm.trans e), (fun e => nomatch (hT 42 rfl).symm.trans e), (fun e => nomatch (hT 43 rfl).symm.trans e), (fun e => nomatch (hT 44 rfl).symm.trans e), (fun e => nomatch (hT 45 rfl).symm.trans e), (fun e => nomatch (hT 46 rfl).symm.trans e), (fun e => nomatch (hT 47 rfl).symm.trans e), (fun e => nomatch (hT 48 rfl).symm.trans e), (fun e => nomatch (hT 49 rfl).symm.trans e), (fun e => nomatch (hT 50 rfl).symm.trans e), (fun e => nomatch (hT 51 rfl).symm.trans e), (fun e => nomatch (hT 52 rfl).symm.trans e), (fun e => nomatch (hT 53 rfl).symm.trans e), (fun e => nomatch (hT 54 rfl).symm.trans e), (fun e => nomatch (hT 55 rfl).symm.trans e), (fun e => nomatch (hT 56 rfl).symm.trans e), (fun e => nomatch (hT 57 rfl).symm.trans e), (fun e => nomatch (hT 58 rfl).symm.trans e), (fun e => nomatch (hT 59 rfl).symm.trans e), (fun e => nomatch (hT 60 rfl).symm.trans e), h.only.foxKey, h.only.foxCount, (fun e => nomatch (hT 63 rfl).symm.trans e), (fun e => nomatch (hT 64 rfl).symm.trans e), (fun e => nomatch (hT 65 rfl).symm.trans e), (fun e => nomatch (hT 66 rfl).symm.trans e), (fun e => nomatch (hT 67 rfl).symm.trans e), (fun e => nomatch (hT 68 rfl).symm.trans e), h.only.perst, (fun e => nomatch (hT 70 rfl).symm.trans e), (fun e => nomatch (hT 71 rfl).symm.trans e), h.only.flash, h.only.wire⟩⟩

theorem does_openSwitch (s : State) (latch : Bool) (thermal : Bool) {s0 : State} {msk : Nat} (hk : Does msk s0 s)
    (hT : Sub 0xdf9ffffffffffdc7fc msk := by first | exact Sub.of_eq rfl | exact Sub.mono (by assumption) rfl) : Does msk s0 (openSwitch s latch thermal) := by
  delta openSwitch
  repeat' first
    | with_reducible assumption
    | (extract_lets -underBinder +onlyGivenNames x; refine does_cut (msk := msk) (s0 := s0) (x := x) ?_ fun _ => ?_; rotate_left; clear_value x; revert x; intro _ _; rotate_left; subst x)
    | (extract_lets -underBinder +onlyGivenNames x; clear_value x; revert x; intro _)
    | with_reducible apply does_powerOff
    | with_reducible apply Does.ifte
    | split
    | with_reducible apply Does.updHotSwap
    | exact Sub.mono hT rfl
    | exact hT _ rfl
    | intro _

theorem does_execPrsnt2Change (low : Bool) (t : Nat) (s : State) {s0 : State} {msk : Nat} (hk : Does msk s0 s)
    (hT : Sub 0xdf9ffffffffffdc7fe msk := by first | exact Sub.of_eq rfl | exact Sub.mono (by assumption) rfl) : DoesOut msk s0 (execPrsnt2Change low t s) := by
  delta execPrsnt2Change
  repeat' first
    | with_reducible assumption
    | (extract_lets -underBinder +onlyGivenNames x; refine does_cut (msk := msk) (s0 := s0) (x := x) ?_ fun _ => ?_; rotate_left; clear_value x; revert x; intro _ _; rotate_left; subst x)
    | (extract_lets -underBinder +onlyGivenNames x; clear_value x; revert x; intro _)
    | with_reducible apply does_atWake
    | with_reducible apply does_openSwitch
    | with_reducible apply DoesOut.next
    | with_reducible apply DoesOut.ifte
    | with_reducible apply Does.ifte
    | with_reducible apply Does.ifte_fst
    | with_reducible apply Does.ifte_snd
    | split
    | with_reducible apply Does.updHotSwap
    | exact Sub.mono hT rfl
    | exact hT _ rfl
    | intro _

theorem does_execPwrdisChange (high : Bool) (t : Nat) (s : State) {s0 : State} {msk : Nat} (hk : Does msk s0 s)
    (hT : Sub 0xdf9ffffffffffdc7fe msk := by first | exact Sub.of_eq rfl | exact Sub.mono (by assumption) rfl) : DoesOut msk s0 (execPwrdisChange high t s) := by
  delta execPwrdisChange
  repeat' first
    | with_reducible assumption
    | (extract_lets -underBinder +onlyGivenNames x; refine does_cut (msk := msk) (s0 := s0) (x := x) ?_ fun _ => ?_; rotate_left; clear_value x; revert x; intro _ _; rotate_left; subst x)
    | (extract_lets -underBinder +onlyGivenNames x; clear_value x; revert x; intro _)
    | with_reducible apply does_atWake
    | with_reducible apply does_openSwitch
    | with_reducible apply DoesOut.next
    | with_reducible apply DoesOut.ifte
    | with_reducible apply Does.ifte
    | with_reducible apply Does.ifte_fst
    | with_reducible apply Does.ifte_snd
    | split
    | with_reducible apply Does.updHotSwap
    | exact Sub.mono hT rfl
    | exact hT _ rfl
    | intro _

theorem does_execInputVoltageChange (mv : Nat) (t : Nat) (s : State) {s0 : State} {msk : Nat} (hk : Does msk s0 s)
    (hT : Sub 0xdf9ffffffffffdc7fe msk := by first | exact Sub.of_eq rfl | exact Sub.mono (by assumption) rfl) : DoesOut msk s0 (execInputVoltageChange mv t s) := by
  delta execInputVoltageChange
  repeat' first
    | with_reducible assumption
    | (extract_lets -underBinder +onlyGivenNames x; refine does_cut (msk := msk) (s0 := s0) (x := x) ?_ fun _ => ?_; rotate_left; clear_value x; revert x; intro _ _; rotate_left; subst x)
    | (extract_lets -underBinder +onlyGivenNames x; refine does_cut (msk := msk) (s0 := s0) (x := x.2) ?_ fun _ => ?_; rotate_left; clear_value x; revert x; intro _ _; rotate_left; subst x)
    | (extract_lets -underBinder +onlyGivenNames x; clear_value x; revert x; intro _)
    | with_reducible apply does_atWake
    | with_reducible apply does_openSwitch
    | with_reducible apply DoesOut.next
    | with_reducible apply DoesOut.ifte
    | with_reducible apply Does.ifte
    | with_reducible apply Does.ifte_fst
    | with_reducible apply Does.ifte_snd
    | split
    | with_reducible apply Does.updHotSwap
    | exact Sub.mono hT rfl
    | exact hT _ rfl
    | intro _

theorem does_execOvercurrent (ma : Nat) (us : Nat) (mv : Nat) (t : Nat) (s : State) {s0 : State} {msk : Nat} (hk : Does msk s0 s)
    (hT : Sub 0xdf9ffffffffffdc7fe msk := by first | exact Sub.of_eq rfl | exact Sub.mono (by assumption) rfl) : DoesOut msk s0 (execOvercurrent ma us mv t s) := by
  delta execOvercurrent
  repeat' first
    | with_reducible assumption
    | (extract_lets -underBinder +onlyGivenNames x; refine does_cut (msk := msk) (s0 := s0) (x := x) ?_ fun _ => ?_; rotate_left; clear_value x; revert x; intro _ _; rotate_left; subst x)
    | (extract_lets -underBinder +onlyGivenNames x; clear_value x; revert x; intro _)
    | with_reducible apply does_atWake
    | with_reducible apply does_openSwitch
    | with_reducible apply DoesOut.next
    | with_reducible apply DoesOut.ifte
    | with_reducible apply Does.ifte
    | with_reducible apply Does.ifte_fst
    | with_reducible apply Does.ifte_snd
    | split
    | exact Sub.mono hT rfl
    | exact hT _ rfl
    | intro _

theorem does_execThermalTrip (t : Nat) (die : Int) (hbm : Int) (s : State) {s0 : State} {msk : Nat} (hk : Does msk s0 s)
    (hT : Sub 0xdf9ffffffffffdc7fe msk := by first | exact Sub.of_eq rfl | exact Sub.mono (by assumption) rfl) : DoesOut msk s0 (execThermalTrip t die hbm s) := by
  delta execThermalTrip
  repeat' first
    | with_reducible assumption
    | (extract_lets -underBinder +onlyGivenNames x; refine does_cut (msk := msk) (s0 := s0) (x := x) ?_ fun _ => ?_; rotate_left; clear_value x; revert x; intro _ _; rotate_left; subst x)
    | (extract_lets -underBinder +onlyGivenNames x; clear_value x; revert x; intro _)
    | with_reducible apply does_atWake
    | with_reducible apply does_openSwitch
    | with_reducible apply DoesOut.next
    | with_reducible apply DoesOut.ifte
    | with_reducible apply Does.ifte
    | with_reducible apply Does.ifte_fst
    | with_reducible apply Does.ifte_snd
    | split
    | with_reducible apply Does.updPeony
    | exact Sub.mono hT rfl
    | exact hT _ rfl
    | intro _

theorem does_execFaultLatchClear (t : Nat) (cool : Bool) (s : State) {s0 : State} {msk : Nat} (hk : Does msk s0 s)
    (hT : Sub 0x40000000000000002 msk := by first | exact Sub.of_eq rfl | exact Sub.mono (by assumption) rfl) : DoesOut msk s0 (execFaultLatchClear t cool s) := by
  delta execFaultLatchClear
  repeat' first
    | with_reducible assumption
    | (extract_lets -underBinder +onlyGivenNames x; refine does_cut (msk := msk) (s0 := s0) (x := x) ?_ fun _ => ?_; rotate_left; clear_value x; revert x; intro _ _; rotate_left; subst x)
    | (extract_lets -underBinder +onlyGivenNames x; clear_value x; revert x; intro _)
    | with_reducible apply does_atWake
    | with_reducible apply DoesOut.next
    | with_reducible apply DoesOut.ifte
    | with_reducible apply Does.ifte
    | with_reducible apply Does.ifte_fst
    | with_reducible apply Does.ifte_snd
    | split
    | with_reducible apply Does.updHotSwap
    | exact Sub.mono hT rfl
    | exact hT _ rfl
    | intro _

theorem does_execHotSwapClose (t : Nat) (s : State) {s0 : State} {msk : Nat} (hk : Does msk s0 s)
    (hT : Sub 0x40000000000000002 msk := by first | exact Sub.of_eq rfl | exact Sub.mono (by assumption) rfl) : DoesOut msk s0 (execHotSwapClose t s) := by
  delta execHotSwapClose
  repeat' first
    | with_reducible assumption
    | (extract_lets -underBinder +onlyGivenNames x; refine does_cut (msk := msk) (s0 := s0) (x := x) ?_ fun _ => ?_; rotate_left; clear_value x; revert x; intro _ _; rotate_left; subst x)
    | (extract_lets -underBinder +onlyGivenNames x; clear_value x; revert x; intro _)
    | with_reducible apply does_atWake
    | with_reducible apply DoesOut.next
    | with_reducible apply DoesOut.ifte
    | with_reducible apply Does.ifte
    | with_reducible apply Does.ifte_fst
    | with_reducible apply Does.ifte_snd
    | split
    | with_reducible apply Does.updHotSwap
    | exact Sub.mono hT rfl
    | exact hT _ rfl
    | intro _

theorem does_execPowerGood {msk : Nat} (t : Nat) (s : State) {s0 : State} (h : Does msk s0 s)
    (hT : Sub 0xdf9ffffffffffc47de msk := by first | exact Sub.of_eq rfl | exact Sub.mono (by assumption) rfl) : DoesOut msk s0 (execPowerGood t s) := by
  unfold execPowerGood
  extract_lets -underBinder x
  have hx : Does msk s0 x := does_atWake _ _ h
  clear_value x
  with_reducible apply DoesOut.ifte
  · exact DoesOut.next hx
  · exact DoesOut.next ⟨⟨hx.keeps.pending, fun i => let j := hx.keeps.inv i
      ⟨j.hbm, j.tile, j.host, rfl, j.flash, rfl, Nat.zero_le _, Nat.two_pow_pos 32⟩⟩, ⟨(fun e => nomatch (hT 1 rfl).symm.trans e), (fun e => nomatch (hT 2 rfl).symm.trans e), (fun e => nomatch (hT 3 rfl).symm.trans e), (fun e => nomatch (hT 4 rfl).symm.trans e), hx.only.fresh, (fun e => nomatch (hT 6 rfl).symm.trans e), (fun e => nomatch (hT 7 rfl).symm.trans e), (fun e => nomatch (hT 8 rfl).symm.trans e), (fun e => nomatch (hT 9 rfl).symm.trans e), (fun e => nomatch (hT 10 rfl).symm.trans e), hx.only.sent, hx.only.rdata, hx.only.rstat, (fun e => nomatch (hT 14 rfl).symm.trans e), hx.only.hbm, hx.only.tile, hx.only.host, (fun e => nomatch (hT 18 rfl).symm.trans e), (fun e => nomatch (hT 19 rfl).symm.trans e), (fun e => nomatch (hT 20 rfl).symm.trans e), (fun e => nomatch (hT 21 rfl).symm.trans e), (fun e => nomatch (hT 22 rfl).symm.trans e), (fun e => nomatch (hT 23 rfl).symm.trans e), (fun e => nomatch (hT 24 rfl).symm.trans e), (fun e => nomatch (hT 25 rfl).symm.trans e), (fun e => nomatch (hT 26 rfl).symm.trans e), (fun e => nomatch (hT 27 rfl).symm.trans e), (fun e => nomatch (hT 28 rfl).symm.trans e), (fun e => nomatch (hT 29 rfl).symm.trans e), (fun e => nomatch (hT 30 rfl).symm.trans e), (fun e => nomatch (hT 31 rfl).symm.trans e), (fun e => nomatch (hT 32 rfl).symm.trans e), (fun e => nomatch (hT 33 rfl).symm.trans e), (fun e => nomatch (hT 34 rfl).symm.trans e), (fun e => nomatch (hT 35 rfl).symm.trans e), (fun e => nomatch (hT 36 rfl).symm.trans e), (fun e => nomatch (hT 37 rfl).symm.trans e), (fun e => nomatch (hT 38 rfl).symm.trans e), (fun e => nomatch (hT 39 rfl).symm.trans e), (fun e => nomatch (hT 40 rfl).symm.trans e), (fun e => nomatch (hT 41 rfl).symm.trans e), (fun e => nomatch (hT 42 rfl).symm.trans e), (fun e => nomatch (hT 43 rfl).symm.trans e), (fun e => nomatch (hT 44 rfl).symm.trans e), (fun e => nomatch (hT 45 rfl).symm.trans e), (fun e => nomatch (hT 46 rfl).symm.trans e), (fun e => nomatch (hT 47 rfl).symm.trans e), (fun e => nomatch (hT 48 rfl).symm.trans e), (fun e => nomatch (hT 49 rfl).symm.trans e), (fun e => nomatch (hT 50 rfl).symm.trans e), (fun e => nomatch (hT 51 rfl).symm.trans e), (fun e => nomatch (hT 52 rfl).symm.trans e), (fun e => nomatch (hT 53 rfl).symm.trans e), (fun e => nomatch (hT 54 rfl).symm.trans e), (fun e => nomatch (hT 55 rfl).symm.trans e), (fun e => nomatch (hT 56 rfl).symm.trans e), (fun e => nomatch (hT 57 rfl).symm.trans e), (fun e => nomatch (hT 58 rfl).symm.trans e), (fun e => nomatch (hT 59 rfl).symm.trans e), (fun e => nomatch (hT 60 rfl).symm.trans e), hx.only.foxKey, hx.only.foxCount, (fun e => nomatch (hT 63 rfl).symm.trans e), (fun e => nomatch (hT 64 rfl).symm.trans e), (fun e => nomatch (hT 65 rfl).symm.trans e), (fun e => nomatch (hT 66 rfl).symm.trans e), (fun e => nomatch (hT 67 rfl).symm.trans e), (fun e => nomatch (hT 68 rfl).symm.trans e), hx.only.perst, (fun e => nomatch (hT 70 rfl).symm.trans e), (fun e => nomatch (hT 71 rfl).symm.trans e), hx.only.flash, hx.only.wire⟩⟩

end Sys2Proof.Machine
end

