-- ==== Sys2Proof/Laws/Does/Tensor.lean ====
section
/-!
SUPPORT. What every function of Machine/Tensor.lean does: it keeps the queue and the invariant, and changes
no field of the state outside the set its lemma names.
-/
set_option linter.unreachableTactic false
set_option linter.unusedTactic false

namespace Sys2Proof.Machine

set_option Elab.async false

theorem does_tloadDo (s : State) (e : Nat) (stage : Nat) (kg : Nat) (off : Nat) (stride : Nat) (f : Fmt) {s0 : State} {msk : Nat} (hk : Does msk s0 s)
    (hT : Sub 0x40000 msk := by first | exact Sub.of_eq rfl | exact Sub.mono (by assumption) rfl) : Does msk s0 (tloadDo s e stage kg off stride f) := by
  delta tloadDo
  repeat' first
    | with_reducible assumption
    | (extract_lets -underBinder +onlyGivenNames x; refine does_cut (msk := msk) (s0 := s0) (x := x) ?_ fun _ => ?_; rotate_left; clear_value x; revert x; intro _ _; rotate_left; subst x)
    | (extract_lets -underBinder +onlyGivenNames x; clear_value x; revert x; intro _)
    | with_reducible apply does_setEng
    | with_reducible apply Does.ifte
    | split
    | exact Sub.mono hT rfl
    | exact hT _ rfl
    | intro _

theorem does_tmmaDo (s : State) (e : Nat) (stage : Nat) (acc : Nat) (m : Nat) (kg : Nat) (off : Nat) (stride : Nat) (f : Fmt) (accum : Bool) {s0 : State} {msk : Nat} (hk : Does msk s0 s)
    (hT : Sub 0x40060 msk := by first | exact Sub.of_eq rfl | exact Sub.mono (by assumption) rfl) : Does msk s0 (tmmaDo s e stage acc m kg off stride f accum) := by
  delta tmmaDo
  repeat' first
    | with_reducible assumption
    | (extract_lets -underBinder +onlyGivenNames x; refine does_cut (msk := msk) (s0 := s0) (x := x) ?_ fun _ => ?_; rotate_left; clear_value x; revert x; intro _ _; rotate_left; subst x)
    | (extract_lets -underBinder +onlyGivenNames x; refine does_cut (msk := msk) (s0 := s0) (x := x.1) ?_ fun _ => ?_; rotate_left; clear_value x; revert x; intro _ _; rotate_left; subst x)
    | (extract_lets -underBinder +onlyGivenNames x; refine does_cut (msk := msk) (s0 := s0) (x := x.2) ?_ fun _ => ?_; rotate_left; clear_value x; revert x; intro _ _; rotate_left; subst x)
    | (extract_lets -underBinder +onlyGivenNames x; refine does_cut (msk := msk) (s0 := s0) (x := x.2.2) ?_ fun _ => ?_; rotate_left; clear_value x; revert x; intro _ _; rotate_left; subst x)
    | (extract_lets -underBinder +onlyGivenNames x; clear_value x; revert x; intro _)
    | with_reducible apply does_free
    | with_reducible apply does_setEng
    | with_reducible apply does_countOvf
    | with_reducible apply does_foldl
    | with_reducible apply Does.ifte
    | with_reducible apply Does.ifte_fst
    | with_reducible apply Does.ifte_snd
    | split
    | with_reducible apply Does.updFresh
    | exact Sub.mono hT rfl
    | exact hT _ rfl
    | intro _

theorem does_tdrainDo {msk : Nat} (s : State) (e acc m off stride : Nat) (f : Fmt) (rnd : Rnd) (ieee : Bool) (scale amax : Nat)
    {s0 : State} (h : Does msk s0 s)
    (hT : Sub 0x50040 msk := by first | exact Sub.of_eq rfl | exact Sub.mono (by assumption) rfl) : Does msk s0 (tdrainDo s e acc m off stride f rnd ieee scale amax) := by
  delta tdrainDo
  extract_lets -underBinder n hh wd m2 draws word out rows pieces s1
  have h1 : Does msk s0 s1 := by
    refine Does.updTile h (hT 16 rfl) ?_
    exact Mem.wf_foldl_writeBytes _ _ _ _
  clear_value s1
  exact does_setEng _ _ _ (does_countOvf _ _ _ (does_foldAmax _ _ _ _ h1))

theorem does_tRun (s : State) (e : Nat) (a : TIns) {s0 : State} {msk : Nat} (hk : Does msk s0 s)
    (hT : Sub 0x50060 msk := by first | exact Sub.of_eq rfl | exact Sub.mono (by assumption) rfl) : Does msk s0 (tRun s e a) := by
  delta tRun
  repeat' first
    | with_reducible assumption
    | with_reducible apply does_tloadDo
    | with_reducible apply does_tmmaDo
    | with_reducible apply does_tdrainDo
    | with_reducible apply Does.ifte
    | split
    | exact Sub.mono hT rfl
    | exact hT _ rfl
    | intro _

theorem does_tStart (s : State) (e : Nat) (w : Nat) (i : TIns) (pos : Nat) (ecc : Ecc) {s0 : State} {msk : Nat} (hk : Does msk s0 s)
    (hT : Sub 0x124f12000502e0 msk := by first | exact Sub.of_eq rfl | exact Sub.mono (by assumption) rfl) : Does msk s0 (tStart s e w i pos ecc) := by
  delta tStart
  repeat' first
    | with_reducible assumption
    | (extract_lets -underBinder +onlyGivenNames x; refine does_cut (msk := msk) (s0 := s0) (x := x) ?_ fun _ => ?_; rotate_left; clear_value x; revert x; intro _ _; rotate_left; subst x)
    | (extract_lets -underBinder +onlyGivenNames x; clear_value x; revert x; intro _)
    | with_reducible apply does_tileEcc
    | with_reducible apply does_tRun
    | with_reducible apply Does.ifte
    | split
    | exact Sub.mono hT rfl
    | exact hT _ rfl
    | intro _

theorem does_tIssue (s : State) (e : Nat) (w : Nat) (i : TIns) (pos : Nat) (ecc : Ecc) {s0 : State} {msk : Nat} (hk : Does msk s0 s)
    (hT : Sub 0x124f12000502e0 msk := by first | exact Sub.of_eq rfl | exact Sub.mono (by assumption) rfl) : Does msk s0 (tIssue s e w i pos ecc) := by
  delta tIssue
  repeat' first
    | with_reducible assumption
    | (extract_lets -underBinder +onlyGivenNames x; refine does_cut (msk := msk) (s0 := s0) (x := x) ?_ fun _ => ?_; rotate_left; clear_value x; revert x; intro _ _; rotate_left; subst x)
    | (extract_lets -underBinder +onlyGivenNames x; clear_value x; revert x; intro _)
    | with_reducible apply does_free
    | with_reducible apply does_setEng
    | with_reducible apply does_tStart
    | with_reducible apply Does.ifte
    | split
    | exact Sub.mono hT rfl
    | exact hT _ rfl
    | intro _

theorem does_execTload (e : Eng) (w : Fin 8) (stage : Fin 2) (kg : Nat) (off : Nat) (stride : Nat) (f : Fmt) (pos : Nat) (ecc : Ecc) (c : Nat) (s : State) {s0 : State} {msk : Nat} (hk : Does msk s0 s)
    (hT : Sub 0x124f12000502e2 msk := by first | exact Sub.of_eq rfl | exact Sub.mono (by assumption) rfl) : DoesOut msk s0 (execTload e w stage kg off stride f pos ecc c s) := by
  delta execTload
  repeat' first
    | with_reducible assumption
    | (extract_lets -underBinder +onlyGivenNames x; refine does_cut (msk := msk) (s0 := s0) (x := x) ?_ fun _ => ?_; rotate_left; clear_value x; revert x; intro _ _; rotate_left; subst x)
    | (extract_lets -underBinder +onlyGivenNames x; clear_value x; revert x; intro _)
    | with_reducible apply does_atAclk
    | with_reducible apply does_tIssue
    | with_reducible apply DoesOut.next
    | with_reducible apply DoesOut.ifte
    | with_reducible apply Does.ifte
    | with_reducible apply Does.ifte_fst
    | with_reducible apply Does.ifte_snd
    | split
    | exact Sub.mono hT rfl
    | exact hT _ rfl
    | intro _

theorem does_execTmma (e : Eng) (w : Fin 8) (stage : Fin 2) (acc : Fin 2) (m : Nat) (kg : Nat) (off : Nat) (stride : Nat) (f : Fmt) (accum : Bool) (pos : Nat) (ecc : Ecc) (c : Nat) (s : State) {s0 : State} {msk : Nat} (hk : Does msk s0 s)
    (hT : Sub 0x124f12000502e2 msk := by first | exact Sub.of_eq rfl | exact Sub.mono (by assumption) rfl) : DoesOut msk s0 (execTmma e w stage acc m kg off stride f accum pos ecc c s) := by
  delta execTmma
  repeat' first
    | with_reducible assumption
    | (extract_lets -underBinder +onlyGivenNames x; refine does_cut (msk := msk) (s0 := s0) (x := x) ?_ fun _ => ?_; rotate_left; clear_value x; revert x; intro _ _; rotate_left; subst x)
    | (extract_lets -underBinder +onlyGivenNames x; clear_value x; revert x; intro _)
    | with_reducible apply does_atAclk
    | with_reducible apply does_tIssue
    | with_reducible apply DoesOut.next
    | with_reducible apply DoesOut.ifte
    | with_reducible apply Does.ifte
    | with_reducible apply Does.ifte_fst
    | with_reducible apply Does.ifte_snd
    | split
    | exact Sub.mono hT rfl
    | exact hT _ rfl
    | intro _

theorem does_execTdrain (e : Eng) (w : Fin 8) (acc : Fin 2) (m : Nat) (off : Nat) (stride : Nat) (f : Fmt) (rnd : Rnd) (ieee : Bool) (scale : Word) (amax : Fin 4) (pos : Nat) (ecc : Ecc) (c : Nat) (s : State) {s0 : State} {msk : Nat} (hk : Does msk s0 s)
    (hT : Sub 0x124f12000502e2 msk := by first | exact Sub.of_eq rfl | exact Sub.mono (by assumption) rfl) : DoesOut msk s0 (execTdrain e w acc m off stride f rnd ieee scale amax pos ecc c s) := by
  delta execTdrain
  repeat' first
    | with_reducible assumption
    | with_reducible apply does_atAclk
    | with_reducible apply does_tIssue
    | with_reducible apply DoesOut.next
    | with_reducible apply DoesOut.ifte
    | with_reducible apply Does.ifte
    | with_reducible apply Does.ifte_fst
    | with_reducible apply Does.ifte_snd
    | split
    | exact Sub.mono hT rfl
    | exact hT _ rfl
    | intro _

theorem does_execTensorInterlockRelease (e : Eng) (pos : Nat) (ecc : Ecc) (c : Nat) (s : State) {s0 : State} {msk : Nat} (hk : Does msk s0 s)
    (hT : Sub 0x124f12000502e2 msk := by first | exact Sub.of_eq rfl | exact Sub.mono (by assumption) rfl) : DoesOut msk s0 (execTensorInterlockRelease e pos ecc c s) := by
  delta execTensorInterlockRelease
  repeat' first
    | with_reducible assumption
    | (extract_lets -underBinder +onlyGivenNames x; refine does_cut (msk := msk) (s0 := s0) (x := x) ?_ fun _ => ?_; rotate_left; clear_value x; revert x; intro _ _; rotate_left; subst x)
    | (extract_lets -underBinder +onlyGivenNames x; clear_value x; revert x; intro _)
    | with_reducible apply does_atAclk
    | with_reducible apply does_free
    | with_reducible apply does_setEng
    | with_reducible apply does_tStart
    | with_reducible apply DoesOut.next
    | with_reducible apply DoesOut.ifte
    | with_reducible apply Does.ifte
    | with_reducible apply Does.ifte_fst
    | with_reducible apply Does.ifte_snd
    | split
    | exact Sub.mono hT rfl
    | exact hT _ rfl
    | intro _

end Sys2Proof.Machine
end

