-- ==== Sys2Proof/Laws/Does/FarLine.lean ====
section
/-!
SUPPORT. What every function of Machine/FarLine.lean does: it keeps the queue and the invariant, and changes
no field of the state outside the set its lemma names.
-/
set_option linter.unreachableTactic false
set_option linter.unusedTactic false

namespace Sys2Proof.Machine

set_option Elab.async false

theorem does_putLine (s : State) (e : Nat) (k : Nat) (l : FarLine) {s0 : State} {msk : Nat} (hk : Does msk s0 s)
    (hT : Sub 0x40000 msk := by first | exact Sub.of_eq rfl | exact Sub.mono (by assumption) rfl) : Does msk s0 (putLine s e k l) := by
  delta putLine
  repeat' first
    | with_reducible assumption
    | (extract_lets -underBinder +onlyGivenNames x; refine does_cut (msk := msk) (s0 := s0) (x := x) ?_ fun _ => ?_; rotate_left; clear_value x; revert x; intro _ _; rotate_left; subst x)
    | (extract_lets -underBinder +onlyGivenNames x; clear_value x; revert x; intro _)
    | with_reducible apply does_setEng
    | with_reducible apply Does.ifte
    | split
    | exact Sub.mono hT rfl
    | exact hT _ rfl
    | intro _

theorem does_allocLine {msk : Nat} {s : State} {e a n : Nat} {t s0 : State} (h : Does msk s0 s)
    (k : allocLine s e a = some (n, t))
    (hT : Sub 0x4040000 msk := by first | exact Sub.of_eq rfl | exact Sub.mono (by assumption) rfl) : Does msk s0 t := by
  unfold allocLine at k
  dsimp only at k
  split at k
  · cases k; exact does_putLine _ _ _ _ h
  · rw [Option.map_eq_some_iff] at k
    obtain ⟨j, -, k⟩ := k
    cases k
    exact does_putLine _ _ _ _ (does_flcCleanLine _ _ _ h)

theorem does_fetchQuarter (s : State) (e : Nat) (a : Nat) {s0 : State} {msk : Nat} (hk : Does msk s0 s)
    (hT : Sub 0x4040000 msk := by first | exact Sub.of_eq rfl | exact Sub.mono (by assumption) rfl) : Does msk s0 (fetchQuarter s e a) := by
  delta fetchQuarter
  repeat' first
    | with_reducible assumption
    | (extract_lets -underBinder +onlyGivenNames x; refine does_cut (msk := msk) (s0 := s0) (x := x) ?_ fun _ => ?_; rotate_left; clear_value x; revert x; intro _ _; rotate_left; subst x)
    | (extract_lets -underBinder +onlyGivenNames x; clear_value x; revert x; intro _)
    | with_reducible apply does_engBurst
    | with_reducible apply Does.ifte
    | split
    | exact Sub.mono hT rfl
    | exact hT _ rfl
    | intro _

theorem does_lineAccess (s : State) (e : Nat) (k : Nat) (l : FarLine) (w : FlcWait) {s0 : State} {msk : Nat} (hk : Does msk s0 s)
    (hT : Sub 0x4040000 msk := by first | exact Sub.of_eq rfl | exact Sub.mono (by assumption) rfl) : Does msk s0 (lineAccess s e k l w).1 := by
  delta lineAccess
  repeat' first
    | with_reducible assumption
    | (extract_lets -underBinder +onlyGivenNames x; refine does_cut (msk := msk) (s0 := s0) (x := x) ?_ fun _ => ?_; rotate_left; clear_value x; revert x; intro _ _; rotate_left; subst x)
    | (extract_lets -underBinder +onlyGivenNames x; clear_value x; revert x; intro _)
    | with_reducible apply does_loadPut
    | with_reducible apply does_putLine
    | with_reducible apply does_fetchQuarter
    | with_reducible apply does_foldl
    | with_reducible apply Does.ifte
    | with_reducible apply Does.ifte_fst
    | with_reducible apply Does.ifte_snd
    | split
    | exact Sub.mono hT rfl
    | exact hT _ rfl
    | intro _

theorem does_bypassBurst (s : State) (e : Nat) (w : FlcWait) {s0 : State} {msk : Nat} (hk : Does msk s0 s)
    (hT : Sub 0x4040000 msk := by first | exact Sub.of_eq rfl | exact Sub.mono (by assumption) rfl) : Does msk s0 (bypassBurst s e w) := by
  delta bypassBurst
  repeat' first
    | with_reducible assumption
    | with_reducible apply does_engBurst
    | with_reducible apply Does.ifte
    | split
    | exact Sub.mono hT rfl
    | exact hT _ rfl
    | intro _

theorem does_dropDeparting (s : State) (e : Nat) (a : Nat) {s0 : State} {msk : Nat} (hk : Does msk s0 s)
    (hT : Sub 0x40000 msk := by first | exact Sub.of_eq rfl | exact Sub.mono (by assumption) rfl) : Does msk s0 (dropDeparting s e a) := by
  delta dropDeparting
  repeat' first
    | with_reducible assumption
    | with_reducible apply does_setEng
    | with_reducible apply Does.ifte
    | split
    | exact Sub.mono hT rfl
    | exact hT _ rfl
    | intro _

theorem does_farTry {msk : Nat} (s : State) (e : Nat) (w : FlcWait) {s0 : State} (h : Does msk s0 s)
    (hT : Sub 0x4040000 msk := by first | exact Sub.of_eq rfl | exact Sub.mono (by assumption) rfl) : Does msk s0 (farTry s e w).1 := by
  unfold farTry
  dsimp only
  have h1 := does_dropDeparting s e w.addr h
  split
  · with_reducible apply Does.ifte_fst
    · exact does_lineAccess _ _ _ _ _ h1
    · exact h1
  · split
    · rename_i he; exact does_lineAccess _ _ _ _ _ (does_allocLine h1 he)
    · exact does_bypassBurst _ _ _ h1

theorem does_flcServeList (s : State) (e : Nat) (a : List FlcWait) {s0 : State} {msk : Nat} (hk : Does msk s0 s)
    (hT : Sub 0x4040000 msk := by first | exact Sub.of_eq rfl | exact Sub.mono (by assumption) rfl) : Does msk s0 (flcServeList s e a) := by
  induction a generalizing s e with
  | nil => unfold flcServeList; with_reducible assumption
  | cons x r ih =>
    unfold flcServeList
    repeat' first
    | with_reducible apply ih
    | with_reducible assumption
    | (extract_lets -underBinder +onlyGivenNames x; refine does_cut (msk := msk) (s0 := s0) (x := x) ?_ fun _ => ?_; rotate_left; clear_value x; revert x; intro _ _; rotate_left; subst x)
    | (extract_lets -underBinder +onlyGivenNames x; refine does_cut (msk := msk) (s0 := s0) (x := x.1) ?_ fun _ => ?_; rotate_left; clear_value x; revert x; intro _ _; rotate_left; subst x)
    | (extract_lets -underBinder +onlyGivenNames x; refine does_cut (msk := msk) (s0 := s0) (x := x.2) ?_ fun _ => ?_; rotate_left; clear_value x; revert x; intro _ _; rotate_left; subst x)
    | (extract_lets -underBinder +onlyGivenNames x; clear_value x; revert x; intro _)
    | with_reducible apply does_setEng
    | with_reducible apply does_farTry
    | with_reducible apply Does.ifte
    | with_reducible apply Does.ifte_fst
    | with_reducible apply Does.ifte_snd
    | split
    | exact Sub.mono hT rfl
    | exact hT _ rfl
    | intro _

theorem does_flcServe (s : State) (e : Nat) {s0 : State} {msk : Nat} (hk : Does msk s0 s)
    (hT : Sub 0x4040000 msk := by first | exact Sub.of_eq rfl | exact Sub.mono (by assumption) rfl) : Does msk s0 (flcServe s e) := by
  delta flcServe
  repeat' first
    | with_reducible assumption
    | (extract_lets -underBinder +onlyGivenNames x; refine does_cut (msk := msk) (s0 := s0) (x := x) ?_ fun _ => ?_; rotate_left; clear_value x; revert x; intro _ _; rotate_left; subst x)
    | (extract_lets -underBinder +onlyGivenNames x; clear_value x; revert x; intro _)
    | with_reducible apply does_setEng
    | with_reducible apply does_flcServeList
    | with_reducible apply Does.ifte
    | split
    | exact Sub.mono hT rfl
    | exact hT _ rfl
    | intro _

theorem does_farEcc (s : State) (e : Nat) (w : Nat) (a : Nat) (ecc : Ecc) {s0 : State} {msk : Nat} (hk : Does msk s0 s)
    (hT : Sub 0x10000402c0 msk := by first | exact Sub.of_eq rfl | exact Sub.mono (by assumption) rfl) : Does msk s0 (farEcc s e w a ecc).1 := by
  delta farEcc
  repeat' first
    | with_reducible assumption
    | (extract_lets -underBinder +onlyGivenNames x; refine does_cut (msk := msk) (s0 := s0) (x := x) ?_ fun _ => ?_; rotate_left; clear_value x; revert x; intro _ _; rotate_left; subst x)
    | (extract_lets -underBinder +onlyGivenNames x; clear_value x; revert x; intro _)
    | with_reducible apply does_endWork
    | with_reducible apply does_engRecord
    | with_reducible apply does_countCorrection
    | with_reducible apply does_putLine
    | with_reducible apply Does.ifte
    | with_reducible apply Does.ifte_fst
    | with_reducible apply Does.ifte_snd
    | split
    | exact Sub.mono hT rfl
    | exact hT _ rfl
    | intro _

theorem does_farAccess (s : State) (e : Nat) (w : FlcWait) {s0 : State} {msk : Nat} (hk : Does msk s0 s)
    (hT : Sub 0x4040000 msk := by first | exact Sub.of_eq rfl | exact Sub.mono (by assumption) rfl) : Does msk s0 (farAccess s e w) := by
  delta farAccess
  repeat' first
    | with_reducible assumption
    | with_reducible apply does_flcServeList
    | with_reducible apply Does.ifte
    | split
    | exact Sub.mono hT rfl
    | exact hT _ rfl
    | intro _

theorem does_execFarLineLoad (e : Eng) (w : Fin 8) (a : Nat) (n : Nat) (noalloc : Bool) (dst : LoadDst) (pos : Nat) (ecc : Ecc) (c : Nat) (s : State) {s0 : State} {msk : Nat} (hk : Does msk s0 s)
    (hT : Sub 0x10040402c2 msk := by first | exact Sub.of_eq rfl | exact Sub.mono (by assumption) rfl) : DoesOut msk s0 (execFarLineLoad e w a n noalloc dst pos ecc c s) := by
  delta execFarLineLoad
  repeat' first
    | with_reducible assumption
    | (extract_lets -underBinder +onlyGivenNames x; refine does_cut (msk := msk) (s0 := s0) (x := x) ?_ fun _ => ?_; rotate_left; clear_value x; revert x; intro _ _; rotate_left; subst x)
    | (extract_lets -underBinder +onlyGivenNames x; clear_value x; revert x; intro _)
    | with_reducible apply does_atAclk
    | with_reducible apply does_setEng
    | with_reducible apply does_bypassBurst
    | with_reducible apply does_farEcc
    | with_reducible apply does_farAccess
    | with_reducible apply DoesOut.next
    | with_reducible apply DoesOut.ifte
    | with_reducible apply Does.ifte
    | with_reducible apply Does.ifte_fst
    | with_reducible apply Does.ifte_snd
    | split
    | exact Sub.mono hT rfl
    | exact hT _ rfl
    | intro _

theorem does_storeNoAlloc (s : State) (e : Nat) (w : FlcWait) {s0 : State} {msk : Nat} (hk : Does msk s0 s)
    (hT : Sub 0x4040000 msk := by first | exact Sub.of_eq rfl | exact Sub.mono (by assumption) rfl) : Does msk s0 (storeNoAlloc s e w) := by
  delta storeNoAlloc
  repeat' first
    | with_reducible assumption
    | (extract_lets -underBinder +onlyGivenNames x; refine does_cut (msk := msk) (s0 := s0) (x := x) ?_ fun _ => ?_; rotate_left; clear_value x; revert x; intro _ _; rotate_left; subst x)
    | (extract_lets -underBinder +onlyGivenNames x; refine does_cut (msk := msk) (s0 := s0) (x := x.1) ?_ fun _ => ?_; rotate_left; clear_value x; revert x; intro _ _; rotate_left; subst x)
    | (extract_lets -underBinder +onlyGivenNames x; refine does_cut (msk := msk) (s0 := s0) (x := x.2) ?_ fun _ => ?_; rotate_left; clear_value x; revert x; intro _ _; rotate_left; subst x)
    | (extract_lets -underBinder +onlyGivenNames x; clear_value x; revert x; intro _)
    | with_reducible apply does_writeBackSectors
    | with_reducible apply does_putLine
    | with_reducible apply does_bypassBurst
    | with_reducible apply does_foldl
    | with_reducible apply Does.ifte
    | with_reducible apply Does.ifte_fst
    | with_reducible apply Does.ifte_snd
    | split
    | exact Sub.mono hT rfl
    | exact hT _ rfl
    | intro _

theorem does_execFarLineStore (e : Eng) (w : Fin 8) (a : Nat) (data : List Byte) (noalloc : Bool) (pos : Nat) (ecc : Ecc) (c : Nat) (s : State) {s0 : State} {msk : Nat} (hk : Does msk s0 s)
    (hT : Sub 0x10040402c2 msk := by first | exact Sub.of_eq rfl | exact Sub.mono (by assumption) rfl) : DoesOut msk s0 (execFarLineStore e w a data noalloc pos ecc c s) := by
  delta execFarLineStore
  repeat' first
    | with_reducible assumption
    | (extract_lets -underBinder +onlyGivenNames x; refine does_cut (msk := msk) (s0 := s0) (x := x) ?_ fun _ => ?_; rotate_left; clear_value x; revert x; intro _ _; rotate_left; subst x)
    | (extract_lets -underBinder +onlyGivenNames x; clear_value x; revert x; intro _)
    | with_reducible apply does_atAclk
    | with_reducible apply does_farEcc
    | with_reducible apply does_farAccess
    | with_reducible apply does_storeNoAlloc
    | with_reducible apply DoesOut.next
    | with_reducible apply DoesOut.ifte
    | with_reducible apply Does.ifte
    | with_reducible apply Does.ifte_fst
    | with_reducible apply Does.ifte_snd
    | split
    | exact Sub.mono hT rfl
    | exact hT _ rfl
    | intro _

theorem does_endFarWaits (s : State) (e : Nat) (err : Nat) (a : List FlcWait) {s0 : State} {msk : Nat} (hk : Does msk s0 s)
    (hT : Sub 0x1000040000 msk := by first | exact Sub.of_eq rfl | exact Sub.mono (by assumption) rfl) : Does msk s0 (endFarWaits s e err a) := by
  induction a generalizing s e err with
  | nil => unfold endFarWaits; with_reducible assumption
  | cons x r ih =>
    unfold endFarWaits
    repeat' first
    | with_reducible apply ih
    | with_reducible assumption
    | with_reducible apply does_endWork
    | with_reducible apply Does.ifte
    | split
    | exact Sub.mono hT rfl
    | exact hT _ rfl
    | intro _

theorem does_execFarLineFill {msk : Nat} (e : Eng) (c : Nat) (s : State) {s0 : State} (h : Does msk s0 s)
    (hT : Sub 0x1014040282 msk := by first | exact Sub.of_eq rfl | exact Sub.mono (by assumption) rfl) :
    DoesOut msk s0 (execFarLineFill e c s) := by
  unfold execFarLineFill
  extract_lets -underBinder s1
  have h1 : Does msk s0 s1 := does_atAclk _ _ h
  clear_value s1
  split
  · exact DoesOut.next h1
  · rename_i r rest _
    extract_lets -underBinder s2 x b hits w s3 src s4 at'
    have h2 : Does msk s0 s2 := Does.updArrived h1 (hT 28 rfl)
    clear_value s2
    clear_value x b hits w
    have h3 : Does msk s0 s3 := Does.ifte (does_engRecord _ _ _ _ _ h2) h2
    have h4 : Does msk s0 s4 := does_setEng _ _ _ h3
    clear_value s4
    with_reducible apply DoesOut.ifte
    · exact DoesOut.next (does_flcServe _ _ h2)
    with_reducible apply DoesOut.ifte
    · exact DoesOut.next (does_flcServe _ _ (does_endFarWaits _ _ _ _ h4))
    with_reducible apply DoesOut.ifte
    · split
      · exact DoesOut.next h2
      · refine DoesOut.next (does_setEng _ _ _ ?_)
        split
        · exact does_loadPut _ _ _ _ _ h2
        · exact h2
    · generalize he : at' = o
      rcases o with _ | ⟨k, t⟩
      · exact DoesOut.next (does_flcServe _ _ h2)
      · refine DoesOut.next (does_flcServe _ _ (does_putLine _ _ _ _ ?_))
        unfold at' at he
        split at he
        · cases he; exact h2
        · split at he
          · cases he
          · exact does_allocLine h2 he

theorem does_groupsStart (s : State) (e : Nat) {s0 : State} {msk : Nat} (hk : Does msk s0 s)
    (hT : Sub 0x4040000 msk := by first | exact Sub.of_eq rfl | exact Sub.mono (by assumption) rfl) : Does msk s0 (groupsStart s e) := by
  delta groupsStart
  repeat' first
    | with_reducible assumption
    | (extract_lets -underBinder +onlyGivenNames x; refine does_cut (msk := msk) (s0 := s0) (x := x) ?_ fun _ => ?_; rotate_left; clear_value x; revert x; intro _ _; rotate_left; subst x)
    | (extract_lets -underBinder +onlyGivenNames x; clear_value x; revert x; intro _)
    | with_reducible apply does_setEng
    | with_reducible apply does_flcCleanLines
    | with_reducible apply Does.ifte
    | split
    | exact Sub.mono hT rfl
    | exact hT _ rfl
    | intro _

theorem does_dropSector (s : State) (e : Nat) (a : Option (Fin 48 × Fin 16)) {s0 : State} {msk : Nat} (hk : Does msk s0 s)
    (hT : Sub 0x1000040280 msk := by first | exact Sub.of_eq rfl | exact Sub.mono (by assumption) rfl) : Does msk s0 (dropSector s e a) := by
  delta dropSector
  repeat' first
    | with_reducible assumption
    | (extract_lets -underBinder +onlyGivenNames x; refine does_cut (msk := msk) (s0 := s0) (x := x) ?_ fun _ => ?_; rotate_left; clear_value x; revert x; intro _ _; rotate_left; subst x)
    | (extract_lets -underBinder +onlyGivenNames x; clear_value x; revert x; intro _)
    | with_reducible apply does_endWork
    | with_reducible apply does_engRecord
    | with_reducible apply does_putLine
    | with_reducible apply Does.ifte
    | split
    | exact Sub.mono hT rfl
    | exact hT _ rfl
    | intro _

theorem does_execFlcGroupsChange (e : Eng) (n : Nat) (bad : Option (Fin 48 × Fin 16)) (c : Nat) (s : State) {s0 : State} {msk : Nat} (hk : Does msk s0 s)
    (hT : Sub 0x10040402c2 msk := by first | exact Sub.of_eq rfl | exact Sub.mono (by assumption) rfl) : DoesOut msk s0 (execFlcGroupsChange e n bad c s) := by
  delta execFlcGroupsChange
  repeat' first
    | with_reducible assumption
    | (extract_lets -underBinder +onlyGivenNames x; refine does_cut (msk := msk) (s0 := s0) (x := x) ?_ fun _ => ?_; rotate_left; clear_value x; revert x; intro _ _; rotate_left; subst x)
    | (extract_lets -underBinder +onlyGivenNames x; clear_value x; revert x; intro _)
    | with_reducible apply does_setFld
    | with_reducible apply does_atAclk
    | with_reducible apply does_setEng
    | with_reducible apply does_groupsStart
    | with_reducible apply does_dropSector
    | with_reducible apply DoesOut.next
    | with_reducible apply DoesOut.ifte
    | with_reducible apply Does.ifte
    | with_reducible apply Does.ifte_fst
    | with_reducible apply Does.ifte_snd
    | split
    | exact Sub.mono hT rfl
    | exact hT _ rfl
    | intro _

theorem does_execFlcGroupPowerOff (e : Eng) (c : Nat) (s : State) {s0 : State} {msk : Nat} (hk : Does msk s0 s)
    (hT : Sub 0x4040002 msk := by first | exact Sub.of_eq rfl | exact Sub.mono (by assumption) rfl) : DoesOut msk s0 (execFlcGroupPowerOff e c s) := by
  delta execFlcGroupPowerOff
  repeat' first
    | with_reducible assumption
    | (extract_lets -underBinder +onlyGivenNames x; refine does_cut (msk := msk) (s0 := s0) (x := x) ?_ fun _ => ?_; rotate_left; clear_value x; revert x; intro _ _; rotate_left; subst x)
    | (extract_lets -underBinder +onlyGivenNames x; refine does_cut (msk := msk) (s0 := s0) (x := x.1) ?_ fun _ => ?_; rotate_left; clear_value x; revert x; intro _ _; rotate_left; subst x)
    | (extract_lets -underBinder +onlyGivenNames x; refine does_cut (msk := msk) (s0 := s0) (x := x.2) ?_ fun _ => ?_; rotate_left; clear_value x; revert x; intro _ _; rotate_left; subst x)
    | (extract_lets -underBinder +onlyGivenNames x; clear_value x; revert x; intro _)
    | with_reducible apply does_atAclk
    | with_reducible apply does_setEng
    | with_reducible apply does_flcServe
    | with_reducible apply does_groupsStart
    | with_reducible apply DoesOut.next
    | with_reducible apply DoesOut.ifte
    | with_reducible apply Does.ifte
    | with_reducible apply Does.ifte_fst
    | with_reducible apply Does.ifte_snd
    | split
    | exact Sub.mono hT rfl
    | exact hT _ rfl
    | intro _

theorem does_execFlcGroupReady (e : Eng) (c : Nat) (s : State) {s0 : State} {msk : Nat} (hk : Does msk s0 s)
    (hT : Sub 0x4040002 msk := by first | exact Sub.of_eq rfl | exact Sub.mono (by assumption) rfl) : DoesOut msk s0 (execFlcGroupReady e c s) := by
  delta execFlcGroupReady
  repeat' first
    | with_reducible assumption
    | (extract_lets -underBinder +onlyGivenNames x; refine does_cut (msk := msk) (s0 := s0) (x := x) ?_ fun _ => ?_; rotate_left; clear_value x; revert x; intro _ _; rotate_left; subst x)
    | (extract_lets -underBinder +onlyGivenNames x; clear_value x; revert x; intro _)
    | with_reducible apply does_atAclk
    | with_reducible apply does_setEng
    | with_reducible apply does_groupsStart
    | with_reducible apply DoesOut.next
    | with_reducible apply DoesOut.ifte
    | with_reducible apply Does.ifte
    | with_reducible apply Does.ifte_fst
    | with_reducible apply Does.ifte_snd
    | split
    | exact Sub.mono hT rfl
    | exact hT _ rfl
    | intro _

theorem does_execFlcClean (e : Eng) (bad : Option (Fin 48 × Fin 16)) (c : Nat) (s : State) {s0 : State} {msk : Nat} (hk : Does msk s0 s)
    (hT : Sub 0x10040402c2 msk := by first | exact Sub.of_eq rfl | exact Sub.mono (by assumption) rfl) : DoesOut msk s0 (execFlcClean e bad c s) := by
  delta execFlcClean
  repeat' first
    | with_reducible assumption
    | (extract_lets -underBinder +onlyGivenNames x; refine does_cut (msk := msk) (s0 := s0) (x := x) ?_ fun _ => ?_; rotate_left; clear_value x; revert x; intro _ _; rotate_left; subst x)
    | (extract_lets -underBinder +onlyGivenNames x; clear_value x; revert x; intro _)
    | with_reducible apply does_setFld
    | with_reducible apply does_atAclk
    | with_reducible apply does_flcClean
    | with_reducible apply does_dropSector
    | with_reducible apply DoesOut.next
    | with_reducible apply DoesOut.ifte
    | with_reducible apply Does.ifte
    | with_reducible apply Does.ifte_fst
    | with_reducible apply Does.ifte_snd
    | split
    | exact Sub.mono hT rfl
    | exact hT _ rfl
    | intro _

theorem does_execFlcCleanDone (e : Eng) (c : Nat) (s : State) {s0 : State} {msk : Nat} (hk : Does msk s0 s)
    (hT : Sub 0x42 msk := by first | exact Sub.of_eq rfl | exact Sub.mono (by assumption) rfl) : DoesOut msk s0 (execFlcCleanDone e c s) := by
  delta execFlcCleanDone
  repeat' first
    | with_reducible assumption
    | (extract_lets -underBinder +onlyGivenNames x; refine does_cut (msk := msk) (s0 := s0) (x := x) ?_ fun _ => ?_; rotate_left; clear_value x; revert x; intro _ _; rotate_left; subst x)
    | (extract_lets -underBinder +onlyGivenNames x; clear_value x; revert x; intro _)
    | with_reducible apply does_setFld
    | with_reducible apply does_atAclk
    | with_reducible apply DoesOut.next
    | with_reducible apply DoesOut.ifte
    | with_reducible apply Does.ifte
    | with_reducible apply Does.ifte_fst
    | with_reducible apply Does.ifte_snd
    | split
    | exact Sub.mono hT rfl
    | exact hT _ rfl
    | intro _

end Sys2Proof.Machine
end

