-- ==== Sys2Proof/Laws/Does/Frame.lean ====
section
/-!
SUPPORT. From the sets of the lemmas of Laws/Does/ to the lists of the statements.
-/
namespace Sys2Proof.Machine

set_option Elab.async false

/-- The set of the fields of a list. -/
def maskOf (l : List Field) : Nat := l.foldr (fun f m => 2 ^ f.idx ||| m) 0

/-- The fields in their order in `State`. -/
def Field.all : List Field := [
  .pending, .now, .pll, .aclkBase, .aclkFrom, .fresh, .regs, .log, .lc, .msix, .msixCtl, .sent, .rdata, .rstat,
  .pipeActive, .hbm, .tile, .host, .engines, .semCycles, .fslots, .fclock, .fwaiting, .pageIns, .fsigs,
  .transits, .arbs, .replies, .arrived, .mcs, .routers, .meshOut, .ctxs, .queues, .slots, .reloc, .jobs,
  .jobKey, .copies, .compWaits, .cx, .disps, .pres, .xfers, .placedIn, .lastServed, .passes, .geoTurn,
  .hostReads, .model, .loading, .monFrame, .failOrder, .mbWait, .mboxes, .mbOrder, .staging, .caps, .capStop,
  .capFaults, .pipes, .foxKey, .foxCount, .foxChecked, .foxCmd, .power, .hotSwap, .resets, .wide, .perst,
  .pcieOut, .peony, .flash, .wire]

theorem Field.all_idx (f : Field) : Field.all[f.idx]? = some f := by
  cases f <;> rfl

theorem Field.idx_inj {f g : Field} (h : f.idx = g.idx) : f = g := by
  have e := Field.all_idx f
  rw [h, Field.all_idx g] at e
  exact (Option.some.inj e).symm

theorem testBit_maskOf_eq {f : Field} {l : List Field} (h : f ∉ l) : (maskOf l).testBit f.idx = false := by
  induction l with
  | nil => exact Nat.zero_testBit _
  | cons g r ih =>
    have h1 : g ≠ f := fun e => h (e ▸ List.mem_cons_self)
    have h2 : f ∉ r := fun e => h (List.mem_cons_of_mem _ e)
    have h3 : g.idx ≠ f.idx := fun e => h1 (Field.idx_inj e)
    show (2 ^ g.idx ||| maskOf r).testBit f.idx = false
    rw [Nat.testBit_or, Nat.testBit_two_pow, ih h2, decide_eq_false h3]
    rfl

/-- What `Does` says of the fields, by the list of a statement. -/
theorem Does.changes {m : Nat} {s t : State} (d : Does m s t) (l : List Field) (e : maskOf l = m) :
    Changes l s t := by
  have hm : ∀ f, f ∉ l → m.testBit f.idx = false := fun f hf => e ▸ testBit_maskOf_eq hf
  have h := d.only
  clear e
  exact ⟨fun _ => d.keeps.pending,
  fun hf => h.now (hm .now hf), fun hf => h.pll (hm .pll hf), fun hf => h.aclkBase (hm .aclkBase hf),
    fun hf => h.aclkFrom (hm .aclkFrom hf), fun hf => h.fresh (hm .fresh hf), fun hf => h.regs (hm .regs hf),
    fun hf => h.log (hm .log hf), fun hf => h.lc (hm .lc hf), fun hf => h.msix (hm .msix hf),
    fun hf => h.msixCtl (hm .msixCtl hf), fun hf => h.sent (hm .sent hf), fun hf => h.rdata (hm .rdata hf),
    fun hf => h.rstat (hm .rstat hf), fun hf => h.pipeActive (hm .pipeActive hf), fun hf => h.hbm (hm .hbm hf),
    fun hf => h.tile (hm .tile hf), fun hf => h.host (hm .host hf), fun hf => h.engines (hm .engines hf),
    fun hf => h.semCycles (hm .semCycles hf), fun hf => h.fslots (hm .fslots hf),
    fun hf => h.fclock (hm .fclock hf), fun hf => h.fwaiting (hm .fwaiting hf),
    fun hf => h.pageIns (hm .pageIns hf), fun hf => h.fsigs (hm .fsigs hf),
    fun hf => h.transits (hm .transits hf), fun hf => h.arbs (hm .arbs hf), fun hf => h.replies (hm .replies hf),
    fun hf => h.arrived (hm .arrived hf), fun hf => h.mcs (hm .mcs hf), fun hf => h.routers (hm .routers hf),
    fun hf => h.meshOut (hm .meshOut hf), fun hf => h.ctxs (hm .ctxs hf), fun hf => h.queues (hm .queues hf),
    fun hf => h.slots (hm .slots hf), fun hf => h.reloc (hm .reloc hf), fun hf => h.jobs (hm .jobs hf),
    fun hf => h.jobKey (hm .jobKey hf), fun hf => h.copies (hm .copies hf),
    fun hf => h.compWaits (hm .compWaits hf), fun hf => h.cx (hm .cx hf), fun hf => h.disps (hm .disps hf),
    fun hf => h.pres (hm .pres hf), fun hf => h.xfers (hm .xfers hf), fun hf => h.placedIn (hm .placedIn hf),
    fun hf => h.lastServed (hm .lastServed hf), fun hf => h.passes (hm .passes hf),
    fun hf => h.geoTurn (hm .geoTurn hf), fun hf => h.hostReads (hm .hostReads hf),
    fun hf => h.model (hm .model hf), fun hf => h.loading (hm .loading hf),
    fun hf => h.monFrame (hm .monFrame hf), fun hf => h.failOrder (hm .failOrder hf),
    fun hf => h.mbWait (hm .mbWait hf), fun hf => h.mboxes (hm .mboxes hf), fun hf => h.mbOrder (hm .mbOrder hf),
    fun hf => h.staging (hm .staging hf), fun hf => h.caps (hm .caps hf), fun hf => h.capStop (hm .capStop hf),
    fun hf => h.capFaults (hm .capFaults hf), fun hf => h.pipes (hm .pipes hf),
    fun hf => h.foxKey (hm .foxKey hf), fun hf => h.foxCount (hm .foxCount hf),
    fun hf => h.foxChecked (hm .foxChecked hf), fun hf => h.foxCmd (hm .foxCmd hf),
    fun hf => h.power (hm .power hf), fun hf => h.hotSwap (hm .hotSwap hf), fun hf => h.resets (hm .resets hf),
    fun hf => h.wide (hm .wide hf), fun hf => h.perst (hm .perst hf), fun hf => h.pcieOut (hm .pcieOut hf),
    fun hf => h.peony (hm .peony hf), fun hf => h.flash (hm .flash hf), fun hf => h.wire (hm .wire hf)⟩

/-- One effect after another. -/
theorem Does.trans {m : Nat} {s t u : State} (h1 : Does m s t) (h2 : Does m t u) : Does m s u :=
  ⟨⟨h2.keeps.pending.trans h1.keeps.pending, fun i => h2.keeps.inv (h1.keeps.inv i)⟩, ⟨fun e => (h2.only.now e).trans (h1.only.now e),
    fun e => (h2.only.pll e).trans (h1.only.pll e),
    fun e => (h2.only.aclkBase e).trans (h1.only.aclkBase e),
    fun e => (h2.only.aclkFrom e).trans (h1.only.aclkFrom e),
    fun e => (h2.only.fresh e).trans (h1.only.fresh e),
    fun e => (h2.only.regs e).trans (h1.only.regs e),
    fun e => (h2.only.log e).trans (h1.only.log e),
    fun e => (h2.only.lc e).trans (h1.only.lc e),
    fun e => (h2.only.msix e).trans (h1.only.msix e),
    fun e => (h2.only.msixCtl e).trans (h1.only.msixCtl e),
    fun e => (h2.only.sent e).trans (h1.only.sent e),
    fun e => (h2.only.rdata e).trans (h1.only.rdata e),
    fun e => (h2.only.rstat e).trans (h1.only.rstat e),
    fun e => (h2.only.pipeActive e).trans (h1.only.pipeActive e),
    fun e => (h2.only.hbm e).trans (h1.only.hbm e),
    fun e => (h2.only.tile e).trans (h1.only.tile e),
    fun e => (h2.only.host e).trans (h1.only.host e),
    fun e => (h2.only.engines e).trans (h1.only.engines e),
    fun e => (h2.only.semCycles e).trans (h1.only.semCycles e),
    fun e => (h2.only.fslots e).trans (h1.only.fslots e),
    fun e => (h2.only.fclock e).trans (h1.only.fclock e),
    fun e => (h2.only.fwaiting e).trans (h1.only.fwaiting e),
    fun e => (h2.only.pageIns e).trans (h1.only.pageIns e),
    fun e => (h2.only.fsigs e).trans (h1.only.fsigs e),
    fun e => (h2.only.transits e).trans (h1.only.transits e),
    fun e => (h2.only.arbs e).trans (h1.only.arbs e),
    fun e => (h2.only.replies e).trans (h1.only.replies e),
    fun e => (h2.only.arrived e).trans (h1.only.arrived e),
    fun e => (h2.only.mcs e).trans (h1.only.mcs e),
    fun e => (h2.only.routers e).trans (h1.only.routers e),
    fun e => (h2.only.meshOut e).trans (h1.only.meshOut e),
    fun e => (h2.only.ctxs e).trans (h1.only.ctxs e),
    fun e => (h2.only.queues e).trans (h1.only.queues e),
    fun e => (h2.only.slots e).trans (h1.only.slots e),
    fun e => (h2.only.reloc e).trans (h1.only.reloc e),
    fun e => (h2.only.jobs e).trans (h1.only.jobs e),
    fun e => (h2.only.jobKey e).trans (h1.only.jobKey e),
    fun e => (h2.only.copies e).trans (h1.only.copies e),
    fun e => (h2.only.compWaits e).trans (h1.only.compWaits e),
    fun e => (h2.only.cx e).trans (h1.only.cx e),
    fun e => (h2.only.disps e).trans (h1.only.disps e),
    fun e => (h2.only.pres e).trans (h1.only.pres e),
    fun e => (h2.only.xfers e).trans (h1.only.xfers e),
    fun e => (h2.only.placedIn e).trans (h1.only.placedIn e),
    fun e => (h2.only.lastServed e).trans (h1.only.lastServed e),
    fun e => (h2.only.passes e).trans (h1.only.passes e),
    fun e => (h2.only.geoTurn e).trans (h1.only.geoTurn e),
    fun e => (h2.only.hostReads e).trans (h1.only.hostReads e),
    fun e => (h2.only.model e).trans (h1.only.model e),
    fun e => (h2.only.loading e).trans (h1.only.loading e),
    fun e => (h2.only.monFrame e).trans (h1.only.monFrame e),
    fun e => (h2.only.failOrder e).trans (h1.only.failOrder e),
    fun e => (h2.only.mbWait e).trans (h1.only.mbWait e),
    fun e => (h2.only.mboxes e).trans (h1.only.mboxes e),
    fun e => (h2.only.mbOrder e).trans (h1.only.mbOrder e),
    fun e => (h2.only.staging e).trans (h1.only.staging e),
    fun e => (h2.only.caps e).trans (h1.only.caps e),
    fun e => (h2.only.capStop e).trans (h1.only.capStop e),
    fun e => (h2.only.capFaults e).trans (h1.only.capFaults e),
    fun e => (h2.only.pipes e).trans (h1.only.pipes e),
    fun e => (h2.only.foxKey e).trans (h1.only.foxKey e),
    fun e => (h2.only.foxCount e).trans (h1.only.foxCount e),
    fun e => (h2.only.foxChecked e).trans (h1.only.foxChecked e),
    fun e => (h2.only.foxCmd e).trans (h1.only.foxCmd e),
    fun e => (h2.only.power e).trans (h1.only.power e),
    fun e => (h2.only.hotSwap e).trans (h1.only.hotSwap e),
    fun e => (h2.only.resets e).trans (h1.only.resets e),
    fun e => (h2.only.wide e).trans (h1.only.wide e),
    fun e => (h2.only.perst e).trans (h1.only.perst e),
    fun e => (h2.only.pcieOut e).trans (h1.only.pcieOut e),
    fun e => (h2.only.peony e).trans (h1.only.peony e),
    fun e => (h2.only.flash e).trans (h1.only.flash e),
    fun e => (h2.only.wire e).trans (h1.only.wire e)⟩⟩

/-- An effect within a smaller set. -/
theorem Does.mono {a m : Nat} {s t : State} (h : Does a s t) (hs : Sub a m) : Does m s t := by
  have off : ∀ n, m.testBit n = false → a.testBit n = false := fun n hn => by
    cases h : a.testBit n with
    | false => rfl
    | true => exact absurd (hs n h) (by rw [hn]; decide)
  exact ⟨h.keeps, ⟨fun e => h.only.now (off 1 e), fun e => h.only.pll (off 2 e), fun e => h.only.aclkBase (off 3 e),
    fun e => h.only.aclkFrom (off 4 e), fun e => h.only.fresh (off 5 e), fun e => h.only.regs (off 6 e),
    fun e => h.only.log (off 7 e), fun e => h.only.lc (off 8 e), fun e => h.only.msix (off 9 e),
    fun e => h.only.msixCtl (off 10 e), fun e => h.only.sent (off 11 e), fun e => h.only.rdata (off 12 e),
    fun e => h.only.rstat (off 13 e), fun e => h.only.pipeActive (off 14 e), fun e => h.only.hbm (off 15 e),
    fun e => h.only.tile (off 16 e), fun e => h.only.host (off 17 e), fun e => h.only.engines (off 18 e),
    fun e => h.only.semCycles (off 19 e), fun e => h.only.fslots (off 20 e), fun e => h.only.fclock (off 21 e),
    fun e => h.only.fwaiting (off 22 e), fun e => h.only.pageIns (off 23 e), fun e => h.only.fsigs (off 24 e),
    fun e => h.only.transits (off 25 e), fun e => h.only.arbs (off 26 e), fun e => h.only.replies (off 27 e),
    fun e => h.only.arrived (off 28 e), fun e => h.only.mcs (off 29 e), fun e => h.only.routers (off 30 e),
    fun e => h.only.meshOut (off 31 e), fun e => h.only.ctxs (off 32 e), fun e => h.only.queues (off 33 e),
    fun e => h.only.slots (off 34 e), fun e => h.only.reloc (off 35 e), fun e => h.only.jobs (off 36 e),
    fun e => h.only.jobKey (off 37 e), fun e => h.only.copies (off 38 e), fun e => h.only.compWaits (off 39 e),
    fun e => h.only.cx (off 40 e), fun e => h.only.disps (off 41 e), fun e => h.only.pres (off 42 e),
    fun e => h.only.xfers (off 43 e), fun e => h.only.placedIn (off 44 e), fun e => h.only.lastServed (off 45 e),
    fun e => h.only.passes (off 46 e), fun e => h.only.geoTurn (off 47 e), fun e => h.only.hostReads (off 48 e),
    fun e => h.only.model (off 49 e), fun e => h.only.loading (off 50 e), fun e => h.only.monFrame (off 51 e),
    fun e => h.only.failOrder (off 52 e), fun e => h.only.mbWait (off 53 e), fun e => h.only.mboxes (off 54 e),
    fun e => h.only.mbOrder (off 55 e), fun e => h.only.staging (off 56 e), fun e => h.only.caps (off 57 e),
    fun e => h.only.capStop (off 58 e), fun e => h.only.capFaults (off 59 e), fun e => h.only.pipes (off 60 e),
    fun e => h.only.foxKey (off 61 e), fun e => h.only.foxCount (off 62 e), fun e => h.only.foxChecked (off 63 e),
    fun e => h.only.foxCmd (off 64 e), fun e => h.only.power (off 65 e), fun e => h.only.hotSwap (off 66 e),
    fun e => h.only.resets (off 67 e), fun e => h.only.wide (off 68 e), fun e => h.only.perst (off 69 e),
    fun e => h.only.pcieOut (off 70 e), fun e => h.only.peony (off 71 e), fun e => h.only.flash (off 72 e),
    fun e => h.only.wire (off 73 e)⟩⟩

/-- The frame of a command's next state. -/
theorem DoesOut.changes {m : Nat} {s t : State} {o : Out} (d : DoesOut m s o) (l : List Field) (e : maskOf l = m)
    (h : o = .next t) : Changes l s t := (d t h).changes l e

/-- A command completes with what its function does. -/
theorem completes_of {c : Instr} {s t : State} {l : List Field} {P : State → Prop} (h : exec c s = .next t)
    (d : Does (maskOf l) s t) (p : P t) : Completes c s l P := ⟨t, h, d.changes l rfl, p⟩

/-- A command completes within what its meaning does. -/
theorem completes_out {c : Instr} {s t : State} {l : List Field} {P : State → Prop} (h : exec c s = .next t)
    (d : DoesOut (maskOf l) s (exec c s)) (p : P t) : Completes c s l P := completes_of h (d t h) p

end Sys2Proof.Machine
end

