-- ==== Sys2Proof/Laws/Exec.lean ====
section
/-!
SUPPORT. Every command keeps the queue and the invariant: what the lemmas of Laws/Does/ say of each meaning, said once of
`exec`.
-/
namespace Sys2Proof.Machine

set_option Elab.async false

/-- Whatever the command, its next state comes from `s` as `Does` says. -/
theorem exec_does (c : Instr) (s : State) : DoesOut 0x3ffffffffffffffffff s (exec c s) := by
  cases c with
  | lcNowLoRead t => exact does_execLcNowLoRead t s (Does.refl _ s)
  | lcEdgeLoRead => exact does_execLcEdgeLoRead s (Does.refl _ s)
  | lcSourceChange => exact does_execLcSourceChange s (Does.refl _ s)
  | frameSyncPulse t len => exact does_execFrameSyncPulse t len s (Does.refl _ s)
  | fsoPulseEnd => exact does_execFsoPulseEnd s (Does.refl _ s)
  | internalFrameEdge => exact does_execInternalFrameEdge s (Does.refl _ s)
  | timebaseLost => exact does_execTimebaseLost s (Does.refl _ s)
  | freewheelFrameEdge => exact does_execFreewheelFrameEdge s (Does.refl _ s)
  | lineTick => exact does_execLineTick s (Does.refl _ s)
  | stepFrameBoundary e => exact does_execStepFrameBoundary e s (Does.refl _ s)
  | stepStartPoint e ix c => exact does_execStepStartPoint e ix c s (Does.refl _ s)
  | guardPollReply e c => exact does_execGuardPollReply e c s (Does.refl _ s)
  | stepStart e c => exact does_execStepStart e c s (Does.refl _ s)
  | stepOverrun e c => exact does_execStepOverrun e c s (Does.refl _ s)
  | stepEnd e c => exact does_execStepEnd e c s (Does.refl _ s)
  | scalarInstruction e w g v mask pc c => exact does_execScalarInstruction e w g v mask pc c s (Does.refl _ s)
  | vectorInstruction e w op f d a b x c => exact does_execVectorInstruction e w op f d a b x c s (Does.refl _ s)
  | vectorConvert e w sf tf rnd ieee scale amax d a c => exact does_execVectorConvert e w sf tf rnd ieee scale amax d a c s (Does.refl _ s)
  | tload e w stage kg off stride f pos ecc c => exact does_execTload e w stage kg off stride f pos ecc c s (Does.refl _ s)
  | tmma e w stage acc m kg off stride f accum pos ecc c => exact does_execTmma e w stage acc m kg off stride f accum pos ecc c s (Does.refl _ s)
  | tdrain e w acc m off stride f rnd ieee scale amax pos ecc c => exact does_execTdrain e w acc m off stride f rnd ieee scale amax pos ecc c s (Does.refl _ s)
  | tensorInterlockRelease e pos ecc c => exact does_execTensorInterlockRelease e pos ecc c s (Does.refl _ s)
  | tileLoad e w l off len dst pos ecc c => exact does_execTileLoad e w l off len dst pos ecc c s (Does.refl _ s)
  | tileStore e w l off data pos ecc c => exact does_execTileStore e w l off data pos ecc c s (Does.refl _ s)
  | tmCorrectionWriteback e => exact does_execTmCorrectionWriteback e s (Does.refl _ s)
  | tmScrub e c ecc => exact does_execTmScrub e c ecc s (Does.refl _ s)
  | farLineLoad e w a n noalloc dst pos ecc c => exact does_execFarLineLoad e w a n noalloc dst pos ecc c s (Does.refl _ s)
  | farLineStore e w a data noalloc pos ecc c => exact does_execFarLineStore e w a data noalloc pos ecc c s (Does.refl _ s)
  | farLineFill e c => exact does_execFarLineFill e c s (Does.refl _ s)
  | amaxClear e ix => exact does_execAmaxClear e ix s (Does.refl _ s)
  | seedWrite e w v => exact does_execSeedWrite e w v s (Does.refl _ s)
  | illegalInstruction e w c => exact does_execIllegalInstruction e w c s (Does.refl _ s)
  | flcGroupsChange e n bad c => exact does_execFlcGroupsChange e n bad c s (Does.refl _ s)
  | flcGroupPowerOff e c => exact does_execFlcGroupPowerOff e c s (Does.refl _ s)
  | flcGroupReady e c => exact does_execFlcGroupReady e c s (Does.refl _ s)
  | flcClean e bad c => exact does_execFlcClean e bad c s (Does.refl _ s)
  | flcCleanDone e c => exact does_execFlcCleanDone e c s (Does.refl _ s)
  | engineHeartbeat e c => exact does_execEngineHeartbeat e c s (Does.refl _ s)
  | quadWatchdogExpiry e c => exact does_execQuadWatchdogExpiry e c s (Does.refl _ s)
  | engineFailMask => exact does_execEngineFailMask s (Does.refl _ s)
  | semWait e w lq ix n c => exact does_execSemWait e w lq ix n c s (Does.refl _ s)
  | semAdd e w lq ix n c => exact does_execSemAdd e w lq ix n c s (Does.refl _ s)
  | semSub e w lq ix n c => exact does_execSemSub e w lq ix n c s (Does.refl _ s)
  | semArrive e w lq ix k p c => exact does_execSemArrive e w lq ix k p c s (Does.refl _ s)
  | semBarWait e w lq ix k c => exact does_execSemBarWait e w lq ix k c s (Does.refl _ s)
  | semPollReply u w c => exact does_execSemPollReply u w c s (Does.refl _ s)
  | engineFenceSignal e w addr v => exact does_execEngineFenceSignal e w addr v s (Does.refl _ s)
  | releaseComplete e => exact does_execReleaseComplete e s (Does.refl _ s)
  | fenceSignalApply => exact does_execFenceSignalApply s (Does.refl _ s)
  | transitSignal ecc => exact does_execTransitSignal ecc s (Does.refl _ s)
  | fencePageIn n ecc => exact does_execFencePageIn n ecc s (Does.refl _ s)
  | spinPrescaler e k => exact does_execSpinPrescaler e k s (Does.refl _ s)
  | arbitrationRound a rise lower c => exact does_execArbitrationRound a rise lower c s (Does.refl _ s)
  | meshForward r out join => exact does_execMeshForward r out join s (Does.refl _ s)
  | memoryBurst m k pos ecc c => exact does_execMemoryBurst m k pos ecc c s (Does.refl _ s)
  | mcCorrectionWriteback m => exact does_execMcCorrectionWriteback m s (Does.refl _ s)
  | mcPatrolScrub m c ecc => exact does_execMcPatrolScrub m c ecc s (Does.refl _ s)
  | rtWindowClose a c => exact does_execRtWindowClose a c s (Does.refl _ s)
  | modelLoad m pos ecc c => exact does_execModelLoad m pos ecc c s (Does.refl _ s)
  | modelLoadComplete pos ecc c => exact does_execModelLoadComplete pos ecc c s (Does.refl _ s)
  | modelUnload m => exact does_execModelUnload m s (Does.refl _ s)
  | modelQuery m => exact does_execModelQuery m s (Does.refl _ s)
  | runModelCounted n => exact does_execRunModelCounted n s (Does.refl _ s)
  | runModelContinuous n => exact does_execRunModelContinuous n s (Does.refl _ s)
  | runModelStop n => exact does_execRunModelStop n s (Does.refl _ s)
  | runArm => exact does_execRunArm s (Does.refl _ s)
  | checkpointDeadline c => exact does_execCheckpointDeadline c s (Does.refl _ s)
  | engineStopRequest e => exact does_execEngineStopRequest e s (Does.refl _ s)
  | rerunStart => exact does_execRerunStart s (Does.refl _ s)
  | outputRecordWrite => exact does_execOutputRecordWrite s (Does.refl _ s)
  | monitorFrameBoundary => exact does_execMonitorFrameBoundary s (Does.refl _ s)
  | streamJoin n => exact does_execStreamJoin n s (Does.refl _ s)
  | streamLeave n => exact does_execStreamLeave n s (Does.refl _ s)
  | modelEngineLossRebind => exact does_execModelEngineLossRebind s (Does.refl _ s)
  | modelReloadComplete ecc => exact does_execModelReloadComplete ecc s (Does.refl _ s)
  | renderPassBegin n ecc => exact does_execRenderPassBegin n ecc s (Does.refl _ s)
  | renderPassEnd n => exact does_execRenderPassEnd n s (Does.refl _ s)
  | draw n => exact does_execDraw n s (Does.refl _ s)
  | geometryBatch p k outs => exact does_execGeometryBatch p k outs s (Does.refl _ s)
  | growBins n => exact does_execGrowBins n s (Does.refl _ s)
  | secPassGrowCntWrite fn p v => exact does_execSecPassGrowCntWrite fn p v s (Does.refl _ s)
  | binWaitExpiry p => exact does_execBinWaitExpiry p s (Does.refl _ s)
  | partialRenderDone p => exact does_execPartialRenderDone p s (Does.refl _ s)
  | tileVisit e px => exact does_execTileVisit e px s (Does.refl _ s)
  | passComplete p => exact does_execPassComplete p s (Does.refl _ s)
  | dispatch n => exact does_execDispatch n s (Does.refl _ s)
  | workgroupPlace p c => exact does_execWorkgroupPlace p c s (Does.refl _ s)
  | waveStart e w c => exact does_execWaveStart e w c s (Does.refl _ s)
  | waveEnd e w c => exact does_execWaveEnd e w c s (Does.refl _ s)
  | dispatchComplete q => exact does_execDispatchComplete q s (Does.refl _ s)
  | spillStart k c => exact does_execSpillStart k c s (Does.refl _ s)
  | spillEnd k c pos ecc => exact does_execSpillEnd k c pos ecc s (Does.refl _ s)
  | restoreStart k c => exact does_execRestoreStart k c s (Does.refl _ s)
  | restoreEnd k c pos ecc => exact does_execRestoreEnd k c pos ecc s (Does.refl _ s)
  | setPriority n => exact does_execSetPriority n s (Does.refl _ s)
  | compress n => exact does_execCompress n s (Does.refl _ s)
  | compressJobStart ecc => exact does_execCompressJobStart ecc s (Does.refl _ s)
  | tsfBlockDone k c pos ecc => exact does_execTsfBlockDone k c pos ecc s (Does.refl _ s)
  | fixedRatioRowDone k c pos ecc => exact does_execFixedRatioRowDone k c pos ecc s (Does.refl _ s)
  | compressJobEnd k => exact does_execCompressJobEnd k s (Does.refl _ s)
  | doorbell fn q v size => exact does_execDoorbell fn q v size s (Does.refl _ s)
  | slotWake n => exact does_execSlotWake n s (Does.refl _ s)
  | ringEntryFetch n ecc => exact does_execRingEntryFetch n ecc s (Does.refl _ s)
  | ringEntryEnd n => exact does_execRingEntryEnd n s (Does.refl _ s)
  | bufferPrefetch n ecc => exact does_execBufferPrefetch n ecc s (Does.refl _ s)
  | bufferEnd n => exact does_execBufferEnd n s (Does.refl _ s)
  | handleEntryFetch n ecc => exact does_execHandleEntryFetch n ecc s (Does.refl _ s)
  | unknownOpcode n => exact does_execUnknownOpcode n s (Does.refl _ s)
  | nop n => exact does_execNop n s (Does.refl _ s)
  | jump n => exact does_execJump n s (Does.refl _ s)
  | call n => exact does_execCall n s (Does.refl _ s)
  | ret n => exact does_execRet n s (Does.refl _ s)
  | loop n => exact does_execLoop n s (Does.refl _ s)
  | endloop n => exact does_execEndloop n s (Does.refl _ s)
  | cond n => exact does_execCond n s (Does.refl _ s)
  | waitFence n => exact does_execWaitFence n s (Does.refl _ s)
  | signalFence n => exact does_execSignalFence n s (Does.refl _ s)
  | semOpWait n => exact does_execSemOpWait n s (Does.refl _ s)
  | semOpAdd n => exact does_execSemOpAdd n s (Does.refl _ s)
  | semOpSub n => exact does_execSemOpSub n s (Does.refl _ s)
  | semOpArrive n => exact does_execSemOpArrive n s (Does.refl _ s)
  | copy n => exact does_execCopy n s (Does.refl _ s)
  | copyChannelStart => exact does_execCopyChannelStart s (Does.refl _ s)
  | copyComplete k pos ecc => exact does_execCopyComplete k pos ecc s (Does.refl _ s)
  | writeReg n => exact does_execWriteReg n s (Does.refl _ s)
  | setContext n => exact does_execSetContext n s (Does.refl _ s)
  | loadHandleTable n => exact does_execLoadHandleTable n s (Does.refl _ s)
  | teardownQueue n => exact does_execTeardownQueue n s (Does.refl _ s)
  | timestamp n => exact does_execTimestamp n s (Does.refl _ s)
  | timestampEarly n => exact does_execTimestampEarly n s (Does.refl _ s)
  | jobStart n ecc => exact does_execJobStart n ecc s (Does.refl _ s)
  | feCompRead fn q size => exact does_execFeCompRead fn q size s (Does.refl _ s)
  | feCerrRead fn q size => exact does_execFeCerrRead fn q size s (Does.refl _ s)
  | feQslotSeqRead fn n => exact does_execFeQslotSeqRead fn n s (Does.refl _ s)
  | feQslotBufRead fn n => exact does_execFeQslotBufRead fn n s (Does.refl _ s)
  | synFslotValRead k => exact does_execSynFslotValRead k s (Does.refl _ s)
  | jobTimeout q k t => exact does_execJobTimeout q k t s (Does.refl _ s)
  | flowRunTimeout n t => exact does_execFlowRunTimeout n t s (Does.refl _ s)
  | fenceWaitTimeout n t => exact does_execFenceWaitTimeout n t s (Does.refl _ s)
  | timeoutGraceExpiry q k t => exact does_execTimeoutGraceExpiry q k t s (Does.refl _ s)
  | teardownAck e q => exact does_execTeardownAck e q s (Does.refl _ s)
  | teardownDrained q => exact does_execTeardownDrained q s (Does.refl _ s)
  | promiseListRead q pos ecc => exact does_execPromiseListRead q pos ecc s (Does.refl _ s)
  | teardownLimitExpiry q t => exact does_execTeardownLimitExpiry q t s (Does.refl _ s)
  | eflanScan t => exact does_execEflanScan t s (Does.refl _ s)
  | mw2Read fn x n pos ecc => exact does_execMw2Read fn x n pos ecc s (Does.refl _ s)
  | mw2Write fn x data poisoned pos ecc => exact does_execMw2Write fn x data poisoned pos ecc s (Does.refl _ s)
  | hostReadCompletion r a cpl data c => exact does_execHostReadCompletion r a cpl data c s (Does.refl _ s)
  | hostReadTimeout r a c => exact does_execHostReadTimeout r a c s (Does.refl _ s)
  | atomicOpReceived fn => exact does_execAtomicOpReceived fn s (Does.refl _ s)
  | registerWrite fn off v size => exact does_execRegisterWrite fn off v size s (Does.refl _ s)
  | vfFlr p c => exact does_execVfFlr p c s (Does.refl _ s)
  | vfEnableChange en num c => exact does_execVfEnableChange en num c s (Does.refl _ s)
  | partResetDrained p c => exact does_execPartResetDrained p c s (Does.refl _ s)
  | partResetRelease p c => exact does_execPartResetRelease p c s (Does.refl _ s)
  | pfFlr c => exact does_execPfFlr c s (Does.refl _ s)
  | hotReset c => exact does_execHotReset c s (Does.refl _ s)
  | perstAssert c => exact does_execPerstAssert c s (Does.refl _ s)
  | perstRelease => exact does_execPerstRelease s (Does.refl _ s)
  | linkDown c => exact does_execLinkDown c s (Does.refl _ s)
  | msixSend fn v c => exact does_execMsixSend fn v c s (Does.refl _ s)
  | msixUnmask fn v en fm => exact does_execMsixUnmask fn v en fm s (Does.refl _ s)
  | serialRead addr len => exact does_execSerialRead addr len s (Does.refl _ s)
  | serialWrite addr len data crc cut => exact does_execSerialWrite addr len data crc cut s (Does.refl _ s)
  | serialPortReset => exact does_execSerialPortReset s (Does.refl _ s)
  | serialBadCommand => exact does_execSerialBadCommand s (Does.refl _ s)
  | mailboxGo m serial irq => exact does_execMailboxGo m serial irq s (Does.refl _ s)
  | mailboxTake => exact does_execMailboxTake s (Does.refl _ s)
  | mailboxDoneClear m serial => exact does_execMailboxDoneClear m serial s (Does.refl _ s)
  | unknownMessage m => exact does_execUnknownMessage m s (Does.refl _ s)
  | version m => exact does_execVersion m s (Does.refl _ s)
  | partCreate m => exact does_execPartCreate m s (Does.refl _ s)
  | partChange m => exact does_execPartChange m s (Does.refl _ s)
  | partDestroy m c => exact does_execPartDestroy m c s (Does.refl _ s)
  | partReset m c => exact does_execPartReset m c s (Does.refl _ s)
  | partAperture m => exact does_execPartAperture m s (Does.refl _ s)
  | contextCreate m => exact does_execContextCreate m s (Does.refl _ s)
  | contextUpdate m => exact does_execContextUpdate m s (Does.refl _ s)
  | contextDestroy m => exact does_execContextDestroy m s (Does.refl _ s)
  | queueCreate m => exact does_execQueueCreate m s (Does.refl _ s)
  | queueDestroy m c => exact does_execQueueDestroy m c s (Does.refl _ s)
  | queueCounters m => exact does_execQueueCounters m s (Does.refl _ s)
  | fenceRelease m => exact does_execFenceRelease m s (Does.refl _ s)
  | fenceStatus m => exact does_execFenceStatus m s (Does.refl _ s)
  | semSet m c => exact does_execSemSet m c s (Does.refl _ s)
  | powerState m t => exact does_execPowerState m t s (Does.refl _ s)
  | powerEntryStep t => exact does_execPowerEntryStep t s (Does.refl _ s)
  | wakeStepReady t => exact does_execWakeStepReady t s (Does.refl _ s)
  | wakeStepTimeout unit t => exact does_execWakeStepTimeout unit t s (Does.refl _ s)
  | clockSwitchPll m t => exact does_execClockSwitchPll m t s (Does.refl _ s)
  | clockSwitchWake m t => exact does_execClockSwitchWake m t s (Does.refl _ s)
  | pllLock t => exact does_execPllLock t s (Does.refl _ s)
  | telemetry m => exact does_execTelemetry m s (Does.refl _ s)
  | regWrite m t => exact does_execRegWrite m t s (Does.refl _ s)
  | regClear m => exact does_execRegClear m s (Does.refl _ s)
  | displayConfig m pos ecc t => exact does_execDisplayConfig m pos ecc t s (Does.refl _ s)
  | captureConfig m pos ecc => exact does_execCaptureConfig m pos ecc s (Does.refl _ s)
  | foxgloveSetCommand m => exact does_execFoxgloveSetCommand m s (Does.refl _ s)
  | foxgloveStageWrite m => exact does_execFoxgloveStageWrite m s (Does.refl _ s)
  | foxgloveKeyInstall m => exact does_execFoxgloveKeyInstall m s (Does.refl _ s)
  | foxgloveCheckDone => exact does_execFoxgloveCheckDone s (Does.refl _ s)
  | foxgloveStatus m => exact does_execFoxgloveStatus m s (Does.refl _ s)
  | errlogRead m => exact does_execErrlogRead m s (Does.refl _ s)
  | errlogConfig m => exact does_execErrlogConfig m s (Does.refl _ s)
  | idQuery m => exact does_execIdQuery m s (Does.refl _ s)
  | attest m t => exact does_execAttest m t s (Does.refl _ s)
  | fwUpdateBegin m => exact does_execFwUpdateBegin m s (Does.refl _ s)
  | fwUpdateData m => exact does_execFwUpdateData m s (Does.refl _ s)
  | fwUpdateCommit m => exact does_execFwUpdateCommit m s (Does.refl _ s)
  | fwUpdateAbort m => exact does_execFwUpdateAbort m s (Does.refl _ s)
  | configUpdateBegin m => exact does_execConfigUpdateBegin m s (Does.refl _ s)
  | configUpdateData m => exact does_execConfigUpdateData m s (Does.refl _ s)
  | configUpdateCommit m => exact does_execConfigUpdateCommit m s (Does.refl _ s)
  | configUpdateAbort m => exact does_execConfigUpdateAbort m s (Does.refl _ s)
  | bootRomStart t flashErr => exact does_execBootRomStart t flashErr s (Does.refl _ s)
  | eflanStart puf t => exact does_execEflanStart puf t s (Does.refl _ s)
  | eflanHeartbeat t => exact does_execEflanHeartbeat t s (Does.refl _ s)
  | peonyWatchdogExpiry t => exact does_execPeonyWatchdogExpiry t s (Does.refl _ s)
  | frameStartPacket u v t hdr => exact does_execFrameStartPacket u v t hdr s (Does.refl _ s)
  | linePacket u v t dt hdr crc px chroma ecc => exact does_execLinePacket u v t dt hdr crc px chroma ecc s (Does.refl _ s)
  | frameEndPacket u v t hdr => exact does_execFrameEndPacket u v t hdr s (Does.refl _ s)
  | otherShortPacket u v t hdr => exact does_execOtherShortPacket u v t hdr s (Does.refl _ s)
  | dphyError u v t => exact does_execDphyError u v t s (Does.refl _ s)
  | captureSemAdd u v => exact does_execCaptureSemAdd u v s (Does.refl _ s)
  | displayLine p t late bad fgBad => exact does_execDisplayLine p t late bad fgBad s (Does.refl _ s)
  | displayFrameBoundary p => exact does_execDisplayFrameBoundary p s (Does.refl _ s)
  | hpdChange p high => exact does_execHpdChange p high s (Does.refl _ s)
  | linkTrainingDone p ok => exact does_execLinkTrainingDone p ok s (Does.refl _ s)
  | auxTransaction p => exact does_execAuxTransaction p s (Does.refl _ s)
  | auxReply p code data => exact does_execAuxReply p code data s (Does.refl _ s)
  | powerSample t mw mv => exact does_execPowerSample t mw mv s (Does.refl _ s)
  | tempSample t die hbm => exact does_execTempSample t die hbm s (Does.refl _ s)
  | thermalTrip t die hbm => exact does_execThermalTrip t die hbm s (Does.refl _ s)
  | engineResetEnd e c => exact does_execEngineResetEnd e c s (Does.refl _ s)
  | cxResetEnd k c => exact does_execCxResetEnd k c s (Does.refl _ s)
  | selfTestEnd e pass c => exact does_execSelfTestEnd e pass c s (Does.refl _ s)
  | internalUncorrectable x c => exact does_execInternalUncorrectable x c s (Does.refl _ s)
  | prsnt2Change low t => exact does_execPrsnt2Change low t s (Does.refl _ s)
  | pwrdisChange high t => exact does_execPwrdisChange high t s (Does.refl _ s)
  | inputVoltageChange mv t => exact does_execInputVoltageChange mv t s (Does.refl _ s)
  | hotSwapClose t => exact does_execHotSwapClose t s (Does.refl _ s)
  | powerGood t => exact does_execPowerGood t s (Does.refl _ s)
  | overcurrent ma us mv t => exact does_execOvercurrent ma us mv t s (Does.refl _ s)
  | faultLatchClear t cool => exact does_execFaultLatchClear t cool s (Does.refl _ s)
  | receiverSyncChange u on => exact does_execReceiverSyncChange u on s (Does.refl _ s)
  | pcieLinkUp speed lanes => exact does_execPcieLinkUp speed lanes s (Does.refl _ s)
  | attestSigned m t => exact does_execAttestSigned m t s (Does.refl _ s)
  | partDestroyDone p c => exact does_execPartDestroyDone p c s (Does.refl _ s)
  | otherSlotCheck t => exact does_execOtherSlotCheck t s (Does.refl _ s)

end Sys2Proof.Machine
end

