-- ==== Sys2Proof/Laws/State.lean ====
section
/-!
SUPPORT. What each operation that sets one field of the state leaves alone: every other field.
-/
namespace Sys2Proof.Machine

set_option Elab.async false

@[simp] theorem wr_frame (s : State) (off : Nat) (v : Nat) :
    (wr s off v).pending = s.pending ∧ (wr s off v).now = s.now ∧ (wr s off v).pll = s.pll ∧
    (wr s off v).aclkBase = s.aclkBase ∧ (wr s off v).aclkFrom = s.aclkFrom ∧ (wr s off v).fresh = s.fresh ∧
    (wr s off v).log = s.log ∧ (wr s off v).lc = s.lc ∧ (wr s off v).msix = s.msix ∧
    (wr s off v).msixCtl = s.msixCtl ∧ (wr s off v).sent = s.sent ∧ (wr s off v).rdata = s.rdata ∧
    (wr s off v).rstat = s.rstat ∧ (wr s off v).pipeActive = s.pipeActive ∧ (wr s off v).hbm = s.hbm ∧
    (wr s off v).tile = s.tile ∧ (wr s off v).host = s.host ∧ (wr s off v).engines = s.engines ∧
    (wr s off v).semCycles = s.semCycles ∧ (wr s off v).fslots = s.fslots ∧ (wr s off v).fclock = s.fclock ∧
    (wr s off v).fwaiting = s.fwaiting ∧ (wr s off v).pageIns = s.pageIns ∧ (wr s off v).fsigs = s.fsigs ∧
    (wr s off v).transits = s.transits ∧ (wr s off v).arbs = s.arbs ∧ (wr s off v).replies = s.replies ∧
    (wr s off v).arrived = s.arrived ∧ (wr s off v).mcs = s.mcs ∧ (wr s off v).routers = s.routers ∧
    (wr s off v).meshOut = s.meshOut ∧ (wr s off v).ctxs = s.ctxs ∧ (wr s off v).queues = s.queues ∧
    (wr s off v).slots = s.slots ∧ (wr s off v).reloc = s.reloc ∧ (wr s off v).jobs = s.jobs ∧
    (wr s off v).jobKey = s.jobKey ∧ (wr s off v).copies = s.copies ∧ (wr s off v).compWaits = s.compWaits ∧
    (wr s off v).cx = s.cx ∧ (wr s off v).disps = s.disps ∧ (wr s off v).pres = s.pres ∧
    (wr s off v).xfers = s.xfers ∧ (wr s off v).placedIn = s.placedIn ∧ (wr s off v).lastServed = s.lastServed ∧
    (wr s off v).passes = s.passes ∧ (wr s off v).geoTurn = s.geoTurn ∧ (wr s off v).hostReads = s.hostReads ∧
    (wr s off v).model = s.model ∧ (wr s off v).loading = s.loading ∧ (wr s off v).monFrame = s.monFrame ∧
    (wr s off v).failOrder = s.failOrder ∧ (wr s off v).mbWait = s.mbWait ∧ (wr s off v).mboxes = s.mboxes ∧
    (wr s off v).mbOrder = s.mbOrder ∧ (wr s off v).staging = s.staging ∧ (wr s off v).caps = s.caps ∧
    (wr s off v).capStop = s.capStop ∧ (wr s off v).capFaults = s.capFaults ∧ (wr s off v).pipes = s.pipes ∧
    (wr s off v).foxKey = s.foxKey ∧ (wr s off v).foxCount = s.foxCount ∧ (wr s off v).foxChecked = s.foxChecked ∧
    (wr s off v).foxCmd = s.foxCmd ∧ (wr s off v).power = s.power ∧ (wr s off v).hotSwap = s.hotSwap ∧
    (wr s off v).resets = s.resets ∧ (wr s off v).wide = s.wide ∧ (wr s off v).perst = s.perst ∧
    (wr s off v).pcieOut = s.pcieOut ∧ (wr s off v).peony = s.peony ∧ (wr s off v).flash = s.flash ∧
    (wr s off v).wire = s.wire := by
  refine ⟨rfl, rfl, rfl, rfl, rfl, rfl, rfl, rfl, rfl, rfl, rfl, rfl, rfl, rfl, rfl, rfl, rfl, rfl, rfl, rfl, rfl, rfl, rfl, rfl, rfl, rfl, rfl, rfl, rfl, rfl, rfl, rfl, rfl, rfl, rfl, rfl, rfl, rfl, rfl, rfl, rfl, rfl, rfl, rfl, rfl, rfl, rfl, rfl, rfl, rfl, rfl, rfl, rfl, rfl, rfl, rfl, rfl, rfl, rfl, rfl, rfl, rfl, rfl, rfl, rfl, rfl, rfl, rfl, rfl, rfl, rfl, rfl, rfl⟩

@[simp] theorem atTime_frame (s : State) (u : Nat) :
    (atTime s u).pending = s.pending ∧ (atTime s u).pll = s.pll ∧ (atTime s u).aclkBase = s.aclkBase ∧
    (atTime s u).aclkFrom = s.aclkFrom ∧ (atTime s u).fresh = s.fresh ∧ (atTime s u).regs = s.regs ∧
    (atTime s u).log = s.log ∧ (atTime s u).lc = s.lc ∧ (atTime s u).msix = s.msix ∧
    (atTime s u).msixCtl = s.msixCtl ∧ (atTime s u).sent = s.sent ∧ (atTime s u).rdata = s.rdata ∧
    (atTime s u).rstat = s.rstat ∧ (atTime s u).pipeActive = s.pipeActive ∧ (atTime s u).hbm = s.hbm ∧
    (atTime s u).tile = s.tile ∧ (atTime s u).host = s.host ∧ (atTime s u).engines = s.engines ∧
    (atTime s u).semCycles = s.semCycles ∧ (atTime s u).fslots = s.fslots ∧ (atTime s u).fclock = s.fclock ∧
    (atTime s u).fwaiting = s.fwaiting ∧ (atTime s u).pageIns = s.pageIns ∧ (atTime s u).fsigs = s.fsigs ∧
    (atTime s u).transits = s.transits ∧ (atTime s u).arbs = s.arbs ∧ (atTime s u).replies = s.replies ∧
    (atTime s u).arrived = s.arrived ∧ (atTime s u).mcs = s.mcs ∧ (atTime s u).routers = s.routers ∧
    (atTime s u).meshOut = s.meshOut ∧ (atTime s u).ctxs = s.ctxs ∧ (atTime s u).queues = s.queues ∧
    (atTime s u).slots = s.slots ∧ (atTime s u).reloc = s.reloc ∧ (atTime s u).jobs = s.jobs ∧
    (atTime s u).jobKey = s.jobKey ∧ (atTime s u).copies = s.copies ∧ (atTime s u).compWaits = s.compWaits ∧
    (atTime s u).cx = s.cx ∧ (atTime s u).disps = s.disps ∧ (atTime s u).pres = s.pres ∧
    (atTime s u).xfers = s.xfers ∧ (atTime s u).placedIn = s.placedIn ∧ (atTime s u).lastServed = s.lastServed ∧
    (atTime s u).passes = s.passes ∧ (atTime s u).geoTurn = s.geoTurn ∧ (atTime s u).hostReads = s.hostReads ∧
    (atTime s u).model = s.model ∧ (atTime s u).loading = s.loading ∧ (atTime s u).monFrame = s.monFrame ∧
    (atTime s u).failOrder = s.failOrder ∧ (atTime s u).mbWait = s.mbWait ∧ (atTime s u).mboxes = s.mboxes ∧
    (atTime s u).mbOrder = s.mbOrder ∧ (atTime s u).staging = s.staging ∧ (atTime s u).caps = s.caps ∧
    (atTime s u).capStop = s.capStop ∧ (atTime s u).capFaults = s.capFaults ∧ (atTime s u).pipes = s.pipes ∧
    (atTime s u).foxKey = s.foxKey ∧ (atTime s u).foxCount = s.foxCount ∧ (atTime s u).foxChecked = s.foxChecked ∧
    (atTime s u).foxCmd = s.foxCmd ∧ (atTime s u).power = s.power ∧ (atTime s u).hotSwap = s.hotSwap ∧
    (atTime s u).resets = s.resets ∧ (atTime s u).wide = s.wide ∧ (atTime s u).perst = s.perst ∧
    (atTime s u).pcieOut = s.pcieOut ∧ (atTime s u).peony = s.peony ∧ (atTime s u).flash = s.flash ∧
    (atTime s u).wire = s.wire := by
  refine ⟨rfl, rfl, rfl, rfl, rfl, rfl, rfl, rfl, rfl, rfl, rfl, rfl, rfl, rfl, rfl, rfl, rfl, rfl, rfl, rfl, rfl, rfl, rfl, rfl, rfl, rfl, rfl, rfl, rfl, rfl, rfl, rfl, rfl, rfl, rfl, rfl, rfl, rfl, rfl, rfl, rfl, rfl, rfl, rfl, rfl, rfl, rfl, rfl, rfl, rfl, rfl, rfl, rfl, rfl, rfl, rfl, rfl, rfl, rfl, rfl, rfl, rfl, rfl, rfl, rfl, rfl, rfl, rfl, rfl, rfl, rfl, rfl, rfl⟩

@[simp] theorem setVec_frame (s : State) (p : Nat) (v : Nat) (x : Msix) :
    (setVec s p v x).pending = s.pending ∧ (setVec s p v x).now = s.now ∧ (setVec s p v x).pll = s.pll ∧
    (setVec s p v x).aclkBase = s.aclkBase ∧ (setVec s p v x).aclkFrom = s.aclkFrom ∧
    (setVec s p v x).fresh = s.fresh ∧ (setVec s p v x).regs = s.regs ∧ (setVec s p v x).log = s.log ∧
    (setVec s p v x).lc = s.lc ∧ (setVec s p v x).msixCtl = s.msixCtl ∧ (setVec s p v x).sent = s.sent ∧
    (setVec s p v x).rdata = s.rdata ∧ (setVec s p v x).rstat = s.rstat ∧
    (setVec s p v x).pipeActive = s.pipeActive ∧ (setVec s p v x).hbm = s.hbm ∧ (setVec s p v x).tile = s.tile ∧
    (setVec s p v x).host = s.host ∧ (setVec s p v x).engines = s.engines ∧
    (setVec s p v x).semCycles = s.semCycles ∧ (setVec s p v x).fslots = s.fslots ∧
    (setVec s p v x).fclock = s.fclock ∧ (setVec s p v x).fwaiting = s.fwaiting ∧
    (setVec s p v x).pageIns = s.pageIns ∧ (setVec s p v x).fsigs = s.fsigs ∧
    (setVec s p v x).transits = s.transits ∧ (setVec s p v x).arbs = s.arbs ∧
    (setVec s p v x).replies = s.replies ∧ (setVec s p v x).arrived = s.arrived ∧ (setVec s p v x).mcs = s.mcs ∧
    (setVec s p v x).routers = s.routers ∧ (setVec s p v x).meshOut = s.meshOut ∧ (setVec s p v x).ctxs = s.ctxs ∧
    (setVec s p v x).queues = s.queues ∧ (setVec s p v x).slots = s.slots ∧ (setVec s p v x).reloc = s.reloc ∧
    (setVec s p v x).jobs = s.jobs ∧ (setVec s p v x).jobKey = s.jobKey ∧ (setVec s p v x).copies = s.copies ∧
    (setVec s p v x).compWaits = s.compWaits ∧ (setVec s p v x).cx = s.cx ∧ (setVec s p v x).disps = s.disps ∧
    (setVec s p v x).pres = s.pres ∧ (setVec s p v x).xfers = s.xfers ∧ (setVec s p v x).placedIn = s.placedIn ∧
    (setVec s p v x).lastServed = s.lastServed ∧ (setVec s p v x).passes = s.passes ∧
    (setVec s p v x).geoTurn = s.geoTurn ∧ (setVec s p v x).hostReads = s.hostReads ∧
    (setVec s p v x).model = s.model ∧ (setVec s p v x).loading = s.loading ∧
    (setVec s p v x).monFrame = s.monFrame ∧ (setVec s p v x).failOrder = s.failOrder ∧
    (setVec s p v x).mbWait = s.mbWait ∧ (setVec s p v x).mboxes = s.mboxes ∧
    (setVec s p v x).mbOrder = s.mbOrder ∧ (setVec s p v x).staging = s.staging ∧ (setVec s p v x).caps = s.caps ∧
    (setVec s p v x).capStop = s.capStop ∧ (setVec s p v x).capFaults = s.capFaults ∧
    (setVec s p v x).pipes = s.pipes ∧ (setVec s p v x).foxKey = s.foxKey ∧
    (setVec s p v x).foxCount = s.foxCount ∧ (setVec s p v x).foxChecked = s.foxChecked ∧
    (setVec s p v x).foxCmd = s.foxCmd ∧ (setVec s p v x).power = s.power ∧ (setVec s p v x).hotSwap = s.hotSwap ∧
    (setVec s p v x).resets = s.resets ∧ (setVec s p v x).wide = s.wide ∧ (setVec s p v x).perst = s.perst ∧
    (setVec s p v x).pcieOut = s.pcieOut ∧ (setVec s p v x).peony = s.peony ∧ (setVec s p v x).flash = s.flash ∧
    (setVec s p v x).wire = s.wire := by
  refine ⟨rfl, rfl, rfl, rfl, rfl, rfl, rfl, rfl, rfl, rfl, rfl, rfl, rfl, rfl, rfl, rfl, rfl, rfl, rfl, rfl, rfl, rfl, rfl, rfl, rfl, rfl, rfl, rfl, rfl, rfl, rfl, rfl, rfl, rfl, rfl, rfl, rfl, rfl, rfl, rfl, rfl, rfl, rfl, rfl, rfl, rfl, rfl, rfl, rfl, rfl, rfl, rfl, rfl, rfl, rfl, rfl, rfl, rfl, rfl, rfl, rfl, rfl, rfl, rfl, rfl, rfl, rfl, rfl, rfl, rfl, rfl, rfl, rfl⟩

@[simp] theorem setCapVc_frame (s : State) (u : Nat) (v : Nat) (x : CapVc) :
    (setCapVc s u v x).pending = s.pending ∧ (setCapVc s u v x).now = s.now ∧ (setCapVc s u v x).pll = s.pll ∧
    (setCapVc s u v x).aclkBase = s.aclkBase ∧ (setCapVc s u v x).aclkFrom = s.aclkFrom ∧
    (setCapVc s u v x).fresh = s.fresh ∧ (setCapVc s u v x).regs = s.regs ∧ (setCapVc s u v x).log = s.log ∧
    (setCapVc s u v x).lc = s.lc ∧ (setCapVc s u v x).msix = s.msix ∧ (setCapVc s u v x).msixCtl = s.msixCtl ∧
    (setCapVc s u v x).sent = s.sent ∧ (setCapVc s u v x).rdata = s.rdata ∧ (setCapVc s u v x).rstat = s.rstat ∧
    (setCapVc s u v x).pipeActive = s.pipeActive ∧ (setCapVc s u v x).hbm = s.hbm ∧
    (setCapVc s u v x).tile = s.tile ∧ (setCapVc s u v x).host = s.host ∧ (setCapVc s u v x).engines = s.engines ∧
    (setCapVc s u v x).semCycles = s.semCycles ∧ (setCapVc s u v x).fslots = s.fslots ∧
    (setCapVc s u v x).fclock = s.fclock ∧ (setCapVc s u v x).fwaiting = s.fwaiting ∧
    (setCapVc s u v x).pageIns = s.pageIns ∧ (setCapVc s u v x).fsigs = s.fsigs ∧
    (setCapVc s u v x).transits = s.transits ∧ (setCapVc s u v x).arbs = s.arbs ∧
    (setCapVc s u v x).replies = s.replies ∧ (setCapVc s u v x).arrived = s.arrived ∧
    (setCapVc s u v x).mcs = s.mcs ∧ (setCapVc s u v x).routers = s.routers ∧
    (setCapVc s u v x).meshOut = s.meshOut ∧ (setCapVc s u v x).ctxs = s.ctxs ∧
    (setCapVc s u v x).queues = s.queues ∧ (setCapVc s u v x).slots = s.slots ∧
    (setCapVc s u v x).reloc = s.reloc ∧ (setCapVc s u v x).jobs = s.jobs ∧ (setCapVc s u v x).jobKey = s.jobKey ∧
    (setCapVc s u v x).copies = s.copies ∧ (setCapVc s u v x).compWaits = s.compWaits ∧
    (setCapVc s u v x).cx = s.cx ∧ (setCapVc s u v x).disps = s.disps ∧ (setCapVc s u v x).pres = s.pres ∧
    (setCapVc s u v x).xfers = s.xfers ∧ (setCapVc s u v x).placedIn = s.placedIn ∧
    (setCapVc s u v x).lastServed = s.lastServed ∧ (setCapVc s u v x).passes = s.passes ∧
    (setCapVc s u v x).geoTurn = s.geoTurn ∧ (setCapVc s u v x).hostReads = s.hostReads ∧
    (setCapVc s u v x).model = s.model ∧ (setCapVc s u v x).loading = s.loading ∧
    (setCapVc s u v x).monFrame = s.monFrame ∧ (setCapVc s u v x).failOrder = s.failOrder ∧
    (setCapVc s u v x).mbWait = s.mbWait ∧ (setCapVc s u v x).mboxes = s.mboxes ∧
    (setCapVc s u v x).mbOrder = s.mbOrder ∧ (setCapVc s u v x).staging = s.staging ∧
    (setCapVc s u v x).capStop = s.capStop ∧ (setCapVc s u v x).capFaults = s.capFaults ∧
    (setCapVc s u v x).pipes = s.pipes ∧ (setCapVc s u v x).foxKey = s.foxKey ∧
    (setCapVc s u v x).foxCount = s.foxCount ∧ (setCapVc s u v x).foxChecked = s.foxChecked ∧
    (setCapVc s u v x).foxCmd = s.foxCmd ∧ (setCapVc s u v x).power = s.power ∧
    (setCapVc s u v x).hotSwap = s.hotSwap ∧ (setCapVc s u v x).resets = s.resets ∧
    (setCapVc s u v x).wide = s.wide ∧ (setCapVc s u v x).perst = s.perst ∧
    (setCapVc s u v x).pcieOut = s.pcieOut ∧ (setCapVc s u v x).peony = s.peony ∧
    (setCapVc s u v x).flash = s.flash ∧ (setCapVc s u v x).wire = s.wire := by
  refine ⟨rfl, rfl, rfl, rfl, rfl, rfl, rfl, rfl, rfl, rfl, rfl, rfl, rfl, rfl, rfl, rfl, rfl, rfl, rfl, rfl, rfl, rfl, rfl, rfl, rfl, rfl, rfl, rfl, rfl, rfl, rfl, rfl, rfl, rfl, rfl, rfl, rfl, rfl, rfl, rfl, rfl, rfl, rfl, rfl, rfl, rfl, rfl, rfl, rfl, rfl, rfl, rfl, rfl, rfl, rfl, rfl, rfl, rfl, rfl, rfl, rfl, rfl, rfl, rfl, rfl, rfl, rfl, rfl, rfl, rfl, rfl, rfl, rfl⟩

@[simp] theorem setMc_frame (s : State) (c : Nat) (x : McSt) :
    (setMc s c x).pending = s.pending ∧ (setMc s c x).now = s.now ∧ (setMc s c x).pll = s.pll ∧
    (setMc s c x).aclkBase = s.aclkBase ∧ (setMc s c x).aclkFrom = s.aclkFrom ∧ (setMc s c x).fresh = s.fresh ∧
    (setMc s c x).regs = s.regs ∧ (setMc s c x).log = s.log ∧ (setMc s c x).lc = s.lc ∧
    (setMc s c x).msix = s.msix ∧ (setMc s c x).msixCtl = s.msixCtl ∧ (setMc s c x).sent = s.sent ∧
    (setMc s c x).rdata = s.rdata ∧ (setMc s c x).rstat = s.rstat ∧ (setMc s c x).pipeActive = s.pipeActive ∧
    (setMc s c x).hbm = s.hbm ∧ (setMc s c x).tile = s.tile ∧ (setMc s c x).host = s.host ∧
    (setMc s c x).engines = s.engines ∧ (setMc s c x).semCycles = s.semCycles ∧ (setMc s c x).fslots = s.fslots ∧
    (setMc s c x).fclock = s.fclock ∧ (setMc s c x).fwaiting = s.fwaiting ∧ (setMc s c x).pageIns = s.pageIns ∧
    (setMc s c x).fsigs = s.fsigs ∧ (setMc s c x).transits = s.transits ∧ (setMc s c x).arbs = s.arbs ∧
    (setMc s c x).replies = s.replies ∧ (setMc s c x).arrived = s.arrived ∧ (setMc s c x).routers = s.routers ∧
    (setMc s c x).meshOut = s.meshOut ∧ (setMc s c x).ctxs = s.ctxs ∧ (setMc s c x).queues = s.queues ∧
    (setMc s c x).slots = s.slots ∧ (setMc s c x).reloc = s.reloc ∧ (setMc s c x).jobs = s.jobs ∧
    (setMc s c x).jobKey = s.jobKey ∧ (setMc s c x).copies = s.copies ∧ (setMc s c x).compWaits = s.compWaits ∧
    (setMc s c x).cx = s.cx ∧ (setMc s c x).disps = s.disps ∧ (setMc s c x).pres = s.pres ∧
    (setMc s c x).xfers = s.xfers ∧ (setMc s c x).placedIn = s.placedIn ∧ (setMc s c x).lastServed = s.lastServed ∧
    (setMc s c x).passes = s.passes ∧ (setMc s c x).geoTurn = s.geoTurn ∧ (setMc s c x).hostReads = s.hostReads ∧
    (setMc s c x).model = s.model ∧ (setMc s c x).loading = s.loading ∧ (setMc s c x).monFrame = s.monFrame ∧
    (setMc s c x).failOrder = s.failOrder ∧ (setMc s c x).mbWait = s.mbWait ∧ (setMc s c x).mboxes = s.mboxes ∧
    (setMc s c x).mbOrder = s.mbOrder ∧ (setMc s c x).staging = s.staging ∧ (setMc s c x).caps = s.caps ∧
    (setMc s c x).capStop = s.capStop ∧ (setMc s c x).capFaults = s.capFaults ∧ (setMc s c x).pipes = s.pipes ∧
    (setMc s c x).foxKey = s.foxKey ∧ (setMc s c x).foxCount = s.foxCount ∧
    (setMc s c x).foxChecked = s.foxChecked ∧ (setMc s c x).foxCmd = s.foxCmd ∧ (setMc s c x).power = s.power ∧
    (setMc s c x).hotSwap = s.hotSwap ∧ (setMc s c x).resets = s.resets ∧ (setMc s c x).wide = s.wide ∧
    (setMc s c x).perst = s.perst ∧ (setMc s c x).pcieOut = s.pcieOut ∧ (setMc s c x).peony = s.peony ∧
    (setMc s c x).flash = s.flash ∧ (setMc s c x).wire = s.wire := by
  refine ⟨rfl, rfl, rfl, rfl, rfl, rfl, rfl, rfl, rfl, rfl, rfl, rfl, rfl, rfl, rfl, rfl, rfl, rfl, rfl, rfl, rfl, rfl, rfl, rfl, rfl, rfl, rfl, rfl, rfl, rfl, rfl, rfl, rfl, rfl, rfl, rfl, rfl, rfl, rfl, rfl, rfl, rfl, rfl, rfl, rfl, rfl, rfl, rfl, rfl, rfl, rfl, rfl, rfl, rfl, rfl, rfl, rfl, rfl, rfl, rfl, rfl, rfl, rfl, rfl, rfl, rfl, rfl, rfl, rfl, rfl, rfl, rfl, rfl⟩

@[simp] theorem setEng_frame (s : State) (e : Nat) (x : Engine) :
    (setEng s e x).pending = s.pending ∧ (setEng s e x).now = s.now ∧ (setEng s e x).pll = s.pll ∧
    (setEng s e x).aclkBase = s.aclkBase ∧ (setEng s e x).aclkFrom = s.aclkFrom ∧ (setEng s e x).fresh = s.fresh ∧
    (setEng s e x).regs = s.regs ∧ (setEng s e x).log = s.log ∧ (setEng s e x).lc = s.lc ∧
    (setEng s e x).msix = s.msix ∧ (setEng s e x).msixCtl = s.msixCtl ∧ (setEng s e x).sent = s.sent ∧
    (setEng s e x).rdata = s.rdata ∧ (setEng s e x).rstat = s.rstat ∧ (setEng s e x).pipeActive = s.pipeActive ∧
    (setEng s e x).hbm = s.hbm ∧ (setEng s e x).tile = s.tile ∧ (setEng s e x).host = s.host ∧
    (setEng s e x).semCycles = s.semCycles ∧ (setEng s e x).fslots = s.fslots ∧ (setEng s e x).fclock = s.fclock ∧
    (setEng s e x).fwaiting = s.fwaiting ∧ (setEng s e x).pageIns = s.pageIns ∧ (setEng s e x).fsigs = s.fsigs ∧
    (setEng s e x).transits = s.transits ∧ (setEng s e x).arbs = s.arbs ∧ (setEng s e x).replies = s.replies ∧
    (setEng s e x).arrived = s.arrived ∧ (setEng s e x).mcs = s.mcs ∧ (setEng s e x).routers = s.routers ∧
    (setEng s e x).meshOut = s.meshOut ∧ (setEng s e x).ctxs = s.ctxs ∧ (setEng s e x).queues = s.queues ∧
    (setEng s e x).slots = s.slots ∧ (setEng s e x).reloc = s.reloc ∧ (setEng s e x).jobs = s.jobs ∧
    (setEng s e x).jobKey = s.jobKey ∧ (setEng s e x).copies = s.copies ∧ (setEng s e x).compWaits = s.compWaits ∧
    (setEng s e x).cx = s.cx ∧ (setEng s e x).disps = s.disps ∧ (setEng s e x).pres = s.pres ∧
    (setEng s e x).xfers = s.xfers ∧ (setEng s e x).placedIn = s.placedIn ∧
    (setEng s e x).lastServed = s.lastServed ∧ (setEng s e x).passes = s.passes ∧
    (setEng s e x).geoTurn = s.geoTurn ∧ (setEng s e x).hostReads = s.hostReads ∧ (setEng s e x).model = s.model ∧
    (setEng s e x).loading = s.loading ∧ (setEng s e x).monFrame = s.monFrame ∧
    (setEng s e x).failOrder = s.failOrder ∧ (setEng s e x).mbWait = s.mbWait ∧ (setEng s e x).mboxes = s.mboxes ∧
    (setEng s e x).mbOrder = s.mbOrder ∧ (setEng s e x).staging = s.staging ∧ (setEng s e x).caps = s.caps ∧
    (setEng s e x).capStop = s.capStop ∧ (setEng s e x).capFaults = s.capFaults ∧ (setEng s e x).pipes = s.pipes ∧
    (setEng s e x).foxKey = s.foxKey ∧ (setEng s e x).foxCount = s.foxCount ∧
    (setEng s e x).foxChecked = s.foxChecked ∧ (setEng s e x).foxCmd = s.foxCmd ∧ (setEng s e x).power = s.power ∧
    (setEng s e x).hotSwap = s.hotSwap ∧ (setEng s e x).resets = s.resets ∧ (setEng s e x).wide = s.wide ∧
    (setEng s e x).perst = s.perst ∧ (setEng s e x).pcieOut = s.pcieOut ∧ (setEng s e x).peony = s.peony ∧
    (setEng s e x).flash = s.flash ∧ (setEng s e x).wire = s.wire := by
  refine ⟨rfl, rfl, rfl, rfl, rfl, rfl, rfl, rfl, rfl, rfl, rfl, rfl, rfl, rfl, rfl, rfl, rfl, rfl, rfl, rfl, rfl, rfl, rfl, rfl, rfl, rfl, rfl, rfl, rfl, rfl, rfl, rfl, rfl, rfl, rfl, rfl, rfl, rfl, rfl, rfl, rfl, rfl, rfl, rfl, rfl, rfl, rfl, rfl, rfl, rfl, rfl, rfl, rfl, rfl, rfl, rfl, rfl, rfl, rfl, rfl, rfl, rfl, rfl, rfl, rfl, rfl, rfl, rfl, rfl, rfl, rfl, rfl, rfl⟩

@[simp] theorem setArb_frame (s : State) (a : Nat) (x : ArbSt) :
    (setArb s a x).pending = s.pending ∧ (setArb s a x).now = s.now ∧ (setArb s a x).pll = s.pll ∧
    (setArb s a x).aclkBase = s.aclkBase ∧ (setArb s a x).aclkFrom = s.aclkFrom ∧ (setArb s a x).fresh = s.fresh ∧
    (setArb s a x).regs = s.regs ∧ (setArb s a x).log = s.log ∧ (setArb s a x).lc = s.lc ∧
    (setArb s a x).msix = s.msix ∧ (setArb s a x).msixCtl = s.msixCtl ∧ (setArb s a x).sent = s.sent ∧
    (setArb s a x).rdata = s.rdata ∧ (setArb s a x).rstat = s.rstat ∧ (setArb s a x).pipeActive = s.pipeActive ∧
    (setArb s a x).hbm = s.hbm ∧ (setArb s a x).tile = s.tile ∧ (setArb s a x).host = s.host ∧
    (setArb s a x).engines = s.engines ∧ (setArb s a x).semCycles = s.semCycles ∧
    (setArb s a x).fslots = s.fslots ∧ (setArb s a x).fclock = s.fclock ∧ (setArb s a x).fwaiting = s.fwaiting ∧
    (setArb s a x).pageIns = s.pageIns ∧ (setArb s a x).fsigs = s.fsigs ∧ (setArb s a x).transits = s.transits ∧
    (setArb s a x).replies = s.replies ∧ (setArb s a x).arrived = s.arrived ∧ (setArb s a x).mcs = s.mcs ∧
    (setArb s a x).routers = s.routers ∧ (setArb s a x).meshOut = s.meshOut ∧ (setArb s a x).ctxs = s.ctxs ∧
    (setArb s a x).queues = s.queues ∧ (setArb s a x).slots = s.slots ∧ (setArb s a x).reloc = s.reloc ∧
    (setArb s a x).jobs = s.jobs ∧ (setArb s a x).jobKey = s.jobKey ∧ (setArb s a x).copies = s.copies ∧
    (setArb s a x).compWaits = s.compWaits ∧ (setArb s a x).cx = s.cx ∧ (setArb s a x).disps = s.disps ∧
    (setArb s a x).pres = s.pres ∧ (setArb s a x).xfers = s.xfers ∧ (setArb s a x).placedIn = s.placedIn ∧
    (setArb s a x).lastServed = s.lastServed ∧ (setArb s a x).passes = s.passes ∧
    (setArb s a x).geoTurn = s.geoTurn ∧ (setArb s a x).hostReads = s.hostReads ∧ (setArb s a x).model = s.model ∧
    (setArb s a x).loading = s.loading ∧ (setArb s a x).monFrame = s.monFrame ∧
    (setArb s a x).failOrder = s.failOrder ∧ (setArb s a x).mbWait = s.mbWait ∧ (setArb s a x).mboxes = s.mboxes ∧
    (setArb s a x).mbOrder = s.mbOrder ∧ (setArb s a x).staging = s.staging ∧ (setArb s a x).caps = s.caps ∧
    (setArb s a x).capStop = s.capStop ∧ (setArb s a x).capFaults = s.capFaults ∧ (setArb s a x).pipes = s.pipes ∧
    (setArb s a x).foxKey = s.foxKey ∧ (setArb s a x).foxCount = s.foxCount ∧
    (setArb s a x).foxChecked = s.foxChecked ∧ (setArb s a x).foxCmd = s.foxCmd ∧ (setArb s a x).power = s.power ∧
    (setArb s a x).hotSwap = s.hotSwap ∧ (setArb s a x).resets = s.resets ∧ (setArb s a x).wide = s.wide ∧
    (setArb s a x).perst = s.perst ∧ (setArb s a x).pcieOut = s.pcieOut ∧ (setArb s a x).peony = s.peony ∧
    (setArb s a x).flash = s.flash ∧ (setArb s a x).wire = s.wire := by
  refine ⟨rfl, rfl, rfl, rfl, rfl, rfl, rfl, rfl, rfl, rfl, rfl, rfl, rfl, rfl, rfl, rfl, rfl, rfl, rfl, rfl, rfl, rfl, rfl, rfl, rfl, rfl, rfl, rfl, rfl, rfl, rfl, rfl, rfl, rfl, rfl, rfl, rfl, rfl, rfl, rfl, rfl, rfl, rfl, rfl, rfl, rfl, rfl, rfl, rfl, rfl, rfl, rfl, rfl, rfl, rfl, rfl, rfl, rfl, rfl, rfl, rfl, rfl, rfl, rfl, rfl, rfl, rfl, rfl, rfl, rfl, rfl, rfl, rfl⟩

@[simp] theorem setQue_frame (s : State) (q : Nat) (x : Queue) :
    (setQue s q x).pending = s.pending ∧ (setQue s q x).now = s.now ∧ (setQue s q x).pll = s.pll ∧
    (setQue s q x).aclkBase = s.aclkBase ∧ (setQue s q x).aclkFrom = s.aclkFrom ∧ (setQue s q x).fresh = s.fresh ∧
    (setQue s q x).regs = s.regs ∧ (setQue s q x).log = s.log ∧ (setQue s q x).lc = s.lc ∧
    (setQue s q x).msix = s.msix ∧ (setQue s q x).msixCtl = s.msixCtl ∧ (setQue s q x).sent = s.sent ∧
    (setQue s q x).rdata = s.rdata ∧ (setQue s q x).rstat = s.rstat ∧ (setQue s q x).pipeActive = s.pipeActive ∧
    (setQue s q x).hbm = s.hbm ∧ (setQue s q x).tile = s.tile ∧ (setQue s q x).host = s.host ∧
    (setQue s q x).engines = s.engines ∧ (setQue s q x).semCycles = s.semCycles ∧
    (setQue s q x).fslots = s.fslots ∧ (setQue s q x).fclock = s.fclock ∧ (setQue s q x).fwaiting = s.fwaiting ∧
    (setQue s q x).pageIns = s.pageIns ∧ (setQue s q x).fsigs = s.fsigs ∧ (setQue s q x).transits = s.transits ∧
    (setQue s q x).arbs = s.arbs ∧ (setQue s q x).replies = s.replies ∧ (setQue s q x).arrived = s.arrived ∧
    (setQue s q x).mcs = s.mcs ∧ (setQue s q x).routers = s.routers ∧ (setQue s q x).meshOut = s.meshOut ∧
    (setQue s q x).ctxs = s.ctxs ∧ (setQue s q x).slots = s.slots ∧ (setQue s q x).reloc = s.reloc ∧
    (setQue s q x).jobs = s.jobs ∧ (setQue s q x).jobKey = s.jobKey ∧ (setQue s q x).copies = s.copies ∧
    (setQue s q x).compWaits = s.compWaits ∧ (setQue s q x).cx = s.cx ∧ (setQue s q x).disps = s.disps ∧
    (setQue s q x).pres = s.pres ∧ (setQue s q x).xfers = s.xfers ∧ (setQue s q x).placedIn = s.placedIn ∧
    (setQue s q x).lastServed = s.lastServed ∧ (setQue s q x).passes = s.passes ∧
    (setQue s q x).geoTurn = s.geoTurn ∧ (setQue s q x).hostReads = s.hostReads ∧ (setQue s q x).model = s.model ∧
    (setQue s q x).loading = s.loading ∧ (setQue s q x).monFrame = s.monFrame ∧
    (setQue s q x).failOrder = s.failOrder ∧ (setQue s q x).mbWait = s.mbWait ∧ (setQue s q x).mboxes = s.mboxes ∧
    (setQue s q x).mbOrder = s.mbOrder ∧ (setQue s q x).staging = s.staging ∧ (setQue s q x).caps = s.caps ∧
    (setQue s q x).capStop = s.capStop ∧ (setQue s q x).capFaults = s.capFaults ∧ (setQue s q x).pipes = s.pipes ∧
    (setQue s q x).foxKey = s.foxKey ∧ (setQue s q x).foxCount = s.foxCount ∧
    (setQue s q x).foxChecked = s.foxChecked ∧ (setQue s q x).foxCmd = s.foxCmd ∧ (setQue s q x).power = s.power ∧
    (setQue s q x).hotSwap = s.hotSwap ∧ (setQue s q x).resets = s.resets ∧ (setQue s q x).wide = s.wide ∧
    (setQue s q x).perst = s.perst ∧ (setQue s q x).pcieOut = s.pcieOut ∧ (setQue s q x).peony = s.peony ∧
    (setQue s q x).flash = s.flash ∧ (setQue s q x).wire = s.wire := by
  refine ⟨rfl, rfl, rfl, rfl, rfl, rfl, rfl, rfl, rfl, rfl, rfl, rfl, rfl, rfl, rfl, rfl, rfl, rfl, rfl, rfl, rfl, rfl, rfl, rfl, rfl, rfl, rfl, rfl, rfl, rfl, rfl, rfl, rfl, rfl, rfl, rfl, rfl, rfl, rfl, rfl, rfl, rfl, rfl, rfl, rfl, rfl, rfl, rfl, rfl, rfl, rfl, rfl, rfl, rfl, rfl, rfl, rfl, rfl, rfl, rfl, rfl, rfl, rfl, rfl, rfl, rfl, rfl, rfl, rfl, rfl, rfl, rfl, rfl⟩

@[simp] theorem setSlot_frame (s : State) (n : Nat) (x : SlotSt) :
    (setSlot s n x).pending = s.pending ∧ (setSlot s n x).now = s.now ∧ (setSlot s n x).pll = s.pll ∧
    (setSlot s n x).aclkBase = s.aclkBase ∧ (setSlot s n x).aclkFrom = s.aclkFrom ∧
    (setSlot s n x).fresh = s.fresh ∧ (setSlot s n x).regs = s.regs ∧ (setSlot s n x).log = s.log ∧
    (setSlot s n x).lc = s.lc ∧ (setSlot s n x).msix = s.msix ∧ (setSlot s n x).msixCtl = s.msixCtl ∧
    (setSlot s n x).sent = s.sent ∧ (setSlot s n x).rdata = s.rdata ∧ (setSlot s n x).rstat = s.rstat ∧
    (setSlot s n x).pipeActive = s.pipeActive ∧ (setSlot s n x).hbm = s.hbm ∧ (setSlot s n x).tile = s.tile ∧
    (setSlot s n x).host = s.host ∧ (setSlot s n x).engines = s.engines ∧ (setSlot s n x).semCycles = s.semCycles ∧
    (setSlot s n x).fslots = s.fslots ∧ (setSlot s n x).fclock = s.fclock ∧ (setSlot s n x).fwaiting = s.fwaiting ∧
    (setSlot s n x).pageIns = s.pageIns ∧ (setSlot s n x).fsigs = s.fsigs ∧ (setSlot s n x).transits = s.transits ∧
    (setSlot s n x).arbs = s.arbs ∧ (setSlot s n x).replies = s.replies ∧ (setSlot s n x).arrived = s.arrived ∧
    (setSlot s n x).mcs = s.mcs ∧ (setSlot s n x).routers = s.routers ∧ (setSlot s n x).meshOut = s.meshOut ∧
    (setSlot s n x).ctxs = s.ctxs ∧ (setSlot s n x).queues = s.queues ∧ (setSlot s n x).reloc = s.reloc ∧
    (setSlot s n x).jobs = s.jobs ∧ (setSlot s n x).jobKey = s.jobKey ∧ (setSlot s n x).copies = s.copies ∧
    (setSlot s n x).compWaits = s.compWaits ∧ (setSlot s n x).cx = s.cx ∧ (setSlot s n x).disps = s.disps ∧
    (setSlot s n x).pres = s.pres ∧ (setSlot s n x).xfers = s.xfers ∧ (setSlot s n x).placedIn = s.placedIn ∧
    (setSlot s n x).lastServed = s.lastServed ∧ (setSlot s n x).passes = s.passes ∧
    (setSlot s n x).geoTurn = s.geoTurn ∧ (setSlot s n x).hostReads = s.hostReads ∧
    (setSlot s n x).model = s.model ∧ (setSlot s n x).loading = s.loading ∧ (setSlot s n x).monFrame = s.monFrame ∧
    (setSlot s n x).failOrder = s.failOrder ∧ (setSlot s n x).mbWait = s.mbWait ∧
    (setSlot s n x).mboxes = s.mboxes ∧ (setSlot s n x).mbOrder = s.mbOrder ∧ (setSlot s n x).staging = s.staging ∧
    (setSlot s n x).caps = s.caps ∧ (setSlot s n x).capStop = s.capStop ∧ (setSlot s n x).capFaults = s.capFaults ∧
    (setSlot s n x).pipes = s.pipes ∧ (setSlot s n x).foxKey = s.foxKey ∧ (setSlot s n x).foxCount = s.foxCount ∧
    (setSlot s n x).foxChecked = s.foxChecked ∧ (setSlot s n x).foxCmd = s.foxCmd ∧
    (setSlot s n x).power = s.power ∧ (setSlot s n x).hotSwap = s.hotSwap ∧ (setSlot s n x).resets = s.resets ∧
    (setSlot s n x).wide = s.wide ∧ (setSlot s n x).perst = s.perst ∧ (setSlot s n x).pcieOut = s.pcieOut ∧
    (setSlot s n x).peony = s.peony ∧ (setSlot s n x).flash = s.flash ∧ (setSlot s n x).wire = s.wire := by
  refine ⟨rfl, rfl, rfl, rfl, rfl, rfl, rfl, rfl, rfl, rfl, rfl, rfl, rfl, rfl, rfl, rfl, rfl, rfl, rfl, rfl, rfl, rfl, rfl, rfl, rfl, rfl, rfl, rfl, rfl, rfl, rfl, rfl, rfl, rfl, rfl, rfl, rfl, rfl, rfl, rfl, rfl, rfl, rfl, rfl, rfl, rfl, rfl, rfl, rfl, rfl, rfl, rfl, rfl, rfl, rfl, rfl, rfl, rfl, rfl, rfl, rfl, rfl, rfl, rfl, rfl, rfl, rfl, rfl, rfl, rfl, rfl, rfl, rfl⟩

@[simp] theorem setCtx_frame (s : State) (i : Nat) (x : Ctx) :
    (setCtx s i x).pending = s.pending ∧ (setCtx s i x).now = s.now ∧ (setCtx s i x).pll = s.pll ∧
    (setCtx s i x).aclkBase = s.aclkBase ∧ (setCtx s i x).aclkFrom = s.aclkFrom ∧ (setCtx s i x).fresh = s.fresh ∧
    (setCtx s i x).regs = s.regs ∧ (setCtx s i x).log = s.log ∧ (setCtx s i x).lc = s.lc ∧
    (setCtx s i x).msix = s.msix ∧ (setCtx s i x).msixCtl = s.msixCtl ∧ (setCtx s i x).sent = s.sent ∧
    (setCtx s i x).rdata = s.rdata ∧ (setCtx s i x).rstat = s.rstat ∧ (setCtx s i x).pipeActive = s.pipeActive ∧
    (setCtx s i x).hbm = s.hbm ∧ (setCtx s i x).tile = s.tile ∧ (setCtx s i x).host = s.host ∧
    (setCtx s i x).engines = s.engines ∧ (setCtx s i x).semCycles = s.semCycles ∧
    (setCtx s i x).fslots = s.fslots ∧ (setCtx s i x).fclock = s.fclock ∧ (setCtx s i x).fwaiting = s.fwaiting ∧
    (setCtx s i x).pageIns = s.pageIns ∧ (setCtx s i x).fsigs = s.fsigs ∧ (setCtx s i x).transits = s.transits ∧
    (setCtx s i x).arbs = s.arbs ∧ (setCtx s i x).replies = s.replies ∧ (setCtx s i x).arrived = s.arrived ∧
    (setCtx s i x).mcs = s.mcs ∧ (setCtx s i x).routers = s.routers ∧ (setCtx s i x).meshOut = s.meshOut ∧
    (setCtx s i x).queues = s.queues ∧ (setCtx s i x).slots = s.slots ∧ (setCtx s i x).reloc = s.reloc ∧
    (setCtx s i x).jobs = s.jobs ∧ (setCtx s i x).jobKey = s.jobKey ∧ (setCtx s i x).copies = s.copies ∧
    (setCtx s i x).compWaits = s.compWaits ∧ (setCtx s i x).cx = s.cx ∧ (setCtx s i x).disps = s.disps ∧
    (setCtx s i x).pres = s.pres ∧ (setCtx s i x).xfers = s.xfers ∧ (setCtx s i x).placedIn = s.placedIn ∧
    (setCtx s i x).lastServed = s.lastServed ∧ (setCtx s i x).passes = s.passes ∧
    (setCtx s i x).geoTurn = s.geoTurn ∧ (setCtx s i x).hostReads = s.hostReads ∧ (setCtx s i x).model = s.model ∧
    (setCtx s i x).loading = s.loading ∧ (setCtx s i x).monFrame = s.monFrame ∧
    (setCtx s i x).failOrder = s.failOrder ∧ (setCtx s i x).mbWait = s.mbWait ∧ (setCtx s i x).mboxes = s.mboxes ∧
    (setCtx s i x).mbOrder = s.mbOrder ∧ (setCtx s i x).staging = s.staging ∧ (setCtx s i x).caps = s.caps ∧
    (setCtx s i x).capStop = s.capStop ∧ (setCtx s i x).capFaults = s.capFaults ∧ (setCtx s i x).pipes = s.pipes ∧
    (setCtx s i x).foxKey = s.foxKey ∧ (setCtx s i x).foxCount = s.foxCount ∧
    (setCtx s i x).foxChecked = s.foxChecked ∧ (setCtx s i x).foxCmd = s.foxCmd ∧ (setCtx s i x).power = s.power ∧
    (setCtx s i x).hotSwap = s.hotSwap ∧ (setCtx s i x).resets = s.resets ∧ (setCtx s i x).wide = s.wide ∧
    (setCtx s i x).perst = s.perst ∧ (setCtx s i x).pcieOut = s.pcieOut ∧ (setCtx s i x).peony = s.peony ∧
    (setCtx s i x).flash = s.flash ∧ (setCtx s i x).wire = s.wire := by
  refine ⟨rfl, rfl, rfl, rfl, rfl, rfl, rfl, rfl, rfl, rfl, rfl, rfl, rfl, rfl, rfl, rfl, rfl, rfl, rfl, rfl, rfl, rfl, rfl, rfl, rfl, rfl, rfl, rfl, rfl, rfl, rfl, rfl, rfl, rfl, rfl, rfl, rfl, rfl, rfl, rfl, rfl, rfl, rfl, rfl, rfl, rfl, rfl, rfl, rfl, rfl, rfl, rfl, rfl, rfl, rfl, rfl, rfl, rfl, rfl, rfl, rfl, rfl, rfl, rfl, rfl, rfl, rfl, rfl, rfl, rfl, rfl, rfl, rfl⟩

@[simp] theorem updJob_frame (s : State) (key : Nat) (f : Job → Job) :
    (updJob s key f).pending = s.pending ∧ (updJob s key f).now = s.now ∧ (updJob s key f).pll = s.pll ∧
    (updJob s key f).aclkBase = s.aclkBase ∧ (updJob s key f).aclkFrom = s.aclkFrom ∧
    (updJob s key f).fresh = s.fresh ∧ (updJob s key f).regs = s.regs ∧ (updJob s key f).log = s.log ∧
    (updJob s key f).lc = s.lc ∧ (updJob s key f).msix = s.msix ∧ (updJob s key f).msixCtl = s.msixCtl ∧
    (updJob s key f).sent = s.sent ∧ (updJob s key f).rdata = s.rdata ∧ (updJob s key f).rstat = s.rstat ∧
    (updJob s key f).pipeActive = s.pipeActive ∧ (updJob s key f).hbm = s.hbm ∧ (updJob s key f).tile = s.tile ∧
    (updJob s key f).host = s.host ∧ (updJob s key f).engines = s.engines ∧
    (updJob s key f).semCycles = s.semCycles ∧ (updJob s key f).fslots = s.fslots ∧
    (updJob s key f).fclock = s.fclock ∧ (updJob s key f).fwaiting = s.fwaiting ∧
    (updJob s key f).pageIns = s.pageIns ∧ (updJob s key f).fsigs = s.fsigs ∧
    (updJob s key f).transits = s.transits ∧ (updJob s key f).arbs = s.arbs ∧
    (updJob s key f).replies = s.replies ∧ (updJob s key f).arrived = s.arrived ∧ (updJob s key f).mcs = s.mcs ∧
    (updJob s key f).routers = s.routers ∧ (updJob s key f).meshOut = s.meshOut ∧ (updJob s key f).ctxs = s.ctxs ∧
    (updJob s key f).queues = s.queues ∧ (updJob s key f).slots = s.slots ∧ (updJob s key f).reloc = s.reloc ∧
    (updJob s key f).jobKey = s.jobKey ∧ (updJob s key f).copies = s.copies ∧
    (updJob s key f).compWaits = s.compWaits ∧ (updJob s key f).cx = s.cx ∧ (updJob s key f).disps = s.disps ∧
    (updJob s key f).pres = s.pres ∧ (updJob s key f).xfers = s.xfers ∧ (updJob s key f).placedIn = s.placedIn ∧
    (updJob s key f).lastServed = s.lastServed ∧ (updJob s key f).passes = s.passes ∧
    (updJob s key f).geoTurn = s.geoTurn ∧ (updJob s key f).hostReads = s.hostReads ∧
    (updJob s key f).model = s.model ∧ (updJob s key f).loading = s.loading ∧
    (updJob s key f).monFrame = s.monFrame ∧ (updJob s key f).failOrder = s.failOrder ∧
    (updJob s key f).mbWait = s.mbWait ∧ (updJob s key f).mboxes = s.mboxes ∧
    (updJob s key f).mbOrder = s.mbOrder ∧ (updJob s key f).staging = s.staging ∧ (updJob s key f).caps = s.caps ∧
    (updJob s key f).capStop = s.capStop ∧ (updJob s key f).capFaults = s.capFaults ∧
    (updJob s key f).pipes = s.pipes ∧ (updJob s key f).foxKey = s.foxKey ∧
    (updJob s key f).foxCount = s.foxCount ∧ (updJob s key f).foxChecked = s.foxChecked ∧
    (updJob s key f).foxCmd = s.foxCmd ∧ (updJob s key f).power = s.power ∧ (updJob s key f).hotSwap = s.hotSwap ∧
    (updJob s key f).resets = s.resets ∧ (updJob s key f).wide = s.wide ∧ (updJob s key f).perst = s.perst ∧
    (updJob s key f).pcieOut = s.pcieOut ∧ (updJob s key f).peony = s.peony ∧ (updJob s key f).flash = s.flash ∧
    (updJob s key f).wire = s.wire := by
  refine ⟨rfl, rfl, rfl, rfl, rfl, rfl, rfl, rfl, rfl, rfl, rfl, rfl, rfl, rfl, rfl, rfl, rfl, rfl, rfl, rfl, rfl, rfl, rfl, rfl, rfl, rfl, rfl, rfl, rfl, rfl, rfl, rfl, rfl, rfl, rfl, rfl, rfl, rfl, rfl, rfl, rfl, rfl, rfl, rfl, rfl, rfl, rfl, rfl, rfl, rfl, rfl, rfl, rfl, rfl, rfl, rfl, rfl, rfl, rfl, rfl, rfl, rfl, rfl, rfl, rfl, rfl, rfl, rfl, rfl, rfl, rfl, rfl, rfl⟩

@[simp] theorem relocFlush_frame (s : State) (c : Nat) :
    (relocFlush s c).pending = s.pending ∧ (relocFlush s c).now = s.now ∧ (relocFlush s c).pll = s.pll ∧
    (relocFlush s c).aclkBase = s.aclkBase ∧ (relocFlush s c).aclkFrom = s.aclkFrom ∧
    (relocFlush s c).fresh = s.fresh ∧ (relocFlush s c).regs = s.regs ∧ (relocFlush s c).log = s.log ∧
    (relocFlush s c).lc = s.lc ∧ (relocFlush s c).msix = s.msix ∧ (relocFlush s c).msixCtl = s.msixCtl ∧
    (relocFlush s c).sent = s.sent ∧ (relocFlush s c).rdata = s.rdata ∧ (relocFlush s c).rstat = s.rstat ∧
    (relocFlush s c).pipeActive = s.pipeActive ∧ (relocFlush s c).hbm = s.hbm ∧ (relocFlush s c).tile = s.tile ∧
    (relocFlush s c).host = s.host ∧ (relocFlush s c).engines = s.engines ∧
    (relocFlush s c).semCycles = s.semCycles ∧ (relocFlush s c).fslots = s.fslots ∧
    (relocFlush s c).fclock = s.fclock ∧ (relocFlush s c).fwaiting = s.fwaiting ∧
    (relocFlush s c).pageIns = s.pageIns ∧ (relocFlush s c).fsigs = s.fsigs ∧
    (relocFlush s c).transits = s.transits ∧ (relocFlush s c).arbs = s.arbs ∧
    (relocFlush s c).replies = s.replies ∧ (relocFlush s c).arrived = s.arrived ∧ (relocFlush s c).mcs = s.mcs ∧
    (relocFlush s c).routers = s.routers ∧ (relocFlush s c).meshOut = s.meshOut ∧ (relocFlush s c).ctxs = s.ctxs ∧
    (relocFlush s c).queues = s.queues ∧ (relocFlush s c).slots = s.slots ∧ (relocFlush s c).jobs = s.jobs ∧
    (relocFlush s c).jobKey = s.jobKey ∧ (relocFlush s c).copies = s.copies ∧
    (relocFlush s c).compWaits = s.compWaits ∧ (relocFlush s c).cx = s.cx ∧ (relocFlush s c).disps = s.disps ∧
    (relocFlush s c).pres = s.pres ∧ (relocFlush s c).xfers = s.xfers ∧ (relocFlush s c).placedIn = s.placedIn ∧
    (relocFlush s c).lastServed = s.lastServed ∧ (relocFlush s c).passes = s.passes ∧
    (relocFlush s c).geoTurn = s.geoTurn ∧ (relocFlush s c).hostReads = s.hostReads ∧
    (relocFlush s c).model = s.model ∧ (relocFlush s c).loading = s.loading ∧
    (relocFlush s c).monFrame = s.monFrame ∧ (relocFlush s c).failOrder = s.failOrder ∧
    (relocFlush s c).mbWait = s.mbWait ∧ (relocFlush s c).mboxes = s.mboxes ∧
    (relocFlush s c).mbOrder = s.mbOrder ∧ (relocFlush s c).staging = s.staging ∧ (relocFlush s c).caps = s.caps ∧
    (relocFlush s c).capStop = s.capStop ∧ (relocFlush s c).capFaults = s.capFaults ∧
    (relocFlush s c).pipes = s.pipes ∧ (relocFlush s c).foxKey = s.foxKey ∧
    (relocFlush s c).foxCount = s.foxCount ∧ (relocFlush s c).foxChecked = s.foxChecked ∧
    (relocFlush s c).foxCmd = s.foxCmd ∧ (relocFlush s c).power = s.power ∧ (relocFlush s c).hotSwap = s.hotSwap ∧
    (relocFlush s c).resets = s.resets ∧ (relocFlush s c).wide = s.wide ∧ (relocFlush s c).perst = s.perst ∧
    (relocFlush s c).pcieOut = s.pcieOut ∧ (relocFlush s c).peony = s.peony ∧ (relocFlush s c).flash = s.flash ∧
    (relocFlush s c).wire = s.wire := by
  refine ⟨rfl, rfl, rfl, rfl, rfl, rfl, rfl, rfl, rfl, rfl, rfl, rfl, rfl, rfl, rfl, rfl, rfl, rfl, rfl, rfl, rfl, rfl, rfl, rfl, rfl, rfl, rfl, rfl, rfl, rfl, rfl, rfl, rfl, rfl, rfl, rfl, rfl, rfl, rfl, rfl, rfl, rfl, rfl, rfl, rfl, rfl, rfl, rfl, rfl, rfl, rfl, rfl, rfl, rfl, rfl, rfl, rfl, rfl, rfl, rfl, rfl, rfl, rfl, rfl, rfl, rfl, rfl, rfl, rfl, rfl, rfl, rfl, rfl⟩

@[simp] theorem setFslot_frame (s : State) (n : Nat) (x : FSlot) :
    (setFslot s n x).pending = s.pending ∧ (setFslot s n x).now = s.now ∧ (setFslot s n x).pll = s.pll ∧
    (setFslot s n x).aclkBase = s.aclkBase ∧ (setFslot s n x).aclkFrom = s.aclkFrom ∧
    (setFslot s n x).fresh = s.fresh ∧ (setFslot s n x).regs = s.regs ∧ (setFslot s n x).log = s.log ∧
    (setFslot s n x).lc = s.lc ∧ (setFslot s n x).msix = s.msix ∧ (setFslot s n x).msixCtl = s.msixCtl ∧
    (setFslot s n x).sent = s.sent ∧ (setFslot s n x).rdata = s.rdata ∧ (setFslot s n x).rstat = s.rstat ∧
    (setFslot s n x).pipeActive = s.pipeActive ∧ (setFslot s n x).hbm = s.hbm ∧ (setFslot s n x).tile = s.tile ∧
    (setFslot s n x).host = s.host ∧ (setFslot s n x).engines = s.engines ∧
    (setFslot s n x).semCycles = s.semCycles ∧ (setFslot s n x).fclock = s.fclock ∧
    (setFslot s n x).fwaiting = s.fwaiting ∧ (setFslot s n x).pageIns = s.pageIns ∧
    (setFslot s n x).fsigs = s.fsigs ∧ (setFslot s n x).transits = s.transits ∧ (setFslot s n x).arbs = s.arbs ∧
    (setFslot s n x).replies = s.replies ∧ (setFslot s n x).arrived = s.arrived ∧ (setFslot s n x).mcs = s.mcs ∧
    (setFslot s n x).routers = s.routers ∧ (setFslot s n x).meshOut = s.meshOut ∧ (setFslot s n x).ctxs = s.ctxs ∧
    (setFslot s n x).queues = s.queues ∧ (setFslot s n x).slots = s.slots ∧ (setFslot s n x).reloc = s.reloc ∧
    (setFslot s n x).jobs = s.jobs ∧ (setFslot s n x).jobKey = s.jobKey ∧ (setFslot s n x).copies = s.copies ∧
    (setFslot s n x).compWaits = s.compWaits ∧ (setFslot s n x).cx = s.cx ∧ (setFslot s n x).disps = s.disps ∧
    (setFslot s n x).pres = s.pres ∧ (setFslot s n x).xfers = s.xfers ∧ (setFslot s n x).placedIn = s.placedIn ∧
    (setFslot s n x).lastServed = s.lastServed ∧ (setFslot s n x).passes = s.passes ∧
    (setFslot s n x).geoTurn = s.geoTurn ∧ (setFslot s n x).hostReads = s.hostReads ∧
    (setFslot s n x).model = s.model ∧ (setFslot s n x).loading = s.loading ∧
    (setFslot s n x).monFrame = s.monFrame ∧ (setFslot s n x).failOrder = s.failOrder ∧
    (setFslot s n x).mbWait = s.mbWait ∧ (setFslot s n x).mboxes = s.mboxes ∧
    (setFslot s n x).mbOrder = s.mbOrder ∧ (setFslot s n x).staging = s.staging ∧ (setFslot s n x).caps = s.caps ∧
    (setFslot s n x).capStop = s.capStop ∧ (setFslot s n x).capFaults = s.capFaults ∧
    (setFslot s n x).pipes = s.pipes ∧ (setFslot s n x).foxKey = s.foxKey ∧
    (setFslot s n x).foxCount = s.foxCount ∧ (setFslot s n x).foxChecked = s.foxChecked ∧
    (setFslot s n x).foxCmd = s.foxCmd ∧ (setFslot s n x).power = s.power ∧ (setFslot s n x).hotSwap = s.hotSwap ∧
    (setFslot s n x).resets = s.resets ∧ (setFslot s n x).wide = s.wide ∧ (setFslot s n x).perst = s.perst ∧
    (setFslot s n x).pcieOut = s.pcieOut ∧ (setFslot s n x).peony = s.peony ∧ (setFslot s n x).flash = s.flash ∧
    (setFslot s n x).wire = s.wire := by
  refine ⟨rfl, rfl, rfl, rfl, rfl, rfl, rfl, rfl, rfl, rfl, rfl, rfl, rfl, rfl, rfl, rfl, rfl, rfl, rfl, rfl, rfl, rfl, rfl, rfl, rfl, rfl, rfl, rfl, rfl, rfl, rfl, rfl, rfl, rfl, rfl, rfl, rfl, rfl, rfl, rfl, rfl, rfl, rfl, rfl, rfl, rfl, rfl, rfl, rfl, rfl, rfl, rfl, rfl, rfl, rfl, rfl, rfl, rfl, rfl, rfl, rfl, rfl, rfl, rfl, rfl, rfl, rfl, rfl, rfl, rfl, rfl, rfl, rfl⟩

@[simp] theorem resumeTableWaits_frame (s : State) :
    (resumeTableWaits s).pending = s.pending ∧ (resumeTableWaits s).now = s.now ∧
    (resumeTableWaits s).pll = s.pll ∧ (resumeTableWaits s).aclkBase = s.aclkBase ∧
    (resumeTableWaits s).aclkFrom = s.aclkFrom ∧ (resumeTableWaits s).fresh = s.fresh ∧
    (resumeTableWaits s).regs = s.regs ∧ (resumeTableWaits s).log = s.log ∧ (resumeTableWaits s).lc = s.lc ∧
    (resumeTableWaits s).msix = s.msix ∧ (resumeTableWaits s).msixCtl = s.msixCtl ∧
    (resumeTableWaits s).sent = s.sent ∧ (resumeTableWaits s).rdata = s.rdata ∧
    (resumeTableWaits s).rstat = s.rstat ∧ (resumeTableWaits s).pipeActive = s.pipeActive ∧
    (resumeTableWaits s).hbm = s.hbm ∧ (resumeTableWaits s).tile = s.tile ∧ (resumeTableWaits s).host = s.host ∧
    (resumeTableWaits s).engines = s.engines ∧ (resumeTableWaits s).semCycles = s.semCycles ∧
    (resumeTableWaits s).fslots = s.fslots ∧ (resumeTableWaits s).fclock = s.fclock ∧
    (resumeTableWaits s).fwaiting = s.fwaiting ∧ (resumeTableWaits s).pageIns = s.pageIns ∧
    (resumeTableWaits s).fsigs = s.fsigs ∧ (resumeTableWaits s).transits = s.transits ∧
    (resumeTableWaits s).arbs = s.arbs ∧ (resumeTableWaits s).replies = s.replies ∧
    (resumeTableWaits s).arrived = s.arrived ∧ (resumeTableWaits s).mcs = s.mcs ∧
    (resumeTableWaits s).routers = s.routers ∧ (resumeTableWaits s).meshOut = s.meshOut ∧
    (resumeTableWaits s).ctxs = s.ctxs ∧ (resumeTableWaits s).queues = s.queues ∧
    (resumeTableWaits s).reloc = s.reloc ∧ (resumeTableWaits s).jobs = s.jobs ∧
    (resumeTableWaits s).jobKey = s.jobKey ∧ (resumeTableWaits s).copies = s.copies ∧
    (resumeTableWaits s).compWaits = s.compWaits ∧ (resumeTableWaits s).cx = s.cx ∧
    (resumeTableWaits s).disps = s.disps ∧ (resumeTableWaits s).pres = s.pres ∧
    (resumeTableWaits s).xfers = s.xfers ∧ (resumeTableWaits s).placedIn = s.placedIn ∧
    (resumeTableWaits s).lastServed = s.lastServed ∧ (resumeTableWaits s).passes = s.passes ∧
    (resumeTableWaits s).geoTurn = s.geoTurn ∧ (resumeTableWaits s).hostReads = s.hostReads ∧
    (resumeTableWaits s).model = s.model ∧ (resumeTableWaits s).loading = s.loading ∧
    (resumeTableWaits s).monFrame = s.monFrame ∧ (resumeTableWaits s).failOrder = s.failOrder ∧
    (resumeTableWaits s).mbWait = s.mbWait ∧ (resumeTableWaits s).mboxes = s.mboxes ∧
    (resumeTableWaits s).mbOrder = s.mbOrder ∧ (resumeTableWaits s).staging = s.staging ∧
    (resumeTableWaits s).caps = s.caps ∧ (resumeTableWaits s).capStop = s.capStop ∧
    (resumeTableWaits s).capFaults = s.capFaults ∧ (resumeTableWaits s).pipes = s.pipes ∧
    (resumeTableWaits s).foxKey = s.foxKey ∧ (resumeTableWaits s).foxCount = s.foxCount ∧
    (resumeTableWaits s).foxChecked = s.foxChecked ∧ (resumeTableWaits s).foxCmd = s.foxCmd ∧
    (resumeTableWaits s).power = s.power ∧ (resumeTableWaits s).hotSwap = s.hotSwap ∧
    (resumeTableWaits s).resets = s.resets ∧ (resumeTableWaits s).wide = s.wide ∧
    (resumeTableWaits s).perst = s.perst ∧ (resumeTableWaits s).pcieOut = s.pcieOut ∧
    (resumeTableWaits s).peony = s.peony ∧ (resumeTableWaits s).flash = s.flash ∧
    (resumeTableWaits s).wire = s.wire := by
  refine ⟨rfl, rfl, rfl, rfl, rfl, rfl, rfl, rfl, rfl, rfl, rfl, rfl, rfl, rfl, rfl, rfl, rfl, rfl, rfl, rfl, rfl, rfl, rfl, rfl, rfl, rfl, rfl, rfl, rfl, rfl, rfl, rfl, rfl, rfl, rfl, rfl, rfl, rfl, rfl, rfl, rfl, rfl, rfl, rfl, rfl, rfl, rfl, rfl, rfl, rfl, rfl, rfl, rfl, rfl, rfl, rfl, rfl, rfl, rfl, rfl, rfl, rfl, rfl, rfl, rfl, rfl, rfl, rfl, rfl, rfl, rfl, rfl, rfl⟩

@[simp] theorem updPass_frame (s : State) (p : Nat) (f : Pass → Pass) :
    (updPass s p f).pending = s.pending ∧ (updPass s p f).now = s.now ∧ (updPass s p f).pll = s.pll ∧
    (updPass s p f).aclkBase = s.aclkBase ∧ (updPass s p f).aclkFrom = s.aclkFrom ∧
    (updPass s p f).fresh = s.fresh ∧ (updPass s p f).regs = s.regs ∧ (updPass s p f).log = s.log ∧
    (updPass s p f).lc = s.lc ∧ (updPass s p f).msix = s.msix ∧ (updPass s p f).msixCtl = s.msixCtl ∧
    (updPass s p f).sent = s.sent ∧ (updPass s p f).rdata = s.rdata ∧ (updPass s p f).rstat = s.rstat ∧
    (updPass s p f).pipeActive = s.pipeActive ∧ (updPass s p f).hbm = s.hbm ∧ (updPass s p f).tile = s.tile ∧
    (updPass s p f).host = s.host ∧ (updPass s p f).engines = s.engines ∧ (updPass s p f).semCycles = s.semCycles ∧
    (updPass s p f).fslots = s.fslots ∧ (updPass s p f).fclock = s.fclock ∧ (updPass s p f).fwaiting = s.fwaiting ∧
    (updPass s p f).pageIns = s.pageIns ∧ (updPass s p f).fsigs = s.fsigs ∧ (updPass s p f).transits = s.transits ∧
    (updPass s p f).arbs = s.arbs ∧ (updPass s p f).replies = s.replies ∧ (updPass s p f).arrived = s.arrived ∧
    (updPass s p f).mcs = s.mcs ∧ (updPass s p f).routers = s.routers ∧ (updPass s p f).meshOut = s.meshOut ∧
    (updPass s p f).ctxs = s.ctxs ∧ (updPass s p f).queues = s.queues ∧ (updPass s p f).slots = s.slots ∧
    (updPass s p f).reloc = s.reloc ∧ (updPass s p f).jobs = s.jobs ∧ (updPass s p f).jobKey = s.jobKey ∧
    (updPass s p f).copies = s.copies ∧ (updPass s p f).compWaits = s.compWaits ∧ (updPass s p f).cx = s.cx ∧
    (updPass s p f).disps = s.disps ∧ (updPass s p f).pres = s.pres ∧ (updPass s p f).xfers = s.xfers ∧
    (updPass s p f).placedIn = s.placedIn ∧ (updPass s p f).lastServed = s.lastServed ∧
    (updPass s p f).geoTurn = s.geoTurn ∧ (updPass s p f).hostReads = s.hostReads ∧
    (updPass s p f).model = s.model ∧ (updPass s p f).loading = s.loading ∧ (updPass s p f).monFrame = s.monFrame ∧
    (updPass s p f).failOrder = s.failOrder ∧ (updPass s p f).mbWait = s.mbWait ∧
    (updPass s p f).mboxes = s.mboxes ∧ (updPass s p f).mbOrder = s.mbOrder ∧ (updPass s p f).staging = s.staging ∧
    (updPass s p f).caps = s.caps ∧ (updPass s p f).capStop = s.capStop ∧ (updPass s p f).capFaults = s.capFaults ∧
    (updPass s p f).pipes = s.pipes ∧ (updPass s p f).foxKey = s.foxKey ∧ (updPass s p f).foxCount = s.foxCount ∧
    (updPass s p f).foxChecked = s.foxChecked ∧ (updPass s p f).foxCmd = s.foxCmd ∧
    (updPass s p f).power = s.power ∧ (updPass s p f).hotSwap = s.hotSwap ∧ (updPass s p f).resets = s.resets ∧
    (updPass s p f).wide = s.wide ∧ (updPass s p f).perst = s.perst ∧ (updPass s p f).pcieOut = s.pcieOut ∧
    (updPass s p f).peony = s.peony ∧ (updPass s p f).flash = s.flash ∧ (updPass s p f).wire = s.wire := by
  refine ⟨rfl, rfl, rfl, rfl, rfl, rfl, rfl, rfl, rfl, rfl, rfl, rfl, rfl, rfl, rfl, rfl, rfl, rfl, rfl, rfl, rfl, rfl, rfl, rfl, rfl, rfl, rfl, rfl, rfl, rfl, rfl, rfl, rfl, rfl, rfl, rfl, rfl, rfl, rfl, rfl, rfl, rfl, rfl, rfl, rfl, rfl, rfl, rfl, rfl, rfl, rfl, rfl, rfl, rfl, rfl, rfl, rfl, rfl, rfl, rfl, rfl, rfl, rfl, rfl, rfl, rfl, rfl, rfl, rfl, rfl, rfl, rfl, rfl⟩

@[simp] theorem updModel_frame (s : State) (f : Model → Model) :
    (updModel s f).pending = s.pending ∧ (updModel s f).now = s.now ∧ (updModel s f).pll = s.pll ∧
    (updModel s f).aclkBase = s.aclkBase ∧ (updModel s f).aclkFrom = s.aclkFrom ∧ (updModel s f).fresh = s.fresh ∧
    (updModel s f).regs = s.regs ∧ (updModel s f).log = s.log ∧ (updModel s f).lc = s.lc ∧
    (updModel s f).msix = s.msix ∧ (updModel s f).msixCtl = s.msixCtl ∧ (updModel s f).sent = s.sent ∧
    (updModel s f).rdata = s.rdata ∧ (updModel s f).rstat = s.rstat ∧ (updModel s f).pipeActive = s.pipeActive ∧
    (updModel s f).hbm = s.hbm ∧ (updModel s f).tile = s.tile ∧ (updModel s f).host = s.host ∧
    (updModel s f).engines = s.engines ∧ (updModel s f).semCycles = s.semCycles ∧
    (updModel s f).fslots = s.fslots ∧ (updModel s f).fclock = s.fclock ∧ (updModel s f).fwaiting = s.fwaiting ∧
    (updModel s f).pageIns = s.pageIns ∧ (updModel s f).fsigs = s.fsigs ∧ (updModel s f).transits = s.transits ∧
    (updModel s f).arbs = s.arbs ∧ (updModel s f).replies = s.replies ∧ (updModel s f).arrived = s.arrived ∧
    (updModel s f).mcs = s.mcs ∧ (updModel s f).routers = s.routers ∧ (updModel s f).meshOut = s.meshOut ∧
    (updModel s f).ctxs = s.ctxs ∧ (updModel s f).queues = s.queues ∧ (updModel s f).slots = s.slots ∧
    (updModel s f).reloc = s.reloc ∧ (updModel s f).jobs = s.jobs ∧ (updModel s f).jobKey = s.jobKey ∧
    (updModel s f).copies = s.copies ∧ (updModel s f).compWaits = s.compWaits ∧ (updModel s f).cx = s.cx ∧
    (updModel s f).disps = s.disps ∧ (updModel s f).pres = s.pres ∧ (updModel s f).xfers = s.xfers ∧
    (updModel s f).placedIn = s.placedIn ∧ (updModel s f).lastServed = s.lastServed ∧
    (updModel s f).passes = s.passes ∧ (updModel s f).geoTurn = s.geoTurn ∧
    (updModel s f).hostReads = s.hostReads ∧ (updModel s f).loading = s.loading ∧
    (updModel s f).monFrame = s.monFrame ∧ (updModel s f).failOrder = s.failOrder ∧
    (updModel s f).mbWait = s.mbWait ∧ (updModel s f).mboxes = s.mboxes ∧ (updModel s f).mbOrder = s.mbOrder ∧
    (updModel s f).staging = s.staging ∧ (updModel s f).caps = s.caps ∧ (updModel s f).capStop = s.capStop ∧
    (updModel s f).capFaults = s.capFaults ∧ (updModel s f).pipes = s.pipes ∧ (updModel s f).foxKey = s.foxKey ∧
    (updModel s f).foxCount = s.foxCount ∧ (updModel s f).foxChecked = s.foxChecked ∧
    (updModel s f).foxCmd = s.foxCmd ∧ (updModel s f).power = s.power ∧ (updModel s f).hotSwap = s.hotSwap ∧
    (updModel s f).resets = s.resets ∧ (updModel s f).wide = s.wide ∧ (updModel s f).perst = s.perst ∧
    (updModel s f).pcieOut = s.pcieOut ∧ (updModel s f).peony = s.peony ∧ (updModel s f).flash = s.flash ∧
    (updModel s f).wire = s.wire := by
  refine ⟨rfl, rfl, rfl, rfl, rfl, rfl, rfl, rfl, rfl, rfl, rfl, rfl, rfl, rfl, rfl, rfl, rfl, rfl, rfl, rfl, rfl, rfl, rfl, rfl, rfl, rfl, rfl, rfl, rfl, rfl, rfl, rfl, rfl, rfl, rfl, rfl, rfl, rfl, rfl, rfl, rfl, rfl, rfl, rfl, rfl, rfl, rfl, rfl, rfl, rfl, rfl, rfl, rfl, rfl, rfl, rfl, rfl, rfl, rfl, rfl, rfl, rfl, rfl, rfl, rfl, rfl, rfl, rfl, rfl, rfl, rfl, rfl, rfl⟩

@[simp] theorem updDisp_frame (s : State) (key : Nat) (f : Disp → Disp) :
    (updDisp s key f).pending = s.pending ∧ (updDisp s key f).now = s.now ∧ (updDisp s key f).pll = s.pll ∧
    (updDisp s key f).aclkBase = s.aclkBase ∧ (updDisp s key f).aclkFrom = s.aclkFrom ∧
    (updDisp s key f).fresh = s.fresh ∧ (updDisp s key f).regs = s.regs ∧ (updDisp s key f).log = s.log ∧
    (updDisp s key f).lc = s.lc ∧ (updDisp s key f).msix = s.msix ∧ (updDisp s key f).msixCtl = s.msixCtl ∧
    (updDisp s key f).sent = s.sent ∧ (updDisp s key f).rdata = s.rdata ∧ (updDisp s key f).rstat = s.rstat ∧
    (updDisp s key f).pipeActive = s.pipeActive ∧ (updDisp s key f).hbm = s.hbm ∧ (updDisp s key f).tile = s.tile ∧
    (updDisp s key f).host = s.host ∧ (updDisp s key f).engines = s.engines ∧
    (updDisp s key f).semCycles = s.semCycles ∧ (updDisp s key f).fslots = s.fslots ∧
    (updDisp s key f).fclock = s.fclock ∧ (updDisp s key f).fwaiting = s.fwaiting ∧
    (updDisp s key f).pageIns = s.pageIns ∧ (updDisp s key f).fsigs = s.fsigs ∧
    (updDisp s key f).transits = s.transits ∧ (updDisp s key f).arbs = s.arbs ∧
    (updDisp s key f).replies = s.replies ∧ (updDisp s key f).arrived = s.arrived ∧ (updDisp s key f).mcs = s.mcs ∧
    (updDisp s key f).routers = s.routers ∧ (updDisp s key f).meshOut = s.meshOut ∧
    (updDisp s key f).ctxs = s.ctxs ∧ (updDisp s key f).queues = s.queues ∧ (updDisp s key f).slots = s.slots ∧
    (updDisp s key f).reloc = s.reloc ∧ (updDisp s key f).jobs = s.jobs ∧ (updDisp s key f).jobKey = s.jobKey ∧
    (updDisp s key f).copies = s.copies ∧ (updDisp s key f).compWaits = s.compWaits ∧ (updDisp s key f).cx = s.cx ∧
    (updDisp s key f).pres = s.pres ∧ (updDisp s key f).xfers = s.xfers ∧ (updDisp s key f).placedIn = s.placedIn ∧
    (updDisp s key f).lastServed = s.lastServed ∧ (updDisp s key f).passes = s.passes ∧
    (updDisp s key f).geoTurn = s.geoTurn ∧ (updDisp s key f).hostReads = s.hostReads ∧
    (updDisp s key f).model = s.model ∧ (updDisp s key f).loading = s.loading ∧
    (updDisp s key f).monFrame = s.monFrame ∧ (updDisp s key f).failOrder = s.failOrder ∧
    (updDisp s key f).mbWait = s.mbWait ∧ (updDisp s key f).mboxes = s.mboxes ∧
    (updDisp s key f).mbOrder = s.mbOrder ∧ (updDisp s key f).staging = s.staging ∧
    (updDisp s key f).caps = s.caps ∧ (updDisp s key f).capStop = s.capStop ∧
    (updDisp s key f).capFaults = s.capFaults ∧ (updDisp s key f).pipes = s.pipes ∧
    (updDisp s key f).foxKey = s.foxKey ∧ (updDisp s key f).foxCount = s.foxCount ∧
    (updDisp s key f).foxChecked = s.foxChecked ∧ (updDisp s key f).foxCmd = s.foxCmd ∧
    (updDisp s key f).power = s.power ∧ (updDisp s key f).hotSwap = s.hotSwap ∧
    (updDisp s key f).resets = s.resets ∧ (updDisp s key f).wide = s.wide ∧ (updDisp s key f).perst = s.perst ∧
    (updDisp s key f).pcieOut = s.pcieOut ∧ (updDisp s key f).peony = s.peony ∧ (updDisp s key f).flash = s.flash ∧
    (updDisp s key f).wire = s.wire := by
  refine ⟨rfl, rfl, rfl, rfl, rfl, rfl, rfl, rfl, rfl, rfl, rfl, rfl, rfl, rfl, rfl, rfl, rfl, rfl, rfl, rfl, rfl, rfl, rfl, rfl, rfl, rfl, rfl, rfl, rfl, rfl, rfl, rfl, rfl, rfl, rfl, rfl, rfl, rfl, rfl, rfl, rfl, rfl, rfl, rfl, rfl, rfl, rfl, rfl, rfl, rfl, rfl, rfl, rfl, rfl, rfl, rfl, rfl, rfl, rfl, rfl, rfl, rfl, rfl, rfl, rfl, rfl, rfl, rfl, rfl, rfl, rfl, rfl, rfl⟩

@[simp] theorem updPre_frame (s : State) (key : Nat) (f : Pre → Pre) :
    (updPre s key f).pending = s.pending ∧ (updPre s key f).now = s.now ∧ (updPre s key f).pll = s.pll ∧
    (updPre s key f).aclkBase = s.aclkBase ∧ (updPre s key f).aclkFrom = s.aclkFrom ∧
    (updPre s key f).fresh = s.fresh ∧ (updPre s key f).regs = s.regs ∧ (updPre s key f).log = s.log ∧
    (updPre s key f).lc = s.lc ∧ (updPre s key f).msix = s.msix ∧ (updPre s key f).msixCtl = s.msixCtl ∧
    (updPre s key f).sent = s.sent ∧ (updPre s key f).rdata = s.rdata ∧ (updPre s key f).rstat = s.rstat ∧
    (updPre s key f).pipeActive = s.pipeActive ∧ (updPre s key f).hbm = s.hbm ∧ (updPre s key f).tile = s.tile ∧
    (updPre s key f).host = s.host ∧ (updPre s key f).engines = s.engines ∧
    (updPre s key f).semCycles = s.semCycles ∧ (updPre s key f).fslots = s.fslots ∧
    (updPre s key f).fclock = s.fclock ∧ (updPre s key f).fwaiting = s.fwaiting ∧
    (updPre s key f).pageIns = s.pageIns ∧ (updPre s key f).fsigs = s.fsigs ∧
    (updPre s key f).transits = s.transits ∧ (updPre s key f).arbs = s.arbs ∧
    (updPre s key f).replies = s.replies ∧ (updPre s key f).arrived = s.arrived ∧ (updPre s key f).mcs = s.mcs ∧
    (updPre s key f).routers = s.routers ∧ (updPre s key f).meshOut = s.meshOut ∧ (updPre s key f).ctxs = s.ctxs ∧
    (updPre s key f).queues = s.queues ∧ (updPre s key f).slots = s.slots ∧ (updPre s key f).reloc = s.reloc ∧
    (updPre s key f).jobs = s.jobs ∧ (updPre s key f).jobKey = s.jobKey ∧ (updPre s key f).copies = s.copies ∧
    (updPre s key f).compWaits = s.compWaits ∧ (updPre s key f).cx = s.cx ∧ (updPre s key f).disps = s.disps ∧
    (updPre s key f).xfers = s.xfers ∧ (updPre s key f).placedIn = s.placedIn ∧
    (updPre s key f).lastServed = s.lastServed ∧ (updPre s key f).passes = s.passes ∧
    (updPre s key f).geoTurn = s.geoTurn ∧ (updPre s key f).hostReads = s.hostReads ∧
    (updPre s key f).model = s.model ∧ (updPre s key f).loading = s.loading ∧
    (updPre s key f).monFrame = s.monFrame ∧ (updPre s key f).failOrder = s.failOrder ∧
    (updPre s key f).mbWait = s.mbWait ∧ (updPre s key f).mboxes = s.mboxes ∧
    (updPre s key f).mbOrder = s.mbOrder ∧ (updPre s key f).staging = s.staging ∧ (updPre s key f).caps = s.caps ∧
    (updPre s key f).capStop = s.capStop ∧ (updPre s key f).capFaults = s.capFaults ∧
    (updPre s key f).pipes = s.pipes ∧ (updPre s key f).foxKey = s.foxKey ∧
    (updPre s key f).foxCount = s.foxCount ∧ (updPre s key f).foxChecked = s.foxChecked ∧
    (updPre s key f).foxCmd = s.foxCmd ∧ (updPre s key f).power = s.power ∧ (updPre s key f).hotSwap = s.hotSwap ∧
    (updPre s key f).resets = s.resets ∧ (updPre s key f).wide = s.wide ∧ (updPre s key f).perst = s.perst ∧
    (updPre s key f).pcieOut = s.pcieOut ∧ (updPre s key f).peony = s.peony ∧ (updPre s key f).flash = s.flash ∧
    (updPre s key f).wire = s.wire := by
  refine ⟨rfl, rfl, rfl, rfl, rfl, rfl, rfl, rfl, rfl, rfl, rfl, rfl, rfl, rfl, rfl, rfl, rfl, rfl, rfl, rfl, rfl, rfl, rfl, rfl, rfl, rfl, rfl, rfl, rfl, rfl, rfl, rfl, rfl, rfl, rfl, rfl, rfl, rfl, rfl, rfl, rfl, rfl, rfl, rfl, rfl, rfl, rfl, rfl, rfl, rfl, rfl, rfl, rfl, rfl, rfl, rfl, rfl, rfl, rfl, rfl, rfl, rfl, rfl, rfl, rfl, rfl, rfl, rfl, rfl, rfl, rfl, rfl, rfl⟩

@[simp] theorem setCx_frame (s : State) (k : Nat) (x : CxSt) :
    (setCx s k x).pending = s.pending ∧ (setCx s k x).now = s.now ∧ (setCx s k x).pll = s.pll ∧
    (setCx s k x).aclkBase = s.aclkBase ∧ (setCx s k x).aclkFrom = s.aclkFrom ∧ (setCx s k x).fresh = s.fresh ∧
    (setCx s k x).regs = s.regs ∧ (setCx s k x).log = s.log ∧ (setCx s k x).lc = s.lc ∧
    (setCx s k x).msix = s.msix ∧ (setCx s k x).msixCtl = s.msixCtl ∧ (setCx s k x).sent = s.sent ∧
    (setCx s k x).rdata = s.rdata ∧ (setCx s k x).rstat = s.rstat ∧ (setCx s k x).pipeActive = s.pipeActive ∧
    (setCx s k x).hbm = s.hbm ∧ (setCx s k x).tile = s.tile ∧ (setCx s k x).host = s.host ∧
    (setCx s k x).engines = s.engines ∧ (setCx s k x).semCycles = s.semCycles ∧ (setCx s k x).fslots = s.fslots ∧
    (setCx s k x).fclock = s.fclock ∧ (setCx s k x).fwaiting = s.fwaiting ∧ (setCx s k x).pageIns = s.pageIns ∧
    (setCx s k x).fsigs = s.fsigs ∧ (setCx s k x).transits = s.transits ∧ (setCx s k x).arbs = s.arbs ∧
    (setCx s k x).replies = s.replies ∧ (setCx s k x).arrived = s.arrived ∧ (setCx s k x).mcs = s.mcs ∧
    (setCx s k x).routers = s.routers ∧ (setCx s k x).meshOut = s.meshOut ∧ (setCx s k x).ctxs = s.ctxs ∧
    (setCx s k x).queues = s.queues ∧ (setCx s k x).slots = s.slots ∧ (setCx s k x).reloc = s.reloc ∧
    (setCx s k x).jobs = s.jobs ∧ (setCx s k x).jobKey = s.jobKey ∧ (setCx s k x).copies = s.copies ∧
    (setCx s k x).compWaits = s.compWaits ∧ (setCx s k x).disps = s.disps ∧ (setCx s k x).pres = s.pres ∧
    (setCx s k x).xfers = s.xfers ∧ (setCx s k x).placedIn = s.placedIn ∧ (setCx s k x).lastServed = s.lastServed ∧
    (setCx s k x).passes = s.passes ∧ (setCx s k x).geoTurn = s.geoTurn ∧ (setCx s k x).hostReads = s.hostReads ∧
    (setCx s k x).model = s.model ∧ (setCx s k x).loading = s.loading ∧ (setCx s k x).monFrame = s.monFrame ∧
    (setCx s k x).failOrder = s.failOrder ∧ (setCx s k x).mbWait = s.mbWait ∧ (setCx s k x).mboxes = s.mboxes ∧
    (setCx s k x).mbOrder = s.mbOrder ∧ (setCx s k x).staging = s.staging ∧ (setCx s k x).caps = s.caps ∧
    (setCx s k x).capStop = s.capStop ∧ (setCx s k x).capFaults = s.capFaults ∧ (setCx s k x).pipes = s.pipes ∧
    (setCx s k x).foxKey = s.foxKey ∧ (setCx s k x).foxCount = s.foxCount ∧
    (setCx s k x).foxChecked = s.foxChecked ∧ (setCx s k x).foxCmd = s.foxCmd ∧ (setCx s k x).power = s.power ∧
    (setCx s k x).hotSwap = s.hotSwap ∧ (setCx s k x).resets = s.resets ∧ (setCx s k x).wide = s.wide ∧
    (setCx s k x).perst = s.perst ∧ (setCx s k x).pcieOut = s.pcieOut ∧ (setCx s k x).peony = s.peony ∧
    (setCx s k x).flash = s.flash ∧ (setCx s k x).wire = s.wire := by
  refine ⟨rfl, rfl, rfl, rfl, rfl, rfl, rfl, rfl, rfl, rfl, rfl, rfl, rfl, rfl, rfl, rfl, rfl, rfl, rfl, rfl, rfl, rfl, rfl, rfl, rfl, rfl, rfl, rfl, rfl, rfl, rfl, rfl, rfl, rfl, rfl, rfl, rfl, rfl, rfl, rfl, rfl, rfl, rfl, rfl, rfl, rfl, rfl, rfl, rfl, rfl, rfl, rfl, rfl, rfl, rfl, rfl, rfl, rfl, rfl, rfl, rfl, rfl, rfl, rfl, rfl, rfl, rfl, rfl, rfl, rfl, rfl, rfl, rfl⟩

@[simp] theorem dropGroups_frame (s : State) (key : Nat) (gs : List Nat) :
    (dropGroups s key gs).pending = s.pending ∧ (dropGroups s key gs).now = s.now ∧
    (dropGroups s key gs).pll = s.pll ∧ (dropGroups s key gs).aclkBase = s.aclkBase ∧
    (dropGroups s key gs).aclkFrom = s.aclkFrom ∧ (dropGroups s key gs).fresh = s.fresh ∧
    (dropGroups s key gs).regs = s.regs ∧ (dropGroups s key gs).log = s.log ∧ (dropGroups s key gs).lc = s.lc ∧
    (dropGroups s key gs).msix = s.msix ∧ (dropGroups s key gs).msixCtl = s.msixCtl ∧
    (dropGroups s key gs).sent = s.sent ∧ (dropGroups s key gs).rdata = s.rdata ∧
    (dropGroups s key gs).rstat = s.rstat ∧ (dropGroups s key gs).pipeActive = s.pipeActive ∧
    (dropGroups s key gs).hbm = s.hbm ∧ (dropGroups s key gs).tile = s.tile ∧ (dropGroups s key gs).host = s.host ∧
    (dropGroups s key gs).semCycles = s.semCycles ∧ (dropGroups s key gs).fslots = s.fslots ∧
    (dropGroups s key gs).fclock = s.fclock ∧ (dropGroups s key gs).fwaiting = s.fwaiting ∧
    (dropGroups s key gs).pageIns = s.pageIns ∧ (dropGroups s key gs).fsigs = s.fsigs ∧
    (dropGroups s key gs).transits = s.transits ∧ (dropGroups s key gs).arbs = s.arbs ∧
    (dropGroups s key gs).replies = s.replies ∧ (dropGroups s key gs).arrived = s.arrived ∧
    (dropGroups s key gs).mcs = s.mcs ∧ (dropGroups s key gs).routers = s.routers ∧
    (dropGroups s key gs).meshOut = s.meshOut ∧ (dropGroups s key gs).ctxs = s.ctxs ∧
    (dropGroups s key gs).queues = s.queues ∧ (dropGroups s key gs).slots = s.slots ∧
    (dropGroups s key gs).reloc = s.reloc ∧ (dropGroups s key gs).jobs = s.jobs ∧
    (dropGroups s key gs).jobKey = s.jobKey ∧ (dropGroups s key gs).copies = s.copies ∧
    (dropGroups s key gs).compWaits = s.compWaits ∧ (dropGroups s key gs).cx = s.cx ∧
    (dropGroups s key gs).disps = s.disps ∧ (dropGroups s key gs).pres = s.pres ∧
    (dropGroups s key gs).xfers = s.xfers ∧ (dropGroups s key gs).placedIn = s.placedIn ∧
    (dropGroups s key gs).lastServed = s.lastServed ∧ (dropGroups s key gs).passes = s.passes ∧
    (dropGroups s key gs).geoTurn = s.geoTurn ∧ (dropGroups s key gs).hostReads = s.hostReads ∧
    (dropGroups s key gs).model = s.model ∧ (dropGroups s key gs).loading = s.loading ∧
    (dropGroups s key gs).monFrame = s.monFrame ∧ (dropGroups s key gs).failOrder = s.failOrder ∧
    (dropGroups s key gs).mbWait = s.mbWait ∧ (dropGroups s key gs).mboxes = s.mboxes ∧
    (dropGroups s key gs).mbOrder = s.mbOrder ∧ (dropGroups s key gs).staging = s.staging ∧
    (dropGroups s key gs).caps = s.caps ∧ (dropGroups s key gs).capStop = s.capStop ∧
    (dropGroups s key gs).capFaults = s.capFaults ∧ (dropGroups s key gs).pipes = s.pipes ∧
    (dropGroups s key gs).foxKey = s.foxKey ∧ (dropGroups s key gs).foxCount = s.foxCount ∧
    (dropGroups s key gs).foxChecked = s.foxChecked ∧ (dropGroups s key gs).foxCmd = s.foxCmd ∧
    (dropGroups s key gs).power = s.power ∧ (dropGroups s key gs).hotSwap = s.hotSwap ∧
    (dropGroups s key gs).resets = s.resets ∧ (dropGroups s key gs).wide = s.wide ∧
    (dropGroups s key gs).perst = s.perst ∧ (dropGroups s key gs).pcieOut = s.pcieOut ∧
    (dropGroups s key gs).peony = s.peony ∧ (dropGroups s key gs).flash = s.flash ∧
    (dropGroups s key gs).wire = s.wire := by
  refine ⟨rfl, rfl, rfl, rfl, rfl, rfl, rfl, rfl, rfl, rfl, rfl, rfl, rfl, rfl, rfl, rfl, rfl, rfl, rfl, rfl, rfl, rfl, rfl, rfl, rfl, rfl, rfl, rfl, rfl, rfl, rfl, rfl, rfl, rfl, rfl, rfl, rfl, rfl, rfl, rfl, rfl, rfl, rfl, rfl, rfl, rfl, rfl, rfl, rfl, rfl, rfl, rfl, rfl, rfl, rfl, rfl, rfl, rfl, rfl, rfl, rfl, rfl, rfl, rfl, rfl, rfl, rfl, rfl, rfl, rfl, rfl, rfl, rfl⟩

@[simp] theorem setPipe_frame (s : State) (p : Nat) (x : PipeSt) :
    (setPipe s p x).pending = s.pending ∧ (setPipe s p x).now = s.now ∧ (setPipe s p x).pll = s.pll ∧
    (setPipe s p x).aclkBase = s.aclkBase ∧ (setPipe s p x).aclkFrom = s.aclkFrom ∧
    (setPipe s p x).fresh = s.fresh ∧ (setPipe s p x).regs = s.regs ∧ (setPipe s p x).log = s.log ∧
    (setPipe s p x).lc = s.lc ∧ (setPipe s p x).msix = s.msix ∧ (setPipe s p x).msixCtl = s.msixCtl ∧
    (setPipe s p x).sent = s.sent ∧ (setPipe s p x).rdata = s.rdata ∧ (setPipe s p x).rstat = s.rstat ∧
    (setPipe s p x).pipeActive = s.pipeActive ∧ (setPipe s p x).hbm = s.hbm ∧ (setPipe s p x).tile = s.tile ∧
    (setPipe s p x).host = s.host ∧ (setPipe s p x).engines = s.engines ∧ (setPipe s p x).semCycles = s.semCycles ∧
    (setPipe s p x).fslots = s.fslots ∧ (setPipe s p x).fclock = s.fclock ∧ (setPipe s p x).fwaiting = s.fwaiting ∧
    (setPipe s p x).pageIns = s.pageIns ∧ (setPipe s p x).fsigs = s.fsigs ∧ (setPipe s p x).transits = s.transits ∧
    (setPipe s p x).arbs = s.arbs ∧ (setPipe s p x).replies = s.replies ∧ (setPipe s p x).arrived = s.arrived ∧
    (setPipe s p x).mcs = s.mcs ∧ (setPipe s p x).routers = s.routers ∧ (setPipe s p x).meshOut = s.meshOut ∧
    (setPipe s p x).ctxs = s.ctxs ∧ (setPipe s p x).queues = s.queues ∧ (setPipe s p x).slots = s.slots ∧
    (setPipe s p x).reloc = s.reloc ∧ (setPipe s p x).jobs = s.jobs ∧ (setPipe s p x).jobKey = s.jobKey ∧
    (setPipe s p x).copies = s.copies ∧ (setPipe s p x).compWaits = s.compWaits ∧ (setPipe s p x).cx = s.cx ∧
    (setPipe s p x).disps = s.disps ∧ (setPipe s p x).pres = s.pres ∧ (setPipe s p x).xfers = s.xfers ∧
    (setPipe s p x).placedIn = s.placedIn ∧ (setPipe s p x).lastServed = s.lastServed ∧
    (setPipe s p x).passes = s.passes ∧ (setPipe s p x).geoTurn = s.geoTurn ∧
    (setPipe s p x).hostReads = s.hostReads ∧ (setPipe s p x).model = s.model ∧
    (setPipe s p x).loading = s.loading ∧ (setPipe s p x).monFrame = s.monFrame ∧
    (setPipe s p x).failOrder = s.failOrder ∧ (setPipe s p x).mbWait = s.mbWait ∧
    (setPipe s p x).mboxes = s.mboxes ∧ (setPipe s p x).mbOrder = s.mbOrder ∧ (setPipe s p x).staging = s.staging ∧
    (setPipe s p x).caps = s.caps ∧ (setPipe s p x).capStop = s.capStop ∧ (setPipe s p x).capFaults = s.capFaults ∧
    (setPipe s p x).foxKey = s.foxKey ∧ (setPipe s p x).foxCount = s.foxCount ∧
    (setPipe s p x).foxChecked = s.foxChecked ∧ (setPipe s p x).foxCmd = s.foxCmd ∧
    (setPipe s p x).power = s.power ∧ (setPipe s p x).hotSwap = s.hotSwap ∧ (setPipe s p x).resets = s.resets ∧
    (setPipe s p x).wide = s.wide ∧ (setPipe s p x).perst = s.perst ∧ (setPipe s p x).pcieOut = s.pcieOut ∧
    (setPipe s p x).peony = s.peony ∧ (setPipe s p x).flash = s.flash ∧ (setPipe s p x).wire = s.wire := by
  refine ⟨rfl, rfl, rfl, rfl, rfl, rfl, rfl, rfl, rfl, rfl, rfl, rfl, rfl, rfl, rfl, rfl, rfl, rfl, rfl, rfl, rfl, rfl, rfl, rfl, rfl, rfl, rfl, rfl, rfl, rfl, rfl, rfl, rfl, rfl, rfl, rfl, rfl, rfl, rfl, rfl, rfl, rfl, rfl, rfl, rfl, rfl, rfl, rfl, rfl, rfl, rfl, rfl, rfl, rfl, rfl, rfl, rfl, rfl, rfl, rfl, rfl, rfl, rfl, rfl, rfl, rfl, rfl, rfl, rfl, rfl, rfl, rfl, rfl⟩

@[simp] theorem updReset_frame (s : State) (p : Nat) (f : PReset → PReset) :
    (updReset s p f).pending = s.pending ∧ (updReset s p f).now = s.now ∧ (updReset s p f).pll = s.pll ∧
    (updReset s p f).aclkBase = s.aclkBase ∧ (updReset s p f).aclkFrom = s.aclkFrom ∧
    (updReset s p f).fresh = s.fresh ∧ (updReset s p f).regs = s.regs ∧ (updReset s p f).log = s.log ∧
    (updReset s p f).lc = s.lc ∧ (updReset s p f).msix = s.msix ∧ (updReset s p f).msixCtl = s.msixCtl ∧
    (updReset s p f).sent = s.sent ∧ (updReset s p f).rdata = s.rdata ∧ (updReset s p f).rstat = s.rstat ∧
    (updReset s p f).pipeActive = s.pipeActive ∧ (updReset s p f).hbm = s.hbm ∧ (updReset s p f).tile = s.tile ∧
    (updReset s p f).host = s.host ∧ (updReset s p f).engines = s.engines ∧
    (updReset s p f).semCycles = s.semCycles ∧ (updReset s p f).fslots = s.fslots ∧
    (updReset s p f).fclock = s.fclock ∧ (updReset s p f).fwaiting = s.fwaiting ∧
    (updReset s p f).pageIns = s.pageIns ∧ (updReset s p f).fsigs = s.fsigs ∧
    (updReset s p f).transits = s.transits ∧ (updReset s p f).arbs = s.arbs ∧
    (updReset s p f).replies = s.replies ∧ (updReset s p f).arrived = s.arrived ∧ (updReset s p f).mcs = s.mcs ∧
    (updReset s p f).routers = s.routers ∧ (updReset s p f).meshOut = s.meshOut ∧ (updReset s p f).ctxs = s.ctxs ∧
    (updReset s p f).queues = s.queues ∧ (updReset s p f).slots = s.slots ∧ (updReset s p f).reloc = s.reloc ∧
    (updReset s p f).jobs = s.jobs ∧ (updReset s p f).jobKey = s.jobKey ∧ (updReset s p f).copies = s.copies ∧
    (updReset s p f).compWaits = s.compWaits ∧ (updReset s p f).cx = s.cx ∧ (updReset s p f).disps = s.disps ∧
    (updReset s p f).pres = s.pres ∧ (updReset s p f).xfers = s.xfers ∧ (updReset s p f).placedIn = s.placedIn ∧
    (updReset s p f).lastServed = s.lastServed ∧ (updReset s p f).passes = s.passes ∧
    (updReset s p f).geoTurn = s.geoTurn ∧ (updReset s p f).hostReads = s.hostReads ∧
    (updReset s p f).model = s.model ∧ (updReset s p f).loading = s.loading ∧
    (updReset s p f).monFrame = s.monFrame ∧ (updReset s p f).failOrder = s.failOrder ∧
    (updReset s p f).mbWait = s.mbWait ∧ (updReset s p f).mboxes = s.mboxes ∧
    (updReset s p f).mbOrder = s.mbOrder ∧ (updReset s p f).staging = s.staging ∧ (updReset s p f).caps = s.caps ∧
    (updReset s p f).capStop = s.capStop ∧ (updReset s p f).capFaults = s.capFaults ∧
    (updReset s p f).pipes = s.pipes ∧ (updReset s p f).foxKey = s.foxKey ∧
    (updReset s p f).foxCount = s.foxCount ∧ (updReset s p f).foxChecked = s.foxChecked ∧
    (updReset s p f).foxCmd = s.foxCmd ∧ (updReset s p f).power = s.power ∧ (updReset s p f).hotSwap = s.hotSwap ∧
    (updReset s p f).wide = s.wide ∧ (updReset s p f).perst = s.perst ∧ (updReset s p f).pcieOut = s.pcieOut ∧
    (updReset s p f).peony = s.peony ∧ (updReset s p f).flash = s.flash ∧ (updReset s p f).wire = s.wire := by
  refine ⟨rfl, rfl, rfl, rfl, rfl, rfl, rfl, rfl, rfl, rfl, rfl, rfl, rfl, rfl, rfl, rfl, rfl, rfl, rfl, rfl, rfl, rfl, rfl, rfl, rfl, rfl, rfl, rfl, rfl, rfl, rfl, rfl, rfl, rfl, rfl, rfl, rfl, rfl, rfl, rfl, rfl, rfl, rfl, rfl, rfl, rfl, rfl, rfl, rfl, rfl, rfl, rfl, rfl, rfl, rfl, rfl, rfl, rfl, rfl, rfl, rfl, rfl, rfl, rfl, rfl, rfl, rfl, rfl, rfl, rfl, rfl, rfl, rfl⟩

@[simp] theorem resetRaised_frame (s : State) (p : Nat) :
    (resetRaised s p).pending = s.pending ∧ (resetRaised s p).now = s.now ∧ (resetRaised s p).pll = s.pll ∧
    (resetRaised s p).aclkBase = s.aclkBase ∧ (resetRaised s p).aclkFrom = s.aclkFrom ∧
    (resetRaised s p).fresh = s.fresh ∧ (resetRaised s p).regs = s.regs ∧ (resetRaised s p).log = s.log ∧
    (resetRaised s p).lc = s.lc ∧ (resetRaised s p).msix = s.msix ∧ (resetRaised s p).msixCtl = s.msixCtl ∧
    (resetRaised s p).sent = s.sent ∧ (resetRaised s p).rdata = s.rdata ∧ (resetRaised s p).rstat = s.rstat ∧
    (resetRaised s p).pipeActive = s.pipeActive ∧ (resetRaised s p).hbm = s.hbm ∧ (resetRaised s p).tile = s.tile ∧
    (resetRaised s p).host = s.host ∧ (resetRaised s p).engines = s.engines ∧
    (resetRaised s p).semCycles = s.semCycles ∧ (resetRaised s p).fslots = s.fslots ∧
    (resetRaised s p).fclock = s.fclock ∧ (resetRaised s p).fwaiting = s.fwaiting ∧
    (resetRaised s p).pageIns = s.pageIns ∧ (resetRaised s p).fsigs = s.fsigs ∧
    (resetRaised s p).transits = s.transits ∧ (resetRaised s p).replies = s.replies ∧
    (resetRaised s p).arrived = s.arrived ∧ (resetRaised s p).mcs = s.mcs ∧ (resetRaised s p).routers = s.routers ∧
    (resetRaised s p).meshOut = s.meshOut ∧ (resetRaised s p).ctxs = s.ctxs ∧ (resetRaised s p).queues = s.queues ∧
    (resetRaised s p).slots = s.slots ∧ (resetRaised s p).reloc = s.reloc ∧ (resetRaised s p).jobs = s.jobs ∧
    (resetRaised s p).jobKey = s.jobKey ∧ (resetRaised s p).copies = s.copies ∧
    (resetRaised s p).compWaits = s.compWaits ∧ (resetRaised s p).cx = s.cx ∧ (resetRaised s p).disps = s.disps ∧
    (resetRaised s p).pres = s.pres ∧ (resetRaised s p).xfers = s.xfers ∧ (resetRaised s p).placedIn = s.placedIn ∧
    (resetRaised s p).lastServed = s.lastServed ∧ (resetRaised s p).passes = s.passes ∧
    (resetRaised s p).geoTurn = s.geoTurn ∧ (resetRaised s p).hostReads = s.hostReads ∧
    (resetRaised s p).model = s.model ∧ (resetRaised s p).loading = s.loading ∧
    (resetRaised s p).monFrame = s.monFrame ∧ (resetRaised s p).failOrder = s.failOrder ∧
    (resetRaised s p).mbWait = s.mbWait ∧ (resetRaised s p).mboxes = s.mboxes ∧
    (resetRaised s p).mbOrder = s.mbOrder ∧ (resetRaised s p).staging = s.staging ∧
    (resetRaised s p).caps = s.caps ∧ (resetRaised s p).capStop = s.capStop ∧
    (resetRaised s p).capFaults = s.capFaults ∧ (resetRaised s p).pipes = s.pipes ∧
    (resetRaised s p).foxKey = s.foxKey ∧ (resetRaised s p).foxCount = s.foxCount ∧
    (resetRaised s p).foxChecked = s.foxChecked ∧ (resetRaised s p).foxCmd = s.foxCmd ∧
    (resetRaised s p).power = s.power ∧ (resetRaised s p).hotSwap = s.hotSwap ∧
    (resetRaised s p).resets = s.resets ∧ (resetRaised s p).wide = s.wide ∧ (resetRaised s p).perst = s.perst ∧
    (resetRaised s p).pcieOut = s.pcieOut ∧ (resetRaised s p).peony = s.peony ∧ (resetRaised s p).flash = s.flash ∧
    (resetRaised s p).wire = s.wire := by
  refine ⟨rfl, rfl, rfl, rfl, rfl, rfl, rfl, rfl, rfl, rfl, rfl, rfl, rfl, rfl, rfl, rfl, rfl, rfl, rfl, rfl, rfl, rfl, rfl, rfl, rfl, rfl, rfl, rfl, rfl, rfl, rfl, rfl, rfl, rfl, rfl, rfl, rfl, rfl, rfl, rfl, rfl, rfl, rfl, rfl, rfl, rfl, rfl, rfl, rfl, rfl, rfl, rfl, rfl, rfl, rfl, rfl, rfl, rfl, rfl, rfl, rfl, rfl, rfl, rfl, rfl, rfl, rfl, rfl, rfl, rfl, rfl, rfl, rfl⟩

@[simp] theorem resetVectors_frame (s : State) (p : Nat) :
    (resetVectors s p).pending = s.pending ∧ (resetVectors s p).now = s.now ∧ (resetVectors s p).pll = s.pll ∧
    (resetVectors s p).aclkBase = s.aclkBase ∧ (resetVectors s p).aclkFrom = s.aclkFrom ∧
    (resetVectors s p).fresh = s.fresh ∧ (resetVectors s p).regs = s.regs ∧ (resetVectors s p).log = s.log ∧
    (resetVectors s p).lc = s.lc ∧ (resetVectors s p).msixCtl = s.msixCtl ∧ (resetVectors s p).sent = s.sent ∧
    (resetVectors s p).rdata = s.rdata ∧ (resetVectors s p).rstat = s.rstat ∧
    (resetVectors s p).pipeActive = s.pipeActive ∧ (resetVectors s p).hbm = s.hbm ∧
    (resetVectors s p).tile = s.tile ∧ (resetVectors s p).host = s.host ∧ (resetVectors s p).engines = s.engines ∧
    (resetVectors s p).semCycles = s.semCycles ∧ (resetVectors s p).fslots = s.fslots ∧
    (resetVectors s p).fclock = s.fclock ∧ (resetVectors s p).fwaiting = s.fwaiting ∧
    (resetVectors s p).pageIns = s.pageIns ∧ (resetVectors s p).fsigs = s.fsigs ∧
    (resetVectors s p).transits = s.transits ∧ (resetVectors s p).arbs = s.arbs ∧
    (resetVectors s p).replies = s.replies ∧ (resetVectors s p).arrived = s.arrived ∧
    (resetVectors s p).mcs = s.mcs ∧ (resetVectors s p).routers = s.routers ∧
    (resetVectors s p).meshOut = s.meshOut ∧ (resetVectors s p).ctxs = s.ctxs ∧
    (resetVectors s p).queues = s.queues ∧ (resetVectors s p).slots = s.slots ∧
    (resetVectors s p).reloc = s.reloc ∧ (resetVectors s p).jobs = s.jobs ∧ (resetVectors s p).jobKey = s.jobKey ∧
    (resetVectors s p).copies = s.copies ∧ (resetVectors s p).compWaits = s.compWaits ∧
    (resetVectors s p).cx = s.cx ∧ (resetVectors s p).disps = s.disps ∧ (resetVectors s p).pres = s.pres ∧
    (resetVectors s p).xfers = s.xfers ∧ (resetVectors s p).placedIn = s.placedIn ∧
    (resetVectors s p).lastServed = s.lastServed ∧ (resetVectors s p).passes = s.passes ∧
    (resetVectors s p).geoTurn = s.geoTurn ∧ (resetVectors s p).hostReads = s.hostReads ∧
    (resetVectors s p).model = s.model ∧ (resetVectors s p).loading = s.loading ∧
    (resetVectors s p).monFrame = s.monFrame ∧ (resetVectors s p).failOrder = s.failOrder ∧
    (resetVectors s p).mbWait = s.mbWait ∧ (resetVectors s p).mboxes = s.mboxes ∧
    (resetVectors s p).mbOrder = s.mbOrder ∧ (resetVectors s p).staging = s.staging ∧
    (resetVectors s p).caps = s.caps ∧ (resetVectors s p).capStop = s.capStop ∧
    (resetVectors s p).capFaults = s.capFaults ∧ (resetVectors s p).pipes = s.pipes ∧
    (resetVectors s p).foxKey = s.foxKey ∧ (resetVectors s p).foxCount = s.foxCount ∧
    (resetVectors s p).foxChecked = s.foxChecked ∧ (resetVectors s p).foxCmd = s.foxCmd ∧
    (resetVectors s p).power = s.power ∧ (resetVectors s p).hotSwap = s.hotSwap ∧
    (resetVectors s p).resets = s.resets ∧ (resetVectors s p).wide = s.wide ∧ (resetVectors s p).perst = s.perst ∧
    (resetVectors s p).pcieOut = s.pcieOut ∧ (resetVectors s p).peony = s.peony ∧
    (resetVectors s p).flash = s.flash ∧ (resetVectors s p).wire = s.wire := by
  refine ⟨rfl, rfl, rfl, rfl, rfl, rfl, rfl, rfl, rfl, rfl, rfl, rfl, rfl, rfl, rfl, rfl, rfl, rfl, rfl, rfl, rfl, rfl, rfl, rfl, rfl, rfl, rfl, rfl, rfl, rfl, rfl, rfl, rfl, rfl, rfl, rfl, rfl, rfl, rfl, rfl, rfl, rfl, rfl, rfl, rfl, rfl, rfl, rfl, rfl, rfl, rfl, rfl, rfl, rfl, rfl, rfl, rfl, rfl, rfl, rfl, rfl, rfl, rfl, rfl, rfl, rfl, rfl, rfl, rfl, rfl, rfl, rfl, rfl⟩

@[simp] theorem restoreFlc_frame (s : State) :
    (restoreFlc s).pending = s.pending ∧ (restoreFlc s).now = s.now ∧ (restoreFlc s).pll = s.pll ∧
    (restoreFlc s).aclkBase = s.aclkBase ∧ (restoreFlc s).aclkFrom = s.aclkFrom ∧ (restoreFlc s).fresh = s.fresh ∧
    (restoreFlc s).regs = s.regs ∧ (restoreFlc s).log = s.log ∧ (restoreFlc s).lc = s.lc ∧
    (restoreFlc s).msix = s.msix ∧ (restoreFlc s).msixCtl = s.msixCtl ∧ (restoreFlc s).sent = s.sent ∧
    (restoreFlc s).rdata = s.rdata ∧ (restoreFlc s).rstat = s.rstat ∧ (restoreFlc s).pipeActive = s.pipeActive ∧
    (restoreFlc s).hbm = s.hbm ∧ (restoreFlc s).tile = s.tile ∧ (restoreFlc s).host = s.host ∧
    (restoreFlc s).semCycles = s.semCycles ∧ (restoreFlc s).fslots = s.fslots ∧ (restoreFlc s).fclock = s.fclock ∧
    (restoreFlc s).fwaiting = s.fwaiting ∧ (restoreFlc s).pageIns = s.pageIns ∧ (restoreFlc s).fsigs = s.fsigs ∧
    (restoreFlc s).transits = s.transits ∧ (restoreFlc s).arbs = s.arbs ∧ (restoreFlc s).replies = s.replies ∧
    (restoreFlc s).arrived = s.arrived ∧ (restoreFlc s).mcs = s.mcs ∧ (restoreFlc s).routers = s.routers ∧
    (restoreFlc s).meshOut = s.meshOut ∧ (restoreFlc s).ctxs = s.ctxs ∧ (restoreFlc s).queues = s.queues ∧
    (restoreFlc s).slots = s.slots ∧ (restoreFlc s).reloc = s.reloc ∧ (restoreFlc s).jobs = s.jobs ∧
    (restoreFlc s).jobKey = s.jobKey ∧ (restoreFlc s).copies = s.copies ∧ (restoreFlc s).compWaits = s.compWaits ∧
    (restoreFlc s).cx = s.cx ∧ (restoreFlc s).disps = s.disps ∧ (restoreFlc s).pres = s.pres ∧
    (restoreFlc s).xfers = s.xfers ∧ (restoreFlc s).placedIn = s.placedIn ∧
    (restoreFlc s).lastServed = s.lastServed ∧ (restoreFlc s).passes = s.passes ∧
    (restoreFlc s).geoTurn = s.geoTurn ∧ (restoreFlc s).hostReads = s.hostReads ∧ (restoreFlc s).model = s.model ∧
    (restoreFlc s).loading = s.loading ∧ (restoreFlc s).monFrame = s.monFrame ∧
    (restoreFlc s).failOrder = s.failOrder ∧ (restoreFlc s).mbWait = s.mbWait ∧ (restoreFlc s).mboxes = s.mboxes ∧
    (restoreFlc s).mbOrder = s.mbOrder ∧ (restoreFlc s).staging = s.staging ∧ (restoreFlc s).caps = s.caps ∧
    (restoreFlc s).capStop = s.capStop ∧ (restoreFlc s).capFaults = s.capFaults ∧ (restoreFlc s).pipes = s.pipes ∧
    (restoreFlc s).foxKey = s.foxKey ∧ (restoreFlc s).foxCount = s.foxCount ∧
    (restoreFlc s).foxChecked = s.foxChecked ∧ (restoreFlc s).foxCmd = s.foxCmd ∧ (restoreFlc s).power = s.power ∧
    (restoreFlc s).hotSwap = s.hotSwap ∧ (restoreFlc s).resets = s.resets ∧ (restoreFlc s).wide = s.wide ∧
    (restoreFlc s).perst = s.perst ∧ (restoreFlc s).pcieOut = s.pcieOut ∧ (restoreFlc s).peony = s.peony ∧
    (restoreFlc s).flash = s.flash ∧ (restoreFlc s).wire = s.wire := by
  refine ⟨rfl, rfl, rfl, rfl, rfl, rfl, rfl, rfl, rfl, rfl, rfl, rfl, rfl, rfl, rfl, rfl, rfl, rfl, rfl, rfl, rfl, rfl, rfl, rfl, rfl, rfl, rfl, rfl, rfl, rfl, rfl, rfl, rfl, rfl, rfl, rfl, rfl, rfl, rfl, rfl, rfl, rfl, rfl, rfl, rfl, rfl, rfl, rfl, rfl, rfl, rfl, rfl, rfl, rfl, rfl, rfl, rfl, rfl, rfl, rfl, rfl, rfl, rfl, rfl, rfl, rfl, rfl, rfl, rfl, rfl, rfl, rfl, rfl⟩

@[simp] theorem setRouter_frame (s : State) (r : Nat) (x : Router) :
    (setRouter s r x).pending = s.pending ∧ (setRouter s r x).now = s.now ∧ (setRouter s r x).pll = s.pll ∧
    (setRouter s r x).aclkBase = s.aclkBase ∧ (setRouter s r x).aclkFrom = s.aclkFrom ∧
    (setRouter s r x).fresh = s.fresh ∧ (setRouter s r x).regs = s.regs ∧ (setRouter s r x).log = s.log ∧
    (setRouter s r x).lc = s.lc ∧ (setRouter s r x).msix = s.msix ∧ (setRouter s r x).msixCtl = s.msixCtl ∧
    (setRouter s r x).sent = s.sent ∧ (setRouter s r x).rdata = s.rdata ∧ (setRouter s r x).rstat = s.rstat ∧
    (setRouter s r x).pipeActive = s.pipeActive ∧ (setRouter s r x).hbm = s.hbm ∧ (setRouter s r x).tile = s.tile ∧
    (setRouter s r x).host = s.host ∧ (setRouter s r x).engines = s.engines ∧
    (setRouter s r x).semCycles = s.semCycles ∧ (setRouter s r x).fslots = s.fslots ∧
    (setRouter s r x).fclock = s.fclock ∧ (setRouter s r x).fwaiting = s.fwaiting ∧
    (setRouter s r x).pageIns = s.pageIns ∧ (setRouter s r x).fsigs = s.fsigs ∧
    (setRouter s r x).transits = s.transits ∧ (setRouter s r x).arbs = s.arbs ∧
    (setRouter s r x).replies = s.replies ∧ (setRouter s r x).arrived = s.arrived ∧ (setRouter s r x).mcs = s.mcs ∧
    (setRouter s r x).meshOut = s.meshOut ∧ (setRouter s r x).ctxs = s.ctxs ∧ (setRouter s r x).queues = s.queues ∧
    (setRouter s r x).slots = s.slots ∧ (setRouter s r x).reloc = s.reloc ∧ (setRouter s r x).jobs = s.jobs ∧
    (setRouter s r x).jobKey = s.jobKey ∧ (setRouter s r x).copies = s.copies ∧
    (setRouter s r x).compWaits = s.compWaits ∧ (setRouter s r x).cx = s.cx ∧ (setRouter s r x).disps = s.disps ∧
    (setRouter s r x).pres = s.pres ∧ (setRouter s r x).xfers = s.xfers ∧ (setRouter s r x).placedIn = s.placedIn ∧
    (setRouter s r x).lastServed = s.lastServed ∧ (setRouter s r x).passes = s.passes ∧
    (setRouter s r x).geoTurn = s.geoTurn ∧ (setRouter s r x).hostReads = s.hostReads ∧
    (setRouter s r x).model = s.model ∧ (setRouter s r x).loading = s.loading ∧
    (setRouter s r x).monFrame = s.monFrame ∧ (setRouter s r x).failOrder = s.failOrder ∧
    (setRouter s r x).mbWait = s.mbWait ∧ (setRouter s r x).mboxes = s.mboxes ∧
    (setRouter s r x).mbOrder = s.mbOrder ∧ (setRouter s r x).staging = s.staging ∧
    (setRouter s r x).caps = s.caps ∧ (setRouter s r x).capStop = s.capStop ∧
    (setRouter s r x).capFaults = s.capFaults ∧ (setRouter s r x).pipes = s.pipes ∧
    (setRouter s r x).foxKey = s.foxKey ∧ (setRouter s r x).foxCount = s.foxCount ∧
    (setRouter s r x).foxChecked = s.foxChecked ∧ (setRouter s r x).foxCmd = s.foxCmd ∧
    (setRouter s r x).power = s.power ∧ (setRouter s r x).hotSwap = s.hotSwap ∧
    (setRouter s r x).resets = s.resets ∧ (setRouter s r x).wide = s.wide ∧ (setRouter s r x).perst = s.perst ∧
    (setRouter s r x).pcieOut = s.pcieOut ∧ (setRouter s r x).peony = s.peony ∧ (setRouter s r x).flash = s.flash ∧
    (setRouter s r x).wire = s.wire := by
  refine ⟨rfl, rfl, rfl, rfl, rfl, rfl, rfl, rfl, rfl, rfl, rfl, rfl, rfl, rfl, rfl, rfl, rfl, rfl, rfl, rfl, rfl, rfl, rfl, rfl, rfl, rfl, rfl, rfl, rfl, rfl, rfl, rfl, rfl, rfl, rfl, rfl, rfl, rfl, rfl, rfl, rfl, rfl, rfl, rfl, rfl, rfl, rfl, rfl, rfl, rfl, rfl, rfl, rfl, rfl, rfl, rfl, rfl, rfl, rfl, rfl, rfl, rfl, rfl, rfl, rfl, rfl, rfl, rfl, rfl, rfl, rfl, rfl, rfl⟩

/-! What each of them leaves of the values read through the accessors. -/

@[simp] theorem wr_reads (s : State) (off : Nat) (v : Nat) :
    (∀ k, eng (wr s off v) k = eng s k) ∧ (∀ k, que (wr s off v) k = que s k) ∧
    (∀ k, slotOf (wr s off v) k = slotOf s k) ∧ (∀ k, ctxOf (wr s off v) k = ctxOf s k) ∧
    (∀ k, fslot (wr s off v) k = fslot s k) ∧ (∀ k, cxOf (wr s off v) k = cxOf s k) ∧
    (∀ k, mcOf (wr s off v) k = mcOf s k) ∧ (∀ k, arb (wr s off v) k = arb s k) ∧
    (∀ k, pipeOf (wr s off v) k = pipeOf s k) ∧ (∀ k, pipeAct (wr s off v) k = pipeAct s k) ∧
    (∀ k, router (wr s off v) k = router s k) ∧ (∀ k j, vec (wr s off v) k j = vec s k j) ∧
    (∀ k, msixCtlOf (wr s off v) k = msixCtlOf s k) ∧ (∀ k j, capVc (wr s off v) k j = capVc s k j) ∧
    aclk (wr s off v) = aclk s ∧ wake (wr s off v) = wake s ∧ aclkUnit (wr s off v) = aclkUnit s :=
  ⟨fun _ => rfl, fun _ => rfl, fun _ => rfl, fun _ => rfl, fun _ => rfl, fun _ => rfl, fun _ => rfl, fun _ => rfl, fun _ => rfl, fun _ => rfl, fun _ => rfl, fun _ _ => rfl, fun _ => rfl, fun _ _ => rfl, rfl, rfl, rfl⟩

@[simp] theorem atTime_reads (s : State) (u : Nat) :
    (∀ k, rd (atTime s u) k = rd s k) ∧ (∀ k, eng (atTime s u) k = eng s k) ∧ (∀ k, que (atTime s u) k = que s k) ∧
    (∀ k, slotOf (atTime s u) k = slotOf s k) ∧ (∀ k, ctxOf (atTime s u) k = ctxOf s k) ∧
    (∀ k, fslot (atTime s u) k = fslot s k) ∧ (∀ k, cxOf (atTime s u) k = cxOf s k) ∧
    (∀ k, mcOf (atTime s u) k = mcOf s k) ∧ (∀ k, arb (atTime s u) k = arb s k) ∧
    (∀ k, pipeOf (atTime s u) k = pipeOf s k) ∧ (∀ k, pipeAct (atTime s u) k = pipeAct s k) ∧
    (∀ k, router (atTime s u) k = router s k) ∧ (∀ k j, vec (atTime s u) k j = vec s k j) ∧
    (∀ k, msixCtlOf (atTime s u) k = msixCtlOf s k) ∧ (∀ k j, capVc (atTime s u) k j = capVc s k j) ∧
    (∀ o l n, fld (atTime s u) o l n = fld s o l n) :=
  ⟨fun _ => rfl, fun _ => rfl, fun _ => rfl, fun _ => rfl, fun _ => rfl, fun _ => rfl, fun _ => rfl, fun _ => rfl, fun _ => rfl, fun _ => rfl, fun _ => rfl, fun _ => rfl, fun _ _ => rfl, fun _ => rfl, fun _ _ => rfl, fun _ _ _ => rfl⟩

@[simp] theorem setVec_reads (s : State) (p : Nat) (v : Nat) (x : Msix) :
    (∀ k, rd (setVec s p v x) k = rd s k) ∧ (∀ k, eng (setVec s p v x) k = eng s k) ∧
    (∀ k, que (setVec s p v x) k = que s k) ∧ (∀ k, slotOf (setVec s p v x) k = slotOf s k) ∧
    (∀ k, ctxOf (setVec s p v x) k = ctxOf s k) ∧ (∀ k, fslot (setVec s p v x) k = fslot s k) ∧
    (∀ k, cxOf (setVec s p v x) k = cxOf s k) ∧ (∀ k, mcOf (setVec s p v x) k = mcOf s k) ∧
    (∀ k, arb (setVec s p v x) k = arb s k) ∧ (∀ k, pipeOf (setVec s p v x) k = pipeOf s k) ∧
    (∀ k, pipeAct (setVec s p v x) k = pipeAct s k) ∧ (∀ k, router (setVec s p v x) k = router s k) ∧
    (∀ k, msixCtlOf (setVec s p v x) k = msixCtlOf s k) ∧ (∀ k j, capVc (setVec s p v x) k j = capVc s k j) ∧
    (∀ o l n, fld (setVec s p v x) o l n = fld s o l n) ∧ aclk (setVec s p v x) = aclk s ∧
    wake (setVec s p v x) = wake s ∧ aclkUnit (setVec s p v x) = aclkUnit s :=
  ⟨fun _ => rfl, fun _ => rfl, fun _ => rfl, fun _ => rfl, fun _ => rfl, fun _ => rfl, fun _ => rfl, fun _ => rfl, fun _ => rfl, fun _ => rfl, fun _ => rfl, fun _ => rfl, fun _ => rfl, fun _ _ => rfl, fun _ _ _ => rfl, rfl, rfl, rfl⟩

@[simp] theorem setCapVc_reads (s : State) (u : Nat) (v : Nat) (x : CapVc) :
    (∀ k, rd (setCapVc s u v x) k = rd s k) ∧ (∀ k, eng (setCapVc s u v x) k = eng s k) ∧
    (∀ k, que (setCapVc s u v x) k = que s k) ∧ (∀ k, slotOf (setCapVc s u v x) k = slotOf s k) ∧
    (∀ k, ctxOf (setCapVc s u v x) k = ctxOf s k) ∧ (∀ k, fslot (setCapVc s u v x) k = fslot s k) ∧
    (∀ k, cxOf (setCapVc s u v x) k = cxOf s k) ∧ (∀ k, mcOf (setCapVc s u v x) k = mcOf s k) ∧
    (∀ k, arb (setCapVc s u v x) k = arb s k) ∧ (∀ k, pipeOf (setCapVc s u v x) k = pipeOf s k) ∧
    (∀ k, pipeAct (setCapVc s u v x) k = pipeAct s k) ∧ (∀ k, router (setCapVc s u v x) k = router s k) ∧
    (∀ k j, vec (setCapVc s u v x) k j = vec s k j) ∧ (∀ k, msixCtlOf (setCapVc s u v x) k = msixCtlOf s k) ∧
    (∀ o l n, fld (setCapVc s u v x) o l n = fld s o l n) ∧ aclk (setCapVc s u v x) = aclk s ∧
    wake (setCapVc s u v x) = wake s ∧ aclkUnit (setCapVc s u v x) = aclkUnit s :=
  ⟨fun _ => rfl, fun _ => rfl, fun _ => rfl, fun _ => rfl, fun _ => rfl, fun _ => rfl, fun _ => rfl, fun _ => rfl, fun _ => rfl, fun _ => rfl, fun _ => rfl, fun _ => rfl, fun _ _ => rfl, fun _ => rfl, fun _ _ _ => rfl, rfl, rfl, rfl⟩

@[simp] theorem setMc_reads (s : State) (c : Nat) (x : McSt) :
    (∀ k, rd (setMc s c x) k = rd s k) ∧ (∀ k, eng (setMc s c x) k = eng s k) ∧
    (∀ k, que (setMc s c x) k = que s k) ∧ (∀ k, slotOf (setMc s c x) k = slotOf s k) ∧
    (∀ k, ctxOf (setMc s c x) k = ctxOf s k) ∧ (∀ k, fslot (setMc s c x) k = fslot s k) ∧
    (∀ k, cxOf (setMc s c x) k = cxOf s k) ∧ (∀ k, arb (setMc s c x) k = arb s k) ∧
    (∀ k, pipeOf (setMc s c x) k = pipeOf s k) ∧ (∀ k, pipeAct (setMc s c x) k = pipeAct s k) ∧
    (∀ k, router (setMc s c x) k = router s k) ∧ (∀ k j, vec (setMc s c x) k j = vec s k j) ∧
    (∀ k, msixCtlOf (setMc s c x) k = msixCtlOf s k) ∧ (∀ k j, capVc (setMc s c x) k j = capVc s k j) ∧
    (∀ o l n, fld (setMc s c x) o l n = fld s o l n) ∧ aclk (setMc s c x) = aclk s ∧ wake (setMc s c x) = wake s ∧
    aclkUnit (setMc s c x) = aclkUnit s :=
  ⟨fun _ => rfl, fun _ => rfl, fun _ => rfl, fun _ => rfl, fun _ => rfl, fun _ => rfl, fun _ => rfl, fun _ => rfl, fun _ => rfl, fun _ => rfl, fun _ => rfl, fun _ _ => rfl, fun _ => rfl, fun _ _ => rfl, fun _ _ _ => rfl, rfl, rfl, rfl⟩

@[simp] theorem setEng_reads (s : State) (e : Nat) (x : Engine) :
    (∀ k, rd (setEng s e x) k = rd s k) ∧ (∀ k, que (setEng s e x) k = que s k) ∧
    (∀ k, slotOf (setEng s e x) k = slotOf s k) ∧ (∀ k, ctxOf (setEng s e x) k = ctxOf s k) ∧
    (∀ k, fslot (setEng s e x) k = fslot s k) ∧ (∀ k, cxOf (setEng s e x) k = cxOf s k) ∧
    (∀ k, mcOf (setEng s e x) k = mcOf s k) ∧ (∀ k, arb (setEng s e x) k = arb s k) ∧
    (∀ k, pipeOf (setEng s e x) k = pipeOf s k) ∧ (∀ k, pipeAct (setEng s e x) k = pipeAct s k) ∧
    (∀ k, router (setEng s e x) k = router s k) ∧ (∀ k j, vec (setEng s e x) k j = vec s k j) ∧
    (∀ k, msixCtlOf (setEng s e x) k = msixCtlOf s k) ∧ (∀ k j, capVc (setEng s e x) k j = capVc s k j) ∧
    (∀ o l n, fld (setEng s e x) o l n = fld s o l n) ∧ aclk (setEng s e x) = aclk s ∧
    wake (setEng s e x) = wake s ∧ aclkUnit (setEng s e x) = aclkUnit s :=
  ⟨fun _ => rfl, fun _ => rfl, fun _ => rfl, fun _ => rfl, fun _ => rfl, fun _ => rfl, fun _ => rfl, fun _ => rfl, fun _ => rfl, fun _ => rfl, fun _ => rfl, fun _ _ => rfl, fun _ => rfl, fun _ _ => rfl, fun _ _ _ => rfl, rfl, rfl, rfl⟩

@[simp] theorem setArb_reads (s : State) (a : Nat) (x : ArbSt) :
    (∀ k, rd (setArb s a x) k = rd s k) ∧ (∀ k, eng (setArb s a x) k = eng s k) ∧
    (∀ k, que (setArb s a x) k = que s k) ∧ (∀ k, slotOf (setArb s a x) k = slotOf s k) ∧
    (∀ k, ctxOf (setArb s a x) k = ctxOf s k) ∧ (∀ k, fslot (setArb s a x) k = fslot s k) ∧
    (∀ k, cxOf (setArb s a x) k = cxOf s k) ∧ (∀ k, mcOf (setArb s a x) k = mcOf s k) ∧
    (∀ k, pipeOf (setArb s a x) k = pipeOf s k) ∧ (∀ k, pipeAct (setArb s a x) k = pipeAct s k) ∧
    (∀ k, router (setArb s a x) k = router s k) ∧ (∀ k j, vec (setArb s a x) k j = vec s k j) ∧
    (∀ k, msixCtlOf (setArb s a x) k = msixCtlOf s k) ∧ (∀ k j, capVc (setArb s a x) k j = capVc s k j) ∧
    (∀ o l n, fld (setArb s a x) o l n = fld s o l n) ∧ aclk (setArb s a x) = aclk s ∧
    wake (setArb s a x) = wake s ∧ aclkUnit (setArb s a x) = aclkUnit s :=
  ⟨fun _ => rfl, fun _ => rfl, fun _ => rfl, fun _ => rfl, fun _ => rfl, fun _ => rfl, fun _ => rfl, fun _ => rfl, fun _ => rfl, fun _ => rfl, fun _ => rfl, fun _ _ => rfl, fun _ => rfl, fun _ _ => rfl, fun _ _ _ => rfl, rfl, rfl, rfl⟩

@[simp] theorem setQue_reads (s : State) (q : Nat) (x : Queue) :
    (∀ k, rd (setQue s q x) k = rd s k) ∧ (∀ k, eng (setQue s q x) k = eng s k) ∧
    (∀ k, slotOf (setQue s q x) k = slotOf s k) ∧ (∀ k, ctxOf (setQue s q x) k = ctxOf s k) ∧
    (∀ k, fslot (setQue s q x) k = fslot s k) ∧ (∀ k, cxOf (setQue s q x) k = cxOf s k) ∧
    (∀ k, mcOf (setQue s q x) k = mcOf s k) ∧ (∀ k, arb (setQue s q x) k = arb s k) ∧
    (∀ k, pipeOf (setQue s q x) k = pipeOf s k) ∧ (∀ k, pipeAct (setQue s q x) k = pipeAct s k) ∧
    (∀ k, router (setQue s q x) k = router s k) ∧ (∀ k j, vec (setQue s q x) k j = vec s k j) ∧
    (∀ k, msixCtlOf (setQue s q x) k = msixCtlOf s k) ∧ (∀ k j, capVc (setQue s q x) k j = capVc s k j) ∧
    (∀ o l n, fld (setQue s q x) o l n = fld s o l n) ∧ aclk (setQue s q x) = aclk s ∧
    wake (setQue s q x) = wake s ∧ aclkUnit (setQue s q x) = aclkUnit s :=
  ⟨fun _ => rfl, fun _ => rfl, fun _ => rfl, fun _ => rfl, fun _ => rfl, fun _ => rfl, fun _ => rfl, fun _ => rfl, fun _ => rfl, fun _ => rfl, fun _ => rfl, fun _ _ => rfl, fun _ => rfl, fun _ _ => rfl, fun _ _ _ => rfl, rfl, rfl, rfl⟩

@[simp] theorem setSlot_reads (s : State) (n : Nat) (x : SlotSt) :
    (∀ k, rd (setSlot s n x) k = rd s k) ∧ (∀ k, eng (setSlot s n x) k = eng s k) ∧
    (∀ k, que (setSlot s n x) k = que s k) ∧ (∀ k, ctxOf (setSlot s n x) k = ctxOf s k) ∧
    (∀ k, fslot (setSlot s n x) k = fslot s k) ∧ (∀ k, cxOf (setSlot s n x) k = cxOf s k) ∧
    (∀ k, mcOf (setSlot s n x) k = mcOf s k) ∧ (∀ k, arb (setSlot s n x) k = arb s k) ∧
    (∀ k, pipeOf (setSlot s n x) k = pipeOf s k) ∧ (∀ k, pipeAct (setSlot s n x) k = pipeAct s k) ∧
    (∀ k, router (setSlot s n x) k = router s k) ∧ (∀ k j, vec (setSlot s n x) k j = vec s k j) ∧
    (∀ k, msixCtlOf (setSlot s n x) k = msixCtlOf s k) ∧ (∀ k j, capVc (setSlot s n x) k j = capVc s k j) ∧
    (∀ o l n, fld (setSlot s n x) o l n = fld s o l n) ∧ aclk (setSlot s n x) = aclk s ∧
    wake (setSlot s n x) = wake s ∧ aclkUnit (setSlot s n x) = aclkUnit s :=
  ⟨fun _ => rfl, fun _ => rfl, fun _ => rfl, fun _ => rfl, fun _ => rfl, fun _ => rfl, fun _ => rfl, fun _ => rfl, fun _ => rfl, fun _ => rfl, fun _ => rfl, fun _ _ => rfl, fun _ => rfl, fun _ _ => rfl, fun _ _ _ => rfl, rfl, rfl, rfl⟩

@[simp] theorem setCtx_reads (s : State) (i : Nat) (x : Ctx) :
    (∀ k, rd (setCtx s i x) k = rd s k) ∧ (∀ k, eng (setCtx s i x) k = eng s k) ∧
    (∀ k, que (setCtx s i x) k = que s k) ∧ (∀ k, slotOf (setCtx s i x) k = slotOf s k) ∧
    (∀ k, fslot (setCtx s i x) k = fslot s k) ∧ (∀ k, cxOf (setCtx s i x) k = cxOf s k) ∧
    (∀ k, mcOf (setCtx s i x) k = mcOf s k) ∧ (∀ k, arb (setCtx s i x) k = arb s k) ∧
    (∀ k, pipeOf (setCtx s i x) k = pipeOf s k) ∧ (∀ k, pipeAct (setCtx s i x) k = pipeAct s k) ∧
    (∀ k, router (setCtx s i x) k = router s k) ∧ (∀ k j, vec (setCtx s i x) k j = vec s k j) ∧
    (∀ k, msixCtlOf (setCtx s i x) k = msixCtlOf s k) ∧ (∀ k j, capVc (setCtx s i x) k j = capVc s k j) ∧
    (∀ o l n, fld (setCtx s i x) o l n = fld s o l n) ∧ aclk (setCtx s i x) = aclk s ∧
    wake (setCtx s i x) = wake s ∧ aclkUnit (setCtx s i x) = aclkUnit s :=
  ⟨fun _ => rfl, fun _ => rfl, fun _ => rfl, fun _ => rfl, fun _ => rfl, fun _ => rfl, fun _ => rfl, fun _ => rfl, fun _ => rfl, fun _ => rfl, fun _ => rfl, fun _ _ => rfl, fun _ => rfl, fun _ _ => rfl, fun _ _ _ => rfl, rfl, rfl, rfl⟩

@[simp] theorem updJob_reads (s : State) (key : Nat) (f : Job → Job) :
    (∀ k, rd (updJob s key f) k = rd s k) ∧ (∀ k, eng (updJob s key f) k = eng s k) ∧
    (∀ k, que (updJob s key f) k = que s k) ∧ (∀ k, slotOf (updJob s key f) k = slotOf s k) ∧
    (∀ k, ctxOf (updJob s key f) k = ctxOf s k) ∧ (∀ k, fslot (updJob s key f) k = fslot s k) ∧
    (∀ k, cxOf (updJob s key f) k = cxOf s k) ∧ (∀ k, mcOf (updJob s key f) k = mcOf s k) ∧
    (∀ k, arb (updJob s key f) k = arb s k) ∧ (∀ k, pipeOf (updJob s key f) k = pipeOf s k) ∧
    (∀ k, pipeAct (updJob s key f) k = pipeAct s k) ∧ (∀ k, router (updJob s key f) k = router s k) ∧
    (∀ k j, vec (updJob s key f) k j = vec s k j) ∧ (∀ k, msixCtlOf (updJob s key f) k = msixCtlOf s k) ∧
    (∀ k j, capVc (updJob s key f) k j = capVc s k j) ∧ (∀ o l n, fld (updJob s key f) o l n = fld s o l n) ∧
    aclk (updJob s key f) = aclk s ∧ wake (updJob s key f) = wake s ∧ aclkUnit (updJob s key f) = aclkUnit s :=
  ⟨fun _ => rfl, fun _ => rfl, fun _ => rfl, fun _ => rfl, fun _ => rfl, fun _ => rfl, fun _ => rfl, fun _ => rfl, fun _ => rfl, fun _ => rfl, fun _ => rfl, fun _ => rfl, fun _ _ => rfl, fun _ => rfl, fun _ _ => rfl, fun _ _ _ => rfl, rfl, rfl, rfl⟩

@[simp] theorem relocFlush_reads (s : State) (c : Nat) :
    (∀ k, rd (relocFlush s c) k = rd s k) ∧ (∀ k, eng (relocFlush s c) k = eng s k) ∧
    (∀ k, que (relocFlush s c) k = que s k) ∧ (∀ k, slotOf (relocFlush s c) k = slotOf s k) ∧
    (∀ k, ctxOf (relocFlush s c) k = ctxOf s k) ∧ (∀ k, fslot (relocFlush s c) k = fslot s k) ∧
    (∀ k, cxOf (relocFlush s c) k = cxOf s k) ∧ (∀ k, mcOf (relocFlush s c) k = mcOf s k) ∧
    (∀ k, arb (relocFlush s c) k = arb s k) ∧ (∀ k, pipeOf (relocFlush s c) k = pipeOf s k) ∧
    (∀ k, pipeAct (relocFlush s c) k = pipeAct s k) ∧ (∀ k, router (relocFlush s c) k = router s k) ∧
    (∀ k j, vec (relocFlush s c) k j = vec s k j) ∧ (∀ k, msixCtlOf (relocFlush s c) k = msixCtlOf s k) ∧
    (∀ k j, capVc (relocFlush s c) k j = capVc s k j) ∧ (∀ o l n, fld (relocFlush s c) o l n = fld s o l n) ∧
    aclk (relocFlush s c) = aclk s ∧ wake (relocFlush s c) = wake s ∧ aclkUnit (relocFlush s c) = aclkUnit s :=
  ⟨fun _ => rfl, fun _ => rfl, fun _ => rfl, fun _ => rfl, fun _ => rfl, fun _ => rfl, fun _ => rfl, fun _ => rfl, fun _ => rfl, fun _ => rfl, fun _ => rfl, fun _ => rfl, fun _ _ => rfl, fun _ => rfl, fun _ _ => rfl, fun _ _ _ => rfl, rfl, rfl, rfl⟩

@[simp] theorem setFslot_reads (s : State) (n : Nat) (x : FSlot) :
    (∀ k, rd (setFslot s n x) k = rd s k) ∧ (∀ k, eng (setFslot s n x) k = eng s k) ∧
    (∀ k, que (setFslot s n x) k = que s k) ∧ (∀ k, slotOf (setFslot s n x) k = slotOf s k) ∧
    (∀ k, ctxOf (setFslot s n x) k = ctxOf s k) ∧ (∀ k, cxOf (setFslot s n x) k = cxOf s k) ∧
    (∀ k, mcOf (setFslot s n x) k = mcOf s k) ∧ (∀ k, arb (setFslot s n x) k = arb s k) ∧
    (∀ k, pipeOf (setFslot s n x) k = pipeOf s k) ∧ (∀ k, pipeAct (setFslot s n x) k = pipeAct s k) ∧
    (∀ k, router (setFslot s n x) k = router s k) ∧ (∀ k j, vec (setFslot s n x) k j = vec s k j) ∧
    (∀ k, msixCtlOf (setFslot s n x) k = msixCtlOf s k) ∧ (∀ k j, capVc (setFslot s n x) k j = capVc s k j) ∧
    (∀ o l n, fld (setFslot s n x) o l n = fld s o l n) ∧ aclk (setFslot s n x) = aclk s ∧
    wake (setFslot s n x) = wake s ∧ aclkUnit (setFslot s n x) = aclkUnit s :=
  ⟨fun _ => rfl, fun _ => rfl, fun _ => rfl, fun _ => rfl, fun _ => rfl, fun _ => rfl, fun _ => rfl, fun _ => rfl, fun _ => rfl, fun _ => rfl, fun _ => rfl, fun _ _ => rfl, fun _ => rfl, fun _ _ => rfl, fun _ _ _ => rfl, rfl, rfl, rfl⟩

@[simp] theorem resumeTableWaits_reads (s : State) :
    (∀ k, rd (resumeTableWaits s) k = rd s k) ∧ (∀ k, eng (resumeTableWaits s) k = eng s k) ∧
    (∀ k, que (resumeTableWaits s) k = que s k) ∧ (∀ k, ctxOf (resumeTableWaits s) k = ctxOf s k) ∧
    (∀ k, fslot (resumeTableWaits s) k = fslot s k) ∧ (∀ k, cxOf (resumeTableWaits s) k = cxOf s k) ∧
    (∀ k, mcOf (resumeTableWaits s) k = mcOf s k) ∧ (∀ k, arb (resumeTableWaits s) k = arb s k) ∧
    (∀ k, pipeOf (resumeTableWaits s) k = pipeOf s k) ∧ (∀ k, pipeAct (resumeTableWaits s) k = pipeAct s k) ∧
    (∀ k, router (resumeTableWaits s) k = router s k) ∧ (∀ k j, vec (resumeTableWaits s) k j = vec s k j) ∧
    (∀ k, msixCtlOf (resumeTableWaits s) k = msixCtlOf s k) ∧
    (∀ k j, capVc (resumeTableWaits s) k j = capVc s k j) ∧
    (∀ o l n, fld (resumeTableWaits s) o l n = fld s o l n) ∧ aclk (resumeTableWaits s) = aclk s ∧
    wake (resumeTableWaits s) = wake s ∧ aclkUnit (resumeTableWaits s) = aclkUnit s :=
  ⟨fun _ => rfl, fun _ => rfl, fun _ => rfl, fun _ => rfl, fun _ => rfl, fun _ => rfl, fun _ => rfl, fun _ => rfl, fun _ => rfl, fun _ => rfl, fun _ => rfl, fun _ _ => rfl, fun _ => rfl, fun _ _ => rfl, fun _ _ _ => rfl, rfl, rfl, rfl⟩

@[simp] theorem updPass_reads (s : State) (p : Nat) (f : Pass → Pass) :
    (∀ k, rd (updPass s p f) k = rd s k) ∧ (∀ k, eng (updPass s p f) k = eng s k) ∧
    (∀ k, que (updPass s p f) k = que s k) ∧ (∀ k, slotOf (updPass s p f) k = slotOf s k) ∧
    (∀ k, ctxOf (updPass s p f) k = ctxOf s k) ∧ (∀ k, fslot (updPass s p f) k = fslot s k) ∧
    (∀ k, cxOf (updPass s p f) k = cxOf s k) ∧ (∀ k, mcOf (updPass s p f) k = mcOf s k) ∧
    (∀ k, arb (updPass s p f) k = arb s k) ∧ (∀ k, pipeOf (updPass s p f) k = pipeOf s k) ∧
    (∀ k, pipeAct (updPass s p f) k = pipeAct s k) ∧ (∀ k, router (updPass s p f) k = router s k) ∧
    (∀ k j, vec (updPass s p f) k j = vec s k j) ∧ (∀ k, msixCtlOf (updPass s p f) k = msixCtlOf s k) ∧
    (∀ k j, capVc (updPass s p f) k j = capVc s k j) ∧ (∀ o l n, fld (updPass s p f) o l n = fld s o l n) ∧
    aclk (updPass s p f) = aclk s ∧ wake (updPass s p f) = wake s ∧ aclkUnit (updPass s p f) = aclkUnit s :=
  ⟨fun _ => rfl, fun _ => rfl, fun _ => rfl, fun _ => rfl, fun _ => rfl, fun _ => rfl, fun _ => rfl, fun _ => rfl, fun _ => rfl, fun _ => rfl, fun _ => rfl, fun _ => rfl, fun _ _ => rfl, fun _ => rfl, fun _ _ => rfl, fun _ _ _ => rfl, rfl, rfl, rfl⟩

@[simp] theorem updModel_reads (s : State) (f : Model → Model) :
    (∀ k, rd (updModel s f) k = rd s k) ∧ (∀ k, eng (updModel s f) k = eng s k) ∧
    (∀ k, que (updModel s f) k = que s k) ∧ (∀ k, slotOf (updModel s f) k = slotOf s k) ∧
    (∀ k, ctxOf (updModel s f) k = ctxOf s k) ∧ (∀ k, fslot (updModel s f) k = fslot s k) ∧
    (∀ k, cxOf (updModel s f) k = cxOf s k) ∧ (∀ k, mcOf (updModel s f) k = mcOf s k) ∧
    (∀ k, arb (updModel s f) k = arb s k) ∧ (∀ k, pipeOf (updModel s f) k = pipeOf s k) ∧
    (∀ k, pipeAct (updModel s f) k = pipeAct s k) ∧ (∀ k, router (updModel s f) k = router s k) ∧
    (∀ k j, vec (updModel s f) k j = vec s k j) ∧ (∀ k, msixCtlOf (updModel s f) k = msixCtlOf s k) ∧
    (∀ k j, capVc (updModel s f) k j = capVc s k j) ∧ (∀ o l n, fld (updModel s f) o l n = fld s o l n) ∧
    aclk (updModel s f) = aclk s ∧ wake (updModel s f) = wake s ∧ aclkUnit (updModel s f) = aclkUnit s :=
  ⟨fun _ => rfl, fun _ => rfl, fun _ => rfl, fun _ => rfl, fun _ => rfl, fun _ => rfl, fun _ => rfl, fun _ => rfl, fun _ => rfl, fun _ => rfl, fun _ => rfl, fun _ => rfl, fun _ _ => rfl, fun _ => rfl, fun _ _ => rfl, fun _ _ _ => rfl, rfl, rfl, rfl⟩

@[simp] theorem updDisp_reads (s : State) (key : Nat) (f : Disp → Disp) :
    (∀ k, rd (updDisp s key f) k = rd s k) ∧ (∀ k, eng (updDisp s key f) k = eng s k) ∧
    (∀ k, que (updDisp s key f) k = que s k) ∧ (∀ k, slotOf (updDisp s key f) k = slotOf s k) ∧
    (∀ k, ctxOf (updDisp s key f) k = ctxOf s k) ∧ (∀ k, fslot (updDisp s key f) k = fslot s k) ∧
    (∀ k, cxOf (updDisp s key f) k = cxOf s k) ∧ (∀ k, mcOf (updDisp s key f) k = mcOf s k) ∧
    (∀ k, arb (updDisp s key f) k = arb s k) ∧ (∀ k, pipeOf (updDisp s key f) k = pipeOf s k) ∧
    (∀ k, pipeAct (updDisp s key f) k = pipeAct s k) ∧ (∀ k, router (updDisp s key f) k = router s k) ∧
    (∀ k j, vec (updDisp s key f) k j = vec s k j) ∧ (∀ k, msixCtlOf (updDisp s key f) k = msixCtlOf s k) ∧
    (∀ k j, capVc (updDisp s key f) k j = capVc s k j) ∧ (∀ o l n, fld (updDisp s key f) o l n = fld s o l n) ∧
    aclk (updDisp s key f) = aclk s ∧ wake (updDisp s key f) = wake s ∧ aclkUnit (updDisp s key f) = aclkUnit s :=
  ⟨fun _ => rfl, fun _ => rfl, fun _ => rfl, fun _ => rfl, fun _ => rfl, fun _ => rfl, fun _ => rfl, fun _ => rfl, fun _ => rfl, fun _ => rfl, fun _ => rfl, fun _ => rfl, fun _ _ => rfl, fun _ => rfl, fun _ _ => rfl, fun _ _ _ => rfl, rfl, rfl, rfl⟩

@[simp] theorem updPre_reads (s : State) (key : Nat) (f : Pre → Pre) :
    (∀ k, rd (updPre s key f) k = rd s k) ∧ (∀ k, eng (updPre s key f) k = eng s k) ∧
    (∀ k, que (updPre s key f) k = que s k) ∧ (∀ k, slotOf (updPre s key f) k = slotOf s k) ∧
    (∀ k, ctxOf (updPre s key f) k = ctxOf s k) ∧ (∀ k, fslot (updPre s key f) k = fslot s k) ∧
    (∀ k, cxOf (updPre s key f) k = cxOf s k) ∧ (∀ k, mcOf (updPre s key f) k = mcOf s k) ∧
    (∀ k, arb (updPre s key f) k = arb s k) ∧ (∀ k, pipeOf (updPre s key f) k = pipeOf s k) ∧
    (∀ k, pipeAct (updPre s key f) k = pipeAct s k) ∧ (∀ k, router (updPre s key f) k = router s k) ∧
    (∀ k j, vec (updPre s key f) k j = vec s k j) ∧ (∀ k, msixCtlOf (updPre s key f) k = msixCtlOf s k) ∧
    (∀ k j, capVc (updPre s key f) k j = capVc s k j) ∧ (∀ o l n, fld (updPre s key f) o l n = fld s o l n) ∧
    aclk (updPre s key f) = aclk s ∧ wake (updPre s key f) = wake s ∧ aclkUnit (updPre s key f) = aclkUnit s :=
  ⟨fun _ => rfl, fun _ => rfl, fun _ => rfl, fun _ => rfl, fun _ => rfl, fun _ => rfl, fun _ => rfl, fun _ => rfl, fun _ => rfl, fun _ => rfl, fun _ => rfl, fun _ => rfl, fun _ _ => rfl, fun _ => rfl, fun _ _ => rfl, fun _ _ _ => rfl, rfl, rfl, rfl⟩

@[simp] theorem setCx_reads (s : State) (k : Nat) (x : CxSt) :
    (∀ k, rd (setCx s k x) k = rd s k) ∧ (∀ k, eng (setCx s k x) k = eng s k) ∧
    (∀ k, que (setCx s k x) k = que s k) ∧ (∀ k, slotOf (setCx s k x) k = slotOf s k) ∧
    (∀ k, ctxOf (setCx s k x) k = ctxOf s k) ∧ (∀ k, fslot (setCx s k x) k = fslot s k) ∧
    (∀ k, mcOf (setCx s k x) k = mcOf s k) ∧ (∀ k, arb (setCx s k x) k = arb s k) ∧
    (∀ k, pipeOf (setCx s k x) k = pipeOf s k) ∧ (∀ k, pipeAct (setCx s k x) k = pipeAct s k) ∧
    (∀ k, router (setCx s k x) k = router s k) ∧ (∀ k j, vec (setCx s k x) k j = vec s k j) ∧
    (∀ k, msixCtlOf (setCx s k x) k = msixCtlOf s k) ∧ (∀ k j, capVc (setCx s k x) k j = capVc s k j) ∧
    (∀ o l n, fld (setCx s k x) o l n = fld s o l n) ∧ aclk (setCx s k x) = aclk s ∧ wake (setCx s k x) = wake s ∧
    aclkUnit (setCx s k x) = aclkUnit s :=
  ⟨fun _ => rfl, fun _ => rfl, fun _ => rfl, fun _ => rfl, fun _ => rfl, fun _ => rfl, fun _ => rfl, fun _ => rfl, fun _ => rfl, fun _ => rfl, fun _ => rfl, fun _ _ => rfl, fun _ => rfl, fun _ _ => rfl, fun _ _ _ => rfl, rfl, rfl, rfl⟩

@[simp] theorem dropGroups_reads (s : State) (key : Nat) (gs : List Nat) :
    (∀ k, rd (dropGroups s key gs) k = rd s k) ∧ (∀ k, que (dropGroups s key gs) k = que s k) ∧
    (∀ k, slotOf (dropGroups s key gs) k = slotOf s k) ∧ (∀ k, ctxOf (dropGroups s key gs) k = ctxOf s k) ∧
    (∀ k, fslot (dropGroups s key gs) k = fslot s k) ∧ (∀ k, cxOf (dropGroups s key gs) k = cxOf s k) ∧
    (∀ k, mcOf (dropGroups s key gs) k = mcOf s k) ∧ (∀ k, arb (dropGroups s key gs) k = arb s k) ∧
    (∀ k, pipeOf (dropGroups s key gs) k = pipeOf s k) ∧ (∀ k, pipeAct (dropGroups s key gs) k = pipeAct s k) ∧
    (∀ k, router (dropGroups s key gs) k = router s k) ∧ (∀ k j, vec (dropGroups s key gs) k j = vec s k j) ∧
    (∀ k, msixCtlOf (dropGroups s key gs) k = msixCtlOf s k) ∧
    (∀ k j, capVc (dropGroups s key gs) k j = capVc s k j) ∧
    (∀ o l n, fld (dropGroups s key gs) o l n = fld s o l n) ∧ aclk (dropGroups s key gs) = aclk s ∧
    wake (dropGroups s key gs) = wake s ∧ aclkUnit (dropGroups s key gs) = aclkUnit s :=
  ⟨fun _ => rfl, fun _ => rfl, fun _ => rfl, fun _ => rfl, fun _ => rfl, fun _ => rfl, fun _ => rfl, fun _ => rfl, fun _ => rfl, fun _ => rfl, fun _ => rfl, fun _ _ => rfl, fun _ => rfl, fun _ _ => rfl, fun _ _ _ => rfl, rfl, rfl, rfl⟩

@[simp] theorem setPipe_reads (s : State) (p : Nat) (x : PipeSt) :
    (∀ k, rd (setPipe s p x) k = rd s k) ∧ (∀ k, eng (setPipe s p x) k = eng s k) ∧
    (∀ k, que (setPipe s p x) k = que s k) ∧ (∀ k, slotOf (setPipe s p x) k = slotOf s k) ∧
    (∀ k, ctxOf (setPipe s p x) k = ctxOf s k) ∧ (∀ k, fslot (setPipe s p x) k = fslot s k) ∧
    (∀ k, cxOf (setPipe s p x) k = cxOf s k) ∧ (∀ k, mcOf (setPipe s p x) k = mcOf s k) ∧
    (∀ k, arb (setPipe s p x) k = arb s k) ∧ (∀ k, pipeAct (setPipe s p x) k = pipeAct s k) ∧
    (∀ k, router (setPipe s p x) k = router s k) ∧ (∀ k j, vec (setPipe s p x) k j = vec s k j) ∧
    (∀ k, msixCtlOf (setPipe s p x) k = msixCtlOf s k) ∧ (∀ k j, capVc (setPipe s p x) k j = capVc s k j) ∧
    (∀ o l n, fld (setPipe s p x) o l n = fld s o l n) ∧ aclk (setPipe s p x) = aclk s ∧
    wake (setPipe s p x) = wake s ∧ aclkUnit (setPipe s p x) = aclkUnit s :=
  ⟨fun _ => rfl, fun _ => rfl, fun _ => rfl, fun _ => rfl, fun _ => rfl, fun _ => rfl, fun _ => rfl, fun _ => rfl, fun _ => rfl, fun _ => rfl, fun _ => rfl, fun _ _ => rfl, fun _ => rfl, fun _ _ => rfl, fun _ _ _ => rfl, rfl, rfl, rfl⟩

@[simp] theorem updReset_reads (s : State) (p : Nat) (f : PReset → PReset) :
    (∀ k, rd (updReset s p f) k = rd s k) ∧ (∀ k, eng (updReset s p f) k = eng s k) ∧
    (∀ k, que (updReset s p f) k = que s k) ∧ (∀ k, slotOf (updReset s p f) k = slotOf s k) ∧
    (∀ k, ctxOf (updReset s p f) k = ctxOf s k) ∧ (∀ k, fslot (updReset s p f) k = fslot s k) ∧
    (∀ k, cxOf (updReset s p f) k = cxOf s k) ∧ (∀ k, mcOf (updReset s p f) k = mcOf s k) ∧
    (∀ k, arb (updReset s p f) k = arb s k) ∧ (∀ k, pipeOf (updReset s p f) k = pipeOf s k) ∧
    (∀ k, pipeAct (updReset s p f) k = pipeAct s k) ∧ (∀ k, router (updReset s p f) k = router s k) ∧
    (∀ k j, vec (updReset s p f) k j = vec s k j) ∧ (∀ k, msixCtlOf (updReset s p f) k = msixCtlOf s k) ∧
    (∀ k j, capVc (updReset s p f) k j = capVc s k j) ∧ (∀ o l n, fld (updReset s p f) o l n = fld s o l n) ∧
    aclk (updReset s p f) = aclk s ∧ wake (updReset s p f) = wake s ∧ aclkUnit (updReset s p f) = aclkUnit s :=
  ⟨fun _ => rfl, fun _ => rfl, fun _ => rfl, fun _ => rfl, fun _ => rfl, fun _ => rfl, fun _ => rfl, fun _ => rfl, fun _ => rfl, fun _ => rfl, fun _ => rfl, fun _ => rfl, fun _ _ => rfl, fun _ => rfl, fun _ _ => rfl, fun _ _ _ => rfl, rfl, rfl, rfl⟩

@[simp] theorem resetRaised_reads (s : State) (p : Nat) :
    (∀ k, rd (resetRaised s p) k = rd s k) ∧ (∀ k, eng (resetRaised s p) k = eng s k) ∧
    (∀ k, que (resetRaised s p) k = que s k) ∧ (∀ k, slotOf (resetRaised s p) k = slotOf s k) ∧
    (∀ k, ctxOf (resetRaised s p) k = ctxOf s k) ∧ (∀ k, fslot (resetRaised s p) k = fslot s k) ∧
    (∀ k, cxOf (resetRaised s p) k = cxOf s k) ∧ (∀ k, mcOf (resetRaised s p) k = mcOf s k) ∧
    (∀ k, pipeOf (resetRaised s p) k = pipeOf s k) ∧ (∀ k, pipeAct (resetRaised s p) k = pipeAct s k) ∧
    (∀ k, router (resetRaised s p) k = router s k) ∧ (∀ k j, vec (resetRaised s p) k j = vec s k j) ∧
    (∀ k, msixCtlOf (resetRaised s p) k = msixCtlOf s k) ∧ (∀ k j, capVc (resetRaised s p) k j = capVc s k j) ∧
    (∀ o l n, fld (resetRaised s p) o l n = fld s o l n) ∧ aclk (resetRaised s p) = aclk s ∧
    wake (resetRaised s p) = wake s ∧ aclkUnit (resetRaised s p) = aclkUnit s :=
  ⟨fun _ => rfl, fun _ => rfl, fun _ => rfl, fun _ => rfl, fun _ => rfl, fun _ => rfl, fun _ => rfl, fun _ => rfl, fun _ => rfl, fun _ => rfl, fun _ => rfl, fun _ _ => rfl, fun _ => rfl, fun _ _ => rfl, fun _ _ _ => rfl, rfl, rfl, rfl⟩

@[simp] theorem resetVectors_reads (s : State) (p : Nat) :
    (∀ k, rd (resetVectors s p) k = rd s k) ∧ (∀ k, eng (resetVectors s p) k = eng s k) ∧
    (∀ k, que (resetVectors s p) k = que s k) ∧ (∀ k, slotOf (resetVectors s p) k = slotOf s k) ∧
    (∀ k, ctxOf (resetVectors s p) k = ctxOf s k) ∧ (∀ k, fslot (resetVectors s p) k = fslot s k) ∧
    (∀ k, cxOf (resetVectors s p) k = cxOf s k) ∧ (∀ k, mcOf (resetVectors s p) k = mcOf s k) ∧
    (∀ k, arb (resetVectors s p) k = arb s k) ∧ (∀ k, pipeOf (resetVectors s p) k = pipeOf s k) ∧
    (∀ k, pipeAct (resetVectors s p) k = pipeAct s k) ∧ (∀ k, router (resetVectors s p) k = router s k) ∧
    (∀ k, msixCtlOf (resetVectors s p) k = msixCtlOf s k) ∧ (∀ k j, capVc (resetVectors s p) k j = capVc s k j) ∧
    (∀ o l n, fld (resetVectors s p) o l n = fld s o l n) ∧ aclk (resetVectors s p) = aclk s ∧
    wake (resetVectors s p) = wake s ∧ aclkUnit (resetVectors s p) = aclkUnit s :=
  ⟨fun _ => rfl, fun _ => rfl, fun _ => rfl, fun _ => rfl, fun _ => rfl, fun _ => rfl, fun _ => rfl, fun _ => rfl, fun _ => rfl, fun _ => rfl, fun _ => rfl, fun _ => rfl, fun _ => rfl, fun _ _ => rfl, fun _ _ _ => rfl, rfl, rfl, rfl⟩

@[simp] theorem restoreFlc_reads (s : State) :
    (∀ k, rd (restoreFlc s) k = rd s k) ∧ (∀ k, que (restoreFlc s) k = que s k) ∧
    (∀ k, slotOf (restoreFlc s) k = slotOf s k) ∧ (∀ k, ctxOf (restoreFlc s) k = ctxOf s k) ∧
    (∀ k, fslot (restoreFlc s) k = fslot s k) ∧ (∀ k, cxOf (restoreFlc s) k = cxOf s k) ∧
    (∀ k, mcOf (restoreFlc s) k = mcOf s k) ∧ (∀ k, arb (restoreFlc s) k = arb s k) ∧
    (∀ k, pipeOf (restoreFlc s) k = pipeOf s k) ∧ (∀ k, pipeAct (restoreFlc s) k = pipeAct s k) ∧
    (∀ k, router (restoreFlc s) k = router s k) ∧ (∀ k j, vec (restoreFlc s) k j = vec s k j) ∧
    (∀ k, msixCtlOf (restoreFlc s) k = msixCtlOf s k) ∧ (∀ k j, capVc (restoreFlc s) k j = capVc s k j) ∧
    (∀ o l n, fld (restoreFlc s) o l n = fld s o l n) ∧ aclk (restoreFlc s) = aclk s ∧
    wake (restoreFlc s) = wake s ∧ aclkUnit (restoreFlc s) = aclkUnit s :=
  ⟨fun _ => rfl, fun _ => rfl, fun _ => rfl, fun _ => rfl, fun _ => rfl, fun _ => rfl, fun _ => rfl, fun _ => rfl, fun _ => rfl, fun _ => rfl, fun _ => rfl, fun _ _ => rfl, fun _ => rfl, fun _ _ => rfl, fun _ _ _ => rfl, rfl, rfl, rfl⟩

@[simp] theorem setRouter_reads (s : State) (r : Nat) (x : Router) :
    (∀ k, rd (setRouter s r x) k = rd s k) ∧ (∀ k, eng (setRouter s r x) k = eng s k) ∧
    (∀ k, que (setRouter s r x) k = que s k) ∧ (∀ k, slotOf (setRouter s r x) k = slotOf s k) ∧
    (∀ k, ctxOf (setRouter s r x) k = ctxOf s k) ∧ (∀ k, fslot (setRouter s r x) k = fslot s k) ∧
    (∀ k, cxOf (setRouter s r x) k = cxOf s k) ∧ (∀ k, mcOf (setRouter s r x) k = mcOf s k) ∧
    (∀ k, arb (setRouter s r x) k = arb s k) ∧ (∀ k, pipeOf (setRouter s r x) k = pipeOf s k) ∧
    (∀ k, pipeAct (setRouter s r x) k = pipeAct s k) ∧ (∀ k j, vec (setRouter s r x) k j = vec s k j) ∧
    (∀ k, msixCtlOf (setRouter s r x) k = msixCtlOf s k) ∧ (∀ k j, capVc (setRouter s r x) k j = capVc s k j) ∧
    (∀ o l n, fld (setRouter s r x) o l n = fld s o l n) ∧ aclk (setRouter s r x) = aclk s ∧
    wake (setRouter s r x) = wake s ∧ aclkUnit (setRouter s r x) = aclkUnit s :=
  ⟨fun _ => rfl, fun _ => rfl, fun _ => rfl, fun _ => rfl, fun _ => rfl, fun _ => rfl, fun _ => rfl, fun _ => rfl, fun _ => rfl, fun _ => rfl, fun _ => rfl, fun _ _ => rfl, fun _ => rfl, fun _ _ => rfl, fun _ _ _ => rfl, rfl, rfl, rfl⟩

/-! Reading back what was set. -/

@[simp] theorem eng_setEng_self (s : State) (k : Nat) (x : Engine) : eng (setEng s k x) k = x :=
  tabGet_put_same _ k x _

theorem eng_setEng (s : State) (k j : Nat) (x : Engine) : eng (setEng s k x) j = if j = k then x else eng s j :=
  tabGet_put _ k j x _

@[simp] theorem que_setQue_self (s : State) (k : Nat) (x : Queue) : que (setQue s k x) k = x :=
  tabGet_put_same _ k x _

theorem que_setQue (s : State) (k j : Nat) (x : Queue) : que (setQue s k x) j = if j = k then x else que s j :=
  tabGet_put _ k j x _

@[simp] theorem slotOf_setSlot_self (s : State) (k : Nat) (x : SlotSt) : slotOf (setSlot s k x) k = x :=
  tabGet_put_same _ k x _

theorem slotOf_setSlot (s : State) (k j : Nat) (x : SlotSt) : slotOf (setSlot s k x) j = if j = k then x else slotOf s j :=
  tabGet_put _ k j x _

@[simp] theorem ctxOf_setCtx_self (s : State) (k : Nat) (x : Ctx) : ctxOf (setCtx s k x) k = x :=
  tabGet_put_same _ k x _

theorem ctxOf_setCtx (s : State) (k j : Nat) (x : Ctx) : ctxOf (setCtx s k x) j = if j = k then x else ctxOf s j :=
  tabGet_put _ k j x _

@[simp] theorem fslot_setFslot_self (s : State) (k : Nat) (x : FSlot) : fslot (setFslot s k x) k = x :=
  tabGet_put_same _ k x _

theorem fslot_setFslot (s : State) (k j : Nat) (x : FSlot) : fslot (setFslot s k x) j = if j = k then x else fslot s j :=
  tabGet_put _ k j x _

@[simp] theorem cxOf_setCx_self (s : State) (k : Nat) (x : CxSt) : cxOf (setCx s k x) k = x :=
  tabGet_put_same _ k x _

theorem cxOf_setCx (s : State) (k j : Nat) (x : CxSt) : cxOf (setCx s k x) j = if j = k then x else cxOf s j :=
  tabGet_put _ k j x _

@[simp] theorem mcOf_setMc_self (s : State) (k : Nat) (x : McSt) : mcOf (setMc s k x) k = x :=
  tabGet_put_same _ k x _

theorem mcOf_setMc (s : State) (k j : Nat) (x : McSt) : mcOf (setMc s k x) j = if j = k then x else mcOf s j :=
  tabGet_put _ k j x _

@[simp] theorem arb_setArb_self (s : State) (k : Nat) (x : ArbSt) : arb (setArb s k x) k = x :=
  tabGet_put_same _ k x _

theorem arb_setArb (s : State) (k j : Nat) (x : ArbSt) : arb (setArb s k x) j = if j = k then x else arb s j :=
  tabGet_put _ k j x _

@[simp] theorem pipeOf_setPipe_self (s : State) (k : Nat) (x : PipeSt) : pipeOf (setPipe s k x) k = x :=
  tabGet_put_same _ k x _

theorem pipeOf_setPipe (s : State) (k j : Nat) (x : PipeSt) : pipeOf (setPipe s k x) j = if j = k then x else pipeOf s j :=
  tabGet_put _ k j x _

@[simp] theorem router_setRouter_self (s : State) (k : Nat) (x : Router) : router (setRouter s k x) k = x :=
  tabGet_put_same _ k x _

theorem router_setRouter (s : State) (k j : Nat) (x : Router) : router (setRouter s k x) j = if j = k then x else router s j :=
  tabGet_put _ k j x _

theorem vec_setVec (s : State) (p v p' v' : Nat) (x : Msix) :
    vec (setVec s p v x) p' v' = if 64 * p' + v' = 64 * p + v then x else vec s p' v' :=
  tabGet_put _ _ _ x _

theorem capVc_setCapVc (s : State) (p v p' v' : Nat) (x : CapVc) :
    capVc (setCapVc s p v x) p' v' = if 4 * p' + v' = 4 * p + v then x else capVc s p' v' :=
  tabGet_put _ _ _ x _

/-- A register written reads as the low 32 bits of the word. -/
@[simp] theorem rd_wr_self (s : State) (o v : Nat) : rd (wr s o v) o = v % 2 ^ 32 := by
  unfold rd wr
  dsimp only
  rw [tabGet_put_same, BitVec.toNat_ofNat]

/-- Writing a register leaves every other register. -/
theorem rd_wr_other (s : State) {o o' : Nat} (h : o' ≠ o) (v : Nat) : rd (wr s o v) o' = rd s o' := by
  unfold rd wr
  dsimp only
  rw [tabGet_put_other _ h]

theorem rd_wr (s : State) (o o' v : Nat) : rd (wr s o v) o' = if o' = o then v % 2 ^ 32 else rd s o' := by
  split
  · rename_i h; subst h; exact rd_wr_self s _ v
  · rename_i h; exact rd_wr_other s h v

theorem rd_lt (s : State) (o : Nat) : rd s o < 2 ^ 32 := (tabGet resetWord o s.regs).isLt

/-- A write of one register changes that register alone. -/
theorem wr_regsBut (s : State) (o v : Nat) : RegsBut [o] s (wr s o v) := by
  intro off h
  exact rd_wr_other s (by simpa using h) v

theorem setFld_regsBut (s : State) (o lo n v : Nat) : RegsBut [o] s (setFld s o lo n v) := wr_regsBut s o _

theorem bump_regsBut (s : State) (o k : Nat) : RegsBut [o] s (bump s o k) := wr_regsBut s o _

end Sys2Proof.Machine
end

