-- ==== Sys2Proof/Laws/Bits.lean ====
section
/-!
SUPPORT. Bit fields of words and of registers: what is read of a field that was set, and of the others.
-/
namespace Sys2Proof.Machine

set_option Elab.async false

theorem bits_lt (w lo n : Nat) : bits w lo n < 2 ^ n := Nat.mod_lt _ (Nat.two_pow_pos n)

@[simp] theorem bits_zero (lo n : Nat) : bits 0 lo n = 0 := by simp [bits]

theorem hi32_eq (x : Nat) : hi32 x = x * 2 ^ 32 := Nat.shiftLeft_eq x 32

theorem bit_eq (w i : Nat) : bit w i = decide (bits w i 1 = 1) := by
  unfold bit bits
  rw [Nat.pow_one]
  rfl

/-- A word is the part above a field, the field and the part below it. -/
theorem bits_split (w lo n : Nat) :
    w = w / 2 ^ (lo + n) * 2 ^ (lo + n) + bits w lo n * 2 ^ lo + w % 2 ^ lo := by
  have h1 := Nat.div_add_mod w (2 ^ lo)
  have h2 := Nat.div_add_mod (w / 2 ^ lo) (2 ^ n)
  rw [Nat.div_div_eq_div_mul, ← pow_add] at h2
  unfold bits
  calc w = 2 ^ lo * (w / 2 ^ lo) + w % 2 ^ lo := h1.symm
    _ = 2 ^ lo * (2 ^ n * (w / 2 ^ (lo + n)) + w / 2 ^ lo % 2 ^ n) + w % 2 ^ lo := by rw [h2]
    _ = _ := by rw [pow_add]; ring

theorem setBits_eq (w lo n v : Nat) :
    setBits w lo n v = w / 2 ^ (lo + n) * 2 ^ (lo + n) + v % 2 ^ n * 2 ^ lo + w % 2 ^ lo := by
  have h := bits_split w lo n
  unfold setBits
  omega

theorem setBits_testBit (w lo n v i : Nat) : (setBits w lo n v).testBit i =
    if lo ≤ i ∧ i < lo + n then v.testBit (i - lo) else w.testBit i := by
  have e : setBits w lo n v = 2 ^ lo * (2 ^ n * (w / 2 ^ (lo + n)) + v % 2 ^ n) + w % 2 ^ lo := by
    rw [setBits_eq, pow_add]; ring
  rw [e, Nat.testBit_two_pow_mul_add _ (Nat.mod_lt _ (Nat.two_pow_pos lo))]
  by_cases h1 : i < lo
  · rw [if_pos h1, if_neg (by omega), Nat.testBit_mod_two_pow]
    simp [h1]
  · rw [if_neg h1, Nat.testBit_two_pow_mul_add _ (Nat.mod_lt _ (Nat.two_pow_pos n))]
    by_cases h2 : i < lo + n
    · rw [if_pos (by omega), if_pos (by omega), Nat.testBit_mod_two_pow]
      have : i - lo < n := by omega
      simp [this]
    · rw [if_neg (by omega), if_neg (by omega), Nat.testBit_div_two_pow]
      congr 1
      omega

theorem bits_testBit (w lo n i : Nat) : (bits w lo n).testBit i = (decide (i < n) && w.testBit (lo + i)) := by
  unfold bits
  rw [Nat.testBit_mod_two_pow, Nat.testBit_div_two_pow, Nat.add_comm]

/-- A field reads as the value it was set to, taken to its width. -/
@[simp] theorem bits_setBits_same (w lo n v : Nat) : bits (setBits w lo n v) lo n = v % 2 ^ n := by
  apply Nat.eq_of_testBit_eq
  intro i
  rw [bits_testBit, setBits_testBit, Nat.testBit_mod_two_pow]
  by_cases h : i < n
  · rw [if_pos (by omega)]; simp
  · simp [h]

/-- Setting a field leaves a field that has no bit of it. -/
theorem bits_setBits_other (w lo n v : Nat) {lo' n' : Nat} (h : lo' + n' ≤ lo ∨ lo + n ≤ lo') :
    bits (setBits w lo n v) lo' n' = bits w lo' n' := by
  apply Nat.eq_of_testBit_eq
  intro i
  rw [bits_testBit, bits_testBit, setBits_testBit]
  by_cases h' : i < n'
  · rw [if_neg (by omega)]
  · simp [h']

theorem setBits_lt (w lo n v : Nat) {m : Nat} (hw : w < 2 ^ m) (h : lo + n ≤ m) : setBits w lo n v < 2 ^ m := by
  apply Nat.lt_pow_two_of_testBit
  intro i hi
  rw [setBits_testBit, if_neg (by omega)]
  exact Nat.testBit_lt_two_pow (lt_of_lt_of_le hw (Nat.pow_le_pow_right (by decide) hi))

/-- A register's field reads as the value it was set to, taken to its width. -/
theorem fld_setFld_same (s : State) (o lo n v : Nat) (h : lo + n ≤ 32) :
    fld (setFld s o lo n v) o lo n = v % 2 ^ n := by
  unfold fld setFld
  rw [rd_wr_self, Nat.mod_eq_of_lt (setBits_lt _ _ _ _ (rd_lt s o) h), bits_setBits_same]

/-- Setting a register's field leaves its other fields. -/
theorem fld_setFld_other (s : State) (o lo n v : Nat) {lo' n' : Nat} (h : lo + n ≤ 32)
    (d : lo' + n' ≤ lo ∨ lo + n ≤ lo') : fld (setFld s o lo n v) o lo' n' = fld s o lo' n' := by
  unfold fld setFld
  rw [rd_wr_self, Nat.mod_eq_of_lt (setBits_lt _ _ _ _ (rd_lt s o) h), bits_setBits_other _ _ _ _ d]

/-- Setting a register's field leaves every other register. -/
theorem fld_setFld_off (s : State) {o o' : Nat} (h : o' ≠ o) (lo n v lo' n' : Nat) :
    fld (setFld s o lo n v) o' lo' n' = fld s o' lo' n' := by
  unfold fld setFld
  rw [rd_wr_other s h]

end Sys2Proof.Machine
end

