-- ==== Sys2Proof/Laws/Mail.lean ====
section
/-!
SUPPORT. What a served message is, and what a reply leaves.
-/
namespace Sys2Proof.Machine

set_option Elab.async false

/-- A message that is served acts. -/
theorem message_served {s : State} {m code : Nat} {w : List Nat} (h : Served s m code w) {sel : List Nat → Bool}
    (hs : sel w = true) (act : State → Nat → List Nat → State) : message s m code sel act = act s m w := by
  unfold message
  rw [h.next]
  have h1 : ¬ (!serves s m ∨ m ≠ m ∨ bits (nth w 0) 0 12 ≠ code ∨ !sel w ∨ !knownCode s mbCodes code) := by
    simp [h.served, h.coded, hs, h.known]
  have h2 : ¬ bits (nth w 0) 12 4 ≠ 1 := by simp [h.version]
  have h3 : ¬ (mb0Only code = true ∧ m ≠ 0) := fun x => x.2 (h.mb0 x.1)
  have h4 : ¬ (code ≠ 0x013 ∧ ((mbPart w).map (partBusy s)).getD false = true) := by
    intro x
    rw [h.quiet x.1] at x
    exact Bool.false_ne_true x.2
  dsimp only
  rw [if_neg h1, if_neg h2, if_neg h3, if_neg h4]

theorem nth_append_replicate (l : List Nat) (i k : Nat) : nth (l ++ List.replicate k 0) i = nth l i := by
  unfold nth
  rw [List.getD_eq_getElem?_getD, List.getD_eq_getElem?_getD, List.getElem?_append]
  split
  · rfl
  · rename_i h
    rw [List.getElem?_eq_none (Nat.le_of_not_lt h), List.getElem?_replicate]
    split <;> rfl

theorem nth_replyWords (l : List Nat) {i : Nat} (h : i < 15) : nth (replyWords l) i = nth l i := by
  rw [← nth_append_replicate l i 15]
  unfold replyWords nth
  rw [List.getD_eq_getElem?_getD, List.getD_eq_getElem?_getD, List.getElem?_take, if_pos h]

theorem wrList_frame (l : List Nat) (s : State) (off : Nat) : wrList s off l = { s with regs := (wrList s off l).regs } := by
  induction l generalizing s off with
  | nil => rfl
  | cons v r ih => unfold wrList; rw [ih]; rfl

theorem rd_wrList_outside (l : List Nat) (s : State) (off o : Nat) (h : ∀ i, i < l.length → o ≠ off + 4 * i) :
    rd (wrList s off l) o = rd s o := by
  induction l generalizing s off with
  | nil => rfl
  | cons v r ih =>
    unfold wrList
    rw [ih, rd_wr_other]
    · simpa using h 0 (by simp)
    · intro i hi
      have := h (i + 1) (by simpa using hi)
      omega

theorem rd_wrList_inside (l : List Nat) (s : State) (off i : Nat) (h : i < l.length) :
    rd (wrList s off l) (off + 4 * i) = nth l i % 2 ^ 32 := by
  induction l generalizing s off i with
  | nil => simp at h
  | cons v r ih =>
    unfold wrList
    cases i with
    | zero =>
      rw [rd_wrList_outside]
      · simp [nth]
      · intro j _; omega
    | succ i =>
      have := ih (wr s off v) (off + 4) i (by simpa using h)
      rw [show off + 4 * (i + 1) = off + 4 + 4 * i by omega, this]
      simp [nth]

theorem replyWords_length (l : List Nat) : (replyWords l).length = 15 := by
  simp [replyWords]

/-- The reply as the record of state it is. -/
theorem rd_raise (s : State) (p v o : Nat) : rd (raise s p v) o = rd s o := by
  unfold raise
  split
  · rfl
  · split <;> simp

theorem raise_mboxes (s : State) (p v : Nat) : (raise s p v).mboxes = s.mboxes ∧ (raise s p v).mbOrder = s.mbOrder := by
  unfold raise
  split
  · exact ⟨rfl, rfl⟩
  · split <;> simp

/-- The register values that a reply leaves. -/
theorem rd_mbReply (s : State) (m : Nat) (w : List Nat) (st : Nat) (words : List Nat) (o : Nat) :
    rd (mbReply s m w st words) o =
      rd (wr (wrList s (mbOff m 0x40) ((bits (nth w 0) 0 16 + st * 2 ^ 16 + bits (nth w 0) 24 8 * 2 ^ 24) ::
          replyWords words)) (mbOff m 0x80)
        (setBits (setBits (setBits (rd s (mbOff m 0x80)) 0 1 0) 1 1 0) 2 1 1)) o := by
  have e : rd (wrList s (mbOff m 0x40) ((bits (nth w 0) 0 16 + st * 2 ^ 16 + bits (nth w 0) 24 8 * 2 ^ 24) ::
          replyWords words)) (mbOff m 0x80) = rd s (mbOff m 0x80) := by
    apply rd_wrList_outside
    intro i hi
    simp only [List.length_cons, replyWords_length] at hi
    unfold mbOff
    omega
  unfold mbReply
  dsimp only
  rw [e]
  split
  · rw [rd_raise]; rfl
  · rfl

/-- A reply writes no register but those of its mailbox. -/
theorem mbReply_regsBut (s : State) (m : Nat) (w : List Nat) (st : Nat) (words : List Nat) :
    RegsBut (replyRegs m) s (mbReply s m w st words) := by
  intro o h
  simp only [replyRegs, List.mem_append, List.mem_map, List.mem_range, List.mem_singleton, not_or, not_exists,
    not_and] at h
  rw [rd_mbReply, rd_wr_other _ h.2]
  apply rd_wrList_outside
  intro i hi
  simp only [List.length_cons, replyWords_length] at hi
  have := h.1 i (by omega)
  unfold mbOff at *
  omega

theorem replyHead_lt (w0 st : Nat) (h : st < 256) : bits w0 0 16 + st * 2 ^ 16 + bits w0 24 8 * 2 ^ 24 < 2 ^ 32 := by
  have h0 := bits_lt w0 0 16
  have h1 := bits_lt w0 24 8
  generalize bits w0 0 16 = a at *
  generalize bits w0 24 8 = b at *
  omega

theorem replyCtl (v : Nat) : bits (setBits (setBits (setBits v 0 1 0) 1 1 0) 2 1 1) 0 3 = 4 := by
  apply Nat.eq_of_testBit_eq
  intro i
  rw [bits_testBit, setBits_testBit, setBits_testBit, setBits_testBit]
  rcases i with _ | _ | _ | i
  · simp
  · simp; decide
  · simp; decide
  · have : ¬ i + 1 + 1 + 1 < 3 := by omega
    simp only [this, decide_false, Bool.false_and]
    exact (Nat.testBit_lt_two_pow (lt_of_lt_of_le (show 4 < 2 ^ 3 by decide)
      (Nat.pow_le_pow_right (by decide) (by omega)))).symm

/-- A reply is what R463 and R467 say a reply is. -/
theorem mbReply_replied (s : State) (m : Nat) (w : List Nat) (st : Nat) (words : List Nat) (hst : st < 256) :
    Replied (mbReply s m w st words) m w st words := by
  refine ⟨?_, ?_, ?_, ?_, ?_⟩
  · rw [rd_mbReply, rd_wr_other _ (by unfold mbOff; omega)]
    have := rd_wrList_inside ((bits (nth w 0) 0 16 + st * 2 ^ 16 + bits (nth w 0) 24 8 * 2 ^ 24) :: replyWords words) s
      (mbOff m 0x40) 0 (by simp)
    rw [Nat.mul_zero, Nat.add_zero] at this
    rw [this, show ∀ a l, nth (a :: l) 0 = a from fun _ _ => rfl, Nat.mod_eq_of_lt (replyHead_lt _ _ hst)]
  · intro i hi
    rw [rd_mbReply, rd_wr_other _ (by unfold mbOff; omega)]
    have := rd_wrList_inside ((bits (nth w 0) 0 16 + st * 2 ^ 16 + bits (nth w 0) 24 8 * 2 ^ 24) :: replyWords words) s
      (mbOff m 0x40) (i + 1) (by simp [replyWords_length]; omega)
    rw [show mbOff m (0x44 + 4 * i) = mbOff m 0x40 + 4 * (i + 1) by unfold mbOff; omega, this,
      ← nth_replyWords words hi]
    simp [nth]
  · unfold fld
    rw [rd_mbReply, rd_wr_self, Nat.mod_eq_of_lt (setBits_lt _ _ _ _ (setBits_lt _ _ _ _ (setBits_lt _ _ _ _
      (rd_lt _ _) (by decide)) (by decide)) (by decide)), replyCtl]
  · unfold mbReply
    dsimp only
    split
    · rw [(raise_mboxes _ _ _).1]; exact tabFind_drop_same _ _
    · exact tabFind_drop_same _ _
  · unfold mbReply
    dsimp only
    split
    · rw [(raise_mboxes _ _ _).2]; simp
    · simp

end Sys2Proof.Machine
end

