-- ==== Sys2Proof/Laws/Engine.lean ====
section
/-!
SUPPORT. What the operations on waves, vector registers, jobs and the error log leave.
-/
namespace Sys2Proof.Machine

set_option Elab.async false

variable {α : Type}

theorem tabFind_append (k : Nat) (l m : List (Nat × α)) : tabFind k (l ++ m) = (tabFind k l).or (tabFind k m) := by
  induction l with
  | nil => rfl
  | cons x r ih =>
    obtain ⟨j, v⟩ := x
    rw [List.cons_append, tabFind_cons, tabFind_cons, ih]
    split <;> rfl

/-- Entries are looked for by key only, so a filter on keys keeps or hides one whole. -/
theorem tabFind_filter (k : Nat) (p : Nat → Bool) (l : List (Nat × α)) :
    tabFind k (l.filter fun x => p x.1) = if p k = true then tabFind k l else none := by
  induction l with
  | nil => simp
  | cons x r ih =>
    obtain ⟨j, v⟩ := x
    rw [List.filter_cons]
    by_cases h : j = k
    · subst h
      by_cases hp : p j = true
      · rw [if_pos hp, if_pos hp, tabFind_cons, if_pos rfl, tabFind_cons, if_pos rfl]
      · rw [if_neg hp, if_neg hp, ih, if_neg hp]
    · rw [tabFind_cons, if_neg h]
      split
      · rw [tabFind_cons, if_neg h, ih]
      · exact ih

theorem tabFind_none (k : Nat) (l : List (Nat × α)) (h : ∀ x ∈ l, x.1 ≠ k) : tabFind k l = none := by
  induction l with
  | nil => rfl
  | cons x r ih =>
    rw [tabFind_cons, if_neg (h x List.mem_cons_self)]
    exact ih fun y hy => h y (List.mem_cons_of_mem _ hy)

/-- A table made from a list of elements of one register. -/
theorem tabFind_elements (r : Nat) (f : Nat → α) (l : List Nat) (i : Nat) :
    tabFind (r * 512 + i) (l.map fun j => (r * 512 + j, f j)) = if i ∈ l then some (f i) else none := by
  induction l with
  | nil => simp
  | cons j l ih =>
    rw [List.map_cons, tabFind_cons, ih]
    by_cases h : j = i
    · subst h; simp
    · rw [if_neg (by omega)]
      simp [Ne.symm h]

theorem eng_congr {s t : State} (h : t.engines = s.engines) (k : Nat) : eng t k = eng s k := by
  unfold eng; rw [h]

theorem rd_congr {s t : State} (h : t.regs = s.regs) (o : Nat) : rd t o = rd s o := by unfold rd; rw [h]
theorem fld_congr {s t : State} (h : t.regs = s.regs) (o a b : Nat) : fld t o a b = fld s o a b := by unfold fld; rw [rd_congr h]

/-- What writing elements of a vector register leaves in the register file. -/
theorem vput_find (s : State) (e : Nat) (x : Wave) (v : Nat) (ws : List (Nat × Word)) (r : Nat)
    (h : physReg x v = some r) (k : Nat) :
    tabFind k (eng (vput s e x v ws) e).vreg =
      (tabFind k (ws.map fun w => (r * 512 + w.1, w.2))).or (tabFind k (eng s e).vreg) := by
  unfold vput
  rw [h]
  dsimp only
  rw [eng_setEng_self]
  dsimp only
  rw [tabFind_append, tabFind_filter k fun j => (tabFind j (ws.map fun w => (r * 512 + w.1, w.2))).isNone]
  cases tabFind k (ws.map fun w => (r * 512 + w.1, w.2)) with
  | none => simp
  | some y => simp

/-- Writing a vector register touches nothing else. -/
theorem vput_frame (s : State) (e : Nat) (x : Wave) (v : Nat) (ws : List (Nat × Word)) :
    (∀ k, k ≠ e → eng (vput s e x v ws) k = eng s k) ∧
      ∃ vr, eng (vput s e x v ws) e = { eng s e with vreg := vr } := by
  unfold vput
  split
  · exact ⟨fun _ _ => rfl, _, rfl⟩
  · exact ⟨fun k hk => by rw [eng_setEng, if_neg hk], _, eng_setEng_self _ _ _⟩

theorem waveAt_setWave {s : State} {e w : Nat} {x y : Wave} (h : waveAt s e w = some x) (hy : y.vbase = 16 * w) :
    waveAt (setWave s e w y) e w = some y := by
  unfold waveAt setWave at *
  rw [eng_setEng_self]
  dsimp only
  generalize (eng s e).waves = l at h ⊢
  induction l with
  | nil => simp at h
  | cons z l ih =>
    rw [List.map_cons, List.find?_cons]
    rw [List.find?_cons] at h
    by_cases hz : z.vbase = 16 * w
    · rw [if_pos hz]; simp [hy]
    · rw [if_neg hz]
      have hb : (z.vbase == 16 * w) = false := by simpa using hz
      rw [hb] at h ⊢
      exact ih h

theorem waveAt_vbase {s : State} {e w : Nat} {x : Wave} (h : waveAt s e w = some x) : x.vbase = 16 * w := by
  unfold waveAt at h
  have := List.find?_some h
  simpa using this

theorem waveAt_dropWave (s : State) (e w : Nat) : waveAt (dropWave s e w) e w = none := by
  unfold waveAt dropWave
  rw [eng_setEng_self]
  simp

theorem jobOf_updJob (s : State) (k : Nat) (f : Job → Job) (hf : ∀ j, (f j).key = j.key) :
    jobOf (updJob s k f) k = (jobOf s k).map f := by
  unfold jobOf updJob
  induction s.jobs with
  | nil => rfl
  | cons j l ih =>
    dsimp only at ih ⊢
    rw [List.map_cons, List.find?_cons, List.find?_cons]
    by_cases h : j.key = k
    · rw [if_pos h]
      simp [hf, h]
    · have hb : (j.key == k) = false := by simpa using h
      rw [if_neg h, hb]
      exact ih

/-- A record goes to the log as `ErrLog.store` says, stamped with the present line-clock value (R567). -/
theorem append_log (s : State) (r : Rep) : (append s r).log = s.log.store (mkRec s r s.log.seq (stamp s)) := by
  unfold append appendAt
  dsimp only
  split
  · unfold raise
    split
    · rfl
    · split <;> rfl
  · rfl

/-- A counter that saturates at 32 bits goes up by `k`. -/
theorem bumpSat_rd (s : State) (off k : Nat) : rd (bumpSat s off 0 32 k) off = min (2 ^ 32 - 1) (rd s off + k) := by
  refine (rd_wr_self s off _).trans ?_
  have hl := rd_lt s off
  unfold fld
  generalize rd s off = x at *
  have h2 := bits_setBits_same x 0 32 (min (2 ^ 32 - 1) (bits x 0 32 + k))
  have h3 : ∀ y, y < 2 ^ 32 → bits y 0 32 = y := fun y hy => by unfold bits; omega
  have h4 := setBits_lt x 0 32 (min (2 ^ 32 - 1) (bits x 0 32 + k)) (m := 32) hl (by omega)
  rw [h3 _ hl] at h2 h4 ⊢
  rw [h3 _ h4] at h2
  rw [Nat.mod_eq_of_lt h4, h2]
  omega

end Sys2Proof.Machine
end

