-- ==== Sys2Proof/Laws/Tensor.lean ====
section
/-!
SUPPORT. What a tensor instruction that runs leaves.
-/
namespace Sys2Proof.Machine

set_option Elab.async false

/-! ### Rows of tile memory -/

theorem Mem.readBytes_get (m : Mem) (a n i : Nat) (h : i < n) : (m.readBytes a n)[i]? = some (m.read (a + i)) := by
  induction n generalizing a i with
  | zero => omega
  | succ n ih =>
    unfold Mem.readBytes
    cases i with
    | zero => rfl
    | succ i => rw [List.getElem?_cons_succ, ih _ _ (by omega)]; congr 2; omega

theorem Mem.readBytes_length (m : Mem) (a n : Nat) : (m.readBytes a n).length = n := by
  induction n generalizing a with
  | zero => rfl
  | succ n ih => unfold Mem.readBytes; rw [List.length_cons, ih]

/-- A byte of a row, whose offsets have 22 bits. -/
theorem tRead_get (m : Mem) (e o n i : Nat) (h : i < n) (hn : n ≤ 2 ^ 22) :
    (tRead m e o n)[i]? = some (m.read (e * 2 ^ 22 + (o + i) % 2 ^ 22)) := by
  unfold tRead
  dsimp only
  have ho : o % 2 ^ 22 < 2 ^ 22 := Nat.mod_lt _ (by decide)
  rw [Nat.add_mod o i]
  rw [Nat.mod_eq_of_lt (show i < 2 ^ 22 by omega)]
  generalize o % 2 ^ 22 = q at ho ⊢
  by_cases hk : i < 2 ^ 22 - q
  · rw [List.getElem?_append_left (by rw [Mem.readBytes_length]; omega), Mem.readBytes_get _ _ _ _ (by omega),
      Nat.mod_eq_of_lt (by omega), Nat.add_assoc]
  · rw [List.getElem?_append_right (by rw [Mem.readBytes_length]; omega), Mem.readBytes_length,
      Mem.readBytes_get _ _ _ _ (by omega)]
    congr 2
    omega

/-- The writes of a row leave every byte of no row alone. -/
theorem read_pieces_outside (l : List (Nat × List Byte)) (m : Mem) (x : Nat)
    (h : ∀ p ∈ l, x < p.1 ∨ p.1 + p.2.length ≤ x) :
    (l.foldl (fun t p => t.writeBytes p.1 p.2) m).read x = m.read x := by
  induction l generalizing m with
  | nil => rfl
  | cons p l ih =>
    rw [List.foldl_cons, ih _ (fun q hq => h q (List.mem_cons_of_mem _ hq)),
      Mem.read_writeBytes_outside _ _ _ _ (h p List.mem_cons_self)]

/-- A byte that a row covers is the row's. -/
theorem read_tPieces (m : Mem) (e o : Nat) (b : List Byte) (n : Nat) (h : n < b.length) (hb : b.length ≤ 2 ^ 22) :
    some (((tPieces e o b).foldl (fun t p => t.writeBytes p.1 p.2) m).read (e * 2 ^ 22 + (o + n) % 2 ^ 22)) = b[n]? := by
  unfold tPieces
  dsimp only [List.foldl_cons, List.foldl_nil]
  have ho : o % 2 ^ 22 < 2 ^ 22 := Nat.mod_lt _ (by decide)
  rw [Nat.add_mod o n]
  rw [Nat.mod_eq_of_lt (show n < 2 ^ 22 by omega)]
  generalize o % 2 ^ 22 = q at ho ⊢
  by_cases hk : n < 2 ^ 22 - q
  · rw [Nat.mod_eq_of_lt (show q + n < 2 ^ 22 by omega),
      Mem.read_writeBytes_outside _ _ _ _ (by rw [List.length_drop]; omega), ← Nat.add_assoc,
      Mem.read_writeBytes_inside _ _ _ _ (by rw [List.length_take]; omega), List.getElem_take,
      List.getElem?_eq_getElem h]
  · rw [show (q + n) % 2 ^ 22 = n - (2 ^ 22 - q) by omega,
      Mem.read_writeBytes_inside _ _ _ _ (by rw [List.length_drop]; omega), List.getElem_drop,
      List.getElem?_eq_getElem h]
    congr 2
    omega

/-- The writes of a row touch only its bytes. -/
theorem tPieces_outside (e o x : Nat) (b : List Byte) (hb : b.length ≤ 2 ^ 22)
    (h : ∀ n, n < b.length → x ≠ e * 2 ^ 22 + (o + n) % 2 ^ 22) :
    ∀ p ∈ tPieces e o b, x < p.1 ∨ p.1 + p.2.length ≤ x := by
  have ho : o % 2 ^ 22 < 2 ^ 22 := Nat.mod_lt _ (by decide)
  intro p hp
  unfold tPieces at hp
  simp only [List.mem_cons, List.not_mem_nil, or_false] at hp
  rcases hp with rfl | rfl
  · dsimp only
    rw [List.length_take]
    by_contra hx
    have := h (x - (e * 2 ^ 22 + o % 2 ^ 22)) (by omega)
    apply this
    rw [Nat.add_mod o, Nat.mod_eq_of_lt (show x - (e * 2 ^ 22 + o % 2 ^ 22) < 2 ^ 22 by omega),
      Nat.mod_eq_of_lt (show o % 2 ^ 22 + (x - (e * 2 ^ 22 + o % 2 ^ 22)) < 2 ^ 22 by omega)]
    omega
  · dsimp only
    rw [List.length_drop]
    by_contra hx
    have := h (x - e * 2 ^ 22 + (2 ^ 22 - o % 2 ^ 22)) (by omega)
    apply this
    rw [Nat.add_mod o, Nat.mod_eq_of_lt (show x - e * 2 ^ 22 + (2 ^ 22 - o % 2 ^ 22) < 2 ^ 22 by omega),
      show (o % 2 ^ 22 + (x - e * 2 ^ 22 + (2 ^ 22 - o % 2 ^ 22))) % 2 ^ 22 = x - e * 2 ^ 22 by omega]
    omega

/-! ### Tables by rows -/

variable {α : Type}

/-- A table made row by row, each row's keys in a range of its own. -/
theorem tabFind_rows (n w : Nat) (g : Nat → List (Nat × α)) (hg : ∀ i, ∀ x ∈ g i, i * w ≤ x.1 ∧ x.1 < (i + 1) * w)
    (i k : Nat) (hi : i < n) (h1 : i * w ≤ k) (h2 : k < (i + 1) * w) :
    tabFind k ((List.range n).flatMap g) = tabFind k (g i) := by
  induction n with
  | zero => omega
  | succ n ih =>
    rw [List.range_succ, List.flatMap_append, tabFind_append]
    have hs : [n].flatMap g = g n := by simp
    rw [hs]
    by_cases h : i < n
    · rw [ih h]
      rw [tabFind_none k (g n) (by
        intro x hx hk
        have := (hg n x hx).1
        have h3 : (i + 1) * w ≤ n * w := Nat.mul_le_mul_right w h
        omega)]
      simp
    · obtain rfl : i = n := by omega
      rw [tabFind_none k ((List.range i).flatMap g) (by
        intro x hx hk
        obtain ⟨j, hj, hx⟩ := List.mem_flatMap.1 hx
        have := (hg j x hx).2
        have hj := List.mem_range.1 hj
        have h3 : (j + 1) * w ≤ i * w := Nat.mul_le_mul_right w hj
        omega)]
      rfl

/-- A row of a table, by the place in it. -/
theorem tabFind_mapIdx (b j : Nat) (l : List α) : tabFind (b + j) (l.mapIdx fun i v => (b + i, v)) = l[j]? := by
  induction l generalizing b j with
  | nil => rfl
  | cons a l ih =>
    rw [List.mapIdx_cons, tabFind_cons]
    cases j with
    | zero => simp
    | succ j =>
      rw [if_neg (by omega), List.getElem?_cons_succ, ← ih (b + 1) j]
      congr 1
      · omega
      · apply List.ext_getElem?
        intro i
        rw [List.getElem?_mapIdx, List.getElem?_mapIdx]
        congr 1
        funext v
        rw [show b + (i + 1) = b + 1 + i by omega]

theorem tabFind_mapRange (b w j : Nat) (f : Nat → α) (h : j < w) :
    tabFind (b + j) ((List.range w).map fun i => (b + i, f i)) = some (f j) := by
  induction w with
  | zero => omega
  | succ w ih =>
    rw [List.range_succ, List.map_append, tabFind_append]
    by_cases hj : j < w
    · rw [ih hj]; rfl
    · obtain rfl : j = w := by omega
      rw [tabFind_none _ _ (by
        intro x hx
        obtain ⟨i, hi, rfl⟩ := List.mem_map.1 hx
        have := List.mem_range.1 hi
        dsimp only
        omega)]
      simp [tabFind_cons]

/-! ### The instructions -/

@[simp] theorem stageOf'_setStage (n : Engine) (k : Nat) (x : Stage) : stageOf' (setStage n k x) k = x := by
  unfold stageOf' setStage; split <;> rfl

@[simp] theorem stageOf'_setStage_other (n : Engine) (k : Nat) (x : Stage) :
    stageOf' (setStage n k x) (1 - k) = stageOf' n (1 - k) := by
  unfold stageOf' setStage
  by_cases h : k = 0
  · subst h; rfl
  · rw [if_neg h, show 1 - k = 0 by omega]; rfl

@[simp] theorem accOf_setAcc (n : Engine) (k : Nat) (x : AccHalf) : accOf (setAcc n k x) k = x := by
  unfold accOf setAcc; split <;> rfl

@[simp] theorem accOf_setAcc_other (n : Engine) (k : Nat) (x : AccHalf) : accOf (setAcc n k x) (1 - k) = accOf n (1 - k) := by
  unfold accOf setAcc
  by_cases h : k = 0
  · subst h; rfl
  · rw [if_neg h, show 1 - k = 0 by omega]; rfl

theorem aclk_congr {s t : State} (h1 : t.now = s.now) (h2 : t.pll = s.pll) (h3 : t.aclkBase = s.aclkBase)
    (h4 : t.aclkFrom = s.aclkFrom) : aclk t = aclk s := by
  unfold aclk aclkUnit; rw [h1, h2, h3, h4]

theorem tloadDo_done (s : State) (e k kg off st : Nat) (f : Fmt) :
    TensorDone s (tloadDo s e k kg off st f) e (.load k kg off st f) := by
  have hs : stageOf' (eng (tloadDo s e k kg off st f) e) k =
      { bytes := (List.range (16 * kg)).flatMap fun r =>
          (tRead s.tile e (off + r * st) 64).mapIdx fun j b => (r * 64 + j, b),
        kg := kg, fmt := f, readyAt := aclk s + 8 * kg + 3, freeAt := 0 } := by
    unfold tloadDo; dsimp only; rw [eng_setEng_self]; exact stageOf'_setStage _ _ _
  have ho : stageOf' (eng (tloadDo s e k kg off st f) e) (1 - k) = stageOf' (eng s e) (1 - k) := by
    unfold tloadDo; dsimp only; rw [eng_setEng_self]; exact stageOf'_setStage_other _ _ _
  have hx : ∀ x : Stage, (setStage (eng s e) k x).acc0 = (eng s e).acc0 ∧ (setStage (eng s e) k x).acc1 = (eng s e).acc1 :=
    fun x => by unfold setStage; split <;> exact ⟨rfl, rfl⟩
  unfold TensorDone
  dsimp only
  rw [hs, ho]
  refine ⟨rfl, rfl, rfl, ?_, fun r j hr hj => ?_, rfl, ?_, ?_, rfl⟩
  · unfold tloadDo; dsimp only; rw [eng_setEng_self]; rfl
  · dsimp only
    rw [tabFind_rows (16 * kg) 64 _ (by
      intro i x hx
      rw [List.mem_mapIdx] at hx
      obtain ⟨j, hj, rfl⟩ := hx
      dsimp only
      have : (tRead s.tile e (off + i * st) 64).length = 64 := by
        unfold tRead; dsimp only; rw [List.length_append, Mem.readBytes_length, Mem.readBytes_length]; omega
      omega) r _ hr (by omega) (by omega), tabFind_mapIdx, tRead_get _ _ _ _ _ hj (by decide)]
  · unfold tloadDo; dsimp only; rw [eng_setEng_self]; exact (hx _).1
  · unfold tloadDo; dsimp only; rw [eng_setEng_self]; exact (hx _).2

theorem countOvf_keeps (u : State) (e n : Nat) :
    (∀ j, eng (countOvf u e n) j = eng u j) ∧ (countOvf u e n).tile = u.tile ∧ aclk (countOvf u e n) = aclk u := by
  have d := (does_countOvf u e n (Does.refl (maskOf [.regs]) u)).only
  exact ⟨eng_congr (d.engines rfl), d.tile rfl, aclk_congr (d.now rfl) (d.pll rfl) (d.aclkBase rfl) (d.aclkFrom rfl)⟩

theorem tmmaDo_done (s : State) (e k a m kg off st : Nat) (f : Fmt) (accum : Bool) :
    TensorDone s (tmmaDo s e k a m kg off st f accum) e (.mma k a m kg off st f accum) := by
  delta tmmaDo
  extract_lets -underBinder n b h g w m2 float same ep start arow cell res words kept c n1 n2 src s1
  have hc := countOvf_keeps s1 e ((res.map fun r => r.2.2).foldl (· + ·) 0)
  generalize countOvf s1 e ((res.map fun r => r.2.2).foldl (· + ·) 0) = t at hc
  have hE : eng t e = { n2 with arrayFree := c + m2 * g } := (hc.1 e).trans (eng_setEng_self _ _ _)
  have hA : accOf (eng t e) a =
      { words := words ++ kept, width := w, float := float, readyAt := c + m2 * g + 9, freeAt := 0 } := by
    rw [hE]; exact accOf_setAcc _ _ _
  have hA' : accOf (eng t e) (1 - a) = accOf (eng s e) (1 - a) := by
    rw [hE]
    refine (accOf_setAcc_other n1 a _).trans ?_
    show accOf (setStage n k _) _ = _
    unfold setStage; split <;> rfl
  have hB : stageOf' (eng t e) k = { b with freeAt := c + m2 * g } := by
    rw [hE]
    have h3 : ∀ (x : AccHalf), stageOf' (setAcc n1 a x) k = stageOf' n1 k := fun x => by
      unfold setAcc; split <;> rfl
    exact (h3 _).trans (stageOf'_setStage _ _ _)
  have hclk : aclk t = c := hc.2.2
  unfold TensorDone
  dsimp only
  rw [hA, hA', hB, hclk]
  refine ⟨rfl, rfl, rfl, by rw [hE], rfl, fun i j hi hj hs => ?_, rfl, hc.2.1⟩
  dsimp only
  have hrow : tabFind (i * w + j) words = some (BitVec.ofNat 32 (cell i (arow i) j).1) := by
    show tabFind (i * w + j) (res.map fun r => (r.1, BitVec.ofNat 32 r.2.1)) = _
    show tabFind (i * w + j) (((List.range m2).flatMap fun i =>
      (List.range w).map fun j => (i * w + j, cell i (arow i) j)).map fun r => (r.1, BitVec.ofNat 32 r.2.1)) = _
    rw [List.map_flatMap, tabFind_rows m2 w _ (by
      intro i x hx
      rw [List.map_map, List.mem_map] at hx
      obtain ⟨j, hj, rfl⟩ := hx
      have := List.mem_range.1 hj
      dsimp only [Function.comp_def]
      rw [Nat.add_mul]
      omega) i _ hi (Nat.le_add_right _ _) (by rw [Nat.add_mul, Nat.one_mul]; exact Nat.add_lt_add_left hj _), List.map_map]
    exact tabFind_mapRange (i * w) w j (fun j => BitVec.ofNat 32 (cell i (arow i) j).1) hj
  rw [tabFind_append, hrow, Option.some_or]
  have hstart : start (i * w + j) = if accum then ((tabFind (i * w + j) h.words).getD 0#32).toNat else 0 := by
    show (if (!accum) = true then 0 else if same = true then _ else _) = _
    cases accum with
    | false => rfl
    | true =>
      rcases hs with hs | hs
      · exact absurd hs (by decide)
      · have : same = true := by
          show (h.width == w && h.float == float) = true
          rw [show h.width = w from hs.1, show h.float = float from hs.2]; simp
        rw [if_pos this]; rfl
  show some (BitVec.ofNat 32 (accGroups float f b.fmt _ (start (i * w + j)) 0 (List.range g)).1) = _
  rw [hstart]

/-- Rows written one after another: a byte is that of the last row that covers it. -/
theorem read_rows_outside (m : Nat) (e : Nat) (o : Nat → Nat) (b : Nat → List Byte) (hb : ∀ i, (b i).length ≤ 2 ^ 22)
    (t : Mem) (x : Nat) (h : ∀ i n, i < m → n < (b i).length → x ≠ e * 2 ^ 22 + (o i + n) % 2 ^ 22) :
    ((((List.range m).flatMap fun i => tPieces e (o i) (b i))).foldl (fun t p => t.writeBytes p.1 p.2) t).read x = t.read x := by
  apply read_pieces_outside
  intro p hp
  obtain ⟨i, hi, hp⟩ := List.mem_flatMap.1 hp
  exact tPieces_outside e (o i) x (b i) (hb i) (fun n hn => h i n (List.mem_range.1 hi) hn) p hp

theorem read_rows_inside (m : Nat) (e : Nat) (o : Nat → Nat) (b : Nat → List Byte) (hb : ∀ i, (b i).length ≤ 2 ^ 22)
    (t : Mem) (i n : Nat) (hi : i < m) (hn : n < (b i).length)
    (h : ∀ i' n', i < i' → i' < m → n' < (b i').length → (o i' + n') % 2 ^ 22 ≠ (o i + n) % 2 ^ 22) :
    some (((((List.range m).flatMap fun i => tPieces e (o i) (b i))).foldl (fun t p => t.writeBytes p.1 p.2) t).read
      (e * 2 ^ 22 + (o i + n) % 2 ^ 22)) = (b i)[n]? := by
  induction m with
  | zero => omega
  | succ m ih =>
    have hs : [m].flatMap (fun i => tPieces e (o i) (b i)) = tPieces e (o m) (b m) := by simp
    rw [List.range_succ, List.flatMap_append, List.foldl_append, hs]
    by_cases him : i < m
    · rw [read_pieces_outside _ _ _ (tPieces_outside e (o m) _ (b m) (hb m) (fun n' hn' hx =>
        h m n' him (by omega) hn' (by omega)))]
      exact ih him fun i' n' h1 h2 => h i' n' h1 (by omega)
    · obtain rfl : i = m := by omega
      exact read_tPieces _ e (o i) (b i) n hn (hb i)

theorem leBytes_length (n v : Nat) : (leBytes n v).length = n := by
  induction n generalizing v with
  | zero => rfl
  | succ n ih => unfold leBytes; rw [List.length_cons, ih]

theorem wordBytes_length (l : List Nat) : (wordBytes l).length = 4 * l.length := by
  unfold wordBytes
  induction l with
  | nil => rfl
  | cons a l ih => rw [List.flatMap_cons, List.length_append, leBytes_length, ih, List.length_cons]; omega

theorem packElems_length (f : Fmt) (l : List Nat) : (packElems f l).length = ceilDiv l.length (perReg f) := by
  unfold packElems; simp

theorem packed_enough (f : Fmt) (w : Nat) : w * fmtWidth f / 8 ≤ 4 * ceilDiv w (perReg f) := by
  unfold ceilDiv perReg
  cases f <;> simp only [fmtWidth] <;> omega

theorem genOf_congr {a b : Engine} (h : a.gens = b.gens) (i : Nat) : genOf a i = genOf b i := by unfold genOf; rw [h]

theorem gens_if (n : Engine) (b : Bool) (g : List (Nat × BitVec 64)) :
    ((if b = true then { n with gens := g } else n).stage0 = n.stage0 ∧
      (if b = true then { n with gens := g } else n).stage1 = n.stage1) ∧
      ∀ j, accOf (if b = true then { n with gens := g } else n) j = accOf n j := by
  cases b <;> exact ⟨⟨rfl, rfl⟩, fun _ => rfl⟩

theorem drain_end (n : Engine) (a d : Nat) (x : Engine)
    (h : x = { setAcc n a { accOf n a with freeAt := d } with drainFree := d }) :
    x.drainFree = d ∧ accOf x a = { accOf n a with freeAt := d } ∧ x.stage0 = n.stage0 ∧ x.stage1 = n.stage1 := by
  subst h
  have hst : ∀ y, (setAcc n a y).stage0 = n.stage0 ∧ (setAcc n a y).stage1 = n.stage1 := fun y => by
    unfold setAcc; split <;> exact ⟨rfl, rfl⟩
  exact ⟨rfl, accOf_setAcc _ _ _, (hst _).1, (hst _).2⟩

theorem setEng_keeps (s : State) (e : Nat) (x : Engine) : (setEng s e x).tile = s.tile ∧ aclk (setEng s e x) = aclk s :=
  ⟨rfl, rfl⟩

theorem tdrainDo_done (s : State) (e a m off st : Nat) (f : Fmt) (rnd : Rnd) (ieee : Bool) (scale am : Nat) :
    TensorDone s (tdrainDo s e a m off st f rnd ieee scale am) e (.drain a m off st f rnd ieee scale am) := by
  delta tdrainDo
  extract_lets -underBinder n h w m2 draws word out rows pieces s1 s2 s3 c done n2 n3
  generalize hX : ({ setAcc n3 a { accOf n3 a with freeAt := done } with drainFree := done } : Engine) = X
  have hx := drain_end n3 a done X hX.symm
  clear hX
  have hc := countOvf_keeps s2 e ((rows.flatten.filter (·.2)).length)
  have hfa := (does_foldAmax s1 e am ((List.range (m2 * w)).map word) (Does.refl (maskOf [.regs]) s1)).only
  have he : eng s3 e = eng s e := (hc.1 e).trans (eng_congr (hfa.engines rfl) e)
  have ht : s3.tile = pieces.foldl (fun t p => t.writeBytes p.1 p.2) s.tile := hc.2.1.trans (hfa.tile rfl)
  have hrows : pieces = (List.range m2).flatMap fun i => tPieces e (off + i * st)
      ((wordBytes ((packElems f ((List.range w).map fun j => (out (i * w + j)).1)).map (·.toNat))).take (w * fmtWidth f / 8)) := by
    show ((((List.range m2).map fun i => (List.range w).map fun j => out (i * w + j)).mapIdx fun i r => (i, r)).flatMap _) = _
    have : (((List.range m2).map fun i => (List.range w).map fun j => out (i * w + j)).mapIdx fun i r => (i, r)) =
        (List.range m2).map fun i => (i, (List.range w).map fun j => out (i * w + j)) := by
      apply List.ext_getElem?
      intro i
      rw [List.getElem?_mapIdx, List.getElem?_map, List.getElem?_map]
      by_cases hi : i < m2
      · rw [List.getElem?_range hi]; rfl
      · rw [List.getElem?_eq_none (by simpa using hi)]; rfl
    rw [this, List.flatMap_map]
    congr 1
    funext i
    rw [List.map_map]
    rfl
  have hlen : ∀ i, ((wordBytes ((packElems f ((List.range w).map fun j => (out (i * w + j)).1)).map (·.toNat))).take (w * fmtWidth f / 8)).length
      = w * fmtWidth f / 8 := fun i => by
    rw [List.length_take, wordBytes_length, List.length_map, packElems_length, List.length_map, List.length_range]
    exact Nat.min_eq_left (packed_enough f w)
  have hsmall : w ≤ 128 → w * fmtWidth f / 8 ≤ 2 ^ 22 := fun hw => by
    have : fmtWidth f ≤ 32 := by cases f <;> decide
    have : w * fmtWidth f ≤ 128 * 32 := Nat.mul_le_mul hw this
    omega
  have hn3 : (n3.stage0 = (eng s e).stage0 ∧ n3.stage1 = (eng s e).stage1) ∧ ∀ j, accOf n3 j = accOf (eng s e) j := by
    rw [← he]
    exact gens_if n2 draws _
  clear_value n3
  have htl := (setEng_keeps s3 e X).1
  have hd := (setEng_keeps s3 e X).2
  have hE := eng_setEng_self s3 e X
  generalize setEng s3 e X = T at *
  rw [ht, hrows] at htl
  have hout : ∀ k, (out k).1 = (roundInto f (scaled (decodeVal (if h.float then .fp32 else .int32)
      ((tabFind k h.words).getD 0#32).toNat) scale) rnd ieee
      (if rnd = .stochastic ∧ f ≠ .f19 then genDraw (genSkip (genOf (eng s e) (128 + k % 64)) (k / 64 + 1)) else 0)).1 := fun k => by
    show (roundInto f _ rnd ieee (if draws = true then _ else 0)).1 = _
    by_cases hdr : rnd = .stochastic ∧ f ≠ .f19
    · rw [if_pos (show draws = true from decide_eq_true hdr), if_pos hdr]; rfl
    · rw [if_neg (show ¬ draws = true from fun x => hdr (of_decide_eq_true x)), if_neg hdr]; rfl
  have hdone : done = aclk s3 + ceilDiv (m2 * w) (if fmtWidth f = 32 then 32 else 64) := rfl
  rw [hn3.2 a, hn3.1.1, hn3.1.2] at hx
  clear_value out
  have hlen2 : ∀ i, w ≤ 128 → ((wordBytes ((packElems f ((List.range w).map fun j => (out (i * w + j)).1)).map
      (·.toNat))).take (w * fmtWidth f / 8)).length ≤ 2 ^ 22 := fun i hw => by rw [hlen]; exact hsmall hw
  clear_value done s3 pieces rows
  unfold TensorDone
  dsimp only
  rw [hE, hd, hx.1, hx.2.1]
  refine ⟨hdone, rfl, hx.2.2.1, hx.2.2.2, fun hw x hx => ?_, fun i k hw hi hk hno => ?_⟩
  · rw [htl]
    refine read_rows_outside m2 e (fun i => off + i * st) _ (fun i => hlen2 i hw) _ _ fun i k hi hk => ?_
    rw [hlen] at hk
    exact hx i k hi hk
  · rw [htl]
    refine (read_rows_inside m2 e (fun i => off + i * st) _ (fun i => hlen2 i hw) _ i k hi
      (by rw [hlen]; exact hk) fun i' k' h1 h2 h3 => ?_).trans ?_
    · rw [hlen] at h3
      exact hno i' k' h1 h2 h3
    · rw [List.getElem?_take, if_pos hk]
      simp only [hout]
      rfl

/-- What a tensor instruction that runs leaves. -/
theorem tRun_done (s : State) (e : Nat) (i : TIns) : TensorDone s (tRun s e i) e i := by
  cases i with
  | load k kg off st f => exact tloadDo_done s e k kg off st f
  | mma k a m kg off st f acc => exact tmmaDo_done s e k a m kg off st f acc
  | drain a m off st f r ie sc am => exact tdrainDo_done s e a m off st f r ie sc am

/-! ### Starting one -/

theorem TensorDone_congr {s u t : State} {e : Nat} {i : TIns} (ht : u.tile = s.tile) (h0 : (eng u e).stage0 = (eng s e).stage0)
    (h1 : (eng u e).stage1 = (eng s e).stage1) (h2 : (eng u e).acc0 = (eng s e).acc0) (h3 : (eng u e).acc1 = (eng s e).acc1)
    (h4 : (eng u e).gens = (eng s e).gens) (h : TensorDone u t e i) : TensorDone s t e i := by
  have hs : ∀ k, stageOf' (eng u e) k = stageOf' (eng s e) k := fun k => by unfold stageOf'; rw [h0, h1]
  have ha : ∀ k, accOf (eng u e) k = accOf (eng s e) k := fun k => by unfold accOf; rw [h2, h3]
  have hg : ∀ k, genOf (eng u e) k = genOf (eng s e) k := fun k => by unfold genOf; rw [h4]
  cases i <;> unfold TensorDone at h ⊢ <;> dsimp only at h ⊢
  · rw [hs, h2, h3, ht] at h; exact h
  · rw [hs, ha, ha, ht] at h; exact h
  · simp only [ha, hg, h0, h1, ht] at h; exact h

/-- A tensor instruction that runs leaves the queue and the other engines alone. -/
theorem tq_keeps (s : State) (e : Nat) (i : TIns) : (eng (tRun s e i) e).tq = (eng s e).tq ∧ ∀ k, k ≠ e → eng (tRun s e i) k = eng s k := by
  have hS : ∀ (n : Engine) k x, (setStage n k x).tq = n.tq := fun n k x => by unfold setStage; split <;> rfl
  have hA : ∀ (n : Engine) k x, (setAcc n k x).tq = n.tq := fun n k x => by unfold setAcc; split <;> rfl
  cases i with
  | load k kg off st f =>
    show (eng (tloadDo s e k kg off st f) e).tq = _ ∧ _
    unfold tloadDo
    dsimp only
    rw [eng_setEng_self]
    exact ⟨hS _ _ _, fun j hj => by show eng (setEng _ _ _) j = _; rw [eng_setEng, if_neg hj]⟩
  | mma k a m kg off st f acc =>
    change (eng (tmmaDo s e k a m kg off st f acc) e).tq = (eng s e).tq ∧ ∀ j, j ≠ e → eng (tmmaDo s e k a m kg off st f acc) j = eng s j
    delta tmmaDo
    extract_lets -underBinder n b h g w m2 float same ep start arow cell res words kept c n1 n2 src s1
    have hc := countOvf_keeps s1 e ((res.map fun r => r.2.2).foldl (· + ·) 0)
    rw [hc.1 e]
    refine ⟨(congrArg Engine.tq (eng_setEng_self s e _)).trans ((hA n1 a _).trans (hS n k _)), fun j hj => ?_⟩
    rw [hc.1 j]
    exact (eng_setEng s e j _).trans (if_neg hj)
  | drain a m off st f r ie sc am =>
    change (eng (tdrainDo s e a m off st f r ie sc am) e).tq = (eng s e).tq ∧ ∀ j, j ≠ e → eng (tdrainDo s e a m off st f r ie sc am) j = eng s j
    delta tdrainDo
    extract_lets -underBinder n h w m2 draws word out rows pieces s1 s2 s3 c done n2 n3
    have hc := countOvf_keeps s2 e ((rows.flatten.filter (·.2)).length)
    have hfa := (does_foldAmax s1 e am ((List.range (m2 * w)).map word) (Does.refl (maskOf [.regs]) s1)).only
    have he : ∀ j, eng s3 j = eng s j := fun j => (hc.1 j).trans (eng_congr (hfa.engines rfl) j)
    refine ⟨(congrArg Engine.tq (eng_setEng_self s3 e _)).trans ((hA n3 a _).trans ?_), fun j hj => ?_⟩
    · have : n3.tq = n2.tq := by
        have : ∀ (b : Bool) g, (if b = true then { n2 with gens := g } else n2).tq = n2.tq := fun b g => by cases b <;> rfl
        exact this _ _
      exact this.trans (congrArg Engine.tq (he e))
    · exact ((eng_setEng s3 e j _).trans (if_neg hj)).trans (he j)

/-- An error of a word that is corrected changes no byte, and of the engines only the list of corrections. -/
theorem tileEcc_mild {s0 s : State} (e w t pos : Nat) (ecc : Ecc) (h : ecc ≠ .uncorrectable)
    (hk : Does (maskOf [.now, .fresh, .regs, .log, .msix, .tile, .engines]) s0 s) :
    Does (maskOf [.now, .fresh, .regs, .log, .msix, .tile, .engines]) s0 (tileEcc s e w t pos ecc) ∧
    (tileEcc s e w t pos ecc).tile = s.tile ∧ (tileEcc s e w t pos ecc).now = s.now ∧
    (∃ c, eng (tileEcc s e w t pos ecc) t = { eng s t with corrections := c }) ∧
    ∀ k, k ≠ t → eng (tileEcc s e w t pos ecc) k = eng s k := by
  cases ecc with
  | ok => exact ⟨hk, rfl, rfl, ⟨_, rfl⟩, fun _ _ => rfl⟩
  | corrected =>
    refine ⟨does_tmCorrected s t _ hk, ?_⟩
    have hd := does_tmCorrected s t (pos % 2 ^ 22 / 16) (Does.refl (maskOf [.regs, .log, .msix, .engines]) s)
    refine ⟨hd.only.tile rfl, hd.only.now rfl, ?_⟩
    show (∃ c, eng (tmCorrected s t (pos % 2 ^ 22 / 16)) t = _) ∧ ∀ k, k ≠ t → eng (tmCorrected s t (pos % 2 ^ 22 / 16)) k = eng s k
    unfold tmCorrected
    dsimp only
    have h1 : ∀ u k, eng (countCorrection u t) k = eng u k := fun u k =>
      eng_congr ((does_countCorrection u t (Does.refl (maskOf [.regs, .log, .msix]) u)).only.engines rfl) k
    have h2 : ∀ j, eng (tmErrReg s t (pos % 2 ^ 22 / 16) false) j = eng s j := fun j =>
      eng_congr ((does_tmErrReg s t _ false (Does.refl (maskOf [.regs]) s)).only.engines rfl) j
    refine ⟨⟨_, by rw [h1, eng_setEng_self, h2]⟩, fun k hk => by rw [h1, eng_setEng, if_neg hk, h2]⟩
  | uncorrectable => exact absurd rfl h

/-- What a tensor instruction that starts leaves, unless its words show an uncorrectable error. -/
theorem tStart_done {s0 s : State} (e w : Nat) (i : TIns) (pos : Nat) (ecc : Ecc) (h : ecc ≠ .uncorrectable)
    (hk : Does (maskOf [.now, .fresh, .regs, .log, .msix, .tile, .engines]) s0 s) :
    Does (maskOf [.now, .fresh, .regs, .log, .msix, .tile, .engines]) s0 (tStart s e w i pos ecc) ∧
    (tStart s e w i pos ecc).now = s.now ∧
    TensorDone s (tStart s e w i pos ecc) e i ∧ (eng (tStart s e w i pos ecc) e).tq = (eng s e).tq ∧
      (∀ k, k ≠ e → eng (tStart s e w i pos ecc) k = eng s k) := by
  have hm := tileEcc_mild e w e pos ecc h hk
  have e1 : tStart s e w i pos ecc = tRun (tileEcc s e w e pos ecc) e i := by unfold tStart; dsimp only; rw [if_neg h]
  rw [e1]
  have hq := tq_keeps (tileEcc s e w e pos ecc) e i
  have hd := tRun_done (tileEcc s e w e pos ecc) e i
  have hn := (does_tRun (tileEcc s e w e pos ecc) e i (Does.refl (maskOf [.fresh, .regs, .tile, .engines]) _)).only.now rfl
  obtain ⟨c, hc⟩ := hm.2.2.2.1
  refine ⟨does_tRun _ _ _ hm.1, hn.trans hm.2.2.1, ?_, ?_, fun k hk' => (hq.2 k hk').trans (hm.2.2.2.2 k hk')⟩
  · refine TensorDone_congr hm.2.1 ?_ ?_ ?_ ?_ ?_ hd <;> rw [hc]
  · rw [hq.1, hc]

end Sys2Proof.Machine
end

