-- ==== Sys2Proof/Laws/Tile.lean ====
section
/-!
SUPPORT. What an access to tile memory delivers and stores.
-/
namespace Sys2Proof.Machine

set_option Elab.async false

theorem tilePut_read (s : State) (m off : Nat) (d : List Byte) : (tilePut s m off none d).tile = s.tile.writeBytes (m * 2 ^ 22 + off) d := by
  induction d generalizing s off with
  | nil => rfl
  | cons b r ih =>
    unfold tilePut Mem.writeBytes
    dsimp only
    rw [if_neg (by simp), ih, Nat.add_assoc]

/-- A wave that can issue is resident. -/
theorem issuing_waveAt {s : State} {e w : Nat} {x : Wave} (h : issuing s e w = some x) : waveAt s e w = some x := by
  unfold issuing at h
  split at h
  · rename_i y hy
    split at h
    · rw [hy]; exact h
    · exact absurd h (by simp)
  · exact absurd h (by simp)

/-- The elements of a window of a vector register, the active ones of them. -/
theorem tabFind_window (r lo : Nat) (ws : List Nat) (p : Nat → Bool) (i : Nat) (k0 : Nat) :
    tabFind (r * 512 + i) (((((ws.mapIdx fun k d => (lo + k0 + k, BitVec.ofNat 32 d)).filter fun k => p k.1)).map fun w => (r * 512 + w.1, w.2))) =
      if p i = true ∧ lo + k0 ≤ i ∧ i - (lo + k0) < ws.length then some (BitVec.ofNat 32 (nth ws (i - (lo + k0)))) else none := by
  induction ws generalizing k0 with
  | nil => simp
  | cons a l ih =>
    rw [List.mapIdx_cons, List.filter_cons]
    have h1 : (l.mapIdx fun k d => (lo + k0 + (k + 1), BitVec.ofNat 32 d)) = l.mapIdx fun k d => (lo + (k0 + 1) + k, BitVec.ofNat 32 d) := by
      apply List.ext_getElem?; intro n; rw [List.getElem?_mapIdx, List.getElem?_mapIdx]; congr 1; funext v; congr 1; omega
    rw [h1]
    have ih := ih (k0 + 1)
    dsimp only [Nat.add_zero] at ih ⊢
    by_cases hp : p (lo + k0) = true
    · rw [if_pos hp, List.map_cons, tabFind_cons]
      dsimp only
      by_cases hi : i = lo + k0
      · subst hi
        rw [if_pos rfl, if_pos ⟨hp, Nat.le_refl _, by simp⟩]
        simp [nth]
      · rw [if_neg (by omega), ih]
        by_cases hc : p i = true ∧ lo + (k0 + 1) ≤ i ∧ i - (lo + (k0 + 1)) < l.length
        · rw [if_pos hc, if_pos ⟨hc.1, by omega, by rw [List.length_cons]; omega⟩]
          rw [show i - (lo + k0) = (i - (lo + (k0 + 1))) + 1 by omega]; rfl
        · rw [if_neg hc, if_neg]; rintro ⟨h1, h2, h3⟩; rw [List.length_cons] at h3; exact hc ⟨h1, by omega, by omega⟩
    · rw [if_neg hp, ih]
      by_cases hc : p i = true ∧ lo + (k0 + 1) ≤ i ∧ i - (lo + (k0 + 1)) < l.length
      · rw [if_pos hc, if_pos ⟨hc.1, by omega, by rw [List.length_cons]; omega⟩]
        rw [show i - (lo + k0) = (i - (lo + (k0 + 1))) + 1 by omega]; rfl
      · rw [if_neg hc, if_neg]; rintro ⟨h1, h2, h3⟩
        by_cases hi : i = lo + k0
        · subst hi; exact hp h1
        · rw [List.length_cons] at h3; exact hc ⟨h1, by omega, by omega⟩

/-- A load that arrives. -/
theorem loadPut_scalar {s : State} {e w : Nat} {x : Wave} (h : waveAt s e w = some x) (g : Fin 32) (d : List Byte) :
    (eng (loadPut s e w (.scalar g) d) e).vreg = (eng s e).vreg ∧
      waveAt (loadPut s e w (.scalar g) d) e w = some { x with g := tabPut (fun _ => 0#32) g (BitVec.ofNat 32 (leNat (d.take 4))) x.g } := by
  unfold loadPut gput
  dsimp only
  rw [h]
  dsimp only
  exact ⟨by unfold setWave; rw [eng_setEng_self], waveAt_setWave h (show x.vbase = 16 * w from waveAt_vbase h)⟩

theorem loadPut_vector {s : State} {e w : Nat} {x : Wave} (h : waveAt s e w = some x) (v : Fin 128) (el : Fin 512) (d : List Byte) (r : Nat)
    (hr : physReg x v = some r) :
    (eng (loadPut s e w (.vector v el) d) e).waves = (eng s e).waves ∧
      ∀ i, tabFind (r * 512 + i) (eng (loadPut s e w (.vector v el) d) e).vreg =
        if i < 512 ∧ bit x.mask i = true ∧ el.val ≤ i ∧ i - el < (bytesWords d).length then
          some (BitVec.ofNat 32 (nth (bytesWords d) (i - el))) else tabFind (r * 512 + i) (eng s e).vreg := by
  unfold loadPut
  dsimp only
  rw [h]
  dsimp only
  obtain ⟨_, vr, hvr⟩ := vput_frame s e x v (((bytesWords d).mapIdx fun k d => (el.val + k, BitVec.ofNat 32 d)).filter fun k => Nat.blt k.1 512 && bit x.mask k.1)
  refine ⟨(congrArg Engine.waves hvr).trans rfl, fun i => ?_⟩
  rw [vput_find _ _ _ _ _ r hr]
  have := tabFind_window r el.val (bytesWords d) (fun i => Nat.blt i 512 && bit x.mask i) i 0
  dsimp only [Nat.add_zero] at this
  rw [this]
  by_cases hc : i < 512 ∧ bit x.mask i = true ∧ el.val ≤ i ∧ i - el < (bytesWords d).length
  · rw [if_pos hc, if_pos ⟨by simp only [Bool.and_eq_true, Nat.blt_eq]; exact ⟨hc.1, hc.2.1⟩, hc.2.2⟩]; rfl
  · rw [if_neg hc, if_neg (by
      rintro ⟨h1, h2⟩
      simp only [Bool.and_eq_true, Nat.blt_eq] at h1
      exact hc ⟨h1.1, h1.2, h2⟩)]
    rfl

/-- A load that arrives delivers its bytes; `s` stands for any state in which the engine's registers are those of `u`. -/
theorem loadPut_delivered {s u : State} {e w : Nat} {x : Wave} (h : waveAt u e w = some x)
    (hv : (eng u e).vreg = (eng s e).vreg) (hw : (eng u e).waves = (eng s e).waves) (dst : LoadDst) (d : List Byte) :
    Delivered s (loadPut u e w dst d) e w x d dst := by
  cases dst with
  | scalar g =>
    have hh := loadPut_scalar h g d
    refine ⟨hh.1.trans hv, _, hh.2, rfl, fun r => ?_⟩
    dsimp only
    rw [tabGet_put]
    by_cases hrg : r = g
    · rw [if_pos hrg, if_pos (congrArg Fin.val hrg)]
    · rw [if_neg hrg, if_neg (fun h => hrg (Fin.ext h))]
  | vector v el =>
    refine ⟨?_, fun r hr i => ?_⟩
    · unfold loadPut
      dsimp only
      rw [h]
      dsimp only
      obtain ⟨_, vr, hvr⟩ := vput_frame u e x v
        (((bytesWords d).mapIdx fun k d => (el.val + k, BitVec.ofNat 32 d)).filter fun k => Nat.blt k.1 512 && bit x.mask k.1)
      exact (congrArg Engine.waves hvr).trans hw
    · rw [(loadPut_vector h v el d r hr).2 i, hv]

/-- A load that arrives leaves the rest of its engine, and the others, alone. -/
theorem loadPut_rest (s : State) (e w : Nat) (dst : LoadDst) (d : List Byte) :
    (∃ ws vr, eng (loadPut s e w dst d) e = { eng s e with waves := ws, vreg := vr }) ∧
      ∀ k, k ≠ e → eng (loadPut s e w dst d) k = eng s k := by
  cases dst with
  | scalar g =>
    unfold loadPut gput
    dsimp only
    split
    · exact ⟨⟨_, _, rfl⟩, fun _ _ => rfl⟩
    · exact ⟨⟨_, _, eng_setEng_self _ _ _⟩, fun k hk => by unfold setWave; rw [eng_setEng, if_neg hk]⟩
  | vector v el =>
    unfold loadPut
    dsimp only
    split
    · exact ⟨⟨_, _, rfl⟩, fun _ _ => rfl⟩
    · rename_i x _
      obtain ⟨h1, vr, hvr⟩ := vput_frame s e x v
        (((bytesWords d).mapIdx fun k d => (el.val + k, BitVec.ofNat 32 d)).filter fun k => Nat.blt k.1 512 && bit x.mask k.1)
      exact ⟨⟨_, _, hvr⟩, h1⟩

end Sys2Proof.Machine
end

