-- ==== Sys2Proof/Laws/FarLine.lean ====
section
/-!
SUPPORT. What the operations of the far-line cache leave.
-/
namespace Sys2Proof.Machine

set_option Elab.async false

/-- A burst that an engine raises changes of the engines only the sequencer's traffic and the count of stores. -/
theorem engBurst_engines (s : State) (e : Nat) (wr : Bool) (addr len : Nat) (data : List Byte) (use : Nat) :
    (∃ q o, eng (engBurst s e wr addr len data use) e = { eng s e with seq := q, outstanding := o }) ∧
      ∀ k, k ≠ e → eng (engBurst s e wr addr len data use) k = eng s k := by
  unfold engBurst
  dsimp only
  have hr : ∀ (u : State) (b : Burst) (k : Nat), eng (raiseBurst u b) k = eng u k := fun u b k =>
    eng_congr ((does_raiseBurst u b (Does.refl (maskOf [.arbs]) u)).only.engines rfl) k
  refine ⟨?_, fun k hk => ?_⟩
  · rw [hr]
    split <;> split
    · exact ⟨_, _, by rw [eng_setEng_self, eng_setEng_self]⟩
    · exact ⟨_, _, by rw [eng_setEng_self]⟩
    · exact ⟨_, _, by rw [eng_setEng_self]⟩
    · exact ⟨_, _, rfl⟩
  · rw [hr]
    split <;> split
    · rw [eng_setEng, if_neg hk, eng_setEng, if_neg hk]
    · rw [eng_setEng, if_neg hk]
    · rw [eng_setEng, if_neg hk]
    · rfl

theorem writeBackSectors_engines (s : State) (e : Nat) (l : FarLine) (ks : List Nat) :
    (∃ q o, eng (writeBackSectors s e l ks) e = { eng s e with seq := q, outstanding := o }) ∧
      ∀ k, k ≠ e → eng (writeBackSectors s e l ks) k = eng s k := by
  induction ks generalizing s with
  | nil => exact ⟨⟨_, _, rfl⟩, fun _ _ => rfl⟩
  | cons k ks ih =>
    unfold writeBackSectors
    have h1 := engBurst_engines s e true (l.tag * 1024 + 64 * k) 64 (l.get (64 * k) 64) 2
    have h2 := ih (engBurst s e true (l.tag * 1024 + 64 * k) 64 (l.get (64 * k) 64) 2)
    obtain ⟨q, o, h⟩ := h1.1
    obtain ⟨q', o', h'⟩ := h2.1
    exact ⟨⟨q', o', by rw [h', h]⟩, fun j hj => (h2.2 j hj).trans (h1.2 j hj)⟩

/-- Writing back a line leaves it clean, and the others as they are. -/
theorem flcCleanLine_lines (s : State) (e n : Nat) :
    (∃ q o ls, eng (flcCleanLine s e n) e = { eng s e with seq := q, outstanding := o, lines := ls } ∧
      (∀ k, k ≠ n → tabFind k ls = tabFind k (eng s e).lines) ∧
      ∀ l, tabFind n ls = some l → l.dirty = 0) ∧
      ∀ k, k ≠ e → eng (flcCleanLine s e n) k = eng s k := by
  unfold flcCleanLine
  cases h : tabFind n (eng s e).lines with
  | none =>
    dsimp only
    exact ⟨⟨(eng s e).seq, (eng s e).outstanding, (eng s e).lines, rfl, fun _ _ => rfl, fun l hl => by
      rw [h] at hl; exact absurd hl (by simp)⟩, fun _ _ => rfl⟩
  | some l =>
    dsimp only
    have hw := writeBackSectors_engines s e l l.dirtySectors
    obtain ⟨q, o, hq⟩ := hw.1
    rw [hq]
    refine ⟨⟨q, o, tabPut (fun _ => {}) n { l with dirty := 0 } (eng s e).lines, by rw [eng_setEng_self], fun k hk => ?_, fun l' hl' => ?_⟩,
      fun k hk => by rw [eng_setEng, if_neg hk]; exact hw.2 k hk⟩
    · unfold tabPut
      split
      · exact tabFind_drop_other hk _
      · rw [tabFind_insert_other hk, tabFind_drop_other hk]
    · unfold tabPut at hl'
      split at hl'
      · rw [tabFind_drop_same] at hl'; exact absurd hl' (by simp)
      · rw [tabFind_insert_same _ _ _ (tabFind_drop_same _ _)] at hl'
        obtain rfl := Option.some.inj hl'
        rfl

/-- Writing back a list of lines leaves each of them clean. -/
theorem flcCleanLines_lines (s : State) (e : Nat) (ns : List Nat) :
    (∃ q o ls, eng (flcCleanLines s e ns) e = { eng s e with seq := q, outstanding := o, lines := ls } ∧
      (∀ k, k ∉ ns → tabFind k ls = tabFind k (eng s e).lines) ∧
      ∀ k ∈ ns, ∀ l, tabFind k ls = some l → l.dirty = 0) ∧
      ∀ k, k ≠ e → eng (flcCleanLines s e ns) k = eng s k := by
  induction ns generalizing s with
  | nil => exact ⟨⟨_, _, _, rfl, fun _ _ => rfl, fun k hk => absurd hk (by simp)⟩, fun _ _ => rfl⟩
  | cons n ns ih =>
    unfold flcCleanLines
    obtain ⟨⟨q, o, ls, h1, h2, h3⟩, h4⟩ := flcCleanLine_lines s e n
    obtain ⟨⟨q', o', ls', h1', h2', h3'⟩, h4'⟩ := ih (flcCleanLine s e n)
    rw [h1] at h1' h2'
    refine ⟨⟨q', o', ls', h1', fun k hk => ?_, fun k hk l hl => ?_⟩, fun k hk => (h4' k hk).trans (h4 k hk)⟩
    · rw [h2' k (fun h => hk (List.mem_cons_of_mem _ h))]
      exact h2 k (fun h => hk (h ▸ List.mem_cons_self))
    · by_cases hkn : k ∈ ns
      · exact h3' k hkn l hl
      · rcases List.mem_cons.1 hk with rfl | h
        · rw [h2' k hkn] at hl; exact h3 l hl
        · exact absurd h hkn

theorem putLine_engines (s : State) (e k : Nat) (l : FarLine) :
    eng (putLine s e k l) e = { eng s e with
      lines := tabPut (fun _ => {}) k { l with used := (eng s e).lineClock + 1 } (eng s e).lines
      lineClock := (eng s e).lineClock + 1 } ∧ ∀ j, j ≠ e → eng (putLine s e k l) j = eng s j := by
  unfold putLine
  exact ⟨eng_setEng_self _ _ _, fun j hj => by dsimp only; rw [eng_setEng, if_neg hj]⟩

/-- An access of a line in a powered group goes to that line. -/
theorem farTry_line {s : State} {e k : Nat} {l : FarLine} {w : FlcWait} (h : findLine (eng s e) w.addr = some (k, l))
    (hk : k / 8 < groupsOpen (eng s e)) :
    farTry s e w = ((lineAccess s e k l w).1, if (lineAccess s e k l w).2 then none else some w) := by
  have hd : dropDeparting s e w.addr = s := by unfold dropDeparting; rw [h]; dsimp only; rw [if_pos (Or.inl hk)]
  unfold farTry
  dsimp only
  rw [hd, h]
  dsimp only
  rw [if_pos hk]

/-- An access that is served leaves nothing waiting. -/
theorem farAccess_served {s t : State} {e : Nat} {w : FlcWait} (hb : w.bypass = false) (h : farTry s e w = (t, none)) :
    farAccess s e w = t := by
  unfold farAccess flcServeList
  rw [if_neg (by rw [hb]; exact Bool.false_ne_true), h]
  rfl

theorem FarLine.put_byte (l : FarLine) (i : Nat) (d : List Byte) (j : Nat) :
    (l.put i d).byte j = if i ≤ j ∧ j < i + d.length then d.getD (j - i) 0#8 else l.byte j := by
  induction d generalizing l i with
  | nil =>
    unfold FarLine.put
    rw [if_neg (by intro h; have := h.2; rw [List.length_nil] at this; omega)]
  | cons b r ih =>
    unfold FarLine.put
    rw [ih, List.length_cons]
    by_cases h : j = i
    · subst h
      rw [if_neg (by omega), if_pos (by omega)]
      unfold FarLine.byte
      dsimp only
      rw [tabGet_put_same]
      simp
    · by_cases h2 : i + 1 ≤ j ∧ j < i + 1 + r.length
      · rw [if_pos h2, if_pos (by omega), show j - i = (j - (i + 1)) + 1 by omega, List.getD_cons_succ]
      · rw [if_neg h2, if_neg (by omega)]
        unfold FarLine.byte
        dsimp only
        exact tabGet_put_other _ h _ _

theorem FarLine.put_rest (l : FarLine) (i : Nat) (d : List Byte) :
    (l.put i d).tag = l.tag ∧ (l.put i d).valid = l.valid ∧ (l.put i d).dirty = l.dirty ∧ (l.put i d).used = l.used := by
  induction d generalizing l i with
  | nil => exact ⟨rfl, rfl, rfl, rfl⟩
  | cons b r ih => unfold FarLine.put; exact ih _ _

theorem maskPut_testBit (m k i : Nat) (v : Bool) : (maskPut m k v).testBit i = if i = k then v else m.testBit i := by
  unfold maskPut
  rw [setBits_testBit]
  by_cases h : i = k
  · subst h
    rw [if_pos ⟨Nat.le_refl _, by omega⟩, if_pos rfl]
    cases v <;> simp [b2n]
  · rw [if_neg (by omega), if_neg h]

theorem bit_testBit (w i : Nat) : bit w i = w.testBit i := by
  unfold bit
  rw [Nat.testBit_eq_decide_div_mod_eq]
  rfl

theorem foldl_maskPut (ks : List Nat) (m i : Nat) (v : Bool) :
    bit (ks.foldl (fun m i => maskPut m i v) m) i = if i ∈ ks then v else bit m i := by
  induction ks generalizing m with
  | nil => simp
  | cons k ks ih =>
    rw [List.foldl_cons, ih]
    by_cases h : i ∈ ks
    · rw [if_pos h, if_pos (List.mem_cons_of_mem _ h)]
    · rw [if_neg h, bit_testBit, maskPut_testBit]
      by_cases hk : i = k
      · rw [if_pos hk, if_pos (hk ▸ List.mem_cons_self)]
      · rw [if_neg hk, if_neg (by intro hh; rcases List.mem_cons.1 hh with hh | hh; exacts [hk hh, h hh]), bit_testBit]

/-- The write-backs on their way are those of the bursts on their way. -/
theorem wbo_congr {s t : State} (h1 : t.arbs = s.arbs) (h2 : t.replies = s.replies) (h3 : t.arrived = s.arrived) (h4 : t.hostReads = s.hostReads) (e : Nat) :
    writeBacksOut t e = writeBacksOut s e := by unfold writeBacksOut burstsOut; rw [h1, h2, h3, h4]

end Sys2Proof.Machine
end

