-- ==== Sys2Proof/Laws/Sync.lean ====
section
/-!
SUPPORT. What the operations on semaphores and the releases of an engine leave.
-/
namespace Sys2Proof.Machine

set_option Elab.async false

theorem append_seq (s : State) (r : Rep) : (append s r).log.seq = (s.log.seq + 1) % 2 ^ 32 := by
  rw [append_log, ErrLog.store_seq]

theorem append_only (s : State) (r : Rep) : Does (maskOf [.log, .msix]) s (append s r) := does_append s r (Does.refl _ s)

/-! ### Semaphores -/

theorem semAt_quiet {s : State} {sem x : Nat} (h : ∀ y ∈ s.semCycles, y.sem = sem → y.cycle ≤ x) :
    semAt s sem x = semVal s sem := by
  unfold semAt
  have hf : (s.semCycles.filter fun c => c.sem == sem && Nat.blt x c.cycle) = [] := by
    rw [List.filter_eq_nil_iff]
    intro y hy hh
    rw [Bool.and_eq_true] at hh
    have h1 := h y hy (by simpa using hh.1)
    have h2 := hh.2
    simp only [Nat.blt, Nat.ble_eq] at h2
    omega
  rw [hf]
  rfl

theorem semIn_quiet {s : State} {sem : Nat} (h : SemQuiet s sem) :
    semIn s sem (aclk s) = { sem := sem, cycle := aclk s, old := semVal s sem } := by
  unfold semIn
  have hf : (s.semCycles.find? fun c => c.sem == sem && c.cycle == aclk s) = none := by
    rw [List.find?_eq_none]
    intro y hy hh
    simp only [Bool.and_eq_true, beq_iff_eq] at hh
    have := h y hy hh.1
    omega
  rw [hf, semAt_quiet fun y hy he => Nat.le_of_lt (h y hy he)]
  rfl

/-- An operation on a semaphore that no later cycle has operated on sets the word to what its cycle's operations leave
(R274); a saturating ADD is counted and logged the first time in its cycle (R271). -/
theorem semApply_word (s : State) (sem : Nat) (f : SemCycle → SemCycle)
    (h : ∀ y ∈ s.semCycles, y.sem = sem → y.cycle ≤ aclk s) (hs : sem < 8192) :
    semVal (semApply s sem f) sem = (f (semIn s sem (aclk s))).result % 2 ^ 32 ∧
    RegsBut [semOff sem, synBase + 0x880C] s (semApply s sem f) ∧
    (((f (semIn s sem (aclk s))).saturates && !(semIn s sem (aclk s)).saturates) = true →
      rd (semApply s sem f) (synBase + 0x880C) = (rd s (synBase + 0x880C) + 1) % 2 ^ 32 ∧
      (semApply s sem f).log.seq = (s.log.seq + 1) % 2 ^ 32) ∧
    (((f (semIn s sem (aclk s))).saturates && !(semIn s sem (aclk s)).saturates) = false →
      RegsBut [semOff sem] s (semApply s sem f) ∧ (semApply s sem f).log = s.log) := by
  have hl : (s.semCycles.filter fun y => y.sem == sem && Nat.blt (aclk s) y.cycle) = [] := by
    rw [List.filter_eq_nil_iff]
    intro y hy hh
    rw [Bool.and_eq_true] at hh
    have h1 := h y hy (by simpa using hh.1)
    have h2 := hh.2
    simp only [Nat.blt, Nat.ble_eq] at h2
    omega
  have hne : synBase + 0x880C ≠ semOff sem := by unfold semOff; omega
  unfold semApply semApplyAt
  dsimp only
  rw [hl]
  simp only [List.reverse_nil, semChain, List.nil_append]
  generalize f (semIn s sem (aclk s)) = c'
  generalize hu : wr _ (semOff sem) c'.result = u
  have hur : ∀ o, rd u o = if o = semOff sem then c'.result % 2 ^ 32 else rd s o := fun o => by
    rw [← hu, rd_wr]; rfl
  have hul : u.log = s.log := by rw [← hu]; rfl
  split
  · rename_i hc
    have ha : ∀ o, rd (append (bump u (synBase + 0x880C)) { code := 0x82, tag := quadPart u (sem / 512), kind := 2, unit := sem / 512, detail := [logQuad u (sem / 512), sem % 512] }) o =
        rd (bump u (synBase + 0x880C)) o := fun o => rd_congr ((append_only _ _).only.regs rfl) o
    refine ⟨?_, fun o ho => ?_, fun _ => ⟨?_, ?_⟩, fun h => absurd h (by rw [hc]; decide)⟩
    · unfold semVal
      rw [ha, bump, rd_wr_other _ hne.symm, hur, if_pos rfl]
    · simp only [List.mem_cons, List.not_mem_nil, or_false, not_or] at ho
      rw [ha, bump, rd_wr_other _ ho.2, hur, if_neg ho.1]
    · rw [ha, bump, rd_wr_self, hur, if_neg hne]
    · rw [append_seq]; show (u.log.seq + 1) % 2 ^ 32 = _; rw [hul]
  · rename_i hc
    refine ⟨?_, fun o ho => ?_, fun h => absurd h hc, fun _ => ⟨fun o ho => ?_, hul⟩⟩
    · unfold semVal
      rw [hur, if_pos rfl]
    · simp only [List.mem_cons, List.not_mem_nil, or_false, not_or] at ho
      rw [hur, if_neg ho.1]
    · simp only [List.mem_cons, List.not_mem_nil, or_false] at ho
      rw [hur, if_neg ho]

/-- The record of the present cycle comes first after an operation on the semaphore. -/
theorem semApply_cycles (s : State) (sem : Nat) (f : SemCycle → SemCycle)
    (h : ∀ y ∈ s.semCycles, y.sem = sem → y.cycle ≤ aclk s) :
    ∃ r, (semApply s sem f).semCycles = f (semIn s sem (aclk s)) :: r ∧ aclk (semApply s sem f) = aclk s ∧
      ∀ y ∈ r, y.sem = sem → y.cycle < aclk s := by
  have hl : (s.semCycles.filter fun y => y.sem == sem && Nat.blt (aclk s) y.cycle) = [] := by
    rw [List.filter_eq_nil_iff]
    intro y hy hh
    rw [Bool.and_eq_true] at hh
    have h1 := h y hy (by simpa using hh.1)
    have h2 := hh.2
    simp only [Nat.blt, Nat.ble_eq] at h2
    omega
  have hd := does_semApply s sem f (Does.refl (maskOf [.regs, .log, .msix, .semCycles]) s)
  have hc := aclk_congr (hd.only.now rfl) (hd.only.pll rfl) (hd.only.aclkBase rfl) (hd.only.aclkFrom rfl)
  have hm : ∀ y ∈ (s.semCycles.filter fun y => !(y.sem == sem && Nat.ble (aclk s) y.cycle)).filter
      (fun y => Nat.ble (aclk s) (y.cycle + 128)), y.sem = sem → y.cycle < aclk s := fun y hy he => by
    have h2 := (List.mem_filter.1 (List.mem_filter.1 hy).1).2
    simp only [Bool.not_eq_true', Bool.and_eq_false_iff, beq_eq_false_iff_ne] at h2
    rcases h2 with h2 | h2
    · exact absurd he h2
    · refine Nat.lt_of_not_le fun hle => ?_
      rw [Nat.ble_eq_true_of_le hle] at h2
      exact absurd h2 (by decide)
  unfold semApply semApplyAt at hc ⊢
  dsimp only at hc ⊢
  rw [hl] at hc ⊢
  simp only [List.reverse_nil, semChain, List.nil_append] at hc ⊢
  split
  · rename_i hi
    rw [if_pos hi] at hc
    exact ⟨_, (append_only _ _).only.semCycles rfl, hc, hm⟩
  · rename_i hi
    rw [if_neg hi] at hc
    exact ⟨_, rfl, hc, hm⟩

/-- In one cycle the ADDs act before the SUBs (R274). -/
theorem semApply_twice {s : State} {sem : Nat} (h : SemQuiet s sem) (hs : sem < 8192) (f g : SemCycle → SemCycle)
    (hf : ∀ y, (f y).sem = y.sem ∧ (f y).cycle = y.cycle) :
    semVal (semApply (semApply s sem f) sem g) sem =
      (g (f { sem := sem, cycle := aclk s, old := semVal s sem })).result % 2 ^ 32 := by
  obtain ⟨r, hr, hc, hm⟩ := semApply_cycles s sem f fun y hy he => Nat.le_of_lt (h y hy he)
  have h2 : ∀ y ∈ (semApply s sem f).semCycles, y.sem = sem → y.cycle ≤ aclk (semApply s sem f) := fun y hy he => by
    rw [hr] at hy
    rw [hc]
    rcases List.mem_cons.1 hy with hy | hy
    · rw [hy, (hf _).2, semIn_quiet h]
    · exact Nat.le_of_lt (hm y hy he)
  rw [(semApply_word _ sem g h2 hs).1]
  congr 3
  unfold semIn
  rw [hr, List.find?_cons]
  have hb : ((f (semIn s sem (aclk s))).sem == sem && (f (semIn s sem (aclk s))).cycle == aclk (semApply s sem f)) = true := by
    rw [(hf _).1, (hf _).2, semIn_quiet h, hc]
    simp
  rw [hb]
  dsimp only
  rw [semIn_quiet h]
  rfl

theorem semOf_lt {s : State} {p lq i sem : Nat} (h : semOf s p lq i = some sem) : sem < 8192 := by
  unfold semOf at h
  rw [Option.map_eq_some_iff] at h
  obtain ⟨q, h1, h2⟩ := h
  have hm := List.mem_of_getElem? h1
  unfold quadsOf at hm
  have := (List.mem_filter.1 hm).1
  rw [List.mem_range] at this
  omega

/-- ADD in a cycle that has not operated on the semaphore (R270, R271). -/
theorem semAdd_word {s : State} {sem : Nat} (h : SemQuiet s sem) (hs : sem < 8192) (n : Nat) :
    semVal (semAdd s sem n) sem = min (2 ^ 32 - 1) (semVal s sem + n) ∧
    RegsBut [semOff sem, synBase + 0x880C] s (semAdd s sem n) ∧
    (2 ^ 32 ≤ semVal s sem + n → rd (semAdd s sem n) (synBase + 0x880C) = (rd s (synBase + 0x880C) + 1) % 2 ^ 32 ∧
      (semAdd s sem n).log.seq = (s.log.seq + 1) % 2 ^ 32) ∧
    (semVal s sem + n < 2 ^ 32 → RegsBut [semOff sem] s (semAdd s sem n) ∧ (semAdd s sem n).log = s.log) := by
  have w := semApply_word s sem (fun c => { c with adds := c.adds + n }) (fun y hy he => Nat.le_of_lt (h y hy he)) hs
  have hlt : semVal s sem < 2 ^ 32 := rd_lt s _
  rw [semIn_quiet h] at w
  unfold SemCycle.saturates SemCycle.result at w
  dsimp only at w
  simp only [Nat.zero_add, Nat.add_zero, Nat.sub_zero, Option.getD_none, List.foldl_nil, Bool.and_eq_true, Bool.not_eq_true',
    Nat.ble_eq, Bool.and_eq_false_iff, Bool.not_eq_false'] at w
  obtain ⟨w1, w2, w3, w4⟩ := w
  refine ⟨?_, w2, fun hh => w3 ⟨hh, ?_⟩, fun hh => w4 (Or.inl ?_)⟩
  · unfold semAdd
    rw [w1]; omega
  · exact Bool.eq_false_iff.2 fun hb => absurd (Nat.le_of_ble_eq_true hb) (by omega)
  · exact Bool.eq_false_iff.2 fun hb => absurd (Nat.le_of_ble_eq_true hb) (by omega)

/-- SUB in a cycle that has not operated on the semaphore (R270). -/
theorem semSub_word {s : State} {sem : Nat} (h : SemQuiet s sem) (hs : sem < 8192) (n : Nat) :
    semVal (semSub s sem n) sem = semVal s sem - n ∧ RegsBut [semOff sem] s (semSub s sem n) ∧
    (semSub s sem n).log = s.log := by
  have w := semApply_word s sem (fun c => { c with subs := c.subs + n }) (fun y hy he => Nat.le_of_lt (h y hy he)) hs
  have hlt : semVal s sem < 2 ^ 32 := rd_lt s _
  rw [semIn_quiet h] at w
  unfold SemCycle.saturates SemCycle.result at w
  dsimp only at w
  simp only [Nat.zero_add, Nat.add_zero, Option.getD_none, List.foldl_nil, Bool.and_not_self] at w
  have w4 := w.2.2.2 trivial
  refine ⟨?_, w4.1, w4.2⟩
  unfold semSub
  rw [w.1]; omega

/-- An ARRIVE for the round being collected, in a cycle that has not operated on the semaphore (R278). -/
theorem semArrive_word {s : State} {sem : Nat} (h : SemQuiet s sem) (hs : sem < 8192) (port k p : Nat) :
    semVal (semArriveAt s sem (aclk s) port k p) sem = barCount (semVal s sem) k p % 2 ^ 32 ∧
    RegsBut [semOff sem] s (semArriveAt s sem (aclk s) port k p) ∧
    (semArriveAt s sem (aclk s) port k p).log = s.log := by
  have w := semApply_word s sem (fun c => { c with arrives := arriveInsert (port, k, p) c.arrives })
    (fun y hy he => Nat.le_of_lt (h y hy he)) hs
  have hlt : semVal s sem < 2 ^ 32 := rd_lt s _
  rw [semIn_quiet h] at w
  unfold SemCycle.saturates SemCycle.result at w
  dsimp only at w
  simp only [Nat.add_zero, Nat.sub_zero, Option.getD_none, Bool.and_not_self, arriveInsert, List.foldl_cons, List.foldl_nil] at w
  have w4 := w.2.2.2 trivial
  refine ⟨?_, w4.1, w4.2⟩
  have w1 := w.1
  rw [show min (semVal s sem) (2 ^ 32 - 1) = semVal s sem by omega] at w1
  exact w1

/-! ### Releases -/

theorem engBurst_stores (s : State) (e : Nat) (wr : Bool) (addr len : Nat) (data : List Byte) (use : Nat) :
    (eng s e).outstanding ≤ (eng (engBurst s e wr addr len data use) e).outstanding ∧
    (eng (engBurst s e wr addr len data use) e).releases = (eng s e).releases := by
  unfold engBurst
  dsimp only
  rw [eng_congr ((does_raiseBurst _ _ (Does.refl (maskOf [.arbs]) _)).only.engines rfl)]
  split <;> split <;> simp only [eng_setEng_self] <;> exact ⟨by omega, trivial⟩

theorem writeBackSectors_stores (s : State) (e : Nat) (l : FarLine) (ks : List Nat) :
    (eng s e).outstanding ≤ (eng (writeBackSectors s e l ks) e).outstanding ∧
    (eng (writeBackSectors s e l ks) e).releases = (eng s e).releases := by
  induction ks generalizing s with
  | nil => exact ⟨Nat.le_refl _, rfl⟩
  | cons k ks ih =>
    unfold writeBackSectors
    have h1 := engBurst_stores s e true (l.tag * 1024 + 64 * k) 64 (l.get (64 * k) 64) 2
    have h2 := ih (engBurst s e true (l.tag * 1024 + 64 * k) 64 (l.get (64 * k) 64) 2)
    exact ⟨Nat.le_trans h1.1 h2.1, h2.2.trans h1.2⟩

theorem flcClean_stores (s : State) (e : Nat) :
    (eng s e).outstanding ≤ (eng (flcClean s e) e).outstanding ∧ (eng (flcClean s e) e).releases = (eng s e).releases := by
  unfold flcClean
  generalize List.range 48 = ns
  induction ns generalizing s with
  | nil => exact ⟨Nat.le_refl _, rfl⟩
  | cons n ns ih =>
    unfold flcCleanLines
    have h1 : (eng s e).outstanding ≤ (eng (flcCleanLine s e n) e).outstanding ∧
        (eng (flcCleanLine s e n) e).releases = (eng s e).releases := by
      unfold flcCleanLine
      split
      · exact ⟨Nat.le_refl _, rfl⟩
      · dsimp only
        rw [eng_setEng_self]
        exact writeBackSectors_stores s e _ _
    have h2 := ih (flcCleanLine s e n)
    exact ⟨Nat.le_trans h1.1 h2.1, h2.2.trans h1.2⟩

/-- With no dirty line a cleaning raises nothing. -/
theorem flcClean_clean (s : State) (e : Nat) (h : ∀ n l, tabFind n (eng s e).lines = some l → l.dirty = 0) :
    Does (maskOf [.engines]) s (flcClean s e) ∧ (∃ ls, eng (flcClean s e) e = { eng s e with lines := ls }) ∧
    ∀ k, k ≠ e → eng (flcClean s e) k = eng s k := by
  unfold flcClean
  generalize List.range 48 = ns
  induction ns generalizing s with
  | nil => exact ⟨Does.refl _ s, ⟨_, rfl⟩, fun _ _ => rfl⟩
  | cons n ns ih =>
    unfold flcCleanLines
    have h1 : Does (maskOf [.engines]) s (flcCleanLine s e n) ∧ (∃ ls, eng (flcCleanLine s e n) e = { eng s e with lines := ls } ∧
        ∀ k l, tabFind k ls = some l → l.dirty = 0) ∧ ∀ k, k ≠ e → eng (flcCleanLine s e n) k = eng s k := by
      have hL := flcCleanLine_lines s e n
      unfold flcCleanLine at hL ⊢
      cases hn : tabFind n (eng s e).lines with
      | none => dsimp only; exact ⟨Does.refl _ s, ⟨_, rfl, h⟩, fun _ _ => rfl⟩
      | some l =>
        rw [hn] at hL
        dsimp only at hL ⊢
        have hd : l.dirtySectors = [] := by
          unfold FarLine.dirtySectors
          rw [h n l hn, List.filter_eq_nil_iff]
          intro k _ hk
          rw [bit_testBit, Nat.zero_testBit] at hk
          exact absurd hk (by decide)
        rw [hd] at hL ⊢
        unfold writeBackSectors at hL ⊢
        refine ⟨does_setEng _ _ _ (Does.refl _ s), ⟨_, eng_setEng_self _ _ _, fun k x hx => ?_⟩, fun k hk => by rw [eng_setEng, if_neg hk]⟩
        obtain ⟨⟨q, o, ls, e1, e2, e3⟩, _⟩ := hL
        rw [eng_setEng_self] at e1
        have e4 : tabPut (fun _ => {}) n { l with dirty := 0 } (eng s e).lines = ls := congrArg Engine.lines e1
        rw [e4] at hx
        by_cases hk : k = n
        · subst hk; exact e3 _ hx
        · rw [e2 k hk] at hx; exact h k x hx
    obtain ⟨d1, ⟨ls, e1, e2⟩, e3⟩ := h1
    have h2 := ih (flcCleanLine s e n) (fun k l hk => e2 k l (by rw [e1] at hk; exact hk))
    obtain ⟨d2, ⟨ls', e4⟩, e5⟩ := h2
    refine ⟨?_, ⟨ls', by rw [e4, e1]⟩, fun k hk => (e5 k hk).trans (e3 k hk)⟩
    exact d1.trans d2

/-- A release with nothing before it takes effect at once (R296). -/
theorem releaseIssue_now {s : State} {e : Nat} (h : ReleasesAtOnce s e) (r : Release) :
    ∃ u, releaseIssue s e r = releaseApply u e r ∧ Does (maskOf [.engines]) s u ∧
      (∃ ls, eng u e = { eng s e with lines := ls }) ∧ ∀ k, k ≠ e → eng u k = eng s k := by
  have hc := flcClean_clean s e h.clean
  unfold releaseIssue
  dsimp only
  obtain ⟨d, ⟨ls, e1⟩, e2⟩ := hc
  rw [if_pos ⟨by rw [e1]; exact h.stores, by rw [e1]; exact h.first⟩]
  exact ⟨_, rfl, d, ⟨ls, e1⟩, e2⟩

/-- A release behind a store or another release waits (R296). -/
theorem releaseIssue_waits {s : State} {e : Nat} (h : (eng s e).outstanding ≠ 0 ∨ (eng s e).releases ≠ []) (r : Release) :
    Does (maskOf [.engines, .arbs]) s (releaseIssue s e r) ∧
    (eng (releaseIssue s e r) e).releases = (eng s e).releases ++ [r] ∧
    ∀ k, k ≠ e → eng (releaseIssue s e r) k = eng s k := by
  have hc := flcClean_stores s e
  have hl := flcCleanLines_lines s e (List.range 48)
  unfold releaseIssue
  dsimp only
  rw [if_neg (by
    intro hh
    rcases h with h | h
    · have := hc.1; omega
    · exact h (by rw [← hc.2]; exact hh.2))]
  refine ⟨does_setEng _ _ _ (does_flcClean _ _ (Does.refl _ s)), by rw [eng_setEng_self]; dsimp only; rw [hc.2], fun k hk => ?_⟩
  rw [eng_setEng, if_neg hk]
  exact hl.2 k hk

/-! ### The shared parts of the statements -/

theorem semPart (s : State) (c e lq i : Nat) : semOf (atAclk s c) (engPart (atAclk s c) e) lq i = semOf s (engPart s e) lq i := rfl

theorem engSem_eq {s : State} {e w lq i c sem : Nat} {f : State → Nat → State} (hw : (waveAt s e w).isSome = true)
    (hs : semOf s (engPart s e) lq i = some sem) : engSem s e w lq i c f = f (atAclk s c) sem := by
  obtain ⟨x, hx⟩ := Option.isSome_iff_exists.1 hw
  unfold engSem
  dsimp only
  rw [show waveAt (atAclk s c) e w = waveAt s e w from rfl, hx, semPart, hs]

theorem atOnce_atAclk {s : State} {e : Nat} (c : Nat) (h : ReleasesAtOnce s e) : ReleasesAtOnce (atAclk s c) e := ⟨h.clean, h.stores, h.first⟩

theorem semVal_congr {s t : State} (h : t.regs = s.regs) (x : Nat) : semVal t x = semVal s x := rd_congr h _

theorem regsBut_congr {l : List Nat} {s t u : State} (h : t.regs = s.regs) (g : RegsBut l t u) : RegsBut l s u := fun o ho => (g o ho).trans (rd_congr h o)

theorem quiet_congr {s t : State} {sem : Nat} (h : t.semCycles = s.semCycles) (h2 : aclk t = aclk s) (q : SemQuiet s sem) : SemQuiet t sem := by
  unfold SemQuiet; rw [h, h2]; exact q

theorem ownAclk {m : Nat} {s t : State} (d : Does m s t) (h1 : m.testBit 1 = false) (h2 : m.testBit 2 = false) (h3 : m.testBit 3 = false) (h4 : m.testBit 4 = false) :
    aclk t = aclk s := aclk_congr (d.only.now h1) (d.only.pll h2) (d.only.aclkBase h3) (d.only.aclkFrom h4)

theorem waveAt_setSpin {s : State} {e w : Nat} {x : Wave} (h : waveAt s e w = some x) (sp : Option Spin) :
    waveAt (setSpin s e w sp) e w = some { x with spin := sp } := by
  unfold setSpin
  rw [h]
  dsimp only
  exact waveAt_setWave h (show x.vbase = _ from waveAt_vbase h)

theorem eng_setSpin_other (s : State) (e w : Nat) (sp : Option Spin) {k : Nat} (hk : k ≠ e) : eng (setSpin s e w sp) k = eng s k := by
  unfold setSpin
  split
  · rfl
  · unfold setWave; rw [eng_setEng, if_neg hk]

theorem eng_endWork_other (s : State) (e w code : Nat) {k : Nat} (hk : k ≠ e) : eng (endWork s e w code) k = eng s k := by
  unfold endWork
  split
  · rfl
  · split
    · unfold seqEnd
      simp only
      split
      · rfl
      · rw [eng_setEng, if_neg hk]
    · rw [eng_congr ((does_markJob _ _ _ (Does.refl (maskOf [.jobs]) _)).only.engines rfl)]
      unfold dropWave
      rw [eng_setEng, if_neg hk]

theorem endWork_job {s : State} {e w : Nat} {x : Wave} (h : waveAt s e w = some x) (hx : x.work ≠ .step) (code : Nat) :
    waveAt (endWork s e w code) e w = none ∧
      jobOf (endWork s e w code) x.job = (jobOf s x.job).map fun j => { j with err := if j.err = 0 then code else j.err } := by
  unfold endWork
  rw [h]
  dsimp only
  rw [if_neg hx]
  refine ⟨?_, ?_⟩
  · have := waveAt_dropWave s e w
    unfold markJob waveAt at *
    exact this
  · unfold markJob
    refine (jobOf_updJob _ _ _ (fun j => ?_)).trans ?_
    · rfl
    · have q := (does_dropWave s e w (Does.refl (maskOf [.engines]) s)).only.jobs rfl
      unfold jobOf
      rw [q]

theorem regsBut_app {l m : List Nat} {s t u : State} (h : RegsBut l s t) (g : RegsBut m t u) : RegsBut (l ++ m) s u := fun o ho => by
  rw [g o (fun hh => ho (List.mem_append.2 (Or.inr hh))), h o (fun hh => ho (List.mem_append.2 (Or.inl hh)))]

theorem does_sem {s : State} {sem : Nat} (f : SemCycle → SemCycle) : Does (maskOf [.regs, .log, .msix, .semCycles]) s (semApply s sem f) := by
  unfold semApply; exact does_semApplyAt _ _ _ _ (Does.refl _ s)

theorem semOff_fe (sem : Nat) (h : sem < 8192) : semOff sem ∉ [feOff 0x14] := by
  simp only [List.mem_cons, List.not_mem_nil, or_false]; unfold semOff feOff feBase; unfold synBase at *; omega

end Sys2Proof.Machine
end

