-- ==== Sys2Proof/Laws/Answer.lean ====
section
/-!
SUPPORT. How a served message completes: its reply, and what the work before the reply has left.
-/
namespace Sys2Proof.Machine

set_option Elab.async false

/-- A command that ends in a reply answers as `Answers` says: `u` is the state before the reply. -/
theorem answers_of {c : Instr} {s u : State} {l : List Field} {offs : List Nat} {k m : Nat} {w : List Nat} {st : Nat}
    {words : List Nat} {P : State → Prop} (e0 : exec c s = .next (mbReply u m w st words)) (hu : Does k s u)
    (hr : RegsBut offs s u) (hst : st < 256)
    (hP : ∀ t, Does 0xc0000000000240 u t → RegsBut (replyRegs m) u t → Replied t m w st words → P t)
    (hk : Sub k (maskOf ([.regs, .msix, .mboxes, .mbOrder] ++ l)) := by exact Sub.of_eq rfl) :
    Answers c s l offs m w st words P := by
  have hd : Does 0xc0000000000240 u (mbReply u m w st words) := does_mbReply u m w st words (Does.refl _ u)
  have hb := mbReply_regsBut u m w st words
  have hq := mbReply_replied u m w st words hst
  have hs : Sub 0xc0000000000240 (maskOf ([.regs, .msix, .mboxes, .mbOrder] ++ l)) := by
    intro n hn
    have e : maskOf ([.regs, .msix, .mboxes, .mbOrder] ++ l) = 0xc0000000000240 ||| maskOf l := by
      show 2 ^ 6 ||| (2 ^ 9 ||| (2 ^ 54 ||| (2 ^ 55 ||| maskOf l))) = _
      rw [← Nat.or_assoc, ← Nat.or_assoc, ← Nat.or_assoc]
      rfl
    rw [e, Nat.testBit_or, hn, Bool.true_or]
  exact completes_of e0 ((hu.mono hk).trans (hd.mono hs)) ⟨hq, fun o ho => by
    rw [List.mem_append, not_or] at ho
    rw [hb o ho.1, hr o ho.2], hP _ hd hb hq⟩

/-- A message that replies at once and does nothing else. -/
theorem answers_only {c : Instr} {s : State} {m : Nat} {w : List Nat} {st : Nat}
    {words : List Nat} (e0 : exec c s = .next (mbReply s m w st words)) (hst : st < 256) :
    Answers c s [] [] m w st words fun _ => True :=
  answers_of e0 (Does.refl 0 s) (fun _ _ => rfl) hst (fun _ _ _ _ => trivial)

/-- What the contexts, queues and fence slots are in a state whose table is that of an update. -/
theorem ctx_after {s t : State} {c : Nat} {x : Ctx} (h : t.ctxs = (setCtx s c x).ctxs) (k : Nat) :
    ctxOf t k = if k = c then x else ctxOf s k := by
  rw [← ctxOf_setCtx s c k x]; unfold ctxOf; rw [h]

theorem que_after {s t : State} {q : Nat} {x : Queue} (h : t.queues = (setQue s q x).queues) (k : Nat) :
    que t k = if k = q then x else que s k := by
  rw [← que_setQue s q k x]; unfold que; rw [h]

/-- The lowest number that meets a test. -/
theorem find_lowest {f : Nat → Bool} {n c : Nat} (hc : c < n) (h : f c = true) (hl : ∀ k, k < c → f k = false) :
    (List.range n).find? f = some c := by
  rw [List.find?_range_eq_some]
  exact ⟨h, List.mem_range.2 hc, fun k hk => by rw [hl k hk]; rfl⟩

theorem find_none {f : Nat → Bool} {n : Nat} (hl : ∀ k, k < n → f k = false) : (List.range n).find? f = none := by
  rw [List.find?_eq_none]
  intro k hk
  rw [hl k (List.mem_range.1 hk)]
  decide

/-- A message that goes on is held by Eflan, marked as being acted on. -/
theorem mbBegin_held (s : State) (m : Nat) (w : List Nat) :
    tabFind m (mbBegin s m w).mboxes = some { words := w, acting := true } ∧
    (∀ k, k ≠ m → tabFind k (mbBegin s m w).mboxes = tabFind k s.mboxes) ∧
    (mbBegin s m w).mbOrder = s.mbOrder.filter (· != m) :=
  ⟨tabFind_insert_same _ _ _ (tabFind_drop_same _ _), fun k hk => by
    show tabFind k (tabInsert m _ (tabDrop m s.mboxes)) = _
    rw [tabFind_insert_other hk, tabFind_drop_other hk], rfl⟩

/-- The teardown of a queue that has no slot and no unfinished job. -/
theorem teardown_idle {u : State} {q : Nat} (fences : List TdFence) (mbox : Option Nat) (h2 : (que u q).slot = none)
    (h3 : jobsOf u q = []) : teardown u q fences mbox = setQue u q { que u q with
      life := .draining
      tdOrder := 2
      tdAt := u.now
      tdFences := fences
      tdMbox := mbox
      tdEngines := []
      tdRun := runPromise u q } := by
  have hj : ∀ x, jobsOf (setQue u q x) q = [] := fun _ => h3
  unfold teardown
  dsimp only
  rw [h3, h2]
  dsimp only
  rw [show ((List.range 64).filter fun e => ([] : List Job).any fun j => (jobEngs u j).contains e) = [] from
    List.filter_eq_nil_iff.2 (fun _ _ => by simp), hj]
  rfl

end Sys2Proof.Machine
end

