-- ==== Sys2Proof/Laws/Front.lean ====
section
/-!
SUPPORT. A command that decodes acts: what the front end's checks leave for the command itself.
-/
namespace Sys2Proof.Machine

set_option Elab.async false

theorem slotOf_atHeader (s : State) (n : Nat) :
    slotOf (atHeader s n) n = { slotOf s n with hdr := (slotOf s n).buf.pos } := slotOf_setSlot_self _ _ _

/-- A command whose checks pass acts on the decoded state. -/
theorem decodeCmd_decodes {s : State} {n : Nat} {row : CmdRow} {w : List Nat} {refs : List Ref}
    (h : Decodes s n row.op w (row.needs w) refs) (hs : row.sel w = true) :
    decodeCmd s n row = row.act (decoded s n row.op (row.needs w)) n w refs := by
  delta decodeCmd
  dsimp only
  rw [if_neg (by simp [h.runs, h.ready]), h.fetched]
  dsimp only
  rw [if_neg (fun x => x h.opcode), if_neg (by
    intro x
    have := h.kernel x.1
    simp [this] at x), if_neg (by
    intro x
    rcases x with x | x | x
    · exact h.length x
    · exact x h.fixed
    · exact absurd h.fits (Nat.not_le.2 x)), h.whole]
  dsimp only
  rw [h.words, if_neg (by simp [hs]), if_neg (by rw [h.noSkip]; exact Nat.lt_irrefl 0)]
  show runCmd (atHeader s n) n row w = _
  delta runCmd
  dsimp only
  rw [h.flow]
  dsimp only
  rw [slotOf_atHeader]
  have e1 : (que (atHeader s n) (slotOf s n).queue) = que s (slotOf s n).queue := rfl
  rw [e1, h.pass, if_neg Bool.false_ne_true, if_neg (by
    intro x
    have := h.kept x.1
    have e2 : discarding (atHeader s n) (slotOf s n).queue = discarding s (slotOf s n).queue := rfl
    rw [e2, this] at x
    exact Bool.false_ne_true x.2), h.reloc]
  rfl

theorem touchAll_frame (l : List (Nat × Need)) (s : State) (c : Nat) :
    touchAll s c l = { s with reloc := (touchAll s c l).reloc } := by
  induction l generalizing s with
  | nil => rfl
  | cons x r ih =>
    unfold touchAll
    have e : relocTouch s c (x.1 % 2 ^ 24) = { s with reloc := (relocTouch s c (x.1 % 2 ^ 24)).reloc } := by
      unfold relocTouch
      split <;> rfl
    rw [ih, e]

/-- What decoding changes: a counter, the cache's order, and the slot's header place and timer. -/
theorem decoded_frame (s : State) (n op : Nat) (needs : List (Nat × Need)) :
    decoded s n op needs = { s with regs := (bump s (feOff 0x14) needs.length).regs, slots := (decoded s n op needs).slots,
                                    reloc := (decoded s n op needs).reloc } := by
  unfold decoded
  dsimp only
  rw [touchAll_frame]
  split <;> rfl

/-- The slot of a decoded command. -/
theorem slotOf_decoded (s : State) (n op : Nat) (needs : List (Nat × Need)) :
    slotOf (decoded s n op needs) n = if 0x01 ≤ op ∧ op ≤ 0x06 ∧ (slotOf s n).flowFrom = none then
      { slotOf s n with hdr := (slotOf s n).buf.pos, flowFrom := some s.now,
                        flowLimit := bits (rd (bump s (feOff 0x14) needs.length) (feOff 0)) 0 17 }
    else { slotOf s n with hdr := (slotOf s n).buf.pos } := by
  unfold decoded
  dsimp only
  have e : slotOf (touchAll (bump (atHeader s n) (feOff 0x14) needs.length) ((slotOf s n).ctx.getD 0) needs) n
      = { slotOf s n with hdr := (slotOf s n).buf.pos } := by
    rw [touchAll_frame]
    exact slotOf_atHeader s n
  split
  · rw [slotOf_setSlot_self, e]
    rw [touchAll_frame]
    rfl
  · exact e

/-- Everything that decoding changes. -/
theorem decoded_facts (s : State) (n op : Nat) (needs : List (Nat × Need)) :
    Does (maskOf [.regs, .slots, .reloc]) s (decoded s n op needs) ∧ RegsBut [feOff 0x14] s (decoded s n op needs) ∧
    (∃ a b c, slotOf (decoded s n op needs) n = { slotOf s n with hdr := a, flowFrom := b, flowLimit := c }) ∧
    ∀ k, k ≠ n → slotOf (decoded s n op needs) k = slotOf s k := by
  refine ⟨?_, ?_, ?_, ?_⟩
  · unfold decoded
    dsimp only
    have h : Does (maskOf [.regs, .slots, .reloc]) s
        (touchAll (bump (atHeader s n) (feOff 0x14) needs.length) ((slotOf s n).ctx.getD 0) needs) :=
      does_touchAll _ _ _ (does_bump _ _ _ (does_setSlot _ _ _ (Does.refl _ s)))
    split
    · exact does_setSlot _ _ _ h
    · exact h
  · intro o ho
    have e : (decoded s n op needs).regs = (bump s (feOff 0x14) needs.length).regs := by
      rw [decoded_frame]
    rw [rd_congr e]
    exact bump_regsBut s _ _ o ho
  · rw [slotOf_decoded]
    split
    · exact ⟨_, _, _, rfl⟩
    · exact ⟨_, _, _, rfl⟩
  · intro k hk
    unfold decoded
    dsimp only
    have e : slotOf (touchAll (bump (atHeader s n) (feOff 0x14) needs.length) ((slotOf s n).ctx.getD 0) needs) k
        = slotOf s k := by
      rw [touchAll_frame]
      exact (slotOf_setSlot s n k _).trans (if_neg hk)
    split
    · rw [slotOf_setSlot, if_neg hk, e]
    · exact e

/-- Everything that decoding and passing a command changes. -/
theorem began_facts (s : State) (n op : Nat) (needs : List (Nat × Need)) (k : Nat) :
    Does (maskOf [.regs, .slots, .reloc]) s (began s n op needs k) ∧ RegsBut [feOff 0x14] s (began s n op needs k) ∧
    SlotIs s (began s n op needs k) n ((slotOf s n).begun k) ∧
    (slotOf (began s n op needs k) n).queue = (slotOf s n).queue := by
  obtain ⟨hd, hr, ⟨a, b, c, hs⟩, ho⟩ := decoded_facts s n op needs
  unfold began beginAt
  dsimp only
  generalize decoded s n op needs = d at *
  refine ⟨does_setSlot _ _ _ hd, hr, ⟨?_, fun k' hk => ?_⟩, ?_⟩
  · rw [slotOf_setSlot_self, hs]
    rfl
  · rw [slotOf_setSlot, if_neg hk, ho k' hk]
  · rw [slotOf_setSlot_self, hs]

/-- A job command that decodes and whose order lets it begin acts on the state past it. -/
theorem startOr_begins {s : State} {n op : Nat} {needs : List (Nat × Need)} {ok : Bool} {w : List Nat} {refs : List Ref}
    {act : State → Nat → List Nat → List Ref → State} (h : ok = true) :
    startOr ok op act (decoded s n op needs) n w refs = act (began s n op needs w.length) n w refs := by
  unfold startOr
  rw [if_pos h]
  rfl

/-- Decoding changes neither the slot's queue nor what job order depends on. -/
theorem decoded_order (s : State) (n op : Nat) (needs : List (Nat × Need)) :
    (slotOf (decoded s n op needs) n).queue = (slotOf s n).queue ∧
    (∀ q, queueIdle (decoded s n op needs) q = queueIdle s q) ∧ (∀ q, prevDone (decoded s n op needs) q = prevDone s q) ∧
    ∀ q, allStarted (decoded s n op needs) q = allStarted s q := by
  obtain ⟨hd, -, ⟨a, b, c, hs⟩, -⟩ := decoded_facts s n op needs
  have hj : ∀ q, jobsOf (decoded s n op needs) q = jobsOf s q := fun q => by unfold jobsOf; rw [hd.only.jobs rfl]
  have hq : ∀ q, que (decoded s n op needs) q = que s q := fun q => by unfold que; rw [hd.only.queues rfl]
  refine ⟨by rw [hs], fun q => ?_, fun q => ?_, fun q => ?_⟩
  · unfold queueIdle
    rw [hj]
  · unfold prevDone
    rw [hj, hq]
  · unfold allStarted
    rw [hj]

theorem others_set (s : State) (n : Nat) (x : SlotSt) (k : Nat) (hk : k ≠ n) : slotOf (setSlot s n x) k = slotOf s k := by
  rw [slotOf_setSlot, if_neg hk]

theorem slotAdvance_none {s : State} {n : Nat} (h : (slotOf s n).pf = none) : slotAdvance s n = setSlot s n { slotOf s n with inEntry := false, entryWords := none, rptr := ((slotOf s n).rptr + 1) % 2 ^ 32, calls := [], loops := [], skip := 0, ahead := none, pf := none, pfMiss := none, buf := {} } := by
  unfold slotAdvance; dsimp only; rw [h]

theorem decodeAct {s : State} {n : Nat} {row : CmdRow} {w : List Nat} {refs : List Ref} (h : Decodes s n row.op w (row.needs w) refs) (hs : row.sel w = true) :
    (Host.Outcome.next (decodeCmd s n row) : Out) = .next (row.act (decoded s n row.op (row.needs w)) n w refs) := by rw [decodeCmd_decodes h hs]

end Sys2Proof.Machine
end

