-- ==== Sys2Proof/Laws/Jobs.lean ====
section
/-!
SUPPORT. What the ends and beginnings of jobs leave.
-/
namespace Sys2Proof.Machine

set_option Elab.async false

theorem jobOf_key {s : State} {k : Nat} {j : Job} (h : jobOf s k = some j) : j.key = k := by
  unfold jobOf at h
  have := List.find?_some h
  simpa using this

theorem jobOf_congr {s t : State} (h : t.jobs = s.jobs) (k : Nat) : jobOf t k = jobOf s k := by unfold jobOf; rw [h]
theorem que_congr {s t : State} (h : t.queues = s.queues) (k : Nat) : que t k = que s k := by unfold que; rw [h]
theorem slotOf_congr {s t : State} (h : t.slots = s.slots) (k : Nat) : slotOf t k = slotOf s k := by unfold slotOf; rw [h]

/-- A job that was not told to stop ends with the code given, else with the one it has met. -/
theorem endJob_ended {s : State} {j : Job} (h : jobOf s j.key = some j) (hs : j.stop = none) (err : Nat) :
    JobEnded s (endJob s j.key err) j (if err ≠ 0 then err else j.err) := by
  unfold endJob
  rw [h]
  dsimp only
  rw [hs]
  dsimp only
  refine ⟨que_setQue_self _ _ _, ?_, fun k hk => ?_, fun q hq => by rw [que_setQue, if_neg hq]; rfl⟩
  · unfold jobOf
    show (s.jobs.filter (·.key != j.key)).find? (·.key == j.key) = none
    rw [List.find?_eq_none]
    intro x hx
    have := (List.mem_filter.1 hx).2
    simpa using this
  · unfold jobOf
    show (s.jobs.filter (·.key != j.key)).find? (·.key == k) = s.jobs.find? (·.key == k)
    rw [List.find?_filter]
    congr 1
    funext x
    by_cases hx : x.key = k
    · simp [hx, hk]
    · have hb : (x.key == k) = false := by simpa using hx
      simp [hb]

theorem JobEnded.congr {s s' t t' : State} {j : Job} {err : Nat} (h : JobEnded s t j err) (h1 : s'.queues = s.queues)
    (h2 : s'.jobs = s.jobs) (h3 : t'.queues = t.queues) (h4 : t'.jobs = t.jobs) : JobEnded s' t' j err :=
  ⟨by rw [que_congr h3, que_congr h1]; exact h.queue, by rw [jobOf_congr h4]; exact h.gone,
    fun k hk => by rw [jobOf_congr h4, jobOf_congr h2]; exact h.jobs k hk,
    fun q hq => by rw [que_congr h3, que_congr h1]; exact h.queues q hq⟩

/-- The wait of a slot is met (R289). -/
theorem waitMet_slot (s : State) (n : Nat) :
    slotOf (waitMet s n) n = { slotOf s n with mode := .fetching, hold := 0, waitFrom := none, spin := none } ∧
    (∀ k, k ≠ n → slotOf (waitMet s n) k = slotOf s k) ∧
    ∀ j, waitJob s n = some j → jobOf s j.key = some j → j.stop = none → JobEnded s (waitMet s n) j j.err := by
  unfold waitMet
  have hs : ∀ u : State, ∀ k e, (endJob u k e).slots = u.slots := fun u k e =>
    (does_endJob u k e (Does.refl (maskOf [.queues, .jobs]) u)).only.slots rfl
  dsimp only
  cases hw : waitJob s n with
  | none =>
    dsimp only
    exact ⟨slotOf_setSlot_self _ _ _, fun k hk => by rw [slotOf_setSlot, if_neg hk], fun j hj => absurd hj (by simp)⟩
  | some j =>
    dsimp only
    refine ⟨(slotOf_congr (hs _ _ _) _).trans (slotOf_setSlot_self _ _ _), fun k hk => (slotOf_congr (hs _ _ _) _).trans
      (by rw [slotOf_setSlot, if_neg hk]), fun j' hj' h1 h2 => ?_⟩
    have e : j = j' := Option.some.inj hj'
    subst e
    have := endJob_ended (s := setSlot s n { slotOf s n with mode := .fetching, hold := 0, waitFrom := none, spin := none })
      (j := j) h1 h2 0
    exact this.congr rfl rfl rfl rfl

theorem violationAs_facts (s : State) (tag req a kind unit : Nat) (w : Who) :
    rd (violationAs s tag req a kind unit w) (ptBase + 0x2010) = a % 2 ^ 32 / 8 * 8 + 1 ∧
    (violationAs s tag req a kind unit w).log.seq = (s.log.seq + 1) % 2 ^ 32 ∧
    RegsBut [ptBase + 0x200C, ptBase + 0x2010, ptBase + 0x2014] s (violationAs s tag req a kind unit w) := by
  unfold violationAs
  dsimp only
  refine ⟨?_, by rw [append_seq, (does_wr _ _ _ (does_wr _ _ _ (does_bumpSat _ _ _ _ _ (Does.refl (maskOf [.regs]) s)))).only.log rfl], fun o ho => ?_⟩
  · rw [rd_congr ((append_only _ _).only.regs rfl), rd_wr_other _ (by unfold ptBase; omega), rd_wr_self]
    omega
  · simp only [List.mem_cons, List.not_mem_nil, or_false, not_or] at ho
    rw [rd_congr ((append_only _ _).only.regs rfl), rd_wr_other _ ho.2.2, rd_wr_other _ ho.2.1]
    unfold bumpSat
    exact setFld_regsBut _ _ _ _ _ o (by simpa using ho.1)

theorem acq_facts {s : State} {e w : Nat} {x : Wave} (h : waveAt s e w = some x) :
    waveAt (flcAcquire (setSpin s e w none) e) e w = some { x with spin := none } ∧ (eng (flcAcquire (setSpin s e w none) e) e).acq = (eng s e).acq + 1 ∧
    (∀ k, k ≠ e → eng (flcAcquire (setSpin s e w none) e) k = eng s k) ∧ Does (maskOf [.engines]) s (flcAcquire (setSpin s e w none) e) := by
  refine ⟨?_, ?_, fun k hk => ?_, does_flcAcquire _ _ (does_setSpin _ _ _ _ (Does.refl _ s))⟩
  · have := waveAt_setSpin h none
    unfold flcAcquire waveAt at *; rw [eng_setEng_self]; exact this
  · unfold flcAcquire; rw [eng_setEng_self]
    unfold setSpin; rw [h]; dsimp only; unfold setWave; rw [eng_setEng_self]
  · unfold flcAcquire; rw [eng_setEng, if_neg hk, eng_setSpin_other _ _ _ _ hk]

theorem spin_acq (s : State) (e w : Nat) (sp : Option Spin) : (eng (setSpin s e w sp) e).acq = (eng s e).acq := by
  unfold setSpin
  split
  · rfl
  · unfold setWave; rw [eng_setEng_self]

/-- A job that begins and ends at once (R256, R422). -/
theorem instantJob_done (s : State) (q err : Nat) : InstantJob s (instantJob s q err) q err := by
  have h1 : que (takeSeq s q) q = (que s q).took := que_setQue_self _ _ _
  have h2 : ∀ k, k ≠ q → que (takeSeq s q) k = que s k := fun k hk => by
    unfold takeSeq
    rw [que_setQue, if_neg hk]
  unfold instantJob
  dsimp only
  refine ⟨?_, fun k hk => ?_, rfl⟩
  · rw [que_setQue_self, h1]
  · rw [que_setQue, if_neg hk, h2 k hk]

/-- A job begins (R410, R426). -/
theorem startJob_started (s : State) (q : Nat) (k : JobKind) : JobStarted s (startJob s q k) q k := by
  have h1 : que (takeSeq s q) q = (que s q).took := que_setQue_self _ _ _
  have h2 : ∀ k, k ≠ q → que (takeSeq s q) k = que s k := fun k hk => by
    unfold takeSeq
    rw [que_setQue, if_neg hk]
  refine ⟨h1, h2, rfl, timeLimit (takeSeq s q), ?_⟩
  unfold startJob
  dsimp only
  rw [h1]
  rfl

/-- A queue faults (R397). -/
theorem queueFault_faulted (s : State) (n err op : Nat) : QueueFaulted s (queueFault s n err op) n err := by
  unfold queueFault
  dsimp only
  have a1 := slotOf_setSlot_self s n { slotOf s n with mode := .halted, hold := 0, held := none, flowFrom := none, waitFrom := none, spin := none, miss := none }
  have a2 := fun k (hk : k ≠ n) => (slotOf_setSlot s n k { slotOf s n with mode := .halted, hold := 0, held := none, flowFrom := none, waitFrom := none, spin := none, miss := none }).trans (if_neg hk)
  have a3 := does_setSlot s n { slotOf s n with mode := .halted, hold := 0, held := none, flowFrom := none, waitFrom := none, spin := none, miss := none } (Does.refl (maskOf [.slots]) s)
  generalize setSlot s n { slotOf s n with mode := .halted, hold := 0, held := none, flowFrom := none, waitFrom := none, spin := none, miss := none } = u1 at *
  have b1 := instantJob_done u1 (slotOf s n).queue err
  have b2 := does_instantJob u1 (slotOf s n).queue err (Does.refl (maskOf [.queues]) u1)
  generalize instantJob u1 (slotOf s n).queue err = u2 at *
  have c1 := que_setQue_self u2 (slotOf s n).queue { que u2 (slotOf s n).queue with qfault := true }
  have c2 := fun k (hk : k ≠ (slotOf s n).queue) => (que_setQue u2 (slotOf s n).queue k { que u2 (slotOf s n).queue with qfault := true }).trans (if_neg hk)
  have c3 := does_setQue u2 (slotOf s n).queue { que u2 (slotOf s n).queue with qfault := true } (Does.refl (maskOf [.queues]) u2)
  generalize setQue u2 (slotOf s n).queue { que u2 (slotOf s n).queue with qfault := true } = u3 at *
  have d1 : rd (bump u3 (feOff 0x08)) (feOff 0x08) = (rd u3 (feOff 0x08) + 1) % 2 ^ 32 := rd_wr_self _ _ _
  have d2 := bump_regsBut u3 (feOff 0x08) 1
  have d3 := does_bump u3 (feOff 0x08) 1 (Does.refl (maskOf [.regs]) u3)
  generalize bump u3 (feOff 0x08) = u4 at *
  have f1 := append_seq u4 { code := err, tag := (que u4 (slotOf s n).queue).part, kind := 7, unit := n, queue := some (slotOf s n).queue, owner := (que u4 (slotOf s n).queue).owner, detail := [op] ++ two (slotOf s n).buf.addr ++ [if op = 0 then (slotOf s n).buf.pos else (slotOf s n).hdr] }
  have f2 := append_only u4 { code := err, tag := (que u4 (slotOf s n).queue).part, kind := 7, unit := n, queue := some (slotOf s n).queue, owner := (que u4 (slotOf s n).queue).owner, detail := [op] ++ two (slotOf s n).buf.addr ++ [if op = 0 then (slotOf s n).buf.pos else (slotOf s n).hdr] }
  generalize append u4 { code := err, tag := (que u4 (slotOf s n).queue).part, kind := 7, unit := n, queue := some (slotOf s n).queue, owner := (que u4 (slotOf s n).queue).owner, detail := [op] ++ two (slotOf s n).buf.addr ++ [if op = 0 then (slotOf s n).buf.pos else (slotOf s n).hdr] } = u5 at *
  have g1 := does_raise u5 (que u5 (slotOf s n).queue).part 1 (Does.refl (maskOf [.msix]) u5)
  generalize raise u5 (que u5 (slotOf s n).queue).part 1 = u6 at *
  have hs : u6.slots = u1.slots := by
    rw [g1.only.slots rfl, f2.only.slots rfl, d3.only.slots rfl, c3.only.slots rfl, b2.only.slots rfl]
  have hq : u6.queues = u3.queues := by rw [g1.only.queues rfl, f2.only.queues rfl, d3.only.queues rfl]
  have hr : u6.regs = u4.regs := by rw [g1.only.regs rfl, f2.only.regs rfl]
  have hr3 : u3.regs = s.regs := by rw [c3.only.regs rfl, b2.only.regs rfl, a3.only.regs rfl]
  have hqs : u1.queues = s.queues := a3.only.queues rfl
  refine ⟨?_, fun k hk => ?_, ?_, fun k hk => ?_, ?_, ?_, fun o ho => ?_, ?_⟩
  · rw [slotOf_congr hs, a1]
  · rw [slotOf_congr hs, a2 k hk]
  · rw [que_congr hq, c1, b1.queue, que_congr hqs]
  · rw [que_congr hq, c2 k hk, b1.queues k hk, que_congr hqs]
  · rw [g1.only.jobs rfl, f2.only.jobs rfl, d3.only.jobs rfl, c3.only.jobs rfl, b2.only.jobs rfl, a3.only.jobs rfl]
  · rw [rd_congr hr, d1, rd_congr hr3]
  · rw [rd_congr hr, d2 o ho, rd_congr hr3]
  · rw [g1.only.log rfl, f1, d3.only.log rfl, c3.only.log rfl, b2.only.log rfl, a3.only.log rfl]

theorem InstantJob.congr {s s' t t' : State} {q err : Nat} (h : InstantJob s t q err) (h1 : s.queues = s'.queues)
    (h2 : s.jobs = s'.jobs) (h3 : t'.queues = t.queues) (h4 : t'.jobs = t.jobs) : InstantJob s' t' q err :=
  ⟨by rw [que_congr h3, h.queue, que_congr h1], fun k hk => by rw [que_congr h3, h.queues k hk, que_congr h1],
    by rw [h4, h.jobs, h2]⟩

theorem JobStarted.congr {s s' t t' : State} {q : Nat} {k : JobKind} (h : JobStarted s t q k) (h1 : s.queues = s'.queues)
    (h2 : s.jobs = s'.jobs) (h5 : s.jobKey = s'.jobKey) (h6 : s.now = s'.now) (h3 : t'.queues = t.queues)
    (h4 : t'.jobs = t.jobs) (h7 : t'.jobKey = t.jobKey) : JobStarted s' t' q k := by
  obtain ⟨g1, g2, g3, l, g4⟩ := h
  refine ⟨by rw [que_congr h3, g1, que_congr h1], fun k hk => by rw [que_congr h3, g2 k hk, que_congr h1],
    by rw [h7, g3, h5], l, ?_⟩
  rw [h4, g4, h2, h5, h6, que_congr h1]

theorem SlotIs.set {s u : State} {n : Nat} {x y : SlotSt} (h : ∀ k, k ≠ n → slotOf u k = slotOf s k)
    (hy : y = { x with hdr := y.hdr, flowFrom := y.flowFrom, flowLimit := y.flowLimit }) :
    SlotIs s (setSlot u n y) n x :=
  ⟨by rw [slotOf_setSlot_self]; exact hy, fun k hk => by rw [slotOf_setSlot, if_neg hk, h k hk]⟩

theorem SlotIs.congr {s t u : State} {n : Nat} {x : SlotSt} (h : SlotIs s t n x) (e : u.slots = t.slots) : SlotIs s u n x :=
  ⟨by rw [slotOf_congr e]; exact h.slot, fun k hk => (slotOf_congr e k).trans (h.others k hk)⟩

theorem QueueFaulted.fromHdr {s t : State} {n a e : Nat} (h : QueueFaulted (setSlot s n { slotOf s n with hdr := a }) t n e) : QueueFaulted s t n e := by
  obtain ⟨h1, h2, h3, h4, h5, h6, h7, h8⟩ := h
  rw [slotOf_setSlot_self] at h1 h3 h4
  exact ⟨h1, fun k hk => (h2 k hk).trans (by rw [slotOf_setSlot, if_neg hk]), h3, h4, h5, h6, h7, h8⟩

theorem holdWait_is {s : State} {n hold : Nat} {sp : Option Spin} :
    slotOf (holdWait s n hold sp) n = { slotOf s n with mode := .held, hold := hold, waitFrom := some s.now, spin := sp } ∧
    ∀ k, k ≠ n → slotOf (holdWait s n hold sp) k = slotOf s k := ⟨slotOf_setSlot_self _ _ _, fun k hk => by unfold holdWait; rw [slotOf_setSlot, if_neg hk]⟩

theorem holdWait_slotIs {s u v : State} {n hold : Nat} {x : SlotSt} {sp : Option Spin} (h : SlotIs s u n x) (e : v.slots = u.slots) :
    SlotIs s (holdWait v n hold sp) n { x with mode := .held, hold := hold, waitFrom := some v.now, spin := sp } := by
  obtain ⟨h1, h2⟩ := holdWait_is (s := v) (n := n) (hold := hold) (sp := sp)
  have hs := h.slot
  refine ⟨?_, fun k hk => by rw [h2 k hk, slotOf_congr e, h.others k hk]⟩
  rw [h1, slotOf_congr e, hs]

end Sys2Proof.Machine
end

