-- ==== Sys2Proof/Laws/Store.lean ====
section
/-!
SUPPORT. Writes to external memory.
-/
namespace Sys2Proof.Machine

set_option Elab.async false

theorem stored_writeBytes {s t : State} {a : Nat} {d : List Byte} (h : t.hbm = s.hbm.writeBytes a d) : Stored s t a d := by
  refine ⟨fun i hi => ?_, fun x hx => ?_⟩
  · rw [h, Mem.read_writeBytes_inside _ _ _ _ hi, List.getElem?_eq_getElem hi]
  · rw [h]; exact Mem.read_writeBytes_outside _ _ _ _ hx

/-- An access inside one aligned 256-byte block is one burst (R306). -/
theorem burstsOf_one {a n : Nat} (h0 : 0 < n) (h : a % 256 + n ≤ 256) : burstsOf a n = [(a, n)] := by
  unfold burstsOf
  rw [if_neg (by omega)]
  have e : (a + n - 1) / 256 - a / 256 + 1 = 1 := by omega
  rw [e]
  simp only [List.range_one, List.map_cons, List.map_nil]
  congr 2 <;> omega

/-- What a tag may reach depends on the registers alone. -/
theorem inRange_same {s t : State} (h : t.regs = s.regs) (tag a n : Nat) : inRange t tag a n = inRange s tag a n := by
  unfold inRange hostAddr apertureAt hbmHi hbmLo capacity
  simp only [fld_congr h, rd_congr h]

theorem writable_same {s t : State} (h : t.regs = s.regs) (tag a n : Nat) : writable t tag a n = writable s tag a n := by
  unfold writable foxLo mgmtHi mgmtLo
  rw [inRange_same h]
  simp only [fld_congr h]

theorem Mem.writeBytes_append (d e : List Byte) (m : Mem) (a : Nat) :
    m.writeBytes a (d ++ e) = (m.writeBytes a d).writeBytes (a + d.length) e := by
  induction d generalizing m a with
  | nil => rfl
  | cons b d ih =>
    show (m.write a b).writeBytes (a + 1) (d ++ e) = ((m.write a b).writeBytes (a + 1) d).writeBytes (a + (d.length + 1)) e
    rw [ih]
    congr 1
    omega

/-- An access that goes beyond its first aligned 256-byte block (R306). -/
theorem burstsOf_cons {a n : Nat} (h : 256 < a % 256 + n) :
    burstsOf a n = (a, 256 - a % 256) :: burstsOf (a + (256 - a % 256)) (n - (256 - a % 256)) := by
  obtain ⟨q, m, hm, rfl⟩ : ∃ q m, m < 256 ∧ a = 256 * q + m := ⟨a / 256, a % 256, Nat.mod_lt _ (by decide), by omega⟩
  have hmod : (256 * q + m) % 256 = m := by omega
  have hdiv : (256 * q + m) / 256 = q := by omega
  rw [hmod] at h ⊢
  have ha : 256 * q + m + (256 - m) = 256 * (q + 1) := by omega
  rw [ha]
  unfold burstsOf
  rw [if_neg (by omega), if_neg (by omega), hdiv]
  have hd2 : 256 * (q + 1) / 256 = q + 1 := by omega
  rw [hd2]
  have e1 : (256 * q + m + n - 1) / 256 - q + 1 = ((256 * (q + 1) + (n - (256 - m)) - 1) / 256 - (q + 1) + 1) + 1 := by
    have : 256 * (q + 1) + (n - (256 - m)) = 256 * q + m + n := by omega
    rw [this]; omega
  rw [e1, List.range_succ_eq_map, List.map_cons, List.map_map]
  congr 1
  · dsimp only
    congr 1 <;> omega
  · refine List.map_congr_left fun i _ => ?_
    simp only [Function.comp_apply, Nat.succ_eq_add_one]
    congr 1 <;> omega

/-- The bursts of a write store its bytes (R306). -/
theorem bursts_write (f : State → Nat → Nat → State) (base : Nat) (data : List Byte) (n : Nat) (s : State) (a : Nat)
    (hb : base ≤ a) (hl : a - base + n ≤ data.length)
    (hf : ∀ u b k, (b, k) ∈ burstsOf a n → u.regs = s.regs →
      f u b k = { u with hbm := u.hbm.writeBytes b ((data.drop (b - base)).take k) }) :
    (burstsOf a n).foldl (fun u b => f u b.1 b.2) s = { s with hbm := s.hbm.writeBytes a ((data.drop (a - base)).take n) } := by
  induction n using Nat.strongRecOn generalizing s a with
  | _ n ih =>
    by_cases h0 : n = 0
    · subst h0
      rfl
    · by_cases h : a % 256 + n ≤ 256
      · rw [burstsOf_one (by omega) h] at hf ⊢
        exact hf s a n List.mem_cons_self rfl
      · have hc := burstsOf_cons (a := a) (n := n) (by omega)
        rw [hc] at hf ⊢
        rw [List.foldl_cons]
        have h1 := hf s a (256 - a % 256) List.mem_cons_self rfl
        dsimp only
        have hm : a % 256 < 256 := Nat.mod_lt _ (by decide)
        generalize f s a (256 - a % 256) = v at h1 ⊢
        have hr : v.regs = s.regs := by rw [h1]
        refine (ih (n - (256 - a % 256)) (by omega) v (a + (256 - a % 256)) (by omega) (by omega) fun u b k h2 h4 =>
          hf u b k (List.mem_cons_of_mem _ h2) (h4.trans hr)).trans ?_
        rw [h1]
        dsimp only
        congr 1
        have e : (data.drop (a - base)).take n = (data.drop (a - base)).take (256 - a % 256) ++
            (data.drop (a + (256 - a % 256) - base)).take (n - (256 - a % 256)) := by
          have e1 : data.drop (a + (256 - a % 256) - base) = (data.drop (a - base)).drop (256 - a % 256) := by
            rw [List.drop_drop]; congr 1; omega
          rw [e1, ← List.take_add]
          congr 1; omega
        rw [e, Mem.writeBytes_append]
        congr 2
        rw [List.length_take, List.length_drop]
        omega

theorem putBursts_foldl (s : State) (tag base : Nat) (data : List Byte) (l : List (Nat × Nat)) :
    putBursts s tag base data l = l.foldl (fun u b =>
      if writable u tag b.1 b.2 then putBurst u tag b.1 ((data.drop (b.1 - base)).take b.2) else u) s := by
  induction l generalizing s with
  | nil => rfl
  | cons x l ih => unfold putBursts; rw [ih]; rfl

theorem burstsOf_lt {a n b k : Nat} (h : (b, k) ∈ burstsOf a n) : b < a + n := by
  unfold burstsOf at h
  split at h
  · exact absurd h (by simp)
  · obtain ⟨i, hi, he⟩ := List.mem_map.1 h
    rw [List.mem_range] at hi
    simp only [Prod.mk.injEq] at he
    omega

theorem writable_of_none {s : State} {tag a n b k : Nat} (h : writeFault s tag a n = none) (hm : (b, k) ∈ burstsOf a n) :
    writable s tag b k = true := by
  unfold writeFault at h
  rw [Option.map_eq_none_iff, List.find?_eq_none] at h
  have := h _ hm
  simpa using this

theorem isHost_false {a : Nat} (h : a < 2 ^ 47) : isHost a = false := by
  unfold isHost
  rw [Bool.eq_false_iff]
  intro hb
  exact absurd (Nat.le_of_ble_eq_true hb) (by omega)

/-- A write to external memory all of whose bursts pass their check (R310). -/
theorem devWrite_all {s : State} {tag a : Nat} {d : List Byte} (hh : a + d.length ≤ 2 ^ 47)
    (hw : writeFault s tag a d.length = none) : devWrite s tag a d = { s with hbm := s.hbm.writeBytes a d } := by
  unfold devWrite
  rw [putBursts_foldl]
  have h := bursts_write (fun u b k => if writable u tag b k then putBurst u tag b ((d.drop (b - a)).take k) else u) a d
    d.length s a (Nat.le_refl _) (by omega) fun u b k hm hr => by
      rw [if_pos (by rw [writable_same hr]; exact writable_of_none hw hm)]
      unfold putBurst
      rw [isHost_false (by have := burstsOf_lt hm; omega)]
      rfl
  rw [Nat.sub_self, List.drop_zero, List.take_length] at h
  exact h

/-- A write of one burst to external memory that passes its check (R310). -/
theorem devWrite_one {s : State} {tag a : Nat} {d : List Byte} (h0 : 0 < d.length) (h : a % 256 + d.length ≤ 256)
    (hh : isHost a = false) (hb : writable s tag a d.length = true) :
    devWrite s tag a d = { s with hbm := s.hbm.writeBytes a d } := by
  unfold devWrite
  rw [burstsOf_one h0 h]
  unfold putBursts putBursts
  rw [if_pos hb, Nat.sub_self, List.drop_zero, List.take_length]
  unfold putBurst
  rw [hh]
  rfl

theorem writable_of_fault {s : State} {tag a n : Nat} (h0 : 0 < n) (h : a % 256 + n ≤ 256)
    (hw : writeFault s tag a n = none) : writable s tag a n = true := by
  unfold writeFault at hw
  rw [burstsOf_one h0 h, List.find?_cons] at hw
  cases hx : writable s tag a n with
  | true => rfl
  | false => rw [hx] at hw; simp at hw

/-- What may be written to external memory depends on the partition table and the capacity alone. -/
theorem writable_regs {s t : State} {tag a n : Nat} (ht : tag < 16) (hh : isHost a = false)
    (h : ∀ o, o < 0x4000 ∨ o = mcBase → rd t o = rd s o) : writable t tag a n = writable s tag a n := by
  have e1 : hbmLo t tag = hbmLo s tag := by unfold hbmLo fld ptOff ptBase; rw [h _ (Or.inl (by omega))]
  have e2 : hbmHi t tag = hbmHi s tag := by unfold hbmHi; rw [e1]; unfold fld ptOff ptBase; rw [h _ (Or.inl (by omega))]
  have e3 : capacity t = capacity s := by unfold capacity fld; rw [h _ (Or.inr rfl)]
  have e4 : mgmtHi t = mgmtHi s := by unfold mgmtHi mgmtLo fld ptBase; rw [h _ (Or.inl (by omega))]
  unfold writable inRange foxLo
  rw [hh, e1, e2, e3, e4]
  rfl

/-- Bytes of external memory at device addresses. -/
theorem devBytes_hbm (s : State) (tag a n : Nat) (h : a + n ≤ 2 ^ 47) : devBytes s tag a n = s.hbm.readBytes a n := by
  induction n generalizing a with
  | zero => rfl
  | succ n ih =>
    unfold devBytes Mem.readBytes
    rw [ih (a + 1) (by omega)]
    unfold devByte isHost
    rw [if_neg (by rw [Nat.ble_eq]; omega)]

theorem devNat_congr {s t : State} (h : t.hbm = s.hbm) (tag a n : Nat) (hn : a + n ≤ 2 ^ 47) :
    devNat t tag a n = devNat s tag a n := by
  unfold devNat
  rw [devBytes_hbm _ _ _ _ hn, devBytes_hbm _ _ _ _ hn, h]

theorem waitsMet_slot (ns : List Nat) (s : State) (n : Nat) :
    ((slotOf s n).mode = .fetching → (slotOf (waitsMet s ns) n).mode = .fetching) ∧
    (n ∈ ns → (slotOf (waitsMet s ns) n).mode = .fetching) := by
  induction ns generalizing s with
  | nil => exact ⟨fun h => h, fun h => absurd h (by simp)⟩
  | cons m ms ih =>
    unfold waitsMet
    have hw := waitMet_slot s m
    have h1 : (slotOf s n).mode = .fetching → (slotOf (waitMet s m) n).mode = .fetching := fun h => by
      by_cases hn : n = m
      · subst hn; rw [hw.1]
      · rw [hw.2.1 n hn]; exact h
    refine ⟨fun h => (ih _).1 (h1 h), fun h => ?_⟩
    rcases List.mem_cons.1 h with h | h
    · exact (ih _).1 (by rw [h, hw.1])
    · exact (ih _).2 h

theorem fenceSettle_none {s : State} (h : s.fwaiting = []) (k : Nat) : fenceSettle s k = s := by
  cases k with
  | zero => rfl
  | succ k => unfold fenceSettle; rw [h]

theorem fslot_congr {s t : State} (h : t.fslots = s.fslots) (k : Nat) : fslot t k = fslot s k := by unfold fslot; rw [h]

theorem waitsMet_only (ns : List Nat) (s : State) : Does (maskOf [.queues, .slots, .jobs]) s (waitsMet s ns) := does_waitsMet _ _ (Does.refl _ s)

theorem fslotUse_fslot (s : State) (k : Nat) : fslot (fslotUse s k) k = { fslot s k with used := s.fclock + 1 } ∧
    (∀ j, j ≠ k → fslot (fslotUse s k) j = fslot s j) ∧ Does (maskOf [.fslots, .fclock]) s (fslotUse s k) := by
  refine ⟨fslot_setFslot_self _ _ _, fun j hj => by unfold fslotUse; dsimp only; rw [fslot_setFslot, if_neg hj]; rfl, does_fslotUse _ _ (Does.refl _ s)⟩

theorem host8 {a : Nat} (h : isHost a = false) (h8 : a % 8 = 0) : a + 8 ≤ 2 ^ 47 := by
  have : ¬ 2 ^ 47 ≤ a := fun hh => by unfold isHost at h; rw [Nat.ble_eq_true_of_le hh] at h; exact absurd h (by decide)
  omega

theorem mcEcc_ok (s : State) (a : Nat) : mcEcc s a .ok = s := by unfold mcEcc; split <;> rfl

/-- Waits that a value meets resume, and the others stay (R289). -/
theorem fenceWake_slot (s : State) (k : Nat) :
    (fslot (fenceWake s k) k).value = (fslot s k).value ∧ (∀ j, j ≠ k → fslot (fenceWake s k) j = fslot s j) ∧
    (feRuns s = true → (∀ w ∈ (fslot (fenceWake s k) k).waiters, (fslot s k).value < w.2) ∧
      ∀ w ∈ (fslot s k).waiters, w.2 ≤ (fslot s k).value → (slotOf (fenceWake s k) w.1).mode = .fetching) := by
  unfold fenceWake
  dsimp only
  by_cases hf : feRuns s = true
  · rw [if_neg (by rw [hf]; decide)]
    have hw := fun u : State => (waitsMet_only (metBy (fslot s k).value (fslot s k).waiters) u).only.fslots rfl
    refine ⟨?_, fun j hj => ?_, fun _ => ⟨fun w hwm => ?_, fun w hwm hv => ?_⟩⟩
    · rw [fslot_congr (hw _), fslot_setFslot_self]
    · rw [fslot_congr (hw _), fslot_setFslot, if_neg hj]
    · rw [fslot_congr (hw _), fslot_setFslot_self] at hwm
      have := (List.mem_filter.1 hwm).2
      refine Nat.lt_of_not_le fun hle => ?_
      rw [Nat.ble_eq_true_of_le hle] at this
      exact absurd this (by decide)
    · refine (waitsMet_slot _ _ _).2 ?_
      unfold metBy
      exact List.mem_map.2 ⟨w, List.mem_filter.2 ⟨hwm, Nat.ble_eq_true_of_le hv⟩, rfl⟩
  · rw [if_pos (by rw [Bool.eq_false_iff.2 hf]; rfl)]
    exact ⟨rfl, fun _ _ => rfl, fun h => absurd h hf⟩

theorem readFault_same {s t : State} (h : t.regs = s.regs) (p a n : Nat) : readFault t p a n = readFault s p a n := by
  unfold readFault
  have : (fun b : Nat × Nat => !inRange t p b.1 b.2) = fun b => !inRange s p b.1 b.2 := by funext b; rw [inRange_same h]
  rw [this]

theorem fenceSlotOf_same {s t : State} (h : t.fslots = s.fslots) (a : Nat) : fenceSlotOf t a = fenceSlotOf s a := by
  unfold fenceSlotOf fslot; rw [h]

theorem semAdd_begun {u : State} {n sem : Nat} {w : List Nat} {refs : List Ref} (h : semOpTarget u n w = some sem) (hq : SemQuiet u sem) :
    Does (maskOf [.regs, .log, .msix, .semCycles, .queues]) u (beginSemAdd u n w refs) ∧ RegsBut [semOff sem, synBase + 0x880C] u (beginSemAdd u n w refs) ∧
    InstantJob u (beginSemAdd u n w refs) (slotOf u n).queue 0 ∧ (beginSemAdd u n w refs).slots = u.slots ∧
    semVal (beginSemAdd u n w refs) sem = min (2 ^ 32 - 1) (semVal u sem + nth w 2) := by
  obtain ⟨g1, g2, -, -⟩ := semAdd_word hq (semOf_lt h) (nth w 2)
  have gd : Does (maskOf [.regs, .log, .msix, .semCycles]) u (semAdd u sem (nth w 2)) := does_sem _
  unfold beginSemAdd
  rw [h]
  dsimp only
  generalize semAdd u sem (nth w 2) = v at *
  have hj := instantJob_done v (slotOf u n).queue 0
  have hjd := does_instantJob v (slotOf u n).queue 0 (Does.refl (maskOf [.queues]) v)
  generalize instantJob v (slotOf u n).queue 0 = x at *
  exact ⟨(gd.mono (Sub.of_eq rfl)).trans (hjd.mono (Sub.of_eq rfl)), fun o ho => by rw [rd_congr (hjd.only.regs rfl), g2 o ho],
    hj.congr (gd.only.queues rfl) (gd.only.jobs rfl) rfl rfl, (hjd.only.slots rfl).trans (gd.only.slots rfl), by rw [semVal_congr (hjd.only.regs rfl), g1]⟩

theorem devBytes_length (s : State) (tag a n : Nat) : (devBytes s tag a n).length = n := by
  induction n generalizing a with
  | zero => rfl
  | succ n ih => unfold devBytes; rw [List.length_cons, ih]

theorem devBytes_same {s t : State} (h1 : t.hbm = s.hbm) (h2 : t.host = s.host) (h3 : t.regs = s.regs) (tag a n : Nat) : devBytes t tag a n = devBytes s tag a n := by
  induction n generalizing a with
  | zero => rfl
  | succ n ih =>
    unfold devBytes
    rw [ih]
    congr 1
    unfold devByte hostAddr apertureAt
    simp only [fld_congr h3, rd_congr h3, h1, h2]

theorem writeFault_same {s t : State} (h : t.regs = s.regs) (p a n : Nat) : writeFault t p a n = writeFault s p a n := by
  unfold writeFault
  have : (fun b : Nat × Nat => !writable t p b.1 b.2) = fun b => !writable s p b.1 b.2 := by funext b; rw [writable_same h]
  rw [this]

theorem placeBytes_length (s : State) (tag : Nat) (p : Place) (n : Nat) : (placeBytes s tag p n).length = n := by
  cases p with
  | obj r => exact devBytes_length _ _ _ _
  | tile e off => exact Mem.readBytes_length _ _ _

/-- What a place's checks and bytes depend on. -/
theorem placeWriteFault_same {s t : State} (h : t.regs = s.regs) (tag : Nat) (p : Place) (n : Nat) :
    placeWriteFault t tag p n = placeWriteFault s tag p n := by
  cases p with
  | obj r =>
    unfold placeWriteFault
    dsimp only
    rw [writeFault_same h]
  | tile e off => rfl

theorem placeReadFault_same {s t : State} (h : t.regs = s.regs) (tag : Nat) (p : Place) (n : Nat) :
    placeReadFault t tag p n = placeReadFault s tag p n := by
  cases p with
  | obj r =>
    unfold placeReadFault
    dsimp only
    rw [readFault_same h]
  | tile e off => rfl

theorem placeBytes_same {s t : State} (h1 : t.hbm = s.hbm) (h2 : t.host = s.host) (h3 : t.regs = s.regs)
    (h4 : t.tile = s.tile) (tag : Nat) (p : Place) (n : Nat) : placeBytes t tag p n = placeBytes s tag p n := by
  cases p with
  | obj r => exact devBytes_same h1 h2 h3 _ _ _
  | tile e off =>
    unfold placeBytes
    rw [h4]

/-- A write at a place that passes its checks. -/
theorem placeWrite_placed {s u : State} {tag : Nat} {p : Place} {d : List Byte} (h : PlaceOpen s tag p d.length)
    (h1 : u.hbm = s.hbm) (h2 : u.tile = s.tile) (h3 : u.regs = s.regs) :
    Does (maskOf [.hbm, .tile]) u (placeWrite u tag p d) ∧ Placed s (placeWrite u tag p d) p d := by
  obtain ⟨h, hb⟩ := h
  rw [← placeWriteFault_same h3] at h
  cases p with
  | obj r =>
    unfold placeWriteFault at h
    dsimp only at h
    have hw : writeFault u tag r.addr d.length = none := by simpa using h
    have e : placeWrite u tag (.obj r) d = { u with hbm := u.hbm.writeBytes r.addr d } := devWrite_all (hb r rfl) hw
    rw [e]
    refine ⟨Does.updHbm (Does.refl _ u) rfl (fun h => Mem.wf_writeBytes _ _ _ h), fun r' hr' => ?_, fun e off hh => by
      simp at hh⟩
    obtain rfl : r = r' := by injection hr'
    exact ⟨stored_writeBytes (by rw [← h1]), h2⟩
  | tile e off =>
    refine ⟨Does.updTile (Does.refl _ u) rfl (fun h => Mem.wf_writeBytes _ _ _ h), fun r' hr' => by simp at hr',
      fun e' off' hh => ?_⟩
    obtain ⟨rfl, rfl⟩ : e = e' ∧ off = off' := by injection hh with a b; exact ⟨a, b⟩
    exact ⟨h1, by show u.tile.writeBytes _ _ = _; rw [h2]⟩

theorem Placed.congr {s t u : State} {p : Place} {d : List Byte} (h : Placed s t p d) (h1 : u.hbm = t.hbm)
    (h2 : u.tile = t.tile) : Placed s u p d := by
  refine ⟨fun r hr => ?_, fun e off he => ?_⟩
  · obtain ⟨⟨a, b⟩, c⟩ := h.obj r hr
    exact ⟨⟨fun i hi => by rw [h1]; exact a i hi, fun i hi => by rw [h1]; exact b i hi⟩, by rw [h2]; exact c⟩
  · obtain ⟨a, b⟩ := h.tile e off he
    exact ⟨by rw [h1]; exact a, by rw [h2]; exact b⟩

theorem Placed.base {s s' t : State} {p : Place} {d : List Byte} (h : Placed s' t p d) (h1 : s'.hbm = s.hbm) (h2 : s'.tile = s.tile) : Placed s t p d := by
  refine ⟨fun r hr => ?_, fun e off he => ?_⟩
  · obtain ⟨⟨a, b⟩, c⟩ := h.obj r hr
    exact ⟨⟨a, fun i hi => by rw [← h1]; exact b i hi⟩, by rw [← h2]; exact c⟩
  · obtain ⟨a, b⟩ := h.tile e off he
    exact ⟨by rw [← h1]; exact a, by rw [← h2]; exact b⟩

theorem placeEcc_ok (s : State) (p : Place) (k : Nat) (w : Who) : placeEcc s p k w .ok = s := by
  cases p with
  | obj r => exact mcEcc_ok _ _
  | tile e off => rfl

end Sys2Proof.Machine
end

