-- ==== Sys2Proof/Laws/Compress.lean ====
section
/-!
SUPPORT. The steps of a compression engine's run.
-/
namespace Sys2Proof.Machine

set_option Elab.async false

theorem cxRead_ok {s : State} {k : Nat} {r : CompRun} {p : Place} {n : Nat} (h : placeReadFault s r.part p n = none) :
    cxRead s k r p n = (cxMoved s k n 0, r, placeBytes s r.part p n) := by unfold cxRead; rw [h]

theorem cxWrite_ok {s : State} {k : Nat} {r : CompRun} {p : Place} {d : List Byte} (h : placeWriteFault s r.part p d.length = none) :
    cxWrite s k r p d = (cxMoved (placeWrite s r.part p d) k 0 d.length, r) := by unfold cxWrite; rw [h]

theorem cxEcc_ok (s : State) (r : CompRun) (pos : Nat) : cxEcc s r pos .ok = (s, r) := by
  unfold cxEcc; dsimp only; rw [placeEcc_ok, if_neg (by decide)]

theorem cxMoved_only (s : State) (k i o : Nat) : Does (maskOf [.cx]) s (cxMoved s k i o) := does_cxMoved _ _ _ _ (Does.refl _ s)

theorem cxAfter_facts (s : State) (k : Nat) (r : CompRun) : Does (maskOf [.cx]) s (cxAfter s k r) ∧ (cxOf (cxAfter s k r) k).run = some r ∧ (cxOf (cxAfter s k r) k).since = aclk s ∧ (r.status.isSome = true → (cxOf (cxAfter s k r) k).mid = false) := by
  refine ⟨does_cxAfter _ _ _ (Does.refl _ s), ?_, ?_, fun h => ?_⟩
  · unfold cxAfter; rw [cxOf_setCx_self]
  · unfold cxAfter; rw [cxOf_setCx_self]
  · unfold cxAfter; rw [cxOf_setCx_self]; dsimp only; cases hs : r.status with
    | none => rw [hs] at h; simp at h
    | some x => rfl

theorem lines_length (h row : Nat) : ((List.range 4).filterMap fun i => if 4 * row + i < h then some (4 * row + i) else none).length = min 4 (h - 4 * row) := by
  have hr : List.range 4 = [0, 1, 2, 3] := rfl
  rw [hr]
  simp only [List.filterMap_cons, List.filterMap_nil]
  by_cases h0 : 4 * row + 0 < h <;> by_cases h1 : 4 * row + 1 < h <;> by_cases h2 : 4 * row + 2 < h <;> by_cases h3 : 4 * row + 3 < h <;> simp only [h0, h1, h2, h3, if_true, if_false, List.length_cons, List.length_nil] <;> omega

theorem tsfBlockDone_eq {s : State} {k : Sector} {c pos : Nat} {r : CompRun} (h1 : (cxOf s k).run = some r) (h2 : (cxOf s k).mid = true)
    (h3 : r.status = none) (h4 : cdMode r.desc < 2) (h5 : (cxOf s k).since + cxBlockTime (atAclk s c) r ≤ aclk (atAclk s c)) :
    exec (.tsfBlockDone k c pos .ok) s = .next (cxAfter (if cdMode r.desc = 0 then cxEncode (atAclk s c) k r else cxDecode (atAclk s c) k r).1 k (if cdMode r.desc = 0 then cxEncode (atAclk s c) k r else cxDecode (atAclk s c) k r).2) := by
  have e0 : exec (.tsfBlockDone k c pos .ok) s = execTsfBlockDone k c pos .ok s := rfl
  delta execTsfBlockDone at e0
  dsimp only at e0
  have hx : cxOf (atAclk s c) k = cxOf s k := rfl
  rw [hx, h1] at e0
  dsimp only at e0
  rw [if_neg (by rw [h2, h3]; simp; omega), cxEcc_ok] at e0
  dsimp only at e0
  rw [if_neg (by rw [h3]; decide)] at e0
  exact e0

end Sys2Proof.Machine
end

