-- ==== Sys2Proof/Laws/Compute.lean ====
section
/-!
SUPPORT. Waves, restores and what follows a step of the dispatchers.
-/
namespace Sys2Proof.Machine

set_option Elab.async false

theorem logEngs_congr {s t : State} (h : t.regs = s.regs) (p : Nat) : logEngs t p = logEngs s p := by
  unfold logEngs quadsOf lmapCount
  have h1 : ∀ q, lmapAt t q = lmapAt s q := fun q => by funext j; unfold lmapAt; rw [fld_congr h]
  have h2 : ownsQuad t p = ownsQuad s p := by funext q; unfold ownsQuad; simp only [fld_congr h]
  simp only [h1, h2, fld_congr h]

theorem waveRegs_congr {s t : State} (h : t.regs = s.regs) (d : Disp) (x : Wave) (e ep : Nat) : waveRegs t d x e ep = waveRegs s d x e ep := by
  have h1 : logIndex t e = logIndex s e := by
    have hq : engPart t e = engPart s e := by
      have h2 : ownsQuad t = ownsQuad s := by funext p q; unfold ownsQuad; simp only [fld_congr h]
      unfold engPart quadPart; rw [h2]
    unfold logIndex
    rw [hq, logEngs_congr h]
  unfold waveRegs
  rw [h1]

theorem drainList_only (l : List Nat) (s : State) (key : Nat) : Does (maskOf [.pres, .xfers]) s (drainList s key l) := does_drainList _ _ _ (Does.refl _ s)

theorem restoreAfter (s : State) : Does (maskOf [.jobs, .pres, .xfers]) s (restoreScan (drainAll s s.pres)) :=
  does_restoreScan _ (does_drainAll _ _ (Does.refl _ s))

theorem waveStart_key {s v : State} {e : Eng} {w : Fin 8} {c : Nat} {x : Wave} {d : Disp} (hv : Does (maskOf [.now, .engines]) s v) (k1 : (eng v e).waves = (eng s e).waves) (k2 : (eng v e).vreg = (eng s e).vreg) (k3 : ∀ k, k ≠ e.val → eng v k = eng s k)
        (hn : exec (.waveStart e w c) s = .next (setEng (setWave { v with fresh := v.fresh + 1 } e w { x with started := true, epoch := v.fresh, g := waveRegs { v with fresh := v.fresh + 1 } d x e v.fresh }) e
          { eng (setWave { v with fresh := v.fresh + 1 } e w { x with started := true, epoch := v.fresh, g := waveRegs { v with fresh := v.fresh + 1 } d x e v.fresh }) e with
            vreg := (eng (setWave { v with fresh := v.fresh + 1 } e w { x with started := true, epoch := v.fresh, g := waveRegs { v with fresh := v.fresh + 1 } d x e v.fresh }) e).vreg.filter (fun z => !x.blocks.contains (z.1 / 512 / 16)) ++ waveV0 x })) :
        Completes (.waveStart e w c) s [.now, .fresh, .engines] fun t => (∀ k, k ≠ e.val → eng t k = eng s k) ∧
      ((eng t e).waves = (eng s e).waves.map fun y => if y.vbase = 16 * w.val then
        { x with started := true, epoch := s.fresh, g := waveRegs s d x e s.fresh } else y) ∧
      ((eng t e).vreg = (eng s e).vreg.filter (fun v => !x.blocks.contains (v.1 / 512 / 16)) ++ waveV0 x) ∧
      (eng t e).seeded = (eng v e).seeded ∧ (eng t e).gens = (eng v e).gens ∧ (eng t e).lines = (eng v e).lines := by
      have hwr : waveRegs { v with fresh := v.fresh + 1 } d x e v.fresh = waveRegs s d x e s.fresh := by
        rw [hv.only.fresh rfl]; exact waveRegs_congr (hv.only.regs rfl) d x e s.fresh
      rw [hwr, hv.only.fresh rfl] at hn
      have hse : eng (setWave { v with fresh := s.fresh + 1 } e w { x with started := true, epoch := s.fresh, g := waveRegs s d x e s.fresh }) e =
        { eng v e with waves := (eng v e).waves.map fun y => if y.vbase = 16 * w.val then { x with started := true, epoch := s.fresh, g := waveRegs s d x e s.fresh } else y } := by
        unfold setWave; rw [eng_setEng_self]; rfl
      have hso : ∀ k, k ≠ e.val → eng (setWave { v with fresh := s.fresh + 1 } e w { x with started := true, epoch := s.fresh, g := waveRegs s d x e s.fresh }) k = eng v k := fun k hk => by
        unfold setWave; rw [eng_setEng, if_neg hk]; rfl
      have hsd : Does (maskOf [.now, .fresh, .engines]) s (setWave { v with fresh := s.fresh + 1 } e w { x with started := true, epoch := s.fresh, g := waveRegs s d x e s.fresh }) :=
        does_setWave _ _ _ _ (Does.updFresh (hv.mono (Sub.of_eq rfl)) rfl)
      generalize setWave { v with fresh := s.fresh + 1 } e w _ = y at *
      refine completes_of hn (does_setEng _ _ _ hsd) ⟨fun k hk => by rw [eng_setEng, if_neg hk, hso k hk, k3 k hk], ?_, ?_, ?_, ?_, ?_⟩
      · rw [eng_setEng_self, hse, k1]
      · rw [eng_setEng_self, hse, k2]
      · rw [eng_setEng_self, hse]
      · rw [eng_setEng_self, hse]
      · rw [eng_setEng_self, hse]

theorem reseed_self (s : State) (e : Eng) (c : Nat) : eng (reseed (flcAcquire (atAclk s c) e) e 0) e = { eng (flcAcquire s e) e with gens := (eng (reseed s e 0) e).gens } := by
  unfold reseed
  dsimp only
  rw [eng_setEng_self, eng_setEng_self]
  have h1 : eng (flcAcquire (atAclk s c) e) e = eng (flcAcquire s e) e := by unfold flcAcquire; rw [eng_setEng_self, eng_setEng_self]; rfl
  have h2 : ∀ o, rd (flcAcquire (atAclk s c) e) o = rd s o := fun o => rfl
  rw [h1, h2, h2]

theorem reseed_other (s : State) (e : Eng) (c k : Nat) (hk : k ≠ e.val) : eng (reseed (flcAcquire (atAclk s c) e) e 0) k = eng s k := by
  unfold reseed flcAcquire
  dsimp only
  rw [eng_setEng, if_neg hk, eng_setEng, if_neg hk]
  rfl

theorem restore_only (s : State) : Does (maskOf [.jobs, .pres, .xfers]) s (restoreScan s) := does_restoreScan _ (Does.refl _ s)

theorem xferOver_facts (s : State) (k : Nat) : Does (maskOf [.regs, .cx]) s (xferOver s k) ∧ (cxOf (xferOver s k) k).xfer = none ∧ (cxOf (xferOver s k) k).inBytes = (cxOf s k).inBytes ∧
    (cxOf (xferOver s k) k).outBytes = (cxOf s k).outBytes ∧ (∀ i, i ≠ k → cxOf (xferOver s k) i = cxOf s i) ∧ RegsBut [cxBase + 0x40 * k + 0x14] s (xferOver s k) ∧
    rd (xferOver s k) (cxBase + 0x40 * k + 0x14) = (rd s (cxBase + 0x40 * k + 0x14) + 1) % 2 ^ 32 := by
  refine ⟨does_xferOver _ _ (Does.refl _ s), ?_, ?_, ?_, fun i hi => ?_, ?_, ?_⟩
  · unfold xferOver; dsimp only; rw [cxOf_setCx_self]
  · unfold xferOver; dsimp only; rw [cxOf_setCx_self]; rfl
  · unfold xferOver; dsimp only; rw [cxOf_setCx_self]; rfl
  · unfold xferOver; dsimp only; rw [cxOf_setCx, if_neg hi]; rfl
  · exact bump_regsBut s _ 1
  · exact rd_wr_self _ _ _

theorem cxMoved_facts (s : State) (k i o : Nat) : cxOf (cxMoved s k i o) k = { cxOf s k with inBytes := (cxOf s k).inBytes + i, outBytes := (cxOf s k).outBytes + o } ∧
    ∀ j, j ≠ k → cxOf (cxMoved s k i o) j = cxOf s j := ⟨cxOf_setCx_self _ _ _, fun j hj => by unfold cxMoved; rw [cxOf_setCx, if_neg hj]⟩

theorem xferStart_facts {s : State} {k : Nat} {r : Bool} {x : Xfer} (h1 : s.xfers.find? (fun t => t.eng / 16 == k) = some x) (h2 : (cxOf s k).xfer = none) (h3 : (cxOf s k).mid = false) (h4 : (cxOf s k).resetFrom = none) (h5 : x.restore = r) :
    Does (maskOf [.cx, .xfers]) s (xferStart s k r) ∧ cxOf (xferStart s k r) k = { cxOf s k with xfer := some x, xferAt := aclk s } ∧ (∀ i, i ≠ k → cxOf (xferStart s k r) i = cxOf s i) ∧
    (xferStart s k r).xfers = s.xfers.filter (· != x) := by
  have e : xferStart s k r = setCx { s with xfers := s.xfers.filter (· != x) } k { cxOf s k with xfer := some x, xferAt := aclk s } := by
    unfold xferStart
    dsimp only
    rw [h1]
    dsimp only
    rw [if_neg (by rw [h2, h3, h4, h5]; simp)]
  refine ⟨does_xferStart _ _ _ (Does.refl _ s), ?_, fun i hi => ?_, ?_⟩
  · rw [e, cxOf_setCx_self]
  · rw [e, cxOf_setCx, if_neg hi]; rfl
  · rw [e]; rfl

end Sys2Proof.Machine
end

