-- ==== Sys2Proof/Laws/Fabric.lean ====
section
/-!
SUPPORT. What an arbitration round leaves.
-/
namespace Sys2Proof.Machine

set_option Elab.async false

theorem pickFrom_some {ptr r : Nat} {f : Nat → Bool} (h : pickFrom ptr f = some r) :
    ∃ i, i < 88 ∧ r = (ptr + i) % 88 ∧ f r = true ∧ ∀ j, j < i → f ((ptr + j) % 88) = false := by
  unfold pickFrom at h
  rw [List.find?_map, Option.map_eq_some_iff] at h
  obtain ⟨i, hi, he⟩ := h
  rw [List.find?_range_eq_some] at hi
  obtain ⟨h1, h2, h3⟩ := hi
  refine ⟨i, List.mem_range.1 h2, he.symm, by rw [← he]; exact h1, fun j hj => ?_⟩
  have := h3 j hj
  simpa using this

theorem pickFrom_none {ptr : Nat} (hp : ptr < 88) {f : Nat → Bool} (h : pickFrom ptr f = none) (r : Nat) (hr : r < 88) :
    f r = false := by
  unfold pickFrom at h
  rw [List.find?_eq_none] at h
  have := h r (List.mem_map.2 ⟨(r + 88 - ptr) % 88, List.mem_range.2 (Nat.mod_lt _ (by decide)), by omega⟩)
  simpa using this

theorem foldl_max (l : List Nat) (a : Nat) : a ≤ l.foldl max a ∧ (∀ x ∈ l, x ≤ l.foldl max a) ∧
    (l.foldl max a = a ∨ l.foldl max a ∈ l) := by
  induction l generalizing a with
  | nil => exact ⟨Nat.le_refl _, fun x hx => absurd hx (by simp), Or.inl rfl⟩
  | cons y l ih =>
    rw [List.foldl_cons]
    obtain ⟨h1, h2, h3⟩ := ih (max a y)
    refine ⟨Nat.le_trans (Nat.le_max_left _ _) h1, fun x hx => ?_, ?_⟩
    · rcases List.mem_cons.1 hx with hx | hx
      · rw [hx]; exact Nat.le_trans (Nat.le_max_right _ _) h1
      · exact h2 x hx
    · rcases h3 with h3 | h3
      · rcases Nat.le_total a y with hay | hay
        · right; rw [h3, Nat.max_eq_right hay]; exact List.mem_cons_self
        · left; rw [h3, Nat.max_eq_left hay]
      · right; exact List.mem_cons_of_mem _ h3

theorem maxOf_le {l : List Nat} {x : Nat} (h : x ∈ l) : x ≤ maxOf l := (foldl_max l 0).2.1 x h

theorem maxOf_mem {l : List Nat} {x : Nat} (h : x ∈ l) : maxOf l ∈ l := by
  rcases (foldl_max l 0).2.2 with h0 | h0
  · have := maxOf_le h
    unfold maxOf at this
    rw [h0] at this
    have hx : x = 0 := by omega
    unfold maxOf; rw [h0, ← hx]; exact h
  · exact h0

theorem arb_congr {s t : State} (h : t.arbs = s.arbs) (k : Nat) : arb t k = arb s k := by unfold arb; rw [h]

/-- Whether a requester is masked depends on the domains, the engines' resets and the compression engines' resets. -/
theorem masked_congr {s t : State} (h : ∀ o, o < 0x90000 → rd t o = rd s o) (h2 : t.engines = s.engines) (h3 : t.cx = s.cx)
    (r : Nat) : masked t r = masked s r := by
  have hp : ∀ lo n, fld t pwrDomainOff lo n = fld s pwrDomainOff lo n := fun lo n => by
    unfold fld; rw [h _ (by unfold pwrDomainOff pwrBase; omega)]
  unfold masked
  rw [eng_congr h2, h3]
  simp only [hp]

theorem baseLevel_congr {s t : State} (h : ∀ o, o < 0x90000 → rd t o = rd s o) {tag : Nat} (ht : tag < 16) :
    baseLevel t tag = baseLevel s tag := by
  unfold baseLevel fld
  rw [h _ (by unfold ptOff ptBase; omega)]

/-- A lost round changes the level and the run of its requester alone (R317). -/
theorem loseRound_arb (s : State) (a r : Nat) :
    (∃ n, arb (loseRound s a r) a = { arb s a with level := tabPut (fun _ => 0) r (min 7 (levelOf s (arb s a) r + 1)) (arb s a).level, run := n }) ∧
    (∀ k, k ≠ a → arb (loseRound s a r) k = arb s k) ∧ ∀ o, o < 0x90000 → rd (loseRound s a r) o = rd s o := by
  unfold loseRound
  dsimp only
  generalize hu : setArb s a _ = u
  have hua : ∀ k, arb u k = if k = a then { arb s a with
      level := tabPut (fun _ => 0) r (min 7 (levelOf s (arb s a) r + 1)) (arb s a).level
      run := tabPut (fun _ => 0) r (tabGet (fun _ => 0) r (arb s a).run + 1) (arb s a).run } else arb s k := fun k => by
    rw [← hu, arb_setArb]
  have hur : ∀ o, rd u o = rd s o := fun o => by rw [← hu]; rfl
  generalize hv : (if fld u (arbOff a 0x1C) 0 16 < min 0xFFFF (tabGet (fun _ => 0) r (arb s a).run + 1) then
      wr u (arbOff a 0x1C) (min 0xFFFF (tabGet (fun _ => 0) r (arb s a).run + 1) + r * 2 ^ 16) else u) = v
  have hva : v.arbs = u.arbs := by rw [← hv]; split <;> rfl
  have hvr : ∀ o, o < 0x90000 → rd v o = rd u o := fun o ho => by
    rw [← hv]
    split
    · exact rd_wr_other _ (by unfold arbOff arbBase; omega) _
    · rfl
  have key : ∀ w : State, w.arbs = v.arbs → (∀ o, o < 0x90000 → rd w o = rd v o) →
    (∃ n, arb w a = { arb s a with level := tabPut (fun _ => 0) r (min 7 (levelOf s (arb s a) r + 1)) (arb s a).level, run := n }) ∧
    (∀ k, k ≠ a → arb w k = arb s k) ∧ ∀ o, o < 0x90000 → rd w o = rd s o := fun w h1 h2 => by
    have hwa : ∀ k, arb w k = arb u k := fun k => by rw [arb_congr h1, arb_congr hva]
    exact ⟨⟨_, by rw [hwa, hua, if_pos rfl]⟩, fun k hk => by rw [hwa, hua, if_neg hk], fun o ho => by rw [h2 o ho, hvr o ho, hur]⟩
  split
  · generalize hx : setFld v (arbOff a (0x08 + 4 * (r / 32))) (r % 32) 1 1 = x
    have hx1 : x.arbs = v.arbs := by rw [← hx]; rfl
    have hx2 : ∀ o, o < 0x90000 → rd x o = rd v o := fun o ho => by
      rw [← hx]; exact rd_wr_other _ (by unfold arbOff arbBase; omega) _
    have hd := fun (y : Rep) => (does_raise (append x y) 0 7 (does_append x y (Does.refl (maskOf [.log, .msix]) x))).only
    exact key _ (((hd _).arbs rfl).trans hx1) fun o ho => (rd_congr ((hd _).regs rfl) o).trans (hx2 o ho)
  · exact key v rfl fun _ _ => rfl

theorem levelOf_congr {s t : State} {x y : ArbSt} {q : Nat} (h : ∀ o, o < 0x90000 → rd t o = rd s o) (hr : y.raised = x.raised)
    (ht : ∀ b ∈ x.raised, b.tag < 16) (hl : tabGet (fun _ => 0) q y.level = tabGet (fun _ => 0) q x.level) :
    levelOf t y q = levelOf s x q := by
  have e : reqHead y q = reqHead x q := by unfold reqHead; rw [hr]
  unfold levelOf
  rw [e, hl]
  cases hh : reqHead x q with
  | none => rfl
  | some b =>
    have hb : b ∈ x.raised := List.mem_of_find?_eq_some hh
    dsimp only
    rw [baseLevel_congr h (ht b hb)]

/-- Lost rounds of a list of requesters (R317). -/
theorem loseRounds_arb (L : List Nat) (hn : L.Nodup) (s : State) (a : Nat) (ht : ∀ b ∈ (arb s a).raised, b.tag < 16) :
    (∃ l n, arb (loseRounds s a L) a = { arb s a with level := l, run := n } ∧
      ∀ q, tabGet (fun _ => 0) q l =
        if q ∈ L then min 7 (levelOf s (arb s a) q + 1) else tabGet (fun _ => 0) q (arb s a).level) ∧
    (∀ k, k ≠ a → arb (loseRounds s a L) k = arb s k) ∧ ∀ o, o < 0x90000 → rd (loseRounds s a L) o = rd s o := by
  induction L generalizing s with
  | nil => exact ⟨⟨(arb s a).level, (arb s a).run, rfl, fun q => by rw [if_neg (by simp)]⟩, fun _ _ => rfl, fun _ _ => rfl⟩
  | cons r L ih =>
    unfold loseRounds
    obtain ⟨⟨n, h1⟩, h2, h3⟩ := loseRound_arb s a r
    obtain ⟨hr, hn'⟩ := List.nodup_cons.1 hn
    obtain ⟨⟨l, m, e1, e2⟩, e3, e4⟩ := ih hn' (loseRound s a r) (by rw [h1]; exact ht)
    refine ⟨⟨l, m, by rw [e1, h1], fun q => ?_⟩, fun k hk => (e3 k hk).trans (h2 k hk), fun o ho => (e4 o ho).trans (h3 o ho)⟩
    rw [e2 q]
    by_cases hq : q = r
    · subst hq
      rw [if_neg hr, if_pos List.mem_cons_self, h1]
      exact tabGet_put_same _ q _ _
    · have hlev : tabGet (fun _ => 0) q (arb (loseRound s a r) a).level = tabGet (fun _ => 0) q (arb s a).level := by
        rw [h1]; exact tabGet_put_other _ hq _ _
      have hlo := levelOf_congr (s := s) (t := loseRound s a r) (x := arb s a) (y := arb (loseRound s a r) a) (q := q) h3
        (by rw [h1]) ht hlev
      rw [hlo, hlev]
      by_cases hm : q ∈ L
      · rw [if_pos hm, if_pos (List.mem_cons_of_mem _ hm)]
      · rw [if_neg hm, if_neg (by simp [hq, hm])]

theorem maskArb_arb (s : State) (a : Nat) :
    arb (maskArb s a) a = { arb s a with
      level := (arb s a).level.filter fun k => !masked s k.1
      run := (arb s a).run.filter fun k => !masked s k.1 } ∧ ∀ k, k ≠ a → arb (maskArb s a) k = arb s k := by
  unfold maskArb
  exact ⟨arb_setArb_self _ _ _, fun k hk => by rw [arb_setArb, if_neg hk]⟩

theorem maskArb_raised (s : State) (a : Nat) :
    raisedRt (maskArb s a) (arb (maskArb s a) a) = raisedRt s (arb s a) ∧
    raisedReq (maskArb s a) (arb (maskArb s a) a) = raisedReq s (arb s a) ∧
    ∀ q, raisedReq s (arb s a) q = true → levelOf (maskArb s a) (arb (maskArb s a) a) q = levelOf s (arb s a) q := by
  have hm : ∀ r, masked (maskArb s a) r = masked s r := fun r => masked_congr (fun _ _ => rfl) rfl rfl r
  have hr : ∀ r, reqHead (arb (maskArb s a) a) r = reqHead (arb s a) r := fun r => by
    unfold reqHead; rw [(maskArb_arb s a).1]
  refine ⟨funext fun r => ?_, funext fun r => ?_, fun q hq => ?_⟩
  · unfold raisedRt; rw [hr, hm]
  · unfold raisedReq; rw [hr, hm]
  · unfold levelOf
    rw [hr]
    have hl : tabGet (fun _ => 0) q (arb (maskArb s a) a).level = tabGet (fun _ => 0) q (arb s a).level := by
      rw [(maskArb_arb s a).1]
      unfold tabGet
      dsimp only
      rw [tabFind_filter q (fun k => !masked s k)]
      unfold raisedReq at hq
      rw [Bool.and_eq_true] at hq
      rw [hq.2, if_pos rfl]
    rw [hl]
    rfl

/-- What a round leaves of the arbiter, when `w` wins with burst `b` (R315 to R317, R321). -/
theorem arbRound_arb {s : State} {a w : Nat} {b : Burst} (ht : ∀ b ∈ (arb s a).raised, b.tag < 16)
    (hw : roundWinner (maskArb s a) (arb (maskArb s a) a) = some w) (hb : reqHead (arb s a) w = some b) :
    (arb (arbRound s a) a).granted = (arb s a).granted ++ [b] ∧
    (arb (arbRound s a) a).rtPtr = (if b.rt then (w + 1) % 88 else (arb s a).rtPtr) ∧
    (arb (arbRound s a) a).bulkPtr = (if b.rt then (arb s a).bulkPtr else (w + 1) % 88) ∧
    (arb (arbRound s a) a).beats = (if b.rt then (arb s a).beats + beatsOf b else (arb s a).beats) ∧
    (b.rt = false → tabGet (fun _ => 0) w (arb (arbRound s a) a).level = 0 ∧ ∀ q, q < 88 → q ≠ w →
      raisedReq s (arb s a) q = true → raisedRt s (arb s a) q = false →
      tabGet (fun _ => 0) q (arb (arbRound s a) a).level = min 7 (levelOf s (arb s a) q + 1)) ∧
    ∀ k, k ≠ a → arb (arbRound s a) k = arb s k := by
  have hm := maskArb_arb s a
  have hmr := maskArb_raised s a
  have hhead : reqHead (arb (maskArb s a) a) w = some b := by unfold reqHead at hb ⊢; rw [hm.1]; exact hb
  unfold arbRound
  dsimp only
  rw [hw]
  dsimp only
  rw [hhead]
  dsimp only
  generalize hL : (List.range 88).filter (fun r => raisedReq (maskArb s a) (arb (maskArb s a) a) r &&
    !raisedRt (maskArb s a) (arb (maskArb s a) a) r && r != w) = L
  have hn : L.Nodup := by rw [← hL]; exact List.nodup_range.filter _
  obtain ⟨⟨l, n, e1, e2⟩, e3, -⟩ := loseRounds_arb L hn (maskArb s a) a (by rw [hm.1]; exact ht)
  rw [e1]
  refine ⟨?_, ?_, ?_, ?_, fun hrt => ⟨?_, fun q hq hqw hr hnr => ?_⟩, fun k hk => ?_⟩
  · rw [arb_setArb_self]; split <;> (dsimp only; rw [hm.1])
  · rw [arb_setArb_self]; split <;> dsimp only <;> rw [hm.1]
  · rw [arb_setArb_self]; split <;> dsimp only <;> rw [hm.1]
  · rw [arb_setArb_self]; split <;> dsimp only <;> rw [hm.1]
  · rw [arb_setArb_self, if_neg (by rw [hrt]; decide)]
    dsimp only
    unfold tabGet
    rw [tabFind_drop_same]
    rfl
  · rw [arb_setArb_self, if_neg (by rw [hrt]; decide)]
    dsimp only
    have hd : tabGet (fun _ => 0) q (tabDrop w l) = tabGet (fun _ => 0) q l := by
      unfold tabGet; rw [tabFind_drop_other hqw]
    rw [hd, e2 q, if_pos, hmr.2.2 q hr]
    rw [← hL, List.mem_filter, hmr.1, hmr.2.1, hr, hnr]
    exact ⟨List.mem_range.2 hq, by simpa using hqw⟩
  · rw [arb_setArb, if_neg hk, e3 k hk, hm.2 k hk]

theorem sendReply_port {m : Nat} (h : m < 16) (s : State) (b : Burst) (data : List Byte) (err : Nat) :
    (sendReply s m b data err).replies = s.replies ++ [{ burst := b, data := data, err := err }] ∧
    (∀ k, arb (sendReply s m b data err) k = if k = 16 + m / 4 then { arb s (16 + m / 4) with raised := (arb s (16 + m / 4)).raised ++ [b] } else arb s k) ∧
    Does (maskOf [.arbs, .replies]) s (sendReply s m b data err) := by
  unfold sendReply
  rw [if_neg (by omega)]
  refine ⟨rfl, fun k => arb_setArb s _ k _, ?_⟩
  exact Does.updReplies (does_setArb _ _ _ (Does.refl _ s)) rfl

theorem countBeats_facts (s : State) (m : Nat) (b : Burst) :
    rd (countBeats s m b) (mcOff m (if b.write then 0x08 else 0x04)) = (rd s (mcOff m (if b.write then 0x08 else 0x04)) + beatsOf b) % 2 ^ 32 ∧
    RegsBut [mcOff m (if b.write then 0x08 else 0x04), mcOff m 0x0C] s (countBeats s m b) ∧ Does (maskOf [.regs]) s (countBeats s m b) := by
  have h : mcOff m (if b.write then 0x08 else 0x04) ≠ mcOff m 0x0C := by unfold mcOff; split <;> omega
  refine ⟨?_, fun o ho => ?_, does_countBeats _ _ _ (Does.refl _ s)⟩
  · unfold countBeats
    dsimp only
    split
    · rw [bump, rd_wr_other _ h]; exact rd_wr_self _ _ _
    · exact rd_wr_self _ _ _
  · simp only [List.mem_cons, List.not_mem_nil, or_false, not_or] at ho
    unfold countBeats
    dsimp only
    split
    · rw [bump, rd_wr_other _ ho.2]; exact rd_wr_other _ ho.1 _
    · exact rd_wr_other _ ho.1 _

end Sys2Proof.Machine
end

