-- ==== Sys2Proof/Laws/HostLink.lean ====
section
/-!
SUPPORT. What the operations of the host link leave.
-/
namespace Sys2Proof.Machine

set_option Elab.async false

theorem mw2Violations_regs (s : State) (p : Nat) (l : List (Nat × Nat)) :
    RegsBut [ptBase + 0x200C, ptBase + 0x2010, ptBase + 0x2014] s (mw2Violations s p l) := by
  induction l generalizing s with
  | nil => exact fun _ _ => rfl
  | cons b l ih =>
    unfold mw2Violations
    exact fun o ho => (ih _ o ho).trans ((violationAs_facts s p 85 b.1 _ _ _).2.2 o ho)

theorem mw2_bad {s : State} {p a n : Nat} : readFault s p a n = none ↔ (burstsOf a n).filter (fun b => !inRange s p b.1 b.2) = [] := by
  unfold readFault
  rw [Option.map_eq_none_iff, List.find?_eq_none, List.filter_eq_nil_iff]

theorem mw2Put_foldl (s : State) (p base : Nat) (data : List Byte) (l : List (Nat × Nat)) :
    mw2Put s p base data none l = l.foldl (fun u b => (fun u a n => if !writable u p a n then violation u p 85 a else putBurst u p a ((data.drop (a - base)).take n)) u b.1 b.2) s := by
  induction l generalizing s with
  | nil => rfl
  | cons x l ih => unfold mw2Put; rw [ih]; rfl

theorem hostEngine_data {s : State} {e h : Nat} {b : Burst} {rest : List Burst} {data : List Byte} (h1 : hostReadOf e s.hostReads = some (b, rest))
    (h2 : masked s e = false) (h3 : isHost b.addr = true) (h4 : hostAddr s b.tag b.addr = some h) (h5 : data.length ≤ 256) :
    (hostEngine s e true data).hostReads = rest ∧ (hostEngine s e true data).host = s.host.writeBytes h data ∧
    (∃ d, (hostEngine s e true data).arrived = s.arrived ++ [{ burst := b, data := d, err := 0 }]) ∧
    Does (maskOf [.host, .arrived, .hostReads]) s (hostEngine s e true data) := by
  have hr : Does (maskOf [.host, .arrived, .hostReads]) s ({ s with hostReads := rest } : State) := Does.updHostReads (Does.refl _ s) rfl
  have hv := does_hostPut ({ s with hostReads := rest } : State) b.tag b.addr data (Does.refl (maskOf [.host]) _)
  have hh : (hostPut ({ s with hostReads := rest } : State) b.tag b.addr data).host = s.host.writeBytes h data := by
    unfold hostPut
    rw [h3, if_pos rfl, show hostAddr ({ s with hostReads := rest } : State) b.tag b.addr = some h from h4]
    dsimp only
    rw [List.take_of_length_le h5]
  have hq : (hostPut ({ s with hostReads := rest } : State) b.tag b.addr data).hostReads = rest := hv.only.hostReads rfl
  unfold hostEngine
  rw [h1]
  simp only [if_true]
  have hm : masked (hostPut ({ s with hostReads := rest } : State) b.tag b.addr data) e = false := by
    rw [masked_congr (s := s) (fun o _ => rd_congr (hv.only.regs rfl) o) (hv.only.engines rfl) (hv.only.cx rfl), h2]
  have har : (hostPut ({ s with hostReads := rest } : State) b.tag b.addr data).arrived = s.arrived := hv.only.arrived rfl
  have hdv := hr.trans (hv.mono (Sub.of_eq rfl))
  generalize hostPut ({ s with hostReads := rest } : State) b.tag b.addr data = v at *
  rw [hm, if_neg Bool.false_ne_true]
  refine ⟨hq, hh, ⟨_, by show v.arrived ++ _ = _; rw [har]⟩, Does.updArrived hdv rfl⟩

theorem hostEngine_fail {s : State} {e : Nat} {b : Burst} {rest : List Burst} {data : List Byte} (h1 : hostReadOf e s.hostReads = some (b, rest))
    (h2 : masked s e = false) :
    (hostEngine s e false data).hostReads = rest ∧ (hostEngine s e false data).log.seq = (s.log.seq + 1) % 2 ^ 32 ∧
    (hostEngine s e false data).arrived = s.arrived ++ [{ burst := b, data := [], err := 0xC4 }] ∧
    Does (maskOf [.log, .msix, .arrived, .hostReads]) s (hostEngine s e false data) := by
  unfold hostEngine
  rw [h1]
  simp only [Bool.false_eq_true, if_false]
  rw [if_neg (fun hh => by have hm : masked s e = true := hh; rw [h2] at hm; exact absurd hm (by decide))]
  have hs : Does (maskOf [.log, .msix, .arrived, .hostReads]) s ({ s with hostReads := rest } : State) := Does.updHostReads (Does.refl _ s) rfl
  have ha := fun r => append_only ({ s with hostReads := rest } : State) r
  have hq := fun r => append_seq ({ s with hostReads := rest } : State) r
  refine ⟨(ha _).only.hostReads rfl, (hq _), ?_, Does.updArrived (hs.trans ((ha _).mono (Sub.of_eq rfl))) rfl⟩
  show (append _ _).arrived ++ _ = _
  rw [(ha _).only.arrived rfl]

theorem pair4 (s : State) (off v : Nat) : (pairRead s off v 4).rdata = [v % 2 ^ 32] ∧ (pairRead s off v 4).rstat = 0 ∧
    rd (pairRead s off v 4) (off + 4) = v / 2 ^ 32 % 2 ^ 32 ∧ RegsBut [off + 4] s (pairRead s off v 4) ∧ Does (maskOf [.regs, .rdata, .rstat]) s (pairRead s off v 4) := by
  refine ⟨rfl, rfl, rd_wr_self _ _ _, fun o ho => (wr_regsBut _ _ _ o ho).trans rfl, does_pairRead _ _ _ _ (Does.refl _ s)⟩

theorem vecOpen_ctl {s t : State} {p v : Nat} (h : msixCtlOf t p = msixCtlOf s p) (h2 : (vec t p v).masked = (vec s p v).masked) : vecOpen t p v = vecOpen s p v := by
  unfold vecOpen; rw [h, h2]

theorem releasePend_vec (ns : List Nat) (hn : ns.Nodup) (s : State) (p : Nat) :
    msixCtlOf (releasePend s p ns) p = msixCtlOf s p ∧
    (∀ n ∈ ns, n < 64 → vec (releasePend s p ns) p n = if vecOpen s p n = true ∧ (vec s p n).pend = true then { vec s p n with pend := false, due := true } else vec s p n) ∧
    ∀ q w, (∀ n ∈ ns, 64 * q + w ≠ 64 * p + n) → vec (releasePend s p ns) q w = vec s q w := by
  induction ns generalizing s with
  | nil => exact ⟨rfl, fun n hn => absurd hn (by simp), fun _ _ _ => rfl⟩
  | cons v ns ih =>
    unfold releasePend
    dsimp only
    obtain ⟨hv, hn'⟩ := List.nodup_cons.1 hn
    generalize hu : (if vecOpen s p v ∧ (vec s p v).pend then setVec s p v { vec s p v with pend := false, due := true } else s) = u
    have hc : ∀ q, msixCtlOf u q = msixCtlOf s q := fun q => by rw [← hu]; split <;> rfl
    have hself : vec u p v = if vecOpen s p v = true ∧ (vec s p v).pend = true then { vec s p v with pend := false, due := true } else vec s p v := by
      rw [← hu]; split
      · rw [vec_setVec, if_pos rfl]
      · rfl
    have hoth : ∀ q w, 64 * q + w ≠ 64 * p + v → vec u q w = vec s q w := fun q w hq => by
      rw [← hu]; split
      · rw [vec_setVec, if_neg hq]
      · rfl
    obtain ⟨i1, i2, i3⟩ := ih hn' u
    refine ⟨i1.trans (hc p), fun n hm hl => ?_, fun q w hq => ?_⟩
    · rcases List.mem_cons.1 hm with hm | hm
      · subst hm
        rw [i3 p n fun k hk he => hv (by have : n = k := by omega
                                         rw [this]; exact hk)]
        exact hself
      · have hne : n ≠ v := fun he => hv (he ▸ hm)
        rw [i2 n hm hl]
        have e := hoth p n (by omega)
        rw [vecOpen_ctl (hc p) (by rw [e]), e]
    · rw [i3 q w fun k hk => hq k (List.mem_cons_of_mem _ hk)]
      exact hoth q w (hq v List.mem_cons_self)

end Sys2Proof.Machine
end

