-- ==== Sys2Proof/Laws/Reset.lean ====
section
/-!
SUPPORT. What the operations of partition resets leave.
-/
namespace Sys2Proof.Machine

set_option Elab.async false

theorem rd_setFld_other (s : State) {o o' : Nat} (h : o' ≠ o) (lo n v : Nat) : rd (setFld s o lo n v) o' = rd s o' :=
  rd_wr_other s h _

theorem setFld_only (s : State) (o lo n v : Nat) : Does (maskOf [.regs]) s (setFld s o lo n v) := does_setFld _ _ _ _ _ (Does.refl _ s)

theorem fld_congr' {s t : State} {o : Nat} (h : rd t o = rd s o) (lo n : Nat) : fld t o lo n = fld s o lo n := by
  unfold fld; rw [h]

/-- A pass that closes writes registers of the SEC block alone. -/
theorem closePass_low (s : State) (x : Pass) (o : Nat) (h : o < 0x70000) : rd (closePass s x) o = rd s o := by
  unfold closePass passRegs
  dsimp only
  have e : ∀ k, o ≠ passOff x.part k := fun k => by unfold passOff secBase; omega
  rw [rd_setFld_other _ (e _), rd_setFld_other _ (e _), rd_setFld_other _ (e _), rd_setFld_other _ (e _), rd_setFld_other _ (e _), rd_setFld_other _ (e _)]
  rfl

theorem resetPasses_low (l : List Pass) (s : State) (o : Nat) (h : o < 0x70000) : rd (resetPasses s l) o = rd s o := by
  induction l generalizing s with
  | nil => rfl
  | cons x r ih => unfold resetPasses; rw [ih, closePass_low _ _ _ h]

theorem pipeHalts_low (l : List Nat) (s : State) (o : Nat) (h : o < 0x70000) : rd (l.foldl pipeHalt s) o = rd s o := by
  induction l generalizing s with
  | nil => rfl
  | cons x r ih =>
    rw [List.foldl_cons, ih]
    unfold pipeHalt
    rw [rd_setFld_other _ (by unfold cmpOff cmpBase; omega)]
    rfl

theorem capHalts_only (l : List Nat) (s : State) : Does (maskOf [.caps, .capStop]) s (l.foldl capHalt s) := by
  induction l generalizing s with
  | nil => exact Does.refl _ s
  | cons x r ih => rw [List.foldl_cons]; exact (does_capHalt _ _ (Does.refl _ s)).trans (ih _)

theorem resetUnits_low (s : State) (p o : Nat) (h : o < 0x70000) : rd (resetUnits s p) o = rd s o := by
  unfold resetUnits
  dsimp only
  rw [rd_congr ((capHalts_only _ _).only.regs rfl), pipeHalts_low _ _ _ h]

theorem resetEngines_eng (l : List Nat) (s : State) (e : Nat) :
    (e ∈ l → (eng (resetEngines s l) e).inReset = true ∧ (eng (resetEngines s l) e).waves = []) ∧
    (e ∉ l → eng (resetEngines s l) e = eng s e) := by
  induction l generalizing s with
  | nil => exact ⟨fun h => absurd h (by simp), fun _ => rfl⟩
  | cons x r ih =>
    unfold resetEngines
    have hx : ∀ k, k ≠ x → eng (resetEngine s x) k = eng s k := fun k hk => by unfold resetEngine; rw [eng_setEng, if_neg hk]
    have hs : (eng (resetEngine s x) x).inReset = true ∧ (eng (resetEngine s x) x).waves = [] := by
      unfold resetEngine; rw [eng_setEng, if_pos rfl]; exact ⟨rfl, rfl⟩
    refine ⟨fun h => ?_, fun h => ?_⟩
    · by_cases hr : e ∈ r
      · exact (ih _).1 hr
      · have : e = x := by simpa [hr] using h
        subst this
        rw [(ih _).2 hr]; exact hs
    · simp only [List.mem_cons, not_or] at h
      rw [(ih _).2 h.2, hx _ h.1]

/-- What orders 1 and 2 leave of the fields that a statement names. -/
theorem resetStop_facts (s : State) (p : Nat) :
    (∀ o, o < 0x70000 → rd (resetStop s p) o = rd s o) ∧
    (∀ e ∈ partEngs s p, (eng (resetStop s p) e).inReset = true ∧ (eng (resetStop s p) e).waves = []) ∧
    (resetStop s p).disps = s.disps.filter (·.part != p) ∧
    (∀ x ∈ (resetStop s p).arbs, ∀ b ∈ x.2.raised, b.tag ≠ p) := by
  have d1 : Does (maskOf [.fslots, .fclock, .fwaiting, .pageIns, .queues, .slots, .jobs]) s (resetQueues s (partQueues s p)) := does_resetQueues _ _ (Does.refl _ s)
  unfold resetStop
  dsimp only
  generalize resetQueues s (partQueues s p) = a at *
  have d2 : Does (maskOf [.engines, .model]) a (resetRun a p) := does_resetRun _ _ (Does.refl _ a)
  generalize resetRun a p = b at *
  have hb : b.regs = s.regs := by rw [d2.only.regs rfl, d1.only.regs rfl]
  have hp : partEngs b p = partEngs s p := by
    unfold partEngs quadsOf ownsQuad fld
    simp only [rd_congr hb]
  rw [hp]
  have d3 : Does (maskOf [.engines]) b (resetEngines b (partEngs s p)) := does_resetEngines _ _ (Does.refl _ b)
  have e3 := fun e he => (resetEngines_eng (partEngs s p) b e).1 he
  generalize resetEngines b (partEngs s p) = c at *
  generalize hu : ({ c with disps := c.disps.filter (·.part != p), pres := c.pres.filter (·.part != p),
                            xfers := c.xfers.filter (·.part != p),
                            copies := c.copies.filter fun x => !(c.jobs.any fun j => j.key == x.key && j.part == p),
                            compWaits := c.compWaits.filter fun x => !(c.jobs.any fun j => j.key == x.key && j.part == p) } : State) = u
  have u1 : u.regs = s.regs := by rw [← hu]; exact (d3.only.regs rfl).trans hb
  have u2 : u.engines = c.engines := by rw [← hu]
  have u3 : u.disps = s.disps.filter (·.part != p) := by
    rw [← hu]; show c.disps.filter _ = _; rw [d3.only.disps rfl, d2.only.disps rfl, d1.only.disps rfl]
  clear hu
  have d5 : Does (maskOf [.jobs, .cx]) u (resetCx u p (List.range 4)) := does_resetCx _ _ _ (Does.refl _ u)
  generalize resetCx u p (List.range 4) = v at *
  have d6 : Does (maskOf [.regs, .pres, .xfers, .passes]) v (resetPasses v (v.passes.filter (·.part == p))) := does_resetPasses _ _ (Does.refl _ v)
  have l6 := resetPasses_low (v.passes.filter (·.part == p)) v
  generalize resetPasses v (v.passes.filter (·.part == p)) = w at *
  have d7 : Does (maskOf [.regs, .caps, .capStop, .pipes]) w (resetUnits w p) := does_resetUnits _ _ (Does.refl _ w)
  have l7 := resetUnits_low w p
  generalize resetUnits w p = x at *
  have d8 : Does (maskOf [.arbs]) x (resetRaised x p) := does_resetRaised _ _ (Does.refl _ x)
  refine ⟨fun o ho => ?_, fun e he => ?_, ?_, fun y hy z hz => ?_⟩
  · rw [rd_congr (d8.only.regs rfl), l7 o ho, l6 o ho, rd_congr (d5.only.regs rfl), rd_congr u1]
  · have : eng (resetRaised x p) e = eng c e := by
      unfold eng; rw [d8.only.engines rfl, d7.only.engines rfl, d6.only.engines rfl, d5.only.engines rfl, u2]
    rw [this]; exact e3 e he
  · rw [d8.only.disps rfl, d7.only.disps rfl, d6.only.disps rfl, d5.only.disps rfl, u3]
  · unfold resetRaised at hy
    rw [List.mem_map] at hy
    obtain ⟨a, _, rfl⟩ := hy
    simpa using (List.mem_filter.1 hz).2

/-- A reset that starts while none of its partition is in progress. -/
theorem resetStart_begun {s : State} {r : PReset} (h : resetOf s r.part = none) (hp : r.part < 9) :
    ResetBegun s (resetStart s r) r := by
  unfold resetStart
  rw [h, if_neg (by decide)]
  dsimp only
  have hq : ∀ o, o ≠ ptStatusOff r.part → rd (setFld (setFld s (ptStatusOff r.part) 2 1 1) (ptStatusOff r.part) 4 3 2) o = rd s o :=
    fun o ho => by rw [rd_setFld_other _ ho, rd_setFld_other _ ho]
  have f1 : fld (setFld (setFld s (ptStatusOff r.part) 2 1 1) (ptStatusOff r.part) 4 3 2) (ptStatusOff r.part) 2 1 = 1 := by
    rw [fld_setFld_other _ _ _ _ _ (by decide) (by decide), fld_setFld_same _ _ _ _ _ (by decide)]; rfl
  have f2 : fld (setFld (setFld s (ptStatusOff r.part) 2 1 1) (ptStatusOff r.part) 4 3 2) (ptStatusOff r.part) 4 3 = 2 := by
    rw [fld_setFld_same _ _ _ _ _ (by decide)]; rfl
  have f3 : Does (maskOf [.regs]) s (setFld (setFld s (ptStatusOff r.part) 2 1 1) (ptStatusOff r.part) 4 3 2) :=
    (setFld_only _ _ _ _ _).trans (setFld_only _ _ _ _ _)
  generalize setFld (setFld s (ptStatusOff r.part) 2 1 1) (ptStatusOff r.part) 4 3 2 = a at *
  have hpe : partEngs a r.part = partEngs s r.part := by
    unfold partEngs quadsOf ownsQuad fld
    have h1 : rd a (ptOff r.part 4) = rd s (ptOff r.part 4) := hq _ (by unfold ptOff ptStatusOff; omega)
    have h2 : ∀ q, rd a (qdOff q 0) = rd s (qdOff q 0) := fun q => hq _ (by unfold qdOff ptStatusOff qdBase ptBase; omega)
    simp only [h1, h2]
  have hpf : ∀ e, engFailed a e = engFailed s e := fun e => by
    unfold engFailed fld
    rw [hq _ (by unfold engOff ptStatusOff engBase ptBase; omega)]
  have hpf' : (partEngs a r.part).filter (engFailed a) = (partEngs s r.part).filter (engFailed s) := by
    rw [hpe]; exact List.filter_congr fun e _ => hpf e
  rw [hpf']
  generalize hb : ({ a with resets := a.resets ++ [{ r with failed := (partEngs s r.part).filter (engFailed s) }] } : State) = b
  have b1 : b.regs = a.regs := by rw [← hb]
  have b2 : b.resets = s.resets ++ [{ r with failed := (partEngs s r.part).filter (engFailed s) }] := by
    rw [← hb]; show a.resets ++ _ = _; rw [f3.only.resets rfl]
  have b3 : b.disps = s.disps := by rw [← hb]; exact f3.only.disps rfl
  have b4 : partEngs b r.part = partEngs s r.part := by
    rw [← hpe]; unfold partEngs quadsOf ownsQuad fld; simp only [rd_congr b1]
  clear hb
  obtain ⟨l1, l2, l3, l4⟩ := resetStop_facts b r.part
  have lo : rd (resetStop b r.part) (ptStatusOff r.part) = rd a (ptStatusOff r.part) := by
    rw [l1 _ (by unfold ptStatusOff ptBase; omega), rd_congr b1]
  refine ⟨by rw [fld_congr' lo, f1], by unfold ptStage; rw [fld_congr' lo, f2], ?_, fun e he => l2 e (by rw [b4]; exact he), by rw [l3, b3], l4⟩
  rw [← b2]
  exact (does_resetStop b r.part (Does.refl (maskOf [.regs, .engines, .fslots, .fclock, .fwaiting, .pageIns, .arbs, .queues, .slots, .jobs, .copies,
    .compWaits, .cx, .disps, .pres, .xfers, .passes, .model, .caps, .capStop, .pipes]) b)).only.resets rfl

end Sys2Proof.Machine
end

