-- ==== Sys2Proof/Tests/Slice0.lean ====
section
/-!
SUPPORT. Tests: an ill-formed term for each check of well-formedness, and for each statement a state and operands that
meet its hypotheses.
-/
namespace Sys2Proof.Machine

/-! ### Ill-formed commands, one for each check of `Instr.wf` -/

theorem test_wf_pulse : (Instr.frameSyncPulse 0 0).wf = false ∧ (Instr.frameSyncPulse 0 1).wf = true := by decide
theorem test_wf_vector : (Instr.vectorInstruction 0 0 .min .fp16 0 0 0 0 0).wf = false := by decide
theorem test_wf_tload : (Instr.tload 0 0 0 1 0 0 .fp32 0 .ok 0).wf = false := by decide
theorem test_wf_tmma : (Instr.tmma 0 0 0 0 1 1 0 0 .int32 false 0 .ok 0).wf = false := by decide
theorem test_wf_tileLoad : (Instr.tileLoad 0 0 none 4194303 2 (.scalar 0) 0 .ok 0).wf = false ∧
    (Instr.tileLoad 0 0 none 4194303 1 (.scalar 0) 0 .ok 0).wf = true := by decide
theorem test_wf_tileStore : (Instr.tileStore 0 0 none 0 [] 0 .ok 0).wf = false := by decide
theorem test_wf_farLoad : (Instr.farLineLoad 0 0 127 2 false (.scalar 0) 0 .ok 0).wf = false ∧
    (Instr.farLineLoad 0 0 127 1 false (.scalar 0) 0 .ok 0).wf = true := by decide
theorem test_wf_farStore : (Instr.farLineStore 0 0 (2 ^ 48) [0#8] false 0 .ok 0).wf = false := by decide
theorem test_wf_groups : (Instr.flcGroupsChange 0 8 none 0).wf = false := by decide
theorem test_wf_fence : (Instr.engineFenceSignal 0 0 (2 ^ 48) 0).wf = false := by decide
theorem test_wf_round : (Instr.arbitrationRound 0
    [{ req := 63, tag := 0, rt := false, write := false, addr := 0, len := 1, data := [], use := 0 }] [] 0).wf = false := by
  decide
theorem test_wf_doorbell : (Instr.doorbell 0 0 0 9).wf = false := by decide
theorem test_wf_compRead : (Instr.feCompRead 0 0 5).wf = false := by decide
theorem test_wf_cerrRead : (Instr.feCerrRead 0 0 2).wf = false := by decide
theorem test_wf_mw2Read : (Instr.mw2Read 0 0 0 0 .ok).wf = false := by decide
theorem test_wf_mw2Write : (Instr.mw2Write 0 0 [] false 0 .ok).wf = false := by decide
theorem test_wf_completion : (Instr.hostReadCompletion (.copy 0) 0 .abort [0#8] 0).wf = false := by decide
theorem test_wf_register : (Instr.registerWrite 0 0 0 0).wf = false := by decide
theorem test_wf_serial : (Instr.serialWrite 0 0 [] 0 false).wf = false ∧ (Instr.serialWrite 0 0 [] 0 true).wf = true := by decide
theorem test_wf_aux : (Instr.auxReply 0 0 (List.replicate 17 0#8)).wf = false := by decide
theorem test_wf_line : (Instr.linePacket 0 0 0 0 .ok true [65536] [] .ok).wf = false := by decide
theorem test_wf_display : (Instr.displayLine 0 0 [(12, 0, 0)] [] false).wf = false := by decide

/-! ### The queue -/

/-- No row of the table gives bits, so no word spells a command. -/
theorem test_no_word : decodeTableWord 32 0 = none := by decide

/-- The front command runs, and the second one waits. -/
theorem test_queue_order : step { State.reset with pending := [.perstRelease, .fsoPulseEnd] } =
    exec .perstRelease { State.reset with pending := [.fsoPulseEnd] } := rfl

end Sys2Proof.Machine
end

/-!
The extremes of a conversion: what `roundInto` gives where an element overflows, for an infinity and for a NaN, once for
all float targets and once for all integer targets, and the patterns that these are in each format.
-/
namespace Sys2Proof.Machine

/-! ### Float targets (R143 to R145) -/

section Float
variable {f : Fmt} (hf : isIntFmt f = false) (r : Rnd) (ieee : Bool) (draw : Nat)
include hf

theorem roundInto_nan_float : roundInto f .nan r ieee draw = (canonNan f, false) := by
  simp [roundInto, hf]

theorem roundInto_inf_float (neg : Bool) : roundInto f (.inf neg) r ieee draw = (infOf f neg, false) := by
  simp [roundInto, hf]

theorem roundInto_zero_float (neg : Bool) (q : Int) :
    roundInto f (.fin neg 0 q) r ieee draw = (signBit f neg, false) := by
  simp [roundInto, hf]

/-- R134, R135, R142: the rounded magnitude of a non-zero value overflows, is flushed in F19, or is encoded. -/
theorem roundInto_succ_float (neg : Bool) (n : Nat) (q : Int) : ∃ (i : Nat) (k : Int),
    roundInto f (.fin neg (n + 1) q) r ieee draw =
      if overMax f i k then ((if ieee then infOf f neg else maxFinite f neg), true)
      else if f = .f19 ∧ k + (Nat.log2 i : Int) < -126 then (signBit f neg, false)
      else (encodeFp f neg i k, false) :=
  ⟨_, _, by simp only [roundInto, hf, Bool.false_eq_true, if_false]; rfl⟩

/-- An overflow does not depend on the rounding mode, the draw or the amount: only OVF_MODE and the sign are left. -/
theorem roundInto_overflow_float {neg : Bool} {m : Nat} {q : Int}
    (h : (roundInto f (.fin neg m q) r ieee draw).2 = true) :
    (roundInto f (.fin neg m q) r ieee draw).1 = if ieee then infOf f neg else maxFinite f neg := by
  cases m with
  | zero => simp [roundInto_zero_float hf] at h
  | succ n =>
    obtain ⟨i, k, hround⟩ := roundInto_succ_float hf r ieee draw neg n q
    rw [hround] at h ⊢
    by_cases hover : overMax f i k = true
    · rw [if_pos hover]
    · rw [if_neg hover] at h
      split at h <;> cases h

end Float

/-! ### Integer targets (R143, R146) -/

/-- The end of an integer format's range on the side of a sign, as a pattern. -/
def rangeEnd (f : Fmt) (neg : Bool) : Nat :=
  ofSigned (fmtWidth f) (if neg then (intRange f).1 else (intRange f).2)

theorem intRange_fst_nonpos (f : Fmt) : (intRange f).1 ≤ 0 := by cases f <;> decide

theorem intRange_snd_nonneg (f : Fmt) : 0 ≤ (intRange f).2 := by cases f <;> decide

/-- An integer clamped to a format's range: the pattern, and whether it lay outside. -/
def clampInto (f : Fmt) (x : Int) : Nat × Bool :=
  if x < (intRange f).1 then (rangeEnd f true, true)
  else if (intRange f).2 < x then (rangeEnd f false, true)
  else (ofSigned (fmtWidth f) x, false)

/-- Every range holds 0, so a value of a sign can leave it only by the end of that sign. -/
theorem clampInto_overflow {f : Fmt} {neg : Bool} {i : Nat}
    (h : (clampInto f (if neg then -(i : Int) else i)).2 = true) :
    (clampInto f (if neg then -(i : Int) else i)).1 = rangeEnd f neg := by
  have hlo := intRange_fst_nonpos f
  have hhi := intRange_snd_nonneg f
  cases neg with
  | true =>
    have hin : ¬ (intRange f).2 < -(i : Int) := by omega
    by_cases hbelow : -(i : Int) < (intRange f).1
    · simp [clampInto, hbelow]
    · simp [clampInto, hbelow, hin] at h
  | false =>
    have hin : ¬ (i : Int) < (intRange f).1 := by omega
    by_cases habove : (intRange f).2 < (i : Int)
    · simp [clampInto, hin, habove]
    · simp [clampInto, hin, habove] at h

section Integer
variable {f : Fmt} (hf : isIntFmt f = true) (r : Rnd) (ieee : Bool) (draw : Nat)
include hf

theorem roundInto_nan_int : roundInto f .nan r ieee draw = (0, false) := by
  simp [roundInto, hf]

theorem roundInto_inf_int (neg : Bool) : roundInto f (.inf neg) r ieee draw = (rangeEnd f neg, true) := by
  simp [roundInto, hf, rangeEnd]

theorem roundInto_fin_int (neg : Bool) (m : Nat) (q : Int) : ∃ i : Nat,
    roundInto f (.fin neg m q) r ieee draw = clampInto f (if neg then -(i : Int) else i) :=
  ⟨_, by simp only [roundInto, hf, if_true]; rfl⟩

theorem roundInto_overflow_int {neg : Bool} {m : Nat} {q : Int}
    (h : (roundInto f (.fin neg m q) r ieee draw).2 = true) :
    (roundInto f (.fin neg m q) r ieee draw).1 = rangeEnd f neg := by
  obtain ⟨i, hi⟩ := roundInto_fin_int hf r ieee draw neg m q
  rw [hi] at h ⊢
  exact clampInto_overflow h

end Integer

/-! ### The patterns in each format (R127, R130) -/

/-- R127's table: a float format's largest finite pattern, sign bit, infinity if it has one, and canonical NaN. -/
def floatRows : List (Fmt × Nat × Nat × Option Nat × Nat) :=
  [(.e4m3, 0x7E, 0x80, none, 0x7F), (.e5m2, 0x7B, 0x80, some 0x7C, 0x7E),
   (.fp16, 0x7BFF, 0x8000, some 0x7C00, 0x7E00), (.bf16, 0x7F7F, 0x8000, some 0x7F80, 0x7FC0),
   (.f19, 0x3FBFF, 0x40000, some 0x3FC00, 0x3FE00),
   (.fp32, 0x7F7FFFFF, 0x80000000, some 0x7F800000, 0x7FC00000)]

theorem floatRows_patterns : ∀ row ∈ floatRows, ∀ neg : Bool, match row with
    | (f, big, sign, inf, nan) => isIntFmt f = false ∧ canonNan f = nan ∧
      maxFinite f neg = big + (if neg then sign else 0) ∧
      infOf f neg = inf.elim 0x7F (· + if neg then sign else 0) := by decide

/-- R130's table: the patterns of an integer format's lowest and highest value. -/
def intRows : List (Fmt × Nat × Nat) :=
  [(.int4, 8, 7), (.int8, 0x80, 0x7F), (.uint8, 0, 0xFF), (.int32, 0x80000000, 0x7FFFFFFF)]

theorem intRows_patterns : ∀ row ∈ intRows, ∀ neg : Bool, match row with
    | (f, lo, hi) => isIntFmt f = true ∧ rangeEnd f neg = if neg then lo else hi := by decide

/-! ### The statement -/

/-- Overflows happen: R149's row for −500, and R148's bound of UINT8. -/
example : roundInto .e4m3 (.fin true 500 0) .nearestEven false 0 = (0xFE, true) ∧
    roundInto .uint8 (.fin true 1 0) .towardZero false 0 = (0, true) := by decide

/-- Settles O16: the lemmas above reduce a conversion's extremes to the patterns `maxFinite`, `infOf`, `canonNan` and
`rangeEnd`, and the tables say which patterns these are. -/
theorem conversionExtremes : Obligations.ConversionExtremes := by
  unfold Obligations.ConversionExtremes
  constructor
  · intro f big sign nan inf hrow r draw neg
    obtain ⟨hf, hnan, hmax, hinf⟩ := floatRows_patterns _ hrow neg
    refine ⟨fun m q h => ?_, fun ieee => ⟨?_, ?_⟩⟩
    · exact (roundInto_overflow_float hf r false draw h).trans hmax
    · rw [roundInto_inf_float hf, hinf]
      cases inf <;> rfl
    · rw [roundInto_nan_float hf, hnan]
  · intro f lo hi hrow r draw neg ieee
    obtain ⟨hf, hend⟩ := intRows_patterns _ hrow neg
    refine ⟨fun m q h => ?_, ?_, roundInto_nan_int hf r ieee draw⟩
    · exact (roundInto_overflow_int hf r ieee draw h).trans hend
    · rw [roundInto_inf_int hf, hend]

end Sys2Proof.Machine

/-!
CRC-32 in TSF (R336): the register behind `crc32`, and what one further byte does to it.
-/
namespace Sys2Proof.Machine

/-- `crcShift 1` is one shift of the reflected register. -/
theorem crcShift_eq_iterate (k c : Nat) : crcShift c k = (crcShift · 1)^[k] c := by
  induction k generalizing c with
  | zero => rfl
  | succ k ih => exact ih (crcShift c 1)

theorem crcFeed_concat (c : Nat) (l : List Byte) (b : Byte) :
    crcFeed c (l ++ [b]) = crcShift (Nat.xor (crcFeed c l) b.toNat) 8 := by
  induction l generalizing c with
  | nil => rfl
  | cons a l ih => exact ih (crcShift (Nat.xor c a.toNat) 8)

/-- Undoing the inversion of a CRC gives the register back. -/
theorem xor_crc32 (l : List Byte) : Nat.xor (crc32 l) 0xFFFFFFFF = crcFeed 0xFFFFFFFF l :=
  Nat.xor_xor_cancel_right _ _

/-- The CRC-32 of IEEE 802.3 over the ASCII bytes of "abc". -/
example : crc32 [0x61, 0x62, 0x63] = 0x352441C2 := by decide

/-- Settles O17: with the inversion undone, a CRC is its register, which a further byte moves by eight iterated shifts. -/
theorem crc32Register : Obligations.Crc32Register := by
  unfold Obligations.Crc32Register
  refine ⟨rfl, xor_crc32 [], fun l b => ?_⟩
  rw [xor_crc32, xor_crc32, crcFeed_concat]
  exact crcShift_eq_iterate 8 _

end Sys2Proof.Machine

/-!
The serial port's count of the frames it ignores (R460, R482).
-/
namespace Sys2Proof.Machine

/-- The next state of an ignored frame (R460): MB_PORT_CMD_CNT counted and no byte on the wire. -/
def serialIgnored (s : State) : State := { bumpSat s (mbBase + 0x1010) 0 32 with wire := [] }

theorem exec_serialBadCommand {s : State} (hgood : s.hotSwap.good = true) :
    exec .serialBadCommand s = .next (serialIgnored s) :=
  congrArg Host.Outcome.next (if_pos hgood)

theorem bumpSat_regsBut (s : State) (off lo n k : Nat) : RegsBut [off] s (bumpSat s off lo n k) :=
  setFld_regsBut s off lo n _

/-- The wire is no register, so an ignored frame reads as the counter's increment. -/
theorem rd_serialIgnored (s : State) (off : Nat) :
    rd (serialIgnored s) off = rd (bumpSat s (mbBase + 0x1010) 0 32) off := rd_congr rfl off

theorem serialIgnored_regsBut (s : State) : RegsBut [mbBase + 0x1010] s (serialIgnored s) :=
  fun off hoff => (rd_serialIgnored s off).trans (bumpSat_regsBut s _ 0 32 1 off hoff)

/-- The first frame ignored after reset counts 1. -/
example : State.reset.hotSwap.good = true ∧ rd (serialIgnored State.reset) (mbBase + 0x1010) = 1 := by decide

/-- A full counter stays full. -/
example : rd (serialIgnored (wr State.reset (mbBase + 0x1010) 0xFFFFFFFF)) (mbBase + 0x1010) = 0xFFFFFFFF := by
  decide

/-- Settles O18: with the port powered, an ignored frame leaves `serialIgnored`, whose one changed register is the 32-bit
counter that saturates. -/
theorem serialBadCommandIsCounted : Obligations.SerialBadCommandIsCounted := by
  unfold Obligations.SerialBadCommandIsCounted
  intro s hgood
  have hexec := exec_serialBadCommand hgood
  have hcount := (rd_serialIgnored s (mbBase + 0x1010)).trans (bumpSat_rd s (mbBase + 0x1010) 1)
  have hdoes : DoesOut (maskOf [.regs, .wire]) s (exec .serialBadCommand s) :=
    does_execSerialBadCommand s (Does.refl _ s)
  exact completes_out hexec hdoes ⟨rfl, hcount, serialIgnored_regsBut s⟩

end Sys2Proof.Machine

/-!
Steps: every command answers a next state, which comes from the state before it as `Does` says; what holds after reset.
-/
namespace Sys2Proof.Machine

set_option Elab.async false

/-- The outcome is a next state. -/
def IsNext (o : Out) : Prop := ∃ t, o = .next t

theorem isNext_next (t : State) : IsNext (.next t) := ⟨t, rfl⟩

theorem isNext_ite {p : Prop} [Decidable p] {a b : Out} (ha : IsNext a) (hb : IsNext b) :
    IsNext (if p then a else b) := by
  split
  · exact ha
  · exact hb

/-- Whatever the command and the state, its meaning ends in a next state: most meanings are one, some choose between two,
and every branch of the others ends in one. -/
theorem exec_isNext (c : Instr) (s : State) : IsNext (exec c s) := by
  cases c
  any_goals exact isNext_next _
  any_goals (apply isNext_ite <;> exact isNext_next _)
  all_goals
    simp only [exec, execStepStartPoint, execGuardPollReply, execStepStart, execStepOverrun,
      execScalarInstruction, execVectorInstruction, execVectorConvert, execTensorInterlockRelease, execTileLoad,
      execTileStore, execFarLineLoad, execFarLineStore, execFarLineFill, execSeedWrite, execIllegalInstruction,
      execFlcGroupPowerOff, execFlcGroupReady, execEngineFailMask, execEngineFenceSignal, execReleaseComplete,
      execFenceSignalApply, execTransitSignal, execFencePageIn, execMeshForward, execMemoryBurst,
      execRtWindowClose, execModelLoadComplete, execRunArm, execRerunStart, execOutputRecordWrite,
      execMonitorFrameBoundary, execModelEngineLossRebind, execModelReloadComplete, execGeometryBatch,
      execBinWaitExpiry, execPartialRenderDone, execTileVisit, execPassComplete, execWaveStart, execWaveEnd,
      execDispatchComplete, execSpillEnd, execRestoreEnd, execCompressJobStart, execTsfBlockDone,
      execFixedRatioRowDone, execCompressJobEnd, execDoorbell, execRingEntryFetch, execBufferPrefetch,
      execHandleEntryFetch, execUnknownOpcode, execCopyChannelStart, execCopyComplete, execJobStart,
      execJobTimeout, execFlowRunTimeout, execFenceWaitTimeout, execTimeoutGraceExpiry, execMw2Read,
      execMw2Write, execRegisterWrite, execVfFlr, execPartResetDrained, execPartResetRelease, execMsixSend,
      execSerialWrite, execMailboxGo, execMailboxTake, execUnknownMessage, execPowerEntryStep,
      execWakeStepReady, execPllLock, execFoxgloveCheckDone, execBootRomStart, execFrameStartPacket,
      execFrameEndPacket, execCaptureSemAdd, execDisplayFrameBoundary, execHpdChange, execAuxReply,
      execTempSample, execCxResetEnd, execSelfTestEnd, execInternalUncorrectable, execAttestSigned,
      execPartDestroyDone, execOtherSlotCheck]
    repeat' split
    all_goals exact isNext_next _

theorem exec_pending {c : Instr} {s t : State} (h : exec c s = .next t) : t.pending = s.pending :=
  (exec_does c s t h).keeps.pending

theorem step_nil {s : State} (h : s.pending = []) : step s = .next s := by rw [step, h]

theorem step_cons {c : Instr} {r : List Instr} {s : State} (h : s.pending = c :: r) :
    step s = exec c { s with pending := r } := by rw [step, h]

/-- The invariant does not speak of the queue. -/
theorem Inv.withPending {s : State} (h : Inv s) (l : List Instr) : Inv { s with pending := l } :=
  ⟨h.hbm, h.tile, h.host, h.staging, h.flash, h.regs, h.recs, h.seq⟩

/-- Settles O4: an idle step changes nothing, and a command keeps the invariant as `exec_does` says. -/
theorem stepKeepsInvariant : Obligations.StepKeepsInvariant := by
  unfold Obligations.StepKeepsInvariant
  intro s t hs h
  cases hp : s.pending with
  | nil =>
    rw [step_nil hp] at h
    cases h
    exact hs
  | cons c r =>
    rw [step_cons hp] at h
    exact (exec_does c _ t h).keeps.inv (hs.withPending r)

/-- Settles O3, from `exec_isNext` and the queue that `exec_does` keeps. -/
theorem everyCommandAnswersANextState : Obligations.EveryCommandAnswersANextState := by
  unfold Obligations.EveryCommandAnswersANextState
  refine ⟨fun c s => ?_, fun s => ?_⟩
  · obtain ⟨t, h⟩ := exec_isNext c s
    exact ⟨t, h, exec_pending h⟩
  · cases hp : s.pending with
    | nil => exact ⟨s, step_nil hp, hp⟩
    | cons c r =>
      obtain ⟨t, h⟩ := exec_isNext c { s with pending := r }
      exact ⟨t, (step_cons hp).trans h, exec_pending h⟩

/-- Settles O1: the definition of a step. -/
theorem stepRunsTheFrontCommand : Obligations.StepRunsTheFrontCommand := by
  unfold Obligations.StepRunsTheFrontCommand
  exact fun c rest s => step_cons (s := { s with pending := c :: rest }) rfl

/-- Settles O2: the definition of a step. -/
theorem emptyQueueIdles : Obligations.EmptyQueueIdles := by
  unfold Obligations.EmptyQueueIdles
  exact fun s => step_nil

/-- Settles O5: the memories, the register file and the log are empty. -/
theorem resetMeetsInvariant : Obligations.ResetMeetsInvariant := by
  unfold Obligations.ResetMeetsInvariant
  constructor <;> decide

theorem rd_reset (off : Nat) : rd State.reset off = (resetWord off).toNat := rfl

/-- Settles O6: no register is stored, so each reads its table's word, which is evaluated where the statement names one. -/
theorem resetValues : Obligations.ResetValues := by
  unfold Obligations.ResetValues
  refine ⟨rd_reset, rfl, ?_⟩
  refine ⟨by decide, by decide, by decide, by decide, by decide, by decide, by decide, by decide, by decide, by decide,
    by decide, by decide, rfl, rfl, rfl, fun a => rfl, rfl, rfl⟩

end Sys2Proof.Machine

/-!
Blending in 12-bit arithmetic (R526, R527).
-/
namespace Sys2Proof.Machine

theorem mul12_nearest {a b : Nat} (ha : a ≤ 4095) (hb : b ≤ 4095) :
    2 * (a * b) ≤ 4095 * (2 * mul12 a b + 1) ∧ 4095 * (2 * mul12 a b) ≤ 2 * (a * b) + 4095 := by
  have h : a * b ≤ 4095 * 4095 := Nat.mul_le_mul ha hb
  unfold mul12
  omega

@[simp] theorem mul12_zero (a : Nat) : mul12 a 0 = 0 := by simp [mul12]

@[simp] theorem zero_mul12 (b : Nat) : mul12 0 b = 0 := by simp [mul12]

theorem mul12_full {a : Nat} (ha : a ≤ 4095) : mul12 a 4095 = a := by
  unfold mul12
  omega

/-- Mapping a function that keeps 0 over a list maps what is read past its end too. -/
theorem nth_map {f : Nat → Nat} (h : f 0 = 0) (l : List Nat) (k : Nat) : nth (l.map f) k = f (nth l k) := by
  unfold nth
  rw [List.getD_eq_getElem?_getD, List.getD_eq_getElem?_getD, List.getElem?_map]
  cases l[k]? with
  | none => exact h.symm
  | some x => rfl

theorem nth_blendOver (dst c : List Nat) (a : Nat) {k : Nat} (hk : k < 3) :
    nth (blendOver dst c a) k = min 4095 (nth c k + mul12 (nth dst k) (4095 - a)) := by
  unfold blendOver
  rw [nth, List.getD_eq_getElem?_getD, List.getElem?_map, List.getElem?_range hk]
  rfl

theorem nth_blendPx (dst px : List Nat) (alpha : Nat) (premult : Bool) {k : Nat} (hk : k < 3) :
    nth (blendPx dst px alpha premult) k = min 4095 ((if premult then mul12 (nth px k) alpha
      else mul12 (nth px k) (mul12 (nth px 3) alpha)) + mul12 (nth dst k) (4095 - mul12 (nth px 3) alpha)) := by
  unfold blendPx
  rw [nth_blendOver _ _ _ hk]
  cases premult <;> simp [nth_map]

/-- Settles O19. With an opaque source the weight of the result so far is 0, with a transparent one it is 4,095. -/
theorem mul12RoundsToNearest : Obligations.Mul12RoundsToNearest := by
  unfold Obligations.Mul12RoundsToNearest
  refine ⟨fun a b ha hb => mul12_nearest ha hb, fun a ha => ⟨mul12_zero a, mul12_full ha⟩, fun dst px alpha premult k hk => ?_⟩
  rw [nth_blendPx dst px alpha premult hk]
  refine ⟨Nat.min_le_left _ _, rfl, fun hp hd h3 => ?_, fun hk h3 ha => ?_⟩
  · simp [hp, h3, mul12_full hd, hd]
  · subst ha
    have hfull : mul12 4095 4095 = 4095 := by decide
    cases premult <;> simp [h3, hfull, mul12_full hk, hk]

end Sys2Proof.Machine

/-!
The line clock: reads that latch, source changes, ticks and pulses (R51 to R69, R85).
-/
namespace Sys2Proof.Machine

set_option Elab.async false

/-- A change of source leaves the frame and the line and decides the mode (R55). -/
theorem lcChange_lc (s : State) :
    (lcChange s).lc.src = rd s (lcBase + 0x08) ∧ (lcChange s).lc.srcDue = false ∧
    (lcChange s).lc.frame = s.lc.frame ∧ (lcChange s).lc.line = s.lc.line ∧
    (lcChange s).lc.mode = (if sameSource s.lc.src (rd s (lcBase + 0x08)) then s.lc.mode
      else if fld s (lcBase + 0x08) 0 2 = 3 then .locked else .acquiring) ∧ (lcChange s).now = s.now := by
  unfold lcChange fld
  dsimp only
  split
  · exact ⟨rfl, rfl, rfl, rfl, rfl, rfl⟩
  · split <;> exact ⟨rfl, rfl, rfl, rfl, rfl, rfl⟩

/-- What ends a frame's counts and the capture units' frames leaves the line clock alone. -/
theorem capBoundary_lc (s : State) : (capBoundary (lcFrameRecords s)).lc = s.lc :=
  (does_capBoundary (msk := maskOf [.regs, .log, .msix, .caps, .capFaults]) _
    (does_lcFrameRecords _ (Does.refl _ s))).only.lc rfl

/-- A frame edge raises the frame number, takes the line to 0 and notes its time (R48). -/
theorem lcFrameEdge_lc (s : State) (t : Nat) (first : Bool) :
    (lcFrameEdge s t first).lc.frame = (s.lc.frame + 1) % 2 ^ 32 ∧ (lcFrameEdge s t first).lc.line = 0 ∧
    (lcFrameEdge s t first).lc.edgeAt = t ∧ (lcFrameEdge s t first).lc.mode = s.lc.mode := by
  have hlc := capBoundary_lc s
  unfold lcFrameEdge
  dsimp only
  rw [hlc]
  split <;> exact ⟨rfl, rfl, rfl, rfl⟩

/-- An accepted edge begins a frame and leaves the mode (R63, R64). -/
theorem lcAccept_lc (s : State) (t : Nat) :
    (lcAccept s t).lc.frame = (s.lc.frame + 1) % 2 ^ 32 ∧ (lcAccept s t).lc.line = 0 ∧
    (lcAccept s t).lc.edgeAt = t ∧ (lcAccept s t).lc.mode = s.lc.mode := by
  unfold lcAccept
  dsimp only
  split <;> exact lcFrameEdge_lc _ t false

theorem lcLossDue_early {s : State} {r t : Nat} (hr : s.lc.refAt = some r) (h : t < r + lcFmax s) :
    lcLossDue s t = false := by
  unfold lcLossDue
  rw [hr]
  have hble : Nat.ble (r + lcFmax s) t = false := Bool.eq_false_iff.mpr fun hb => absurd (Nat.le_of_ble_eq_true hb) (by omega)
  simp only [hble, Bool.and_false]

/-- While LOCKED, an edge inside the window of its reference is accepted (R61 to R63). -/
theorem lcJudge_accepts {s : State} {r t : Nat} (hr : s.lc.refAt = some r) (hm : s.lc.mode = .locked)
    (hmax : t < r + lcFmax s) (hmin : lcFmin s ≤ t - r) : lcJudge s t = lcAccept (atWake s t) t := by
  have hr' : (atWake s t).lc.refAt = some r := hr
  have hm' : (atWake s t).lc.mode = .locked := hm
  have hmin' : ¬ t - r < lcFmin (atWake s t) := Nat.not_lt.mpr hmin
  unfold lcJudge
  simp only [hr, lcLossDue_early hr hmax, Bool.false_eq_true, if_false, hr', if_neg hmin', hm', if_true]

theorem lcAccept_now (s : State) (t : Nat) : (lcAccept s t).now = s.now :=
  (does_lcAccept (msk := maskOf [.regs, .log, .lc, .msix, .caps, .capFaults]) _ _ (Does.refl _ s)).only.now rfl

/-- Settles O8, clause by clause: each event evaluates to its next state, of which the clause is read off. -/
theorem lineClockReadsAndTicks : Obligations.LineClockReadsAndTicks := by
  unfold Obligations.LineClockReadsAndTicks
  refine ⟨fun s n => ?_, fun s => ?_, fun s hp hd => ?_, fun s hp hk => ?_, fun s n len hp hk hl => ?_,
    fun s n len r hp hk hl hr hm hmax hmin => ?_, fun s ha hl => ?_⟩
  · exact completes_out rfl (does_execLcNowLoRead n s (Does.refl _ s))
      ⟨rfl, rfl, rfl, rd_wr_self _ _ _, wr_regsBut _ _ _⟩
  · exact completes_out rfl (does_execLcEdgeLoRead s (Does.refl _ s)) ⟨rfl, rfl, rd_wr_self _ _ _, wr_regsBut _ _ _⟩
  · have hexec : exec .lcSourceChange s = .next (lcChange (atWake s (wake s + 1))) :=
      congrArg Host.Outcome.next (if_pos (by rw [hp, hd]; rfl))
    obtain ⟨hsrc, hdue, hframe, hline, hmode, hnow⟩ := lcChange_lc (atWake s (wake s + 1))
    exact completes_out hexec (does_execLcSourceChange s (Does.refl _ s)) ⟨hnow, hsrc, hdue, hframe, hline, hmode⟩
  · have hticks : (s.lc.powered && !(lcKind s == 1 && decide (s.lc.mode = .locked))) = true := by
      rcases hk with h | h <;> simp [hp, h]
    have hexec : exec .lineTick s = .next (lcTick s (s.lc.tickAt + s.lc.lperiod)) :=
      congrArg Host.Outcome.next (if_pos hticks)
    exact completes_out hexec (does_execLineTick s (Does.refl _ s)) ⟨rfl, rfl⟩
  · have hsel : (s.lc.powered && lcKind s == 0) = true := by simp [hp, hk]
    exact completes_of (congrArg Host.Outcome.next ((if_pos hsel).trans (if_pos hl)))
      ((does_bump _ lcGlitchOff 1 (does_atWake s n (Does.refl _ s))).updLc rfl)
      ⟨rfl, rfl, rfl, rfl, rfl, rd_wr_self _ _ _, wr_regsBut _ _ _⟩
  · have hsel : (s.lc.powered && lcKind s == 0) = true := by simp [hp, hk]
    have hexec : exec (.frameSyncPulse n len) s = .next (lcAccept (atWake s n) n) :=
      congrArg Host.Outcome.next
        ((if_pos hsel).trans ((if_neg (Nat.not_lt.mpr hl)).trans (lcJudge_accepts hr hm hmax hmin)))
    obtain ⟨hframe, hline, hedge, hmode⟩ := lcAccept_lc (atWake s n) n
    exact completes_out hexec (does_execFrameSyncPulse n len s (Does.refl _ s))
      ⟨lcAccept_now _ _, hframe, hline, hedge, hmode.trans hm⟩
  · have hexec : exec .fsoPulseEnd s = .next { s with lc := { s.lc with fsoActive := false } } :=
      congrArg Host.Outcome.next (if_pos (by simp [ha, hl]))
    exact completes_out hexec (does_execFsoPulseEnd s (Does.refl _ s)) rfl

end Sys2Proof.Machine

/-!
Step tables and the sequencers that run them (R71 to R84).
-/
namespace Sys2Proof.Machine

set_option Elab.async false

@[simp] theorem eng_updSeq_self (s : State) (e : Nat) (f : Seq → Seq) :
    eng (updSeq s e f) e = { eng s e with seq := f (eng s e).seq } := eng_setEng_self _ _ _

theorem eng_updSeq_other (s : State) {e k : Nat} (h : k ≠ e) (f : Seq → Seq) : eng (updSeq s e f) k = eng s k :=
  (eng_setEng _ _ _ _).trans (if_neg h)

/-- The words of a step lie in tile memory, at a place that the sequencer's plan and pointer give. -/
theorem nextWords_congr {s t : State} {e : Nat} (ht : t.tile = s.tile) (hplan : (eng t e).seq.plan = (eng s e).seq.plan)
    (hptr : (eng t e).seq.ptr = (eng s e).seq.ptr) : nextWords t e = nextWords s e := by
  unfold nextWords stepWords
  rw [ht, hplan, hptr]

theorem eng_firstPoll_self (s : State) (e : Nat) : eng (firstPoll s e) e =
    { eng s e with seq := { (eng s e).seq with
        poll := if bit (nth (nextWords s e) 2) 0 then some (aclk s) else none
        replied := false
        met := if bit (nth (nextWords s e) 2) 0 then none else some (aclk s) } } := eng_updSeq_self _ _ _

theorem eng_firstPoll_other (s : State) {e k : Nat} (h : k ≠ e) : eng (firstPoll s e) k = eng s k :=
  eng_updSeq_other s h _

/-! ### Start points and guards (R76) -/

/-- Engine `e` has noted the start point of step `i` in the present cycle (R76). -/
def stepSeen (s : State) (e i : Nat) : State := updSeq s e fun q => { q with seen := (i, aclk s) :: q.seen }

theorem exec_stepStartPoint {s : State} {e : Eng} {i : Fin 4096} {c : Nat} (harmed : (eng s e).seq.armed = true)
    (hframe : (eng s e).seq.frame.isSome = true) (hptr : (eng s e).seq.ptr ≤ i) (hi : i < (eng s e).seq.plan.count)
    (hseen : tabFind i.val (eng s e).seq.seen = none)
    (hreach : startReached (atAclk s c) (stepWords s e (eng s e).seq.plan.table i) = true) :
    exec (.stepStartPoint e i c) s = .next (if (eng s e).seq.ptr = i then firstPoll (stepSeen (atAclk s c) e i) e
      else stepSeen (atAclk s c) e i) := by
  have hsees : (eng s e).seq.armed = true ∧ (eng s e).seq.frame.isSome = true ∧ (eng s e).seq.ptr ≤ i ∧
      i < (eng s e).seq.plan.count ∧ (tabFind i.val (eng s e).seq.seen).isNone = true ∧
      startReached (atAclk s c) (stepWords s e (eng s e).seq.plan.table i) = true :=
    ⟨harmed, hframe, hptr, hi, by rw [hseen]; rfl, hreach⟩
  exact (if_pos hsees).trans (apply_ite Host.Outcome.next _ _ _).symm

/-- A reply that finds the guard unmet: the first one counts a late step, and the tester polls again (R76). -/
def guardUnmet (s : State) (e : Nat) : State :=
  if (eng s e).seq.replied then updSeq s e fun q => { q with poll := some (aclk s) }
  else
    let t := bump s (lcBase + 0x100 + 0x10 * e)
    updSeq t e fun q => { q with poll := some (aclk t), replied := true, late := q.late + 1,
                                 lateStamp := if q.late = 0 then stamp t else q.lateStamp }

theorem guardUnmet_eng (s : State) (e : Nat) :
    (eng (guardUnmet s e) e).seq.poll = some (aclk s) ∧ (eng (guardUnmet s e) e).seq.met = (eng s e).seq.met ∧
    aclk (guardUnmet s e) = aclk s ∧ ∀ k, k ≠ e → eng (guardUnmet s e) k = eng s k := by
  unfold guardUnmet
  split
  · rw [eng_updSeq_self]
    exact ⟨rfl, rfl, rfl, fun k hk => eng_updSeq_other _ hk _⟩
  · dsimp only
    rw [eng_updSeq_self]
    exact ⟨rfl, rfl, rfl, fun k hk => eng_updSeq_other _ hk _⟩

theorem guardUnmet_regs (s : State) (e : Nat) :
    rd (guardUnmet s e) (lcBase + 0x100 + 0x10 * e) = (if (eng s e).seq.replied then rd s (lcBase + 0x100 + 0x10 * e)
      else (rd s (lcBase + 0x100 + 0x10 * e) + 1) % 2 ^ 32) ∧
    RegsBut [lcBase + 0x100 + 0x10 * e] s (guardUnmet s e) := by
  unfold guardUnmet
  split
  · exact ⟨rfl, fun _ _ => rfl⟩
  · exact ⟨rd_wr_self _ _ _, bump_regsBut _ _ _⟩

/-- A guard poll's reply that has arrived decides by what the poll read (R76). -/
theorem exec_guardPollReply {s : State} {e : Eng} {c p sem : Nat} (hpoll : (eng s e).seq.poll = some p)
    (hsem : guardSem s e (nextWords s e) = some sem) (hl : p + semLat s e sem ≤ aclk (atAclk s c)) :
    exec (.guardPollReply e c) s =
      .next (if nth (nextWords s e) 4 ≤ pollRead (atAclk s c) sem (semLat s e sem) then
          updSeq (atAclk s c) e fun q => { q with poll := none, replied := true, met := some (aclk (atAclk s c)) }
        else guardUnmet (atAclk s c) e) := by
  show execGuardPollReply e c s = _
  unfold execGuardPollReply guardUnmet
  have hpoll' : (eng (atAclk s c) e).seq.poll = some p := hpoll
  have hsem' : guardSem (atAclk s c) e (nextWords (atAclk s c) e) = some sem := hsem
  have harrived : ¬ aclk (atAclk s c) < p + semLat (atAclk s c) e sem := Nat.not_lt.mpr hl
  simp only [hpoll', hsem', if_neg harrived, apply_ite Host.Outcome.next]
  rfl

/-- The sequencer after a step has run past MAX_CYC (R79). -/
def stepOverran (s : State) (e : Nat) (r : RunStep) : State :=
  let t := bump s (lcBase + 0x108 + 0x10 * e)
  updSeq t e fun q => { q with cur := some { r with overran := true }, overs := q.overs + 1,
                               overStamp := if q.overs = 0 then stamp t else q.overStamp }

/-! ### Starts and ends of steps (R77, R78, R82) -/

/-- A step that starts moves the pointer on, is the running step and has a wave (R77). -/
theorem startStep_eng (s : State) (e : Nat) :
    (eng (startStep s e) e).seq.ptr = (eng s e).seq.ptr + 1 ∧
    ((eng (startStep s e) e).seq.cur.map fun r => (r.index, r.start, r.words)) =
      some ((eng s e).seq.ptr, aclk s, nextWords s e) ∧
    (eng (startStep s e) e).waves.length = (eng s e).waves.length + 1 ∧
    ∀ k, k ≠ e → eng (startStep s e) k = eng s k := by
  have hother : ∀ x k, k ≠ e → eng (setEng (reseed (flcAcquire s e) e (eng s e).seq.ptr) e x) k = eng s k := by
    intro x k hk
    simp only [reseed, flcAcquire, eng_setEng, if_neg hk]
  have hwaves : (eng (reseed (flcAcquire s e) e (eng s e).seq.ptr) e).waves = (eng s e).waves := by
    simp only [reseed, flcAcquire, eng_setEng_self]
  unfold startStep
  dsimp only
  split
  · refine ⟨?_, ?_, ?_, fun k hk => (eng_firstPoll_other _ hk).trans (hother _ k hk)⟩
    · rw [eng_firstPoll_self, eng_setEng_self]
    · rw [eng_firstPoll_self, eng_setEng_self]; rfl
    · rw [eng_firstPoll_self, eng_setEng_self, List.length_append, hwaves]; rfl
  · refine ⟨?_, ?_, ?_, fun k hk => hother _ k hk⟩
    · rw [eng_setEng_self]
    · rw [eng_setEng_self]; rfl
    · rw [eng_setEng_self, List.length_append, hwaves]; rfl

/-- The sequencers of `t` have the running step and the last end of those of `s`. -/
def SameSteps (s t : State) : Prop :=
  ∀ k, (eng t k).seq.cur = (eng s k).seq.cur ∧ (eng t k).seq.lastEnd = (eng s k).seq.lastEnd

theorem SameSteps.trans {s t u : State} (h : SameSteps s t) (g : SameSteps t u) : SameSteps s u :=
  fun k => ⟨(g k).1.trans (h k).1, (g k).2.trans (h k).2⟩

theorem SameSteps.of_does {m : Nat} {s t : State} (d : Does m s t) (h : m.testBit 18 = false) : SameSteps s t :=
  fun k => by rw [eng_congr (d.only.engines h)]; exact ⟨rfl, rfl⟩

theorem SameSteps.updSeq (s : State) (e : Nat) {f : Seq → Seq} (hcur : (f (eng s e).seq).cur = (eng s e).seq.cur)
    (hend : (f (eng s e).seq).lastEnd = (eng s e).seq.lastEnd) : SameSteps s (updSeq s e f) := by
  intro k
  by_cases hk : k = e
  · subst hk
    rw [eng_updSeq_self]
    exact ⟨hcur, hend⟩
  · rw [eng_updSeq_other s hk]
    exact ⟨rfl, rfl⟩

theorem sendStops_sameSteps (sw : Bool) (l : List Nat) (s : State) : SameSteps s (sendStops s sw l) := by
  induction l generalizing s with
  | nil => exact fun _ => ⟨rfl, rfl⟩
  | cons e es ih => exact (SameSteps.updSeq s e (by split <;> rfl) (by split <;> rfl)).trans (ih _)

theorem planNone_sameSteps (l : List Nat) (s : State) : SameSteps s (planNone s l) := by
  induction l generalizing s with
  | nil => exact fun _ => ⟨rfl, rfl⟩
  | cons e es ih => exact (SameSteps.updSeq s e rfl rfl).trans (ih _)

/-- The mask of what judging changes beside the engines. -/
def judgeMask : Nat := maskOf [.fresh, .regs, .log, .msix, .queues, .jobs, .model]

theorem missFull_sameSteps (s : State) (m : Model) (id : Nat) : SameSteps s (missFull s m id) := by
  unfold missFull
  dsimp only
  split
  · exact SameSteps.of_does (m := judgeMask) (does_logMissed _ (does_updFrame _ _ (Does.refl _ s))) rfl
  · exact (SameSteps.of_does (m := judgeMask) (does_updFrame _ _ (does_logFullMissed _ (does_setVariant _ _
      (does_updFrame _ _ (Does.refl _ s))))) rfl).trans (sendStops_sameSteps _ _ _)

theorem judgeOne_sameSteps (s : State) (m : Model) (c : Ckpt) : SameSteps s (judgeOne s m c) := by
  have hjudged (f : RunFrame → RunFrame) : SameSteps s (updFrame s f) :=
    SameSteps.of_does (m := judgeMask) (does_updFrame _ _ (Does.refl _ s)) rfl
  unfold judgeOne
  split
  · exact fun _ => ⟨rfl, rfl⟩
  · split
    · exact fun _ => ⟨rfl, rfl⟩
    · split
      · dsimp only
        split
        · exact (hjudged _).trans (missFull_sameSteps _ _ _)
        · exact (hjudged _).trans (SameSteps.of_does (m := judgeMask) (does_logMissed _ (Does.refl _ _)) rfl)
      · split
        · exact SameSteps.of_does (m := judgeMask) (does_updFrame _ _ (does_ckptSlack _ _ _ (Does.refl _ s))) rfl
        · exact fun _ => ⟨rfl, rfl⟩

theorem judgeAll_sameSteps (m : Model) (l : List Ckpt) (s : State) : SameSteps s (judgeAll s m l) := by
  induction l generalizing s with
  | nil => exact fun _ => ⟨rfl, rfl⟩
  | cons c cs ih => exact (judgeOne_sameSteps s m c).trans (ih _)

theorem judgeNow_sameSteps (s : State) : SameSteps s (judgeNow s) := by
  unfold judgeNow
  split
  · exact fun _ => ⟨rfl, rfl⟩
  · exact (judgeAll_sameSteps _ _ _).trans
      (SameSteps.of_does (m := judgeMask) (does_recordIfJudged _ (Does.refl _ _)) rfl)

theorem endRun_sameSteps (s : State) (code : Nat) : SameSteps s (endRun s code) := by
  unfold endRun
  split
  · exact (planNone_sameSteps _ _).trans (SameSteps.of_does (m := judgeMask) (does_endJobs _ _ (does_endJob _ _ _
      (does_updModel _ _ (Does.refl _ _)))) rfl)
  · exact fun _ => ⟨rfl, rfl⟩

theorem settleRun_sameSteps (s : State) : SameSteps s (settleRun s) := by
  unfold settleRun
  split
  · split
    · split
      · exact (SameSteps.of_does (m := judgeMask) (does_jobRecord _ _ _ _ _ _ (Does.refl _ s)) rfl).trans
          (endRun_sameSteps _ _)
      · exact fun _ => ⟨rfl, rfl⟩
    · exact fun _ => ⟨rfl, rfl⟩
  · exact fun _ => ⟨rfl, rfl⟩

/-- A step that ends leaves its engine without one (R82). -/
theorem seqEnd_seq {s : State} {e : Nat} (h : (eng s e).seq.cur.isSome = true) (failed : Bool) :
    (eng (seqEnd s e failed) e).seq.cur = none ∧ (eng (seqEnd s e failed) e).seq.lastEnd = aclk s := by
  obtain ⟨r, hr⟩ := Option.isSome_iff_exists.mp h
  unfold seqEnd
  dsimp only
  rw [hr]
  dsimp only
  rw [eng_setEng_self]
  exact ⟨rfl, rfl⟩

/-- Judging and the end of a run take no time. -/
theorem settleRun_judgeNow_aclk (s : State) :
    aclk (settleRun (judgeNow s)) = aclk s ∧ (settleRun (judgeNow s)).now = s.now := by
  have hdoes : Does (maskOf [.fresh, .regs, .log, .msix, .engines, .queues, .jobs, .model]) s (settleRun (judgeNow s)) :=
    does_settleRun _ (does_judgeNow _ (Does.refl _ s))
  exact ⟨ownAclk hdoes rfl rfl rfl rfl, hdoes.only.now rfl⟩

/-! ### Frame boundaries (R80, R81) -/

/-- The entries of a frame that no step was started for (R80). -/
def stepsSkipped (s : State) (e : Nat) : Nat :=
  if (eng s e).seq.armed ∧ (eng s e).seq.frame.isSome then (eng s e).seq.plan.count - (eng s e).seq.ptr else 0

/-- The registers after a frame boundary: SKIP counts, and DELAY_MAX is set for a frame that ran. -/
def boundaryRegs (s : State) (e : Nat) : State :=
  let t := bump (seqRecords s e ((eng s e).seq.frame.getD 0) (stepsSkipped s e)) (lcBase + 0x10C + 0x10 * e) (stepsSkipped s e)
  if (eng s e).seq.frame.isSome then wr t (lcBase + 0x104 + 0x10 * e) (min (eng s e).seq.delayMax (2 ^ 32 - 1)) else t

theorem boundaryRegs_does (s : State) (e : Nat) : Does (maskOf [.regs, .log, .msix]) s (boundaryRegs s e) := by
  unfold boundaryRegs
  dsimp only
  split
  · exact does_wr _ _ _ (does_bump _ _ _ (does_seqRecords _ _ _ _ (Does.refl _ s)))
  · exact does_bump _ _ _ (does_seqRecords _ _ _ _ (Does.refl _ s))

theorem seqRecords_rd (s : State) (e f skipped o : Nat) : rd (seqRecords s e f skipped) o = rd s o :=
  rd_congr ((does_seqRecords (msk := maskOf [.log, .msix]) _ _ _ _ (Does.refl _ s)).only.regs rfl) o

theorem boundaryRegs_rd (s : State) (e : Nat) :
    rd (boundaryRegs s e) (lcBase + 0x10C + 0x10 * e) = (rd s (lcBase + 0x10C + 0x10 * e) + stepsSkipped s e) % 2 ^ 32 ∧
    RegsBut [lcBase + 0x104 + 0x10 * e, lcBase + 0x10C + 0x10 * e] s (boundaryRegs s e) := by
  have hne : lcBase + 0x10C + 0x10 * e ≠ lcBase + 0x104 + 0x10 * e := by omega
  unfold boundaryRegs
  dsimp only
  refine ⟨?_, fun o ho => ?_⟩
  · split
    · rw [rd_wr_other _ hne, bump, rd_wr_self, seqRecords_rd]
    · rw [bump, rd_wr_self, seqRecords_rd]
  · simp only [List.mem_cons, List.not_mem_nil, or_false, not_or] at ho
    obtain ⟨hdelay, hskip⟩ := ho
    split
    · rw [rd_wr_other _ hdelay, bump, rd_wr_other _ hskip, seqRecords_rd]
    · rw [bump, rd_wr_other _ hskip, seqRecords_rd]

/-- The sequencer after a frame boundary: it runs what it had planned from entry 0 (R80). -/
def Seq.boundary (q : Seq) (frame : Nat) : Seq :=
  { q with armed := q.next.isSome, plan := q.next.getD q.plan, frame := if q.next.isSome then some frame else none,
           ptr := 0, seen := [], poll := none, replied := false, met := none, delayMax := 0, late := 0, overs := 0,
           stopSent := q.stopSent && q.next.isNone, stopAsked := false,
           ended := q.ended.filter fun x => x.1 == frame,
           failedSteps := q.failedSteps.filter fun x => x.1 == frame }

theorem exec_stepFrameBoundary {s : State} {e : Eng} (hmon : s.monFrame = s.lc.frame)
    (hframe : (eng s e).seq.frame ≠ some s.lc.frame)
    (hruns : (eng s e).seq.armed = true ∨ (eng s e).seq.next ≠ none) :
    exec (.stepFrameBoundary e) s = .next (updSeq (boundaryRegs s e) e fun q => q.boundary (boundaryRegs s e).lc.frame) := by
  have hacts : ¬ (s.monFrame ≠ s.lc.frame ∨ (eng s e).seq.frame = some s.lc.frame ∨
      ((!(eng s e).seq.armed) = true ∧ (eng s e).seq.next = none)) := by
    rintro (h | h | ⟨ha, hn⟩)
    · exact h hmon
    · exact hframe h
    · rcases hruns with h | h
      · simp [h] at ha
      · exact h hn
  exact if_neg hacts

theorem rd_updSeq (s : State) (e : Nat) (f : Seq → Seq) (o : Nat) : rd (updSeq s e f) o = rd s o := rfl

/-- Settles O9, clause by clause from the `exec_` equation of each sequencer event. -/
theorem stepTableSequencing : Obligations.StepTableSequencing := by
  unfold Obligations.StepTableSequencing
  refine ⟨fun s e i c harmed hframe hptr hi hseen hreach => ?_, fun s e c p sem hpoll hsem hl => ?_,
    fun s e c m hmet hcur harmed hptr hm hend => ?_, fun s e c r hcur hover hmax => ?_, fun s e c hcur => ?_,
    fun s e hmon hframe hruns => ?_⟩
  · have hexec := exec_stepStartPoint (c := c) harmed hframe hptr hi hseen hreach
    have hother (k : Nat) (hk : k ≠ e.val) : eng (stepSeen (atAclk s c) e i) k = eng s k := eng_updSeq_other _ hk _
    have hnext : nextWords (stepSeen (atAclk s c) e i) e = nextWords s e :=
      nextWords_congr rfl (by rw [stepSeen, eng_updSeq_self]; rfl) (by rw [stepSeen, eng_updSeq_self]; rfl)
    by_cases heq : (eng s e).seq.ptr = i
    · rw [if_pos heq] at hexec
      refine completes_out hexec (does_execStepStartPoint e i c s (Does.refl _ s)) ?_
      rw [eng_firstPoll_self, hnext, stepSeen, eng_updSeq_self]
      exact ⟨rfl, rfl, rfl, rfl, fun _ => rfl, fun h => absurd heq h,
        fun k hk => (eng_firstPoll_other _ hk).trans (hother k hk)⟩
    · rw [if_neg heq] at hexec
      refine completes_out hexec (does_execStepStartPoint e i c s (Does.refl _ s)) ?_
      rw [stepSeen, eng_updSeq_self]
      exact ⟨rfl, rfl, rfl, rfl, fun h => absurd h heq, fun _ => rfl, hother⟩
  · refine completes_out (exec_guardPollReply hpoll hsem hl) (does_execGuardPollReply e c s (Does.refl _ s)) ?_
    by_cases hmet : nth (nextWords s e) 4 ≤ pollRead (atAclk s c) sem (semLat s e sem)
    · rw [if_pos hmet, eng_updSeq_self]
      exact ⟨fun _ => ⟨rfl, rfl, fun _ _ => rfl⟩, fun h => absurd hmet h, fun _ _ => rfl,
        fun k hk => eng_updSeq_other _ hk _⟩
    · rw [if_neg hmet]
      obtain ⟨hp, hm, hc, ho⟩ := guardUnmet_eng (atAclk s c) e
      obtain ⟨hcount, hregs⟩ := guardUnmet_regs (atAclk s c) e
      exact ⟨fun h => absurd h hmet, fun _ => ⟨hp.trans (congrArg some hc.symm), hm, hcount⟩, hregs, ho⟩
  · have hcan : (eng s e).seq.armed = true ∧ (eng s e).seq.ptr < (eng s e).seq.plan.count ∧ m < aclk (atAclk s c) ∧
        (eng s e).seq.lastEnd < aclk (atAclk s c) := ⟨harmed, hptr, hm, hend⟩
    have hexec : exec (.stepStart e c) s = .next (startStep (atAclk s c) e) := by
      show execStepStart e c s = _
      unfold execStepStart
      have hmet' : (eng (atAclk s c) e).seq.met = some m := hmet
      have hcur' : (eng (atAclk s c) e).seq.cur = none := hcur
      simp only [hmet', hcur']
      exact if_pos hcan
    obtain ⟨hp, hc, hw, ho⟩ := startStep_eng (atAclk s c) e
    have haclk : aclk (startStep (atAclk s c) e) = aclk (atAclk s c) :=
      ownAclk (does_startStep (msk := maskOf [.engines]) _ _ (Does.refl _ _)) rfl rfl rfl rfl
    exact completes_out hexec (does_execStepStart e c s (Does.refl _ s)) ⟨hp, by rw [hc, haclk]; rfl, hw, ho⟩
  · have hpast : ¬ (r.overran = true ∨ aclk (atAclk s c) < r.start + max 1 (bits (nth r.words 1) 0 24)) := by
      simp only [hover, Bool.false_eq_true, false_or]
      exact Nat.not_lt.mpr hmax
    have hexec : exec (.stepOverrun e c) s = .next (stepOverran (atAclk s c) e r) := by
      show execStepOverrun e c s = _
      unfold execStepOverrun
      have hcur' : (eng (atAclk s c) e).seq.cur = some r := hcur
      simp only [hcur']
      exact if_neg hpast
    refine completes_out hexec (does_execStepOverrun e c s (Does.refl _ s)) ?_
    rw [stepOverran, eng_updSeq_self]
    exact ⟨rfl, rfl, rd_wr_self _ _ _, bump_regsBut _ _ _, fun k hk => eng_updSeq_other _ hk _⟩
  · have hexec : exec (.stepEnd e c) s = .next (settleRun (judgeNow (seqEnd (atAclk s c) e false))) := if_pos hcur
    have hsame := (judgeNow_sameSteps (seqEnd (atAclk s c) e false)).trans (settleRun_sameSteps _) e
    have hclock := settleRun_judgeNow_aclk (seqEnd (atAclk s c) e false)
    have hseq : Does (maskOf [.engines]) (atAclk s c) (seqEnd (atAclk s c) e false) := does_seqEnd _ _ _ (Does.refl _ _)
    obtain ⟨hnone, hend⟩ := seqEnd_seq (s := atAclk s c) hcur false
    exact completes_out hexec (does_execStepEnd e c s (Does.refl _ s))
      ⟨hclock.2.trans (hseq.only.now rfl), hsame.1.trans hnone,
        hsame.2.trans (hend.trans ((hclock.1.trans (ownAclk hseq rfl rfl rfl rfl)).symm))⟩
  · have hexec := exec_stepFrameBoundary hmon hframe hruns
    have hkept := eng_congr ((boundaryRegs_does s e).only.engines rfl)
    obtain ⟨hskip, hregs⟩ := boundaryRegs_rd s e
    refine completes_out hexec (does_execStepFrameBoundary e s (Does.refl _ s)) ?_
    rw [eng_updSeq_self, hkept]
    exact ⟨rfl, rfl, rfl, rfl, rfl, rfl, hskip, hregs, fun k hk => (eng_updSeq_other _ hk _).trans (hkept k)⟩

end Sys2Proof.Machine

/-!
Scalar, vector and convert instructions, and the registers that instructions write (R88, R92, R93, R117, R118, R131, R140).
-/
namespace Sys2Proof.Machine

set_option Elab.async false

theorem eng_setWave_other (s : State) {e k : Nat} (h : k ≠ e) (w : Nat) (x : Wave) : eng (setWave s e w x) k = eng s k :=
  (eng_setEng _ _ _ _).trans (if_neg h)

theorem vreg_setWave (s : State) (e w : Nat) (x : Wave) : (eng (setWave s e w x) e).vreg = (eng s e).vreg := by
  rw [setWave, eng_setEng_self]

/-! ### Scalar instructions (R88) -/

/-- A wave after a scalar instruction: its next place, its mask and one scalar register (R88). -/
def Wave.scalar (x : Wave) (g : Option (Fin 32)) (v : Word) (mask : Option (BitVec 512)) (pc : Nat) : Wave :=
  { x with pc := pc % 2 ^ 22 / 4 * 4, mask := (mask.map (·.toNat)).getD x.mask,
           g := (g.map fun r => tabPut (fun _ => 0#32) r.val v x.g).getD x.g }

theorem exec_scalarInstruction {s : State} {e : Eng} {w : Fin 8} {c : Nat} {x : Wave}
    (h : issuing (atAclk s c) e w = some x) (g : Option (Fin 32)) (v : Word) (mask : Option (BitVec 512)) (pc : Nat) :
    exec (.scalarInstruction e w g v mask pc c) s = .next (setWave (atAclk s c) e w (x.scalar g v mask pc)) := by
  show execScalarInstruction e w g v mask pc c s = _
  unfold execScalarInstruction Wave.scalar
  simp only [h]
  cases g <;> rfl

theorem scalar_g (x : Wave) (g : Option (Fin 32)) (v : Word) (mask : Option (BitVec 512)) (pc : Nat) (r : Fin 32) :
    tabGet (fun _ => 0#32) r (x.scalar g v mask pc).g = if g = some r then v else tabGet (fun _ => 0#32) r x.g := by
  unfold Wave.scalar
  cases g with
  | none => simp
  | some i =>
    rw [Option.map_some, Option.getD_some, tabGet_put]
    simp only [Option.some.injEq, Fin.ext_iff, eq_comm]

/-! ### Vector instructions (R93) -/

/-- Writing the elements that a function gives leaves them in the register. -/
theorem vput_map_find {s : State} {e : Nat} {x : Wave} {v r : Nat} (hr : physReg x v = some r) (f : Nat → Word) (l : List Nat)
    (i : Nat) : tabFind (r * 512 + i) (eng (vput s e x v (l.map fun i => (i, f i))) e).vreg =
      if i ∈ l then some (f i) else tabFind (r * 512 + i) (eng s e).vreg := by
  rw [vput_find s e x v _ r hr, List.map_map]
  have helem := tabFind_elements r f l i
  simp only [Function.comp_def, helem]
  split <;> simp

/-- Every other element keeps what it holds. -/
theorem vput_map_other {s : State} {e : Nat} {x : Wave} {v r : Nat} (hr : physReg x v = some r) (f : Nat → Word)
    (l : List Nat) {k : Nat} (hk : ∀ i ∈ l, k ≠ r * 512 + i) :
    tabFind k (eng (vput s e x v (l.map fun i => (i, f i))) e).vreg = tabFind k (eng s e).vreg := by
  rw [vput_find s e x v _ r hr, tabFind_none k _ ?_, Option.none_or]
  simp only [List.map_map, List.mem_map, Function.comp_def]
  rintro y ⟨i, hi, rfl⟩
  exact (hk i hi).symm

theorem vput_waves (s : State) (e : Nat) (x : Wave) (v : Nat) (ws : List (Nat × Word)) :
    (eng (vput s e x v ws) e).waves = (eng s e).waves ∧ (eng (vput s e x v ws) e).gens = (eng s e).gens := by
  obtain ⟨-, vr, h⟩ := vput_frame s e x v ws
  rw [h]
  exact ⟨rfl, rfl⟩

/-- The active work-items of a wave (R93). -/
def Wave.active (x : Wave) : List Nat := (List.range 512).filter (bit x.mask)

theorem mem_active {x : Wave} {i : Nat} : i ∈ x.active ↔ i < 512 ∧ bit x.mask i = true := by
  rw [Wave.active, List.mem_filter, List.mem_range]

/-- The result of work-item `i` in a vector instruction. -/
def vecResult (n : Engine) (x : Wave) (op : VOp) (f : Fmt) (a b z i : Nat) : Word :=
  BitVec.ofNat 32 (vop f op (vget n x a i).toNat (vget n x b i).toNat (vget n x z i).toNat)

theorem exec_vectorInstruction {s : State} {e : Eng} {w : Fin 8} {c : Nat} {x : Wave}
    (h : issuing (atAclk s c) e w = some x) (op : VOp) (f : Fmt) (d a b z : Fin 128) :
    exec (.vectorInstruction e w op f d a b z c) s = .next (vput (atAclk s c) e x d
      (x.active.map fun i => (i, vecResult (eng s e) x op f a b z i))) := by
  show execVectorInstruction e w op f d a b z c s = _
  unfold execVectorInstruction
  simp only [h]
  rfl

/-! ### Conversions (R131, R140) -/

theorem map_mapIdx {α β γ : Type} (f : Nat → α → β) (g : β → γ) (l : List α) :
    (l.mapIdx f).map g = l.mapIdx fun i a => g (f i a) :=
  List.ext_getElem? fun i => by simp [Option.map_map, Function.comp_def]

/-- The elements that work-item `i` converts to, each with whether it overflowed (R140). -/
def convItem (n : Engine) (x : Wave) (sf tf : Fmt) (rnd : Rnd) (ieee : Bool) (scale a i : Nat) : List (Nat × Bool) :=
  (convSrc n x sf a i (max (perReg sf) (perReg tf))).mapIdx fun j p =>
    roundInto tf (scaled (decodeVal sf p) scale) rnd ieee
      (if decide (rnd = .stochastic ∧ tf ≠ .f19) then
        genDraw (genSkip (genOf n (i % 128)) (i / 128 * max (perReg sf) (perReg tf) + j + 1)) else 0)

/-- Word `r` of what work-item `i` converts to. -/
def convWord (n : Engine) (x : Wave) (sf tf : Fmt) (rnd : Rnd) (ieee : Bool) (scale a r i : Nat) : Word :=
  ((packElems tf ((convItem n x sf tf rnd ieee scale a i).map (·.1)))[r]?).getD 0#32

/-- Before a conversion writes its registers: AMAX is folded, overflows are counted and the draws are taken (R118, R119,
R139). -/
def convStart (s : State) (e : Nat) (x : Wave) (sf tf : Fmt) (rnd : Rnd) (ieee : Bool) (scale amax a : Nat) : State :=
  let k := max (perReg sf) (perReg tf)
  let t := countOvf (foldAmax s e amax (x.active.flatMap fun i => (convSrc (eng s e) x sf a i k).map (decodeVal sf))) e
    (((x.active.map fun i => (i, convItem (eng s e) x sf tf rnd ieee scale a i)).map
      fun o => (o.2.filter (·.2)).length).foldl (· + ·) 0)
  if decide (rnd = .stochastic ∧ tf ≠ .f19) then setEng t e (genAdvance (eng t e) 0 128 (4 * k)) else t

/-- A conversion's writes of its destination registers, in their order. -/
def convPut (s : State) (e : Nat) (x : Wave) (d : Nat) (ws : Nat → Nat → Word) (n : Nat) : State :=
  (List.range n).foldl (fun s r => vput s e x (d + r) (x.active.map fun i => (i, ws r i))) s

theorem exec_vectorConvert {s : State} {e : Eng} {w : Fin 8} {c : Nat} {x : Wave}
    (h : issuing (atAclk s c) e w = some x) (sf tf : Fmt) (rnd : Rnd) (ieee : Bool) (scale : Word) (amax : Fin 4)
    (d a : Fin 128) :
    exec (.vectorConvert e w sf tf rnd ieee scale amax d a c) s = .next
      (convPut (convStart (atAclk s c) e x sf tf rnd ieee scale.toNat amax a) e x d
        (convWord (eng s e) x sf tf rnd ieee scale.toNat a) (max (perReg sf) (perReg tf) / perReg tf)) := by
  show execVectorConvert e w sf tf rnd ieee scale amax d a c s = _
  unfold execVectorConvert
  simp only [h, convPut, convStart, convWord, convItem, Wave.active, List.map_map, Function.comp_def]
  rfl

theorem foldAmax_regsBut (s : State) (e i : Nat) (xs : List Val) : RegsBut [engOff e (0x14 + 4 * i)] s (foldAmax s e i xs) :=
  fun o ho => (setFld_regsBut _ _ _ _ _ o ho).trans (setFld_regsBut _ _ _ _ _ o ho)

theorem countOvf_regsBut (s : State) (e k : Nat) : RegsBut [engOff e 0x24, engOff e 0x28] s (countOvf s e k) := by
  unfold countOvf
  split
  · exact fun _ _ => rfl
  · exact regsBut_app (setFld_regsBut s (engOff e 0x24) 0 1 1) (setFld_regsBut _ (engOff e 0x28) _ _ _)

theorem genAdvance_frame (n : Engine) (lo hi k : Nat) :
    (genAdvance n lo hi k).waves = n.waves ∧ (genAdvance n lo hi k).vreg = n.vreg := ⟨rfl, rfl⟩

theorem genOf_genAdvance (n : Engine) {i : Nat} (hi : i < 128) (k : Nat) :
    genOf (genAdvance n 0 128 k) i = genSkip (genOf n i) k := by
  have hfind := tabFind_mapRange 0 192 i
    (fun i => if 0 ≤ i ∧ i < 128 then genSkip (genOf n i) k else genOf n i) (by omega)
  simp only [Nat.zero_add] at hfind
  rw [genOf, genAdvance]
  dsimp only
  rw [hfind, if_pos ⟨Nat.zero_le i, hi⟩]
  rfl

/-- What precedes a conversion's writes leaves waves and vector registers. -/
theorem convStart_facts (s : State) (e : Nat) (x : Wave) (sf tf : Fmt) (rnd : Rnd) (ieee : Bool) (scale amax a : Nat) :
    let t := convStart s e x sf tf rnd ieee scale amax a
    t.now = s.now ∧ (eng t e).waves = (eng s e).waves ∧ (eng t e).vreg = (eng s e).vreg ∧ (∀ k, k ≠ e → eng t k = eng s k) ∧
    RegsBut [engOff e (0x14 + 4 * amax), engOff e 0x24, engOff e 0x28] s t ∧
    (∀ i, i < 128 → rnd = .stochastic → tf ≠ .f19 →
      genOf (eng t e) i = genSkip (genOf (eng s e) i) (4 * max (perReg sf) (perReg tf))) := by
  dsimp only
  unfold convStart
  extract_lets k t
  have hdoes : Does (maskOf [.regs]) s t := does_countOvf _ _ _ (does_foldAmax _ _ _ _ (Does.refl _ s))
  have heng := eng_congr (hdoes.only.engines rfl)
  have hregs : RegsBut [engOff e (0x14 + 4 * amax), engOff e 0x24, engOff e 0x28] s t :=
    regsBut_app (foldAmax_regsBut s e amax _) (countOvf_regsBut _ e _)
  clear_value t
  split
  · refine ⟨hdoes.only.now rfl, ?_, ?_, fun k hk => ?_, hregs, fun i hi _ _ => ?_⟩
    · rw [eng_setEng_self, (genAdvance_frame _ _ _ _).1, heng]
    · rw [eng_setEng_self, (genAdvance_frame _ _ _ _).2, heng]
    · rw [eng_setEng, if_neg hk, heng]
    · rw [eng_setEng_self, genOf_genAdvance _ hi, heng]
  · rename_i hdraws
    exact ⟨hdoes.only.now rfl, by rw [heng], by rw [heng], fun k _ => heng k, hregs,
      fun i _ hr hf => absurd (decide_eq_true ⟨hr, hf⟩) hdraws⟩

theorem convPut_succ (s : State) (e : Nat) (x : Wave) (d : Nat) (ws : Nat → Nat → Word) (n : Nat) :
    convPut s e x d ws (n + 1) = vput (convPut s e x d ws n) e x (d + n) (x.active.map fun i => (i, ws n i)) := by
  unfold convPut
  rw [List.range_succ, List.foldl_append]
  rfl

/-- The writes touch nothing but vector registers. -/
theorem convPut_frame (s : State) (e : Nat) (x : Wave) (d : Nat) (ws : Nat → Nat → Word) (n : Nat) :
    let t := convPut s e x d ws n
    Does (maskOf [.engines]) s t ∧ (eng t e).waves = (eng s e).waves ∧ (eng t e).gens = (eng s e).gens ∧
      ∀ k, k ≠ e → eng t k = eng s k := by
  induction n with
  | zero => exact ⟨Does.refl _ s, rfl, rfl, fun _ _ => rfl⟩
  | succ n ih =>
    obtain ⟨hd, hw, hg, ho⟩ := ih
    dsimp only
    rw [convPut_succ]
    obtain ⟨hw', hg'⟩ := vput_waves (convPut s e x d ws n) e x (d + n) (x.active.map fun i => (i, ws n i))
    exact ⟨does_vput _ _ _ _ _ hd, hw'.trans hw, hg'.trans hg, fun k hk => ((vput_frame _ _ _ _ _).1 k hk).trans (ho k hk)⟩

/-- Register `d + j` holds its word in every active work-item, unless a later register lies over it. -/
theorem convPut_find (s : State) (e : Nat) (x : Wave) (d : Nat) (ws : Nat → Nat → Word) {n j r i : Nat} (hj : j < n)
    (hr : physReg x (d + j) = some r) (hlast : ∀ j', j < j' → j' < n → physReg x (d + j') ≠ some r) (hi : i ∈ x.active) :
    tabFind (r * 512 + i) (eng (convPut s e x d ws n) e).vreg = some (ws j i) := by
  induction n with
  | zero => omega
  | succ n ih =>
    rw [convPut_succ]
    by_cases hjn : j = n
    · subst hjn
      rw [vput_map_find hr, if_pos hi]
    · rw [← ih (by omega) fun j' h1 h2 => hlast j' h1 (by omega)]
      cases hq : physReg x (d + n) with
      | none => rw [vput, hq]
      | some q =>
        have hne : q ≠ r := fun h => hlast n (by omega) (by omega) (by rw [hq, h])
        refine vput_map_other hq _ _ fun i' hi' => ?_
        have h1 := (mem_active.mp hi).1
        have h2 := (mem_active.mp hi').1
        omega

/-! ### ENG_SEED and illegal instructions (R92, R117) -/

theorem exec_seedWrite {s : State} {e : Eng} {w : Fin 8} (h : (issuing s e w).isSome = true) (v : Dword) :
    exec (.seedWrite e w v) s =
      .next (wr (wr s (engOff e 0x0C) (v.toNat % 2 ^ 32)) (engOff e 0x10) (v.toNat / 2 ^ 32)) := by
  obtain ⟨x, hx⟩ := Option.isSome_iff_exists.mp h
  show execSeedWrite e w v s = _
  unfold execSeedWrite
  rw [hx]

theorem exec_illegalInstruction {s : State} {e : Eng} {w : Fin 8} {c : Nat} {x : Wave}
    (h : issuing (atAclk s c) e w = some x) : exec (.illegalInstruction e w c) s =
      .next (endWork (engRecord (atAclk s c) e w 0x44 []) e w 0x44) := by
  show execIllegalInstruction e w c s = _
  unfold execIllegalInstruction
  simp only [h]

/-- The end of a step's work by an error ends the step (R82, R604). -/
theorem endWork_step {s : State} {e w : Nat} {x : Wave} (h : waveAt s e w = some x) (hx : x.work = .step) (code : Nat) :
    (eng (endWork s e w code) e).seq.cur = none ∧ (endWork s e w code).jobs = s.jobs := by
  have hends : endWork s e w code = seqEnd s e true := by
    unfold endWork
    rw [h]
    exact if_pos hx
  rw [hends]
  refine ⟨?_, (does_seqEnd (msk := maskOf [.engines]) _ _ _ (Does.refl _ s)).only.jobs rfl⟩
  cases hc : (eng s e).seq.cur with
  | some r => exact (seqEnd_seq (by rw [hc]; rfl) true).1
  | none =>
    unfold seqEnd
    dsimp only
    rw [hc]
    exact hc

/-- A record of an engine is one record more in the log, and touches nothing else of what is stated. -/
theorem engRecord_facts (s : State) (e w code : Nat) (detail : List Nat) :
    (engRecord s e w code detail).log.seq = (s.log.seq + 1) % 2 ^ 32 ∧
    (∀ k j, waveAt (engRecord s e w code detail) k j = waveAt s k j) ∧
    (engRecord s e w code detail).jobs = s.jobs ∧ (engRecord s e w code detail).now = s.now := by
  have hdoes : Does (maskOf [.log, .msix]) s (engRecord s e w code detail) := does_engRecord _ _ _ _ _ (Does.refl _ s)
  refine ⟨append_seq _ _, fun k j => ?_, hdoes.only.jobs rfl, hdoes.only.now rfl⟩
  unfold waveAt
  rw [eng_congr (hdoes.only.engines rfl)]

theorem endWork_only (s : State) (e w code : Nat) : Does (maskOf [.engines, .jobs]) s (endWork s e w code) :=
  does_endWork _ _ _ _ (Does.refl _ s)

/-- Settles O10, clause by clause from the `exec_` equation of each instruction. -/
theorem engineInstructions : Obligations.EngineInstructions := by
  unfold Obligations.EngineInstructions
  refine ⟨fun s e w g v mask pc c x hx => ?_, fun s e w op f d a b z c x r hx hr => ?_,
    fun s e w sf tf rnd ieee scale amax d a c x hx => ?_, fun s e i => ?_, fun s e w v hx => ?_, fun s e w c x hx => ?_⟩
  · have hwave := issuing_waveAt hx
    have hbase : (x.scalar g v mask pc).vbase = 16 * w.val := waveAt_vbase (x := x) hwave
    refine completes_out (exec_scalarInstruction hx g v mask pc) (does_execScalarInstruction _ _ _ _ _ _ _ s (Does.refl _ s))
      ⟨rfl, vreg_setWave _ _ _ _, fun k hk => eng_setWave_other _ hk _ _, x.scalar g v mask pc, ?_, rfl, rfl, rfl, rfl,
        scalar_g x g v mask pc⟩
    exact waveAt_setWave hwave hbase
  · refine completes_out (exec_vectorInstruction hx op f d a b z)
      (does_execVectorInstruction _ _ _ _ _ _ _ _ _ s (Does.refl _ s)) ⟨?_, (vput_waves _ _ _ _ _).1, (vput_frame _ _ _ _ _).1,
        fun i hi hm => ?_, fun k hk => ?_⟩
    · exact (does_vput (msk := maskOf [.engines]) _ _ _ _ _ (Does.refl _ (atAclk s c))).only.now rfl
    · rw [vput_map_find hr, if_pos (mem_active.mpr ⟨hi, hm⟩)]
      rfl
    · exact vput_map_other hr _ _ fun i hi => hk i (mem_active.mp hi).1 (mem_active.mp hi).2
  · obtain ⟨hnow, hwaves, hvreg, hother, hregs, hgens⟩ :=
      convStart_facts (atAclk s c) e x sf tf rnd ieee scale.toNat amax a
    obtain ⟨hd, hw, hg, ho⟩ := convPut_frame (convStart (atAclk s c) e x sf tf rnd ieee scale.toNat amax a) e x d
      (convWord (eng s e) x sf tf rnd ieee scale.toNat a) (max (perReg sf) (perReg tf) / perReg tf)
    refine completes_out (exec_vectorConvert hx sf tf rnd ieee scale amax d a)
      (does_execVectorConvert _ _ _ _ _ _ _ _ _ _ _ s (Does.refl _ s))
      ⟨(hd.only.now rfl).trans hnow, hw.trans hwaves, fun k hk => (ho k hk).trans (hother k hk),
        fun o ho => (rd_congr (hd.only.regs rfl) o).trans (hregs o ho),
        fun i hi hr hf => (genOf_congr hg i).trans (hgens i hi hr hf), fun j r hj hr hlast i hi hm => ?_⟩
    rw [convPut_find _ _ _ _ _ hj hr hlast (mem_active.mpr ⟨hi, hm⟩)]
    simp only [convWord, convItem, map_mapIdx]
  · exact completes_out rfl (does_execAmaxClear e i s (Does.refl _ s))
      ⟨fld_setFld_same _ _ _ _ _ (by decide), fld_setFld_other _ _ _ _ _ (by decide) (by decide), setFld_regsBut _ _ _ _ _⟩
  · have hne : engOff e 0x0C ≠ engOff e 0x10 := by unfold engOff; omega
    have hhi : v.toNat / 2 ^ 32 < 2 ^ 32 := by have := v.isLt; omega
    refine completes_out (exec_seedWrite hx v) (does_execSeedWrite e w v s (Does.refl _ s)) ⟨?_, ?_, ?_⟩
    · rw [rd_wr_other _ hne, rd_wr_self, Nat.mod_mod]
    · rw [rd_wr_self, Nat.mod_eq_of_lt hhi]
    · exact regsBut_app (wr_regsBut s (engOff e 0x0C) _) (wr_regsBut _ (engOff e 0x10) _)
  · obtain ⟨hseq, hwaves, hjobs, hnow⟩ := engRecord_facts (atAclk s c) e w 0x44 []
    have hends := endWork_only (engRecord (atAclk s c) e w 0x44 []) e w 0x44
    have hwave : waveAt (engRecord (atAclk s c) e w 0x44 []) e w = some x := (hwaves e w).trans (issuing_waveAt hx)
    refine completes_out (exec_illegalInstruction hx) (does_execIllegalInstruction e w c s (Does.refl _ s))
      ⟨(hends.only.now rfl).trans hnow, (congrArg ErrLog.seq (hends.only.log rfl)).trans hseq, fun hs => ?_, fun hs => ?_⟩
    · obtain ⟨hcur, hj⟩ := endWork_step hwave hs 0x44
      exact ⟨hcur, hj.trans hjobs⟩
    · obtain ⟨hnone, hj⟩ := endWork_job hwave hs 0x44
      exact ⟨hnone, hj.trans (congrArg _ (jobOf_congr hjobs _))⟩

end Sys2Proof.Machine

/-!
Tensor instructions: issue, the queue of 4 and its release (R88, R95 to R98).
-/
namespace Sys2Proof.Machine

set_option Elab.async false

/-- With the queue empty and its resources free, a tensor instruction starts at once (R98). -/
theorem tIssue_starts {s : State} {e w : Nat} {i : TIns} (hw : (issuing s e w).isSome = true) (hq : (eng s e).tq = [])
    (hr : tReady s e i = true) (pos : Nat) (ecc : Ecc) : tIssue s e w i pos ecc = tStart s e w i pos ecc := by
  obtain ⟨x, hx⟩ := Option.isSome_iff_exists.mp hw
  unfold tIssue
  simp [hx, hq, hr]

/-- While it must wait, it joins the queue (R98). -/
theorem tIssue_waits {s : State} {e w : Nat} {i : TIns} (hw : (issuing s e w).isSome = true)
    (hwait : (eng s e).tq ≠ [] ∨ tReady s e i = false) (hroom : (eng s e).tq.length < 4) (pos : Nat) (ecc : Ecc) :
    tIssue s e w i pos ecc = setEng s e { eng s e with tq := (eng s e).tq ++ [(w, i)] } := by
  obtain ⟨x, hx⟩ := Option.isSome_iff_exists.mp hw
  have hnot : ((eng s e).tq.isEmpty && tReady s e i) = false := by
    rcases hwait with h | h
    · simp [List.isEmpty_eq_false_iff.mpr h]
    · simp [h]
  unfold tIssue
  simp [hx, hnot, hroom]

/-- What a command does that issues a tensor instruction (R97, R98): it runs the instruction or queues it. -/
theorem tensorIssue_completes {cmd : Instr} {s : State} {e : Eng} {w : Fin 8} {i : TIns} {pos : Nat} {ecc : Ecc} {c : Nat}
    (hexec : exec cmd s = .next (tIssue (atAclk s c) e w i pos ecc)) (hw : (issuing (atAclk s c) e w).isSome = true) :
    ((eng s e).tq = [] → tReady (atAclk s c) e i = true → ecc ≠ .uncorrectable →
      Completes cmd s [.now, .fresh, .regs, .log, .msix, .tile, .engines] fun t =>
        t.now = (atAclk s c).now ∧ TensorDone s t e i ∧ (eng t e).tq = [] ∧ ∀ k, k ≠ e.val → eng t k = eng s k) ∧
    ((eng s e).tq ≠ [] ∨ tReady (atAclk s c) e i = false → (eng s e).tq.length < 4 →
      Completes cmd s [.now, .engines] fun t =>
        t.now = (atAclk s c).now ∧ eng t e = { eng s e with tq := (eng s e).tq ++ [(w.val, i)] } ∧
          ∀ k, k ≠ e.val → eng t k = eng s k) := by
  refine ⟨fun hq hr hecc => ?_, fun hwait hroom => ?_⟩
  · rw [tIssue_starts hw hq hr] at hexec
    obtain ⟨hdoes, hnow, hdone, htq, hother⟩ :=
      tStart_done (s0 := s) e w i pos ecc hecc (does_atAclk s c (Does.refl _ s))
    exact completes_of hexec hdoes ⟨hnow, TensorDone_congr rfl rfl rfl rfl rfl rfl hdone, htq.trans hq, hother⟩
  · rw [tIssue_waits hw hwait hroom] at hexec
    exact completes_of hexec (does_setEng _ _ _ (does_atAclk s c (Does.refl _ s)))
      ⟨rfl, eng_setEng_self _ _ _, fun k hk => (eng_setEng _ _ _ _).trans (if_neg hk)⟩

/-- Engine `e` with `r` as its queue of tensor instructions. -/
def tqLeft (s : State) (e : Nat) (r : List (Nat × TIns)) : State := setEng s e { eng s e with tq := r }

theorem eng_tqLeft (s : State) (e : Nat) (r : List (Nat × TIns)) :
    eng (tqLeft s e r) e = { eng s e with tq := r } ∧ ∀ k, k ≠ e → eng (tqLeft s e r) k = eng s k :=
  ⟨eng_setEng_self _ _ _, fun _ hk => (eng_setEng _ _ _ _).trans (if_neg hk)⟩

/-- The oldest waiting instruction starts when its resources are free (R98). -/
theorem exec_tensorInterlockRelease {s : State} {e : Eng} {c w : Nat} {i : TIns} {r : List (Nat × TIns)}
    (hq : (eng s e).tq = (w, i) :: r) (hr : tReady (atAclk s c) e i = true) (pos : Nat) (ecc : Ecc) :
    exec (.tensorInterlockRelease e pos ecc c) s =
      .next (tStart (tqLeft (atAclk s c) e r) e w i pos ecc) := by
  have hq' : (eng (atAclk s c) e).tq = (w, i) :: r := hq
  show execTensorInterlockRelease e pos ecc c s = _
  unfold execTensorInterlockRelease
  simp only [hq', hr, if_true]
  rfl

/-- Settles O11, clause by clause: the instruction runs at once, joins the queue, or is the oldest released from it. -/
theorem tensorInstructions : Obligations.TensorInstructions := by
  unfold Obligations.TensorInstructions
  refine ⟨fun s e w stage kg off stride f pos ecc c hf hw => ?_, fun s e w stage acc m kg off stride f accum pos ecc c hf hw => ?_,
    fun s e w acc m off stride f rnd ieee scale amax pos ecc c hw => ?_, fun s e pos ecc c w i r hq hr hecc => ?_⟩
  · have hexec : exec (.tload e w stage kg off stride f pos ecc c) s = .next (tIssue (atAclk s c) e w
        (.load stage (clampTo 1 16 kg) (tOff off) (tStride 64 stride) (if tensorFmt f then f else .f19)) pos ecc) := rfl
    rw [if_pos hf] at hexec
    exact tensorIssue_completes hexec hw
  · have hexec : exec (.tmma e w stage acc m kg off stride f accum pos ecc c) s = .next (tIssue (atAclk s c) e w
        (.mma stage acc (clampTo 1 256 m) (clampTo 1 16 kg) (tOff off) (tStride 16 stride)
          (if tensorFmt f then f else .f19) accum) pos ecc) := rfl
    rw [if_pos hf] at hexec
    exact tensorIssue_completes hexec hw
  · exact tensorIssue_completes rfl hw
  · obtain ⟨hself, hothers⟩ := eng_tqLeft (atAclk s c) e r
    obtain ⟨hdoes, hnow, hdone, htq, hother⟩ := tStart_done (s0 := s) (s := tqLeft (atAclk s c) e r) e w i pos ecc hecc
      (does_setEng _ _ _ (does_atAclk s c (Does.refl _ s)))
    have hdone' : TensorDone s (tStart (tqLeft (atAclk s c) e r) e w i pos ecc) e i := by
      refine TensorDone_congr (u := tqLeft (atAclk s c) e r) rfl ?_ ?_ ?_ ?_ ?_ hdone <;> rw [hself] <;> rfl
    exact completes_of (exec_tensorInterlockRelease hq hr pos ecc) hdoes
      ⟨hnow, hdone', htq.trans (congrArg Engine.tq hself), fun k hk => (hother k hk).trans (hothers k hk)⟩

end Sys2Proof.Machine

/-!
Tile memory: loads, stores, corrections and the scrubber (R93, R100 to R106).
-/
namespace Sys2Proof.Machine

set_option Elab.async false

/-- Another engine's waves and registers are not touched by a corrected word of engine `m`, and of engine `m` only the
corrections that wait. -/
structure OnlyCorrections (s t : State) (m : Nat) : Prop where
  does : Does (maskOf [.regs, .log, .msix, .engines]) s t
  own : ∃ c, eng t m = { eng s m with corrections := c }
  others : ∀ k, k ≠ m → eng t k = eng s k

theorem OnlyCorrections.refl (s : State) (m : Nat) : OnlyCorrections s s m := ⟨Does.refl _ s, ⟨_, rfl⟩, fun _ _ => rfl⟩

theorem OnlyCorrections.waves {s t : State} {m : Nat} (h : OnlyCorrections s t m) (k : Nat) :
    (eng t k).waves = (eng s k).waves ∧ (eng t k).vreg = (eng s k).vreg := by
  by_cases hk : k = m
  · obtain ⟨c, hc⟩ := h.own
    rw [hk, hc]
    exact ⟨rfl, rfl⟩
  · rw [h.others k hk]
    exact ⟨rfl, rfl⟩

theorem tileEcc_corrects (s : State) (e w m pos : Nat) {ecc : Ecc} (h : ecc ≠ .uncorrectable) :
    OnlyCorrections s (tileEcc s e w m pos ecc) m := by
  obtain ⟨-, -, -, hown, hothers⟩ := tileEcc_mild e w m pos ecc h (Does.refl _ s)
  refine ⟨?_, hown, hothers⟩
  cases ecc with
  | ok => exact Does.refl _ s
  | corrected => exact does_tmCorrected s m (pos % 2 ^ 22 / 16) (Does.refl _ s)
  | uncorrectable => exact absurd rfl h

/-! ### Loads (R101) -/

/-- The state of a load after the check code of the word at `pos` has been seen (R104, R105). -/
def loadSeen (s : State) (e w m off len pos : Nat) (ecc : Ecc) : State :=
  if pos < len then tileEcc s e w m (off + pos) ecc else s

theorem exec_tileLoad {s : State} {e : Eng} {w : Fin 8} {l : Option Nat} {off len c m : Nat}
    (hw : (issuing (atAclk s c) e w).isSome = true) (hm : tileTarget (atAclk s c) e l = some m) (hin : off + len ≤ 2 ^ 22)
    (h1 : 1 ≤ len) (h2 : len ≤ 128) (dst : LoadDst) (pos : Nat) (ecc : Ecc) :
    exec (.tileLoad e w l off len dst pos ecc c) s =
      .next (if ecc = .uncorrectable ∧ pos < len then loadSeen (atAclk s c) e w m off len pos ecc
        else loadPut (loadSeen (atAclk s c) e w m off len pos ecc) e w dst
          ((loadSeen (atAclk s c) e w m off len pos ecc).tile.readBytes (m * 2 ^ 22 + off) len)) := by
  obtain ⟨x, hx⟩ := Option.isSome_iff_exists.mp hw
  have hoff : off % 2 ^ 22 = off := Nat.mod_eq_of_lt (by omega)
  have hlen : min (clampTo 1 128 len) (2 ^ 22 - off) = len := by unfold clampTo; omega
  show execTileLoad e w l off len dst pos ecc c s = _
  unfold execTileLoad loadSeen
  simp only [hx, hm, hoff, hlen, apply_ite Host.Outcome.next]

theorem loadSeen_corrects (s : State) (e w m off len pos : Nat) {ecc : Ecc} (h : ecc ≠ .uncorrectable ∨ len ≤ pos) :
    OnlyCorrections s (loadSeen s e w m off len pos ecc) m ∧ (loadSeen s e w m off len pos ecc).tile = s.tile := by
  have hboth : OnlyCorrections s (loadSeen s e w m off len pos ecc) m := by
    unfold loadSeen
    split
    · exact tileEcc_corrects s e w m _ (by rcases h with h | h; exact h; omega)
    · exact OnlyCorrections.refl s m
  exact ⟨hboth, hboth.does.only.tile rfl⟩

/-! ### Stores (R103) -/

/-- Whether a store of `n` bytes sees the check code of the word at byte `pos` of it (R103). -/
def storeSees (off n pos : Nat) : Bool := decide (pos < n) && partWord off n (off + pos)

theorem exec_tileStore {s : State} {e : Eng} {w : Fin 8} {l : Option Nat} {off c m : Nat} {data : List Byte}
    (hw : (issuing (atAclk s c) e w).isSome = true) (hm : tileTarget (atAclk s c) e l = some m) (hoff : off < 2 ^ 22)
    (hin : off + data.length ≤ 2 ^ 22) (hlen : data.length ≤ 128) {ecc : Ecc} (hecc : ecc ≠ .uncorrectable) (pos : Nat) :
    exec (.tileStore e w l off data pos ecc c) s =
      .next (if storeSees off data.length pos then
          tileEcc (tilePut (atAclk s c) m off none data) e w m (off + pos) ecc
        else tilePut (atAclk s c) m off none data) := by
  obtain ⟨x, hx⟩ := Option.isSome_iff_exists.mp hw
  have hmod : off % 2 ^ 22 = off := Nat.mod_eq_of_lt hoff
  have htake : data.take (min 128 (2 ^ 22 - off)) = data := List.take_of_length_le (by omega)
  show execTileStore e w l off data pos ecc c s = _
  unfold execTileStore storeSees
  simp only [hx, hm, hmod, htake, hecc, and_false, if_false]

/-! ### Accesses outside the partition (R30) -/

theorem exec_tileLoad_refused {s : State} {e : Eng} {w : Fin 8} {l : Option Nat} {c : Nat}
    (hw : (issuing (atAclk s c) e w).isSome = true) (hm : tileTarget (atAclk s c) e l = none) (off len : Nat)
    (dst : LoadDst) (pos : Nat) (ecc : Ecc) :
    exec (.tileLoad e w l off len dst pos ecc c) s =
      .next (tileRefused (atAclk s c) e w (l.getD 0) (off % 2 ^ 22)) := by
  obtain ⟨x, hx⟩ := Option.isSome_iff_exists.mp hw
  show execTileLoad e w l off len dst pos ecc c s = _
  unfold execTileLoad
  simp only [hx, hm]

theorem exec_tileStore_refused {s : State} {e : Eng} {w : Fin 8} {l : Option Nat} {c : Nat}
    (hw : (issuing (atAclk s c) e w).isSome = true) (hm : tileTarget (atAclk s c) e l = none) (off : Nat)
    (data : List Byte) (pos : Nat) (ecc : Ecc) :
    exec (.tileStore e w l off data pos ecc c) s =
      .next (tileRefused (atAclk s c) e w (l.getD 0) (off % 2 ^ 22)) := by
  obtain ⟨x, hx⟩ := Option.isSome_iff_exists.mp hw
  show execTileStore e w l off data pos ecc c s = _
  unfold execTileStore
  simp only [hx, hm]

/-- A refused access loses its wave and marks the wave's job (R30, R310). -/
theorem tileRefused_ends {s : State} {e w : Nat} {x : Wave} (h : waveAt s e w = some x) (hx : x.work ≠ .step)
    (l off : Nat) : waveAt (tileRefused s e w l off) e w = none ∧
      jobOf (tileRefused s e w l off) x.job = (jobOf s x.job).map fun j => { j with err := if j.err = 0 then 0x90 else j.err } := by
  unfold tileRefused
  generalize hu : localViolation s (engPart s e) e off false l (whoWave s e w) = u
  have hdoes : Does (maskOf [.regs, .log, .msix]) s u := hu ▸ does_localViolation _ _ _ _ _ _ _ (Does.refl _ s)
  have hwave : waveAt u e w = some x := by
    rw [← h, waveAt, waveAt, eng_congr (hdoes.only.engines rfl)]
  obtain ⟨hnone, hjob⟩ := endWork_job hwave hx 0x90
  exact ⟨hnone, hjob.trans (congrArg _ (jobOf_congr (hdoes.only.jobs rfl) _))⟩

/-! ### The scrubber (R106) -/

theorem exec_tmScrub {s : State} {e : Eng} {c : Nat} (hon : fld s (engOff e 0x3C) 0 1 = 1) (hclk : engClocked s e = true)
    (hdue : (eng s e).scrubAt + fld s (engOff e 0x3C) 8 8 * 256 ≤ aclk (atAclk s c)) (ecc : Ecc) :
    exec (.tmScrub e c ecc) s = .next (tmEcc (setEng (atAclk s c) e
      { eng s e with scrubAt := aclk (atAclk s c), scrubWord := ((eng s e).scrubWord + 1) % 2 ^ 18 }) e
      (eng s e).scrubWord {} ecc) := by
  have hclk' : engClocked (atAclk s c) e = true := hclk
  have hon' : fld (atAclk s c) (engOff e 0x3C) 0 1 = 1 := hon
  have hdue' : ¬ aclk (atAclk s c) < (eng (atAclk s c) e).scrubAt + fld (atAclk s c) (engOff e 0x3C) 8 8 * 256 :=
    Nat.not_lt.mpr hdue
  show execTmScrub e c ecc s = _
  unfold execTmScrub
  simp only [hclk', hon', hdue']
  rfl

/-- A correction is counted in ENG_TM_CE_CNT and in no other register (R104). -/
theorem countCorrection_regs (s : State) (e : Nat) :
    rd (countCorrection s e) (engOff e 0x34) = min (2 ^ 32 - 1) (rd s (engOff e 0x34) + 1) ∧
    RegsBut [engOff e 0x34] s (countCorrection s e) := by
  unfold countCorrection
  dsimp only
  split
  · have hlog := (append_only (bumpSat s (engOff e 0x34) 0 32)
      { code := 0x40, tag := engPart (bumpSat s (engOff e 0x34) 0 32) e, kind := 1, unit := e,
        detail := [rd (bumpSat s (engOff e 0x34) 0 32) (engOff e 0x34)] }).only.regs rfl
    exact ⟨(rd_congr hlog _).trans (bumpSat_rd _ _ _),
      fun o ho => (rd_congr hlog o).trans (bumpSat_regsBut s _ _ _ _ o ho)⟩
  · exact ⟨bumpSat_rd _ _ _, bumpSat_regsBut s _ _ _ _⟩

/-- A corrected word joins the corrections that wait, once, and is recorded and counted (R104). -/
theorem tmCorrected_facts (s : State) (e word : Nat) :
    eng (tmCorrected s e word) e = { eng s e with corrections := (eng s e).corrections.filter (· != word) ++ [word] } ∧
    (∀ k, k ≠ e → eng (tmCorrected s e word) k = eng s k) ∧
    rd (tmCorrected s e word) (engOff e 0x34) = min (2 ^ 32 - 1) (rd s (engOff e 0x34) + 1) ∧
    RegsBut [engOff e 0x34, engOff e 0x38] s (tmCorrected s e word) := by
  have hne : engOff e 0x34 ≠ engOff e 0x38 := by unfold engOff; omega
  have heng (u : State) (k : Nat) : eng (countCorrection u e) k = eng u k :=
    eng_congr ((does_countCorrection (msk := maskOf [.regs, .log, .msix]) u e (Does.refl _ u)).only.engines rfl) k
  unfold tmCorrected
  dsimp only
  refine ⟨(heng _ _).trans (eng_setEng_self _ _ _), fun k hk => (heng _ _).trans ((eng_setEng _ _ _ _).trans (if_neg hk)),
    (countCorrection_regs _ e).1.trans ?_, fun o ho => ((countCorrection_regs _ e).2 o ?_).trans ?_⟩
  · rw [show ∀ x, rd (setEng (tmErrReg s e word false) e x) (engOff e 0x34) = rd (tmErrReg s e word false) (engOff e 0x34)
      from fun _ => rfl, tmErrReg, rd_wr_other _ hne]
  · simp only [List.mem_cons, List.not_mem_nil, or_false, not_or] at ho ⊢
    exact ho.1
  · simp only [List.mem_cons, List.not_mem_nil, or_false, not_or] at ho
    exact rd_wr_other s ho.2 _

/-- Settles O12, clause by clause from the `exec_` equation of each access. -/
theorem tileMemoryAccesses : Obligations.TileMemoryAccesses := by
  unfold Obligations.TileMemoryAccesses
  refine ⟨fun s e w l off len dst pos ecc c x m hx hm hin h1 h2 hecc => ?_,
    fun s e w l off data pos ecc c m hw hm hoff hin hlen hecc => ?_,
    fun s e w l off len dst pos c hw hm hpos hlen hin => ?_,
    fun s e w l off len dst data pos ecc c x hx hwork hm => ⟨?_, ?_⟩, fun s e => ?_,
    fun s e c ecc hon hclk hdue hecc => ?_⟩
  · have hexec := exec_tileLoad (Option.isSome_iff_exists.mpr ⟨x, hx⟩) hm hin h1 h2 dst pos ecc
    rw [if_neg (by rcases hecc with h | h; exact fun g => h g.1; omega)] at hexec
    obtain ⟨hseen, htile⟩ := loadSeen_corrects (atAclk s c) e w m off len pos hecc
    rw [htile] at hexec
    have hwave : waveAt (loadSeen (atAclk s c) e w m off len pos ecc) e w = some x := by
      rw [← issuing_waveAt hx, waveAt, waveAt, (hseen.waves e).1]
    obtain ⟨-, hrest⟩ := loadPut_rest (loadSeen (atAclk s c) e w m off len pos ecc) e w dst
      (s.tile.readBytes (m * 2 ^ 22 + off) len)
    have hput : Does (maskOf [.regs, .log, .msix, .engines]) (atAclk s c)
        (loadPut (loadSeen (atAclk s c) e w m off len pos ecc) e w dst (s.tile.readBytes (m * 2 ^ 22 + off) len)) :=
      does_loadPut _ _ _ _ _ hseen.does
    exact completes_of hexec ((does_atAclk s c (Does.refl _ s)).trans (hput.mono (Sub.of_eq rfl)))
      ⟨hput.only.now rfl, loadPut_delivered hwave (hseen.waves e).2 (hseen.waves e).1 dst _,
        fun k hke hkm => (hrest k hke).trans (hseen.others k hkm)⟩
  · have hexec := exec_tileStore hw hm hoff hin hlen hecc pos
    have hput : Does (maskOf [.tile]) (atAclk s c) (tilePut (atAclk s c) m off none data) :=
      does_tilePut _ _ _ _ _ (Does.refl _ _)
    have hboth : OnlyCorrections (tilePut (atAclk s c) m off none data) (if storeSees off data.length pos then
        tileEcc (tilePut (atAclk s c) m off none data) e w m (off + pos) ecc
        else tilePut (atAclk s c) m off none data) m := by
      split
      · exact tileEcc_corrects _ e w m _ hecc
      · exact OnlyCorrections.refl _ m
    have htile := (hboth.does.only.tile rfl).trans (tilePut_read (atAclk s c) m off data)
    refine completes_of hexec ((does_atAclk s c (Does.refl _ s)).trans
      ((hput.mono (Sub.of_eq rfl)).trans (hboth.does.mono (Sub.of_eq rfl))))
      ⟨(hboth.does.only.now rfl).trans (hput.only.now rfl), fun i hi => ?_, fun a ha => ?_⟩
    · rw [htile, Mem.read_writeBytes_inside _ _ _ _ hi, List.getElem?_eq_getElem hi]
    · rw [htile, Mem.read_writeBytes_outside _ _ _ _ ha]
      rfl
  · obtain ⟨m, hm⟩ := Option.isSome_iff_exists.mp hm
    have hexec := exec_tileLoad hw hm hin (by omega) hlen dst pos .uncorrectable
    rw [if_pos ⟨rfl, hpos⟩, loadSeen, if_pos hpos] at hexec
    have hdoes : Does (maskOf [.regs, .log, .msix, .engines, .queues, .jobs, .cx, .disps, .pres, .xfers, .passes, .model,
        .failOrder]) (atAclk s c) (tileEcc (atAclk s c) e w m (off + pos) .uncorrectable) :=
      does_tileEcc _ _ _ _ _ _ (Does.refl _ _)
    exact completes_out hexec (does_execTileLoad e w l off len dst pos .uncorrectable c s (Does.refl _ s)) (hdoes.only.now rfl)
  · exact completes_of (exec_tileLoad_refused (Option.isSome_iff_exists.mpr ⟨x, hx⟩) hm off len dst pos ecc)
      (does_tileRefused _ _ _ _ _ (does_atAclk s c (Does.refl _ s))) (tileRefused_ends (issuing_waveAt hx) hwork _ _)
  · exact completes_of (exec_tileStore_refused (Option.isSome_iff_exists.mpr ⟨x, hx⟩) hm off data pos ecc)
      (does_tileRefused _ _ _ _ _ (does_atAclk s c (Does.refl _ s))) (tileRefused_ends (issuing_waveAt hx) hwork _ _)
  · exact completes_out rfl (does_execTmCorrectionWriteback e s (Does.refl _ s))
      ⟨eng_setEng_self _ _ _, fun k hk => (eng_setEng _ _ _ _).trans (if_neg hk)⟩
  · have hexec := exec_tmScrub hon hclk hdue ecc
    generalize hu : setEng (atAclk s c) e
      { eng s e with scrubAt := aclk (atAclk s c), scrubWord := ((eng s e).scrubWord + 1) % 2 ^ 18 } = u at hexec
    have hself : eng u e = { eng s e with scrubAt := aclk (atAclk s c), scrubWord := ((eng s e).scrubWord + 1) % 2 ^ 18 } :=
      hu ▸ eng_setEng_self _ _ _
    have hothers (k : Nat) (hk : k ≠ e.val) : eng u k = eng s k := hu ▸ (eng_setEng _ _ _ _).trans (if_neg hk)
    have hregs : u.regs = s.regs := hu ▸ rfl
    have hnow : u.now = (atAclk s c).now := hu ▸ rfl
    have hdoes : Does (maskOf [.now, .regs, .log, .msix, .engines]) s u :=
      hu ▸ does_setEng _ _ _ (does_atAclk s c (Does.refl _ s))
    cases ecc with
    | ok =>
      refine completes_of hexec hdoes ⟨hnow, ?_, ?_, fun _ => ⟨fun o _ => rd_congr hregs o, ?_⟩, nofun, hothers⟩ <;>
        rw [tmEcc, hself]
    | corrected =>
      obtain ⟨hcorr, hkeep, hcount, hbut⟩ := tmCorrected_facts u e (eng s e).scrubWord
      have hnow' : (tmCorrected u e (eng s e).scrubWord).now = u.now :=
        (does_tmCorrected (msk := maskOf [.regs, .log, .msix, .engines]) _ _ _ (Does.refl _ u)).only.now rfl
      rw [hself] at hcorr
      refine completes_of hexec (does_tmCorrected _ _ _ hdoes) ⟨hnow'.trans hnow, ?_, ?_, nofun,
        fun _ => ⟨?_, hcount.trans (by rw [rd_congr hregs]), fun o ho => (hbut o ho).trans (rd_congr hregs o)⟩,
        fun k hk => (hkeep k hk).trans (hothers k hk)⟩ <;> rw [tmEcc, hcorr]
    | uncorrectable => exact absurd rfl hecc

end Sys2Proof.Machine

/-!
Heartbeats, failed engines, resets and self-tests (R121, R122, R574, R575, R579, R582 to R584).
-/
namespace Sys2Proof.Machine

set_option Elab.async false

theorem eng_setEng_other (s : State) {e k : Nat} (h : k ≠ e) (x : Engine) : eng (setEng s e x) k = eng s k :=
  (eng_setEng _ _ _ _).trans (if_neg h)

theorem engOff_ne_qdOff (e : Eng) {a r : Nat} (ha : a < 0x100) (hr : r < 0x20) (q : Nat) (hq : q < 16) :
    engOff e a ≠ qdOff q r := by
  have he := e.isLt
  unfold engOff qdOff engBase qdBase
  omega

/-! ### Declarations (R121, R122) -/

/-- The status bits of a failed engine (R122). -/
def failBits (s : State) (e : Nat) : State :=
  setFld (setFld (setFld s (engOff e 8) 2 1 1) (qdOff (e / 4) 0) (4 + e % 4) 1 1) (qdOff (e / 4) 0) (8 + e % 4) 1 0

/-- The work of a failed engine has been disposed of (R576). -/
def workLost (s : State) (e : Nat) : State :=
  modelEngineLost (seqEnd (passEngineLost (computeEngineLost (failBits s e) e) e) e true) e

/-- The declaration itself: the engine holds nothing, and Eflan's handling waits (R122, R575). -/
def declaration (s : State) (e code : Nat) (w : Work) : State :=
  let t := setEng s e { eng s e with waves := [], tq := [], waits := [], releases := [], declared := (eng s e).declared + 1,
                                     cause := code, lostWork := w, failedAt := aclk s }
  { t with failOrder := t.failOrder ++ [e] }

theorem declaration_facts (s : State) (e code : Nat) (w : Work) :
    (declaration s e code w).failOrder = s.failOrder ++ [e] ∧ (∀ o, rd (declaration s e code w) o = rd s o) ∧
    eng (declaration s e code w) e = { eng s e with
      waves := [], tq := [], waits := [], releases := [], declared := (eng s e).declared + 1, cause := code, lostWork := w,
      failedAt := aclk s } :=
  ⟨rfl, fun _ => rfl, eng_setEng_self _ _ _⟩

theorem declareFailed_live {s : State} {e : Nat} (h : engFailed s e = false) (code : Nat) :
    declareFailed s e code = declaration (workLost s e) e code (workOf s e) := by
  unfold declareFailed
  rw [h]
  rfl

theorem failBits_only (s : State) (e : Nat) : Does (maskOf [.regs]) s (failBits s e) :=
  does_setFld _ _ _ _ _ (does_setFld _ _ _ _ _ (does_setFld _ _ _ _ _ (Does.refl _ s)))

theorem workLost_only (s : State) (e : Nat) : Does (maskOf [.regs, .log, .msix, .engines, .queues, .jobs, .cx, .disps, .pres,
    .xfers, .passes, .model]) s (workLost s e) :=
  does_modelEngineLost _ _ (does_seqEnd _ _ _ (does_passEngineLost _ _ (does_computeEngineLost _ _
    ((failBits_only s e).mono (Sub.of_eq rfl)))))

/-- Losing a pass's owner writes the pass's registers; an engine that owns no tiles writes none (R238). -/
theorem workLost_regs {s : State} {e : Nat} (h : passOn s e = none) (o : Nat) :
    rd (workLost s e) o = rd (failBits s e) o := by
  have hcompute : Does (maskOf [.log, .msix, .engines, .queues, .jobs, .cx, .disps, .pres, .xfers]) (failBits s e)
      (computeEngineLost (failBits s e) e) := does_computeEngineLost _ _ (Does.refl _ _)
  have hnone : passOn (computeEngineLost (failBits s e) e) e = none := by
    rw [← h, passOn, passOn, hcompute.only.passes rfl]
    rfl
  have hpass : passEngineLost (computeEngineLost (failBits s e) e) e = computeEngineLost (failBits s e) e := by
    unfold passEngineLost
    rw [hnone]
  have hrest : Does (maskOf [.engines, .model]) (computeEngineLost (failBits s e) e) (workLost s e) := by
    unfold workLost
    rw [hpass]
    exact does_modelEngineLost _ _ (does_seqEnd _ _ _ (Does.refl _ _))
  exact rd_congr ((hrest.only.regs rfl).trans (hcompute.only.regs rfl)) o

theorem failBits_regs (s : State) (e : Eng) :
    engFailed (failBits s e) e = true ∧ fld (failBits s e) (qdOff (e / 4) 0) (4 + e % 4) 1 = 1 ∧
    fld (failBits s e) (qdOff (e / 4) 0) (8 + e % 4) 1 = 0 ∧
    RegsBut [engOff e 8, qdOff (e / 4) 0] s (failBits s e) := by
  have hne : engOff e 8 ≠ qdOff (e / 4) 0 := engOff_ne_qdOff e (by omega) (by omega) _ (by omega)
  unfold failBits
  refine ⟨?_, ?_, ?_, fun o ho => ?_⟩
  · unfold engFailed
    rw [fld_setFld_off _ hne, fld_setFld_off _ hne, fld_setFld_same _ _ _ _ _ (by omega)]
    rfl
  · rw [fld_setFld_other _ _ _ _ _ (by omega) (by omega), fld_setFld_same _ _ _ _ _ (by omega)]
    rfl
  · rw [fld_setFld_same _ _ _ _ _ (by omega)]
    rfl
  · simp only [List.mem_cons, List.not_mem_nil, or_false, not_or] at ho
    rw [rd_setFld_other _ ho.2, rd_setFld_other _ ho.2, rd_setFld_other _ ho.1]

/-- The quad counts a missed heartbeat and records it (R121). -/
def beatMissed (s : State) (e : Eng) : State :=
  append (bump s (qdOff (e / 4) 0x0C))
    { code := 0x43, tag := engPart (bump s (qdOff (e / 4) 0x0C)) e, kind := 1, unit := e,
      queue := (eng s e).seq.plan.queue.filter fun _ => (eng s e).seq.cur.isSome }

theorem exec_quadWatchdogExpiry {s : State} {e : Eng} {c : Nat} (hon : fld s (qdOff (e / 4) 8) 31 1 = 1)
    (hclk : engClocked s e = true) (hdue : (eng s e).beatAt + fld s (qdOff (e / 4) 8) 0 24 ≤ aclk (atAclk s c))
    (hlive : engFailed s e = false) :
    exec (.quadWatchdogExpiry e c) s = .next (declareFailed (beatMissed (atAclk s c) e) e 0x43) := by
  have hacts : ¬ (fld (atAclk s c) (qdOff (e / 4) 8) 31 1 = 0 ∨ (!engClocked (atAclk s c) e) = true ∨
      aclk (atAclk s c) < (eng (atAclk s c) e).beatAt + fld (atAclk s c) (qdOff (e / 4) 8) 0 24 ∨
      (engFailed (atAclk s c) e = true ∧ (eng (atAclk s c) e).failedAt ≠ aclk (atAclk s c))) := by
    rintro (h | h | h | ⟨h, -⟩)
    · exact absurd (hon.symm.trans h) (by decide)
    · exact absurd h (by rw [show engClocked (atAclk s c) e = true from hclk]; decide)
    · exact absurd hdue (Nat.not_le.mpr h)
    · exact absurd (hlive.symm.trans h) (by decide)
  exact if_neg hacts

theorem beatMissed_facts (s : State) (e : Eng) :
    Does (maskOf [.regs, .log, .msix]) s (beatMissed s e) ∧
    rd (beatMissed s e) (qdOff (e / 4) 0x0C) = (rd s (qdOff (e / 4) 0x0C) + 1) % 2 ^ 32 ∧
    RegsBut [qdOff (e / 4) 0x0C] s (beatMissed s e) := by
  have hlog (r : Rep) (o : Nat) : rd (append (bump s (qdOff (e / 4) 0x0C)) r) o = rd (bump s (qdOff (e / 4) 0x0C)) o :=
    rd_congr ((append_only _ r).only.regs rfl) o
  exact ⟨does_append _ _ (does_bump _ _ _ (Does.refl _ s)), (hlog _ _).trans (rd_wr_self _ _ _),
    fun o ho => (hlog _ o).trans (bump_regsBut _ _ _ o ho)⟩

/-- An engine that a declaration finds alive holds nothing afterwards and joins those that Eflan handles (R122). -/
theorem declareFailed_facts {s : State} (e : Eng) (h : engFailed s e = false) (code : Nat) :
    (declareFailed s e code).failOrder = s.failOrder ++ [e.val] ∧ (eng (declareFailed s e code) e).waves = [] ∧
    (eng (declareFailed s e code) e).tq = [] ∧ (eng (declareFailed s e code) e).cause = code ∧
    (eng (declareFailed s e code) e).failedAt = aclk s ∧
    (passOn s e = none → engFailed (declareFailed s e code) e = true ∧
      fld (declareFailed s e code) (qdOff (e / 4) 0) (4 + e % 4) 1 = 1 ∧
      fld (declareFailed s e code) (qdOff (e / 4) 0) (8 + e % 4) 1 = 0 ∧
      RegsBut [engOff e 8, qdOff (e / 4) 0] s (declareFailed s e code)) := by
  have hlost := workLost_only s e
  obtain ⟨horder, hrd, hself⟩ := declaration_facts (workLost s e) e code (workOf s e)
  rw [declareFailed_live h, horder, hself, ownAclk hlost rfl rfl rfl rfl, hlost.only.failOrder rfl]
  refine ⟨rfl, rfl, rfl, rfl, rfl, fun hpass => ?_⟩
  have hregs (o : Nat) : rd (declaration (workLost s e) e code (workOf s e)) o = rd (failBits s e) o :=
    (hrd o).trans (workLost_regs hpass o)
  obtain ⟨hfail, hstatus, hlive, hrest⟩ := failBits_regs s e
  rw [engFailed] at hfail ⊢
  rw [fld_congr' (hregs _), fld_congr' (hregs _), fld_congr' (hregs _)]
  exact ⟨hfail, hstatus, hlive, fun o ho => (hregs o).trans (hrest o ho)⟩

/-! ### Masking (R575) -/

theorem resetEngine_eng (s : State) (e : Nat) :
    (eng (resetEngine s e) e).inReset = true ∧ (eng (resetEngine s e) e).resetFrom = aclk s ∧
    (eng (resetEngine s e) e).waves = [] ∧ (eng (resetEngine s e) e).seq.armed = false ∧
    ∀ k, k ≠ e → eng (resetEngine s e) k = eng s k := by
  refine ⟨?_, ?_, ?_, ?_, fun k hk => eng_setEng_other _ hk _⟩ <;> rw [resetEngine, eng_setEng_self]

/-- Eflan's record of a failed engine that it masks (R575). -/
def maskRecord (s : State) (e : Nat) : Rep :=
  { code := 0x45, tag := engPart s e, kind := 1, unit := e, eflan := true,
    detail := [(eng s e).cause, (eng s e).lostWork.code, (eng s e).declared] }

/-- Vector 3 goes to the physical function and to the engine's partition (R575). -/
def raiseMask (s : State) (p : Nat) : State := if p = 0 ∨ p = tagM then raise s 0 3 else raise (raise s 0 3) p 3

theorem raiseMask_only (s : State) (p : Nat) : Does (maskOf [.msix]) s (raiseMask s p) := by
  unfold raiseMask
  split
  · exact does_raise _ _ _ (Does.refl _ s)
  · exact does_raise _ _ _ (does_raise _ _ _ (Does.refl _ s))

theorem exec_engineFailMask {s : State} {e : Nat} {r : List Nat} (h : s.failOrder = e :: r) :
    exec .engineFailMask s = .next (raiseMask (append (resetEngine { s with failOrder := r } e)
      (maskRecord (resetEngine { s with failOrder := r } e) e)) (engPart (resetEngine { s with failOrder := r } e) e)) := by
  show execEngineFailMask s = _
  unfold execEngineFailMask
  rw [h]
  rfl

/-- The record that is appended with room goes to the end. -/
theorem append_last {s : State} (r : Rep) (h : s.log.recs.length < 2048) :
    (append s r).log.recs.getLast? = some (mkRec s r s.log.seq (stamp s)) := by
  rw [append_log, ErrLog.store_room _ _ h, List.getLast?_concat]

/-! ### Self-tests (R579) -/

/-- The status bits of an engine that returns to service (R579). -/
def serviceBits (s : State) (e : Nat) : State :=
  let t := setFld (setFld s (engOff e 8) 2 1 0) (qdOff (e / 4) 0) (4 + e % 4) 1 0
  setFld t (qdOff (e / 4) 0) (8 + e % 4) 1 (fld t (qdOff (e / 4) 0) (e % 4) 1)

theorem serviceBits_facts (s : State) (e : Eng) :
    engFailed (serviceBits s e) e = false ∧ RegsBut [engOff e 8, qdOff (e / 4) 0] s (serviceBits s e) ∧
    Does (maskOf [.regs]) s (serviceBits s e) := by
  have hne : engOff e 8 ≠ qdOff (e / 4) 0 := engOff_ne_qdOff e (by omega) (by omega) _ (by omega)
  unfold serviceBits
  refine ⟨?_, fun o ho => ?_, does_setFld _ _ _ _ _ (does_setFld _ _ _ _ _ (does_setFld _ _ _ _ _ (Does.refl _ s)))⟩
  · unfold engFailed
    rw [fld_setFld_off _ hne, fld_setFld_off _ hne, fld_setFld_same _ _ _ _ _ (by omega)]
    rfl
  · simp only [List.mem_cons, List.not_mem_nil, or_false, not_or] at ho
    rw [rd_setFld_other _ ho.2, rd_setFld_other _ ho.2, rd_setFld_other _ ho.1]

/-- A self-test that has ended: the tile memory is zero and the engine is not under test (R579). -/
def testOver (s : State) (e : Nat) : State :=
  setEng { s with tile := s.tile.blank (e * 2 ^ 22) ((e + 1) * 2 ^ 22) 0 } e { eng s e with testing := none }

/-- Eflan's record of a self-test: 0x47 when it passed, 0x46 when it did not (R579). -/
def testRecord (s : State) (e : Nat) (pass : Bool) : Rep :=
  { code := if pass then 0x47 else 0x46, tag := engPart s e, kind := 1, unit := e, eflan := true }

theorem exec_selfTestEnd {s : State} {e : Eng} {c f : Nat} (htest : (eng s e).testing = some f)
    (hdue : f + 131072 ≤ aclk (atAclk s c)) (pass : Bool) :
    exec (.selfTestEnd e pass c) s = .next (if pass then
        append (serviceBits (testOver (atAclk s c) e) e) (testRecord (serviceBits (testOver (atAclk s c) e) e) e true)
      else append (testOver (atAclk s c) e) (testRecord (testOver (atAclk s c) e) e false)) := by
  have htest' : (eng (atAclk s c) e).testing = some f := htest
  show execSelfTestEnd e pass c s = _
  unfold execSelfTestEnd
  simp only [htest', if_neg (Nat.not_lt.mpr hdue)]
  cases pass <;> rfl

theorem testOver_tile (s : State) (e : Nat) :
    (∀ a, e * 2 ^ 22 ≤ a → a < (e + 1) * 2 ^ 22 → (testOver s e).tile.read a = 0) ∧
    ∀ a, (a < e * 2 ^ 22 ∨ (e + 1) * 2 ^ 22 ≤ a) → (testOver s e).tile.read a = s.tile.read a :=
  ⟨fun a h1 h2 => Mem.read_blank_zero _ _ _ a h1 h2, fun a h => Mem.read_blank_outside _ _ _ _ a h⟩

/-- Settles O15, clause by clause from the `exec_` equation of each command. -/
theorem engineFailureAndReset : Obligations.EngineFailureAndReset := by
  unfold Obligations.EngineFailureAndReset
  refine ⟨fun s e c hclk hdue => ?_, fun s e c hon hclk hdue hlive => ?_, fun s e r horder => ?_,
    fun s e c hreset hlive hdue hstage => ?_, fun s k c f hreset hdue => ?_, fun s e pass c f htest hdue => ?_,
    fun s q c hpart => ?_, fun s c hruns => ?_⟩
  · have hacts : ¬ ((!engClocked (atAclk s c) e) = true ∨ aclk (atAclk s c) < (eng (atAclk s c) e).beatAt + 1024) := by
      rintro (h | h)
      · exact absurd h (by rw [show engClocked (atAclk s c) e = true from hclk]; decide)
      · exact absurd hdue (Nat.not_le.mpr h)
    have hexec : exec (.engineHeartbeat e c) s =
      .next (setEng (atAclk s c) e { eng s e with beatAt := aclk (atAclk s c) }) := if_neg hacts
    exact completes_out hexec (does_execEngineHeartbeat e c s (Does.refl _ s))
      ⟨rfl, eng_setEng_self _ _ _, fun k hk => eng_setEng_other _ hk _⟩
  · obtain ⟨hmissed, hcount, hkept⟩ := beatMissed_facts (atAclk s c) e
    have hlive' : engFailed (beatMissed (atAclk s c) e) e = false := by
      rw [← hlive, engFailed, engFailed, fld_congr' (hkept _ (by
        simpa using engOff_ne_qdOff e (by omega : 8 < 0x100) (by omega : 0x0C < 0x20) _ (by omega : e.val / 4 < 16)))]
      rfl
    obtain ⟨horder, hwaves, htq, hcause, hat, hregs⟩ := declareFailed_facts e hlive' 0x43
    refine completes_out (exec_quadWatchdogExpiry hon hclk hdue hlive) (does_execQuadWatchdogExpiry e c s (Does.refl _ s))
      ⟨?_, horder.trans ?_, hwaves, htq, hcause, hat.trans (ownAclk hmissed rfl rfl rfl rfl), fun hpass => ?_⟩
    · exact (does_declareFailed (msk := maskOf [.regs, .log, .msix, .engines, .queues, .jobs, .cx, .disps, .pres, .xfers,
        .passes, .model, .failOrder]) _ _ _ (hmissed.mono (Sub.of_eq rfl))).only.now rfl
    · rw [hmissed.only.failOrder rfl]
      rfl
    · obtain ⟨hfail, hstatus, hbit, hrest⟩ := hregs (by rw [passOn, hmissed.only.passes rfl]; exact hpass)
      refine ⟨hfail, hstatus, hbit, ?_, fun o ho => ?_⟩
      · have hne := engOff_ne_qdOff e (by omega : 8 < 0x100) (by omega : 0x0C < 0x20) _ (by omega : e.val / 4 < 16)
        have hcnt : qdOff (e.val / 4) 0x0C ≠ qdOff (e.val / 4) 0 := by unfold qdOff; omega
        rw [hrest _ (by simp [hne.symm, hcnt]), hcount]
        rfl
      · simp only [List.mem_cons, List.not_mem_nil, or_false, not_or] at ho
        rw [hrest o (by simpa using ⟨ho.1, ho.2.1⟩), hkept o (by simpa using ho.2.2)]
        rfl
  · have hexec := exec_engineFailMask horder
    generalize hu : resetEngine { s with failOrder := r } e = u at hexec
    have hdoes : Does (maskOf [.engines]) { s with failOrder := r } u := hu ▸ does_resetEngine _ _ (Does.refl _ _)
    obtain ⟨hin, hfrom, hwaves, harmed, hothers⟩ := hu ▸ resetEngine_eng { s with failOrder := r } e
    have hrec := append_only u (maskRecord u e)
    have hraise := raiseMask_only (append u (maskRecord u e)) (engPart u e)
    have heng (k : Nat) : eng (raiseMask (append u (maskRecord u e)) (engPart u e)) k = eng u k :=
      eng_congr ((hraise.only.engines rfl).trans (hrec.only.engines rfl)) k
    have hlog : u.log = s.log := hdoes.only.log rfl
    refine completes_out hexec (does_execEngineFailMask s (Does.refl _ s)) ?_
    rw [heng e, hraise.only.log rfl]
    refine ⟨(hraise.only.failOrder rfl).trans ((hrec.only.failOrder rfl).trans (hdoes.only.failOrder rfl)),
      hin, hfrom, hwaves, harmed, (append_seq _ _).trans (by rw [hlog]), fun hroom => ?_,
      fun k hk => (heng k).trans (hothers k hk)⟩
    rw [append_last _ (hlog ▸ hroom)]
    rfl
  · have hacts : (eng (atAclk s c) e).inReset = true ∧ (!engFailed (atAclk s c) e) = true ∧
        (eng (atAclk s c) e).resetFrom + 256 ≤ aclk (atAclk s c) ∧
        ptStage (atAclk s c) (engPart (atAclk s c) e) = 0 :=
      ⟨hreset, by rw [show engFailed (atAclk s c) e = false from hlive]; rfl, hdue, hstage⟩
    have hexec : exec (.engineResetEnd e c) s = .next (setEng (atAclk s c) e { eng s e with inReset := false }) :=
      if_pos hacts
    exact completes_out hexec (does_execEngineResetEnd e c s (Does.refl _ s))
      ⟨rfl, eng_setEng_self _ _ _, fun k hk => eng_setEng_other _ hk _⟩
  · have hexec : exec (.cxResetEnd k c) s = .next (setCx (atAclk s c) k { cxOf s k with resetFrom := none }) := by
      have hreset' : (cxOf (atAclk s c) k).resetFrom = some f := hreset
      show execCxResetEnd k c s = _
      unfold execCxResetEnd
      simp only [hreset']
      exact if_pos hdue
    exact completes_out hexec (does_execCxResetEnd k c s (Does.refl _ s))
      ⟨rfl, cxOf_setCx_self _ _ _, fun j hj => (cxOf_setCx _ _ _ _).trans (if_neg hj)⟩
  · have hexec := exec_selfTestEnd htest hdue pass
    obtain ⟨hzero, hkept⟩ := testOver_tile (atAclk s c) e
    have hself : eng (testOver (atAclk s c) e) e = { eng s e with testing := none } := eng_setEng_self _ _ _
    have hothers (k : Nat) (hk : k ≠ e.val) : eng (testOver (atAclk s c) e) k = eng s k := eng_setEng_other _ hk _
    obtain ⟨hservice, hregs, hbits⟩ := serviceBits_facts (testOver (atAclk s c) e) e
    refine completes_out hexec (does_execSelfTestEnd e pass c s (Does.refl _ s)) ?_
    cases pass with
    | false =>
      have hrec := append_only (testOver (atAclk s c) e) (testRecord (testOver (atAclk s c) e) e false)
      simp only [Bool.false_eq_true, if_false]
      simp only [eng_congr (hrec.only.engines rfl), hrec.only.tile rfl]
      exact ⟨hrec.only.now rfl, hself, hothers, hzero, hkept, append_seq _ _, nofun,
        fun _ o _ => rd_congr (hrec.only.regs rfl) o⟩
    | true =>
      have hrec := append_only (serviceBits (testOver (atAclk s c) e) e)
        (testRecord (serviceBits (testOver (atAclk s c) e) e) e true)
      simp only [if_true]
      simp only [eng_congr ((hrec.only.engines rfl).trans (hbits.only.engines rfl)),
        (hrec.only.tile rfl).trans (hbits.only.tile rfl)]
      refine ⟨(hrec.only.now rfl).trans (hbits.only.now rfl), hself, hothers, hzero, hkept, ?_,
        fun _ => ⟨?_, fun o ho => (rd_congr (hrec.only.regs rfl) o).trans (hregs o ho)⟩, nofun⟩
      · rw [append_seq, hbits.only.log rfl]
        rfl
      · rw [← hservice, engFailed, engFailed, fld_congr (hrec.only.regs rfl)]
  · have hexec : exec (.internalUncorrectable (.quad q) c) s = .next (append (atAclk s c)
        { code := 0x03, tag := quadPart (atAclk s c) q, kind := 2, unit := q }) := by
      refine if_neg fun h => hpart ⟨h.1, ?_⟩
      rw [← h.2, partExists, partExists, fld_congr ((append_only _ _).only.regs rfl)]
      rfl
    exact completes_of hexec (does_append _ _ (does_atAclk s c (Does.refl _ s)))
      ⟨(append_only _ _).only.now rfl, append_seq _ _⟩
  · have hexec : exec (.internalUncorrectable .sram c) s = .next (mgmtReset (atAclk s c)) := if_pos hruns
    exact completes_of hexec (does_mgmtReset _ (does_atAclk s c (Does.refl _ s)))
      ⟨(does_mgmtReset (msk := maskOf [.fresh, .regs, .foxCmd, .peony, .flash]) _ (Does.refl _ _)).only.now rfl, rfl, rfl, rfl, rfl, rfl, rfl⟩

end Sys2Proof.Machine

/-!
Operations on semaphores by engines (R269 to R275, R278, R279, R296).
-/
namespace Sys2Proof.Machine

set_option Elab.async false

/-! ### Releases that take effect at once -/

theorem semAdd_issued {s : State} {e sem : Nat} (honce : ReleasesAtOnce s e) (hquiet : SemQuiet s sem) (hlt : sem < 8192)
    (n : Nat) :
    Does (maskOf [.regs, .log, .msix, .engines, .semCycles]) s (releaseIssue s e (.add sem n)) ∧
    semVal (releaseIssue s e (.add sem n)) sem = min (2 ^ 32 - 1) (semVal s sem + n) ∧
    (2 ^ 32 ≤ semVal s sem + n →
      rd (releaseIssue s e (.add sem n)) (synBase + 0x880C) = (rd s (synBase + 0x880C) + 1) % 2 ^ 32 ∧
      (releaseIssue s e (.add sem n)).log.seq = (s.log.seq + 1) % 2 ^ 32 ∧
      RegsBut [semOff sem, synBase + 0x880C] s (releaseIssue s e (.add sem n))) ∧
    (semVal s sem + n < 2 ^ 32 → RegsBut [semOff sem] s (releaseIssue s e (.add sem n)) ∧
      (releaseIssue s e (.add sem n)).log = s.log) ∧
    ∀ k, k ≠ e → eng (releaseIssue s e (.add sem n)) k = eng s k := by
  obtain ⟨u, hissue, hclean, -, hothers⟩ := releaseIssue_now honce (.add sem n)
  have hregs := hclean.only.regs rfl
  have hlog := hclean.only.log rfl
  obtain ⟨hval, hbut, hsat, hfit⟩ :=
    semAdd_word (quiet_congr (hclean.only.semCycles rfl) (ownAclk hclean rfl rfl rfl rfl) hquiet) hlt n
  have hop : Does (maskOf [.regs, .log, .msix, .semCycles]) u (semAdd u sem n) := does_semAdd _ _ _ (Does.refl _ u)
  rw [hissue, releaseApply]
  rw [semVal_congr hregs] at hval hsat hfit
  rw [rd_congr hregs, hlog] at hsat
  rw [hlog] at hfit
  exact ⟨does_semAdd _ _ _ (hclean.mono (Sub.of_eq rfl)), hval,
    fun h => ⟨(hsat h).1, (hsat h).2, regsBut_congr hregs hbut⟩, fun h => ⟨regsBut_congr hregs (hfit h).1, (hfit h).2⟩,
    fun k hk => (eng_congr (hop.only.engines rfl) k).trans (hothers k hk)⟩

theorem semSub_issued {s : State} {e sem : Nat} (honce : ReleasesAtOnce s e) (hquiet : SemQuiet s sem) (hlt : sem < 8192)
    (n : Nat) :
    Does (maskOf [.regs, .log, .msix, .engines, .semCycles]) s (releaseIssue s e (.sub sem n)) ∧
    semVal (releaseIssue s e (.sub sem n)) sem = semVal s sem - n ∧
    RegsBut [semOff sem] s (releaseIssue s e (.sub sem n)) ∧ (releaseIssue s e (.sub sem n)).log = s.log ∧
    ∀ k, k ≠ e → eng (releaseIssue s e (.sub sem n)) k = eng s k := by
  obtain ⟨u, hissue, hclean, -, hothers⟩ := releaseIssue_now honce (.sub sem n)
  obtain ⟨hval, hbut, hlog⟩ :=
    semSub_word (quiet_congr (hclean.only.semCycles rfl) (ownAclk hclean rfl rfl rfl rfl) hquiet) hlt n
  have hop : Does (maskOf [.regs, .log, .msix, .semCycles]) u (semSub u sem n) := does_semSub _ _ _ (Does.refl _ u)
  rw [hissue, releaseApply]
  exact ⟨does_semSub _ _ _ (hclean.mono (Sub.of_eq rfl)), hval.trans (by rw [semVal_congr (hclean.only.regs rfl)]),
    regsBut_congr (hclean.only.regs rfl) hbut, hlog.trans (hclean.only.log rfl),
    fun k hk => (eng_congr (hop.only.engines rfl) k).trans (hothers k hk)⟩

/-- An ARRIVE with nothing before it acts on a state that differs in the far-line cache's table alone (R278, R296). -/
theorem semArrive_issued {s : State} {e w : Nat} {x : Wave} (hwave : waveAt s e w = some x) (honce : ReleasesAtOnce s e)
    (sem k p : Nat) :
    ∃ u, releaseIssue s e (.arrive w sem k p) = engArrive u e w sem (aclk u) k p ∧ Does (maskOf [.engines]) s u ∧
      waveAt u e w = some x ∧ aclk u = aclk s ∧ ∀ j, j ≠ e → eng u j = eng s j := by
  obtain ⟨u, hissue, hclean, ⟨lines, heng⟩, hothers⟩ := releaseIssue_now honce (.arrive w sem k p)
  exact ⟨u, hissue, hclean, by rw [← hwave, waveAt, waveAt, heng], ownAclk hclean rfl rfl rfl rfl, hothers⟩

/-! ### Arrivals (R278, R279) -/

/-- Before the first operation of its cycle a semaphore holds its word. -/
theorem semIn_result {s : State} {sem : Nat} (h : SemQuiet s sem) : (semIn s sem (aclk s)).result = semVal s sem := by
  have hlt : semVal s sem < 2 ^ 32 := rd_lt s _
  rw [semIn_quiet h]
  unfold SemCycle.result
  simp only [Nat.add_zero, Nat.sub_zero, Option.getD_none, List.foldl_nil]
  omega

/-- The round that a semaphore collects, as an arrival finds it. -/
theorem arrivalRound {s : State} {sem : Nat} (h : SemQuiet s sem) (k : Nat) :
    barDist k (semIn s sem (aclk s)).result = (k % 2 ^ 16 + 2 ^ 16 - fld s (semOff sem) 16 16) % 2 ^ 16 := by
  rw [semIn_result h]
  rfl

/-- A wave that polls, from its engine's present cycle on (R275). -/
theorem setSpin_facts {s : State} {e w : Nat} {x : Wave} (hwave : waveAt s e w = some x) (sp : Option Spin) :
    Does (maskOf [.engines]) s (setSpin s e w sp) ∧ waveAt (setSpin s e w sp) e w = some { x with spin := sp } ∧
    aclk (setSpin s e w sp) = aclk s ∧ ∀ k, k ≠ e → eng (setSpin s e w sp) k = eng s k := by
  have hdoes : Does (maskOf [.engines]) s (setSpin s e w sp) := does_setSpin _ _ _ _ (Does.refl _ s)
  exact ⟨hdoes, waveAt_setSpin hwave sp, ownAclk hdoes rfl rfl rfl rfl, fun k hk => eng_setSpin_other _ _ _ _ hk⟩

/-- A counted arrival writes the semaphore's word alone, and its wave goes on (R278). -/
theorem arriveCounted_facts {s : State} {e w sem : Nat} {x : Wave} (hwave : waveAt s e w = some x)
    (hquiet : SemQuiet s sem) (hlt : sem < 8192) (port k p : Nat) :
    RegsBut [semOff sem] s (setSpin (semArriveAt s sem (aclk s) port k p) e w none) ∧
    (setSpin (semArriveAt s sem (aclk s) port k p) e w none).log = s.log ∧
    semVal (setSpin (semArriveAt s sem (aclk s) port k p) e w none) sem = barCount (semVal s sem) k p % 2 ^ 32 ∧
    waveAt (setSpin (semArriveAt s sem (aclk s) port k p) e w none) e w = some { x with spin := none } := by
  obtain ⟨hval, hbut, hlog⟩ := semArrive_word hquiet hlt port k p
  have hop : Does (maskOf [.regs, .log, .msix, .semCycles]) s (semArriveAt s sem (aclk s) port k p) :=
    does_semArriveAt _ _ _ _ _ _ (Does.refl _ s)
  obtain ⟨hspins, hspin, -⟩ := setSpin_facts (s := semArriveAt s sem (aclk s) port k p) (e := e) (w := w) (x := x)
    (by rw [← hwave, waveAt, waveAt, eng_congr (hop.only.engines rfl)]) none
  exact ⟨fun o ho => (rd_congr (hspins.only.regs rfl) o).trans (hbut o ho), (hspins.only.log rfl).trans hlog,
    (semVal_congr (hspins.only.regs rfl) sem).trans hval, hspin⟩

/-- What a counting arrival leaves of the semaphore's word (R278). -/
theorem barCount_fields {v k p : Nat} (hv : v < 2 ^ 32) (hround : bits v 16 16 = k) (hp : p < 2 ^ 16) :
    (max 1 p ≤ bits v 0 16 + 1 → barCount v k p % 2 ^ 32 = (k + 1) % 2 ^ 16 * 2 ^ 16) ∧
    (bits v 0 16 + 1 < max 1 p →
      bits (barCount v k p % 2 ^ 32) 16 16 = k ∧ bits (barCount v k p % 2 ^ 32) 0 16 = bits v 0 16 + 1) := by
  have hdist : barDist k v = 0 := by
    unfold barDist barRound
    omega
  refine ⟨fun hlast => ?_, fun hmore => ?_⟩
  · rw [barCount, if_pos hdist, if_pos hlast]
    omega
  · rw [barCount, if_pos hdist, if_neg (by omega)]
    rw [Nat.mod_eq_of_lt (setBits_lt _ _ _ _ hv (by omega)), bits_setBits_other _ _ _ _ (by omega), bits_setBits_same]
    exact ⟨hround, by omega⟩

theorem engArrive_other (s : State) {e : Nat} (w sem x k p : Nat) {j : Nat} (hj : j ≠ e) :
    eng (engArrive s e w sem x k p) j = eng s j := by
  have hcount : (semArriveAt s sem x (semPort e sem) k p).engines = s.engines :=
    (does_semArriveAt (msk := maskOf [.regs, .log, .msix, .semCycles]) _ _ _ _ _ _ (Does.refl _ s)).only.engines rfl
  have hrecord : (engRecord s e w 0x83 []).engines = s.engines :=
    (does_engRecord (msk := maskOf [.log, .msix]) _ _ _ _ _ (Does.refl _ s)).only.engines rfl
  unfold engArrive
  dsimp only
  split_ifs
  · exact (eng_setSpin_other _ _ _ _ hj).trans (eng_congr hcount j)
  · exact eng_setSpin_other _ _ _ _ hj
  · exact (eng_endWork_other _ _ _ _ hj).trans (eng_congr hrecord j)

/-- An arrival for the round being collected counts, one for the next is held, another ends the work (R278, R279). -/
theorem engArrive_cases {s : State} {sem : Nat} (hquiet : SemQuiet s sem) (e w k p : Nat) (hk : k < 2 ^ 16) :
    (fld s (semOff sem) 16 16 = k → engArrive s e w sem (aclk s) k p =
      setSpin (semArriveAt s sem (aclk s) (semPort e sem) k p) e w none) ∧
    (k = (fld s (semOff sem) 16 16 + 1) % 2 ^ 16 → engArrive s e w sem (aclk s) k p =
      setSpin s e w (some { sem := sem, want := .arrive k p, issued := aclk s })) ∧
    (k ≠ fld s (semOff sem) 16 16 → k ≠ (fld s (semOff sem) 16 16 + 1) % 2 ^ 16 →
      engArrive s e w sem (aclk s) k p = endWork (engRecord s e w 0x83 []) e w 0x83) := by
  have hround : fld s (semOff sem) 16 16 < 2 ^ 16 := bits_lt _ _ _
  have hdist := arrivalRound hquiet k
  unfold engArrive
  refine ⟨fun h => if_pos ?_, fun h => (if_neg ?_).trans (if_pos ?_), fun h h' => (if_neg ?_).trans (if_neg ?_)⟩ <;>
    omega

/-- The record and the end of the work of an ARRIVE for another round (R279). -/
theorem arriveFaulted_facts {s : State} {e : Eng} {w : Fin 8} {x : Wave} (hwave : waveAt s e w = some x) :
    Does (maskOf [.log, .msix, .engines, .jobs]) s (endWork (engRecord s e w 0x83 []) e w 0x83) ∧
    (endWork (engRecord s e w 0x83 []) e w 0x83).log.seq = (s.log.seq + 1) % 2 ^ 32 ∧
    (x.work ≠ .step → waveAt (endWork (engRecord s e w 0x83 []) e w 0x83) e w = none ∧
      jobOf (endWork (engRecord s e w 0x83 []) e w 0x83) x.job =
        (jobOf s x.job).map fun j => { j with err := if j.err = 0 then 0x83 else j.err }) := by
  obtain ⟨hseq, hwaves, hjobs, -⟩ := engRecord_facts s e w 0x83 []
  have hrec : Does (maskOf [.log, .msix]) s (engRecord s e w 0x83 []) := does_engRecord _ _ _ _ _ (Does.refl _ s)
  have hends := endWork_only (engRecord s e w 0x83 []) e w 0x83
  refine ⟨does_endWork _ _ _ _ (hrec.mono (Sub.of_eq rfl)), (congrArg ErrLog.seq (hends.only.log rfl)).trans hseq,
    fun hstep => ?_⟩
  obtain ⟨hnone, hjob⟩ := endWork_job ((hwaves e w).trans hwave) hstep 0x83
  exact ⟨hnone, hjob.trans (congrArg _ (jobOf_congr hjobs _))⟩

/-! ### Waits and poll instructions (R275) -/

theorem exec_semWait {s : State} {e : Eng} {w : Fin 8} {lq : Nat} {i : Fin 512} {c sem : Nat} {x : Wave}
    (hwave : waveAt s e w = some x) (hsem : semOf s (engPart s e) lq i = some sem) (n : Word) :
    exec (.semWait e w lq i n c) s = .next (if n.toNat = 0 then flcAcquire (atAclk s c) e else
      setSpin (atAclk s c) e w (some { sem := sem, want := .atLeast n.toNat, issued := aclk (atAclk s c) })) :=
  congrArg Host.Outcome.next (engSem_eq (Option.isSome_of_eq_some hwave) hsem)

theorem flcAcquire_facts {s : State} {e w : Nat} {x : Wave} (hwave : waveAt s e w = some x) :
    waveAt (flcAcquire s e) e w = some x ∧ (eng (flcAcquire s e) e).acq = (eng s e).acq + 1 ∧
    ∀ k, k ≠ e → eng (flcAcquire s e) k = eng s k := by
  refine ⟨?_, ?_, fun k hk => eng_setEng_other _ hk _⟩
  · rw [← hwave, waveAt, flcAcquire, eng_setEng_self]
    rfl
  · rw [flcAcquire, eng_setEng_self]

/-! ### A semaphore that the partition does not own (R30) -/

/-- The work of a wave ends for an access to a foreign semaphore (R30). -/
theorem foreignSem_facts {s : State} {e : Eng} {w : Fin 8} {x : Wave} (hwave : waveAt s e w = some x)
    (hstep : x.work ≠ .step) (tag low lq : Nat) (who : Who) :
    Does (maskOf [.regs, .log, .msix, .engines, .jobs]) s (endWork (localViolation s tag e low true lq who) e w 0x90) ∧
    RegsBut [ptBase + 0x200C] s (endWork (localViolation s tag e low true lq who) e w 0x90) ∧
    (endWork (localViolation s tag e low true lq who) e w 0x90).log.seq = (s.log.seq + 1) % 2 ^ 32 ∧
    waveAt (endWork (localViolation s tag e low true lq who) e w 0x90) e w = none ∧
    jobOf (endWork (localViolation s tag e low true lq who) e w 0x90) x.job =
      (jobOf s x.job).map fun j => { j with err := if j.err = 0 then 0x90 else j.err } := by
  have hviol : Does (maskOf [.regs, .log, .msix]) s (localViolation s tag e low true lq who) :=
    does_localViolation _ _ _ _ _ _ _ (Does.refl _ s)
  have hends := endWork_only (localViolation s tag e low true lq who) e w 0x90
  have hwave' : waveAt (localViolation s tag e low true lq who) e w = some x := by
    rw [← hwave, waveAt, waveAt, eng_congr (hviol.only.engines rfl)]
  obtain ⟨hnone, hjob⟩ := endWork_job hwave' hstep 0x90
  refine ⟨does_endWork _ _ _ _ (hviol.mono (Sub.of_eq rfl)), fun o ho => ?_,
    (congrArg ErrLog.seq (hends.only.log rfl)).trans (append_seq _ _), hnone,
    hjob.trans (congrArg _ (jobOf_congr (hviol.only.jobs rfl) _))⟩
  calc rd (endWork (localViolation s tag e low true lq who) e w 0x90) o
      = rd (localViolation s tag e low true lq who) o := rd_congr (hends.only.regs rfl) o
    _ = rd (bumpSat s (ptBase + 0x200C) 0 32) o := rd_congr ((append_only _ _).only.regs rfl) o
    _ = rd s o := bumpSat_regsBut _ _ _ _ _ o ho

theorem exec_semAdd_foreign {s : State} {e : Eng} {w : Fin 8} {lq : Nat} {i : Fin 512} {x : Wave}
    (hwave : waveAt s e w = some x) (hsem : semOf s (engPart s e) lq i = none) (n : Word) (c : Nat) :
    exec (.semAdd e w lq i n c) s = .next (endWork (localViolation (atAclk s c) (engPart s e) e (i % 512) true lq
      (whoWave (atAclk s c) e w)) e w 0x90) := by
  have hwave' : waveAt (atAclk s c) e w = some x := hwave
  have hsem' : semOf (atAclk s c) (engPart (atAclk s c) e) lq i = none := hsem
  show Host.Outcome.next (engSem s e w lq i c _) = _
  unfold engSem
  simp only [hwave', hsem']
  rfl

/-- In one cycle the ADDs act before the SUBs, whichever was issued first (R274). -/
theorem addsBeforeSubs {s : State} {sem : Nat} (hlt : sem < 8192) (hquiet : SemQuiet s sem) (a b : Nat) :
    semVal (semSub (semAdd s sem a) sem b) sem = min (2 ^ 32 - 1) (semVal s sem + a) - b ∧
    semVal (semAdd (semSub s sem b) sem a) sem = min (2 ^ 32 - 1) (semVal s sem + a) - b := by
  unfold semSub semAdd
  constructor
  · refine (semApply_twice hquiet hlt _ _ ?_).trans ?_
    · exact fun y => ⟨rfl, rfl⟩
    · show (min (semVal s sem + (0 + a)) (2 ^ 32 - 1) - (0 + b)) % 2 ^ 32 = _
      omega
  · refine (semApply_twice hquiet hlt _ _ ?_).trans ?_
    · exact fun y => ⟨rfl, rfl⟩
    · show (min (semVal s sem + (0 + a)) (2 ^ 32 - 1) - (0 + b)) % 2 ^ 32 = _
      omega

/-- Settles O20, clause by clause: an operation acts on its word alone, or joins the releases that wait. -/
theorem semaphoreOperations : Obligations.SemaphoreOperations := by
  unfold Obligations.SemaphoreOperations
  refine ⟨fun s e w lq i n c sem hwave hsem honce hquiet => ⟨?_, ?_⟩,
    fun s e w lq i k p c sem x hwave hsem honce hquiet => ?_,
    fun s e w lq i n k p c sem hwave hsem hbehind => ⟨?_, ?_, ?_⟩,
    fun s e w lq i n k c sem x hwave hsem => ⟨?_, ?_⟩, fun s e w lq i n c x hwave hstep hsem => ?_,
    fun s sem a b hlt hquiet => addsBeforeSubs hlt hquiet a b⟩
  · have hexec : exec (.semAdd e w lq i n c) s = .next (releaseIssue (atAclk s c) e (.add sem n.toNat)) :=
      congrArg Host.Outcome.next (engSem_eq hwave hsem)
    obtain ⟨hdoes, hval, hsat, hfit, hothers⟩ := semAdd_issued (atOnce_atAclk c honce) hquiet (semOf_lt hsem) n.toNat
    exact completes_of hexec ((does_atAclk s c (Does.refl _ s)).trans (hdoes.mono (Sub.of_eq rfl)))
      ⟨hdoes.only.now rfl, hval, hsat, hfit, hothers⟩
  · have hexec : exec (.semSub e w lq i n c) s = .next (releaseIssue (atAclk s c) e (.sub sem n.toNat)) :=
      congrArg Host.Outcome.next (engSem_eq hwave hsem)
    obtain ⟨hdoes, hval, hbut, hlog, hothers⟩ := semSub_issued (atOnce_atAclk c honce) hquiet (semOf_lt hsem) n.toNat
    exact completes_of hexec ((does_atAclk s c (Does.refl _ s)).trans (hdoes.mono (Sub.of_eq rfl)))
      ⟨hdoes.only.now rfl, hval, hbut, hlog, hothers⟩
  · have hexec : exec (.semArrive e w lq i k p c) s =
      .next (releaseIssue (atAclk s c) e (.arrive w sem k.toNat p.toNat)) :=
      congrArg Host.Outcome.next (engSem_eq (Option.isSome_of_eq_some hwave) hsem)
    obtain ⟨u, hissue, hclean, hwave', haclk, hothers⟩ := semArrive_issued (s := atAclk s c) hwave (atOnce_atAclk c honce)
      sem k.toNat p.toNat
    rw [hissue] at hexec
    have hquiet' : SemQuiet u sem := quiet_congr (hclean.only.semCycles rfl) haclk hquiet
    have hround : fld u (semOff sem) 16 16 = fld s (semOff sem) 16 16 := fld_congr (hclean.only.regs rfl) _ _ _
    obtain ⟨hcounts, hheld, hother⟩ := engArrive_cases hquiet' e w k.toNat p.toNat k.isLt
    have hdoes : Does (maskOf [.regs, .log, .msix, .engines, .semCycles, .jobs]) u
        (engArrive u e w sem (aclk u) k.toNat p.toNat) := does_engArrive _ _ _ _ _ _ _ (Does.refl _ u)
    refine completes_of hexec ((does_atAclk s c (Does.refl _ s)).trans
      ((hclean.mono (Sub.of_eq rfl)).trans (hdoes.mono (Sub.of_eq rfl))))
      ⟨(hdoes.only.now rfl).trans (hclean.only.now rfl), fun hk => ?_, fun hk => ?_, fun hk hk' => ?_, fun j hj => ?_⟩
    · obtain ⟨hbut, hlog, hval, hspin⟩ :=
        arriveCounted_facts hwave' hquiet' (semOf_lt hsem) (semPort e sem) k.toNat p.toNat
      obtain ⟨hlast, hmore⟩ := barCount_fields (rd_lt u (semOff sem)) (hround.trans hk) p.isLt
      rw [hcounts (hround.trans hk), hspin]
      have hcount : bits (rd u (semOff sem)) 0 16 = fld s (semOff sem) 0 16 := fld_congr (hclean.only.regs rfl) _ _ _
      rw [hcount] at hlast hmore
      refine ⟨regsBut_congr (hclean.only.regs rfl) hbut, hlog.trans (hclean.only.log rfl), fun h => hval.trans (hlast h),
        fun h => ?_, rfl⟩
      rw [fld, fld, show rd (setSpin (semArriveAt u sem (aclk u) (semPort e sem) k.toNat p.toNat) e w none) (semOff sem) = _
        from hval]
      exact hmore h
    · obtain ⟨hspins, hspin, hat, -⟩ := setSpin_facts hwave'
        (some { sem := sem, want := .arrive k.toNat p.toNat, issued := aclk u })
      rw [hheld (by rw [hround]; exact hk), hspin, hat]
      exact ⟨fun o _ => rd_congr ((hspins.only.regs rfl).trans (hclean.only.regs rfl)) o,
        (hspins.only.log rfl).trans (hclean.only.log rfl), rfl⟩
    · obtain ⟨hfaults, hseq, hends⟩ := arriveFaulted_facts hwave'
      rw [hother (by rw [hround]; exact hk) (by rw [hround]; exact hk')]
      refine ⟨fun o _ => rd_congr ((hfaults.only.regs rfl).trans (hclean.only.regs rfl)) o,
        hseq.trans (by rw [hclean.only.log rfl]; rfl), fun hstep => ?_⟩
      obtain ⟨hnone, hjob⟩ := hends hstep
      exact ⟨hnone, hjob.trans (congrArg _ (jobOf_congr (hclean.only.jobs rfl) _))⟩
    · exact (engArrive_other _ _ _ _ _ _ hj).trans (hothers j hj)
  · have hexec : exec (.semAdd e w lq i n c) s = .next (releaseIssue (atAclk s c) e (.add sem n.toNat)) :=
      congrArg Host.Outcome.next (engSem_eq hwave hsem)
    obtain ⟨hdoes, hreleases, hothers⟩ := releaseIssue_waits (s := atAclk s c) hbehind (.add sem n.toNat)
    exact completes_of hexec ((does_atAclk s c (Does.refl _ s)).trans (hdoes.mono (Sub.of_eq rfl))) ⟨hreleases, hothers⟩
  · have hexec : exec (.semSub e w lq i n c) s = .next (releaseIssue (atAclk s c) e (.sub sem n.toNat)) :=
      congrArg Host.Outcome.next (engSem_eq hwave hsem)
    obtain ⟨hdoes, hreleases, hothers⟩ := releaseIssue_waits (s := atAclk s c) hbehind (.sub sem n.toNat)
    exact completes_of hexec ((does_atAclk s c (Does.refl _ s)).trans (hdoes.mono (Sub.of_eq rfl))) ⟨hreleases, hothers⟩
  · have hexec : exec (.semArrive e w lq i k p c) s =
      .next (releaseIssue (atAclk s c) e (.arrive w sem k.toNat p.toNat)) := congrArg Host.Outcome.next (engSem_eq hwave hsem)
    obtain ⟨hdoes, hreleases, hothers⟩ := releaseIssue_waits (s := atAclk s c) hbehind (.arrive w sem k.toNat p.toNat)
    exact completes_of hexec ((does_atAclk s c (Does.refl _ s)).trans (hdoes.mono (Sub.of_eq rfl))) ⟨hreleases, hothers⟩
  · refine completes_of (exec_semWait hwave hsem n) ?_ ?_
    · split
      · exact does_flcAcquire _ _ (does_atAclk s c (Does.refl _ s))
      · exact does_setSpin _ _ _ _ (does_atAclk s c (Does.refl _ s))
    · by_cases hn : n.toNat = 0
      · rw [if_pos hn]
        obtain ⟨hkept, hacq, hothers⟩ := flcAcquire_facts (s := atAclk s c) hwave
        exact ⟨rfl, hothers, fun h => absurd (BitVec.eq_of_toNat_eq hn) h, fun _ => ⟨hkept, hacq⟩⟩
      · obtain ⟨hdoes, hspin, haclk, hothers⟩ := setSpin_facts (s := atAclk s c) hwave
          (some { sem := sem, want := .atLeast n.toNat, issued := aclk (atAclk s c) })
        rw [if_neg hn, haclk]
        exact ⟨hdoes.only.now rfl, hothers, fun _ => hspin, fun h => absurd (congrArg BitVec.toNat h) hn⟩
  · obtain ⟨hdoes, hspin, haclk, hothers⟩ := setSpin_facts (s := atAclk s c) hwave
      (some { sem := sem, want := .barrier k.toNat, issued := aclk (atAclk s c) })
    have hexec : exec (.semBarWait e w lq i k c) s = .next (setSpin (atAclk s c) e w
        (some { sem := sem, want := .barrier k.toNat, issued := aclk (atAclk s c) })) :=
      congrArg Host.Outcome.next (engSem_eq (Option.isSome_of_eq_some hwave) hsem)
    refine completes_of hexec (does_setSpin _ _ _ _ (does_atAclk s c (Does.refl _ s))) ?_
    rw [haclk]
    exact ⟨hdoes.only.now rfl, hothers, hspin⟩
  · obtain ⟨hdoes, hregs, hseq, hnone, hjob⟩ := foreignSem_facts (s := atAclk s c) hwave hstep (engPart s e) (i % 512) lq
      (whoWave (atAclk s c) e w)
    exact completes_of (exec_semAdd_foreign hwave hsem n c)
      ((does_atAclk s c (Does.refl _ s)).trans (hdoes.mono (Sub.of_eq rfl))) ⟨hregs, hseq, hnone, hjob⟩

end Sys2Proof.Machine

/-!
Replies to polls, and releases behind an engine's stores (R275, R279, R281, R283, R289, R291, R296, R299).
-/
namespace Sys2Proof.Machine

set_option Elab.async false

/-! ### Replies to polls (R275, R279) -/

/-- A met poll of a wave is an acquire, an unmet one is made again in the same cycle (R275, R111). -/
def pollOutcome (s : State) (e w : Nat) (sp : Spin) (met : Bool) : State :=
  if met then flcAcquire (setSpin s e w none) e else setSpin s e w (some { sp with issued := aclk s })

theorem engPollReply_atLeast {s : State} {e w : Nat} {x : Wave} {sp : Spin} {n : Nat} (hwave : waveAt s e w = some x)
    (hspin : x.spin = some sp) (hwant : sp.want = .atLeast n) (hdue : sp.issued + semLat s e sp.sem ≤ aclk s) :
    engPollReply s e w = pollOutcome s e w sp (decide (n ≤ pollRead s sp.sem (semLat s e sp.sem))) := by
  unfold engPollReply pollOutcome
  simp only [hwave, Option.bind_some, hspin, if_neg (Nat.not_lt.mpr hdue), hwant, decide_eq_true_eq]

theorem engPollReply_barrier {s : State} {e w : Nat} {x : Wave} {sp : Spin} {k : Nat} (hwave : waveAt s e w = some x)
    (hspin : x.spin = some sp) (hwant : sp.want = .barrier k) (hdue : sp.issued + semLat s e sp.sem ≤ aclk s) :
    engPollReply s e w = pollOutcome s e w sp (barMet (pollRead s sp.sem (semLat s e sp.sem)) k) := by
  unfold engPollReply pollOutcome
  simp only [hwave, Option.bind_some, hspin, if_neg (Nat.not_lt.mpr hdue), hwant]

theorem pollOutcome_facts {s : State} {e w : Nat} {x : Wave} (hwave : waveAt s e w = some x) (sp : Spin) (met : Bool) :
    Does (maskOf [.engines]) s (pollOutcome s e w sp met) ∧
    (∀ k, k ≠ e → eng (pollOutcome s e w sp met) k = eng s k) ∧
    waveAt (pollOutcome s e w sp met) e w =
      some { x with spin := if met then none else some { sp with issued := aclk s } } ∧
    (eng (pollOutcome s e w sp met) e).acq = (eng s e).acq + met.toNat := by
  unfold pollOutcome
  cases met with
  | true =>
    obtain ⟨hspin, hacq, hothers, hdoes⟩ := acq_facts hwave
    exact ⟨hdoes, hothers, hspin, hacq⟩
  | false =>
    obtain ⟨hdoes, hspin, -, hothers⟩ := setSpin_facts hwave (some { sp with issued := aclk s })
    exact ⟨hdoes, hothers, hspin, spin_acq _ _ _ _⟩

/-- The barrier is met from one round after the awaited one up to half the ring of rounds (R279). -/
theorem barMet_iff (v k : Nat) :
    barMet v k = true ↔ 1 ≤ (v / 2 ^ 16 % 2 ^ 16 + 2 ^ 16 - k % 2 ^ 16) % 2 ^ 16 ∧
      (v / 2 ^ 16 % 2 ^ 16 + 2 ^ 16 - k % 2 ^ 16) % 2 ^ 16 ≤ 32767 := by
  unfold barMet
  simp only [Bool.and_eq_true, Nat.ble_eq]
  rfl

theorem slotPollReply_atLeast {s : State} {n : Nat} {sp : Spin} {k : Nat} (hruns : feRuns s = true)
    (hspin : (slotOf s n).spin = some sp) (hwant : sp.want = .atLeast k) (hdue : sp.issued + semLatFe sp.sem ≤ aclk s) :
    slotPollReply s n = if k ≤ pollRead s sp.sem (semLatFe sp.sem) then waitMet s n
      else setSlot s n { slotOf s n with spin := some { sp with issued := aclk s } } := by
  unfold slotPollReply
  have hacts : ¬ (aclk s < sp.issued + semLatFe sp.sem ∨ (!feRuns s) = true) := by
    rw [hruns]
    simpa using hdue
  simp only [hspin, if_neg hacts, hwant]

/-! ### Fence signals of engines (R283, R287, R291) -/

theorem sendSignal_facts (s : State) (f : FSig) :
    ((fenceSlotOf s f.addr).isSome = true →
      (sendSignal s f).fsigs = s.fsigs ++ [f] ∧ (sendSignal s f).transits = s.transits) ∧
    (fenceSlotOf s f.addr = none → (sendSignal s f).fsigs = s.fsigs ∧ (sendSignal s f).transits = s.transits ++ [f]) := by
  unfold sendSignal
  refine ⟨fun h => ?_, fun h => ?_⟩
  · rw [if_pos h]
    exact ⟨rfl, rfl⟩
  · rw [if_neg (by rw [h]; decide)]
    exact ⟨rfl, rfl⟩

theorem exec_engineFenceSignal {s : State} {e : Eng} {w : Fin 8} {addr : Nat} (hwave : (waveAt s e w).isSome = true)
    (hok : writeFault s (engPart s e) (addr % 2 ^ 48 / 8 * 8) 8 = none) (v : Dword) :
    exec (.engineFenceSignal e w addr v) s = .next (releaseIssue s e
      (.fence (addr % 2 ^ 48 / 8 * 8) v.toNat (engPart s e) (whoWave s e w).queue)) := by
  obtain ⟨x, hx⟩ := Option.isSome_iff_exists.1 hwave
  show execEngineFenceSignal e w addr v s = _
  unfold execEngineFenceSignal
  simp only [hx, hok]

theorem exec_engineFenceSignal_fault {s : State} {e : Eng} {w : Fin 8} {addr b : Nat} {x : Wave}
    (hwave : waveAt s e w = some x) (hbad : writeFault s (engPart s e) (addr % 2 ^ 48 / 8 * 8) 8 = some b) (v : Dword) :
    exec (.engineFenceSignal e w addr v) s = .next (endWork (violation s (engPart s e) e b (whoWave s e w)) e w 0x90) := by
  show execEngineFenceSignal e w addr v s = _
  unfold execEngineFenceSignal
  simp only [hwave, hbad]

/-- The end of a wave's work for a write that its partition may not make (R310, R291). -/
theorem badWrite_facts {s : State} {e : Eng} {w : Fin 8} {x : Wave} (hwave : waveAt s e w = some x)
    (hstep : x.work ≠ .step) (tag b : Nat) (who : Who) :
    Does (maskOf [.regs, .log, .msix, .engines, .jobs]) s (endWork (violation s tag e b who) e w 0x90) ∧
    rd (endWork (violation s tag e b who) e w 0x90) (ptBase + 0x2010) = b % 2 ^ 32 / 8 * 8 + 1 ∧
    (endWork (violation s tag e b who) e w 0x90).log.seq = (s.log.seq + 1) % 2 ^ 32 ∧
    RegsBut [ptBase + 0x200C, ptBase + 0x2010, ptBase + 0x2014] s (endWork (violation s tag e b who) e w 0x90) ∧
    waveAt (endWork (violation s tag e b who) e w 0x90) e w = none ∧
    jobOf (endWork (violation s tag e b who) e w 0x90) x.job =
      (jobOf s x.job).map fun j => { j with err := if j.err = 0 then 0x90 else j.err } := by
  have hviol : Does (maskOf [.regs, .log, .msix]) s (violation s tag e b who) := does_violation _ _ _ _ _ (Does.refl _ s)
  have hends := endWork_only (violation s tag e b who) e w 0x90
  obtain ⟨hlow, hseq, hbut⟩ := violationAs_facts s tag e b (reqUnit e).1 (reqUnit e).2 who
  have hrd (o : Nat) : rd (endWork (violation s tag e b who) e w 0x90) o = rd (violation s tag e b who) o :=
    rd_congr (hends.only.regs rfl) o
  have hwave' : waveAt (violation s tag e b who) e w = some x := by
    rw [← hwave, waveAt, waveAt, eng_congr (hviol.only.engines rfl)]
  obtain ⟨hnone, hjob⟩ := endWork_job hwave' hstep 0x90
  exact ⟨does_endWork _ _ _ _ (hviol.mono (Sub.of_eq rfl)), (hrd _).trans hlow,
    (congrArg ErrLog.seq (hends.only.log rfl)).trans hseq, fun o ho => (hrd o).trans (hbut o ho), hnone,
    hjob.trans (congrArg _ (jobOf_congr (hviol.only.jobs rfl) _))⟩

/-! ### The oldest waiting release (R296) -/

theorem exec_releaseComplete {s : State} {e : Eng} {r : Release} {rs : List Release} (h : (eng s e).releases = r :: rs)
    (hstores : (eng s e).outstanding = 0) :
    exec (.releaseComplete e) s = .next (releaseApply (setEng s e { eng s e with releases := rs }) e r) := by
  show execReleaseComplete e s = _
  unfold execReleaseComplete
  simp only [h, hstores]
  rfl

theorem exec_releaseComplete_waits {s : State} {e : Eng} {r : Release} {rs : List Release}
    (h : (eng s e).releases = r :: rs) (hstores : (eng s e).outstanding ≠ 0) : exec (.releaseComplete e) s = .next s := by
  show execReleaseComplete e s = _
  unfold execReleaseComplete
  simp only [h]
  exact if_pos hstores

/-- Settles O21, clause by clause: a poll's reply by what it finds met, a release by whether stores are outstanding. -/
theorem pollsAndReleases : Obligations.PollsAndReleases := by
  unfold Obligations.PollsAndReleases
  refine ⟨fun s u w c x sp n hu hwave hspin hwant hdue => ?_, fun s u w c x sp k hu hwave hspin hwant hdue => ?_,
    fun s u w c sp n hu hruns hspin hwant hdue => ?_, fun s e k hspins => ?_,
    fun s e w addr v f hwave hok hf => ⟨fun honce => ?_, fun hbehind => ?_⟩, fun s e w addr b v x hwave hstep hbad => ?_,
    fun s e r rs hrel => ⟨exec_releaseComplete_waits hrel, fun sem n hstores hr hlt hquiet => ?_,
      fun sem n hstores hr hlt hquiet => ?_, fun a v tag q hstores hr => ?_⟩⟩
  · have hexec : exec (.semPollReply u w c) s = .next (pollOutcome (atAclk s c) u w sp
        (decide (n ≤ semAt s sp.sem (aclk (atAclk s c) - (semLat s u sp.sem - semLat s u sp.sem / 2))))) :=
      (if_pos hu).trans (congrArg Host.Outcome.next (engPollReply_atLeast (s := atAclk s c) hwave hspin hwant hdue))
    obtain ⟨hdoes, hothers, hwaves, hacq⟩ := pollOutcome_facts (s := atAclk s c) hwave sp
      (decide (n ≤ semAt s sp.sem (aclk (atAclk s c) - (semLat s u sp.sem - semLat s u sp.sem / 2))))
    refine completes_of hexec ((does_atAclk s c (Does.refl _ s)).trans (hdoes.mono (Sub.of_eq rfl))) ?_
    rw [ownAclk hdoes rfl rfl rfl rfl, hwaves, hacq]
    exact ⟨hdoes.only.now rfl, hothers, fun h => by rw [decide_eq_true h]; exact ⟨rfl, rfl⟩,
      fun h => by rw [decide_eq_false (Nat.not_le.mpr h)]; exact ⟨rfl, rfl⟩⟩
  · have hexec : exec (.semPollReply u w c) s = .next (pollOutcome (atAclk s c) u w sp
        (barMet (semAt s sp.sem (aclk (atAclk s c) - (semLat s u sp.sem - semLat s u sp.sem / 2))) k)) :=
      (if_pos hu).trans (congrArg Host.Outcome.next (engPollReply_barrier (s := atAclk s c) hwave hspin hwant hdue))
    obtain ⟨hdoes, hothers, hwaves, hacq⟩ := pollOutcome_facts (s := atAclk s c) hwave sp
      (barMet (semAt s sp.sem (aclk (atAclk s c) - (semLat s u sp.sem - semLat s u sp.sem / 2))) k)
    refine completes_of hexec ((does_atAclk s c (Does.refl _ s)).trans (hdoes.mono (Sub.of_eq rfl))) ?_
    rw [ownAclk hdoes rfl rfl rfl rfl, hwaves, hacq]
    have hmet := barMet_iff (semAt s sp.sem (aclk (atAclk s c) - (semLat s u sp.sem - semLat s u sp.sem / 2))) k
    refine ⟨hdoes.only.now rfl, hothers, fun h1 h2 => ?_, fun h => ?_⟩
    · rw [hmet.2 ⟨h1, h2⟩]
      exact ⟨rfl, rfl⟩
    · have hunmet : ¬ barMet (semAt s sp.sem (aclk (atAclk s c) - (semLat s u sp.sem - semLat s u sp.sem / 2))) k = true :=
        fun hm => by
          have := hmet.1 hm
          omega
      rw [Bool.eq_false_iff.2 hunmet]
      rfl
  · have hexec : exec (.semPollReply u w c) s = .next _ :=
      (if_neg (Nat.not_lt.mpr hu)).trans (congrArg Host.Outcome.next
        (slotPollReply_atLeast (s := atAclk s c) (n := u - 64) hruns hspin hwant hdue))
    have hread : pollRead (atAclk s c) sp.sem (semLatFe sp.sem) =
      semAt s sp.sem (aclk (atAclk s c) - (semLatFe sp.sem - semLatFe sp.sem / 2)) := rfl
    rw [hread] at hexec
    by_cases hmet : n ≤ semAt s sp.sem (aclk (atAclk s c) - (semLatFe sp.sem - semLatFe sp.sem / 2))
    · rw [if_pos hmet] at hexec
      have hdoes : Does (maskOf [.queues, .slots, .jobs]) (atAclk s c) (waitMet (atAclk s c) (u - 64)) :=
        does_waitMet _ _ (Does.refl _ _)
      obtain ⟨hslot, hothers, hended⟩ := waitMet_slot (atAclk s c) (u - 64)
      refine completes_of hexec (does_waitMet _ _ (does_atAclk s c (Does.refl _ s))) ?_
      rw [ownAclk hdoes rfl rfl rfl rfl]
      exact ⟨hdoes.only.now rfl, hothers, fun _ => ⟨hslot, fun j h1 h2 h3 => (hended j h1 h2 h3).congr rfl rfl rfl rfl⟩,
        fun h => absurd hmet (Nat.not_le.mpr h)⟩
    · rw [if_neg hmet] at hexec
      exact completes_of hexec (does_setSlot _ _ _ (does_atAclk s c (Does.refl _ s)))
        ⟨rfl, fun k hk => (slotOf_setSlot _ _ _ _).trans (if_neg hk), fun h => absurd h hmet,
          fun _ => ⟨slotOf_setSlot_self _ _ _, rfl, rfl⟩⟩
  · have hexec : exec (.spinPrescaler e k) s = .next (bump
        (setEng s e { eng s e with spinCycles := ((eng s e).spinCycles + k) % 1024 }) (synBase + 0x9000 + 4 * e)
        (((eng s e).spinCycles + k) / 1024)) := if_pos hspins
    exact completes_of hexec (does_bump _ _ _ (does_setEng _ _ _ (Does.refl _ s)))
      ⟨eng_setEng_self _ _ _, rd_wr_self _ _ _, bump_regsBut _ _ _, fun j hj => eng_setEng_other _ hj _⟩
  · obtain ⟨u, hissue, hclean, -, hothers⟩ := releaseIssue_now honce
      (.fence (addr % 2 ^ 48 / 8 * 8) v.toNat (engPart s e) (whoWave s e w).queue)
    have hexec := exec_engineFenceSignal hwave hok v
    have happly : releaseApply u e (.fence (addr % 2 ^ 48 / 8 * 8) v.toNat (engPart s e) (whoWave s e w).queue) =
      sendSignal u f := by rw [hf]; rfl
    rw [hissue, happly] at hexec
    have hsends : Does (maskOf [.fsigs, .transits]) u (sendSignal u f) := does_sendSignal _ _ (Does.refl _ u)
    obtain ⟨hresident, hgone⟩ := sendSignal_facts u f
    rw [fenceSlotOf_same (hclean.only.fslots rfl), hclean.only.fsigs rfl, hclean.only.transits rfl] at hresident hgone
    exact completes_of hexec ((hclean.mono (Sub.of_eq rfl)).trans (hsends.mono (Sub.of_eq rfl)))
      ⟨hresident, hgone, fun j hj => (eng_congr (hsends.only.engines rfl) j).trans (hothers j hj)⟩
  · obtain ⟨hdoes, hreleases, hothers⟩ := releaseIssue_waits hbehind
      (.fence (addr % 2 ^ 48 / 8 * 8) v.toNat (engPart s e) (whoWave s e w).queue)
    refine completes_of (exec_engineFenceSignal hwave hok v) hdoes ⟨?_, hothers⟩
    rw [hreleases, hf]
  · obtain ⟨hdoes, hlow, hseq, hbut, hnone, hjob⟩ := badWrite_facts hwave hstep (engPart s e) b (whoWave s e w)
    exact completes_of (exec_engineFenceSignal_fault hwave hbad v) hdoes ⟨hlow, hseq, hbut, hnone, hjob⟩
  · subst hr
    have hop : Does (maskOf [.regs, .log, .msix, .semCycles]) _ (semAdd (setEng s e { eng s e with releases := rs }) sem n) :=
      does_semAdd _ _ _ (Does.refl _ _)
    obtain ⟨hval, hbut, -⟩ := semAdd_word (s := setEng s e { eng s e with releases := rs }) hquiet hlt n
    refine completes_of (exec_releaseComplete hrel hstores) (does_semAdd _ _ _ (does_setEng _ _ _ (Does.refl _ s)))
      ⟨(eng_congr (hop.only.engines rfl) _).trans (eng_setEng_self _ _ _), hval, hbut,
        fun j hj => (eng_congr (hop.only.engines rfl) j).trans (eng_setEng_other _ hj _)⟩
  · subst hr
    have hop : Does (maskOf [.regs, .log, .msix, .semCycles]) _ (semSub (setEng s e { eng s e with releases := rs }) sem n) :=
      does_semSub _ _ _ (Does.refl _ _)
    obtain ⟨hval, hbut, hlog⟩ := semSub_word (s := setEng s e { eng s e with releases := rs }) hquiet hlt n
    refine completes_of (exec_releaseComplete hrel hstores) (does_semSub _ _ _ (does_setEng _ _ _ (Does.refl _ s)))
      ⟨(eng_congr (hop.only.engines rfl) _).trans (eng_setEng_self _ _ _), hval, hbut, hlog,
        fun j hj => (eng_congr (hop.only.engines rfl) j).trans (eng_setEng_other _ hj _)⟩
  · subst hr
    have hop : Does (maskOf [.fsigs, .transits]) _ (sendSignal (setEng s e { eng s e with releases := rs })
        { addr := a, value := v, tag := tag, req := e, queue := q }) := does_sendSignal _ _ (Does.refl _ _)
    obtain ⟨hresident, hgone⟩ := sendSignal_facts (setEng s e { eng s e with releases := rs })
      { addr := a, value := v, tag := tag, req := e, queue := q }
    refine completes_of (exec_releaseComplete hrel hstores) (does_sendSignal _ _ (does_setEng _ _ _ (Does.refl _ s)))
      ⟨(eng_congr (hop.only.engines rfl) _).trans (eng_setEng_self _ _ _), ?_,
        fun j hj => (eng_congr (hop.only.engines rfl) j).trans (eng_setEng_other _ hj _)⟩
    rcases hslot : fenceSlotOf s a with - | k
    · obtain ⟨hsigs, htransits⟩ := hgone hslot
      exact congrArg₂ (· ++ ·) hsigs htransits
    · obtain ⟨hsigs, htransits⟩ := hresident (Option.isSome_of_eq_some hslot)
      exact congrArg₂ (· ++ ·) hsigs htransits

end Sys2Proof.Machine

/-!
The fence unit: signals, transits and page-ins (R282, R283, R286, R287, R289, R573).
-/
namespace Sys2Proof.Machine

set_option Elab.async false

/-! ### Signals to fences in slots (R282) -/

/-- The slot of a fence whose value a signal raises, and the fence word (R282). -/
def fenceRaised (s : State) (k : Nat) (f : FSig) : State :=
  let t := setFslot (fslotUse s k) k { fslot (fslotUse s k) k with value := f.value }
  { t with hbm := t.hbm.writeBytes f.addr (leBytes 8 f.value) }

theorem signalSlot_raise {s : State} {k : Nat} {f : FSig} (hraise : (fslot s k).value < f.value) (h8 : f.addr % 8 = 0)
    (hhost : isHost f.addr = false) (hok : writeFault s f.tag f.addr 8 = none) :
    signalSlot s k f = fenceWake (fenceRaised s k f) k := by
  have hregs : (setFslot (fslotUse s k) k { fslot (fslotUse s k) k with value := f.value }).regs = s.regs := rfl
  unfold signalSlot fenceRaised
  simp only [if_pos hraise]
  rw [devWrite_all (by rw [leBytes_length]; exact host8 hhost h8) (by rw [leBytes_length, writeFault_same hregs]; exact hok)]

theorem signalSlot_lower {s : State} {k : Nat} {f : FSig} (h : f.value < (fslot s k).value) :
    signalSlot s k f = regressRecord (setFslot (fslotUse s k) k { fslot (fslotUse s k) k with regress := true }) f
      (fslot s k).value := by
  unfold signalSlot
  simp only [if_neg (Nat.lt_asymm h), if_pos h]

theorem signalSlot_equal {s : State} {k : Nat} {f : FSig} (h : f.value = (fslot s k).value) :
    signalSlot s k f = fslotUse s k := by
  unfold signalSlot
  simp only [h, Nat.lt_irrefl, if_false]

theorem exec_fenceSignalApply {s : State} {f : FSig} {r : List FSig} {k : Nat} (hsigs : s.fsigs = f :: r)
    (hslot : fenceSlotOf s f.addr = some k) (hready : fslotReady s k = true) :
    exec .fenceSignalApply s = .next (fenceSettle (signalSlot { s with fsigs := r } k f)
      (signalSlot { s with fsigs := r } k f).fwaiting.length) := by
  have htake : readySignal s s.fsigs = some (f, k, r) := by
    rw [hsigs]
    unfold readySignal
    simp only [hslot, hready, if_true]
  show execFenceSignalApply s = _
  unfold execFenceSignalApply
  simp only [htake]

theorem fenceRaised_facts (s : State) (k : Nat) (f : FSig) :
    fslot (fenceRaised s k f) k = { fslot s k with used := s.fclock + 1, value := f.value } ∧
    (∀ j, j ≠ k → fslot (fenceRaised s k f) j = fslot s j) ∧
    (fenceRaised s k f).hbm = s.hbm.writeBytes f.addr (leBytes 8 f.value) ∧
    Does (maskOf [.hbm, .fslots, .fclock]) s (fenceRaised s k f) := by
  obtain ⟨hused, hothers, hdoes⟩ := fslotUse_fslot s k
  refine ⟨?_, fun j hj => ?_, rfl, ?_⟩
  · exact (fslot_setFslot_self _ _ _).trans (by rw [hused])
  · exact (fslot_setFslot _ _ _ _).trans ((if_neg hj).trans (hothers j hj))
  · have hset : Does (maskOf [.hbm, .fslots, .fclock]) s
        (setFslot (fslotUse s k) k { fslot (fslotUse s k) k with value := f.value }) :=
      does_setFslot _ _ _ (hdoes.mono (Sub.of_eq rfl))
    exact hset.updHbm rfl (Mem.wf_writeBytes _ _ _)

/-- The fence's slot is flagged when a signal is below its value (R282). -/
theorem signalLowered_facts (s : State) (k : Nat) (f : FSig) :
    let t := regressRecord (setFslot (fslotUse s k) k { fslot (fslotUse s k) k with regress := true }) f (fslot s k).value
    fslot t k = { fslot s k with used := s.fclock + 1, regress := true } ∧ (∀ j, j ≠ k → fslot t j = fslot s j) ∧
    t.log.seq = (s.log.seq + 1) % 2 ^ 32 ∧ (s.log.recs.length < 2048 → (t.log.recs.getLast?.map (·.code)) =
      some (if (fslot s k).value = 2 ^ 64 - 1 then 0x81 else 0x80)) ∧
    Does (maskOf [.log, .msix, .fslots, .fclock]) s t := by
  obtain ⟨hused, hothers, hdoes⟩ := fslotUse_fslot s k
  have hset : Does (maskOf [.fslots, .fclock]) s (setFslot (fslotUse s k) k { fslot (fslotUse s k) k with regress := true }) :=
    does_setFslot _ _ _ hdoes
  intro t
  have hrec : Does (maskOf [.log, .msix]) (setFslot (fslotUse s k) k { fslot (fslotUse s k) k with regress := true }) t :=
    append_only _ _
  refine ⟨?_, fun j hj => ?_, (append_seq _ _).trans (by rw [hset.only.log rfl]), fun hroom => ?_,
    (hset.mono (Sub.of_eq rfl)).trans (hrec.mono (Sub.of_eq rfl))⟩
  · rw [fslot_congr (hrec.only.fslots rfl), fslot_setFslot_self, hused]
  · rw [fslot_congr (hrec.only.fslots rfl), fslot_setFslot, if_neg hj, hothers j hj]
  · exact congrArg (Option.map (·.code)) (append_last _ (by rw [hset.only.log rfl]; exact hroom))

/-- What a signal leaves of the fences (R282, R289). -/
theorem signalSlot_facts {s : State} {f : FSig} (k : Nat) (h8 : f.addr % 8 = 0) (hhost : isHost f.addr = false)
    (hok : writeFault s f.tag f.addr 8 = none) :
    ((fslot s k).value < f.value → (signalSlot s k f).hbm = s.hbm.writeBytes f.addr (leBytes 8 f.value) ∧
      (signalSlot s k f).log = s.log ∧ (fslot (signalSlot s k f) k).value = f.value ∧
      (feRuns s = true → (∀ w ∈ (fslot (signalSlot s k f) k).waiters, f.value < w.2) ∧
        ∀ w ∈ (fslot s k).waiters, w.2 ≤ f.value → (slotOf (signalSlot s k f) w.1).mode = .fetching)) ∧
    (f.value < (fslot s k).value → (signalSlot s k f).hbm = s.hbm ∧
      (signalSlot s k f).log.seq = (s.log.seq + 1) % 2 ^ 32 ∧
      (s.log.recs.length < 2048 → ((signalSlot s k f).log.recs.getLast?.map (·.code)) =
        some (if (fslot s k).value = 2 ^ 64 - 1 then 0x81 else 0x80)) ∧
      (fslot (signalSlot s k f) k).value = (fslot s k).value ∧ (fslot (signalSlot s k f) k).regress = true) ∧
    (f.value = (fslot s k).value → (signalSlot s k f).hbm = s.hbm ∧ (signalSlot s k f).log = s.log) ∧
    ∀ j, j ≠ k → fslot (signalSlot s k f) j = fslot s j := by
  obtain ⟨hslot, hothers, hhbm, hraised⟩ := fenceRaised_facts s k f
  obtain ⟨hvalue, hkept, hwoken⟩ := fenceWake_slot (fenceRaised s k f) k
  have hwake : Does (maskOf [.fslots, .queues, .slots, .jobs]) (fenceRaised s k f) (fenceWake (fenceRaised s k f) k) :=
    does_fenceWake _ k (Does.refl _ _)
  obtain ⟨hlow, hlowKept, hseq, hcode, hlowered⟩ := signalLowered_facts s k f
  obtain ⟨-, husedKept, hused⟩ := fslotUse_fslot s k
  rw [hslot] at hvalue hwoken
  refine ⟨fun h => ?_, fun h => ?_, fun h => ?_, fun j hj => ?_⟩
  · rw [signalSlot_raise h h8 hhost hok]
    exact ⟨(hwake.only.hbm rfl).trans hhbm, (hwake.only.log rfl).trans (hraised.only.log rfl), hvalue, fun hruns =>
      hwoken hruns⟩
  · rw [signalSlot_lower h]
    exact ⟨hlowered.only.hbm rfl, hseq, hcode, by rw [hlow], by rw [hlow]⟩
  · rw [signalSlot_equal h]
    exact ⟨hused.only.hbm rfl, hused.only.log rfl⟩
  · rcases Nat.lt_trichotomy (fslot s k).value f.value with h | h | h
    · rw [signalSlot_raise h h8 hhost hok]
      exact (hkept j hj).trans (hothers j hj)
    · rw [signalSlot_equal h.symm]
      exact husedKept j hj
    · rw [signalSlot_lower h]
      exact hlowKept j hj

/-- A word that cannot be corrected is recorded at its controller (R327). -/
theorem mcEcc_uncorrectable (s : State) (a : Nat) : Does (maskOf [.regs]) s (mcEcc s a .uncorrectable) := by
  unfold mcEcc
  dsimp only
  split
  · exact Does.refl _ s
  · exact does_mcErrReg _ _ _ (Does.refl _ s)

/-! ### The transit unit (R287) -/

/-- The signal that the transit unit takes is counted (R287). -/
def transitTaken (s : State) (r : List FSig) : State := bump { s with transits := r } (synBase + 0x8808)

theorem transitTaken_facts (s : State) (r : List FSig) :
    (transitTaken s r).transits = r ∧ (transitTaken s r).hbm = s.hbm ∧ (transitTaken s r).log = s.log ∧
    rd (transitTaken s r) (synBase + 0x8808) = (rd s (synBase + 0x8808) + 1) % 2 ^ 32 ∧
    RegsBut [synBase + 0x8808] s (transitTaken s r) ∧ Does (maskOf [.regs, .transits]) s (transitTaken s r) :=
  ⟨rfl, rfl, rfl, rd_wr_self _ _ _, bump_regsBut _ _ _, does_bump _ _ _ ((Does.refl _ s).updTransits rfl)⟩

/-- What may be written does not depend on the count of transits, which stands beyond the partition table. -/
theorem transitTaken_writable (s : State) (r : List FSig) {tag a : Nat} (n : Nat) (ht : tag < 16) (hhost : isHost a = false) :
    writable (transitTaken s r) tag a n = writable s tag a n := by
  refine writable_regs ht hhost fun o ho => bump_regsBut _ _ _ o ?_
  unfold mcBase at ho
  unfold synBase
  simp only [List.mem_cons, List.not_mem_nil, or_false]
  omega

theorem exec_transitSignal {s : State} {f : FSig} {r : List FSig} (h : s.transits = f :: r) :
    exec (.transitSignal .ok) s = .next (
      if devNat (transitTaken s r) f.tag f.addr 8 < f.value then
        devWrite (transitTaken s r) f.tag f.addr (leBytes 8 f.value)
      else if f.value < devNat (transitTaken s r) f.tag f.addr 8 then
        regressRecord (transitTaken s r) f (devNat (transitTaken s r) f.tag f.addr 8)
      else transitTaken s r) := by
  show execTransitSignal .ok s = _
  unfold execTransitSignal
  simp only [h, mcEcc_ok, reduceCtorEq, if_false]
  rw [apply_ite Host.Outcome.next, apply_ite Host.Outcome.next]
  rfl

/-- The record of a fence word that cannot be corrected (R287, R573). -/
def transitLost (f : FSig) (s : State) : Rep :=
  { code := 0x92, tag := f.tag, kind := 8, queue := f.queue, owner := (f.queue.map fun q => (que s q).owner).getD 0,
    detail := two f.addr }

theorem exec_transitSignal_lost {s : State} {f : FSig} {r : List FSig} (h : s.transits = f :: r) :
    exec (.transitSignal .uncorrectable) s = .next (append (mcEcc (transitTaken s r) f.addr .uncorrectable)
      (transitLost f (mcEcc (transitTaken s r) f.addr .uncorrectable))) := by
  show execTransitSignal .uncorrectable s = _
  unfold execTransitSignal
  simp only [h]
  rfl

/-! ### Page-ins (R286, R289) -/

/-- A page-in that is being served leaves the list. -/
def pageTaken (s : State) (p : PageIn) : State := { s with pageIns := s.pageIns.filter fun x => x != p }

theorem exec_fencePageIn {s : State} {n : Slot} {p : PageIn} (hfind : (s.pageIns.find? fun p => p.slot == n.val) = some p)
    (hruns : feRuns s = true) (hquiet : (s.transits.any fun f => f.addr == p.addr) = false) (hinto : p.into = none) :
    exec (.fencePageIn n .ok) s = .next (if p.value ≤ devNat (pageTaken s p) p.part p.addr 8 then
      waitMet (pageTaken s p) n else waitSlot (pageTaken s p) p) := by
  show execFencePageIn n .ok s = _
  unfold execFencePageIn
  simp only [hfind, hruns, hquiet, hinto, mcEcc_ok, reduceCtorEq, if_false, Bool.not_true, Bool.or_false, Bool.false_eq_true]
  rw [apply_ite Host.Outcome.next]
  rfl

theorem exec_fencePageIn_into {s : State} {n : Slot} {p : PageIn} {k : Nat}
    (hfind : (s.pageIns.find? fun p => p.slot == n.val) = some p) (hruns : feRuns s = true)
    (hquiet : (s.transits.any fun f => f.addr == p.addr) = false) (hinto : p.into = some k) (hwait : s.fwaiting = []) :
    exec (.fencePageIn n .ok) s = .next (fenceWake (bump (setFslot (pageTaken s p) k
      { fslot (pageTaken s p) k with value := devNat (pageTaken s p) p.part p.addr 8 }) (synBase + 0x8804)) k) := by
  have hnone : (fenceWake (bump (setFslot (pageTaken s p) k
      { fslot (pageTaken s p) k with value := devNat (pageTaken s p) p.part p.addr 8 }) (synBase + 0x8804)) k).fwaiting = [] :=
    ((does_fenceWake (msk := maskOf [.fslots, .queues, .slots, .jobs]) _ k (Does.refl _ _)).only.fwaiting rfl).trans hwait
  show execFencePageIn n .ok s = _
  unfold execFencePageIn
  simp only [hfind, hruns, hquiet, hinto, mcEcc_ok, reduceCtorEq, if_false, Bool.not_true, Bool.or_false, Bool.false_eq_true]
  exact congrArg Host.Outcome.next (fenceSettle_none hnone _)

/-- A wait whose fence is in no slot takes one and has its word read again, or queues (R286). -/
theorem waitSlot_absent {s : State} {p : PageIn} (hgone : fenceSlotOf s p.addr = none) :
    (∀ k, fslotTake s = some k → waitSlot s p = pageInto s p k) ∧
    (fslotTake s = none → waitSlot s p = { s with fwaiting := s.fwaiting ++ [p] }) := by
  unfold waitSlot
  refine ⟨fun k hk => ?_, fun hnone => ?_⟩
  · simp only [hgone, hk]
  · simp only [hgone, hnone]

theorem pageInto_facts (s : State) (p : PageIn) (k : Nat) :
    (fslot (pageInto s p k) k).valid = true ∧ (fslot (pageInto s p k) k).addr = p.addr ∧
    (fslot (pageInto s p k) k).waiters = [(p.slot, p.value)] ∧
    (pageInto s p k).pageIns = s.pageIns ++ [{ p with into := some k }] ∧
    ∀ j, j ≠ k → fslot (pageInto s p k) j = fslot s j := by
  have hself : fslot (pageInto s p k) k = { fslot (setFslot s k
      { valid := true, addr := p.addr, part := p.part, waiters := [(p.slot, p.value)] }) k with used := s.fclock + 1 } :=
    fslot_setFslot_self _ _ _
  rw [fslot_setFslot_self] at hself
  rw [hself]
  refine ⟨rfl, rfl, rfl, rfl, fun j hj => ((fslotUse_fslot _ k).2.1 j hj).trans ?_⟩
  exact (fslot_setFslot s k j { valid := true, addr := p.addr, part := p.part, waiters := [(p.slot, p.value)] }).trans
    (if_neg hj)

/-- The fence word that was read into its slot, before the waits that it meets resume (R286). -/
def pagedIn (s : State) (p : PageIn) (k v : Nat) : State :=
  bump (setFslot (pageTaken s p) k { fslot (pageTaken s p) k with value := v }) (synBase + 0x8804)

theorem pagedIn_facts (s : State) (p : PageIn) (k v : Nat) :
    fslot (pagedIn s p k v) k = { fslot s k with value := v } ∧ (∀ j, j ≠ k → fslot (pagedIn s p k v) j = fslot s j) ∧
    (pagedIn s p k v).pageIns = s.pageIns.filter (· != p) ∧ feRuns (pagedIn s p k v) = feRuns s ∧
    rd (pagedIn s p k v) (synBase + 0x8804) = (rd s (synBase + 0x8804) + 1) % 2 ^ 32 ∧
    RegsBut [synBase + 0x8804] s (pagedIn s p k v) ∧
    Does (maskOf [.regs, .fslots, .pageIns]) s (pagedIn s p k v) := by
  refine ⟨fslot_setFslot_self _ _ _, fun j hj => (fslot_setFslot _ _ _ _).trans (if_neg hj), rfl, ?_, rd_wr_self _ _ _,
    bump_regsBut _ _ _, does_bump _ _ _ (does_setFslot _ _ _ ((Does.refl _ s).updPageIns rfl))⟩
  have hpower : rd (pagedIn s p k v) pwrBase = rd s pwrBase := bump_regsBut _ _ _ pwrBase (by decide)
  rw [feRuns, feRuns, fld_congr' hpower]

/-- A fence word that cannot be corrected frees its slot, and every wait on it faults (R286, R573). -/
def pageLost (s : State) (p : PageIn) (k : Nat) : State :=
  ((fslot (mcEcc (pageTaken s p) p.addr .uncorrectable) k).waiters.map (·.1)).foldl (fun t m => waitFault t m 0x92 0x08)
    (setFslot (mcEcc (pageTaken s p) p.addr .uncorrectable) k {})

theorem exec_fencePageIn_lost {s : State} {n : Slot} {p : PageIn} {k : Nat}
    (hfind : (s.pageIns.find? fun p => p.slot == n.val) = some p) (hruns : feRuns s = true)
    (hquiet : (s.transits.any fun f => f.addr == p.addr) = false) (hinto : p.into = some k) :
    exec (.fencePageIn n .uncorrectable) s = .next (fenceSettle (pageLost s p k) (pageLost s p k).fwaiting.length) := by
  show execFencePageIn n .uncorrectable s = _
  unfold execFencePageIn
  simp only [hfind, hruns, hquiet, hinto, if_true, Bool.not_true, Bool.or_false, Bool.false_eq_true, if_false]
  rfl

theorem pageLost_facts (s : State) (p : PageIn) (k : Nat) :
    fslot (pageLost s p k) k = {} ∧ (∀ j, j ≠ k → fslot (pageLost s p k) j = fslot s j) ∧
    (pageLost s p k).fwaiting = s.fwaiting := by
  have hecc := mcEcc_uncorrectable (pageTaken s p) p.addr
  have hfaults : Does (maskOf [.regs, .log, .msix, .queues, .slots, .jobs])
      (setFslot (mcEcc (pageTaken s p) p.addr .uncorrectable) k {}) (pageLost s p k) :=
    does_foldl _ _ (Does.refl _ _) fun _ _ h => does_waitFault _ _ _ _ h
  refine ⟨?_, fun j hj => ?_, (hfaults.only.fwaiting rfl).trans (hecc.only.fwaiting rfl)⟩
  · rw [fslot_congr (hfaults.only.fslots rfl), fslot_setFslot_self]
  · rw [fslot_congr (hfaults.only.fslots rfl), fslot_setFslot, if_neg hj, fslot_congr (hecc.only.fslots rfl)]
    rfl

/-- Settles O22, clause by clause from the `exec_` equation of each command and the facts about the fence slots. -/
theorem fenceUnit : Obligations.FenceUnit := by
  unfold Obligations.FenceUnit
  refine ⟨fun s f r k hsigs hslot hready h8 hhost hok => ?_, fun s f r htransits htag h8 hhost hok => ⟨?_, ?_⟩,
    fun s n p hfind hslot hruns hquiet hinto => ?_, fun s n p k hfind hruns hquiet hinto hwait => ⟨?_, ?_⟩⟩
  · have hexec := exec_fenceSignalApply hsigs hslot hready
    generalize hv : signalSlot { s with fsigs := r } k f = v at hexec
    have hsignal : Does (maskOf [.log, .msix, .sent, .hbm, .host, .fslots, .fclock, .queues, .slots, .jobs])
      { s with fsigs := r } v := hv ▸ does_signalSlot _ _ _ (Does.refl _ _)
    have hwaiting : v.fwaiting = s.fwaiting := hsignal.only.fwaiting rfl
    have hsettle : Does (maskOf [.fslots, .fclock, .fwaiting, .pageIns, .queues, .slots, .jobs]) v
      (fenceSettle v v.fwaiting.length) := does_fenceSettle _ _ (Does.refl _ v)
    have hsettled (h : s.fwaiting = []) : fenceSettle v v.fwaiting.length = v := fenceSettle_none (hwaiting.trans h) _
    obtain ⟨hraise, hlower, hequal, hothers⟩ := hv ▸ signalSlot_facts (s := { s with fsigs := r }) k h8 hhost
      ((writeFault_same rfl _ _ _).trans hok)
    refine completes_out hexec (does_execFenceSignalApply s (Does.refl _ s)) ⟨(hsettle.only.fsigs rfl).trans (hsignal.only.fsigs rfl),
      fun hval => ?_, fun hval => ?_, fun hval => ?_, fun hempty j hj => ?_⟩
    · obtain ⟨hhbm, hlog, hvalue, hwoken⟩ := hraise hval
      refine ⟨stored_writeBytes ((hsettle.only.hbm rfl).trans hhbm), (hsettle.only.log rfl).trans hlog, fun hempty => ?_⟩
      rw [hsettled hempty]
      exact ⟨hvalue, hwoken⟩
    · obtain ⟨hhbm, hseq, hcode, hvalue, hregress⟩ := hlower hval
      rw [hsettle.only.log rfl]
      refine ⟨(hsettle.only.hbm rfl).trans hhbm, hseq, hcode, fun hempty => ?_⟩
      rw [hsettled hempty]
      exact ⟨hvalue, hregress⟩
    · obtain ⟨hhbm, hlog⟩ := hequal hval
      exact ⟨(hsettle.only.hbm rfl).trans hhbm, (hsettle.only.log rfl).trans hlog⟩
    · rw [hsettled hempty]
      exact hothers j hj
  · obtain ⟨htaken, hhbm, hlog, hcount, hbut, htakes⟩ := transitTaken_facts s r
    have hword : devNat (transitTaken s r) f.tag f.addr 8 = devNat s f.tag f.addr 8 :=
      devNat_congr hhbm f.tag f.addr 8 (host8 hhost h8)
    have hstore : devWrite (transitTaken s r) f.tag f.addr (leBytes 8 f.value) =
        { transitTaken s r with hbm := (transitTaken s r).hbm.writeBytes f.addr (leBytes 8 f.value) } :=
      devWrite_one (by rw [leBytes_length]; decide) (by rw [leBytes_length]; omega) hhost (by
        rw [leBytes_length, transitTaken_writable _ _ _ htag hhost]
        exact writable_of_fault (by decide) (by omega) hok)
    have hexec := exec_transitSignal htransits
    rw [hword, hstore] at hexec
    rcases Nat.lt_trichotomy (devNat s f.tag f.addr 8) f.value with h | h | h
    · rw [if_pos h] at hexec
      refine completes_of hexec ((htakes.mono (Sub.of_eq rfl)).updHbm rfl (Mem.wf_writeBytes _ _ _))
        ⟨htaken, hcount, hbut, fun _ => ⟨stored_writeBytes (by rw [hhbm]), hlog⟩, fun h' => absurd h' (Nat.lt_asymm h),
          fun h' => absurd h (Nat.lt_irrefl _ <| h' ▸ ·)⟩
    · rw [if_neg (by omega), if_neg (by omega)] at hexec
      exact completes_of hexec (htakes.mono (Sub.of_eq rfl)) ⟨htaken, hcount, hbut, fun h' => by omega, fun h' => by omega,
        fun _ => ⟨hhbm, hlog⟩⟩
    · rw [if_neg (Nat.lt_asymm h), if_pos h] at hexec
      have hrec : Does (maskOf [.log, .msix]) (transitTaken s r)
        (regressRecord (transitTaken s r) f (devNat s f.tag f.addr 8)) := append_only _ _
      exact completes_of hexec ((htakes.mono (Sub.of_eq rfl)).trans (hrec.mono (Sub.of_eq rfl)))
        ⟨(hrec.only.transits rfl).trans htaken, (rd_congr (hrec.only.regs rfl) _).trans hcount,
          fun o ho => (rd_congr (hrec.only.regs rfl) o).trans (hbut o ho), fun h' => by omega,
          fun _ => ⟨(hrec.only.hbm rfl).trans hhbm, (append_seq _ _).trans (by rw [hlog])⟩, fun h' => by omega⟩
  · obtain ⟨htaken, -, hlog, -, -, htakes⟩ := transitTaken_facts s r
    have hecc := mcEcc_uncorrectable (transitTaken s r) f.addr
    have hrec := append_only (mcEcc (transitTaken s r) f.addr .uncorrectable)
      (transitLost f (mcEcc (transitTaken s r) f.addr .uncorrectable))
    exact completes_of (exec_transitSignal_lost htransits)
      ((htakes.mono (Sub.of_eq rfl)).trans ((hecc.mono (Sub.of_eq rfl)).trans (hrec.mono (Sub.of_eq rfl))))
      ⟨(hrec.only.transits rfl).trans ((hecc.only.transits rfl).trans htaken),
        (append_seq _ _).trans (by rw [hecc.only.log rfl, hlog]),
        (hrec.only.fslots rfl).trans ((hecc.only.fslots rfl).trans (htakes.only.fslots rfl))⟩
  · have hexec := exec_fencePageIn hfind hruns hquiet hinto
    have hword : devNat (pageTaken s p) p.part p.addr 8 = devNat s p.part p.addr 8 := rfl
    rw [hword] at hexec
    by_cases hmet : p.value ≤ devNat s p.part p.addr 8
    · rw [if_pos hmet] at hexec
      have hwake : Does (maskOf [.queues, .slots, .jobs]) (pageTaken s p) (waitMet (pageTaken s p) n) :=
        does_waitMet _ _ (Does.refl _ _)
      refine completes_of hexec (does_waitMet _ _ ((Does.refl _ s).updPageIns rfl)) ⟨fun _ => ⟨?_, hwake.only.fslots rfl,
        hwake.only.pageIns rfl⟩, fun h => absurd hmet (Nat.not_le.mpr h)⟩
      rw [(waitMet_slot _ _).1]
    · rw [if_neg hmet] at hexec
      refine completes_of hexec (does_waitSlot _ _ ((Does.refl _ s).updPageIns rfl)) ⟨fun h => absurd h hmet,
        fun _ hgone s' hs' => ?_⟩
      subst hs'
      obtain ⟨htake, hfull⟩ := waitSlot_absent (s := pageTaken s p) hgone
      rcases htaken : fslotTake (pageTaken s p) with - | k
      · rw [hfull htaken]
        exact ⟨rfl, rfl, fun k hk => absurd (htaken.symm.trans hk) nofun, fun _ => ⟨rfl, rfl⟩⟩
      · obtain ⟨hvalid, haddr, hwaiters, hpages, hothers⟩ := pageInto_facts (pageTaken s p) p k
        have hinto' : Does (maskOf [.fslots, .fclock, .pageIns]) (pageTaken s p) (pageInto (pageTaken s p) p k) :=
          does_pageInto _ _ _ (Does.refl _ _)
        rw [htake k htaken]
        refine ⟨hinto'.only.slots rfl, hinto'.only.jobs rfl, fun j hj => ?_,
          fun h => absurd (htaken.symm.trans h) nofun⟩
        obtain rfl : k = j := Option.some.inj (htaken.symm.trans hj)
        exact ⟨hvalid, haddr, by rw [hwaiters, hslot], hpages, hothers⟩
  · have hexec := exec_fencePageIn_into hfind hruns hquiet hinto hwait
    obtain ⟨hslot, hothers, hpages, hfe, hcount, hbut, hdoes⟩ := pagedIn_facts s p k (devNat s p.part p.addr 8)
    obtain ⟨hvalue, hkept, hwoken⟩ := fenceWake_slot (pagedIn s p k (devNat s p.part p.addr 8)) k
    have hwake : Does (maskOf [.fslots, .queues, .slots, .jobs]) (pagedIn s p k (devNat s p.part p.addr 8))
      (fenceWake (pagedIn s p k (devNat s p.part p.addr 8)) k) := does_fenceWake _ k (Does.refl _ _)
    rw [hslot] at hvalue hwoken
    obtain ⟨hwaiters, hresumed⟩ := hwoken (hfe.trans hruns)
    exact completes_of hexec ((hdoes.mono (Sub.of_eq rfl)).trans (hwake.mono (Sub.of_eq rfl)))
      ⟨hvalue, (hwake.only.pageIns rfl).trans hpages, (rd_congr (hwake.only.regs rfl) _).trans hcount,
        fun o ho => (rd_congr (hwake.only.regs rfl) o).trans (hbut o ho), hwaiters, hresumed,
        fun j hj => (hkept j hj).trans (hothers j hj)⟩
  · obtain ⟨hempty, hothers, hwaiting⟩ := pageLost_facts s p k
    have hexec := exec_fencePageIn_lost hfind hruns hquiet hinto
    have hdoes := does_execFencePageIn n .uncorrectable s (Does.refl (maskOf [.regs, .log, .msix, .mcs, .fslots, .fclock,
      .fwaiting, .pageIns, .queues, .slots, .jobs]) s)
    rw [fenceSettle_none (hwaiting.trans hwait)] at hexec
    exact completes_out hexec hdoes ⟨hempty, hothers⟩

end Sys2Proof.Machine

/-!
Memory controllers and mesh routers (R307, R308, R310, R314, R326 to R329).
-/
namespace Sys2Proof.Machine

set_option Elab.async false

/-! ### Bursts (R307, R310, R314) -/

/-- The state in which a burst is performed: it has left its controller's grants. -/
def burstTaken (s : State) (m k : Nat) : State := setArb s m { arb s m with granted := (arb s m).granted.eraseIdx k }

theorem burstTaken_facts (s : State) (m k : Nat) :
    (arb (burstTaken s m k) m).granted = (arb s m).granted.eraseIdx k ∧
    (∀ j, (arb (burstTaken s m k) j).raised = (arb s j).raised) ∧ Does (maskOf [.arbs]) s (burstTaken s m k) := by
  refine ⟨congrArg ArbSt.granted (arb_setArb_self _ _ _), fun j => ?_, does_setArb _ _ _ (Does.refl _ s)⟩
  rw [burstTaken, arb_setArb]
  split
  · next h => rw [h]
  · rfl

theorem exec_memoryBurst {s : State} {m : Fin 17} {k c : Nat} {b : Burst} (hm : m.val < 16)
    (hburst : (arb s m).granted[k]? = some b) (hmay : mayPerform (arb s m).granted k = true)
    (hserves : fld s (mcOff m 0) 0 2 = 1) (pos : Nat) (ecc : Ecc) :
    exec (.memoryBurst m k pos ecc c) s = .next (performBurst (burstTaken (atAclk s c) m k) m b pos ecc) := by
  have hburst' : (arb (atAclk s c) m).granted[k]? = some b := hburst
  have hmay' : mayPerform (arb (atAclk s c) m).granted k = true := hmay
  have hserves' : mcServes (atAclk s c) m = true :=
    (if_pos hm).trans (beq_iff_eq.mpr hserves)
  show execMemoryBurst m k pos ecc c s = _
  unfold execMemoryBurst
  simp only [if_pos hm, hburst', hmay', hserves', Bool.not_true, Bool.or_false, Bool.false_eq_true, if_false]
  rfl

/-- The reply of a burst, raised at the sector's crossbar (R307, R314). -/
theorem burstAnswered {s u : State} {m : Nat} (hm : m < 16) (k : Nat) (harbs : u.arbs = (burstTaken s m k).arbs)
    (hreplies : u.replies = s.replies) (b : Burst) (data : List Byte) (err : Nat) :
    (sendReply u m b data err).replies = s.replies ++ [{ burst := b, data := data, err := err }] ∧
    (arb (sendReply u m b data err) m).granted = (arb s m).granted.eraseIdx k ∧
    (arb (sendReply u m b data err) (16 + m / 4)).raised = (arb s (16 + m / 4)).raised ++ [b] ∧
    Does (maskOf [.arbs, .replies]) u (sendReply u m b data err) := by
  obtain ⟨hgranted, hraised, -⟩ := burstTaken_facts s m k
  obtain ⟨hreply, harb, hdoes⟩ := sendReply_port hm u b data err
  have hsame (j : Nat) : arb u j = arb (burstTaken s m k) j := by rw [arb, arb, harbs]
  refine ⟨hreply.trans (by rw [hreplies]), ?_, ?_, hdoes⟩
  · rw [harb, if_neg (by omega), hsame, hgranted]
  · rw [harb, if_pos rfl]
    exact congrArg (· ++ [b]) ((congrArg ArbSt.raised (hsame _)).trans (hraised _))

theorem performBurst_write {s : State} {m : Nat} {b : Burst} {pos : Nat} (hm : m < 16) (hwrite : b.write = true)
    (hok : writable s b.tag b.addr b.len = true) (hhost : isHost b.addr = false) (hpos : b.len ≤ pos) (ecc : Ecc) :
    performBurst s m b pos ecc =
      sendReply { countBeats s m b with hbm := (countBeats s m b).hbm.writeBytes b.addr b.data } m b [] 0 := by
  have hput : putBurst (countBeats s m b) b.tag b.addr b.data =
      { countBeats s m b with hbm := (countBeats s m b).hbm.writeBytes b.addr b.data } := by
    unfold putBurst
    rw [hhost]
    rfl
  unfold performBurst
  simp only [hwrite, if_true, hok, Bool.not_true, Bool.false_eq_true, if_false, if_neg (Nat.not_le.mpr hm),
    decide_eq_false (Nat.not_lt.mpr hpos), Bool.false_and, false_and, hput]

theorem performBurst_read {s : State} {m : Nat} {b : Burst} {pos : Nat} (hm : m < 16) (hread : b.write = false)
    (hok : inRange s b.tag b.addr b.len = true) (hpos : b.len ≤ pos) (ecc : Ecc) :
    performBurst s m b pos ecc =
      sendReply (countBeats s m b) m b (devBytes (countBeats s m b) b.tag b.addr b.len) 0 := by
  unfold performBurst
  simp only [hread, hok, Bool.not_true, Bool.false_eq_true, if_false, if_neg (Nat.not_le.mpr hm),
    decide_eq_false (Nat.not_lt.mpr hpos), Bool.false_and, false_and]

theorem performBurst_refused {s : State} {b : Burst}
    (hbad : (if b.write then writable s b.tag b.addr b.len else inRange s b.tag b.addr b.len) = false) (m pos : Nat) (ecc : Ecc) :
    performBurst s m b pos ecc = sendReply (violation s b.tag b.req b.addr (burstWho s b)) m b [] 0x90 := by
  unfold performBurst
  simp only [hbad, Bool.not_false, if_true]

/-! ### The patrol scrubber (R328) -/

theorem exec_mcPatrolScrub {s : State} {m : Mc} {c : Nat} (hon : fld s (mcOff m 0x1C) 0 1 = 1)
    (hserves : fld s (mcOff m 0) 0 2 = 1)
    (hdue : (mcOf s m).scrubAt + fld s (mcOff m 0x1C) 8 8 * 1024 ≤ aclk (atAclk s c)) :
    exec (.mcPatrolScrub m c .ok) s = .next (setMc (atAclk s c) m { mcOf s m with
      scrubAt := aclk (atAclk s c)
      line := if ((mcOf s m).line + 1) * 1024 < capacity s then (mcOf s m).line + 1 else 0 }) := by
  have hacts : ¬ (fld (atAclk s c) (mcOff m 0x1C) 0 1 = 0 ∨ (!mcServes (atAclk s c) m) = true ∨
      aclk (atAclk s c) < (mcOf (atAclk s c) m).scrubAt + fld (atAclk s c) (mcOff m 0x1C) 8 8 * 1024) := by
    rintro (h | h | h)
    · exact absurd (hon.symm.trans h) (by decide)
    · have : mcServes (atAclk s c) m = true := (if_pos m.isLt).trans (beq_iff_eq.mpr hserves)
      exact absurd h (by rw [this]; decide)
    · exact absurd hdue (Nat.not_le.mpr h)
  refine (if_neg hacts).trans ?_
  rw [mcEcc_ok, Nat.mul_assoc]
  rfl

/-! ### Mesh routers (R308) -/

theorem meshPush_facts (s : State) (r i : Nat) (p : MeshPkt) :
    (∀ k, (router (meshPush s r i p) k).turn = (router s k).turn) ∧
    (∀ k, k ≠ r → router (meshPush s r i p) k = router s k) ∧
    tabGet (fun _ => []) i (router (meshPush s r i p) r).inq = tabGet (fun _ => []) i (router s r).inq ++ [p] := by
  refine ⟨fun k => ?_, fun k hk => (router_setRouter _ _ _ _).trans (if_neg hk), ?_⟩
  · rw [meshPush, router_setRouter]
    split
    · next h => rw [h]
    · rfl
  · rw [meshPush, router_setRouter_self]
    exact tabGet_put_same _ _ _ _

/-- The chosen packet leaves its input, and the output's turn moves on (R308). -/
def meshTaken (s : State) (r : Nat) (out : Nat) (i : Nat) (p : MeshPkt) : State :=
  setRouter s r { inq := tabPut (fun _ => []) i ((tabGet (fun _ => []) i (router s r).inq).erase p) (router s r).inq,
                  turn := tabPut (fun _ => 0) (out * 2 + b2n p.rt) ((i + 1) % 5) (router s r).turn }

theorem meshTaken_facts (s : State) (r out i : Nat) (p : MeshPkt) :
    tabGet (fun _ => 0) (out * 2 + b2n p.rt) (router (meshTaken s r out i p) r).turn = (i + 1) % 5 ∧
    tabGet (fun _ => []) i (router (meshTaken s r out i p) r).inq =
      (tabGet (fun _ => []) i (router s r).inq).erase p ∧
    ∀ k, k ≠ r → router (meshTaken s r out i p) k = router s k := by
  refine ⟨?_, ?_, fun k hk => (router_setRouter _ _ _ _).trans (if_neg hk)⟩
  · rw [meshTaken, router_setRouter_self]
    exact tabGet_put_same _ _ _ _
  · rw [meshTaken, router_setRouter_self]
    exact tabGet_put_same _ _ _ _

theorem exec_meshForward {s u : State} {r : Eng} {out : Fin 5} {join : List MeshPkt} {i : Nat} {p : MeshPkt}
    (hu : u = (join.filter fun p => p.src == r).foldl (fun s p => meshPush s r 4 p) s)
    (hpick : meshPick (router u r) r out true = some (i, p) ∨
      meshPick (router u r) r out true = none ∧ meshPick (router u r) r out false = some (i, p)) :
    exec (.meshForward r out join) s = .next (if out.val = 4 then
        { meshTaken u r out i p with meshOut := (meshTaken u r out i p).meshOut ++ [p] }
      else meshPush (meshTaken u r out i p) (meshNext r out).1 (meshNext r out).2 p) := by
  show execMeshForward r out join s = _
  unfold execMeshForward
  rw [← hu, apply_ite Host.Outcome.next]
  rcases hpick with h | ⟨h, h'⟩
  · simp only [h]
    rfl
  · simp only [h, h']
    rfl

/-- Settles O24, clause by clause from the `exec_` equation of each command of the controllers and routers. -/
theorem memoryControllersAndMesh : Obligations.MemoryControllersAndMesh := by
  unfold Obligations.MemoryControllersAndMesh
  refine ⟨fun s m k pos ecc c b hm hburst hmay hserves hhost hpos => ⟨fun hwrite hok => ?_, fun hread hok hend => ?_, fun hbad => ?_⟩,
    fun s m => ?_, fun s m c hon hserves hdue => ?_, fun s r out join u i p hu hpick => ?_⟩
  · have hexec := exec_memoryBurst hm hburst hmay hserves pos ecc (c := c)
    rw [performBurst_write (s := burstTaken (atAclk s c) m k) hm hwrite ((writable_same rfl _ _ _).trans hok) hhost hpos]
      at hexec
    obtain ⟨hcount, hbut, hbeats⟩ := countBeats_facts (burstTaken (atAclk s c) m k) m b
    rw [hwrite] at hcount hbut
    have hstored : Does (maskOf [.regs, .hbm]) (burstTaken (atAclk s c) m k)
        { countBeats (burstTaken (atAclk s c) m k) m b with
          hbm := (countBeats (burstTaken (atAclk s c) m k) m b).hbm.writeBytes b.addr b.data } :=
      (hbeats.mono (Sub.of_eq rfl)).updHbm rfl (Mem.wf_writeBytes _ _ _)
    obtain ⟨hreply, hgranted, hraised, hanswers⟩ :=
      burstAnswered (s := atAclk s c) hm k (hstored.only.arbs rfl) (hstored.only.replies rfl) b [] 0
    refine completes_of hexec (((does_atAclk s c (Does.refl _ s)).trans
        (((burstTaken_facts _ m k).2.2.mono (Sub.of_eq rfl)).trans (hstored.mono (Sub.of_eq rfl)))).trans
        (hanswers.mono (Sub.of_eq rfl)))
      ⟨(hanswers.only.now rfl).trans (hstored.only.now rfl), stored_writeBytes ((hanswers.only.hbm rfl).trans ?_), hreply,
        hgranted, hraised, (rd_congr (hanswers.only.regs rfl) _).trans hcount,
        fun o ho => (rd_congr (hanswers.only.regs rfl) o).trans (hbut o ho)⟩
    exact congrArg (·.writeBytes b.addr b.data) (hbeats.only.hbm rfl)
  · have hexec := exec_memoryBurst hm hburst hmay hserves pos ecc (c := c)
    rw [performBurst_read (s := burstTaken (atAclk s c) m k) hm hread ((inRange_same rfl _ _ _).trans hok) hpos] at hexec
    obtain ⟨hcount, hbut, hbeats⟩ := countBeats_facts (burstTaken (atAclk s c) m k) m b
    rw [hread] at hcount hbut
    have hword : devBytes (countBeats (burstTaken (atAclk s c) m k) m b) b.tag b.addr b.len = s.hbm.readBytes b.addr b.len := by
      rw [devBytes_hbm _ _ _ _ hend, hbeats.only.hbm rfl]
      rfl
    rw [hword] at hexec
    obtain ⟨hreply, hgranted, hraised, hanswers⟩ := burstAnswered (s := atAclk s c) hm k (hbeats.only.arbs rfl)
      (hbeats.only.replies rfl) b (s.hbm.readBytes b.addr b.len) 0
    exact completes_of hexec (((does_atAclk s c (Does.refl _ s)).trans
        (((burstTaken_facts _ m k).2.2.mono (Sub.of_eq rfl)).trans (hbeats.mono (Sub.of_eq rfl)))).trans
        (hanswers.mono (Sub.of_eq rfl)))
      ⟨(hanswers.only.now rfl).trans (hbeats.only.now rfl), hreply, hgranted, hraised,
        (rd_congr (hanswers.only.regs rfl) _).trans hcount,
        fun o ho => (rd_congr (hanswers.only.regs rfl) o).trans (hbut o ho)⟩
  · have hexec := exec_memoryBurst hm hburst hmay hserves pos ecc (c := c)
    have hbad' : (if b.write then writable (burstTaken (atAclk s c) m k) b.tag b.addr b.len
        else inRange (burstTaken (atAclk s c) m k) b.tag b.addr b.len) = false := by
      rw [writable_same (s := s) (t := burstTaken (atAclk s c) m k) rfl,
        inRange_same (s := s) (t := burstTaken (atAclk s c) m k) rfl]
      exact hbad
    rw [performBurst_refused hbad'] at hexec
    generalize hu : burstTaken (atAclk s c) m k = u at hexec
    obtain ⟨-, hseq, hbut⟩ := violationAs_facts u b.tag b.req b.addr (reqUnit b.req).1 (reqUnit b.req).2 (burstWho u b)
    have hviol : Does (maskOf [.regs, .log, .msix]) u (violation u b.tag b.req b.addr (burstWho u b)) :=
      does_violation _ _ _ _ _ (Does.refl _ u)
    have htaken : Does (maskOf [.now, .arbs]) s u :=
      hu ▸ (does_atAclk s c (Does.refl _ s)).trans ((burstTaken_facts _ m k).2.2.mono (Sub.of_eq rfl))
    obtain ⟨hreply, hgranted, -, hanswers⟩ := burstAnswered (s := atAclk s c) hm k
      ((hviol.only.arbs rfl).trans (by rw [hu])) ((hviol.only.replies rfl).trans (htaken.only.replies rfl)) b [] 0x90
    exact completes_of hexec ((htaken.mono (Sub.of_eq rfl)).trans
        ((hviol.mono (Sub.of_eq rfl)).trans (hanswers.mono (Sub.of_eq rfl))))
      ⟨(hanswers.only.now rfl).trans ((hviol.only.now rfl).trans (by rw [← hu]; rfl)), hreply, hgranted,
        (congrArg ErrLog.seq (hanswers.only.log rfl)).trans (hseq.trans (by rw [htaken.only.log rfl])),
        fun o ho => (rd_congr (hanswers.only.regs rfl) o).trans ((hbut o ho).trans (rd_congr (htaken.only.regs rfl) o))⟩
  · exact completes_of rfl (does_setMc _ _ _ (Does.refl _ s))
      ⟨mcOf_setMc_self _ _ _, fun k hk => (mcOf_setMc _ _ _ _).trans (if_neg hk)⟩
  · have hexec := exec_mcPatrolScrub hon hserves hdue
    exact completes_of hexec (does_setMc _ _ _ (does_atAclk s c (Does.refl _ s)))
      ⟨rfl, fun _ _ => rfl, rfl, congrArg McSt.scrubAt (mcOf_setMc_self _ _ _), congrArg McSt.line (mcOf_setMc_self _ _ _),
        by rw [mcOf_setMc_self], fun k hk => (mcOf_setMc _ _ _ _).trans (if_neg hk)⟩
  · obtain ⟨hturn, hinput, hkept⟩ := meshTaken_facts u r out i p
    have hjoined : Does (maskOf [.routers]) s u :=
      hu ▸ does_foldl _ _ (Does.refl _ s) fun _ _ h => does_meshPush _ _ _ _ h
    have hout : (meshTaken u r out i p).meshOut = s.meshOut := hjoined.only.meshOut rfl
    obtain ⟨hturns, hothers, harrived⟩ := meshPush_facts (meshTaken u r out i p) (meshNext r out).1 (meshNext r out).2 p
    refine completes_out (exec_meshForward hu hpick) (does_execMeshForward r out join s (Does.refl _ s)) ?_
    by_cases hlocal : out.val = 4
    · rw [if_pos hlocal]
      exact ⟨hturn, fun _ => ⟨congrArg (· ++ [p]) hout, hinput⟩, fun h => by omega⟩
    · rw [if_neg hlocal]
      refine ⟨by rw [hturns]; exact hturn, fun h => absurd h hlocal, fun _ => ⟨hout, fun hnext => ⟨?_, ?_⟩⟩⟩
      · rw [hothers _ hnext.symm]
        exact hinput
      · rw [harrived, hkept _ hnext]

end Sys2Proof.Machine

/-!
The host's memory window and the engines' reads of host memory (R432, R433, R438, R440, R442).
-/
namespace Sys2Proof.Machine

set_option Elab.async false

/-! ### Reads of MW2 (R438, R442) -/

theorem clampTo_of_mem {lo hi x : Nat} (h1 : lo ≤ x) (h2 : x ≤ hi) : clampTo lo hi x = x := by
  unfold clampTo
  omega

theorem exec_mw2Read_off {s : State} {fn : Part} {x n : Nat} (h1 : 1 ≤ n) (h2 : n ≤ 4096) (hoff : mw2On s fn x n = false)
    (pos : Nat) (ecc : Ecc) : exec (.mw2Read fn x n pos ecc) s = .next (readRefused s 1) := by
  show execMw2Read fn x n pos ecc s = _
  unfold execMw2Read
  simp only [clampTo_of_mem h1 h2, hoff, Bool.not_false, if_true]

theorem exec_mw2Read_refused {s : State} {fn : Part} {x n : Nat} (h1 : 1 ≤ n) (h2 : n ≤ 4096) (hon : mw2On s fn x n = true)
    (hbad : readFault s fn (mw2Addr s fn x) n ≠ none) (pos : Nat) (ecc : Ecc) :
    exec (.mw2Read fn x n pos ecc) s = .next (readRefused (mw2Violations s fn
      ((burstsOf (mw2Addr s fn x) n).filter fun b => !inRange s fn b.1 b.2)) 1) := by
  show execMw2Read fn x n pos ecc s = _
  unfold execMw2Read
  simp only [clampTo_of_mem h1 h2, hon, Bool.not_true, Bool.false_eq_true, if_false]
  exact if_pos fun h => hbad (mw2_bad.2 h)

theorem exec_mw2Read_served {s : State} {fn : Part} {x n pos : Nat} (h1 : 1 ≤ n) (h2 : n ≤ 4096)
    (hon : mw2On s fn x n = true) (hok : readFault s fn (mw2Addr s fn x) n = none) (hpos : n ≤ pos) (ecc : Ecc) :
    exec (.mw2Read fn x n pos ecc) s = .next (reply s (bytesWords (devBytes s fn (mw2Addr s fn x) n))) := by
  show execMw2Read fn x n pos ecc s = _
  unfold execMw2Read
  simp only [clampTo_of_mem h1 h2, hon, Bool.not_true, Bool.false_eq_true, if_false, mw2_bad.1 hok, ne_eq,
    not_true_eq_false, Nat.not_lt.mpr hpos, false_and]

theorem readRefused_facts (s : State) (status : Nat) :
    (readRefused s status).rdata = [] ∧ (readRefused s status).rstat = status ∧ (readRefused s status).log = s.log :=
  ⟨rfl, rfl, rfl⟩

/-- The read's word that cannot be corrected is reported (R438). -/
def mw2Lost (s : State) (fn : Part) (w : Nat) : State :=
  append (mcEcc s w .uncorrectable) { code := 0x92, tag := fn, kind := 14, detail := two w }

theorem mw2Lost_facts (s : State) (fn : Part) (w : Nat) :
    Does (maskOf [.regs, .log, .msix]) s (mw2Lost s fn w) ∧ (mw2Lost s fn w).log.seq = (s.log.seq + 1) % 2 ^ 32 := by
  have hecc := mcEcc_uncorrectable s w
  exact ⟨does_append _ _ (hecc.mono (Sub.of_eq rfl)), (append_seq _ _).trans (by rw [hecc.only.log rfl])⟩

theorem exec_mw2Read_lost {s : State} {fn : Part} {x n pos : Nat} (h1 : 1 ≤ n) (h2 : n ≤ 4096)
    (hon : mw2On s fn x n = true) (hok : readFault s fn (mw2Addr s fn x) n = none) (hpos : pos < n) :
    exec (.mw2Read fn x n pos .uncorrectable) s = .next (readRefused (mw2Lost s fn (mw2Addr s fn x + pos)) 2) := by
  show execMw2Read fn x n pos .uncorrectable s = _
  unfold execMw2Read
  simp only [clampTo_of_mem h1 h2, hon, Bool.not_true, Bool.false_eq_true, if_false, mw2_bad.1 hok, ne_eq,
    not_true_eq_false, hpos, true_and, if_true]
  rfl

/-! ### Writes of MW2 (R438) -/

/-- A write all of whose bursts may be made stores its bytes (R438, R440). -/
theorem mw2Put_all {s : State} {fn a : Nat} {data : List Byte} (hend : a + data.length ≤ 2 ^ 47)
    (hok : writeFault s fn a data.length = none) :
    mw2Put s fn a data none (burstsOf a data.length) = { s with hbm := s.hbm.writeBytes a data } := by
  have hburst (u : State) (b k : Nat) (hmem : (b, k) ∈ burstsOf a data.length) (hregs : u.regs = s.regs) :
      (if !writable u fn b k then violation u fn 85 b else putBurst u fn b ((data.drop (b - a)).take k)) =
        { u with hbm := u.hbm.writeBytes b ((data.drop (b - a)).take k) } := by
    rw [writable_same hregs, writable_of_none hok hmem, putBurst, isHost_false (by have := burstsOf_lt hmem; omega)]
    rfl
  rw [mw2Put_foldl]
  refine (bursts_write _ a data data.length s a (Nat.le_refl _) (by omega) hburst).trans ?_
  rw [Nat.sub_self, List.drop_zero, List.take_length]

theorem exec_mw2Write {s : State} {fn : Part} {x pos : Nat} {data : List Byte} (hon : mw2On s fn x data.length = true)
    (hpos : data.length ≤ pos) (ecc : Ecc) :
    exec (.mw2Write fn x data false pos ecc) s =
      .next (mw2Put s fn (mw2Addr s fn x) data none (burstsOf (mw2Addr s fn x) data.length)) := by
  show execMw2Write fn x data false pos ecc s = _
  unfold execMw2Write
  simp only [hon, Bool.not_true, Bool.false_eq_true, if_false, decide_eq_false (Nat.not_lt.mpr hpos), Bool.false_and,
    false_and]

theorem exec_mw2Write_off {s : State} {fn : Part} {x pos : Nat} {data : List Byte} (hoff : mw2On s fn x data.length = false)
    (ecc : Ecc) : exec (.mw2Write fn x data false pos ecc) s = .next s := by
  show execMw2Write fn x data false pos ecc s = _
  unfold execMw2Write
  simp only [hoff, Bool.not_false, if_true, Bool.false_eq_true, if_false]

/-- Settles O25, clause by clause from the `exec_` equation of each access. -/
theorem hostMemoryWindow : Obligations.HostMemoryWindow := by
  unfold Obligations.HostMemoryWindow
  refine ⟨fun s fn x n pos a ecc h1 h2 ha => ⟨fun hon hok hend hpos => ?_, fun hon hok hpos => ?_, fun hoff => ?_, fun hon hbad => ?_⟩,
    fun s fn x pos a data ecc ha => ⟨fun hon hok hend hpos => ?_, fun hoff => ?_, ?_⟩, fun s fn => ?_,
    fun s e a h c cpl data b rest hread hmask hhost haddr => ⟨fun hcpl hlen => ?_, fun hcpl => ?_, ?_⟩⟩
  · obtain rfl : a = mw2Addr s fn x := ha
    have hexec := exec_mw2Read_served h1 h2 hon hok hpos ecc
    rw [devBytes_hbm _ _ _ _ hend] at hexec
    exact completes_of hexec (does_reply _ _ (Does.refl _ s)) ⟨rfl, rfl⟩
  · obtain rfl : a = mw2Addr s fn x := ha
    obtain ⟨hdoes, hseq⟩ := mw2Lost_facts s fn (mw2Addr s fn x + pos)
    have hexec := exec_mw2Read_lost h1 h2 hon hok hpos
    obtain ⟨hdata, hstat, hlog⟩ := readRefused_facts (mw2Lost s fn (mw2Addr s fn x + pos)) 2
    exact completes_of hexec (does_readRefused _ _ (hdoes.mono (Sub.of_eq rfl))) ⟨hdata, hstat, by rw [hlog]; exact hseq⟩
  · exact completes_of (exec_mw2Read_off h1 h2 hoff pos ecc) (does_readRefused _ _ (Does.refl _ s)) ⟨rfl, rfl⟩
  · obtain rfl : a = mw2Addr s fn x := ha
    exact completes_of (exec_mw2Read_refused h1 h2 hon hbad pos ecc)
      (does_readRefused _ _ (does_mw2Violations _ _ _ (Does.refl _ s))) ⟨rfl, rfl, mw2Violations_regs _ _ _⟩
  · obtain rfl : a = mw2Addr s fn x := ha
    have hexec := exec_mw2Write hon hpos ecc
    rw [mw2Put_all (a := mw2Addr s fn x) hend hok] at hexec
    exact completes_of hexec ((Does.refl _ s).updHbm rfl (Mem.wf_writeBytes _ _ _)) (stored_writeBytes rfl)
  · exact completes_of (exec_mw2Write_off hoff ecc) (Does.refl _ s) rfl
  · have hexec : exec (.mw2Write fn x data true pos ecc) s = .next (append s { code := 0xC3, tag := fn, kind := 14 }) := rfl
    refine completes_of hexec (does_append _ _ (Does.refl _ s)) ⟨append_seq _ _, fun hroom => ?_⟩
    rw [append_last _ hroom]
    rfl
  · have hexec : exec (.atomicOpReceived fn) s = .next (readRefused s 1) := rfl
    exact completes_of hexec (does_readRefused _ _ (Does.refl _ s)) ⟨rfl, rfl⟩
  · subst hcpl
    have hexec : exec (.hostReadCompletion (.engine e) a .data data c) s = .next (hostEngine (atAclk s c) e true data) := rfl
    obtain ⟨hreads, hput, harrived, hdoes⟩ := hostEngine_data (s := atAclk s c) hread hmask hhost haddr hlen
    exact completes_of hexec ((does_atAclk s c (Does.refl _ s)).trans (hdoes.mono (Sub.of_eq rfl)))
      ⟨hdoes.only.now rfl, hreads, hput, harrived⟩
  · have hexec : exec (.hostReadCompletion (.engine e) a cpl data c) s = .next (hostEngine (atAclk s c) e false data) := by
      cases cpl with
      | data => exact absurd rfl hcpl
      | _ => rfl
    obtain ⟨hreads, hseq, harrived, hdoes⟩ := hostEngine_fail (s := atAclk s c) (data := data) hread hmask
    exact completes_of hexec ((does_atAclk s c (Does.refl _ s)).trans (hdoes.mono (Sub.of_eq rfl)))
      ⟨hdoes.only.now rfl, hreads, hseq, harrived⟩
  · have hexec : exec (.hostReadTimeout (.engine e) a c) s = .next (hostEngine (atAclk s c) e false []) := rfl
    obtain ⟨hreads, hseq, harrived, hdoes⟩ := hostEngine_fail (s := atAclk s c) (data := []) hread hmask
    exact completes_of hexec ((does_atAclk s c (Does.refl _ s)).trans (hdoes.mono (Sub.of_eq rfl)))
      ⟨hdoes.only.now rfl, hreads, hseq, harrived⟩

end Sys2Proof.Machine

/-!
Reads and writes of registers by the host, and MSI-X vectors (R301, R410, R422, R424, R430, R436, R437, R444, R445).
-/
namespace Sys2Proof.Machine

set_option Elab.async false

/-! ### Paired reads (R301, R410, R424) -/

theorem pair8 (s : State) (off v : Nat) :
    (pairRead s off v 8).rstat = 0 ∧ (pairRead s off v 8).rdata = [v % 2 ^ 32, v / 2 ^ 32] ∧
    Does (maskOf [.rdata, .rstat]) s (pairRead s off v 8) :=
  ⟨rfl, rfl, does_reply _ _ (Does.refl _ s)⟩

theorem compWord_low (s : State) (q : Nat) : compWord s q % 2 ^ 32 = (que s q).compSeq % 2 ^ 32 := by
  unfold compWord
  dsimp only
  omega

theorem cerrWord_low (s : State) (q : Nat) : cerrWord s q % 2 ^ 32 = (que s q).errSeq % 2 ^ 32 := by
  unfold cerrWord
  dsimp only
  omega

theorem seesQueue_foreign {s : State} {fn q : Nat} (hfn : fn ≠ 0) (h : (que s q).life = .free ∨ (que s q).part ≠ fn) :
    seesQueue s fn q = false := by
  unfold seesQueue
  rcases h with h | h
  · rw [h]
    simp [hfn]
  · simp [hfn, h]

/-! ### Writes of BAR0 (R436, R437, R444, R462) -/

theorem exec_registerWrite {s : State} {fn : Part} {off : Fin 2097152} (hon : mw0On s fn = true) (hoff : off.val % 4 = 0)
    (v : Dword) : exec (.registerWrite fn off v 4) s = .next (mw0Write s fn off (v.toNat % 2 ^ 32)) := by
  show execRegisterWrite fn off v 4 s = _
  unfold execRegisterWrite
  simp only [hon, hoff, Bool.not_true, Bool.false_eq_true, if_false, and_self, if_true]

theorem exec_registerWrite_ignored {s : State} {fn : Part} {off : Fin 2097152} {size : Nat}
    (h : mw0On s fn = false ∨ (size ≠ 4 ∧ size ≠ 8) ∨ off.val % size ≠ 0) (v : Dword) :
    exec (.registerWrite fn off v size) s = .next s := by
  show execRegisterWrite fn off v size s = _
  unfold execRegisterWrite
  cases hon : mw0On s fn with
  | false => rfl
  | true =>
    have h4 : ¬ (size = 4 ∧ off.val % 4 = 0) := by
      rintro ⟨rfl, hoff⟩
      simp_all
    have h8 : ¬ (size = 8 ∧ off.val % 8 = 0) := by
      rintro ⟨rfl, hoff⟩
      simp_all
    simp only [Bool.not_true, Bool.false_eq_true, if_false, if_neg h4, if_neg h8]

theorem mw0Write_msixData (s : State) (fn : Nat) {n : Nat} (hn : n < 64) (v : Nat) :
    mw0Write s fn (msixBase + 16 * n + 8) v = setVec s fn n { vec s fn n with data := v } := by
  have hreg : msixBase + 16 * n + 8 - msixBase = 16 * n + 8 := by omega
  have hmb : ¬ (mbBase ≤ msixBase + 16 * n + 8 ∧ msixBase + 16 * n + 8 < idBase) := by
    unfold msixBase idBase
    omega
  have hvec : (16 * n + 8) / 16 = n ∧ (16 * n + 8) % 16 = 8 := by omega
  unfold mw0Write
  rw [if_neg hmb, if_pos (by omega), hreg]
  unfold msixWrite
  rw [if_neg (by omega), hvec.1, hvec.2]
  rfl

theorem mw0Write_mailbox {s : State} {m i : Nat} (h1 : 1 ≤ m) (h8 : m < 8) (hi : i < 16) (hidle : fld s (mbOff m 0x80) 0 1 = 0)
    (v : Nat) : mw0Write s 0 (mbOff m (4 * i)) v = wr s (mbOff m (4 * i)) v := by
  have hreg : mbOff m (4 * i) - mbBase = 0x100 * m + 4 * i := by
    unfold mbOff
    omega
  have hbox : (0x100 * m + 4 * i) / 0x100 = m := by omega
  unfold mw0Write
  rw [if_pos (by unfold mbOff mbBase idBase; omega), if_pos rfl]
  unfold mbHostWrite
  simp only [hreg, hbox]
  rw [if_neg (by omega), if_neg (by omega), if_pos (by omega), if_pos hidle]

/-! ### Messages of vectors (R445) -/

theorem exec_msixSend {s : State} {fn : Part} {v : Fin 64} {c : Nat} (hdue : (vec s fn v).due = true)
    (hopen : vecOpen s fn v = true) (hlink : linkUp s = true)
    (hlast : ∀ l, (vec s fn v).lastSent = some l → l + 2000 ≤ aclk (atAclk s c)) :
    exec (.msixSend fn v c) s = .next { setVec (atAclk s c) fn v
      { vec s fn v with due := false, lastSent := some (aclk (atAclk s c)) } with
      sent := .msix fn v (vec s fn v).addr (vec s fn v).data :: s.sent } := by
  have hdue' : (vec (atAclk s c) fn v).due = true := hdue
  have hopen' : vecOpen (atAclk s c) fn v = true := hopen
  have hacts : ¬ ((!linkUp (atAclk s c)) = true ∨
      aclk (atAclk s c) < (vec (atAclk s c) fn v).lastSent.elim 0 (· + 2000)) := by
    rintro (h | h)
    · exact absurd h (by rw [show linkUp (atAclk s c) = true from hlink]; decide)
    · change aclk (atAclk s c) < (vec s fn v).lastSent.elim 0 (· + 2000) at h
      cases hl : (vec s fn v).lastSent with
      | none => simp [hl] at h
      | some l => exact absurd (hlast l hl) (by simpa [hl] using h)
  show execMsixSend fn v c s = _
  unfold execMsixSend
  simp only [hdue', hopen', Bool.not_true, Bool.false_eq_true, if_false]
  exact if_neg hacts

theorem exec_msixSend_closed {s : State} {fn : Part} {v : Fin 64} (c : Nat) (hdue : (vec s fn v).due = true)
    (hopen : vecOpen s fn v = false) :
    exec (.msixSend fn v c) s = .next (setVec (atAclk s c) fn v { vec s fn v with due := false, pend := true }) := by
  have hdue' : (vec (atAclk s c) fn v).due = true := hdue
  have hopen' : vecOpen (atAclk s c) fn v = false := hopen
  show execMsixSend fn v c s = _
  unfold execMsixSend
  simp only [hdue', hopen', Bool.not_true, Bool.not_false, Bool.false_eq_true, if_false, if_true]
  rfl

/-! ### Unmasking (R444, R445) -/

/-- The enable and mask bits of a function's table, and the mask bit of one vector (R444). -/
def unmasked (s : State) (fn : Part) (v : Option (Fin 64)) (en fm : Bool) : State :=
  let t := { s with msixCtl := tabPut (fun _ => {}) fn.val { enable := en, fmask := fm } s.msixCtl }
  v.elim t fun v => setVec t fn v { vec s fn v with masked := false }

theorem exec_msixUnmask {s : State} {fn : Part} (hon : mw0On s fn = true) (v : Option (Fin 64)) (en fm : Bool) :
    exec (.msixUnmask fn v en fm) s = .next (releasePend (unmasked s fn v en fm) fn (List.range 64)) := by
  have hpower : fld s pwrDomainOff 0 1 = 1 ∧ fld s (ptStatusOff fn) 0 2 = 3 := by
    simpa [mw0On] using hon
  have hacts : ¬ (fld s pwrDomainOff 0 1 = 0 ∨ fld s (ptStatusOff fn) 1 1 = 0) := by
    obtain ⟨hpcie, hstatus⟩ := hpower
    unfold fld bits at hpcie hstatus ⊢
    omega
  refine (if_neg hacts).trans ?_
  cases v with
  | none => rfl
  | some v =>
    have hon' : mw0On { s with msixCtl := tabPut (fun _ => {}) fn.val { enable := en, fmask := fm } s.msixCtl } fn = true := hon
    simp only [hon', if_true]
    rfl

theorem unmasked_facts (s : State) (fn : Part) (v : Option (Fin 64)) (en fm : Bool) :
    msixCtlOf (unmasked s fn v en fm) fn = { enable := en, fmask := fm } ∧
    (∀ p, p ≠ fn.val → msixCtlOf (unmasked s fn v en fm) p = msixCtlOf s p) ∧
    (∀ n, n < 64 → vec (unmasked s fn v en fm) fn n =
      if v.map (·.val) = some n then { vec s fn n with masked := false } else vec s fn n) ∧
    (∀ p w, p ≠ fn.val → w < 64 → vec (unmasked s fn v en fm) p w = vec s p w) ∧
    Does (maskOf [.msix, .msixCtl]) s (unmasked s fn v en fm) := by
  have hctl : msixCtlOf { s with msixCtl := tabPut (fun _ => {}) fn.val { enable := en, fmask := fm } s.msixCtl } fn =
    { enable := en, fmask := fm } := tabGet_put_same _ _ _ _
  have hothers (p : Nat) (hp : p ≠ fn.val) :
      msixCtlOf { s with msixCtl := tabPut (fun _ => {}) fn.val { enable := en, fmask := fm } s.msixCtl } p = msixCtlOf s p :=
    (tabGet_put _ _ _ _ _).trans (if_neg hp)
  have hdoes : Does (maskOf [.msix, .msixCtl]) s
      { s with msixCtl := tabPut (fun _ => {}) fn.val { enable := en, fmask := fm } s.msixCtl } :=
    (Does.refl _ s).updMsixCtl rfl
  cases v with
  | none => exact ⟨hctl, hothers, fun n _ => rfl, fun _ _ _ _ => rfl, hdoes⟩
  | some v =>
    refine ⟨hctl, hothers, fun n hn => (vec_setVec _ _ _ _ _ _).trans ?_,
      fun p w hp hw => (vec_setVec _ _ _ _ _ _).trans (if_neg ?_), does_setVec _ _ _ _ hdoes⟩
    · by_cases hv : v.val = n
      · subst hv
        rw [if_pos rfl]
        exact (if_pos rfl).symm
      · rw [if_neg (by omega), if_neg (by simpa using hv)]
        rfl
    · have := v.isLt
      omega

/-- Settles O26, clause by clause from the `exec_` equation of each access and the facts about the latches and vectors. -/
theorem hostRegisterAccess : Obligations.HostRegisterAccess := by
  unfold Obligations.HostRegisterAccess
  refine ⟨fun s fn q size => ⟨fun hsees hsize => ?_, fun hsees hsize => ?_, fun hfn hforeign hsize => ?_⟩,
    fun s fn n hsees hvalid => ⟨?_, fun hentry => ?_⟩, fun s k hvalid => ?_,
    fun s fn off v size => ⟨fun h => ?_, fun n hon hoff hsize => ?_, fun m i hon hfn h1 h8 hi hoff hsize hidle => ?_⟩,
    fun s fn v c hdue => ⟨fun hopen hlink hlast => ?_, fun hopen => ?_⟩, fun s fn v en fm hon => ?_⟩
  · subst hsize
    have hcomp : exec (.feCompRead fn q 8) s = .next (pairRead s (feOff (0x2000 + 0x10 * q)) (compWord s q) 8) := if_pos hsees
    have hcerr : exec (.feCerrRead fn q 8) s = .next (pairRead s (feOff (0x2008 + 0x10 * q)) (cerrWord s q) 8) := if_pos hsees
    obtain ⟨hstat, hdata, hdoes⟩ := pair8 s (feOff (0x2000 + 0x10 * q)) (compWord s q)
    obtain ⟨hstat', hdata', hdoes'⟩ := pair8 s (feOff (0x2008 + 0x10 * q)) (cerrWord s q)
    exact ⟨completes_of hcomp hdoes ⟨hstat, hdata⟩, completes_of hcerr hdoes' ⟨hstat', hdata'⟩⟩
  · subst hsize
    have hcomp : exec (.feCompRead fn q 4) s = .next (pairRead s (feOff (0x2000 + 0x10 * q)) (compWord s q) 4) := if_pos hsees
    have hcerr : exec (.feCerrRead fn q 4) s = .next (pairRead s (feOff (0x2008 + 0x10 * q)) (cerrWord s q) 4) := if_pos hsees
    obtain ⟨hdata, hstat, hlatch, hbut, hdoes⟩ := pair4 s (feOff (0x2000 + 0x10 * q)) (compWord s q)
    obtain ⟨hdata', hstat', hlatch', hbut', hdoes'⟩ := pair4 s (feOff (0x2008 + 0x10 * q)) (cerrWord s q)
    have hoff : feOff (0x2000 + 0x10 * q) + 4 = feOff (0x2004 + 0x10 * q) := by unfold feOff; omega
    have hoff' : feOff (0x2008 + 0x10 * q) + 4 = feOff (0x200C + 0x10 * q) := by unfold feOff; omega
    rw [compWord_low] at hdata
    rw [cerrWord_low] at hdata'
    rw [hoff] at hlatch hbut
    rw [hoff'] at hlatch' hbut'
    exact ⟨completes_of hcomp hdoes ⟨hstat, hdata, hlatch, hbut⟩, completes_of hcerr hdoes' ⟨hstat', hdata', hlatch', hbut'⟩⟩
  · subst hsize
    have hblind := seesQueue_foreign hfn hforeign
    have hcomp : exec (.feCompRead fn q 4) s = .next (reply s [0]) := if_neg (by rw [hblind]; decide)
    have hcerr : exec (.feCerrRead fn q 4) s = .next (reply s [0]) := if_neg (by rw [hblind]; decide)
    exact ⟨completes_of hcomp (does_reply _ _ (Does.refl _ s)) rfl, completes_of hcerr (does_reply _ _ (Does.refl _ s)) rfl⟩
  · have hexec : exec (.feQslotSeqRead fn n) s = .next (pairRead s (feOff (0x1010 + 0x40 * n))
        ((que s (slotOf s n).queue).seq % 2 ^ 48) 4) := by
      refine (if_pos hsees).trans ?_
      rw [if_pos hvalid]
    obtain ⟨hdata, -, hlatch, hbut, hdoes⟩ := pair4 s (feOff (0x1010 + 0x40 * n)) ((que s (slotOf s n).queue).seq % 2 ^ 48)
    have hoff : feOff (0x1010 + 0x40 * n) + 4 = feOff (0x1014 + 0x40 * n) := by unfold feOff; omega
    rw [hoff] at hlatch hbut
    exact completes_of hexec hdoes ⟨hdata.trans (by congr 1; omega), hlatch.trans (by omega), hbut⟩
  · have hexec : exec (.feQslotBufRead fn n) s = .next (pairRead s (feOff (0x1028 + 0x40 * n))
        (cmdAddr s n % 2 ^ 48) 4) := by
      refine (if_pos hsees).trans ?_
      rw [if_pos (by rw [hvalid, hentry]; rfl)]
    obtain ⟨hdata, -, hlatch, hbut, hdoes⟩ := pair4 s (feOff (0x1028 + 0x40 * n)) (cmdAddr s n % 2 ^ 48)
    have hoff : feOff (0x1028 + 0x40 * n) + 4 = feOff (0x102C + 0x40 * n) := by unfold feOff; omega
    have hpos : cmdAddr s n = (slotOf s n).buf.addr + 4 * (slotOf s n).buf.pos := rfl
    rw [hoff] at hlatch hbut
    rw [hpos] at hexec hdata hlatch hbut hdoes
    exact completes_of hexec hdoes ⟨hdata.trans (by congr 1; omega), hlatch.trans (by omega), hbut⟩
  · have hexec : exec (.synFslotValRead k) s = .next (pairRead s (synBase + 0x8008 + 0x20 * k) (fslot s k).value 4) := by
      show Host.Outcome.next _ = _
      rw [if_pos hvalid]
    obtain ⟨hdata, -, hlatch, hbut, hdoes⟩ := pair4 s (synBase + 0x8008 + 0x20 * k) (fslot s k).value
    have hoff : synBase + 0x8008 + 0x20 * k + 4 = synBase + 0x800C + 0x20 * k := by omega
    rw [hoff] at hlatch hbut
    exact completes_of hexec hdoes ⟨hdata, hlatch, hbut⟩
  · exact completes_of (exec_registerWrite_ignored h v) (Does.refl _ s) rfl
  · subst hsize
    have hexec := exec_registerWrite hon (by rw [hoff]; unfold msixBase; omega) v
    rw [hoff, mw0Write_msixData s fn n.isLt] at hexec
    exact completes_of hexec (does_setVec _ _ _ _ (Does.refl _ s))
      ⟨(vec_setVec _ _ _ _ _ _).trans (if_pos rfl), fun p w h => (vec_setVec _ _ _ _ _ _).trans (if_neg h)⟩
  · subst hsize
    have hexec := exec_registerWrite hon (by rw [hoff]; unfold mbOff mbBase; omega) v
    rw [hoff, hfn, mw0Write_mailbox h1 h8 hi hidle] at hexec
    refine completes_of hexec (does_wr _ _ _ (Does.refl _ s)) ⟨(rd_wr_self _ _ _).trans (by omega), wr_regsBut _ _ _⟩
  · exact completes_of (exec_msixSend hdue hopen hlink hlast)
      ((does_setVec _ _ _ _ (does_atAclk s c (Does.refl _ s))).updSent rfl)
      ⟨rfl, rfl, (vec_setVec _ _ _ _ _ _).trans (if_pos rfl), fun p w h => (vec_setVec _ _ _ _ _ _).trans (if_neg h)⟩
  · exact completes_of (exec_msixSend_closed c hdue hopen) (does_setVec _ _ _ _ (does_atAclk s c (Does.refl _ s)))
      ⟨(vec_setVec _ _ _ _ _ _).trans (if_pos rfl), fun p w h => (vec_setVec _ _ _ _ _ _).trans (if_neg h)⟩
  · obtain ⟨hctl, hothers, hvec, hkept, hdoes⟩ := unmasked_facts s fn v en fm
    have hexec := exec_msixUnmask hon v en fm
    generalize unmasked s fn v en fm = u at *
    have hreleases : Does (maskOf [.msix]) u (releasePend u fn (List.range 64)) := does_releasePend _ _ _ (Does.refl _ u)
    have hctlOf (p : Nat) : msixCtlOf (releasePend u fn (List.range 64)) p = msixCtlOf u p := by
      rw [msixCtlOf, msixCtlOf, hreleases.only.msixCtl rfl]
    obtain ⟨-, hreleased, hrest⟩ := releasePend_vec (List.range 64) List.nodup_range u fn
    refine completes_of hexec (hdoes.trans (hreleases.mono (Sub.of_eq rfl))) ⟨(hctlOf _).trans hctl,
      fun p hp => (hctlOf p).trans (hothers p hp), fun n hn => ?_, fun p w hp hw => ?_⟩
    · rw [hreleased n (List.mem_range.2 hn) hn, vecOpen, hctl, hvec n hn]
      simp only [Bool.and_eq_true, Bool.not_eq_true', and_assoc]
    · rw [hrest p w fun k hk => by
        have := List.mem_range.1 hk
        have := hp hw
        omega]
      exact hkept p w (hp hw) hw

end Sys2Proof.Machine

/-!
Doorbells, ring entries, buffers, handle-table entries and unknown opcodes (R385 to R397, R364, R367, R408).
-/
namespace Sys2Proof.Machine

set_option Elab.async false

theorem setSlot_facts (s : State) (n : Nat) (x : SlotSt) :
    slotOf (setSlot s n x) n = x ∧ (∀ k, k ≠ n → slotOf (setSlot s n x) k = slotOf s k) ∧
    Does (maskOf [.slots]) s (setSlot s n x) :=
  ⟨slotOf_setSlot_self _ _ _, fun k hk => (slotOf_setSlot _ _ _ _).trans (if_neg hk), does_setSlot _ _ _ (Does.refl _ s)⟩

/-! ### Doorbells (R387, R390) -/

theorem exec_doorbell {s : State} {fn : Part} {q : Qid} (hlife : (que s q).life ≠ .free) (hpart : (que s q).part = fn)
    (hon : fnOn s fn = true) (v : Nat) :
    (∀ n, (que s q).slot = some n → exec (.doorbell fn q v 4) s = .next (setSlot s n { slotOf s n with
      wptr := wptrAfter (slotOf s n).wptr (slotOf s n).rptr (que s q).entries (v % 2 ^ 32), rung := true })) ∧
    ((que s q).slot = none → exec (.doorbell fn q v 4) s = .next (setQue s q { que s q with
      pageWptr := wptrAfter (que s q).pageWptr (que s q).rptr (que s q).entries (v % 2 ^ 32), pageRung := true })) := by
  have hacts : ¬ (4 ≠ 4 ∨ (que s q).life = .free ∨ (que s q).part ≠ fn ∨ (!fnOn s fn) = true) := by
    simp [hlife, hpart, hon]
  refine ⟨fun n hslot => ?_, fun hslot => ?_⟩
  · show execDoorbell fn q v 4 s = _
    unfold execDoorbell
    simp only [if_neg hacts, hslot]
  · show execDoorbell fn q v 4 s = _
    unfold execDoorbell
    simp only [if_neg hacts, hslot]

/-! ### Ring entries (R391, R393) -/

theorem relocTouch_facts (s : State) (c i : Nat) : Does (maskOf [.reloc]) s (relocTouch s c i) :=
  does_relocTouch _ _ _ (Does.refl _ s)

theorem entryRelocate_ok {s : State} {n : Nat} {w : List Nat} {r : Ref}
    (h : relocate s (some (que s (slotOf s n).queue).ctx) (nth w 0) { read := true } = .ok r) :
    entryRelocate s n w = entryBegin (relocTouch s (que s (slotOf s n).queue).ctx (nth w 0 % 2 ^ 24)) n w r := by
  unfold entryRelocate
  simp only [h]

/-- A ring entry with words begins its buffer (R393). -/
theorem entryBegin_facts {s : State} {n : Nat} {w : List Nat} {r : Ref} (hwords : (entryBuf w r).words ≠ 0) :
    slotOf (entryBegin s n w r) n = { slotOf s n with
      inEntry := true, entryWords := none, buf := entryBuf w r, calls := [], loops := [], skip := 0, fetchedAt := aclk s } ∧
    (∀ k, k ≠ n → slotOf (entryBegin s n w r) k = slotOf s k) ∧
    rd (entryBegin s n w r) (feOff 0x14) = (rd s (feOff 0x14) + 1) % 2 ^ 32 ∧
    RegsBut [feOff 0x14] s (entryBegin s n w r) ∧ Does (maskOf [.regs, .slots]) s (entryBegin s n w r) := by
  unfold entryBegin
  dsimp only
  rw [if_neg hwords]
  exact ⟨slotOf_setSlot_self _ _ _, fun k hk => (slotOf_setSlot _ _ _ _).trans (if_neg hk), rd_wr_self _ _ _,
    bump_regsBut _ _ _, does_setSlot _ _ _ (does_bump _ _ _ (Does.refl _ s))⟩

theorem exec_ringEntryFetch {s : State} {n : Slot} (hvalid : (slotOf s n).valid = true) (hruns : feRuns s = true)
    (hmode : (slotOf s n).mode = .fetching) (hentry : (slotOf s n).inEntry = false) (hmiss : (slotOf s n).miss = none)
    (hwords : (slotOf s n).entryWords = none) (hrptr : (slotOf s n).rptr ≠ (slotOf s n).wptrSeen)
    (hok : readFault s (que s (slotOf s n).queue).part (entryAt (que s (slotOf s n).queue) (slotOf s n).rptr) 16 = none) :
    exec (.ringEntryFetch n .ok) s = .next (entryRelocate s n (bytesWords (devBytes s (que s (slotOf s n).queue).part
      (entryAt (que s (slotOf s n).queue) (slotOf s n).rptr) 16))) := by
  show execRingEntryFetch n .ok s = _
  unfold execRingEntryFetch
  simp only [hvalid, hruns, hmode, hentry, hmiss, hwords, hrptr, hok, mcEcc_ok, Bool.not_true, Bool.not_false,
    Bool.false_eq_true, or_self, if_false, ne_eq, not_false_eq_true, and_self, if_true, reduceCtorEq]

/-! ### Buffer ends (R392, R401) -/

theorem bufferEnd_cases {s : State} {n : Nat} (hloops : ownLoops (slotOf s n) = []) :
    (∀ b r, (slotOf s n).calls = b :: r →
      bufferEnd s n = setSlot s n { slotOf s n with buf := b, calls := r, skip := 0 }) ∧
    ((slotOf s n).calls = [] → bufferEnd s n = slotAdvance s n) := by
  unfold bufferEnd
  refine ⟨fun b r hcalls => ?_, fun hcalls => ?_⟩
  · simp only [hloops, ne_eq, not_true_eq_false, if_false, hcalls]
  · simp only [hloops, ne_eq, not_true_eq_false, if_false, hcalls]

/-- The slot behind the end of its ring entry, with nothing read ahead (R392). -/
def SlotSt.advanced (x : SlotSt) : SlotSt :=
  { x with inEntry := false, entryWords := none, rptr := (x.rptr + 1) % 2 ^ 32, calls := [], loops := [], skip := 0,
           ahead := none, pf := none, pfMiss := none, buf := {} }

theorem exec_ringEntryEnd_idle {s : State} {n : Slot} (hruns : feRuns s = true) (hvalid : (slotOf s n).valid = true)
    (hmode : (slotOf s n).mode = .fetching) (hentry : (slotOf s n).inEntry = false)
    (hwords : (slotOf s n).entryWords = none) (hrptr : (slotOf s n).rptr = (slotOf s n).wptrSeen) :
    exec (.ringEntryEnd n) s = .next (idleStep s n) := by
  have hbuf : atBufEnd (slotOf s n) = false := by
    unfold atBufEnd
    rw [hentry]
    simp
  show execRingEntryEnd n s = _
  unfold execRingEntryEnd
  simp only [hbuf, Bool.false_eq_true, false_and, and_false, if_false]
  exact if_pos ⟨hruns, hvalid, hmode, by rw [hentry]; rfl, hwords, hrptr⟩

theorem exec_ringEntryEnd_advances {s : State} {n : Slot} (hruns : feRuns s = true) (hbuf : atBufEnd (slotOf s n) = true)
    (hcalls : (slotOf s n).calls = []) (hloops : ownLoops (slotOf s n) = []) (hpf : (slotOf s n).pf = none)
    (hmore : ((slotOf s n).rptr + 1) % 2 ^ 32 ≠ (slotOf s n).wptrSeen) :
    exec (.ringEntryEnd n) s = .next (setSlot s n (slotOf s n).advanced) := by
  have hend : bufferEnd s n = setSlot s n (slotOf s n).advanced :=
    ((bufferEnd_cases hloops).2 hcalls).trans (slotAdvance_none hpf)
  show execRingEntryEnd n s = _
  unfold execRingEntryEnd
  simp only [if_pos (show feRuns s = true ∧ atBufEnd (slotOf s n) = true ∧ (slotOf s n).calls = [] from
    ⟨hruns, hbuf, hcalls⟩), hend, slotOf_setSlot_self]
  exact if_neg fun h => hmore h.2.2.2.2.2

/-! ### Reading ahead (R394) -/

theorem exec_bufferPrefetch {s : State} {n : Slot} {p : Prefetch} {b : Buf} (hpf : (slotOf s n).pf = some p)
    (hbuf : p.buf = some b) (hruns : feRuns s = true) (hvalid : (slotOf s n).valid = true) (hbytes : p.bytes = none)
    (hgood : p.bad = false) (hbit : bit (nth p.words 2) 8 = false) (hwords : b.words ≠ 0)
    (hok : readFault (bump s (feOff 0x1C)) (que s (slotOf s n).queue).part b.addr (min 65536 (4 * b.words)) = none) :
    exec (.bufferPrefetch n .ok) s = .next (setSlot (bump s (feOff 0x1C)) n { slotOf s n with pf := some { p with
      bytes := some (devBytes (bump s (feOff 0x1C)) (que s (slotOf s n).queue).part b.addr (min 65536 (4 * b.words))) } }) := by
  show execBufferPrefetch n .ok s = _
  unfold execBufferPrefetch
  simp only [hpf, hbuf, hruns, hvalid, hbytes, hgood, hbit, hwords, mcEcc_ok, hok, Bool.not_true, Bool.false_eq_true,
    Option.isSome_none, or_self, if_false, reduceCtorEq]

/-! ### Handle-table entries (R364, R367) -/

theorem exec_handleEntryFetch {s : State} {n : Slot} {c i : Nat} {w : List Nat} (hmiss : (slotOf s n).miss = some (c, i))
    (hquiet : tablePending s c = false) (hok : readFault s (ctxOf s c).part ((ctxOf s c).table + 16 * i) 16 = none)
    (hw : w = bytesWords (devBytes s (ctxOf s c).part ((ctxOf s c).table + 16 * i) 16)) (hvalid : bits (nth w 1) 24 8 ≠ 0)
    (hwords : (slotOf s n).entryWords = none) :
    exec (.handleEntryFetch n .ok) s = .next { setSlot s n { slotOf s n with miss := none } with
      reloc := ((c, i, w) :: s.reloc.filter fun y => !(y.1 == c && y.2.1 == i)).take 512 } := by
  have hread : handleRead s c i .ok = .ok w := by
    unfold handleRead
    simp only [reduceCtorEq, if_false, hok, Option.isSome_none, Bool.false_eq_true, hw]
  have hinsert (t : State) : relocInsert t c i w =
      { t with reloc := ((c, i, w) :: t.reloc.filter fun y => !(y.1 == c && y.2.1 == i)).take 512 } := if_neg hvalid
  show execHandleEntryFetch n .ok s = _
  unfold execHandleEntryFetch
  simp only [hmiss, hquiet, hread, hwords, mcEcc_ok, Bool.false_eq_true, if_false, if_neg hvalid, hinsert]
  rfl

theorem exec_bufferEnd {s : State} {n : Slot} (hruns : feRuns s = true) (hbuf : atBufEnd (slotOf s n) = true) :
    exec (.bufferEnd n) s = .next (bufferEnd s n) := if_pos ⟨hruns, hbuf⟩

/-! ### Unknown opcodes (R397) -/

theorem exec_unknownOpcode {s : State} {n : Slot} (hruns : feRuns s = true) (hready : canDecode (slotOf s n) = true)
    (hok : cmdFault s n 1 = none) (hop : bits (nth (cmdWords s n 1) 0) 24 8 ∉ opcodes) :
    exec (.unknownOpcode n) s = .next (queueFault (setSlot s n { slotOf s n with hdr := (slotOf s n).buf.pos }) n 0x20
      (bits (nth (cmdWords s n 1) 0) 24 8)) := by
  show execUnknownOpcode n s = _
  unfold execUnknownOpcode
  simp only [hruns, hready, hok, Bool.not_true, Bool.false_eq_true, or_self, if_false]
  exact if_neg fun h => hop (List.contains_iff_mem.1 h)

/-- Settles O27, clause by clause from the `exec_` equation of each command. -/
theorem ringsAndBuffers : Obligations.RingsAndBuffers := by
  unfold Obligations.RingsAndBuffers
  refine ⟨fun s fn q v hlife hpart hon => ?_, fun s n hruns hvalid hmode hrung => ?_,
    fun s n p w r hvalid hruns hmode hentry hmiss hwords hrptr hp hok hw hreloc hbuf => ?_,
    fun s n hruns hvalid hmode hentry hwords hrptr => ?_, fun s n hruns hbuf hcalls hloops hpf hmore => ?_,
    fun s n p b hpf hb hruns hvalid hbytes hgood hbit hwords hok => ?_, fun s n hruns hbuf hloops hpf => ?_,
    fun s n c i w hmiss hquiet hok hw hvalid hwords => ?_, fun s n hruns hready hok hop => ?_⟩
  · obtain ⟨hloaded, hunloaded⟩ := exec_doorbell hlife hpart hon v
    rcases hslot : (que s q).slot with - | n
    · refine completes_of (hunloaded hslot) (does_setQue _ _ _ (Does.refl _ s)) ⟨fun n hn => absurd hn nofun, fun _ => ?_⟩
      exact ⟨rfl, fun k hk => (que_setQue _ _ _ _).trans (if_neg hk), que_setQue_self _ _ _⟩
    · refine completes_of (hloaded n hslot) (does_setSlot _ _ _ (Does.refl _ s)) ⟨fun m hm => ?_, nofun⟩
      obtain rfl : n = m := Option.some.inj hm
      obtain ⟨hself, hothers, -⟩ := setSlot_facts s n { slotOf s n with
        wptr := wptrAfter (slotOf s n).wptr (slotOf s n).rptr (que s q).entries (v % 2 ^ 32), rung := true }
      exact ⟨rfl, hothers, hself⟩
  · have hexec : exec (.slotWake n) s = .next (setSlot s n { slotOf s n with
        mode := .fetching, hold := 0, wptrSeen := (slotOf s n).wptr }) := if_pos ⟨hruns, hvalid, hmode, hrung⟩
    exact completes_of hexec (does_setSlot _ _ _ (Does.refl _ s))
      ⟨fun k hk => (slotOf_setSlot _ _ _ _).trans (if_neg hk), slotOf_setSlot_self _ _ _⟩
  · subst hp
    have hexec := exec_ringEntryFetch hvalid hruns hmode hentry hmiss hwords hrptr hok
    rw [← hw, entryRelocate_ok hreloc] at hexec
    have htouch := relocTouch_facts s (que s (slotOf s n).queue).ctx (nth w 0 % 2 ^ 24)
    generalize relocTouch s (que s (slotOf s n).queue).ctx (nth w 0 % 2 ^ 24) = u at *
    obtain ⟨hself, hothers, hcount, hbut, hdoes⟩ := entryBegin_facts (s := u) (n := n) hbuf
    rw [slotOf_congr (htouch.only.slots rfl), ownAclk htouch rfl rfl rfl rfl] at hself
    exact completes_of hexec ((htouch.mono (Sub.of_eq rfl)).trans (hdoes.mono (Sub.of_eq rfl)))
      ⟨hcount.trans (by rw [rd_congr (htouch.only.regs rfl)]), regsBut_congr (htouch.only.regs rfl) hbut,
        fun k hk => (hothers k hk).trans (slotOf_congr (htouch.only.slots rfl) k), hself⟩
  · refine completes_of (exec_ringEntryEnd_idle hruns hvalid hmode hentry hwords hrptr) (does_idleStep _ _ (Does.refl _ s)) ?_
    unfold idleStep
    by_cases hnew : (slotOf s n).wptr = (slotOf s n).rptr
    · rw [if_neg (not_not_intro hnew)]
      exact ⟨fun k hk => (slotOf_setSlot _ _ _ _).trans (if_neg hk), fun h => absurd hnew h,
        fun _ => slotOf_setSlot_self _ _ _⟩
    · rw [if_pos hnew]
      exact ⟨fun k hk => (slotOf_setSlot _ _ _ _).trans (if_neg hk), fun _ => slotOf_setSlot_self _ _ _,
        fun h => absurd h hnew⟩
  · obtain ⟨hself, hothers, hdoes⟩ := setSlot_facts s n (slotOf s n).advanced
    refine completes_of (exec_ringEntryEnd_advances hruns hbuf hcalls hloops hpf hmore) hdoes ⟨hothers, ?_⟩
    rw [hself]
    simp only [atBufEnd, Bool.and_eq_true, beq_iff_eq] at hbuf
    exact ⟨rfl, rfl, hbuf.1.1.2, rfl, rfl⟩
  · have hexec := exec_bufferPrefetch hpf hb hruns hvalid hbytes hgood hbit hwords hok
    exact completes_of hexec (does_setSlot _ _ _ (does_bump _ _ _ (Does.refl _ s)))
      ⟨rd_wr_self _ _ _, bump_regsBut _ _ _, fun k hk => (slotOf_setSlot _ _ _ _).trans (if_neg hk), _, rfl,
        slotOf_setSlot_self _ _ _⟩
  · obtain ⟨hreturn, hend⟩ := bufferEnd_cases hloops
    have hexec := exec_bufferEnd hruns hbuf
    rcases hcalls : (slotOf s n).calls with - | ⟨b, r⟩
    · rw [hend hcalls, slotAdvance_none hpf] at hexec
      refine completes_of hexec (does_setSlot _ _ _ (Does.refl _ s))
        ⟨fun k hk => (slotOf_setSlot _ _ _ _).trans (if_neg hk), nofun, fun _ => ?_⟩
      rw [slotOf_setSlot_self]
      exact ⟨rfl, rfl⟩
    · rw [hreturn b r hcalls] at hexec
      refine completes_of hexec (does_setSlot _ _ _ (Does.refl _ s))
        ⟨fun k hk => (slotOf_setSlot _ _ _ _).trans (if_neg hk), fun b' r' h => ?_, nofun⟩
      obtain ⟨rfl, rfl⟩ := List.cons.inj h
      exact slotOf_setSlot_self _ _ _
  · have hexec := exec_handleEntryFetch hmiss hquiet hok hw hvalid hwords
    refine completes_of hexec ((does_setSlot _ _ _ (Does.refl _ s)).updReloc rfl)
      ⟨fun k hk => (slotOf_setSlot _ _ _ _).trans (if_neg hk), slotOf_setSlot_self _ _ _, ?_, rfl⟩
    rw [relocFind, List.take_succ_cons, List.find?_cons_of_pos (by simp)]
    rfl
  · have hexec := exec_unknownOpcode hruns hready hok hop
    exact completes_of hexec (does_queueFault _ _ _ _ _ (does_setSlot _ _ _ (Does.refl _ s)))
      (queueFault_faulted _ _ _ _).fromHdr

end Sys2Proof.Machine

/-!
Flow-control commands (R399 to R406).
-/
namespace Sys2Proof.Machine

set_option Elab.async false

/-- A change of a slot that neither reads nor writes its header place and flow timer. -/
def KeepsHeader (f : SlotSt → SlotSt) : Prop :=
  ∀ x a b c, f { x with hdr := a, flowFrom := b, flowLimit := c } =
    { f x with hdr := a, flowFrom := b, flowLimit := c }

/-- A command whose checks pass changes its slot, and notes its header place and its flow timer (R397, R427). -/
theorem decoded_sets (s : State) (n op : Nat) (needs : List (Nat × Need)) {f : SlotSt → SlotSt} (hf : KeepsHeader f)
    {u : State} (hu : Does (maskOf [.slots]) (decoded s n op needs) u)
    (hkept : ∀ k, k ≠ n → slotOf u k = slotOf (decoded s n op needs) k) :
    Does (maskOf [.regs, .slots, .reloc]) s (setSlot u n (f (slotOf (decoded s n op needs) n))) ∧
    RegsBut [feOff 0x14] s (setSlot u n (f (slotOf (decoded s n op needs) n))) ∧
    SlotIs s (setSlot u n (f (slotOf (decoded s n op needs) n))) n (f (slotOf s n)) := by
  obtain ⟨hdoes, hregs, ⟨a, b, c, hslot⟩, hothers⟩ := decoded_facts s n op needs
  refine ⟨does_setSlot _ _ _ (hdoes.trans (hu.mono (Sub.of_eq rfl))), fun o ho => ?_,
    SlotIs.set (fun k hk => (hkept k hk).trans (hothers k hk)) ?_⟩
  · exact (rd_congr (hu.only.regs rfl) o).trans (hregs o ho)
  · rw [hslot, hf]

/-- The same for a command that changes its slot once. -/
theorem decoded_setsOnce (s : State) (n op : Nat) (needs : List (Nat × Need)) {f : SlotSt → SlotSt} (hf : KeepsHeader f) :
    Does (maskOf [.regs, .slots, .reloc]) s (setSlot (decoded s n op needs) n (f (slotOf (decoded s n op needs) n))) ∧
    RegsBut [feOff 0x14] s (setSlot (decoded s n op needs) n (f (slotOf (decoded s n op needs) n))) ∧
    SlotIs s (setSlot (decoded s n op needs) n (f (slotOf (decoded s n op needs) n))) n (f (slotOf s n)) :=
  decoded_sets s n op needs hf (Does.refl _ _) fun _ _ => rfl

/-- The same for a command that first moves past itself. -/
theorem decoded_setsPast (s : State) (n op : Nat) (needs : List (Nat × Need)) (k : Nat) {f : SlotSt → SlotSt}
    (hf : KeepsHeader f) :
    Does (maskOf [.regs, .slots, .reloc]) s
      (setSlot (pastCmd (decoded s n op needs) n k) n (f (slotOf (decoded s n op needs) n))) ∧
    RegsBut [feOff 0x14] s (setSlot (pastCmd (decoded s n op needs) n k) n (f (slotOf (decoded s n op needs) n))) ∧
    SlotIs s (setSlot (pastCmd (decoded s n op needs) n k) n (f (slotOf (decoded s n op needs) n))) n (f (slotOf s n)) :=
  decoded_sets s n op needs hf (does_setSlot _ _ _ (Does.refl _ _)) fun _ hj => (slotOf_setSlot _ _ _ _).trans (if_neg hj)

/-! ### What each command does to its slot -/

theorem pastCmd_slot (s : State) (n k : Nat) : slotOf (pastCmd s n k) n = (slotOf s n).past k := slotOf_setSlot_self _ _ _

/-- The slot behind a JUMP (R401). -/
def SlotSt.jumped (b : Buf) (x : SlotSt) : SlotSt :=
  { x with buf := b, skip := 0, ahead := if x.calls = [] then none else x.ahead }

/-- The slot behind a CALL of a buffer with words (R401). -/
def SlotSt.called (k : Nat) (b : Buf) (x : SlotSt) : SlotSt := { x with buf := b, calls := (x.past k).buf :: x.calls }

/-- The slot behind a RETURN (R402). -/
def SlotSt.returned (b : Buf) (r : List Buf) (x : SlotSt) : SlotSt := { x with buf := b, calls := r, skip := 0 }

/-- The slot behind a LOOP (R403). -/
def SlotSt.looping (k count : Nat) (x : SlotSt) : SlotSt :=
  { x.past k with loops := { left := max 1 count, body := x.buf.pos + k, depth := x.calls.length } :: x.loops }

/-- The slot behind the last pass of a loop (R403). -/
def SlotSt.loopClosed (k : Nat) (r : List LoopSt) (x : SlotSt) : SlotSt := { x.past k with loops := r }

/-- The slot at the start of a further pass (R403). -/
def SlotSt.loopRepeated (l : LoopSt) (r : List LoopSt) (x : SlotSt) : SlotSt :=
  { x with loops := { l with left := l.left - 1 } :: r, buf := { x.buf with pos := l.body } }

/-- The slot behind a COND that fails (R405). -/
def SlotSt.skipping (k count : Nat) (x : SlotSt) : SlotSt := { x.past k with skip := count }

theorem past_keeps (k : Nat) : KeepsHeader (·.past k) := fun _ _ _ _ => rfl

/-! ### COND (R405, R406) -/

/-- COND compares the word at its address, 0 when it does not lie inside the object (R405). -/
theorem condTest_eq {s : State} {n : Nat} {w : List Nat} {r : Ref} {p len a x y m : Nat}
    (hp : p = (que s (slotOf s n).queue).part) (hlen : len = if bit (nth w 0) 3 then 8 else 4)
    (ha : a = r.addr + nth w 2 / len * len + hi32 (bits (nth w 3) 0 8))
    (hok : a + len ≤ r.bound → readFault s p a len = none) (hx : x = if a + len ≤ r.bound then devNat s p a len else 0)
    (hy : y = if bit (nth w 0) 3 then nth w 4 + hi32 (nth w 5) else nth w 4)
    (hm : m = if bit (nth w 0) 3 then nth w 6 + hi32 (nth w 7) else nth w 6) :
    condTest s n w r = if compareFn (bits (nth w 0) 0 3) (Nat.land x m) y then pastCmd s n w.length else
      setSlot (pastCmd s n w.length) n ((slotOf s n).skipping w.length (bits (nth w 8) 0 12)) := by
  have hact : condTest s n w r = condAct s n w p a (Nat.ble (a + len) r.bound)
      (if Nat.ble (a + len) r.bound then readFault s p a len else none) := by
    rw [ha, hlen, hp]
    rfl
  have hfault : (if Nat.ble (a + len) r.bound then readFault s p a len else none) = none := by
    split
    · next hin => exact hok (Nat.le_of_ble_eq_true hin)
    · rfl
  rw [hact, hfault]
  unfold condAct
  dsimp only
  rw [← hlen, ← hy, ← hm, pastCmd_slot]
  simp only [Nat.ble_eq, ← hx]
  rfl

/-- Settles O28, clause by clause: what a decoded command leaves, then what it does to its slot. -/
theorem flowControlCommands : Obligations.FlowControlCommands := by
  unfold Obligations.FlowControlCommands
  refine ⟨fun s n w h => ?_, fun s n w r h => ?_, fun s n w r h => ?_, fun s n w b r h hcalls => ?_, fun s n w h => ?_,
    fun s n w l r h hloops => ?_, fun s n w r p len a x y m h hidle hp hlen ha hok hx hy hm => ?_⟩
  · have hexec : exec (.nop n) s = .next (setSlot (decoded s n 0x00 []) n ((slotOf (decoded s n 0x00 []) n).past w.length)) :=
      decodeAct h rfl
    obtain ⟨hdoes, hregs, hslot⟩ := decoded_setsOnce s n 0x00 [] (past_keeps w.length)
    exact completes_of hexec hdoes ⟨hregs, hslot⟩
  · have hexec : exec (.jump n) s = .next (actJump (decoded s n 0x01 (readNeed w)) n w [r]) := decodeAct h rfl
    have hact : actJump (decoded s n 0x01 (readNeed w)) n w [r] = setSlot (decoded s n 0x01 (readNeed w)) n
        ((slotOf (decoded s n 0x01 (readNeed w)) n).jumped (targetBuf w r)) := rfl
    obtain ⟨hdoes, hregs, hslot⟩ := decoded_setsOnce s n 0x01 (readNeed w) (f := (·.jumped (targetBuf w r)))
      fun _ _ _ _ => rfl
    rw [hact] at hexec
    exact completes_of hexec hdoes ⟨hregs, hslot⟩
  · have hexec : exec (.call n) s = .next (actCall (decoded s n 0x02 (readNeed w)) n w [r]) := decodeAct h rfl
    by_cases hwords : (targetBuf w r).words = 0
    · have hact : actCall (decoded s n 0x02 (readNeed w)) n w [r] = pastCmd (decoded s n 0x02 (readNeed w)) n w.length :=
        if_pos hwords
      obtain ⟨hdoes, hregs, hslot⟩ := decoded_setsOnce s n 0x02 (readNeed w) (past_keeps w.length)
      rw [hact] at hexec
      exact completes_of hexec hdoes ⟨hregs, fun _ => hslot, fun h => absurd hwords h⟩
    · have hact : actCall (decoded s n 0x02 (readNeed w)) n w [r] = setSlot (pastCmd (decoded s n 0x02 (readNeed w)) n w.length)
          n ((slotOf (decoded s n 0x02 (readNeed w)) n).called w.length (targetBuf w r)) := by
        refine (if_neg hwords).trans ?_
        rw [pastCmd_slot]
        rfl
      obtain ⟨hdoes, hregs, hslot⟩ := decoded_setsPast s n 0x02 (readNeed w) w.length
        (f := (·.called w.length (targetBuf w r))) fun _ _ _ _ => rfl
      rw [hact] at hexec
      exact completes_of hexec hdoes ⟨hregs, fun h => absurd h hwords, fun _ => hslot⟩
  · have hexec : exec (.ret n) s = .next (actRet (decoded s n 0x03 []) n w []) := decodeAct h rfl
    have hact : actRet (decoded s n 0x03 []) n w [] =
        setSlot (decoded s n 0x03 []) n ((slotOf (decoded s n 0x03 []) n).returned b r) := by
      obtain ⟨-, -, ⟨i, j, k, hslot⟩, -⟩ := decoded_facts s n 0x03 []
      have hcalls' : (slotOf (decoded s n 0x03 []) n).calls = b :: r := by
        rw [hslot]
        exact hcalls
      unfold actRet
      simp only [hcalls']
      rfl
    obtain ⟨hdoes, hregs, hslot⟩ := decoded_setsOnce s n 0x03 [] (f := (·.returned b r)) fun _ _ _ _ => rfl
    rw [hact] at hexec
    exact completes_of hexec hdoes ⟨hregs, hslot⟩
  · have hexec : exec (.loop n) s = .next (actLoop (decoded s n 0x04 []) n w []) := decodeAct h rfl
    have hact : actLoop (decoded s n 0x04 []) n w [] = setSlot (pastCmd (decoded s n 0x04 []) n w.length) n
        ((slotOf (decoded s n 0x04 []) n).looping w.length (nth w 1)) := by
      unfold actLoop
      dsimp only
      rw [pastCmd_slot]
      rfl
    obtain ⟨hdoes, hregs, hslot⟩ := decoded_setsPast s n 0x04 [] w.length (f := (·.looping w.length (nth w 1)))
      fun _ _ _ _ => rfl
    rw [hact] at hexec
    exact completes_of hexec hdoes ⟨hregs, hslot⟩
  · have hexec : exec (.endloop n) s = .next (actEndloop (decoded s n 0x05 []) n w []) := decodeAct h rfl
    have hloops' : (slotOf (decoded s n 0x05 []) n).loops = l :: r := by
      obtain ⟨-, -, ⟨i, j, k, hslot⟩, -⟩ := decoded_facts s n 0x05 []
      rw [hslot]
      exact hloops
    by_cases hlast : l.left = 1
    · have hact : actEndloop (decoded s n 0x05 []) n w [] = setSlot (setSlot (decoded s n 0x05 []) n
          { slotOf (decoded s n 0x05 []) n with loops := r }) n ((slotOf (decoded s n 0x05 []) n).loopClosed w.length r) := by
        unfold actEndloop
        simp only [hloops', if_pos hlast]
        unfold pastCmd
        dsimp only
        rw [slotOf_setSlot_self]
        rfl
      obtain ⟨hdoes, hregs, hslot⟩ := decoded_sets s n 0x05 [] (f := (·.loopClosed w.length r)) (fun _ _ _ _ => rfl)
        (does_setSlot (decoded s n 0x05 []) n { slotOf (decoded s n 0x05 []) n with loops := r } (Does.refl _ _))
        fun _ hj => (slotOf_setSlot _ _ _ _).trans (if_neg hj)
      rw [hact] at hexec
      exact completes_of hexec hdoes ⟨hregs, fun _ => hslot, fun h => absurd hlast h⟩
    · have hact : actEndloop (decoded s n 0x05 []) n w [] = setSlot (decoded s n 0x05 []) n
          ((slotOf (decoded s n 0x05 []) n).loopRepeated l r) := by
        unfold actEndloop
        simp only [hloops', if_neg hlast]
        rfl
      obtain ⟨hdoes, hregs, hslot⟩ := decoded_setsOnce s n 0x05 [] (f := (·.loopRepeated l r)) fun _ _ _ _ => rfl
      rw [hact] at hexec
      exact completes_of hexec hdoes ⟨hregs, fun h => absurd h hlast, fun _ => hslot⟩
  · have hexec : exec (.cond n) s = .next (actCond (decoded s n 0x06 (readNeed w)) n w [r]) := decodeAct h rfl
    obtain ⟨hqueue, hidle', -, -⟩ := decoded_order s n 0x06 (readNeed w)
    have hact : actCond (decoded s n 0x06 (readNeed w)) n w [r] = condTest (decoded s n 0x06 (readNeed w)) n w r := by
      refine if_neg fun hholds => ?_
      rw [hqueue, hidle'] at hholds
      rcases hidle with hidle | hidle
      · simp [hidle] at hholds
      · simp [hidle] at hholds
    have hp' : p = (que (decoded s n 0x06 (readNeed w)) (slotOf (decoded s n 0x06 (readNeed w)) n).queue).part := by
      rw [hqueue, que_congr ((decoded_facts s n 0x06 (readNeed w)).1.only.queues rfl)]
      exact hp
    rw [hact, condTest_eq hp' hlen ha hok hx hy hm] at hexec
    cases hmet : compareFn (bits (nth w 0) 0 3) (Nat.land x m) y with
    | true =>
      obtain ⟨hdoes, hregs, hslot⟩ := decoded_setsOnce s n 0x06 (readNeed w) (past_keeps w.length)
      rw [hmet, if_pos rfl] at hexec
      exact completes_of hexec hdoes ⟨hregs, fun _ => hslot, nofun⟩
    | false =>
      obtain ⟨hdoes, hregs, hslot⟩ := decoded_setsPast s n 0x06 (readNeed w) w.length
        (f := (·.skipping w.length (bits (nth w 8) 0 12))) fun _ _ _ _ => rfl
      rw [hmet, if_neg Bool.false_ne_true] at hexec
      exact completes_of hexec hdoes ⟨hregs, nofun, fun _ => hslot⟩

end Sys2Proof.Machine

/-!
Fences, semaphores and registers written by queues (R292, R293, R411, R416).
-/
namespace Sys2Proof.Machine

set_option Elab.async false

/-! ### The order of a queue (R411) -/

theorem prevDone_begins {s : State} {n op : Nat} {needs : List (Nat × Need)} {w : List Nat} {refs : List Ref}
    {act : State → Nat → List Nat → List Ref → State} (h : prevDone s (slotOf s n).queue = true) :
    startOr (prevDone (decoded s n op needs) (slotOf (decoded s n op needs) n).queue) op act (decoded s n op needs) n w refs =
      act (began s n op needs w.length) n w refs := by
  obtain ⟨hqueue, -, hprev, -⟩ := decoded_order s n op needs
  exact startOr_begins (by rw [hqueue, hprev]; exact h)

theorem queueIdle_begins {s : State} {n op : Nat} {needs : List (Nat × Need)} {w : List Nat} {refs : List Ref}
    {act : State → Nat → List Nat → List Ref → State} (h : queueIdle s (slotOf s n).queue = true) :
    startOr (queueIdle (decoded s n op needs) (slotOf (decoded s n op needs) n).queue) op act (decoded s n op needs) n w refs =
      act (began s n op needs w.length) n w refs := by
  obtain ⟨hqueue, hidle, -, -⟩ := decoded_order s n op needs
  exact startOr_begins (by rw [hqueue, hidle]; exact h)

/-! ### Wait jobs (R289, R292) -/

/-- A wait that begins: its job has started and its slot is held (R290, R292). -/
theorem waitBegun {s u v : State} {n : Nat} {x : SlotSt} (hslot : SlotIs s u n x)
    (hu : Does (maskOf [.regs, .slots, .reloc]) s u) (hv : Does (maskOf [.regs, .log, .msix, .semCycles]) u v)
    (q hold : Nat) (sp : Option Spin) :
    JobStarted s (holdWait (startJob v q .wait) n hold sp) q .wait ∧
    SlotIs s (holdWait (startJob v q .wait) n hold sp) n
      { x with mode := .held, hold := hold, waitFrom := some s.now, spin := sp } ∧
    Does (maskOf [.queues, .slots, .jobs, .jobKey]) v (holdWait (startJob v q .wait) n hold sp) := by
  have hstart : Does (maskOf [.queues, .jobs, .jobKey]) v (startJob v q .wait) := does_startJob _ _ _ (Does.refl _ v)
  have hnow : (startJob v q .wait).now = s.now := (hstart.only.now rfl).trans ((hv.only.now rfl).trans (hu.only.now rfl))
  have hslots : (startJob v q .wait).slots = u.slots := (hstart.only.slots rfl).trans (hv.only.slots rfl)
  refine ⟨(startJob_started v q .wait).congr ?_ ?_ ?_ ?_ rfl rfl rfl, ?_,
    does_holdWait _ _ _ _ (hstart.mono (Sub.of_eq rfl))⟩
  · exact (hv.only.queues rfl).trans (hu.only.queues rfl)
  · exact (hv.only.jobs rfl).trans (hu.only.jobs rfl)
  · exact (hv.only.jobKey rfl).trans (hu.only.jobKey rfl)
  · exact (hv.only.now rfl).trans (hu.only.now rfl)
  · rw [← hnow]
    exact holdWait_slotIs hslot hslots

/-- A wait on a fence in no slot asks for the fence's word (R286, R292). -/
theorem beginWaitFence_absent {u : State} {n : Nat} {w : List Nat} {r : Ref} {a : Nat} (hfence : fenceRef w 2 r = some a)
    (hok : readFault u (que u (slotOf u n).queue).part a 8 = none) (habsent : fenceSlotOf u a = none) :
    beginWaitFence u n w [r] = { holdWait (startJob u (slotOf u n).queue .wait) n 1 none with
      pageIns := u.pageIns ++ [{ slot := n, addr := a, value := val64 w 4, part := (que u (slotOf u n).queue).part }] } := by
  have hdoes : Does (maskOf [.queues, .slots, .jobs, .jobKey]) u (holdWait (startJob u (slotOf u n).queue .wait) n 1 none) :=
    does_holdWait _ _ _ _ (does_startJob _ _ _ (Does.refl _ u))
  unfold beginWaitFence ref0
  simp only [List.headD_cons, hfence, readFault_same (hdoes.only.regs rfl), hok, fenceSlotOf_same (hdoes.only.fslots rfl),
    habsent, hdoes.only.pageIns rfl]

/-! ### Signals (R293) -/

theorem beginSignalFence_sends {u : State} {n : Nat} {w : List Nat} {r : Ref} {a : Nat} (hfence : fenceRef w 2 r = some a)
    (hok : writeFault u (que u (slotOf u n).queue).part a 8 = none) :
    beginSignalFence u n w [r] = sendSignal (instantJob u (slotOf u n).queue 0)
      { addr := a, value := val64 w 4, tag := (que u (slotOf u n).queue).part, req := 84, queue := some (slotOf u n).queue } := by
  unfold beginSignalFence ref0
  simp only [List.headD_cons, hfence, hok]

/-! ### Semaphore operations (R292) -/

theorem semSub_begun {u : State} {n sem : Nat} {w : List Nat} (h : semOpTarget u n w = some sem) (hquiet : SemQuiet u sem) :
    Does (maskOf [.regs, .log, .msix, .semCycles, .queues]) u (beginSemSub u n w []) ∧
    RegsBut [semOff sem] u (beginSemSub u n w []) ∧ InstantJob u (beginSemSub u n w []) (slotOf u n).queue 0 ∧
    (beginSemSub u n w []).log = u.log ∧ semVal (beginSemSub u n w []) sem = semVal u sem - nth w 2 := by
  have hact : beginSemSub u n w [] = instantJob (semSub u sem (nth w 2)) (slotOf u n).queue 0 := by
    unfold beginSemSub
    simp only [h]
  obtain ⟨hval, hbut, hlog⟩ := semSub_word hquiet (semOf_lt h) (nth w 2)
  have hop : Does (maskOf [.regs, .log, .msix, .semCycles]) u (semSub u sem (nth w 2)) := does_semSub _ _ _ (Does.refl _ u)
  have hjob : Does (maskOf [.queues]) (semSub u sem (nth w 2)) (instantJob (semSub u sem (nth w 2)) (slotOf u n).queue 0) :=
    does_instantJob _ _ _ (Does.refl _ _)
  rw [hact]
  exact ⟨(hop.mono (Sub.of_eq rfl)).trans (hjob.mono (Sub.of_eq rfl)),
    fun o ho => (rd_congr (hjob.only.regs rfl) o).trans (hbut o ho),
    (instantJob_done _ _ _).congr (hop.only.queues rfl) (hop.only.jobs rfl) rfl rfl, (hjob.only.log rfl).trans hlog,
    (semVal_congr (hjob.only.regs rfl) sem).trans hval⟩

/-- An ARRIVE of a queue for the round being collected counts, and the slot then waits as BAR_WAIT does (R278, R292). -/
theorem beginSemArrive_counts {u : State} {n sem : Nat} {w : List Nat} (h : semOpTarget u n w = some sem)
    (hquiet : SemQuiet u sem) (hround : barDist (bits (nth w 2) 0 16) (semVal u sem) = 0) :
    beginSemArrive u n w [] = holdWait (startJob
      (semArriveAt u sem (aclk u) 4 (bits (nth w 2) 0 16) (bits (nth w 2) 16 16)) (slotOf u n).queue .wait) n 2
      (some { sem := sem, want := .barrier (bits (nth w 2) 0 16), issued := aclk u }) := by
  unfold beginSemArrive
  simp only [h]
  exact if_pos (by rw [semIn_result hquiet]; exact hround)

theorem beginSemWait_zero {u : State} {n sem : Nat} {w : List Nat} (h : semOpTarget u n w = some sem) (hzero : nth w 2 = 0) :
    beginSemWait u n w [] = instantJob u (slotOf u n).queue 0 := by
  unfold beginSemWait
  simp only [h, if_pos hzero]

theorem beginSemWait_polls {u : State} {n sem : Nat} {w : List Nat} (h : semOpTarget u n w = some sem) (hn : nth w 2 ≠ 0) :
    beginSemWait u n w [] = holdWait (startJob u (slotOf u n).queue .wait) n 2
      (some { sem := sem, want := .atLeast (nth w 2), issued := aclk u }) := by
  unfold beginSemWait
  simp only [h, if_neg hn]

/-- The slot that holds a decoded command for job order (R411). -/
def SlotSt.holding (h : Held) (x : SlotSt) : SlotSt := { x with mode := .held, hold := 3, held := some h }

/-- A held command that begins fetches on behind itself (R411). -/
theorem beginAt_facts (s : State) (n k : Nat) :
    SlotIs s (beginAt s n k) n ((slotOf s n).begun k) ∧ (slotOf (beginAt s n k) n).queue = (slotOf s n).queue ∧
    Does (maskOf [.slots]) s (beginAt s n k) :=
  ⟨SlotIs.set (fun _ _ => rfl) rfl, by rw [beginAt, slotOf_setSlot_self], does_setSlot _ _ _ (Does.refl _ s)⟩

theorem exec_jobStart_semOpAdd {s : State} {n : Slot} {w : List Nat} {refs : List Ref}
    (hheld : (slotOf s n).held = some { op := 0x0A, words := w, refs := refs }) (hruns : feRuns s = true)
    (hvalid : (slotOf s n).valid = true) (hmode : (slotOf s n).mode = .held) (hhold : (slotOf s n).hold = 3)
    (hkind : bits (nth w 1) 0 2 = 1) (hidle : queueIdle s (slotOf s n).queue = true) (ecc : Ecc) :
    exec (.jobStart n ecc) s = .next (beginSemAdd (beginAt s n w.length) n w refs) := by
  have hact : heldAct ecc 0x0A w = actSemOpAdd := by
    unfold heldAct
    simp only [hkind]
  show execJobStart n ecc s = _
  unfold execJobStart
  simp only [hheld]
  rw [if_pos ⟨hruns, hvalid, hmode, Or.inl hhold⟩, hact]
  exact congrArg Host.Outcome.next (if_pos hidle)

/-! ### WRITE_REG (R416) -/

/-- A register of SEC_PASS after a write of `v`, field by field (R416). -/
def passPut (s : State) (p v k : Nat) : State :=
  wr s (passReg p k) (writeFlds (rd s (passReg p k)) v (fieldsAt (passReg p k)))

theorem actWriteReg_cases (s : State) (n : Nat) (w : List Nat) {u : State} {p i : Nat} (hu : u = beginAt s n w.length)
    (hp : p = (que u (slotOf u n).queue).part) (hi : i = bits (nth w 1) 0 3) :
    (4 ≤ i → actWriteReg s n w [] = instantJob u (slotOf u n).queue 0) ∧
    ∀ k, (i = 0 ∧ k = 0x0C ∨ i = 1 ∧ k = 0x10 ∨ i = 3 ∧ k = 0x18) →
      actWriteReg s n w [] = instantJob (passPut u p (nth w 2) k) (slotOf u n).queue 0 := by
  have hlt : i < 8 := hi ▸ bits_lt _ _ _
  subst hu hp
  unfold actWriteReg passPut
  dsimp only
  rw [← hi]
  refine ⟨fun h4 => ?_, ?_⟩
  · have : i = 4 ∨ i = 5 ∨ i = 6 ∨ i = 7 := by omega
    rcases this with rfl | rfl | rfl | rfl <;> rfl
  · rintro k (⟨rfl, rfl⟩ | ⟨rfl, rfl⟩ | ⟨rfl, rfl⟩) <;> rfl

/-- Settles O29, clause by clause: what decoding leaves (`began_facts`), the order that lets the command begin, then its
operation. -/
theorem fencesSemaphoresInQueues : Obligations.FencesSemaphoresInQueues := by
  unfold Obligations.FencesSemaphoresInQueues
  refine ⟨fun s n w r u a p q h hq hprev hu hfence hp hok habsent => ?_,
    fun s n w r u a p q f h hq hidle hu hfence hp hok hf => ?_,
    fun s n w u q sem h hq hu hsem => ⟨fun hkind hprev => ?_, fun hkind hidle hquiet => ?_, fun hkind hidle hquiet => ?_,
      fun hkind hprev hquiet hround => ?_⟩,
    fun s n w h hkind hbusy => ?_,
    fun s n ecc w refs q sem hheld hruns hvalid hmode hhold hkind hq hidle hsem hquiet => ?_,
    fun s n w u p q i h hu hq hp hi hne => ?_⟩
  · subst hq hp
    have hexec : exec (.waitFence n) s = .next (actWaitFence
        (decoded s n 0x08 [(nth w 1, { read := true, fence := true })]) n w [r]) := decodeAct h rfl
    obtain ⟨hbegan, hregs, hslot, hqueue⟩ := began_facts s n 0x08 [(nth w 1, { read := true, fence := true })] w.length
    have hact := prevDone_begins (op := 0x08) (needs := [(nth w 1, { read := true, fence := true })]) (w := w) (refs := [r])
      (act := beginWaitFence) hprev
    rw [← hu] at hbegan hregs hslot hqueue hact
    have hpart : (que u (slotOf u n).queue).part = (que s (slotOf s n).queue).part := by
      rw [hqueue, que_congr (hbegan.only.queues rfl)]
    have habsent' : fenceSlotOf u a = none := (fenceSlotOf_same (hbegan.only.fslots rfl) a).trans habsent
    have hwait := beginWaitFence_absent (n := n) (w := w) (r := r) hfence (by rw [hpart]; exact hok) habsent'
    obtain ⟨hjob, hheld, hdoes⟩ := waitBegun hslot hbegan (Does.refl _ u) (slotOf u n).queue 1 none
    rw [hpart, hbegan.only.pageIns rfl] at hwait
    rw [show actWaitFence _ _ _ _ = _ from hact, hwait] at hexec
    rw [hqueue] at hexec hjob hheld hdoes
    refine completes_of hexec (((hbegan.mono (Sub.of_eq rfl)).trans (hdoes.mono (Sub.of_eq rfl))).updPageIns rfl)
      ⟨fun o ho => (rd_congr (hdoes.only.regs rfl) o).trans (hregs o ho), hjob.congr rfl rfl rfl rfl rfl rfl rfl, rfl, ?_⟩
    exact hheld.congr rfl
  · subst hq hp
    have hexec : exec (.signalFence n) s = .next (actSignalFence
        (decoded s n 0x09 [(nth w 1, { write := true, fence := true })]) n w [r]) := decodeAct h rfl
    obtain ⟨hbegan, hregs, hslot, hqueue⟩ := began_facts s n 0x09 [(nth w 1, { write := true, fence := true })] w.length
    have hact := queueIdle_begins (op := 0x09) (needs := [(nth w 1, { write := true, fence := true })]) (w := w) (refs := [r])
      (act := beginSignalFence) hidle
    rw [← hu] at hbegan hregs hslot hqueue hact
    have hpart : (que u (slotOf u n).queue).part = (que s (slotOf s n).queue).part := by
      rw [hqueue, que_congr (hbegan.only.queues rfl)]
    have hsend := beginSignalFence_sends (n := n) (w := w) (r := r) hfence (by rw [hpart]; exact hok)
    rw [hpart, hqueue, ← hf] at hsend
    rw [show actSignalFence _ _ _ _ = _ from hact, hsend] at hexec
    have hjob : Does (maskOf [.queues]) u (instantJob u (slotOf s n).queue 0) := does_instantJob _ _ _ (Does.refl _ u)
    have hsig : Does (maskOf [.fsigs, .transits]) (instantJob u (slotOf s n).queue 0)
      (sendSignal (instantJob u (slotOf s n).queue 0) f) := does_sendSignal _ _ (Does.refl _ _)
    have hfslots : (instantJob u (slotOf s n).queue 0).fslots = s.fslots :=
      (hjob.only.fslots rfl).trans (hbegan.only.fslots rfl)
    obtain ⟨hresident, hgone⟩ := sendSignal_facts (instantJob u (slotOf s n).queue 0) f
    rw [fenceSlotOf_same hfslots, hjob.only.fsigs rfl, hjob.only.transits rfl, hbegan.only.fsigs rfl,
      hbegan.only.transits rfl, show f.addr = a by rw [hf]] at hresident hgone
    refine completes_of hexec
      ((hbegan.mono (Sub.of_eq rfl)).trans ((hjob.mono (Sub.of_eq rfl)).trans (hsig.mono (Sub.of_eq rfl))))
      ⟨fun o ho => (rd_congr ((hsig.only.regs rfl).trans (hjob.only.regs rfl)) o).trans (hregs o ho), ?_,
        hslot.congr ((hsig.only.slots rfl).trans (hjob.only.slots rfl)), hresident,
        fun h => (hgone (Option.not_isSome_iff_eq_none.1 (by rw [h]; decide))).symm⟩
    exact (instantJob_done u _ 0).congr (hbegan.only.queues rfl) (hbegan.only.jobs rfl) (hsig.only.queues rfl)
      (hsig.only.jobs rfl)
  · subst hq
    have hexec : exec (.semOpWait n) s = .next (actSemOpWait (decoded s n 0x0A []) n w []) :=
      decodeAct h (beq_iff_eq.mpr hkind)
    obtain ⟨hbegan, hregs, hslot, hqueue⟩ := began_facts s n 0x0A [] w.length
    have hact := prevDone_begins (op := 0x0A) (needs := []) (w := w) (refs := []) (act := beginSemWait) hprev
    rw [← hu] at hbegan hregs hslot hqueue hact
    by_cases hzero : nth w 2 = 0
    · rw [show actSemOpWait _ _ _ _ = _ from hact, beginSemWait_zero hsem hzero, hqueue] at hexec
      have hjob : Does (maskOf [.queues]) u (instantJob u (slotOf s n).queue 0) := does_instantJob _ _ _ (Does.refl _ u)
      exact completes_of hexec ((hbegan.mono (Sub.of_eq rfl)).trans (hjob.mono (Sub.of_eq rfl)))
        ⟨fun o ho => (rd_congr (hjob.only.regs rfl) o).trans (hregs o ho),
          fun _ => ⟨(instantJob_done u _ 0).congr (hbegan.only.queues rfl) (hbegan.only.jobs rfl) rfl rfl,
            hslot.congr (hjob.only.slots rfl)⟩, fun h => absurd hzero h⟩
    · have haclk : aclk u = aclk s := ownAclk hbegan rfl rfl rfl rfl
      rw [show actSemOpWait _ _ _ _ = _ from hact, beginSemWait_polls hsem hzero, hqueue, haclk] at hexec
      obtain ⟨hjob, hheld, hdoes⟩ := waitBegun hslot hbegan (Does.refl _ u) (slotOf s n).queue 2
        (some { sem := sem, want := .atLeast (nth w 2), issued := aclk s })
      exact completes_of hexec ((hbegan.mono (Sub.of_eq rfl)).trans (hdoes.mono (Sub.of_eq rfl)))
        ⟨fun o ho => (rd_congr (hdoes.only.regs rfl) o).trans (hregs o ho), fun h => absurd h hzero, fun _ => ⟨hjob, hheld⟩⟩
  · subst hq
    have hexec : exec (.semOpAdd n) s = .next (actSemOpAdd (decoded s n 0x0A []) n w []) :=
      decodeAct h (beq_iff_eq.mpr hkind)
    obtain ⟨hbegan, hregs, hslot, hqueue⟩ := began_facts s n 0x0A [] w.length
    have hact := queueIdle_begins (op := 0x0A) (needs := []) (w := w) (refs := []) (act := beginSemAdd) hidle
    rw [← hu] at hbegan hregs hslot hqueue hact
    rw [show actSemOpAdd _ _ _ _ = _ from hact] at hexec
    have hquiet' : SemQuiet u sem := quiet_congr (hbegan.only.semCycles rfl) (ownAclk hbegan rfl rfl rfl rfl) hquiet
    obtain ⟨hdoes, hbut, hjob, hslots, hval⟩ := semAdd_begun (refs := []) hsem hquiet'
    rw [hqueue] at hjob
    exact completes_of hexec ((hbegan.mono (Sub.of_eq rfl)).trans (hdoes.mono (Sub.of_eq rfl)))
      ⟨regsBut_app hregs hbut, hjob.congr (hbegan.only.queues rfl) (hbegan.only.jobs rfl) rfl rfl, hslot.congr hslots,
        hval.trans (by rw [semVal, hregs _ (semOff_fe sem (semOf_lt hsem))]; rfl)⟩
  · subst hq
    have hexec : exec (.semOpSub n) s = .next (actSemOpSub (decoded s n 0x0A []) n w []) :=
      decodeAct h (beq_iff_eq.mpr hkind)
    obtain ⟨hbegan, hregs, hslot, hqueue⟩ := began_facts s n 0x0A [] w.length
    have hact := queueIdle_begins (op := 0x0A) (needs := []) (w := w) (refs := []) (act := beginSemSub) hidle
    rw [← hu] at hbegan hregs hslot hqueue hact
    rw [show actSemOpSub _ _ _ _ = _ from hact] at hexec
    have hquiet' : SemQuiet u sem := quiet_congr (hbegan.only.semCycles rfl) (ownAclk hbegan rfl rfl rfl rfl) hquiet
    obtain ⟨hdoes, hbut, hjob, hlog, hval⟩ := semSub_begun hsem hquiet'
    rw [hqueue] at hjob
    exact completes_of hexec ((hbegan.mono (Sub.of_eq rfl)).trans (hdoes.mono (Sub.of_eq rfl)))
      ⟨regsBut_app hregs hbut, hjob.congr (hbegan.only.queues rfl) (hbegan.only.jobs rfl) rfl rfl,
        hlog.trans (hbegan.only.log rfl), hslot.congr (hdoes.only.slots rfl),
        hval.trans (by rw [semVal, hregs _ (semOff_fe sem (semOf_lt hsem))]; rfl)⟩
  · subst hq
    have hexec : exec (.semOpArrive n) s = .next (actSemOpArrive (decoded s n 0x0A []) n w []) :=
      decodeAct h (beq_iff_eq.mpr hkind)
    obtain ⟨hbegan, hregs, hslot, hqueue⟩ := began_facts s n 0x0A [] w.length
    have hact := prevDone_begins (op := 0x0A) (needs := []) (w := w) (refs := []) (act := beginSemArrive) hprev
    rw [← hu] at hbegan hregs hslot hqueue hact
    have haclk : aclk u = aclk s := ownAclk hbegan rfl rfl rfl rfl
    have hquiet' : SemQuiet u sem := quiet_congr (hbegan.only.semCycles rfl) haclk hquiet
    have hword : semVal u sem = semVal s sem := hregs _ (semOff_fe sem (semOf_lt hsem))
    obtain ⟨hval, hbut, hlog⟩ := semArrive_word hquiet' (semOf_lt hsem) 4 (bits (nth w 2) 0 16) (bits (nth w 2) 16 16)
    have hcount : Does (maskOf [.regs, .log, .msix, .semCycles]) u
        (semArriveAt u sem (aclk u) 4 (bits (nth w 2) 0 16) (bits (nth w 2) 16 16)) :=
      does_semArriveAt _ _ _ _ _ _ (Does.refl _ u)
    rw [show actSemOpArrive _ _ _ _ = _ from hact, beginSemArrive_counts hsem hquiet' (by rw [hword]; exact hround), hqueue,
      haclk] at hexec
    rw [haclk] at hval hbut hlog hcount
    obtain ⟨hjob, hheld, hdoes⟩ := waitBegun hslot hbegan hcount (slotOf s n).queue 2
      (some { sem := sem, want := .barrier (bits (nth w 2) 0 16), issued := aclk s })
    refine completes_of hexec
      ((hbegan.mono (Sub.of_eq rfl)).trans ((hcount.mono (Sub.of_eq rfl)).trans (hdoes.mono (Sub.of_eq rfl))))
      ⟨fun o ho => (rd_congr (hdoes.only.regs rfl) o).trans (regsBut_app hregs hbut o ho), hjob,
        (hdoes.only.log rfl).trans (hlog.trans (hbegan.only.log rfl)), ?_, hheld⟩
    rw [semVal_congr (hdoes.only.regs rfl), hval, hword]
  · have hexec : exec (.semOpAdd n) s = .next (actSemOpAdd (decoded s n 0x0A []) n w []) :=
      decodeAct h (beq_iff_eq.mpr hkind)
    obtain ⟨hqueue, hidle, -, -⟩ := decoded_order s n 0x0A []
    have hact : actSemOpAdd (decoded s n 0x0A []) n w [] = setSlot (decoded s n 0x0A []) n
        ((slotOf (decoded s n 0x0A []) n).holding { op := 0x0A, words := w, refs := [] }) :=
      if_neg (by rw [hqueue, hidle, hbusy]; decide)
    obtain ⟨hdoes, hregs, hslot⟩ := decoded_setsOnce s n 0x0A []
      (f := (·.holding { op := 0x0A, words := w, refs := [] })) fun _ _ _ _ => rfl
    rw [hact] at hexec
    exact completes_of hexec hdoes ⟨hregs, hslot⟩
  · subst hq
    obtain ⟨hslot, hqueue, hbegan⟩ := beginAt_facts s n w.length
    have hexec := exec_jobStart_semOpAdd hheld hruns hvalid hmode hhold hkind hidle ecc
    have hsem' : semOpTarget (beginAt s n w.length) n w = some sem := by
      rw [← hsem, semOpTarget, semOpTarget, hqueue]
      rfl
    generalize beginAt s n w.length = u at *
    obtain ⟨hdoes, hbut, hjob, hslots, hval⟩ := semAdd_begun (refs := refs) hsem'
      (quiet_congr (hbegan.only.semCycles rfl) (ownAclk hbegan rfl rfl rfl rfl) hquiet)
    rw [hqueue] at hjob
    rw [semVal_congr (hbegan.only.regs rfl)] at hval
    exact completes_of hexec ((hbegan.mono (Sub.of_eq rfl)).trans (hdoes.mono (Sub.of_eq rfl)))
      ⟨regsBut_congr (hbegan.only.regs rfl) hbut, hjob.congr (hbegan.only.queues rfl) (hbegan.only.jobs rfl) rfl rfl,
        hslot.congr hslots, hval⟩
  · subst hq hp
    have hexec : exec (.writeReg n) s = .next (actWriteReg (decoded s n 0x20 []) n w []) := decodeAct h rfl
    obtain ⟨hbegan, hregs, hslot, hqueue⟩ := began_facts s n 0x20 [] w.length
    rw [← hu] at hbegan hregs hslot hqueue
    have hpart : (que s (slotOf s n).queue).part = (que u (slotOf u n).queue).part := by
      rw [hqueue, que_congr (hbegan.only.queues rfl)]
    obtain ⟨hdropped, hwritten⟩ := actWriteReg_cases (decoded s n 0x20 []) n w hu hpart hi
    rw [hqueue] at hdropped hwritten
    have hwrites : 4 ≤ i ∨ ∃ k, i = 0 ∧ k = 0x0C ∨ i = 1 ∧ k = 0x10 ∨ i = 3 ∧ k = 0x18 := by
      have hcases : 4 ≤ i ∨ i = 0 ∨ i = 1 ∨ i = 3 := by omega
      rcases hcases with hi4 | hi0 | hi1 | hi3
      · exact Or.inl hi4
      · exact Or.inr ⟨0x0C, Or.inl ⟨hi0, rfl⟩⟩
      · exact Or.inr ⟨0x10, Or.inr (Or.inl ⟨hi1, rfl⟩)⟩
      · exact Or.inr ⟨0x18, Or.inr (Or.inr ⟨hi3, rfl⟩)⟩
    rcases hwrites with hi4 | ⟨k, hk⟩
    · have hjob : Does (maskOf [.queues]) u (instantJob u (slotOf s n).queue 0) := does_instantJob _ _ _ (Does.refl _ u)
      rw [hdropped hi4] at hexec
      exact completes_of hexec ((hbegan.mono (Sub.of_eq rfl)).trans (hjob.mono (Sub.of_eq rfl)))
        ⟨(instantJob_done u _ 0).congr (hbegan.only.queues rfl) (hbegan.only.jobs rfl) rfl rfl,
          hslot.congr (hjob.only.slots rfl), fun _ o ho => (rd_congr (hjob.only.regs rfl) o).trans (hregs o ho),
          fun k hk => by omega⟩
    · rw [hwritten k hk] at hexec
      have hput : Does (maskOf [.regs]) u (passPut u (que s (slotOf s n).queue).part (nth w 2) k) :=
        does_wr _ _ _ (Does.refl _ u)
      have hjob : Does (maskOf [.queues]) (passPut u (que s (slotOf s n).queue).part (nth w 2) k)
        (instantJob (passPut u (que s (slotOf s n).queue).part (nth w 2) k) (slotOf s n).queue 0) :=
        does_instantJob _ _ _ (Does.refl _ _)
      refine completes_of hexec
        ((hbegan.mono (Sub.of_eq rfl)).trans ((hput.mono (Sub.of_eq rfl)).trans (hjob.mono (Sub.of_eq rfl))))
        ⟨(instantJob_done _ _ 0).congr ((hput.only.queues rfl).trans (hbegan.only.queues rfl))
          ((hput.only.jobs rfl).trans (hbegan.only.jobs rfl)) rfl rfl,
          hslot.congr ((hjob.only.slots rfl).trans (hput.only.slots rfl)), fun h4 => by omega, fun j hj => ?_⟩
      obtain rfl : j = k := by omega
      exact ⟨fun o ho => (rd_congr (hjob.only.regs rfl) o).trans (regsBut_app hregs (wr_regsBut u _ _) o ho),
        (rd_congr (hjob.only.regs rfl) _).trans (rd_wr_self _ _ _)⟩

end Sys2Proof.Machine

/-!
Dispatches, workgroups, waves and queue priorities (R247 to R255, R117, R268, R421).
-/
namespace Sys2Proof.Machine

set_option Elab.async false

/-! ### DISPATCH (R247, R248) -/

theorem dispOf_congr {s t : State} (h : t.queues = s.queues) (q key : Nat) (w : List Nat) (r : Ref) :
    dispOf t q key w r = dispOf s q key w r := by
  unfold dispOf
  rw [que_congr h]

/-- A dispatch that begins, in the list of the dispatchers (R247). -/
def dispStarted (s : State) (q : Nat) (d : Disp) : State :=
  { startJob s q .dispatch with
    disps := (startJob s q .dispatch).disps ++ [{ d with key := (startJob s q .dispatch).jobKey }] }

theorem beginDispatch_eq {u : State} {n : Nat} (w : List Nat) (r : Ref)
    (hmodel : modelPart u (que u (slotOf u n).queue).part = false)
    (hlive : anyLive u (que u (slotOf u n).queue).part = true) :
    beginDispatch u n w [r] = if (dispOf u (slotOf u n).queue 0 w r).total = 0 then instantJob u (slotOf u n).queue 0
      else dispStarted u (slotOf u n).queue (dispOf u (slotOf u n).queue 0 w r) := by
  unfold beginDispatch
  simp only [hmodel, hlive, Bool.not_true, Bool.false_eq_true, if_false]
  rfl

theorem actDispatch_begins {s : State} {n : Nat} {w : List Nat} {r : Ref}
    (horder : prevDone s (slotOf s n).queue = true ∨ bit (nth w 1) 1 = true ∧ prevPlaced s (slotOf s n).queue = true)
    (needs : List (Nat × Need)) :
    actDispatch (decoded s n 0x10 needs) n w [r] = beginDispatch (began s n 0x10 needs w.length) n w [r] := by
  obtain ⟨hqueue, -, hprev, -⟩ := decoded_order s n 0x10 needs
  have hdoes := (decoded_facts s n 0x10 needs).1
  have hplaced : prevPlaced (decoded s n 0x10 needs) (slotOf s n).queue = prevPlaced s (slotOf s n).queue := by
    unfold prevPlaced jobsOf
    rw [hdoes.only.jobs rfl, que_congr (hdoes.only.queues rfl), hdoes.only.disps rfl]
  refine startOr_begins ?_
  rw [hqueue, hprev, hplaced]
  rcases horder with h | ⟨h, h'⟩
  · simp [h]
  · simp [h, h']

/-- A DISPATCH that may begin (R247, R248). -/
theorem exec_dispatch {s u : State} {n : Slot} {w : List Nat} {r : Ref} {d : Disp}
    (h : Decodes s n 0x10 w [(nth w 5, { read := true })] [r])
    (horder : prevDone s (slotOf s n).queue = true ∨ bit (nth w 1) 1 = true ∧ prevPlaced s (slotOf s n).queue = true)
    (hu : u = began s n 0x10 [(nth w 5, { read := true })] w.length)
    (hmodel : modelPart s (que s (slotOf s n).queue).part = false)
    (hlive : anyLive u (que s (slotOf s n).queue).part = true) (hd : d = dispOf s (slotOf s n).queue 0 w r) :
    exec (.dispatch n) s = .next
      (if d.total = 0 then instantJob u (slotOf s n).queue 0 else dispStarted u (slotOf s n).queue d) := by
  have hexec : exec (.dispatch n) s = .next (actDispatch (decoded s n 0x10 [(nth w 5, { read := true })]) n w [r]) :=
    decodeAct h rfl
  obtain ⟨hbegan, -, -, hqueue⟩ := began_facts s n 0x10 [(nth w 5, { read := true })] w.length
  rw [← hu] at hbegan hqueue
  have hpart : (que u (slotOf u n).queue).part = (que s (slotOf s n).queue).part := by
    rw [hqueue, que_congr (hbegan.only.queues rfl)]
  have hmodel' : modelPart u (que u (slotOf u n).queue).part = false := by
    rw [hpart, ← hmodel, modelPart, modelPart, hbegan.only.model rfl]
  rw [hexec, actDispatch_begins horder, ← hu, beginDispatch_eq w r hmodel' (by rw [hpart]; exact hlive), hqueue,
    dispOf_congr (hbegan.only.queues rfl), ← hd]

/-! ### Placement (R250, R251) -/

theorem resumeTimer_only (s : State) (key : Nat) : Does (maskOf [.jobs]) s (resumeTimer s key) :=
  does_resumeTimer _ _ (Does.refl _ s)

/-- A placed workgroup: its waves, its dispatch and the quad it used in this cycle (R251). -/
theorem placeGroup_facts (s : State) (d : Disp) (l : List Nat) :
    (placeGroup s d l).engines = (addWaves s d d.next 0 l).engines ∧
    (placeGroup s d l).disps = (s.disps.map fun x => if x.key = d.key then
      { x with next := x.next + 1, used := (x.used ++ l).eraseDups } else x) ∧
    tabFind (l.headD 0 / 4) (placeGroup s d l).placedIn = some (aclk s) ∧
    Does (maskOf [.engines, .jobs, .disps, .placedIn, .lastServed]) s (placeGroup s d l) := by
  have hwaves : Does (maskOf [.engines]) s (addWaves s d d.next 0 l) := does_addWaves _ _ _ _ _ (Does.refl _ s)
  have htimer := resumeTimer_only (addWaves s d d.next 0 l) d.key
  refine ⟨htimer.only.engines rfl, ?_, ?_, does_placeGroup _ _ _ (Does.refl _ s)⟩
  · have hdisps : (resumeTimer (addWaves s d d.next 0 l) d.key).disps = s.disps :=
      (htimer.only.disps rfl).trans (hwaves.only.disps rfl)
    rw [← hdisps]
    rfl
  · have haclk : aclk (resumeTimer (addWaves s d d.next 0 l) d.key) = aclk s :=
      (ownAclk htimer rfl rfl rfl rfl).trans (ownAclk hwaves rfl rfl rfl rfl)
    rw [← haclk]
    exact tabFind_insert_same _ _ _ (tabFind_drop_same _ _)

theorem exec_workgroupPlace {s : State} {p : Part} {c : Nat} {d : Disp} {l : List Nat}
    (hnext : nextDisp (atAclk s c) p = some d) (hplace : placeAt (atAclk s c) d (quadFresh (atAclk s c)) = some l) :
    exec (.workgroupPlace p c) s = .next (restoreScan (drainAll (placeGroup (atAclk s c) d l)
      (placeGroup (atAclk s c) d l).pres)) := by
  have hstep : dispatchStep (atAclk s c) p = placeGroup (atAclk s c) d l := by
    unfold dispatchStep
    simp only [hnext, hplace]
  show Host.Outcome.next _ = _
  rw [hstep]

/-! ### Waves (R253, R254) -/

theorem exec_waveEnd {s : State} {e : Eng} {w : Fin 8} {x : Wave} (hwave : waveAt s e w = some x)
    (hwork : x.work = .compute) (hstarted : x.started = true) (hspin : x.spin = none) (c : Nat) {v : State}
    (hv : v = if waveOf (dropWave (atAclk s c) e w) x.job e then dropWave (atAclk s c) e w
      else flcClean (dropWave (atAclk s c) e w) e) :
    exec (.waveEnd e w c) s = .next (restoreScan (drainAll v v.pres)) := by
  have hwave' : waveAt (atAclk s c) e w = some x := hwave
  show execWaveEnd e w c s = _
  unfold execWaveEnd
  simp only [hwave', hwork, hstarted, hspin, ne_eq, not_true_eq_false, Bool.not_true, Bool.false_eq_true, Option.isSome_none,
    or_self, if_false, ← hv]

/-- The engine `e` has its caches clean and its generators seeded for the job `key`, whose first wave there starts (R117, R253). -/
def seededFor (s : State) (e : Eng) (key : Nat) : State :=
  setEng (reseed (flcAcquire s e) e 0) e { eng (reseed (flcAcquire s e) e 0) e with
    seeded := key :: (eng (reseed (flcAcquire s e) e 0) e).seeded }

theorem seededFor_facts (s : State) (e : Eng) (c key : Nat) :
    Does (maskOf [.now, .engines]) s (seededFor (atAclk s c) e key) ∧
    eng (seededFor (atAclk s c) e key) e =
      { eng (flcAcquire s e) e with gens := (eng (reseed s e 0) e).gens, seeded := key :: (eng s e).seeded } ∧
    ∀ k, k ≠ e.val → eng (seededFor (atAclk s c) e key) k = eng s k := by
  have hself := reseed_self s e c
  have hkept : (eng (flcAcquire s e) e).seeded = (eng s e).seeded := by
    unfold flcAcquire
    rw [eng_setEng_self]
  refine ⟨does_setEng _ _ _ (does_reseed _ _ _ (does_flcAcquire _ _ (does_atAclk s c (Does.refl _ s)))), ?_, fun k hk =>
    (eng_setEng_other _ hk _).trans (reseed_other s e c k hk)⟩
  unfold seededFor
  rw [eng_setEng_self, hself]
  dsimp only
  rw [hkept]

/-- The state in which the wave of job `key` starts: its job's first wave on the engine seeds it (R253). -/
def seededOnce (s : State) (e : Eng) (key : Nat) : State :=
  if (eng s e).seeded.contains key then s else seededFor s e key

/-- The wave `x` at place `w` of engine `e` starts under the epoch that is fresh (R253, R254). -/
def waveStarted (v : State) (e : Eng) (w : Fin 8) (x : Wave) (d : Disp) : State :=
  setWave { v with fresh := v.fresh + 1 } e w { x with
    started := true, epoch := v.fresh, g := waveRegs { v with fresh := v.fresh + 1 } d x e v.fresh }

theorem seededOnce_not (s : State) (e : Eng) (key : Nat) :
    (if !(eng s e).seeded.contains key then seededFor s e key else s) = seededOnce s e key := by
  unfold seededOnce
  cases (eng s e).seeded.contains key
  · rfl
  · rfl

/-- A wave whose 32 cycles have passed starts (R253). -/
theorem exec_waveStart {s : State} {e : Eng} {w : Fin 8} {c : Nat} {x : Wave} {d : Disp} (hwave : waveAt s e w = some x)
    (hdisp : s.disps.find? (·.key == x.job) = some d) (hwork : x.work = .compute) (hstarted : x.started = false)
    (hdue : x.placedAt + 32 ≤ aclk (atAclk s c)) {v : State} (hv : v = seededOnce (atAclk s c) e d.key) :
    exec (.waveStart e w c) s = .next (setEng (waveStarted v e w x d) e { eng (waveStarted v e w x d) e with
      vreg := (eng (waveStarted v e w x d) e).vreg.filter (fun z => !x.blocks.contains (z.1 / 512 / 16)) ++ waveV0 x }) := by
  have hwave' : waveAt (atAclk s c) e w = some x := hwave
  have hdisp' : (atAclk s c).disps.find? (·.key == x.job) = some d := hdisp
  show execWaveStart e w c s = _
  unfold execWaveStart
  generalize atAclk s c = a at *
  simp only [hwave', hdisp']
  rw [if_neg (by rw [hwork, hstarted]; simpa using hdue)]
  rw [hv, ← seededOnce_not]
  rfl

/-! ### Completion (R255, R268) -/

theorem dropDisp_only (s : State) (key : Nat) : Does (maskOf [.disps, .pres, .xfers]) s (dropDisp s key) :=
  does_dropDisp _ _ (Does.refl _ s)

/-- The code with which a dispatch completes (R268). -/
def dispCode (d : Disp) (j : Job) : Nat :=
  if j.err ≠ 0 then j.err else if d.lost ≠ 0 then 0x70 else if d.lostData = true then 0x71 else 0

/-- The job of a dispatch that leaves the dispatchers ends (R255). -/
theorem endJob_dropped {s u : State} {key : Nat} {j : Job} (hu : Does (maskOf [.log, .msix]) (dropDisp s key) u)
    (hjob : jobOf s key = some j) (hstop : j.stop = none) (err : Nat) :
    (endJob u key err).disps = s.disps.filter (·.key != key) ∧ (∀ k, k ≠ j.queue → que (endJob u key err) k = que s k) ∧
    que (endJob u key err) j.queue = (que s j.queue).finish j.seq (if err ≠ 0 then err else j.err) ∧
    (endJob u key err).log = u.log := by
  obtain rfl : j.key = key := jobOf_key hjob
  have hdrop := dropDisp_only s j.key
  have hjob' : jobOf u j.key = some j :=
    (jobOf_congr ((hu.only.jobs rfl).trans (hdrop.only.jobs rfl)) _).trans hjob
  have hque (k : Nat) : que u k = que s k := que_congr ((hu.only.queues rfl).trans (hdrop.only.queues rfl)) k
  have hend : Does (maskOf [.queues, .jobs]) u (endJob u j.key err) := does_endJob _ _ _ (Does.refl _ u)
  obtain ⟨hfinish, -, -, hothers⟩ := endJob_ended hjob' hstop err
  rw [hque] at hfinish
  exact ⟨(hend.only.disps rfl).trans (hu.only.disps rfl), fun k hk => (hothers k hk).trans (hque k), hfinish,
    hend.only.log rfl⟩

theorem endDisp_facts {s : State} {d : Disp} {j : Job} (hjob : jobOf s d.key = some j) (hstop : j.stop = none) :
    (endDisp s d).disps = s.disps.filter (·.key != d.key) ∧ (∀ k, k ≠ j.queue → que (endDisp s d) k = que s k) ∧
    que (endDisp s d) j.queue = (que s j.queue).finish j.seq (dispCode d j) ∧
    (endDisp s d).log.seq =
      if j.err = 0 ∧ (d.lost ≠ 0 ∨ d.lostData = true) then (s.log.seq + 1) % 2 ^ 32 else s.log.seq := by
  have hdrop := dropDisp_only s d.key
  have hlog : (dropDisp s d.key).log = s.log := hdrop.only.log rfl
  unfold endDisp dispCode
  simp only [hjob, hstop, Option.isSome_none, Bool.false_eq_true, if_false]
  by_cases herr : j.err = 0
  · by_cases hlost : d.lost = 0
    · by_cases hdata : d.lostData = true
      · obtain ⟨hdisps, hothers, hfinish, hend⟩ := endJob_dropped (append_only (dropDisp s d.key)
          { code := 0x71, tag := d.part, kind := 1, unit := d.lostEng, queue := some d.queue,
            owner := (que (dropDisp s d.key) d.queue).owner, eflan := true }) hjob hstop 0x71
        simp only [herr, hlost, hdata, ne_eq, not_true_eq_false, if_false, if_true]
        refine ⟨hdisps, hothers, hfinish, ?_⟩
        rw [hend, append_seq, hlog, if_pos ⟨trivial, Or.inr trivial⟩]
      · obtain ⟨hdisps, hothers, hfinish, hend⟩ := endJob_dropped (Does.refl _ (dropDisp s d.key)) hjob hstop 0
        simp only [herr, hlost, hdata, ne_eq, not_true_eq_false, Bool.false_eq_true, if_false] at hfinish ⊢
        refine ⟨hdisps, hothers, hfinish, ?_⟩
        rw [hend, hlog, if_neg (by simp)]
    · obtain ⟨hdisps, hothers, hfinish, hend⟩ := endJob_dropped (append_only (dropDisp s d.key)
        { code := 0x70, tag := d.part, kind := 1, unit := d.lostEng, queue := some d.queue,
          owner := (que (dropDisp s d.key) d.queue).owner, eflan := true, detail := d.lost :: two d.lostLow }) hjob hstop 0x70
      simp only [herr, hlost, ne_eq, not_true_eq_false, not_false_eq_true, if_false, if_true]
      refine ⟨hdisps, hothers, hfinish, ?_⟩
      rw [hend, append_seq, hlog, if_pos ⟨trivial, Or.inl trivial⟩]
  · obtain ⟨hdisps, hothers, hfinish, hend⟩ := endJob_dropped (Does.refl _ (dropDisp s d.key)) hjob hstop j.err
    simp only [herr, ne_eq, not_false_eq_true, if_true] at hfinish ⊢
    refine ⟨hdisps, hothers, hfinish, ?_⟩
    rw [hend, hlog, if_neg (by simp)]

theorem exec_dispatchComplete {s : State} {q : Qid} {d : Disp}
    (h : s.disps.find? (fun d => d.queue == q.val && dispEnded s d) = some d) :
    exec (.dispatchComplete q) s = .next (restoreScan (rebindIdle (endDisp s d) d.part)) := by
  show execDispatchComplete q s = _
  unfold execDispatchComplete
  simp only [h]

/-! ### SET_PRIORITY (R421) -/

/-- A queue's priority override (R421). -/
def overridden (s : State) (k v : Nat) : State := setQue s k { que s k with prioSet := some v }

theorem actSetPriority_cases (s : State) (n : Nat) (w : List Nat) {u : State} {q k : Nat} (hu : u = beginAt s n w.length)
    (hq : q = (slotOf u n).queue) (hk : k = bits (nth w 1) 0 12) :
    actSetPriority s n w [] = if mayTarget u (que u q).part k then instantJob (overridden u k (bits (nth w 1) 16 3)) q 0
      else failInstant u q 0x28 := by
  subst hq hk hu
  rfl

theorem finish_prioSet (x : Queue) (n err : Nat) : (x.finish n err).prioSet = x.prioSet := rfl

theorem overridden_queues (s : State) (k v : Nat) : que (overridden s k v) k = { que s k with prioSet := some v } ∧
    ∀ i, i ≠ k → que (overridden s k v) i = que s i :=
  ⟨que_setQue_self _ _ _, fun i hi => by rw [overridden, que_setQue, if_neg hi]⟩

/-- SET_PRIORITY's own job ends at once, whether or not it is its own queue that gets the override (R421). -/
theorem instantJob_overridden (s : State) (k v q : Nat) :
    (que (instantJob (overridden s k v) q 0) k).prioSet = some v ∧
    (∀ i, i ≠ k → i ≠ q → que (instantJob (overridden s k v) q 0) i = que s i) ∧
    (k ≠ q → que (instantJob (overridden s k v) q 0) k = { que s k with prioSet := some v } ∧
      que (instantJob (overridden s k v) q 0) q = (que s q).took.finish (que s q).took.seq 0) := by
  obtain ⟨hset, hkept⟩ := overridden_queues s k v
  obtain ⟨hjob, hothers, -⟩ := instantJob_done (overridden s k v) q 0
  refine ⟨?_, fun i hk hq => (hothers i hq).trans (hkept i hk), fun hne => ⟨(hothers k hne).trans hset, ?_⟩⟩
  · by_cases hne : k = q
    · subst hne
      rw [hjob, finish_prioSet, hset]
      rfl
    · rw [hothers k hne, hset]
  · rw [hjob, hkept q (Ne.symm hne)]

theorem exec_setPriority {s u : State} {n : Slot} {w : List Nat} {q k : Nat} (h : Decodes s n 0x24 w [] [])
    (hq : q = (slotOf s n).queue) (hk : k = bits (nth w 1) 0 12) (hu : u = began s n 0x24 [] w.length) :
    exec (.setPriority n) s = .next (if mayTarget s (que s q).part k then
      instantJob (overridden u k (bits (nth w 1) 16 3)) q 0 else failInstant u q 0x28) := by
  have hexec : exec (.setPriority n) s = .next (actSetPriority (decoded s n 0x24 []) n w []) := decodeAct h rfl
  obtain ⟨hbegan, -, -, hqueue⟩ := began_facts s n 0x24 [] w.length
  rw [← hu] at hbegan hqueue
  have hque (i : Nat) : que u i = que s i := que_congr (hbegan.only.queues rfl) i
  have hmay : mayTarget u (que u q).part k = mayTarget s (que s q).part k := by
    unfold mayTarget
    rw [hque, hque]
  rw [hexec, actSetPriority_cases _ _ _ hu (hq.trans hqueue.symm) hk, hmay]

/-- Settles O32, clause by clause: each command's `exec_` equation names the state it leaves, and the facts about that state
(`placeGroup_facts`, `waveStart_key`, `endDisp_facts`, `instantJob_overridden`) give the clause. -/
theorem dispatchAndWaves : Obligations.DispatchAndWaves := by
  unfold Obligations.DispatchAndWaves
  refine ⟨fun s n w r u q d h hq horder hu hmodel hlive hd => ⟨fun htotal => ?_, fun htotal => ?_⟩,
    fun s p c d l hnext hplace => ?_, fun s e w c x d hwave hdisp hwork hstarted hdue => ?_,
    fun s e w c x hwave hwork hstarted hspin hmore => ?_, fun s e w c x hwave hwork hstarted hspin hlast => ?_,
    fun s q d j hdisp hjob hstop => ?_, fun s n w q k h hq hk => ⟨fun hmay => ?_, fun hmay => ?_⟩⟩
  · subst hq
    have hexec := exec_dispatch h horder hu hmodel hlive hd
    obtain ⟨hbegan, hregs, hslot, -⟩ := began_facts s n 0x10 [(nth w 5, { read := true })] w.length
    rw [← hu] at hbegan hregs hslot
    rw [if_neg htotal] at hexec
    have hstart : Does (maskOf [.queues, .jobs, .jobKey]) u (startJob u (slotOf s n).queue .dispatch) :=
      does_startJob _ _ _ (Does.refl _ u)
    refine completes_of hexec (((hbegan.mono (Sub.of_eq rfl)).trans (hstart.mono (Sub.of_eq rfl))).updDisps rfl)
      ⟨fun o ho => (rd_congr (hstart.only.regs rfl) o).trans (hregs o ho), ?_, hslot.congr (hstart.only.slots rfl), ?_⟩
    · exact (startJob_started u _ .dispatch).congr (hbegan.only.queues rfl) (hbegan.only.jobs rfl) (hbegan.only.jobKey rfl)
        (hbegan.only.now rfl) rfl rfl rfl
    · show (startJob u (slotOf s n).queue .dispatch).disps ++ _ = _
      rw [hstart.only.disps rfl, hbegan.only.disps rfl, ← hbegan.only.jobKey rfl]
      rfl
  · subst hq
    have hexec := exec_dispatch h horder hu hmodel hlive hd
    obtain ⟨hbegan, hregs, hslot, -⟩ := began_facts s n 0x10 [(nth w 5, { read := true })] w.length
    rw [← hu] at hbegan hregs hslot
    rw [if_pos htotal] at hexec
    have hjob : Does (maskOf [.queues]) u (instantJob u (slotOf s n).queue 0) := does_instantJob _ _ _ (Does.refl _ u)
    exact completes_of hexec ((hbegan.mono (Sub.of_eq rfl)).trans (hjob.mono (Sub.of_eq rfl)))
      ⟨fun o ho => (rd_congr (hjob.only.regs rfl) o).trans (hregs o ho),
        (instantJob_done u _ 0).congr (hbegan.only.queues rfl) (hbegan.only.jobs rfl) rfl rfl,
        hslot.congr (hjob.only.slots rfl)⟩
  · obtain ⟨hengines, hdisps, hplaced, hdoes⟩ := placeGroup_facts (atAclk s c) d l
    have hexec := exec_workgroupPlace hnext hplace
    generalize placeGroup (atAclk s c) d l = v at *
    have hafter := restoreAfter v
    refine completes_of hexec (((does_atAclk s c (Does.refl _ s)).trans (hdoes.mono (Sub.of_eq rfl))).trans
        (hafter.mono (Sub.of_eq rfl)))
      ⟨(hafter.only.engines rfl).trans hengines, (hafter.only.disps rfl).trans hdisps, ?_, fun e b hl hb => ?_⟩
    · rw [hafter.only.placedIn rfl, hplaced, ownAclk hafter rfl rfl rfl rfl, ownAclk hdoes rfl rfl rfl rfl]
    · subst hl hb
      have haclk : aclk (restoreScan (drainAll v v.pres)) = aclk (atAclk s c) :=
        (ownAclk hafter rfl rfl rfl rfl).trans (ownAclk hdoes rfl rfl rfl rfl)
      have heng (k : Nat) : eng (restoreScan (drainAll v v.pres)) k = eng (addWave (atAclk s c) d d.next 0 e) k :=
        eng_congr ((hafter.only.engines rfl).trans hengines) k
      refine ⟨fun k hk => (heng k).trans (eng_setEng_other _ hk _), ?_⟩
      rw [heng, haclk, addWave, eng_setEng_self]
      rfl
  · obtain ⟨hdoes, hself, hothers⟩ := seededFor_facts s e c d.key
    have hexec := exec_waveStart hwave hdisp hwork hstarted hdue rfl
    cases hseeded : (eng s e).seeded.contains d.key
    · have hseed : seededOnce (atAclk s c) e d.key = seededFor (atAclk s c) e d.key :=
        if_neg (fun htrue => Bool.false_ne_true (hseeded.symm.trans htrue))
      rw [hseed] at hexec
      obtain ⟨t, hrun, hchanged, hrest, hwaves, hvreg, hfirst, hgens, hlines⟩ := waveStart_key hdoes
        (by rw [hself, flcAcquire, eng_setEng_self]) (by rw [hself, flcAcquire, eng_setEng_self]) hothers hexec
      refine ⟨t, hrun, hchanged, hrest, hwaves, hvreg, fun hfalse => absurd hfalse (by decide), fun _ => ⟨?_, ?_, ?_⟩⟩
      · rw [hfirst, hself]
      · rw [hgens, hself]
      · rw [hlines, hself]
    · have hseed : seededOnce (atAclk s c) e d.key = atAclk s c := if_pos hseeded
      rw [hseed] at hexec
      obtain ⟨t, hrun, hchanged, hrest, hwaves, hvreg, hfirst, hgens, -⟩ := waveStart_key
        (does_atAclk s c (Does.refl _ s)) rfl rfl (fun _ _ => rfl) hexec
      exact ⟨t, hrun, hchanged, hrest, hwaves, hvreg, fun _ => ⟨hfirst, hgens⟩, fun hfalse => absurd hfalse (by decide)⟩
  · have hexec := exec_waveEnd hwave hwork hstarted hspin c (v := dropWave (atAclk s c) e w) (by rw [if_pos hmore])
    have hafter := restoreAfter (dropWave (atAclk s c) e w)
    have hdrop : Does (maskOf [.engines]) (atAclk s c) (dropWave (atAclk s c) e w) := does_dropWave _ _ _ (Does.refl _ _)
    have heng (k : Nat) := eng_congr (hafter.only.engines rfl) k
    refine completes_of hexec (((does_atAclk s c (Does.refl _ s)).trans (hdrop.mono (Sub.of_eq rfl))).trans
      (hafter.mono (Sub.of_eq rfl))) ⟨fun k hk => (heng k).trans (eng_setEng_other _ hk _), ?_, ?_⟩
    · rw [heng, dropWave, eng_setEng_self]
      rfl
    · rw [waveAt, heng]
      exact waveAt_dropWave _ _ _
  · have hexec := exec_waveEnd hwave hwork hstarted hspin c (v := flcClean (dropWave (atAclk s c) e w) e)
      (by rw [if_neg (by rw [hlast]; decide)])
    exact completes_out hexec (does_execWaveEnd e w c s (Does.refl _ s)) ((restoreAfter _).only.engines rfl)
  · have hexec := exec_dispatchComplete hdisp
    obtain ⟨hdisps, hothers, hfinish, hseq⟩ := endDisp_facts hjob hstop
    have hrebind : Does (maskOf [.regs]) (endDisp s d) (rebindIdle (endDisp s d) d.part) := does_rebindIdle _ _ (Does.refl _ _)
    have hscan := restore_only (rebindIdle (endDisp s d) d.part)
    have hque (k : Nat) := que_congr ((hscan.only.queues rfl).trans (hrebind.only.queues rfl)) k
    refine completes_out hexec (does_execDispatchComplete q s (Does.refl _ s))
      ⟨(hscan.only.disps rfl).trans ((hrebind.only.disps rfl).trans hdisps), fun k hk => (hque k).trans (hothers k hk),
        (hque _).trans hfinish, ?_⟩
    rw [hscan.only.log rfl, hrebind.only.log rfl]
    exact hseq
  · have hexec := exec_setPriority h hq hk rfl
    rw [if_pos hmay] at hexec
    obtain ⟨hbegan, hregs, hslot, -⟩ := began_facts s n 0x24 [] w.length
    generalize began s n 0x24 [] w.length = u at *
    have hque (i : Nat) : que u i = que s i := que_congr (hbegan.only.queues rfl) i
    have hset : Does (maskOf [.queues]) u (instantJob (overridden u k (bits (nth w 1) 16 3)) q 0) :=
      does_instantJob _ _ _ (does_setQue _ _ _ (Does.refl _ u))
    obtain ⟨hprio, hrest, hboth⟩ := instantJob_overridden u k (bits (nth w 1) 16 3) q
    rw [hque k, hque q] at hboth
    exact completes_of hexec ((hbegan.mono (Sub.of_eq rfl)).trans (hset.mono (Sub.of_eq rfl)))
      ⟨fun o ho => (rd_congr (hset.only.regs rfl) o).trans (hregs o ho), hslot.congr (hset.only.slots rfl), hprio,
        fun i hk hq => (hrest i hk hq).trans (hque i), hboth⟩
  · have hexec := exec_setPriority h hq hk rfl
    rw [if_neg (by rw [hmay]; decide)] at hexec
    obtain ⟨hbegan, hregs, hslot, -⟩ := began_facts s n 0x24 [] w.length
    generalize began s n 0x24 [] w.length = u at *
    have hrecord : Does (maskOf [.log, .msix]) u (jobRecord u q 0x28 7 ((que u q).slot.getD 0) []) := append_only _ _
    have hseq : (jobRecord u q 0x28 7 ((que u q).slot.getD 0) []).log.seq = (u.log.seq + 1) % 2 ^ 32 := append_seq _ _
    have hjob := instantJob_done (jobRecord u q 0x28 7 ((que u q).slot.getD 0) []) q 0x28
    have hfail : Does (maskOf [.queues]) (jobRecord u q 0x28 7 ((que u q).slot.getD 0) []) (failInstant u q 0x28) :=
      does_instantJob _ _ _ (Does.refl _ _)
    refine completes_of hexec ((hbegan.mono (Sub.of_eq rfl)).trans ((hrecord.mono (Sub.of_eq rfl)).trans
      (hfail.mono (Sub.of_eq rfl)))) ⟨fun o ho => ?_, ?_, ?_, ?_⟩
    · exact (rd_congr ((hfail.only.regs rfl).trans (hrecord.only.regs rfl)) o).trans (hregs o ho)
    · exact hslot.congr ((hfail.only.slots rfl).trans (hrecord.only.slots rfl))
    · exact hjob.congr ((hrecord.only.queues rfl).trans (hbegan.only.queues rfl))
        ((hrecord.only.jobs rfl).trans (hbegan.only.jobs rfl)) rfl rfl
    · rw [hfail.only.log rfl, hseq, hbegan.only.log rfl]

end Sys2Proof.Machine

/-!
Spills and restores of live ranges (R259 to R265, R331).
-/
namespace Sys2Proof.Machine

set_option Elab.async false

theorem cxOf_congr {s t : State} (h : t.cx = s.cx) (k : Nat) : cxOf t k = cxOf s k := by
  unfold cxOf
  rw [h]

/-- What the end of a transfer leaves on its compression engine (R331). -/
theorem xferEnd_facts (s : State) (k : Nat) :
    Does (maskOf [.regs, .jobs, .cx, .pres, .xfers]) s (restoreScan (xferOver s k)) ∧
    (cxOf (restoreScan (xferOver s k)) k).xfer = none ∧
    (cxOf (restoreScan (xferOver s k)) k).inBytes = (cxOf s k).inBytes ∧
    (cxOf (restoreScan (xferOver s k)) k).outBytes = (cxOf s k).outBytes ∧
    (∀ i, i ≠ k → cxOf (restoreScan (xferOver s k)) i = cxOf s i) ∧
    RegsBut [cxBase + 0x40 * k + 0x14] s (restoreScan (xferOver s k)) ∧
    rd (restoreScan (xferOver s k)) (cxBase + 0x40 * k + 0x14) = (rd s (cxBase + 0x40 * k + 0x14) + 1) % 2 ^ 32 := by
  obtain ⟨hover, hxfer, hin, hout, hothers, hregs, hcount⟩ := xferOver_facts s k
  have hscan := restore_only (xferOver s k)
  have hcx (i : Nat) : cxOf (restoreScan (xferOver s k)) i = cxOf (xferOver s k) i := cxOf_congr (hscan.only.cx rfl) i
  rw [hcx]
  exact ⟨(hover.mono (Sub.of_eq rfl)).trans (hscan.mono (Sub.of_eq rfl)), hxfer, hin, hout, fun i hi => (hcx i).trans (hothers i hi),
    fun o ho => (rd_congr (hscan.only.regs rfl) o).trans (hregs o ho), (rd_congr (hscan.only.regs rfl) _).trans hcount⟩

/-! ### Starts (R263) -/

theorem xferStart_completes {s t : State} {i : Instr} {k : Sector} {c : Nat} {x : Xfer}
    (hfirst : (restoreScan (atAclk s c)).xfers.find? (fun t => t.eng / 16 == k.val) = some x)
    (hnone : (cxOf s k).xfer = none) (hmid : (cxOf s k).mid = false) (hreset : (cxOf s k).resetFrom = none)
    (hexec : exec i s = .next t) (ht : t = xferStart (restoreScan (atAclk s c)) k x.restore) :
    Completes i s [.now, .jobs, .cx, .pres, .xfers] fun t =>
      cxOf t k = { cxOf s k with xfer := some x, xferAt := aclk t } ∧ (∀ i, i ≠ k.val → cxOf t i = cxOf s i) ∧
      t.xfers = (restoreScan (atAclk s c)).xfers.filter (· != x) := by
  have hscan := restore_only (atAclk s c)
  have hcx (i : Nat) : cxOf (restoreScan (atAclk s c)) i = cxOf s i := cxOf_congr (hscan.only.cx rfl) i
  have hclock := does_atAclk s c (Does.refl (maskOf [.now]) s)
  generalize restoreScan (atAclk s c) = u at *
  obtain ⟨hstart, hself, hothers, hxfers⟩ := xferStart_facts hfirst (by rw [hcx, hnone]) (by rw [hcx, hmid])
    (by rw [hcx, hreset]) rfl
  rw [← ht] at hstart hself hothers hxfers
  refine completes_of hexec (((hclock.mono (Sub.of_eq rfl)).trans (hscan.mono (Sub.of_eq rfl))).trans
    (hstart.mono (Sub.of_eq rfl))) ⟨?_, fun i hi => (hothers i hi).trans (hcx i), hxfers⟩
  rw [hself, hcx, ownAclk hstart rfl rfl rfl rfl]

/-! ### The end of a spill (R261, R262) -/

/-- The slot of a spilled live range holds `d`, and the engine's counters and list of work say so. -/
def spilled (s : State) (k : Nat) (x : Xfer) (d : List Byte) : State :=
  spillFrees (cxMoved { s with fresh := s.fresh + 1, hbm := s.hbm.writeBytes (spillAddr s x) d } k x.size d.length) x.key x.eng

theorem spillFrees_only (s : State) (key e : Nat) : Does (maskOf [.disps, .pres]) s (spillFrees s key e) :=
  does_spillFrees _ _ _ (Does.refl _ s)

theorem spilled_facts (s : State) (k : Nat) (x : Xfer) (d : List Byte) :
    Does (maskOf [.fresh, .hbm, .cx, .disps, .pres]) s (spilled s k x d) ∧
    (spilled s k x d).hbm = s.hbm.writeBytes (spillAddr s x) d ∧
    cxOf (spilled s k x d) k = { cxOf s k with
      inBytes := (cxOf s k).inBytes + x.size, outBytes := (cxOf s k).outBytes + d.length } ∧
    (∀ i, i ≠ k → cxOf (spilled s k x d) i = cxOf s i) ∧
    (spilled s k x d).disps = s.disps.map fun y => if y.key = x.key then { y with used := y.used.filter (· != x.eng) } else y := by
  refine ⟨does_spillFrees _ _ _ (does_cxMoved _ _ _ _ (((Does.refl _ s).updHbm rfl (Mem.wf_writeBytes d _ (spillAddr s x))).updFresh rfl)),
    rfl, ?_, fun i hi => ?_, rfl⟩
  · exact (cxMoved_facts _ k x.size d.length).1
  · exact (cxMoved_facts _ k x.size d.length).2 i hi

theorem exec_spillEnd {s : State} {k : Sector} {c : Nat} {x : Xfer} {d : List Byte} (hxfer : (cxOf s k).xfer = some x)
    (hspill : x.restore = false) (hgoes : xferStopped s x = false) (hdue : (cxOf s k).xferAt + xferTime x ≤ aclk (atAclk s c))
    (hd : d = spillData s x) (hfault : writeFault s x.part (spillAddr s x) d.length = none)
    (hdev : spillAddr s x + d.length ≤ 2 ^ 47) (pos : Nat) :
    exec (.spillEnd k c pos .ok) s = .next (restoreScan (xferOver (spilled (atAclk s c) k x d) k)) := by
  have hxfer' : (cxOf (atAclk s c) k).xfer = some x := hxfer
  have hgoes' : xferStopped (atAclk s c) x = false := hgoes
  have hdue' : ¬ aclk (atAclk s c) < (cxOf (atAclk s c) k).xferAt + xferTime x := Nat.not_lt.mpr hdue
  have hd' : spillData (atAclk s c) x = d := hd.symm
  have haddr : spillAddr (atAclk s c) x = spillAddr s x := rfl
  have hfault' : writeFault (atAclk s c) x.part (spillAddr (atAclk s c) x) d.length = none := hfault
  rw [← haddr] at hdev
  show execSpillEnd k c pos .ok s = _
  unfold execSpillEnd
  generalize atAclk s c = a at *
  have hwrite : devWrite { a with fresh := a.fresh + 1 } x.part (spillAddr a x) d =
      { a with fresh := a.fresh + 1, hbm := a.hbm.writeBytes (spillAddr a x) d } :=
    devWrite_all hdev ((writeFault_same (by rfl) _ _ _).trans hfault')
  simp only [hxfer', hspill, hgoes', if_neg hdue', reduceCtorEq, Bool.false_eq_true, if_false, tmEcc, hd', hfault', hwrite]
  rfl

/-! ### The end of a restore (R265) -/

/-- The live range of `x` holds `d` again, and the engine may be used. -/
def restored (s : State) (k : Nat) (x : Xfer) (d : List Byte) : State :=
  restoreDone (cxMoved { s with tile := s.tile.writeBytes (x.eng * 2 ^ 22 + x.base) d, fresh := s.fresh + 1 } k
    (spillBytes x.size) x.size) x.key x.eng false

theorem restoreDone_whole (s : State) (key e : Nat) : Does (maskOf [.disps, .pres]) s (restoreDone s key e false) ∧
    (restoreDone s key e false).disps =
      s.disps.map fun y => if y.key = key then { y with used := (e :: y.used).eraseDups } else y := by
  have heq : (fun y : Disp => if y.key = key then
      { y with used := (e :: y.used).eraseDups, lostData := y.lostData || false, lostEng := y.lostEng } else y) =
      fun y => if y.key = key then { y with used := (e :: y.used).eraseDups } else y := by
    funext y
    rw [Bool.or_false]
  exact ⟨((Does.refl _ s).updDisps rfl).updPres rfl, congrArg (fun f => s.disps.map f) heq⟩

theorem restored_facts (s : State) (k : Nat) (x : Xfer) (d : List Byte) :
    Does (maskOf [.fresh, .tile, .cx, .disps, .pres]) s (restored s k x d) ∧
    (restored s k x d).tile = s.tile.writeBytes (x.eng * 2 ^ 22 + x.base) d ∧
    (∀ i, i ≠ k → cxOf (restored s k x d) i = cxOf s i) ∧
    (restored s k x d).disps = s.disps.map fun y => if y.key = x.key then { y with used := (x.eng :: y.used).eraseDups } else y := by
  have hmoved : Does (maskOf [.fresh, .tile, .cx]) s (cxMoved
      { s with tile := s.tile.writeBytes (x.eng * 2 ^ 22 + x.base) d, fresh := s.fresh + 1 } k (spillBytes x.size) x.size) :=
    does_cxMoved _ _ _ _ (((Does.refl _ s).updTile rfl (Mem.wf_writeBytes _ _ _)).updFresh rfl)
  obtain ⟨hdone, hdisps⟩ := restoreDone_whole (cxMoved
    { s with tile := s.tile.writeBytes (x.eng * 2 ^ 22 + x.base) d, fresh := s.fresh + 1 } k (spillBytes x.size) x.size) x.key x.eng
  exact ⟨(hmoved.mono (Sub.of_eq rfl)).trans (hdone.mono (Sub.of_eq rfl)), rfl,
    fun i hi => (cxMoved_facts _ k (spillBytes x.size) x.size).2 i hi, hdisps⟩

theorem exec_restoreEnd {s : State} {k : Sector} {c : Nat} {x : Xfer} (hxfer : (cxOf s k).xfer = some x)
    (hrestore : x.restore = true) (hgoes : xferStopped s x = false)
    (hdue : (cxOf s k).xferAt + xferTime x ≤ aclk (atAclk s c))
    (hfault : readFault s x.part (spillAddr s x) (spillBytes x.size) = none) (pos : Nat) :
    exec (.restoreEnd k c pos .ok) s = .next (restoreScan (xferOver (restored (atAclk s c) k x (if x.size = 0 then [] else
      restoreData s x (devBytes s x.part (spillAddr s x) (spillBytes x.size)))) k)) := by
  have hxfer' : (cxOf (atAclk s c) k).xfer = some x := hxfer
  have hgoes' : xferStopped (atAclk s c) x = false := hgoes
  have hdue' : ¬ aclk (atAclk s c) < (cxOf (atAclk s c) k).xferAt + xferTime x := Nat.not_lt.mpr hdue
  have hfault' : readFault (atAclk s c) x.part (spillAddr (atAclk s c) x) (spillBytes x.size) = none := hfault
  have hbytes : devBytes (atAclk s c) x.part (spillAddr (atAclk s c) x) (spillBytes x.size) =
      devBytes s x.part (spillAddr s x) (spillBytes x.size) := devBytes_same (by rfl) (by rfl) (by rfl) _ _ _
  have hdata (b : List Byte) : restoreData (atAclk s c) x b = restoreData s x b := rfl
  show execRestoreEnd k c pos .ok s = _
  unfold execRestoreEnd
  generalize atAclk s c = a at *
  simp only [hxfer', hrestore, hgoes', if_neg hdue', Bool.not_true, reduceCtorEq, Bool.false_eq_true, if_false, mcEcc_ok, hfault',
    hbytes, hdata]
  rfl

/-- Settles O33: the moved bytes and the counters come from `spilled_facts` and `restored_facts`, the engine's freedom and its
count of transfers from `xferEnd_facts`. -/
theorem spillsAndRestores : Obligations.SpillsAndRestores := by
  unfold Obligations.SpillsAndRestores
  refine ⟨fun s k c x hfirst hnone hmid hreset => ⟨fun hspill => ?_, fun hrestore => ?_⟩,
    fun s k c pos x d hxfer hspill hgoes hdue hd hfault hdev => ?_, fun s k c pos x hxfer hrestore hgoes hdue hfault => ?_⟩
  · exact xferStart_completes hfirst hnone hmid hreset rfl (by rw [hspill])
  · exact xferStart_completes hfirst hnone hmid hreset rfl (by rw [hrestore])
  · have hexec := exec_spillEnd hxfer hspill hgoes hdue hd hfault hdev pos
    have hclock := does_atAclk s c (Does.refl (maskOf [.now]) s)
    obtain ⟨hdoes, hmem, hself, hcx, hdisps⟩ := spilled_facts (atAclk s c) k x d
    generalize spilled (atAclk s c) k x d = v at *
    obtain ⟨hend, hover, hin, hout, hothers, hregs, hcount⟩ := xferEnd_facts v k
    have hrd (o : Nat) : rd v o = rd s o := rd_congr (hdoes.only.regs rfl) o
    rw [hself] at hin hout
    rw [hrd] at hcount
    exact completes_of hexec (((hclock.mono (Sub.of_eq rfl)).trans (hdoes.mono (Sub.of_eq rfl))).trans (hend.mono (Sub.of_eq rfl)))
      ⟨stored_writeBytes ((hend.only.hbm rfl).trans hmem), hover, hin, hout, fun i hi => (hothers i hi).trans (hcx i hi), hcount,
        fun o ho => (hregs o ho).trans (hrd o), (hend.only.disps rfl).trans hdisps⟩
  · have hexec := exec_restoreEnd hxfer hrestore hgoes hdue hfault pos
    generalize (if x.size = 0 then [] else restoreData s x (devBytes s x.part (spillAddr s x) (spillBytes x.size))) = d at *
    have hclock := does_atAclk s c (Does.refl (maskOf [.now]) s)
    obtain ⟨hdoes, htile, hcx, hdisps⟩ := restored_facts (atAclk s c) k x d
    generalize restored (atAclk s c) k x d = v at *
    obtain ⟨hend, hover, -, -, hothers, hregs, hcount⟩ := xferEnd_facts v k
    have hrd (o : Nat) : rd v o = rd s o := rd_congr (hdoes.only.regs rfl) o
    rw [hrd] at hcount
    exact completes_of hexec (((hclock.mono (Sub.of_eq rfl)).trans (hdoes.mono (Sub.of_eq rfl))).trans (hend.mono (Sub.of_eq rfl)))
      ⟨(hend.only.tile rfl).trans htile, hover, fun i hi => (hothers i hi).trans (hcx i hi), hcount,
        fun o ho => (hregs o ho).trans (hrd o), (hend.only.disps rfl).trans hdisps⟩

end Sys2Proof.Machine
